-- ==== Sys2Proof/Word.lean ====
section
/-!
DEFINITION. The word types of the machine and the table type every sparse store uses (R2, R3, R9, R17).
-/
namespace Sys2Proof

/-- A scalar register, an `fi` or `fo` word, a control register (R9, R12). -/
abbrev Word := BitVec 64

/-- A 32-bit lane, syllable, header or run word (R3, R57). -/
abbrev W32 := BitVec 32

/-- One byte of memory. -/
abbrev Byte := BitVec 8

/-- The image of a vector register, a vector latch or a queue entry: lane i in bits 32i+31..32i (R3). -/
abbrev Vec := BitVec 512

/-- A table by key.  Keys rise strictly; what an unlisted key stands for is said where the table is read. -/
abbrev Tbl (α : Type) := List (Nat × α)

end Sys2Proof
end

