-- ==== Sys2Proof/Config.lean ====
section
/-!
DEFINITION. What an implementation fixes and what the spec leaves open.  An opaque constant has no value in any proof:
what a statement says of it holds for every value.
-/
namespace Sys2Proof.Config

/-- A byte the spec leaves undefined, drawn afresh for each use: the contents of a freed or newly allocated KV page
(R369), argument the free-value counter of the state (log 4). -/
opaque freeByte : Nat → Byte

/-- A 64-bit value the spec leaves open, drawn afresh for each use (log 4). -/
opaque freeWord : Nat → Word

/-- SHA3-256 of a string of bytes: a named standard (R410 to R413), left uninterpreted (log 7). -/
opaque sha3_256 : List Byte → BitVec 256

/-- Whether a byte string is an ML-DSA-44 signature of a message under a public key (R410 to R413): uninterpreted (log 7). -/
opaque mlDsaVerify : (key msg sig : List Byte) → Bool

/-- The ML-DSA-44 signature of a message under a secret key: uninterpreted (log 7). -/
opaque mlDsaSign : (key msg : List Byte) → List Byte

/-- The ML-DSA-44 public key of the pair derived from a seed: uninterpreted (log 7). -/
opaque mlDsaPublic : (seed : List Byte) → List Byte

/-- The Cuxani root key digest held in the boot ROM (R410): a constant the spec does not print (log 7). -/
opaque rootDigest : BitVec 256

/-- The length of a firmware image by the bytes of its manifest entry: Table 22-2 gives an image no length (log 7). -/
opaque imageLength : List Byte → Nat

/-- Where the reservation word QRSV of a queue is mapped in tier 2 (`false`) or tier 3 (`true`), as the number of an 8-byte word there; none when
it is mapped nowhere (R221; log 24). -/
opaque qrsvPlace : Nat → Option (Bool × Nat)

/-- The device secret: 32 bytes read from a circuit that no two devices share (R412; log 7). -/
opaque deviceSecret : BitVec 256

/-- What the attestation unit's seal operation makes of some bytes under a key: the spec gives it no format (R412; log 7). -/
opaque sealOf : (key : BitVec 256) → List Byte → List Byte

/-- What its unseal operation makes of some bytes under a key: a CODE, 0 when they unseal, and the contents (R412; log 7). -/
opaque unsealOf : (key : BitVec 256) → List Byte → Nat × List Byte

end Sys2Proof.Config
end

