-- ==== Sys2Proof/Machine/Table.lean ====
section
/-!
DEFINITION. The operations on sorted tables: reading, writing and removing one key, and the canonical form.
-/
namespace Sys2Proof.Machine

/-- The entry of key `k`, if it is listed. -/
def tfind {α : Type} : Tbl α → Nat → Option α
  | [], _ => none
  | (a, v) :: t, k => if k = a then some v else tfind t k

/-- The entry of key `k`, or `d` for a key that is not listed. -/
def tget {α : Type} (d : α) (t : Tbl α) (k : Nat) : α := (tfind t k).getD d

/-- List `v` under key `k`, in key order, replacing an entry of that key. -/
def tput {α : Type} (k : Nat) (v : α) : Tbl α → Tbl α
  | [] => [(k, v)]
  | (a, w) :: t =>
    if k < a then (k, v) :: (a, w) :: t
    else if k = a then (k, v) :: t
    else (a, w) :: tput k v t

/-- Remove every entry of key `k`. -/
def tdel {α : Type} (k : Nat) : Tbl α → Tbl α
  | [] => []
  | (a, w) :: t => if k = a then tdel k t else (a, w) :: tdel k t

/-- Write `v` under key `k` keeping the canonical form: the value `d` of unlisted keys is never listed. -/
def tset {α : Type} [DecidableEq α] (d : α) (k : Nat) (v : α) (t : Tbl α) : Tbl α :=
  if v = d then tdel k t else tput k v t

/-- Every key of the table lies above `lo`, keys rise strictly and no entry equals `d`. -/
def twfFrom {α : Type} [DecidableEq α] (d : α) : Option Nat → Tbl α → Bool
  | _, [] => true
  | lo, (a, v) :: t =>
    (match lo with | none => true | some l => decide (l < a)) && !decide (v = d) && twfFrom d (some a) t

/-- The canonical form of a table whose unlisted keys stand for `d`. -/
def twf {α : Type} [DecidableEq α] (d : α) (t : Tbl α) : Bool := twfFrom d none t

/-- The keys of a table. -/
def tkeys {α : Type} (t : Tbl α) : List Nat := t.map (·.1)

/-- Apply `f` to the entry of key `k` (`d` when unlisted) and list the answer. -/
def tmod {α : Type} (d : α) (k : Nat) (f : α → α) (t : Tbl α) : Tbl α := tput k (f (tget d t k)) t

/-- The numbers `lo, lo+1, …` (`n` of them). -/
def countUp : Nat → Nat → List Nat
  | _, 0 => []
  | lo, n + 1 => lo :: countUp (lo + 1) n

/-- Entry `i` of a list, or `d` beyond its end. -/
def lget {α : Type} (d : α) : List α → Nat → α
  | [], _ => d
  | a :: _, 0 => a
  | _ :: t, i + 1 => lget d t i

/-- Replace entry `i` of a list; beyond its end nothing changes. -/
def lset {α : Type} : List α → Nat → α → List α
  | [], _, _ => []
  | _ :: t, 0, v => v :: t
  | a :: t, i + 1, v => a :: lset t i v

/-- The first element that meets `p`, with its position counted from `i`. -/
def findIdx {α : Type} (p : α → Bool) : Nat → List α → Option (Nat × α)
  | _, [] => none
  | i, a :: t => if p a then some (i, a) else findIdx p (i + 1) t

/-- Remove the element at position `i`. -/
def ldel {α : Type} : List α → Nat → List α
  | [], _ => []
  | _ :: t, 0 => t
  | a :: t, i + 1 => a :: ldel t i

end Sys2Proof.Machine
end

