-- ==== Sys2Proof/Machine/Float.lean ====
section
/-!
DEFINITION. Number formats and arithmetic (R30 to R42, R47, R51): exact values, one rounding routine, the IEEE
formats, BF16, the binary8 family, the chain and rotator formats, comparisons, conversions and the sticky flags.
-/
namespace Sys2Proof.Machine

/-- A set of arithmetic flags: [5] SAT, [4] NV, [3] DZ, [2] OF, [1] UF, [0] NX (Table 2-7). -/
abbrev Flags := BitVec 6

/-- NX alone (Table 2-7). -/
def fNX : Flags := 0x01#6
/-- UF alone. -/
def fUF : Flags := 0x02#6
/-- OF alone. -/
def fOF : Flags := 0x04#6
/-- DZ alone. -/
def fDZ : Flags := 0x08#6
/-- NV alone. -/
def fNV : Flags := 0x10#6
/-- SAT alone. -/
def fSAT : Flags := 0x20#6

/-- An exact number, or what a format holds beside numbers.  `fin n m e` is m × 2^e, negated when `n`; a zero keeps
its sign. -/
inductive FV where
  | nan (signalling : Bool)
  | inf (neg : Bool)
  | fin (neg : Bool) (m : Nat) (e : Int)
  deriving DecidableEq, Repr

/-- The quiet NaN of R32. -/
def FV.qnan : FV := .nan false
/-- Positive zero. -/
def FV.zero : FV := .fin false 0 0
/-- An integer as an exact number. -/
def FV.ofInt (i : Int) : FV := .fin (decide (i < 0)) i.natAbs 0
/-- Whether the operand is a NaN. -/
def FV.isNan : FV → Bool | .nan _ => true | _ => false
/-- Whether the operand is an infinity. -/
def FV.isInf : FV → Bool | .inf _ => true | _ => false
/-- Whether the operand is a zero of either sign. -/
def FV.isZero : FV → Bool | .fin _ 0 _ => true | _ => false
/-- The sign of an operand. -/
def FV.neg? : FV → Bool | .nan _ => false | .inf n => n | .fin n _ _ => n
/-- The operand with the sign inverted. -/
def FV.negate : FV → FV | .nan s => .nan s | .inf n => .inf (!n) | .fin n m e => .fin (!n) m e
/-- The magnitude of an operand. -/
def FV.abs : FV → FV | .nan s => .nan s | .inf _ => .inf false | .fin _ m e => .fin false m e
/-- NV for a signalling operand (R32). -/
def FV.sig : FV → Flags | .nan true => fNV | _ => 0

/-- A binary format with a hidden bit: `p` significant bits, exponent bias, largest normal exponent field. -/
structure Fmt where
  p : Nat
  bias : Nat
  emax : Nat
  sub : Bool
  deriving DecidableEq, Repr

/-- binary32 (R31). -/
def fmt32 : Fmt := ⟨24, 127, 254, true⟩
/-- binary16 (R31). -/
def fmt16 : Fmt := ⟨11, 15, 30, true⟩
/-- BF16 (R31). -/
def fmtBf : Fmt := ⟨8, 127, 254, true⟩
/-- The chain format (R47). -/
def fmtChain : Fmt := ⟨48, 511, 1022, true⟩
/-- The rotator format (R51): no subnormals. -/
def fmtRot : Fmt := ⟨35, 255, 510, false⟩

/-- The exponent of the least normal value of a format. -/
def Fmt.emin (f : Fmt) : Int := 1 - f.bias
/-- The exponent of the unit in the last place of the subnormal range. -/
def Fmt.qmin (f : Fmt) : Int := f.emin - (f.p - 1 : Nat)
/-- The largest finite magnitude as m × 2^e. -/
def Fmt.maxFin (f : Fmt) : Nat × Int := (2 ^ f.p - 1, (f.emax : Int) - f.bias - (f.p - 1 : Nat))

/-- The floor of log2 of num/den, both non-zero. -/
def floorLog2 (num den : Nat) : Int :=
  let l : Int := (Nat.log2 num : Int) - (Nat.log2 den : Int)
  let ge := if l ≥ 0 then decide (den <<< l.toNat ≤ num) else decide (den ≤ num <<< (-l).toNat)
  if ge then l else l - 1

/-- num/den × 2^s as a fraction with a whole numerator and denominator. -/
def scaleFrac (num den : Nat) (s : Int) : Nat × Nat :=
  if s ≥ 0 then (num <<< s.toNat, den) else (num, den <<< (-s).toNat)

/-- Rounding directions of R38; SRNE rounds as RNE and clamps afterwards. -/
inductive RMode where
  | rne | rtz | srne
  deriving DecidableEq, Repr

/-- Round num/den to a whole number; the Bool says that the value was not whole.  A tie between the two halves of a format with one significant
bit has q = 1, so that it is rounded up (R38; DEDUCED, log 20). -/
def roundNat (m : RMode) (num den : Nat) : Nat × Bool :=
  let q := num / den
  let r := num % den
  let up := match m with
    | .rtz => false
    | _ => decide (den < 2 * r) || (decide (2 * r = den) && decide (q % 2 = 1))
  (if up then q + 1 else q, decide (r ≠ 0))

/-- Round num/den × 2^e (non-zero) to `p` significant bits, on a grid no finer than 2^q when `q` is given:
the whole multiple, the exponent of the grid, and whether the value changed. -/
def roundGrid (m : RMode) (num den : Nat) (e : Int) (p : Nat) (q : Option Int) : Nat × Int × Bool :=
  let g := floorLog2 num den + e - (p - 1 : Nat)
  let g := match q with | none => g | some q => max g q
  let (n, d) := scaleFrac num den (e - g)
  let (k, nx) := roundNat m n d
  (k, g, nx)

/-- Whether m × 2^e exceeds m' × 2^e' (magnitudes). -/
def magGt (m : Nat) (e : Int) (m' : Nat) (e' : Int) : Bool :=
  if e ≥ e' then decide (m' < m <<< (e - e').toNat) else decide (m' <<< (e' - e).toNat < m)

/-- Compare the magnitudes m × 2^e and m' × 2^e'. -/
def magCmp (m : Nat) (e : Int) (m' : Nat) (e' : Int) : Ordering :=
  if e ≥ e' then compare (m <<< (e - e').toNat) m' else compare m (m' <<< (e' - e).toNat)

/-- The rounding of the exact value ±num/den × 2^e into format `f` by RNE (R8, R31, R33, R47, R51), with its flags:
overflow gives an infinity with OF and NX; a tiny inexact result raises UF and NX, tininess being found after rounding
with an unbounded exponent; a format without subnormals flushes a tiny result to zero. -/
def roundTo (f : Fmt) (neg : Bool) (num den : Nat) (e : Int) : FV × Flags :=
  if num = 0 then (.fin neg 0 0, 0)
  else
    let u := roundGrid .rne num den e f.p none
    let tiny := magGt 1 f.emin u.1 u.2.1
    let mx := f.maxFin
    if magGt u.1 u.2.1 mx.1 mx.2 then (.inf neg, fOF ||| fNX)
    else if !tiny then (.fin neg u.1 u.2.1, if u.2.2 then fNX else 0)
    else if f.sub then
      let b := roundGrid .rne num den e f.p (some f.qmin)
      (.fin neg b.1 b.2.1, if b.2.2 then fUF ||| fNX else 0)
    else (.fin neg 0 0, fUF ||| fNX)

/-- The rounding of an exact operand into format `f`; a NaN becomes the quiet NaN, raising NV when signalling. -/
def roundFV (f : Fmt) : FV → FV × Flags
  | .nan s => (.qnan, if s then fNV else 0)
  | .inf n => (.inf n, 0)
  | .fin n m e => roundTo f n m 1 e

/-- The bits of a finite, already rounded value in format `f` with `t` fraction bits: exponent field and fraction. -/
def packFin (f : Fmt) (m : Nat) (e : Int) : Nat :=
  if m = 0 then 0
  else
    let t := f.p - 1
    let ex := (Nat.log2 m : Int) + e
    if ex < f.emin then (scaleFrac m 1 (e - f.qmin)).1 / (scaleFrac m 1 (e - f.qmin)).2
    else
      let k := scaleFrac m 1 (e - (ex - t))
      ((ex + f.bias).toNat - 1) * 2 ^ t + k.1 / k.2

/-- The bits of a value in format `f` of `w` bits in all; NaN is the canonical NaN `cn` (R32). -/
def packFV (f : Fmt) (w cn : Nat) : FV → BitVec w
  | .nan _ => BitVec.ofNat w cn
  | .inf n => BitVec.ofNat w ((if n then 2 ^ (w - 1) else 0) + (f.emax + 1) * 2 ^ (f.p - 1))
  | .fin n m e => BitVec.ofNat w ((if n then 2 ^ (w - 1) else 0) + packFin f m e)

/-- The value of the bits `b` in format `f` of `w` bits (R31). -/
def unpackFV (f : Fmt) (w : Nat) (b : BitVec w) : FV :=
  let t := f.p - 1
  let n := b.msb
  let ex := (b.toNat >>> t) % (f.emax + 2)
  let fr := b.toNat % 2 ^ t
  if ex = f.emax + 1 then
    if fr = 0 then .inf n else .nan (decide (fr < 2 ^ (t - 1)))
  else if ex = 0 then .fin n fr f.qmin
  else .fin n (2 ^ t + fr) ((ex : Int) - f.bias - t)

/-- The value of an FP32 lane. -/
def val32 (b : W32) : FV := unpackFV fmt32 32 b
/-- The value of a binary16 element. -/
def val16 (b : BitVec 16) : FV := unpackFV fmt16 16 b
/-- The value of a BF16 element. -/
def valBf (b : BitVec 16) : FV := unpackFV fmtBf 16 b
/-- RNE32 (R7): the exact value rounded to FP32, with its flags. -/
def rne32 (x : FV) : W32 × Flags := let r := roundFV fmt32 x; (packFV fmt32 32 0x7FC00000 r.1, r.2)
/-- RNE16. -/
def rne16 (x : FV) : BitVec 16 × Flags := let r := roundFV fmt16 x; (packFV fmt16 16 0x7E00 r.1, r.2)
/-- Rounding to BF16 with ties to even. -/
def rneBf (x : FV) : BitVec 16 × Flags := let r := roundFV fmtBf x; (packFV fmtBf 16 0x7FC0 r.1, r.2)
/-- RNEC (R47): the rounding to the chain format. -/
def rneC (x : FV) : FV × Flags := roundFV fmtChain x
/-- RNER (R51): the rounding to the rotator format. -/
def rneR (x : FV) : FV × Flags := roundFV fmtRot x

/-- The exact sum; NV for ∞ − ∞ and for a signalling operand (R31, R32).  An exact zero sum of operands of opposite
signs is +0. -/
def fvAdd (a b : FV) : FV × Flags :=
  match a, b with
  | .nan _, _ => (.qnan, a.sig ||| b.sig)
  | _, .nan _ => (.qnan, b.sig)
  | .inf n, .inf k => if n = k then (.inf n, 0) else (.qnan, fNV)
  | .inf n, .fin _ _ _ => (.inf n, 0)
  | .fin _ _ _, .inf n => (.inf n, 0)
  | .fin n m e, .fin k l g =>
    if m = 0 ∧ l = 0 then (.fin (n && k) 0 0, 0)
    else
      let x := min e g
      let i : Int := (m <<< (e - x).toNat : Nat)
      let j : Int := (l <<< (g - x).toNat : Nat)
      let t := (if n then -i else i) + (if k then -j else j)
      (.fin (decide (t < 0)) t.natAbs x, 0)

/-- The exact difference. -/
def fvSub (a b : FV) : FV × Flags := fvAdd a b.negate

/-- The exact product; NV for 0 × ∞ and for a signalling operand. -/
def fvMul (a b : FV) : FV × Flags :=
  match a, b with
  | .nan _, _ => (.qnan, a.sig ||| b.sig)
  | _, .nan _ => (.qnan, b.sig)
  | .inf n, .inf k => (.inf (n != k), 0)
  | .inf n, .fin k m _ => if m = 0 then (.qnan, fNV) else (.inf (n != k), 0)
  | .fin k m _, .inf n => if m = 0 then (.qnan, fNV) else (.inf (n != k), 0)
  | .fin n m e, .fin k l g => (.fin (n != k) (m * l) (e + g), 0)

/-- The quotient rounded into format `f` by RNE: DZ for a finite non-zero dividend and a zero divisor, NV for 0/0 and
∞/∞ (R31, Table 2-7). -/
def divTo (f : Fmt) (a b : FV) : FV × Flags :=
  match a, b with
  | .nan _, _ => (.qnan, a.sig ||| b.sig)
  | _, .nan _ => (.qnan, b.sig)
  | .inf _, .inf _ => (.qnan, fNV)
  | .inf n, .fin k _ _ => (.inf (n != k), 0)
  | .fin n _ _, .inf k => (.fin (n != k) 0 0, 0)
  | .fin n m e, .fin k l g =>
    if l = 0 then (if m = 0 then (.qnan, fNV) else (.inf (n != k), fDZ))
    else if m = 0 then (.fin (n != k) 0 0, 0)
    else roundTo f (n != k) m l (e - g)

/-- An exact step followed by its rounding: the flags of both. -/
def thenRound (f : Fmt) (r : FV × Flags) : FV × Flags := let q := roundFV f r.1; (q.1, r.2 ||| q.2)

/-- RNE32(a + b) of FP32 operands. -/
def add32 (a b : W32) : W32 × Flags :=
  let r := thenRound fmt32 (fvAdd (val32 a) (val32 b)); (packFV fmt32 32 0x7FC00000 r.1, r.2)
/-- RNE32(a − b) of FP32 operands. -/
def sub32 (a b : W32) : W32 × Flags :=
  let r := thenRound fmt32 (fvSub (val32 a) (val32 b)); (packFV fmt32 32 0x7FC00000 r.1, r.2)
/-- RNE32(a × b) of FP32 operands. -/
def mul32 (a b : W32) : W32 × Flags :=
  let r := thenRound fmt32 (fvMul (val32 a) (val32 b)); (packFV fmt32 32 0x7FC00000 r.1, r.2)
/-- RNE32(a / b) of FP32 operands. -/
def div32 (a b : W32) : W32 × Flags :=
  let r := divTo fmt32 (val32 a) (val32 b); (packFV fmt32 32 0x7FC00000 r.1, r.2)

/-- The order of two non-NaN operands with −0 equal to +0. -/
def fvCmp (a b : FV) : Ordering :=
  match a, b with
  | .inf n, .inf k => if n = k then .eq else if n then .lt else .gt
  | .inf n, _ => if n then .lt else .gt
  | _, .inf n => if n then .gt else .lt
  | .fin n m e, .fin k l g =>
    if m = 0 ∧ l = 0 then .eq
    else if m = 0 then (if k then .gt else .lt)
    else if l = 0 then (if n then .lt else .gt)
    else if n != k then (if n then .lt else .gt)
    else let c := magCmp m e l g; if n then c.swap else c
  | _, _ => .eq

/-- The order VMIN and VMAX use: −0 lies below +0 (R137). -/
def fvTotLt (a b : FV) : Bool :=
  match fvCmp a b with
  | .lt => true
  | .gt => false
  | .eq => a.neg? && !b.neg?

/-- VMIN of two floating-point operands (R137). -/
def fvMin (a b : FV) : FV × Flags :=
  let f := a.sig ||| b.sig
  match a, b with
  | .nan _, .nan _ => (.qnan, f)
  | .nan _, _ => (b, f)
  | _, .nan _ => (a, f)
  | _, _ => (if fvTotLt b a then b else a, f)

/-- VMAX of two floating-point operands (R137). -/
def fvMax (a b : FV) : FV × Flags :=
  let f := a.sig ||| b.sig
  match a, b with
  | .nan _, .nan _ => (.qnan, f)
  | .nan _, _ => (b, f)
  | _, .nan _ => (a, f)
  | _, _ => (if fvTotLt a b then b else a, f)

/-! ### The binary8 family (R34 to R37) -/

/-- Whether a format code names a binary8 format (Table 2-4). -/
def isBinary8 (code : BitVec 6) : Bool := !code.getLsbD 5 && decide (code.toNat % 8 ≠ 0)
/-- Whether a format code is a valid code of Table 2-4. -/
def fmtValid (code : BitVec 6) : Bool :=
  isBinary8 code ||
    [0x20, 0x21, 0x22, 0x24, 0x25, 0x26, 0x27, 0x2C, 0x2D, 0x2E, 0x2F].contains code.toNat

/-- The precision P of a binary8 code. -/
def b8P (code : BitVec 6) : Nat := code.toNat % 8
/-- Extended variant (X). -/
def b8Ext (code : BitVec 6) : Bool := code.getLsbD 3
/-- Unsigned format (U). -/
def b8Uns (code : BitVec 6) : Bool := code.getLsbD 4
/-- The width w of the exponent field (R34). -/
def b8W (code : BitVec 6) : Nat := if b8Uns code then 9 - b8P code else 8 - b8P code
/-- The bias B = 2^(w−1) (R34). -/
def b8Bias (code : BitVec 6) : Int := (2 ^ (b8W code - 1) : Nat)

/-- The value of the magnitude code `k` (sign bit removed) of a binary8 format (R34). -/
def b8Mag (code : BitVec 6) (k : Nat) : Nat × Int :=
  let t := b8P code - 1
  let ex := k >>> t
  let tr := k % 2 ^ t
  if ex = 0 then (tr, 1 - b8Bias code - t) else (2 ^ t + tr, (ex : Int) - b8Bias code - t)

/-- The largest finite magnitude code (Table 2-1). -/
def b8MaxCode (code : BitVec 6) : Nat :=
  if b8Uns code then (if b8Ext code then 0xFD else 0xFE) else (if b8Ext code then 0x7E else 0x7F)

/-- The value of a binary8 byte (R34, R35); its NaN is quiet. -/
def val8 (code : BitVec 6) (b : Byte) : FV :=
  let k := b.toNat
  if b8Uns code then
    if k = 0xFF then .qnan
    else if k = 0xFE ∧ b8Ext code then .inf false
    else let v := b8Mag code k; .fin false v.1 v.2
  else if k = 0x80 then .qnan
  else if b8Ext code ∧ k = 0x7F then .inf false
  else if b8Ext code ∧ k = 0xFF then .inf true
  else let v := b8Mag code (k % 128); .fin (b.msb) v.1 v.2

/-- A floating-point target of a conversion: its precision, the exponent of its finest grid, its largest finite
magnitude, whether it holds infinities, and the exponent of its least normal. -/
structure Target where
  p : Nat
  q : Int
  max : Nat × Int
  ext : Bool
  emin : Int
  deriving DecidableEq, Repr

/-- The target of an IEEE format. -/
def Fmt.target (f : Fmt) : Target := ⟨f.p, f.qmin, f.maxFin, true, f.emin⟩
/-- The target of a binary8 format. -/
def b8Target (code : BitVec 6) : Target :=
  ⟨b8P code, 1 - b8Bias code - (b8P code - 1 : Nat), b8Mag code (b8MaxCode code), b8Ext code, 1 - b8Bias code⟩

/-- The conversion of R39 and Table 2-5 into a target: the exact value kept, and the flags. -/
def convert (t : Target) (m : RMode) (x : FV) : FV × Flags :=
  match x with
  | .nan s => (.qnan, if s then fNV else 0)
  | .inf n =>
    match m with
    | .srne => (.fin n t.max.1 t.max.2, fSAT ||| fNX)
    | _ => if t.ext then (.inf n, 0) else (.qnan, fNV)
  | .fin n k e =>
    if k = 0 then (.fin n 0 0, 0)
    else
      let u := roundGrid m k 1 e t.p none
      if magGt u.1 u.2.1 t.max.1 t.max.2 then
        match m with
        | .rne => (if t.ext then .inf n else .qnan, fOF ||| fNX)
        | .rtz => (.fin n t.max.1 t.max.2, fOF ||| fNX)
        | .srne => (.fin n t.max.1 t.max.2, fSAT ||| fNX)
      else
        let tiny := magGt 1 t.emin u.1 u.2.1
        let b := roundGrid m k 1 e t.p (some t.q)
        (.fin n b.1 b.2.1, if b.2.2 then (if tiny then fUF ||| fNX else fNX) else 0)

/-- The magnitude code of a value already on the grid of a binary8 format. -/
def b8Pack (code : BitVec 6) (m : Nat) (e : Int) : Nat :=
  if m = 0 then 0
  else
    let t := b8P code - 1
    let ex := (Nat.log2 m : Int) + e
    let fld := ex + b8Bias code
    if fld ≤ 0 then
      let k := scaleFrac m 1 (e - (1 - b8Bias code - t)); k.1 / k.2
    else
      let k := scaleFrac m 1 (e - (ex - t))
      (fld.toNat - 1) * 2 ^ t + k.1 / k.2

/-- The conversion to a binary8 byte (R39, R40).  With P = 1 the exponent field 0 holds only zero. -/
def to8 (code : BitVec 6) (m : RMode) (x : FV) : Byte × Flags :=
  let nanCode : Byte := if b8Uns code then 0xFF else 0x80
  let negative := match x with | .inf n => n | .fin n k _ => n && decide (k ≠ 0) | .nan _ => false
  if b8Uns code && negative then
    match m with
    | .srne => (0x00, fSAT ||| fNX)
    | _ => (nanCode, fNV)
  else
    let r := convert (b8Target code) m x
    match r.1 with
    | .nan _ => (nanCode, r.2)
    | .inf n => (if b8Uns code then 0xFE else if n then 0xFF else 0x7F, r.2)
    | .fin n k e =>
      let c := b8Pack code k e
      (if c = 0 then 0 else if n then BitVec.ofNat 8 (0x80 + c) else BitVec.ofNat 8 c, r.2)

/-! ### Conversions to and from integers (R41) -/

/-- The integer conversion of R41: rounded by the mode, clamped to [lo, hi]. -/
def toInt (lo hi : Int) (m : RMode) (x : FV) : Int × Flags :=
  match x with
  | .nan _ => (0, fNV)
  | .inf n => (if n then lo else hi, match m with | .srne => fSAT ||| fNX | _ => fNV)
  | .fin n k e =>
    let fr := scaleFrac k 1 e
    let r := roundNat m fr.1 fr.2
    let v : Int := if n then -(r.1 : Int) else r.1
    if v < lo then (lo, match m with | .srne => fSAT ||| fNX | _ => fNV)
    else if hi < v then (hi, match m with | .srne => fSAT ||| fNX | _ => fNV)
    else (v, if r.2 then fNX else 0)

/-- An integer converted to FP32 by a mode (R41, R146: SRNE rounds as RNE). -/
def int32ToF (m : RMode) (i : Int) : W32 × Flags :=
  let r := convert fmt32.target m (FV.ofInt i); (packFV fmt32 32 0x7FC00000 r.1, r.2)

/-! ### Results of a stated number of bits (R42) -/

/-- RNEB of ±num/den × 2^e with `b` significant bits: an FP32 word and its flags. -/
def rneB (b : Nat) (neg : Bool) (num den : Nat) (e : Int) : W32 × Flags :=
  if num = 0 then (packFV fmt32 32 0x7FC00000 (.fin neg 0 0), 0)
  else
    let u := roundGrid .rne num den e b none
    let mx := fmt32.maxFin
    if magGt u.1 u.2.1 mx.1 mx.2 then (packFV fmt32 32 0x7FC00000 (.inf neg), fOF ||| fNX)
    else
      let tiny := magGt 1 fmt32.emin u.1 u.2.1
      let r := roundGrid .rne num den e b (some fmt32.qmin)
      (packFV fmt32 32 0x7FC00000 (.fin neg r.1 r.2.1),
        if r.2.2 then (if tiny then fUF ||| fNX else fNX) else 0)

/-- One bit step of the whole square root of `n`: try bit `k`. -/
def sqrtStep (n r k : Nat) : Nat := if (r + 2 ^ k) * (r + 2 ^ k) ≤ n then r + 2 ^ k else r

/-- The whole square root of `n`, from bit `k − 1` down. -/
def sqrtFrom (n : Nat) : Nat → Nat → Nat
  | 0, r => r
  | k + 1, r => sqrtFrom n k (sqrtStep n r k)

/-- The floor of the square root of `n`. -/
def natSqrt (n : Nat) : Nat := sqrtFrom n (Nat.log2 n / 2 + 1) 0

end Sys2Proof.Machine
end

