-- ==== Sys2Proof/Machine/Approx.lean ====
section
/-!
DEFINITION. The approximations VRCP, VRSQ, VEXP2 and VLOG2 (R147, Table 6-3), and the rotator's fixed tables (R56).
-/
namespace Sys2Proof.Machine

/-- KC[0..25] = RNE32(1 / G(n)), G(n) the product of sqrt(1 + 2^−2i) over i < n (R56). -/
def kcTable : List Nat :=
  [0x3F800000, 0x3F3504F3, 0x3F21E89B, 0x3F1D130E, 0x3F1BDC8A, 0x3F1B8ED6, 0x3F1B7B68, 0x3F1B768C] ++
  [0x3F1B7555, 0x3F1B7508, 0x3F1B74F4, 0x3F1B74EF, 0x3F1B74EE, 0x3F1B74EE, 0x3F1B74EE, 0x3F1B74EE] ++
  [0x3F1B74EE, 0x3F1B74EE, 0x3F1B74EE, 0x3F1B74EE, 0x3F1B74EE, 0x3F1B74EE, 0x3F1B74EE, 0x3F1B74EE] ++
  [0x3F1B74EE, 0x3F1B74EE]

/-- AT[0..24] = RNE32(atan 2^−i) (R56). -/
def atTable : List Nat :=
  [0x3F490FDB, 0x3EED6338, 0x3E7ADBB0, 0x3DFEADD5, 0x3D7FAADE, 0x3CFFEAAE, 0x3C7FFAAB, 0x3BFFFEAB] ++
  [0x3B7FFFAB, 0x3AFFFFEB, 0x3A7FFFFB, 0x39FFFFFF, 0x39800000, 0x39000000, 0x38800000, 0x38000000] ++
  [0x37800000, 0x37000000, 0x36800000, 0x36000000, 0x35800000, 0x35000000, 0x34800000, 0x34000000] ++
  [0x33800000]

/-- Entry i is the floor of 2^128 × 2^(2^−(i+1)). -/
def exp2Table : List Nat :=
  [0x16A09E667F3BCC908B2FB1366EA957D3E, 0x1306FE0A31B7152DE8D5A46305C85EDEC, 0x1172B83C7D517ADCDF7C8C50EB14A7920, 0x10B5586CF9890F6298B92B71842A98364] ++
  [0x1059B0D31585743AE7C548EB68CA417FE, 0x102C9A3E778060EE6F7CACA4F7A29BDE9, 0x10163DA9FB33356D84A66AE336DCDFA40, 0x100B1AFA5ABCBED6129AB13EC11DC9544] ++
  [0x10058C86DA1C09EA1FF19D294CF2F679C, 0x1002C605E2E8CEC506D21BFC89A23A010, 0x100162F3904051FA128BCA9C55C31E5E0, 0x1000B175EFFDC76BA38E31671CA939726] ++
  [0x100058BA01FB9F96D6CACD4B180917C3E, 0x10002C5CC37DA9491D0985C348C68E7B3, 0x1000162E525EE054754457D5995292026, 0x10000B17255775C040618BF4A4ADE83FC] ++
  [0x1000058B91B5BC9AE2EED81E9B7D4CFAC, 0x100002C5C89D5EC6CA4D7C8ACC017B7C9, 0x10000162E43F4F831060E02D839A9D16D, 0x100000B1721BCFC99D9F890EA06911763] ++
  [0x10000058B90CF1E6D97F9CA14DBCC1628, 0x1000002C5C863B73F016468F6BAC5CA2C, 0x100000162E430E5A18F6119E3C02282A5, 0x1000000B1721835514B86E6D96EFD1BFF] ++
  [0x100000058B90C0B48C6BE5DF846C5B2F0, 0x10000002C5C8601CC6B9E94213C72737A, 0x1000000162E42FFF037DF38AA2B219F06, 0x10000000B17217FBA9C739AA5819F44F9] ++
  [0x1000000058B90BFCDEE5ACD3C1CEDC823, 0x100000002C5C85FE31F35A6A30DA1BE50, 0x10000000162E42FF0999CE3541B9FFFCF, 0x100000000B17217F80F4EF5AADDA45554] ++
  [0x10000000058B90BFBF8479BD5A81B51AD, 0x1000000002C5C85FDF84BD62AE30A74CC, 0x100000000162E42FEFB2FED257559BDAA, 0x1000000000B17217F7D5A7716BBA4A9AF] ++
  [0x100000000058B90BFBE9DDBAC5E109CCF, 0x10000000002C5C85FDF4B15DE6F17EB0D, 0x1000000000162E42FEFA494F1478FDE05, 0x10000000000B17217F7D20CF927C8E94C] ++
  [0x1000000000058B90BFBE8F71CB4E4B33E, 0x100000000002C5C85FDF477B662B26945, 0x10000000000162E42FEFA3AE53369388C, 0x100000000000B17217F7D1D351A389D40] ++
  [0x10000000000058B90BFBE8E8B2D3D4EDE, 0x1000000000002C5C85FDF4741BEA6E77F, 0x100000000000162E42FEFA39FE95583C3, 0x1000000000000B17217F7D1CFB72B45E2] ++
  [0x100000000000058B90BFBE8E7CC35C3F1, 0x10000000000002C5C85FDF473E242EA38, 0x1000000000000162E42FEFA39F02B772C, 0x10000000000000B17217F7D1CF7D83C1A] ++
  [0x1000000000000058B90BFBE8E7BDCBE2E, 0x100000000000002C5C85FDF473DEA871F, 0x10000000000000162E42FEFA39EF44D91, 0x100000000000000B17217F7D1CF79E949] ++
  [0x10000000000000058B90BFBE8E7BCE544, 0x1000000000000002C5C85FDF473DE6ECA, 0x100000000000000162E42FEFA39EF366F, 0x1000000000000000B17217F7D1CF79AFA] ++
  [0x100000000000000058B90BFBE8E7BCD6D, 0x10000000000000002C5C85FDF473DE6B2, 0x1000000000000000162E42FEFA39EF358, 0x10000000000000000B17217F7D1CF79AC]

/-- KC[n] as an exact value. -/
def kc (n : Nat) : FV := val32 (BitVec.ofNat 32 (lget 0 kcTable n))
/-- AT[i] as an exact value. -/
def atAngle (i : Nat) : FV := val32 (BitVec.ofNat 32 (lget 0 atTable i))

/-- +∞ as FP32. -/
def inf32 : W32 := 0x7F800000
/-- −∞ as FP32. -/
def ninf32 : W32 := 0xFF800000
/-- The canonical NaN of FP32. -/
def nan32 : W32 := 0x7FC00000

/-- VRCP (R147): 1/x to 12 bits, with the special inputs of Table 6-3. -/
def vrcp32 (b : W32) : W32 × Flags :=
  match val32 b with
  | .nan s => (nan32, if s then fNV else 0)
  | .inf n => (if n then 0x80000000 else 0, 0)
  | .fin n m e =>
    if m = 0 then (if n then ninf32 else inf32, fDZ) else rneB 12 n 1 m (-e)

/-- VRSQ (R147): 1/√x to 12 bits.  The root of 2^80/m is taken whole, with one bit below it that says whether
anything was cut. -/
def vrsq32 (b : W32) : W32 × Flags :=
  match val32 b with
  | .nan s => (nan32, if s then fNV else 0)
  | .inf n => if n then (nan32, fNV) else (0, 0)
  | .fin n m e =>
    if m = 0 then (if n then ninf32 else inf32, fDZ)
    else if n then (nan32, fNV)
    else
      let (m, e) := if e % 2 = 0 then (m, e) else (2 * m, e - 1)
      let a := 2 ^ 80 / m
      let r := natSqrt a
      let exact := decide (r * r * m = 2 ^ 80)
      rneB 12 false (2 * r + (if exact then 0 else 1)) 1 (-41 - e / 2)

/-- The product, to 128 fraction bits, of the 2^(2^−i) whose bits are set in the 64-bit fraction `f`. -/
def exp2Prod (f : Nat) : List Nat → Nat → Nat → Nat
  | [], _, acc => acc
  | c :: t, i, acc => exp2Prod f t (i + 1) (if f.testBit (63 - i) then (acc * c) >>> 128 else acc)

/-- VEXP2 (R147): 2^x to 16 bits.  A whole x is exact; otherwise the fraction is taken to 64 bits and the bit below
the product says that the true value lies above it. -/
def vexp232 (b : W32) : W32 × Flags :=
  match val32 b with
  | .nan s => (nan32, if s then fNV else 0)
  | .inf n => (if n then 0 else inf32, 0)
  | .fin n m e =>
    if m = 0 then (0x3F800000, 0)
    else if magGt m e 1 12 then
      -- the magnitude lies above 4,096: far outside the range of FP32
      rneB 16 false 1 1 (if n then -4096 else 4096)
    else
      let s : Int := if n then -(m : Int) else m
      if e ≥ 0 then rneB 16 false 1 1 (s * (2 ^ e.toNat : Nat))
      else
        let d : Int := (2 ^ (-e).toNat : Nat)
        let w := Int.fdiv s d
        let r := (Int.fmod s d).toNat
        if r = 0 then rneB 16 false 1 1 w
        else
          let f := (r <<< 64) / d.toNat
          rneB 16 false (2 * exp2Prod f exp2Table 0 (2 ^ 128) + 1) 1 (w - 129)

/-- `k` fraction bits of log2 of y/2^255, 1 ≤ y/2^255 < 2, appended to `acc`. -/
def log2Bits : Nat → Nat → Nat → Nat
  | 0, _, acc => acc
  | k + 1, y, acc =>
    let z := (y * y) >>> 255
    if z ≥ 2 ^ 256 then log2Bits k (z >>> 1) (2 * acc + 1) else log2Bits k z (2 * acc)

/-- VLOG2 (R147): log2 x to 16 bits.  A power of two is exact; otherwise 96 fraction bits are found and the true value
lies strictly above them. -/
def vlog232 (b : W32) : W32 × Flags :=
  match val32 b with
  | .nan s => (nan32, if s then fNV else 0)
  | .inf n => if n then (nan32, fNV) else (inf32, 0)
  | .fin n m e =>
    if m = 0 then (ninf32, fDZ)
    else if n then (nan32, fNV)
    else
      let l := Nat.log2 m
      let w : Int := e + l
      if m = 2 ^ l then rneB 16 (decide (w < 0)) w.natAbs 1 0
      else
        let k := log2Bits 96 ((m <<< 255) >>> l) 0
        let v : Int := w * (2 ^ 97 : Nat) + (2 * k + 1 : Nat)
        rneB 16 (decide (v < 0)) v.natAbs 1 (-97)

end Sys2Proof.Machine
end

