-- ==== Sys2Proof/Syntax.lean ====
section
/-!
DEFINITION. The instructions: one constructor for each row of spec/opcode_table.json.  The first 156 are the encoded
syllables (R68, R69), with their slot where a class has several and their operands read out of the fields (R65, R66).
The other 123 are the part's steps that no word encodes (spec/95): what they carry is what the part meets from outside
itself, or where in the machine the step takes place.
-/
namespace Sys2Proof

/-- The slots of the S class (Table 3-2). -/
inductive SSlot where | s0 | s1
  deriving DecidableEq, Repr

/-- The slots of the M class (Table 3-2). -/
inductive MSlot where | m0 | m1
  deriving DecidableEq, Repr

/-- A scalar source field (R65): a0 to a55, the latches l0 to l5, `fi`. -/
inductive SSrc where
  | reg (n : Fin 56)
  | latch (n : Fin 6)
  | fi
  deriving DecidableEq, Repr

/-- A scalar destination field with its W bit (R65): a register, `fo`, or the slot's latch alone (W = 1). -/
inductive SDst where
  | reg (n : Fin 56)
  | fo
  | latch
  deriving DecidableEq, Repr

/-- A scalar destination that is also read, so that `fo` lies outside its limit (R77). -/
inductive RDst where
  | reg (n : Fin 56)
  | latch
  deriving DecidableEq, Repr

/-- A vector source operand of the syllable's own cluster (R66). -/
inductive VSrc where
  | reg (n : Fin 32)
  | la | lb | qa | qb
  deriving DecidableEq, Repr

/-- A vector destination operand (R66): a register, c.qo, or the slot's latch alone (code 63). -/
inductive VDst where
  | reg (n : Fin 32)
  | qo
  | none
  deriving DecidableEq, Repr

/-- The lane types TY 0 to 6 (R67). -/
inductive Ty where | f32 | i32 | n32 | bf16 | f16 | i16 | n16
  deriving DecidableEq, Repr

/-- The MOD values of VMUL (Table 6-1). -/
inductive MulMod where | lo | sat | hi
  deriving DecidableEq, Repr

/-- The conditions of BRC (Table 3-6). -/
inductive BCnd where | eqz | nez | ltz | gez
  deriving DecidableEq, Repr

/-- The conditions of WAITF (R93). -/
inductive WCnd where | eq | ne | geu | any
  deriving DecidableEq, Repr

/-- The comparisons of VCMP, CND 0 to 7 (R141). -/
inductive VCnd where | eq | ne | lt | le | gt | ge | uo | ord
  deriving DecidableEq, Repr

/-- The operations of VPSET, CND 0 to 7 (R142). -/
inductive POp where | and | or | xor | andn | not | set | first | clear
  deriving DecidableEq, Repr

/-- The operations of VRED (R150). -/
inductive ROp where | add | min | max
  deriving DecidableEq, Repr

/-- The atomic operations, MOD or OP 0 to 7 (R110). -/
inductive AOp where | add | and | or | xor | swap | min | max | maxn
  deriving DecidableEq, Repr

/-- The two directions of VMOVS (R152): into a lane, out of a lane to a register, out of a lane to `fo`. -/
inductive VMov where
  | inn (v : Fin 32) (a : SSrc)
  | outReg (v : VSrc) (d : Fin 56)
  | outFo (v : VSrc)
  deriving DecidableEq, Repr

/-! ### What the steps without an encoding carry -/

/-- A core of the package: die × 96 + core (R274). -/
abbrev CoreId := Fin 384

/-- One flit of a message as it is received (Table 15-3): its index, the scratchpad offset of its first byte, its bytes, and its own
KIND, TENANT and LAST, which every flit of a message carries (R318). -/
structure Flit where
  fidx : Nat
  off : Nat
  data : List Byte
  kind : Nat := 0
  tenant : Nat := 0
  last : Bool := false
  deriving DecidableEq, Repr

/-- A flit as its source lays it out, before the message's envelope is put around it (R316). -/
def flit (i off : Nat) (data : List Byte) : Flit := { fidx := i, off := off, data := data }

/-- A message (Table 15-1, Table 15-3).  `sag`, `smsg` and the source of a response repeat those of the request. -/
structure Msg where
  kind : Nat
  tenant : Nat
  schip : Nat
  sdie : Nat
  score : Nat
  sag : Nat
  msgid : Nat
  dchip : Nat
  ddie : Nat
  dcore : Nat
  dunit : Nat
  flits : List Flit
  tag : W32
  deriving DecidableEq, Repr

/-- What another member of a collective brings: its operation, format and count, and its source bytes (R209). -/
structure CollPart where
  op : Nat
  fmt : Nat
  cnt : Nat
  bytes : List Byte
  deriving DecidableEq, Repr

/-- A UET packet (R390): the entry of the peer it comes from or goes to is found from its source (R401); `absent` says that it offers what Table
21-1 does not list as supported: another delivery mode, a header of another protocol. -/
structure Packet where
  absent : Bool := false
  addrLo : Word
  addrHi : Word
  rpid : Nat
  job : Nat
  port : Nat
  ecn : Bool
  rod : Bool
  psn : Nat
  msg : Nat
  op : Nat
  tag : Word
  len : Nat
  off : Nat
  data : List Byte
  deriving DecidableEq, Repr

/-- A UET acknowledgement (R390, R391, R396, R401): the address, process and job of its source or destination, its port; CACK, the 64-bit SACK and
the PSNs of the packets that have been refused, or the PSN for which no receive is posted. -/
structure UAck where
  addrLo : Word
  addrHi : Word
  rpid : Nat
  job : Nat
  port : Nat
  pdc : Nat
  cack : Nat
  sack : Word
  nack : Option Nat
  errs : List Nat
  deriving DecidableEq, Repr

/-- A virtual channel: of a port, requests or responses, VC0 to VC3 (R324). -/
structure VcId where
  port : Fin 32
  resp : Bool
  vc : Fin 4
  deriving DecidableEq, Repr

/-- An access to the pool that gets no completion within CXLTO cy (R344): write `k` of the buffers, or the next read under a root port. -/
inductive CxlEnd where
  | write (k : Nat)
  | read (port : Fin 8)
  deriving DecidableEq, Repr

/-- A message in transit through this package's router (R316, R323, R324): where it is bound, the links it has crossed (its VC), its class,
and the path its source chose. -/
structure Transit where
  dchip : Nat
  mchip : Nat
  ph : Bool
  crossed : Nat
  resp : Bool
  msg : Msg
  path : Nat := 0
  deriving DecidableEq, Repr

/-- The registers of management space that a write reaches (R6, R408): the number names the queue, die, stream, table
entry or core; cores are numbered die × 96 + core, seats core × 4 + seat. -/
inductive MReg where
  | qcfg (q : Nat) | qring (q : Nat) | qcring (q : Nat) | qfring (q : Nat) | qrsv (q : Nat)
  | qcons (q : Nat) | qcseq (q : Nat) | qfseq (q : Nat) | qfhead (q : Nat) | qflost (q : Nat) | qrbk (q : Nat)
  | sctl (s : Nat) | spc (s : Nat) | ssave (s : Nat)
  | ttbase | xrbase | xrlen | xrctl
  | wlbase (d : Nat) | wlsize (d : Nat)
  | pwl (c : Nat) | cinj (c : Nat) | grant (k : Nat)
  | mcast (k : Nat) | rt (k : Nat) | fabcfg | pst (p : Nat)
  | hbmst (k : Nat) | lpst (k : Nat) | hbmhot | hbmcool | cxlto | cerate | ingbase | cxldec (k : Nat)
  | tpcfg (t : Nat) | tpl (t : Nat) | wrctl | wrstat
  | gqcfg (q : Nat) | gqarea (q : Nat) | gdrop (q : Nat)
  | kvpfmt (d : Nat) | kvpool (d : Nat) | kvht (d : Nat) | kvmap (d : Nat) | kvsum (d : Nat) | kvjrn (d : Nat)
  | kvtree (d : Nat) | kvqt (k : Nat)
  | netcfg | nept (k : Nat) | nrgn (k : Nat) | nbnd (k : Nat) | ntq (k : Nat) | npst (p : Nat)
  | collgrp (k : Nat)
  | bootst | mr (k : Nat) | mrsel | mrext (k : Nat) | atnonce (k : Nat) | atsig (k : Nat) | atpub (k : Nat) | atctl
  | alcfg | alst | pwctl | pwst | tlim | thlim | ttrip | ckctl | ckstat | ckdirty
  deriving DecidableEq, Repr

/-- What a control-complex hart does: an access to tier 2 to 5 at a physical offset, a FENCE W,W (R285, R408), clearing a tag-table entry
of a core (R112), or a request to the attestation unit to seal or unseal some bytes (R412). -/
inductive HartOp where
  | load (tier addr len : Nat)
  | store (tier addr : Nat) (bytes : List Byte)
  | fence
  | clearTag (c : CoreId) (tenant : Nat) (key : Word)
  | seal (bytes : List Byte)
  | unseal (bytes : List Byte)
  deriving DecidableEq, Repr

/-- The instruction set: a constructor for each row of spec/opcode_table.json. -/
inductive Instr where
  -- S class (R79)
  | add (u : SSlot) (d : SDst) (a b : SSrc)
  | addi (u : SSlot) (d : SDst) (a : SSrc) (i : BitVec 13)
  | sub (u : SSlot) (d : SDst) (a b : SSrc)
  | mul (u : SSlot) (d : SDst) (a b : SSrc)
  | muli (u : SSlot) (d : SDst) (a : SSrc) (i : BitVec 13)
  | mulh (u : SSlot) (d : SDst) (a b : SSrc)
  | mulhn (u : SSlot) (d : SDst) (a b : SSrc)
  | div (u : SSlot) (d : SDst) (a b : SSrc)
  | divn (u : SSlot) (d : SDst) (a b : SSrc)
  | rem (u : SSlot) (d : SDst) (a b : SSrc)
  | remn (u : SSlot) (d : SDst) (a b : SSrc)
  | and (u : SSlot) (d : SDst) (a b : SSrc)
  | andi (u : SSlot) (d : SDst) (a : SSrc) (i : BitVec 13)
  | or (u : SSlot) (d : SDst) (a b : SSrc)
  | ori (u : SSlot) (d : SDst) (a : SSrc) (i : BitVec 13)
  | xor (u : SSlot) (d : SDst) (a b : SSrc)
  | xori (u : SSlot) (d : SDst) (a : SSrc) (i : BitVec 13)
  | andn (u : SSlot) (d : SDst) (a b : SSrc)
  | shl (u : SSlot) (d : SDst) (a b : SSrc)
  | shli (u : SSlot) (d : SDst) (a : SSrc) (i : BitVec 13)
  | shr (u : SSlot) (d : SDst) (a b : SSrc)
  | shri (u : SSlot) (d : SDst) (a : SSrc) (i : BitVec 13)
  | sra (u : SSlot) (d : SDst) (a b : SSrc)
  | srai (u : SSlot) (d : SDst) (a : SSrc) (i : BitVec 13)
  | seq (u : SSlot) (d : SDst) (a b : SSrc)
  | slt (u : SSlot) (d : SDst) (a b : SSrc)
  | slti (u : SSlot) (d : SDst) (a : SSrc) (i : BitVec 13)
  | sltn (u : SSlot) (d : SDst) (a b : SSrc)
  | min (u : SSlot) (d : SDst) (a b : SSrc)
  | max (u : SSlot) (d : SDst) (a b : SSrc)
  | maxi (u : SSlot) (d : SDst) (a : SSrc) (i : BitVec 13)
  | sel (u : SSlot) (d : SDst) (a b c : SSrc)
  | movi (u : SSlot) (d : SDst) (i : BitVec 19)
  | movhi (u : SSlot) (d : RDst) (i : BitVec 19)
  | clz (u : SSlot) (d : SDst) (a : SSrc)
  | popc (u : SSlot) (d : SDst) (a : SSrc)
  | bfx (u : SSlot) (d : SDst) (a : SSrc) (pos len : BitVec 6)
  | bfi (u : SSlot) (d : RDst) (a : SSrc) (pos len : BitVec 6)
  | addsc (u : SSlot) (d : SDst) (a b : SSrc) (sh : BitVec 2)
  | getc (u : SSlot) (d : SDst) (c : BitVec 12)
  | setc (u : SSlot) (a : SSrc) (c : BitVec 12)
  -- B class (R87 to R104)
  | br (o : BitVec 26)
  | brc (a : SSrc) (c : BCnd) (o : BitVec 18)
  | call (d : Fin 56) (o : BitVec 20)
  | ret (a : SSrc)
  | jr (a b : SSrc) (i : BitVec 14)
  | loop (a : Fin 56) (o : BitVec 20)
  | run (a : SSrc)
  | waitf (a b : SSrc) (e : BitVec 4) (c : WCnd)
  | step (l : Fin 5)
  | fence (x : Bool) (s : Fin 5)
  | trap (a : SSrc) (n : BitVec 4)
  | halt (a : SSrc)
  -- M class (R105 to R131)
  | ld (u : MSlot) (d : SDst) (e : BitVec 4) (b : SSrc) (s : BitVec 2) (i : BitVec 7)
  | ldn (u : MSlot) (d : SDst) (e : BitVec 4) (b : SSrc) (s : BitVec 2) (i : BitVec 7)
  | st (u : MSlot) (a : SSrc) (e : BitVec 4) (b : SSrc) (s : BitVec 2) (i : BitVec 7)
  | amo (u : MSlot) (d : SDst) (e : BitVec 4) (b a : SSrc) (o : AOp)
  | cas (u : MSlot) (d : RDst) (e : BitVec 4) (b a : SSrc)
  | lkup (u : MSlot) (d : SDst) (a : SSrc)
  | tagset (u : MSlot) (d : SDst) (a b : SSrc)
  | tagdrop (u : MSlot) (d : SDst) (a : SSrc)
  | bari (u : MSlot) (b : SSrc) (n : Fin 8)
  | bara (u : MSlot) (b : SSrc) (n : Fin 8)
  | barw (u : MSlot) (n : Fin 8)
  | barx (u : MSlot) (d : SDst) (b : SSrc) (n : Fin 8)
  | acq (u : MSlot) (d : SDst) (o : BitVec 4)
  | rel (u : MSlot) (b : SSrc) (m : Bool) (o : BitVec 4)
  | bind (u : MSlot) (e : BitVec 4) (a b : SSrc) (o : BitVec 4)
  | rld (u : MSlot) (e : BitVec 4) (s : BitVec 2) (a : SSrc) (h : Bool)
  | rst (u : MSlot) (e : BitVec 4) (s : BitVec 2) (q : Bool) (a b : SSrc) (c : BitVec 2) (h : Bool)
  | ramo (u : MSlot) (e : BitVec 4) (s : Bool) (a b : SSrc) (c : BitVec 2) (h : Bool) (o : AOp)
  | pinset (u : MSlot) (a : SSrc) (k : Bool)
  | pindrop (u : MSlot) (a : SSrc)
  -- V class (R132 to R151); k is the cluster
  | vadd (k : Fin 8) (d : VDst) (a b : VSrc) (p : Fin 8) (t : Ty) (m : Bool)
  | vaddi (k : Fin 8) (d : VDst) (a : VSrc) (p : Fin 8) (t : Ty) (i : BitVec 8)
  | vsub (k : Fin 8) (d : VDst) (a b : VSrc) (p : Fin 8) (t : Ty) (m : Bool)
  | vmul (k : Fin 8) (d : VDst) (a b : VSrc) (p : Fin 8) (t : Ty) (m : MulMod)
  | vmuli (k : Fin 8) (d : VDst) (a : VSrc) (p : Fin 8) (t : Ty) (i : BitVec 8)
  | vfma (k : Fin 8) (d : Fin 32) (a b : VSrc) (p : Fin 8) (t : Ty) (m : BitVec 2)
  | vmin (k : Fin 8) (d : VDst) (a b : VSrc) (p : Fin 8) (t : Ty)
  | vmax (k : Fin 8) (d : VDst) (a b : VSrc) (p : Fin 8) (t : Ty)
  | vcmp (k : Fin 8) (d : Fin 8) (c : VCnd) (a b : VSrc) (p : Fin 8) (t : Ty) (m : Bool)
  | vsel (k : Fin 8) (d : VDst) (a b : VSrc) (p : Fin 8) (t : Ty)
  | vand (k : Fin 8) (d : VDst) (a b : VSrc) (p : Fin 8) (t : Ty)
  | vor (k : Fin 8) (d : VDst) (a b : VSrc) (p : Fin 8) (t : Ty)
  | vxor (k : Fin 8) (d : VDst) (a b : VSrc) (p : Fin 8) (t : Ty)
  | vshl (k : Fin 8) (d : VDst) (a b : VSrc) (p : Fin 8) (t : Ty)
  | vshli (k : Fin 8) (d : VDst) (a : VSrc) (p : Fin 8) (t : Ty) (i : BitVec 8)
  | vshr (k : Fin 8) (d : VDst) (a b : VSrc) (p : Fin 8) (t : Ty)
  | vshri (k : Fin 8) (d : VDst) (a : VSrc) (p : Fin 8) (t : Ty) (i : BitVec 8)
  | vcvt (k : Fin 8) (d : VDst) (a : VSrc) (f : BitVec 6) (r : Bool) (n : BitVec 2) (p : Fin 8) (q : BitVec 2)
  | vrcp (k : Fin 8) (d : VDst) (a : VSrc) (p : Fin 8)
  | vrsq (k : Fin 8) (d : VDst) (a : VSrc) (p : Fin 8)
  | vexp2 (k : Fin 8) (d : VDst) (a : VSrc) (p : Fin 8)
  | vlog2 (k : Fin 8) (d : VDst) (a : VSrc) (p : Fin 8)
  | vwel (k : Fin 8) (d : Fin 8) (a : VSrc) (p : Fin 8)   -- d is VD / 4
  | vwmg (k : Fin 8) (d a : Fin 8) (p : Fin 8)            -- d and a are VD / 4 and VA / 4
  | vred (k : Fin 8) (d : VDst) (a : VSrc) (p : Fin 8) (t : Ty) (m : ROp)
  | vperm (k : Fin 8) (d : VDst) (a b : VSrc) (p : Fin 8)
  | vbcst (k : Fin 8) (d : VDst) (a : VSrc) (l : BitVec 4) (p : Fin 8)
  | viota (k : Fin 8) (d : VDst) (p : Fin 8) (t : Ty) (m : Bool)
  | vpset (k : Fin 8) (d : Fin 8) (c : POp) (a b : Fin 8) (p : Fin 8)
  -- VM class (R152 to R156)
  | vld (k : Fin 8) (d : VDst) (e : BitVec 4) (b : SSrc) (p : Fin 8) (i : BitVec 7)
  | vst (k : Fin 8) (s : VSrc) (e : BitVec 4) (b : SSrc) (p : Fin 8) (i : BitVec 7)
  | vgth (k : Fin 8) (d : VDst) (e : BitVec 4) (v : VSrc) (p : Fin 8) (z : Fin 3)
  | vsct (k : Fin 8) (s : VSrc) (e : BitVec 4) (v : VSrc) (p : Fin 8) (z : Fin 3)
  | xcp (k : Fin 8) (d : VDst) (a : Fin 32) (s : Fin 8) (p : Fin 8)
  | vmovs (k : Fin 8) (o : VMov) (l : BitVec 4)
  | vtld (k : Fin 8) (d : VDst) (t : Fin 8) (b : SSrc) (p : Fin 8) (i : BitVec 7)
  | vtst (k : Fin 8) (s : VSrc) (t : Fin 8) (b : SSrc) (p : Fin 8) (i : BitVec 7)
  -- X class (R159 to R169)
  | wpush (t : Fin 8) (r w : BitVec 8) (f : BitVec 6)
  | apush (t : Fin 8) (r a : BitVec 8) (p : Bool) (f : BitVec 6)
  | acc (t : Fin 8) (r a : BitVec 8) (p : Bool) (f : BitVec 6)
  | drain (t : Fin 8) (r a : BitVec 8) (z : Bool)
  | wswap
  | mclr (m : BitVec 3)
  -- T class (R171 to R173)
  | trw (t : Fin 8) (r : BitVec 8) (s : Fin 8) (b : SSrc) (m : Bool)
  | tldr (t : Fin 8) (r : BitVec 8) (e : BitVec 4) (b : SSrc)
  | tstr (t : Fin 8) (r : BitVec 8) (e : BitVec 4) (b : SSrc)
  -- C class (R163)
  | scw (e : BitVec 4) (b : SSrc) (i : BitVec 8) (c : Bool)
  | sca (e : BitVec 4) (b : SSrc) (i : BitVec 8) (c : Bool)
  -- Q class (R175 to R184)
  | qrf (d : Fin 4) (t : Fin 8) (r n : BitVec 8) (w g : Bool)
  | qapp (d : Fin 4) (t : Fin 8) (r n : BitVec 8) (g : Bool)
  | qrot (t : Fin 8) (r n : BitVec 8) (w : Bool)
  | qsolv (d : Fin 4) (t : Fin 8) (r n : BitVec 8) (a : Bool)
  | qget (d : Fin 4) (e : BitVec 4) (b : SSrc) (n g : Bool)
  | qput (d : Fin 4) (e : BitVec 4) (b : SSrc)
  | qclr (d : Fin 4)
  -- E class (R186 to R211)
  | eset (n : BitVec 4) (i : BitVec 8) (a : SSrc)
  | eget (d : SDst) (n : BitVec 4) (i : BitVec 8)
  | cpy (d : SDst) (a b : SSrc) (c : Bool) (h : Fin 4)
  | cdrn (d : SDst) (m : BitVec 4)
  | tierStart (d : SDst) (a : SSrc)
  | tierAck (d : SDst) (a b : SSrc)
  | tierPoll (d : SDst) (a b : SSrc)
  | tierStop (d : SDst) (a : SSrc)
  | kvlk (d : SDst) (a b : SSrc)
  | kvap (d : SDst) (a b : SSrc) (v : Bool)
  | kvfk (d : SDst) (a b : SSrc)
  | kvrl (d : SDst) (a : SSrc)
  | kvjnOpen (d : SDst) (a : SSrc)
  | kvjnCommit (d : SDst) (a : SSrc)
  | kvjnReject (d : SDst) (a : SSrc)
  | topk (d : SDst) (a b : SSrc)
  | gthrWalk (d : SDst) (a b : SSrc)
  | gthrPlan (d : SDst) (a b : SSrc)
  | gthrList (d : SDst) (a b : SSrc)
  | nsnd (d : SDst) (a b : SSrc)
  | nrcv (d : SDst) (a b : SSrc)
  | collSum (d : SDst) (a b : SSrc)
  | collMax (d : SDst) (a b : SSrc)
  | collGather (d : SDst) (a b : SSrc)
  | collScatter (d : SDst) (a b : SSrc)
  | collBcast (d : SDst) (a b : SSrc)
  | collBarrier (d : SDst) (a b : SSrc)
  | btake (d : SDst) (a : SSrc) (n : BitVec 4)
  -- Steps of the core
  | issueGroup (c : CoreId)
  | resultLand (c : CoreId)
  | storeCommit (c : CoreId)
  | arbiterChoice (c : CoreId)
  | runOverrun (c : CoreId)
  | freezeLong (c : CoreId)
  | fiDeliver (c : CoreId) (s : Fin 4)
  | requestLeaveFo (c : CoreId) (s : Fin 4) (occ : List Nat)
  | stepComplete (c : CoreId) (s : Fin 4)
  | claimRelease (c : CoreId)
  | beatLand (c : CoreId)
  | rotatorRow (c : CoreId)
  | taskCompletionSignal (c : CoreId) (s : Fin 4)
  -- Steps of the copy channels
  | channelCommandStart (c : CoreId) (h : Fin 4)
  | channelRead (c : CoreId) (h : Fin 4) (second : Bool) (len : Nat)
  | channelWrite (c : CoreId) (h : Fin 4) (k : Nat)
  | sideLogReplay (c : CoreId) (h : Fin 4)
  | streamQueuePush (c : CoreId) (h : Fin 4)
  | streamQueuePop (c : CoreId) (h : Fin 4)
  | cpyComplete (c : CoreId) (h : Fin 4)
  | cdrnRelease (c : CoreId)
  -- Steps of the fabric
  | messageSend (c : CoreId) (h : Fin 4) (second : Bool) (occ : List Nat)
  | data (m : Msg)
  | red (m : Msg)
  | crd (m : Msg)
  | crdr (m : Msg)
  | fin (m : Msg)
  | singleRequest (m : Msg)
  | rep (m : Msg)
  | ack (m : Msg)
  | nack (m : Msg)
  | messageResend (c : CoreId) (a : Fin 8) (id : Nat) (occ : List Nat)
  | pqry (m : Msg)
  | prep (m : Msg)
  | pdrop (m : Msg)
  | pinExpire (i : Fin 16384)
  | engd (m : Msg)
  | linkReplay (p : Fin 32) (n : Nat)
  | portRetrain (p : Fin 32) (two : Bool)
  | linkDown (p : Fin 32)
  | vcTimeout (v : VcId) (back : Nat)
  | completionCacheExpire (c : CoreId)
  | mcastAckTimeout (t : Fin 16) (shard member : Nat)
  -- Steps of the engines
  | kvCommandPerform (d : Fin 4)
  | topkComplete (d : Fin 4)
  | gatherCommandPerform (d : Fin 4)
  | collComplete (g : BitVec 8) (peers : List CollPart)
  | collTimeout (g : BitVec 8)
  | demandWalk (n : Fin 12) (c : CoreId)
  | itineraryRead (t : Fin 16)
  | hopStart (t : Fin 16) (h : Fin 3)
  | hopLand (t : Fin 16) (h : Fin 3) (shard : Nat)
  | memberAck (t : Fin 16) (shard member : Nat)
  | paceHalve
  | weightReplace (v : Word)
  | replaceDrainDone
  | replaceGateTimeout
  | replaceCopyDone
  -- Steps of the memories and of the tamper alarm
  | hbmThermalDrop (st : Fin 4) (temp : BitVec 16)
  | hbmThermalRestore (st : Fin 4) (temp : BitVec 16)
  | hbmLaneFault (ch : Fin 128)
  | tamperTrip (inputs : BitVec 4)
  | widthTransitionEnd (ch : Fin 128)
  | cxlTimeout (e : CxlEnd)
  | cxlLinkLoss (p : Fin 8)
  -- Steps of the gatherer and the network engine
  | requestRecord (q : Fin 16) (rec : List Byte)
  | batchDeadline (q : Fin 16)
  | netRecordStart
  | packetSend (i : Nat) (psn : Nat) (port : Fin 4)
  | packetArrive (p : Packet)
  | uetAck (a : UAck)
  | rtoExpire (i : Nat) (psn : Nat)
  | launchDeliver (i : Nat)
  | pdcClose (i : Nat)
  | netPortDown (p : Fin 4)
  -- Steps of the scheduler
  | swapImageWrite (c : CoreId) (s : Fin 4)
  | rollback (q : Fin 64) (tier addr : Nat)
  | faultRecordWrite (q : Fin 64)
  | launchRecordConsume (q : Fin 64)
  | dependencyRelease (q : Fin 64)
  | dispatchDomain
  | launchComplete (q : Fin 64)
  | qretry (q : Fin 64)
  | teardown (q : Fin 64)
  | teardownRecord (q : Fin 64)
  | reset (q : Fin 64)
  | resetStopTimeout (q : Fin 64)
  | resetComplete (q : Fin 64)
  | restart (q : Fin 64)
  | qfheadWrite (q : Fin 64) (v : W32)
  | resume (c : CoreId) (s : Fin 4)
  | resumeAtSpc (c : CoreId) (s : Fin 4)
  | stop (c : CoreId) (s : Fin 4)
  | swapout (c : CoreId) (s : Fin 4)
  | swapIn (q : Fin 64)
  | kill (c : CoreId) (s : Fin 4)
  | revoke (v : Word)
  | guardAck
  | refresh (v : Word)
  | abandon (v : Word)
  | qrbkGo (q : Fin 64)
  -- Steps of the system
  | boot (cold : Bool)
  | mrExtend (v : BitVec 256)
  | quote
  | quoteComplete
  | powerTransition (v : Word)
  | powerTransitionDone
  | dieThermalLimit (d : Fin 4) (temp : BitVec 16)
  | checkpoint (v : Word)
  | checkpointDone
  | checkpointResume
  | restore (v : Word)
  | kvpfmtWrite (d : Fin 4) (v : Word)
  | mgmtRegisterWrite (r : MReg) (v : Word)
  | flitForward (t : Transit)
  | fabricPortUp (p : Fin 32) (nbr : Nat) (two : Bool)
  | netPortUp (p : Fin 4)
  | packageReset
  | orderingPointArrival (k : Nat)
  | hartMemoryAccess (o : HartOp)
  | poolHostAccess (addr : Nat) (write : Option (List Byte))
  | checkpointQuiesceTimeout
  | cxlCapacityEvent (info : Word)
  deriving DecidableEq, Repr

end Sys2Proof
end

