-- ==== Sys2Proof/WellFormed.lean ====
section
/-!
DEFINITION. Which syllables an encoding can stand for: the limits of fields that a type does not already carry
(R67, R68, R80, R82, R86, R90, R144, R159, R163, R177, R186).  A step that no word encodes is always well formed.
-/
namespace Sys2Proof

/-- The control indices that exist (Table 1-3). -/
def ctlDefined (c : BitVec 12) : Bool :=
  decide (c.toNat ≤ 3) || (decide (0x10 ≤ c.toNat) && decide (c.toNat ≤ 0x14)) ||
  (decide (0x20 ≤ c.toNat) && decide (c.toNat ≤ 0x27)) || decide (c.toNat = 0x40) || decide (c.toNat = 0x41) ||
  decide (c.toNat = 0x50) || (decide (0x100 ≤ c.toNat) && decide (c.toNat ≤ 0x10F))

/-- The control indices a task may write (Table 1-3, access rw or sticky). -/
def ctlWritable (c : BitVec 12) : Bool :=
  (decide (0x20 ≤ c.toNat) && decide (c.toNat ≤ 0x27)) || decide (c.toNat = 0x40) || decide (c.toNat = 0x41)

/-- The staging registers an engine defines (Tables 8-3, 8-6, 19-4 and the entries of R206 to R212). -/
def stagingDefined (eng : BitVec 4) (idx : BitVec 8) : Bool :=
  let i := idx.toNat
  match eng.toNat with
  | 0 | 1 | 2 | 3 => decide (i ≤ 9) || decide (i = 0x7F)
  | 4 => decide (i ≤ 6) || decide (i = 0x7F)
  | 5 => decide (i ≤ 4) || decide (i = 0x7F)
  | 6 => decide (i ≤ 1) || decide (i = 0x7F)
  | 7 => decide (i ≤ 5) || decide (i = 0x7F)
  | 8 => decide (i = 0)
  | 9 => decide (i ≤ 1) || decide (i = 0x7F)
  | 11 => decide (i = 0)
  | _ => false

/-- The status registers an engine defines (Tables 8-5, 8-6, 8-8, 8-9, 17-4; R208, R211, R212, R349, R400). -/
def statusDefined (eng : BitVec 4) (idx : BitVec 8) : Bool :=
  let i := idx.toNat
  match eng.toNat with
  | 0 | 1 | 2 | 3 => decide (0x80 ≤ i) && decide (i ≤ 0x84)
  | 4 => decide (0x80 ≤ i) && decide (i ≤ 0xCF)
  | 5 => decide (0x80 ≤ i) && decide (i ≤ 0x82)
  | 8 => decide (i = 0x80) || decide (i = 0x81)
  | 10 => decide (0x80 ≤ i) && decide (i ≤ 0x8F)
  | 11 => decide (i = 0x80) || decide (i = 0x81)
  | _ => false

/-- The integer lane types. -/
def Ty.isInt : Ty → Bool | .i32 | .n32 | .i16 | .n16 => true | _ => false
/-- The types whose lanes hold one element. -/
def Ty.is32 : Ty → Bool | .f32 | .i32 | .n32 => true | _ => false
/-- The types VFMA takes (Table 6-1). -/
def Ty.isFloat : Ty → Bool | .f32 | .bf16 | .f16 => true | _ => false
/-- The element width in bits. -/
def Ty.bits : Ty → Nat | .f32 | .i32 | .n32 => 32 | _ => 16

/-- A binary8 format code (Table 2-4). -/
def codeB8 (f : BitVec 6) : Bool := decide (f.toNat < 32) && decide (f.toNat % 8 ≠ 0)
/-- A format code of the matrix array (R159). -/
def codeArr (f : BitVec 6) : Bool := codeB8 f || decide (f.toNat = 0x20)
/-- The two-byte formats of VCVT (Table 6-2). -/
def codeCvt2 (f : BitVec 6) : Bool := [0x20, 0x21, 0x25, 0x2D].contains f.toNat
/-- The one-byte formats of VCVT (Table 6-2). -/
def codeCvt1 (f : BitVec 6) : Bool := codeB8 f || [0x24, 0x2C].contains f.toNat
/-- The four-byte formats of VCVT (Table 6-2). -/
def codeCvt4 (f : BitVec 6) : Bool := [0x26, 0x2E].contains f.toNat
/-- The formats VCVT accepts (R144). -/
def codeCvt (f : BitVec 6) : Bool := codeCvt1 f || codeCvt2 f || codeCvt4 f
/-- The largest q of VCVT for a format (Table 6-2). -/
def cvtMaxQ (f : BitVec 6) : Nat := if codeCvt2 f then 1 else if codeCvt4 f then 0 else 3

/-- The length a BFX or BFI length field stands for (R82). -/
def bfLen (l : BitVec 6) : Nat := if l.toNat = 0 then 64 else l.toNat

/-- The number of accumulator rows an X syllable's format allows (R159). -/
def arowLimit (f : BitVec 6) : Nat := if f.toNat = 0x20 then 96 else 192

/-- The limits of Q.T fields (R177). -/
def seqFields (r n : BitVec 8) : Bool := decide (r.toNat < 192) && decide (1 ≤ n.toNat) && decide (n.toNat ≤ 192)

/-- Whether VCVT's destination suits its direction and format (R145): a narrowing to 1 or 2 bytes merges into a
register. -/
def cvtDst (d : VDst) (f : BitVec 6) (r : Bool) : Bool :=
  match d with
  | .reg _ => true
  | _ => r || codeCvt4 f

/-- The syllables an encoding stands for; every step without an encoding is well formed. -/
def Instr.wf : Instr → Bool
  | .shli _ _ _ i | .shri _ _ _ i | .srai _ _ _ i => decide (i.toNat ≤ 63)
  | .bfx _ _ _ p l => decide (p.toNat + bfLen l ≤ 64)
  | .bfi _ _ _ p l => decide (p.toNat + bfLen l ≤ 64)
  | .getc _ _ c => ctlDefined c
  | .setc _ _ c => ctlDefined c && ctlWritable c
  | .loop a _ => decide (a.val ≠ 0)
  | .vadd _ _ _ _ _ t m => !m || t.isInt
  | .vsub _ _ _ _ _ t m => !m || t.isInt
  | .vmul _ _ _ _ _ t m => decide (m = .lo) || t.isInt
  | .vfma _ _ _ _ _ t _ => t.isFloat
  | .vcmp _ _ c _ _ _ t _ => t.is32 && (decide (t = .f32) || !(decide (c = .uo) || decide (c = .ord)))
  | .vshl _ _ _ _ _ t | .vshr _ _ _ _ _ t => t.isInt
  | .vshli _ _ _ _ t i | .vshri _ _ _ _ t i => t.isInt && decide (i.toNat < t.bits)
  | .vcvt _ d _ f r n _ q =>
    codeCvt f && decide (q.toNat ≤ cvtMaxQ f) && cvtDst d f r && (!r || codeCvt4 f || decide (n = 0))
  | .vred _ _ _ _ t _ => t.is32
  | .viota _ _ _ t _ => decide (t = .i32) || decide (t = .n32)
  | .vpset _ _ c a b _ =>
    match c with
    | .and | .or | .xor | .andn => true
    | .not | .first => decide (b = 0)
    | .set | .clear => decide (a = 0) && decide (b = 0)
  | .wpush _ r w f => decide (r.toNat < 192) && decide (w.toNat < arowLimit f) && codeArr f
  | .apush _ r a _ f => decide (r.toNat < 192) && decide (a.toNat < arowLimit f) && codeArr f
  | .acc _ r a _ f => decide (r.toNat < 192) && decide (a.toNat < arowLimit f) && codeArr f
  | .drain _ r a _ => decide (r.toNat < 192) && decide (a.toNat < 192)
  | .mclr m => decide (m ≠ 0)
  | .trw _ r _ _ _ => decide (r.toNat < 192)
  | .tldr _ r _ _ | .tstr _ r _ _ => decide (r.toNat < 192)
  | .scw _ _ i c | .sca _ _ i c => if c then decide (i = 0) else decide (i.toNat % 32 = 0) && decide (i.toNat ≤ 160)
  | .qrf _ _ r n _ _ => seqFields r n
  | .qapp _ _ r n _ => seqFields r n
  | .qrot _ r n _ => seqFields r n
  | .qsolv _ _ r n _ => seqFields r n
  | .qget _ _ _ n g => !n || g
  | .eset n i _ => stagingDefined n i
  | .eget _ n i => stagingDefined n i || statusDefined n i
  | .cdrn _ m => decide (m ≠ 0)
  | _ => true

end Sys2Proof
end

