-- ==== Sys2Proof/Decode.lean ====
section
/-!
DEFINITION. The decoder of syllables, its encoder, and the headers and run words of bundles (R57 to R71).  A word is
read in the class of its slot; what it cannot stand for is refused with the cause of Table 3-13 that comes first in
the order of R64, item 7.
-/
namespace Sys2Proof

/-! ### Encoding causes (Table 3-13) -/

/-- OPC_S (0x00) and, above it, the unused-opcode causes of the other classes (Table 3-13). -/
abbrev opcS : Nat := 0x00
abbrev opcB : Nat := 0x01
abbrev opcM : Nat := 0x02
abbrev opcV : Nat := 0x03
abbrev opcVM : Nat := 0x04
abbrev opcX : Nat := 0x05
abbrev opcT : Nat := 0x06
abbrev opcC : Nat := 0x07
abbrev opcQ : Nat := 0x08
abbrev opcE : Nat := 0x09
abbrev hdrVer : Nat := 0x0A
abbrev grpClash : Nat := 0x0B
abbrev grpLong : Nat := 0x0C
abbrev grpYield : Nat := 0x0D
abbrev grpGap : Nat := 0x0E
abbrev grpVer : Nat := 0x0F
abbrev runRsvd : Nat := 0x10
abbrev srcIll : Nat := 0x11
abbrev dstIll : Nat := 0x12
abbrev vopIll : Nat := 0x13
abbrev fldRsvd : Nat := 0x14
abbrev pcAlign : Nat := 0x15
abbrev codeEnd : Nat := 0x16
abbrev instPar : Nat := 0x17
abbrev immIll : Nat := 0x18
abbrev holdIll : Nat := 0x19
abbrev v1Opc : Nat := 0x1A
abbrev waitPlace : Nat := 0x1B
abbrev fmtRsvd : Nat := 0x1C
abbrev ctlUndef : Nat := 0x1D
abbrev ctlPriv : Nat := 0x1E
abbrev ctlValue : Nat := 0x1F

/-! ### Fields -/

/-- The field of `n` bits whose lowest bit is bit `lo`. -/
def fld (w : W32) (lo n : Nat) : Nat := w.toNat / 2 ^ lo % 2 ^ n

/-- The same field as bits. -/
def fldB (w : W32) (lo n : Nat) : BitVec n := BitVec.ofNat n (fld w lo n)

/-- The first condition that holds gives the cause; with none, the instruction. -/
def guarded (i : Instr) : List (Nat × Bool) → Except Nat Instr
  | [] => .ok i
  | (c, b) :: t => if b then .error c else guarded i t

/-- A scalar source code that no source has (R65). -/
def srcBad (k : Nat) : Bool := decide (k = 63)
/-- The source of a code (R65). -/
def srcOf (k : Nat) : SSrc :=
  if h : k < 56 then .reg ⟨k, h⟩ else if h : k - 56 < 6 then .latch ⟨k - 56, h⟩ else .fi
/-- The code of a source. -/
def srcCode : SSrc → Nat
  | .reg n => n.val
  | .latch n => 56 + n.val
  | .fi => 62

/-- A destination code with its W bit that no destination has (R65). -/
def dstBad (k w : Nat) : Bool := if w = 1 then decide (k ≠ 0) else decide (56 ≤ k ∧ k ≠ 62)
/-- The destination of a code and W bit (R65). -/
def dstOf (k w : Nat) : SDst :=
  if w = 1 then .latch else if h : k < 56 then .reg ⟨k, h⟩ else .fo
/-- The code of a destination. -/
def dstCode : SDst → Nat
  | .reg n => n.val
  | .fo => 62
  | .latch => 0
/-- The W bit of a destination. -/
def dstW : SDst → Nat
  | .latch => 1
  | _ => 0
/-- The destination of a code that R77 limits to registers. -/
def rdstOf (k w : Nat) : RDst := if w = 1 then .latch else if h : k < 56 then .reg ⟨k, h⟩ else .latch
/-- The code of such a destination. -/
def rdstCode : RDst → Nat
  | .reg n => n.val
  | .latch => 0
/-- The W bit of such a destination. -/
def rdstW : RDst → Nat
  | .reg _ => 0
  | .latch => 1

/-- A vector source code that no source has (R66). -/
def vsrcBad (k : Nat) : Bool := decide (36 ≤ k)
/-- The vector source of a code (R66). -/
def vsrcOf (k : Nat) : VSrc :=
  if h : k < 32 then .reg ⟨k, h⟩ else if k = 32 then .la else if k = 33 then .lb else if k = 34 then .qa else .qb
/-- The code of a vector source. -/
def vsrcCode : VSrc → Nat
  | .reg n => n.val
  | .la => 32 | .lb => 33 | .qa => 34 | .qb => 35
/-- A vector destination code that no destination has (R66). -/
def vdstBad (k : Nat) : Bool := decide (32 ≤ k ∧ k ≠ 36 ∧ k ≠ 63)
/-- The vector destination of a code (R66). -/
def vdstOf (k : Nat) : VDst := if h : k < 32 then .reg ⟨k, h⟩ else if k = 36 then .qo else .none
/-- The code of a vector destination. -/
def vdstCode : VDst → Nat
  | .reg n => n.val
  | .qo => 36
  | .none => 63

/-- The lane type of a TY value below 7 (R67). -/
def tyOf : Nat → Ty
  | 0 => .f32 | 1 => .i32 | 2 => .n32 | 3 => .bf16 | 4 => .f16 | 5 => .i16 | _ => .n16
/-- The TY value of a lane type. -/
def tyCode : Ty → Nat
  | .f32 => 0 | .i32 => 1 | .n32 => 2 | .bf16 => 3 | .f16 => 4 | .i16 => 5 | .n16 => 6
/-- The condition of a BRC (Table 3-6). -/
def bcndOf : Nat → BCnd | 0 => .eqz | 1 => .nez | 2 => .ltz | _ => .gez
/-- The CND value of a BRC condition. -/
def bcndCode : BCnd → Nat | .eqz => 0 | .nez => 1 | .ltz => 2 | .gez => 3
/-- The condition of a WAITF (R93). -/
def wcndOf : Nat → WCnd | 0 => .eq | 1 => .ne | 2 => .geu | _ => .any
/-- The CND value of a WAITF condition. -/
def wcndCode : WCnd → Nat | .eq => 0 | .ne => 1 | .geu => 2 | .any => 3
/-- The comparison of a VCMP (R141). -/
def vcndOf : Nat → VCnd
  | 0 => .eq | 1 => .ne | 2 => .lt | 3 => .le | 4 => .gt | 5 => .ge | 6 => .uo | _ => .ord
/-- The CND value of a comparison. -/
def vcndCode : VCnd → Nat
  | .eq => 0 | .ne => 1 | .lt => 2 | .le => 3 | .gt => 4 | .ge => 5 | .uo => 6 | .ord => 7
/-- The operation of a VPSET (R142). -/
def popOf : Nat → POp
  | 0 => .and | 1 => .or | 2 => .xor | 3 => .andn | 4 => .not | 5 => .set | 6 => .first | _ => .clear
/-- The CND value of a predicate operation. -/
def popCode : POp → Nat
  | .and => 0 | .or => 1 | .xor => 2 | .andn => 3 | .not => 4 | .set => 5 | .first => 6 | .clear => 7
/-- The operation of an atomic (R110). -/
def aopOf : Nat → AOp
  | 0 => .add | 1 => .and | 2 => .or | 3 => .xor | 4 => .swap | 5 => .min | 6 => .max | _ => .maxn
/-- The MOD or OP value of an atomic operation. -/
def aopCode : AOp → Nat
  | .add => 0 | .and => 1 | .or => 2 | .xor => 3 | .swap => 4 | .min => 5 | .max => 6 | .maxn => 7
/-- The MOD of a VMUL (Table 6-1). -/
def mulModOf : Nat → MulMod | 0 => .lo | 1 => .sat | _ => .hi
/-- The MOD value of a VMUL mode. -/
def mulModCode : MulMod → Nat | .lo => 0 | .sat => 1 | .hi => 2
/-- The operation of a VRED (R150). -/
def ropOf : Nat → ROp | 0 => .add | 1 => .min | _ => .max
/-- The MOD value of a reduction. -/
def ropCode : ROp → Nat | .add => 0 | .min => 1 | .max => 2
/-- A number as an index below `n`. -/
def finOf (n : Nat) [NeZero n] (k : Nat) : Fin n := Fin.ofNat n k
/-- A field as a truth value. -/
def bitOf (k : Nat) : Bool := decide (k ≠ 0)
/-- A truth value as a field. -/
def bitCode (b : Bool) : Nat := if b then 1 else 0

/-! ### The S class (Table 3-5) -/

/-- S.R with the sources A and B. -/
def decSR (w : W32) (f : SDst → SSrc → SSrc → Instr) : Except Nat Instr :=
  guarded (f (dstOf (fld w 20 6) (fld w 19 1)) (srcOf (fld w 13 6)) (srcOf (fld w 7 6)))
    [(fldRsvd, bitOf (fld w 0 7)), (srcIll, srcBad (fld w 13 6) || srcBad (fld w 7 6)),
     (dstIll, dstBad (fld w 20 6) (fld w 19 1))]

/-- S.R with the source A alone. -/
def decSA (w : W32) (f : SDst → SSrc → Instr) : Except Nat Instr :=
  guarded (f (dstOf (fld w 20 6) (fld w 19 1)) (srcOf (fld w 13 6)))
    [(fldRsvd, bitOf (fld w 0 13)), (srcIll, srcBad (fld w 13 6)), (dstIll, dstBad (fld w 20 6) (fld w 19 1))]

/-- S.I (Table 3-5, R80). -/
def decSI (w : W32) (f : SDst → SSrc → BitVec 13 → Instr) : Except Nat Instr :=
  guarded (f (dstOf (fld w 20 6) (fld w 19 1)) (srcOf (fld w 13 6)) (fldB w 0 13))
    [(srcIll, srcBad (fld w 13 6)), (dstIll, dstBad (fld w 20 6) (fld w 19 1))]

/-- S.I with a shift count (R80). -/
def decSSh (w : W32) (f : SDst → SSrc → BitVec 13 → Instr) : Except Nat Instr :=
  guarded (f (dstOf (fld w 20 6) (fld w 19 1)) (srcOf (fld w 13 6)) (fldB w 0 13))
    [(srcIll, srcBad (fld w 13 6)), (dstIll, dstBad (fld w 20 6) (fld w 19 1)), (immIll, decide (63 < fld w 0 13))]

/-- The syllable of a word in the slot `u` of the S class (Table 3-12). -/
def decS (u : SSlot) (w : W32) : Except Nat Instr :=
  match fld w 26 6 with
  | 0x00 => decSR w (.add u)
  | 0x20 => decSI w (.addi u)
  | 0x01 => decSR w (.sub u)
  | 0x02 => decSR w (.mul u)
  | 0x22 => decSI w (.muli u)
  | 0x03 => decSR w (.mulh u)
  | 0x04 => decSR w (.mulhn u)
  | 0x05 => decSR w (.div u)
  | 0x06 => decSR w (.divn u)
  | 0x07 => decSR w (.rem u)
  | 0x08 => decSR w (.remn u)
  | 0x09 => decSR w (.and u)
  | 0x29 => decSI w (.andi u)
  | 0x0A => decSR w (.or u)
  | 0x2A => decSI w (.ori u)
  | 0x0B => decSR w (.xor u)
  | 0x2B => decSI w (.xori u)
  | 0x0C => decSR w (.andn u)
  | 0x0D => decSR w (.shl u)
  | 0x2D => decSSh w (.shli u)
  | 0x0E => decSR w (.shr u)
  | 0x2E => decSSh w (.shri u)
  | 0x0F => decSR w (.sra u)
  | 0x2F => decSSh w (.srai u)
  | 0x10 => decSR w (.seq u)
  | 0x11 => decSR w (.slt u)
  | 0x31 => decSI w (.slti u)
  | 0x12 => decSR w (.sltn u)
  | 0x13 => decSR w (.min u)
  | 0x14 => decSR w (.max u)
  | 0x34 => decSI w (.maxi u)
  | 0x15 =>
    guarded (.sel u (dstOf (fld w 20 6) (fld w 19 1)) (srcOf (fld w 13 6)) (srcOf (fld w 7 6)) (srcOf (fld w 1 6)))
      [(fldRsvd, bitOf (fld w 0 1)), (srcIll, srcBad (fld w 13 6) || srcBad (fld w 7 6) || srcBad (fld w 1 6)),
       (dstIll, dstBad (fld w 20 6) (fld w 19 1))]
  | 0x16 =>
    guarded (.movi u (dstOf (fld w 20 6) (fld w 19 1)) (fldB w 0 19)) [(dstIll, dstBad (fld w 20 6) (fld w 19 1))]
  | 0x17 =>
    guarded (.movhi u (rdstOf (fld w 20 6) (fld w 19 1)) (fldB w 0 19))
      [(dstIll, dstBad (fld w 20 6) (fld w 19 1)), (immIll, decide (fld w 20 6 = 62))]
  | 0x18 => decSA w (.clz u)
  | 0x19 => decSA w (.popc u)
  | 0x1A =>
    guarded (.bfx u (dstOf (fld w 20 6) (fld w 19 1)) (srcOf (fld w 13 6)) (fldB w 7 6) (fldB w 1 6))
      [(fldRsvd, bitOf (fld w 0 1)), (srcIll, srcBad (fld w 13 6)), (dstIll, dstBad (fld w 20 6) (fld w 19 1)),
       (immIll, decide (64 < fld w 7 6 + bfLen (fldB w 1 6)))]
  | 0x1B =>
    guarded (.bfi u (rdstOf (fld w 20 6) (fld w 19 1)) (srcOf (fld w 13 6)) (fldB w 7 6) (fldB w 1 6))
      [(fldRsvd, bitOf (fld w 0 1)), (srcIll, srcBad (fld w 13 6)), (dstIll, dstBad (fld w 20 6) (fld w 19 1)),
       (immIll, decide (fld w 20 6 = 62) || decide (64 < fld w 7 6 + bfLen (fldB w 1 6)))]
  | 0x1C =>
    guarded (.addsc u (dstOf (fld w 20 6) (fld w 19 1)) (srcOf (fld w 13 6)) (srcOf (fld w 7 6)) (fldB w 1 2))
      [(fldRsvd, bitOf (fld w 0 1)), (srcIll, srcBad (fld w 13 6) || srcBad (fld w 7 6)),
       (dstIll, dstBad (fld w 20 6) (fld w 19 1)), (immIll, decide (4 ≤ fld w 1 6))]
  | 0x1D =>
    guarded (.getc u (dstOf (fld w 20 6) (fld w 19 1)) (fldB w 7 12))
      [(fldRsvd, bitOf (fld w 0 7)), (dstIll, dstBad (fld w 20 6) (fld w 19 1)), (ctlUndef, !ctlDefined (fldB w 7 12))]
  | 0x1E =>
    guarded (.setc u (srcOf (fld w 20 6)) (fldB w 7 12))
      [(fldRsvd, bitOf (fld w 0 7) || bitOf (fld w 19 1)), (srcIll, srcBad (fld w 20 6)),
       (ctlUndef, !ctlDefined (fldB w 7 12)), (ctlPriv, !ctlWritable (fldB w 7 12))]
  | _ => .error opcS

/-! ### The B class (Table 3-6) -/

/-- The syllable of a word in the slot B. -/
def decB (w : W32) : Except Nat Instr :=
  match fld w 26 6 with
  | 0x00 => .ok (.br (fldB w 0 26))
  | 0x01 =>
    guarded (.brc (srcOf (fld w 20 6)) (bcndOf (fld w 18 2)) (fldB w 0 18)) [(srcIll, srcBad (fld w 20 6))]
  | 0x02 =>
    guarded (.call (finOf 56 (fld w 20 6)) (fldB w 0 20))
      [(dstIll, decide (56 ≤ fld w 20 6 ∧ fld w 20 6 ≠ 62)), (immIll, decide (fld w 20 6 = 62))]
  | 0x03 => guarded (.ret (srcOf (fld w 20 6))) [(fldRsvd, bitOf (fld w 0 20)), (srcIll, srcBad (fld w 20 6))]
  | 0x04 =>
    guarded (.jr (srcOf (fld w 20 6)) (srcOf (fld w 14 6)) (fldB w 0 14))
      [(srcIll, srcBad (fld w 20 6) || srcBad (fld w 14 6))]
  | 0x05 =>
    guarded (.loop (finOf 56 (fld w 20 6)) (fldB w 0 20))
      [(srcIll, srcBad (fld w 20 6)), (immIll, decide (fld w 20 6 = 0) || decide (56 ≤ fld w 20 6))]
  | 0x08 => guarded (.run (srcOf (fld w 20 6))) [(fldRsvd, bitOf (fld w 0 20)), (srcIll, srcBad (fld w 20 6))]
  | 0x09 =>
    guarded (.waitf (srcOf (fld w 20 6)) (srcOf (fld w 14 6)) (fldB w 10 4) (wcndOf (fld w 8 2)))
      [(fldRsvd, bitOf (fld w 0 8)), (srcIll, srcBad (fld w 20 6) || srcBad (fld w 14 6))]
  | 0x0A => guarded (.step (finOf 5 (fld w 0 3))) [(fldRsvd, bitOf (fld w 3 23) || decide (5 ≤ fld w 0 3))]
  | 0x0C =>
    guarded (.fence (bitOf (fld w 3 1)) (finOf 5 (fld w 0 3))) [(fldRsvd, bitOf (fld w 4 22) || decide (5 ≤ fld w 0 3))]
  | 0x0E =>
    guarded (.trap (srcOf (fld w 20 6)) (fldB w 0 4)) [(fldRsvd, bitOf (fld w 4 16)), (srcIll, srcBad (fld w 20 6))]
  | 0x0F => guarded (.halt (srcOf (fld w 20 6))) [(fldRsvd, bitOf (fld w 0 20)), (srcIll, srcBad (fld w 20 6))]
  | _ => .error opcB

/-! ### The M class (Tables 3-7 and 5-3) -/

/-- M.M of a load. -/
def decLoad (w : W32) (f : SDst → BitVec 4 → SSrc → BitVec 2 → BitVec 7 → Instr) : Except Nat Instr :=
  guarded (f (dstOf (fld w 20 6) (fld w 19 1)) (fldB w 15 4) (srcOf (fld w 9 6)) (fldB w 7 2) (fldB w 0 7))
    [(srcIll, srcBad (fld w 9 6)), (dstIll, dstBad (fld w 20 6) (fld w 19 1))]

/-- The syllable of a word in the slot `u` of the M class. -/
def decM (u : MSlot) (w : W32) : Except Nat Instr :=
  match fld w 26 6 with
  | 0x00 => decLoad w (.ld u)
  | 0x01 => decLoad w (.ldn u)
  | 0x02 =>
    guarded (.st u (srcOf (fld w 20 6)) (fldB w 15 4) (srcOf (fld w 9 6)) (fldB w 7 2) (fldB w 0 7))
      [(fldRsvd, bitOf (fld w 19 1)), (srcIll, srcBad (fld w 20 6) || srcBad (fld w 9 6))]
  | 0x04 =>
    guarded (.amo u (dstOf (fld w 20 6) (fld w 19 1)) (fldB w 15 4) (srcOf (fld w 9 6)) (srcOf (fld w 3 6))
        (aopOf (fld w 0 3)))
      [(srcIll, srcBad (fld w 9 6) || srcBad (fld w 3 6)), (dstIll, dstBad (fld w 20 6) (fld w 19 1))]
  | 0x05 =>
    guarded (.cas u (rdstOf (fld w 20 6) (fld w 19 1)) (fldB w 15 4) (srcOf (fld w 9 6)) (srcOf (fld w 3 6)))
      [(fldRsvd, bitOf (fld w 0 3)), (srcIll, srcBad (fld w 9 6) || srcBad (fld w 3 6)),
       (dstIll, dstBad (fld w 20 6) (fld w 19 1)), (immIll, decide (fld w 20 6 = 62))]
  | 0x08 =>
    guarded (.lkup u (dstOf (fld w 20 6) (fld w 19 1)) (srcOf (fld w 13 6)))
      [(fldRsvd, bitOf (fld w 0 13)), (srcIll, srcBad (fld w 13 6)), (dstIll, dstBad (fld w 20 6) (fld w 19 1))]
  | 0x09 =>
    guarded (.tagset u (dstOf (fld w 20 6) (fld w 19 1)) (srcOf (fld w 13 6)) (srcOf (fld w 7 6)))
      [(fldRsvd, bitOf (fld w 0 7)), (srcIll, srcBad (fld w 13 6) || srcBad (fld w 7 6)),
       (dstIll, dstBad (fld w 20 6) (fld w 19 1))]
  | 0x0A =>
    guarded (.tagdrop u (dstOf (fld w 20 6) (fld w 19 1)) (srcOf (fld w 13 6)))
      [(fldRsvd, bitOf (fld w 0 13)), (srcIll, srcBad (fld w 13 6)), (dstIll, dstBad (fld w 20 6) (fld w 19 1))]
  | 0x0C =>
    guarded (.bari u (srcOf (fld w 7 6)) (finOf 8 (fld w 0 3)))
      [(fldRsvd, bitOf (fld w 13 13) || bitOf (fld w 3 4)), (srcIll, srcBad (fld w 7 6))]
  | 0x0D =>
    guarded (.bara u (srcOf (fld w 7 6)) (finOf 8 (fld w 0 3)))
      [(fldRsvd, bitOf (fld w 13 13) || bitOf (fld w 3 4)), (srcIll, srcBad (fld w 7 6))]
  | 0x0E => guarded (.barw u (finOf 8 (fld w 0 3))) [(fldRsvd, bitOf (fld w 3 23))]
  | 0x0F =>
    guarded (.barx u (dstOf (fld w 20 6) (fld w 19 1)) (srcOf (fld w 7 6)) (finOf 8 (fld w 0 3)))
      [(fldRsvd, bitOf (fld w 13 6) || bitOf (fld w 3 4)), (srcIll, srcBad (fld w 7 6)),
       (dstIll, dstBad (fld w 20 6) (fld w 19 1))]
  | 0x10 =>
    guarded (.acq u (dstOf (fld w 20 6) (fld w 19 1)) (fldB w 0 4))
      [(fldRsvd, bitOf (fld w 4 15)), (dstIll, dstBad (fld w 20 6) (fld w 19 1))]
  | 0x11 =>
    guarded (.rel u (srcOf (fld w 7 6)) (bitOf (fld w 4 1)) (fldB w 0 4))
      [(fldRsvd, bitOf (fld w 13 13) || bitOf (fld w 5 2)), (srcIll, srcBad (fld w 7 6))]
  | 0x12 =>
    guarded (.bind u (fldB w 22 4) (srcOf (fld w 13 6)) (srcOf (fld w 7 6)) (fldB w 0 4))
      [(fldRsvd, bitOf (fld w 19 3) || bitOf (fld w 4 3)), (srcIll, srcBad (fld w 13 6) || srcBad (fld w 7 6))]
  | 0x14 =>
    guarded (.rld u (fldB w 22 4) (fldB w 20 2) (srcOf (fld w 13 6)) (bitOf (fld w 4 1)))
      [(fldRsvd, bitOf (fld w 19 1) || bitOf (fld w 5 8) || bitOf (fld w 0 4)), (srcIll, srcBad (fld w 13 6))]
  | 0x15 =>
    guarded (.rst u (fldB w 22 4) (fldB w 20 2) (bitOf (fld w 19 1)) (srcOf (fld w 13 6)) (srcOf (fld w 7 6))
        (fldB w 5 2) (bitOf (fld w 4 1)))
      [(fldRsvd, bitOf (fld w 0 4)), (srcIll, srcBad (fld w 13 6) || srcBad (fld w 7 6))]
  | 0x16 =>
    guarded (.ramo u (fldB w 22 4) (bitOf (fld w 20 1)) (srcOf (fld w 13 6)) (srcOf (fld w 7 6)) (fldB w 5 2)
        (bitOf (fld w 4 1)) (aopOf (fld w 0 3)))
      [(fldRsvd, !bitOf (fld w 21 1) || bitOf (fld w 19 1) || bitOf (fld w 3 1)),
       (srcIll, srcBad (fld w 13 6) || srcBad (fld w 7 6))]
  | 0x18 =>
    guarded (.pinset u (srcOf (fld w 13 6)) (bitOf (fld w 0 1)))
      [(fldRsvd, bitOf (fld w 19 7) || bitOf (fld w 1 12)), (srcIll, srcBad (fld w 13 6))]
  | 0x19 =>
    guarded (.pindrop u (srcOf (fld w 13 6)))
      [(fldRsvd, bitOf (fld w 19 7) || bitOf (fld w 0 13)), (srcIll, srcBad (fld w 13 6))]
  | _ => .error opcM

/-! ### The V class (Table 3-8) -/

/-- V.R with VA, VB, a type and a MOD: `bad` says which (TY, MOD) the entry does not list. -/
def decVR (w : W32) (bad : Bool) (f : VDst → VSrc → VSrc → Fin 8 → Instr) : Except Nat Instr :=
  guarded (f (vdstOf (fld w 20 6)) (vsrcOf (fld w 14 6)) (vsrcOf (fld w 8 6)) (finOf 8 (fld w 5 3)))
    [(fldRsvd, bad), (vopIll, vdstBad (fld w 20 6) || vsrcBad (fld w 14 6) || vsrcBad (fld w 8 6))]

/-- V.R with VA alone; VB, TY and MOD are zero. -/
def decVA (w : W32) (f : VDst → VSrc → Fin 8 → Instr) : Except Nat Instr :=
  guarded (f (vdstOf (fld w 20 6)) (vsrcOf (fld w 14 6)) (finOf 8 (fld w 5 3)))
    [(fldRsvd, bitOf (fld w 8 6) || bitOf (fld w 0 5)), (vopIll, vdstBad (fld w 20 6) || vsrcBad (fld w 14 6))]

/-- V.I: `bad` says that the entry does not list the type, `imm` that the immediate lies outside its limit. -/
def decVI (w : W32) (bad imm : Bool) (f : VDst → VSrc → Fin 8 → Ty → BitVec 8 → Instr) : Except Nat Instr :=
  guarded (f (vdstOf (fld w 20 6)) (vsrcOf (fld w 14 6)) (finOf 8 (fld w 11 3)) (tyOf (fld w 8 3)) (fldB w 0 8))
    [(fldRsvd, bad), (vopIll, vdstBad (fld w 20 6) || vsrcBad (fld w 14 6)), (immIll, imm)]

/-- A TY or MOD of VADD and VSUB that Table 6-1 does not list. -/
def badAddMod (t m : Nat) : Bool :=
  decide (t = 7) || decide (2 ≤ m) || (decide (m = 1) && !(tyOf t).isInt)
/-- A TY or MOD of VMUL that Table 6-1 does not list. -/
def badMulMod (t m : Nat) : Bool :=
  decide (t = 7) || decide (m = 3) || (decide (m ≠ 0) && !(tyOf t).isInt)
/-- A TY outside the integer types. -/
def badInt (t : Nat) : Bool := decide (t = 7) || !(tyOf t).isInt

/-- The syllable of a word in the slot VA of cluster `k`. -/
def decV (k : Fin 8) (w : W32) : Except Nat Instr :=
  match fld w 26 6 with
  | 0x00 => decVR w (badAddMod (fld w 2 3) (fld w 0 2)) fun d a b p => .vadd k d a b p (tyOf (fld w 2 3)) (bitOf (fld w 0 2))
  | 0x20 => decVI w (decide (fld w 8 3 = 7)) false (.vaddi k)
  | 0x01 => decVR w (badAddMod (fld w 2 3) (fld w 0 2)) fun d a b p => .vsub k d a b p (tyOf (fld w 2 3)) (bitOf (fld w 0 2))
  | 0x02 => decVR w (badMulMod (fld w 2 3) (fld w 0 2)) fun d a b p => .vmul k d a b p (tyOf (fld w 2 3)) (mulModOf (fld w 0 2))
  | 0x22 => decVI w (decide (fld w 8 3 = 7)) false (.vmuli k)
  | 0x03 =>
    guarded (.vfma k (finOf 32 (fld w 20 6)) (vsrcOf (fld w 14 6)) (vsrcOf (fld w 8 6)) (finOf 8 (fld w 5 3))
        (tyOf (fld w 2 3)) (fldB w 0 2))
      [(fldRsvd, decide (fld w 2 3 = 7) || !(tyOf (fld w 2 3)).isFloat),
       (vopIll, decide (32 ≤ fld w 20 6) || vsrcBad (fld w 14 6) || vsrcBad (fld w 8 6))]
  | 0x04 => decVR w (decide (fld w 2 3 = 7) || bitOf (fld w 0 2)) fun d a b p => .vmin k d a b p (tyOf (fld w 2 3))
  | 0x05 => decVR w (decide (fld w 2 3 = 7) || bitOf (fld w 0 2)) fun d a b p => .vmax k d a b p (tyOf (fld w 2 3))
  | 0x06 =>
    guarded (.vcmp k (finOf 8 (fld w 23 3)) (vcndOf (fld w 20 3)) (vsrcOf (fld w 14 6)) (vsrcOf (fld w 8 6))
        (finOf 8 (fld w 5 3)) (tyOf (fld w 2 3)) (bitOf (fld w 0 2)))
      [(fldRsvd, decide (3 ≤ fld w 2 3) || decide (2 ≤ fld w 0 2) || (decide (6 ≤ fld w 20 3) && decide (fld w 2 3 ≠ 0))),
       (vopIll, vsrcBad (fld w 14 6) || vsrcBad (fld w 8 6))]
  | 0x07 => decVR w (decide (fld w 2 3 = 7) || bitOf (fld w 0 2)) fun d a b p => .vsel k d a b p (tyOf (fld w 2 3))
  | 0x08 => decVR w (decide (fld w 2 3 = 7) || bitOf (fld w 0 2)) fun d a b p => .vand k d a b p (tyOf (fld w 2 3))
  | 0x09 => decVR w (decide (fld w 2 3 = 7) || bitOf (fld w 0 2)) fun d a b p => .vor k d a b p (tyOf (fld w 2 3))
  | 0x0A => decVR w (decide (fld w 2 3 = 7) || bitOf (fld w 0 2)) fun d a b p => .vxor k d a b p (tyOf (fld w 2 3))
  | 0x0B => decVR w (badInt (fld w 2 3) || bitOf (fld w 0 2)) fun d a b p => .vshl k d a b p (tyOf (fld w 2 3))
  | 0x2B => decVI w (badInt (fld w 8 3)) (decide ((tyOf (fld w 8 3)).bits ≤ fld w 0 8)) (.vshli k)
  | 0x0C => decVR w (badInt (fld w 2 3) || bitOf (fld w 0 2)) fun d a b p => .vshr k d a b p (tyOf (fld w 2 3))
  | 0x2C => decVI w (badInt (fld w 8 3)) (decide ((tyOf (fld w 8 3)).bits ≤ fld w 0 8)) (.vshri k)
  | 0x0D =>
    let f := fldB w 8 6
    guarded (.vcvt k (vdstOf (fld w 20 6)) (vsrcOf (fld w 14 6)) f (bitOf (fld w 7 1)) (fldB w 5 2) (finOf 8 (fld w 2 3))
        (fldB w 0 2))
      [(fldRsvd, codeCvt f && (decide (cvtMaxQ f < fld w 0 2) ||
          (bitOf (fld w 7 1) && !codeCvt4 f && bitOf (fld w 5 2)))),
       (vopIll, vdstBad (fld w 20 6) || vsrcBad (fld w 14 6) ||
          (codeCvt f && !cvtDst (vdstOf (fld w 20 6)) f (bitOf (fld w 7 1)))),
       (fmtRsvd, !codeCvt f)]
  | 0x0E => decVA w (.vrcp k)
  | 0x0F => decVA w (.vrsq k)
  | 0x10 => decVA w (.vexp2 k)
  | 0x11 => decVA w (.vlog2 k)
  | 0x12 =>
    guarded (.vwel k (finOf 8 (fld w 20 6 / 4)) (vsrcOf (fld w 14 6)) (finOf 8 (fld w 5 3)))
      [(fldRsvd, bitOf (fld w 8 6) || bitOf (fld w 0 5)),
       (vopIll, decide (28 < fld w 20 6) || decide (fld w 20 6 % 4 ≠ 0) || vsrcBad (fld w 14 6))]
  | 0x13 =>
    guarded (.vwmg k (finOf 8 (fld w 20 6 / 4)) (finOf 8 (fld w 14 6 / 4)) (finOf 8 (fld w 5 3)))
      [(fldRsvd, bitOf (fld w 8 6) || bitOf (fld w 0 5)),
       (vopIll, decide (28 < fld w 20 6) || decide (fld w 20 6 % 4 ≠ 0) ||
          decide (28 < fld w 14 6) || decide (fld w 14 6 % 4 ≠ 0))]
  | 0x14 =>
    guarded (.vred k (vdstOf (fld w 20 6)) (vsrcOf (fld w 14 6)) (finOf 8 (fld w 5 3)) (tyOf (fld w 2 3))
        (ropOf (fld w 0 2)))
      [(fldRsvd, bitOf (fld w 8 6) || decide (3 ≤ fld w 2 3) || decide (fld w 0 2 = 3)),
       (vopIll, vdstBad (fld w 20 6) || vsrcBad (fld w 14 6))]
  | 0x15 => decVR w (bitOf (fld w 0 5)) fun d a b p => .vperm k d a b p
  | 0x16 =>
    guarded (.vbcst k (vdstOf (fld w 20 6)) (vsrcOf (fld w 14 6)) (fldB w 8 4) (finOf 8 (fld w 5 3)))
      [(fldRsvd, bitOf (fld w 0 5)), (vopIll, vdstBad (fld w 20 6) || vsrcBad (fld w 14 6)),
       (immIll, bitOf (fld w 12 2))]
  | 0x17 =>
    guarded (.viota k (vdstOf (fld w 20 6)) (finOf 8 (fld w 5 3)) (tyOf (fld w 2 3)) (bitOf (fld w 0 2)))
      [(fldRsvd, bitOf (fld w 8 12) || decide (fld w 2 3 = 0) || decide (3 ≤ fld w 2 3) || decide (2 ≤ fld w 0 2)),
       (vopIll, vdstBad (fld w 20 6))]
  | 0x18 =>
    guarded (.vpset k (finOf 8 (fld w 23 3)) (popOf (fld w 20 3)) (finOf 8 (fld w 14 3)) (finOf 8 (fld w 8 3))
        (finOf 8 (fld w 5 3)))
      [(fldRsvd, bitOf (fld w 17 3) || bitOf (fld w 11 3) || bitOf (fld w 0 5) ||
          (match popOf (fld w 20 3) with
           | .and | .or | .xor | .andn => false
           | .not | .first => bitOf (fld w 8 3)
           | .set | .clear => bitOf (fld w 14 3) || bitOf (fld w 8 3)))]
  | _ => .error opcV

/-! ### The VM class (Table 3-9) -/

/-- The syllable of a word in the slot VB of cluster `k`. -/
def decVM (k : Fin 8) (w : W32) : Except Nat Instr :=
  match fld w 26 6 with
  | 0x00 =>
    guarded (.vld k (vdstOf (fld w 20 6)) (fldB w 16 4) (srcOf (fld w 10 6)) (finOf 8 (fld w 7 3)) (fldB w 0 7))
      [(srcIll, srcBad (fld w 10 6)), (vopIll, vdstBad (fld w 20 6))]
  | 0x01 =>
    guarded (.vst k (vsrcOf (fld w 20 6)) (fldB w 16 4) (srcOf (fld w 10 6)) (finOf 8 (fld w 7 3)) (fldB w 0 7))
      [(srcIll, srcBad (fld w 10 6)), (vopIll, vsrcBad (fld w 20 6))]
  | 0x02 =>
    guarded (.vgth k (vdstOf (fld w 20 6)) (fldB w 16 4) (vsrcOf (fld w 10 6)) (finOf 8 (fld w 7 3)) (finOf 3 (fld w 5 2)))
      [(fldRsvd, bitOf (fld w 0 5) || decide (fld w 5 2 = 3)), (vopIll, vdstBad (fld w 20 6) || vsrcBad (fld w 10 6))]
  | 0x03 =>
    guarded (.vsct k (vsrcOf (fld w 20 6)) (fldB w 16 4) (vsrcOf (fld w 10 6)) (finOf 8 (fld w 7 3)) (finOf 3 (fld w 5 2)))
      [(fldRsvd, bitOf (fld w 0 5) || decide (fld w 5 2 = 3)), (vopIll, vsrcBad (fld w 20 6) || vsrcBad (fld w 10 6))]
  | 0x04 =>
    guarded (.xcp k (vdstOf (fld w 20 6)) (finOf 32 (fld w 14 6)) (finOf 8 (fld w 11 3)) (finOf 8 (fld w 8 3)))
      [(fldRsvd, bitOf (fld w 0 8)), (vopIll, vdstBad (fld w 20 6) || decide (32 ≤ fld w 14 6))]
  | 0x05 =>
    if fld w 9 1 = 0 then
      guarded (.vmovs k (.inn (finOf 32 (fld w 20 6)) (srcOf (fld w 14 6))) (fldB w 10 4))
        [(fldRsvd, bitOf (fld w 0 9)), (srcIll, srcBad (fld w 14 6)), (vopIll, decide (32 ≤ fld w 20 6))]
    else
      guarded (.vmovs k (if fld w 14 6 = 62 then .outFo (vsrcOf (fld w 20 6))
          else .outReg (vsrcOf (fld w 20 6)) (finOf 56 (fld w 14 6))) (fldB w 10 4))
        [(fldRsvd, bitOf (fld w 0 9)), (dstIll, dstBad (fld w 14 6) 0), (vopIll, vsrcBad (fld w 20 6))]
  | 0x06 =>
    guarded (.vtld k (vdstOf (fld w 20 6)) (finOf 8 (fld w 16 3)) (srcOf (fld w 10 6)) (finOf 8 (fld w 7 3)) (fldB w 0 7))
      [(fldRsvd, bitOf (fld w 19 1)), (srcIll, srcBad (fld w 10 6)), (vopIll, vdstBad (fld w 20 6))]
  | 0x07 =>
    guarded (.vtst k (vsrcOf (fld w 20 6)) (finOf 8 (fld w 16 3)) (srcOf (fld w 10 6)) (finOf 8 (fld w 7 3)) (fldB w 0 7))
      [(fldRsvd, bitOf (fld w 19 1)), (srcIll, srcBad (fld w 10 6)), (vopIll, vsrcBad (fld w 20 6))]
  | _ => .error opcVM

/-! ### The X, T, C and Q classes (Table 3-10) -/

/-- The syllable of a word in the slot X (R159). -/
def decX (w : W32) : Except Nat Instr :=
  let f := fldB w 0 6
  match fld w 26 6 with
  | 0x00 =>
    guarded (.wpush (finOf 8 (fld w 23 3)) (fldB w 15 8) (fldB w 7 8) f)
      [(fldRsvd, bitOf (fld w 6 1)), (immIll, decide (192 ≤ fld w 15 8) || decide (arowLimit f ≤ fld w 7 8)),
       (fmtRsvd, !codeArr f)]
  | 0x01 =>
    guarded (.apush (finOf 8 (fld w 23 3)) (fldB w 15 8) (fldB w 7 8) (bitOf (fld w 6 1)) f)
      [(immIll, decide (192 ≤ fld w 15 8) || decide (arowLimit f ≤ fld w 7 8)), (fmtRsvd, !codeArr f)]
  | 0x02 =>
    guarded (.acc (finOf 8 (fld w 23 3)) (fldB w 15 8) (fldB w 7 8) (bitOf (fld w 6 1)) f)
      [(immIll, decide (192 ≤ fld w 15 8) || decide (arowLimit f ≤ fld w 7 8)), (fmtRsvd, !codeArr f)]
  | 0x03 =>
    guarded (.drain (finOf 8 (fld w 23 3)) (fldB w 15 8) (fldB w 7 8) (bitOf (fld w 0 1)))
      [(fldRsvd, bitOf (fld w 1 6)), (immIll, decide (192 ≤ fld w 15 8) || decide (192 ≤ fld w 7 8))]
  | 0x04 => guarded .wswap [(fldRsvd, bitOf (fld w 0 26))]
  | 0x05 => guarded (.mclr (fldB w 0 3)) [(fldRsvd, bitOf (fld w 3 23) || decide (fld w 0 3 = 0))]
  | _ => .error opcX

/-- The syllable of a word in the slot T (R171). -/
def decT (w : W32) : Except Nat Instr :=
  match fld w 26 6 with
  | 0x00 =>
    guarded (.trw (finOf 8 (fld w 23 3)) (fldB w 15 8) (finOf 8 (fld w 11 3)) (srcOf (fld w 5 6)) (bitOf (fld w 0 1)))
      [(fldRsvd, bitOf (fld w 14 1) || bitOf (fld w 1 4)), (srcIll, srcBad (fld w 5 6)), (immIll, decide (192 ≤ fld w 15 8))]
  | 0x01 =>
    guarded (.tldr (finOf 8 (fld w 23 3)) (fldB w 15 8) (fldB w 11 4) (srcOf (fld w 5 6)))
      [(fldRsvd, bitOf (fld w 0 5)), (srcIll, srcBad (fld w 5 6)), (immIll, decide (192 ≤ fld w 15 8))]
  | 0x02 =>
    guarded (.tstr (finOf 8 (fld w 23 3)) (fldB w 15 8) (fldB w 11 4) (srcOf (fld w 5 6)))
      [(fldRsvd, bitOf (fld w 0 5)), (srcIll, srcBad (fld w 5 6)), (immIll, decide (192 ≤ fld w 15 8))]
  | _ => .error opcT

/-- An IDX outside the limit of R163. -/
def badScIdx (w : W32) : Bool :=
  if fld w 0 1 = 1 then bitOf (fld w 8 8) else decide (fld w 8 8 % 32 ≠ 0) || decide (160 < fld w 8 8)

/-- The syllable of a word in the slot C (R163). -/
def decC (w : W32) : Except Nat Instr :=
  match fld w 26 6 with
  | 0x00 =>
    guarded (.scw (fldB w 22 4) (srcOf (fld w 16 6)) (fldB w 8 8) (bitOf (fld w 0 1)))
      [(fldRsvd, bitOf (fld w 1 7)), (srcIll, srcBad (fld w 16 6)), (immIll, badScIdx w)]
  | 0x01 =>
    guarded (.sca (fldB w 22 4) (srcOf (fld w 16 6)) (fldB w 8 8) (bitOf (fld w 0 1)))
      [(fldRsvd, bitOf (fld w 1 7)), (srcIll, srcBad (fld w 16 6)), (immIll, badScIdx w)]
  | _ => .error opcC

/-- A row field of a sequenced instruction outside R177. -/
def badSeq (w : W32) : Bool := decide (192 ≤ fld w 13 8) || decide (fld w 5 8 = 0) || decide (192 < fld w 5 8)

/-- The syllable of a word in the slot Q (R177, R183, R184). -/
def decQ (w : W32) : Except Nat Instr :=
  match fld w 26 6 with
  | 0x00 =>
    guarded (.qrf (finOf 4 (fld w 24 2)) (finOf 8 (fld w 21 3)) (fldB w 13 8) (fldB w 5 8) (bitOf (fld w 1 1)) (bitOf (fld w 0 1)))
      [(fldRsvd, bitOf (fld w 2 3)), (immIll, badSeq w)]
  | 0x01 =>
    guarded (.qapp (finOf 4 (fld w 24 2)) (finOf 8 (fld w 21 3)) (fldB w 13 8) (fldB w 5 8) (bitOf (fld w 0 1)))
      [(fldRsvd, bitOf (fld w 1 4)), (immIll, badSeq w)]
  | 0x02 =>
    guarded (.qrot (finOf 8 (fld w 21 3)) (fldB w 13 8) (fldB w 5 8) (bitOf (fld w 2 1)))
      [(fldRsvd, bitOf (fld w 24 2) || bitOf (fld w 3 2) || bitOf (fld w 0 2)), (immIll, badSeq w)]
  | 0x03 =>
    guarded (.qsolv (finOf 4 (fld w 24 2)) (finOf 8 (fld w 21 3)) (fldB w 13 8) (fldB w 5 8) (bitOf (fld w 3 1)))
      [(fldRsvd, bitOf (fld w 4 1) || bitOf (fld w 0 3)), (immIll, badSeq w)]
  | 0x04 =>
    guarded (.qget (finOf 4 (fld w 24 2)) (fldB w 20 4) (srcOf (fld w 14 6)) (bitOf (fld w 1 1)) (bitOf (fld w 0 1)))
      [(fldRsvd, bitOf (fld w 2 12) || (bitOf (fld w 1 1) && !bitOf (fld w 0 1))), (srcIll, srcBad (fld w 14 6))]
  | 0x05 =>
    guarded (.qput (finOf 4 (fld w 24 2)) (fldB w 20 4) (srcOf (fld w 14 6)))
      [(fldRsvd, bitOf (fld w 0 14)), (srcIll, srcBad (fld w 14 6))]
  | 0x06 => guarded (.qclr (finOf 4 (fld w 24 2))) [(fldRsvd, bitOf (fld w 0 24))]
  | _ => .error opcQ

/-! ### The E class (Table 3-11) -/

/-- E.C with the sources A and B and a SUB field that must be `s`. -/
def decEC (w : W32) (f : SDst → SSrc → SSrc → Instr) : Except Nat Instr :=
  guarded (f (dstOf (fld w 20 6) (fld w 19 1)) (srcOf (fld w 13 6)) (srcOf (fld w 7 6)))
    [(srcIll, srcBad (fld w 13 6) || srcBad (fld w 7 6)), (dstIll, dstBad (fld w 20 6) (fld w 19 1))]

/-- E.C with the source A alone; B is zero. -/
def decEA (w : W32) (f : SDst → SSrc → Instr) : Except Nat Instr :=
  guarded (f (dstOf (fld w 20 6) (fld w 19 1)) (srcOf (fld w 13 6)))
    [(fldRsvd, bitOf (fld w 7 6)), (srcIll, srcBad (fld w 13 6)), (dstIll, dstBad (fld w 20 6) (fld w 19 1))]

/-- The syllable of a word in the slot E. -/
def decE (w : W32) : Except Nat Instr :=
  let sub := fld w 0 7
  match fld w 26 6 with
  | 0x00 =>
    let n := fldB w 22 4
    let i := fldB w 14 8
    guarded (.eset n i (srcOf (fld w 8 6)))
      [(fldRsvd, bitOf (fld w 0 8)), (srcIll, srcBad (fld w 8 6)),
       (ctlUndef, !stagingDefined n i && !statusDefined n i), (ctlPriv, !stagingDefined n i)]
  | 0x01 =>
    let n := fldB w 15 4
    let i := fldB w 7 8
    guarded (.eget (dstOf (fld w 20 6) (fld w 19 1)) n i)
      [(fldRsvd, bitOf (fld w 0 7)), (dstIll, dstBad (fld w 20 6) (fld w 19 1)),
       (ctlUndef, !stagingDefined n i && !statusDefined n i)]
  | 0x02 =>
    guarded (.cpy (dstOf (fld w 20 6) (fld w 19 1)) (srcOf (fld w 13 6)) (srcOf (fld w 7 6)) (bitOf (fld w 2 1))
        (finOf 4 (fld w 0 2)))
      [(fldRsvd, bitOf (fld w 3 4)), (srcIll, srcBad (fld w 13 6) || srcBad (fld w 7 6)),
       (dstIll, dstBad (fld w 20 6) (fld w 19 1))]
  | 0x03 =>
    guarded (.cdrn (dstOf (fld w 20 6) (fld w 19 1)) (fldB w 0 4))
      [(fldRsvd, bitOf (fld w 4 15) || decide (fld w 0 4 = 0)), (dstIll, dstBad (fld w 20 6) (fld w 19 1))]
  | 0x04 =>
    match sub with
    | 0 => decEA w .tierStart
    | 1 => decEC w .tierAck
    | 2 => decEC w .tierPoll
    | 3 => decEA w .tierStop
    | _ => .error fldRsvd
  | 0x05 => if sub = 0 then decEC w .kvlk else .error fldRsvd
  | 0x06 =>
    match sub with
    | 0 => decEC w fun d a b => .kvap d a b false
    | 1 => decEC w fun d a b => .kvap d a b true
    | _ => .error fldRsvd
  | 0x07 => if sub = 0 then decEC w .kvfk else .error fldRsvd
  | 0x08 => if sub = 0 then decEA w .kvrl else .error fldRsvd
  | 0x09 =>
    match sub with
    | 0 => decEA w .kvjnOpen
    | 1 => decEA w .kvjnCommit
    | 2 => decEA w .kvjnReject
    | _ => .error fldRsvd
  | 0x0A => if sub = 0 then decEC w .topk else .error fldRsvd
  | 0x0B =>
    match sub with
    | 0 => decEC w .gthrWalk
    | 1 => decEC w .gthrPlan
    | 2 => decEC w .gthrList
    | _ => .error fldRsvd
  | 0x0C => if sub = 0 then decEC w .nsnd else .error fldRsvd
  | 0x0D => if sub = 0 then decEC w .nrcv else .error fldRsvd
  | 0x0E =>
    match sub with
    | 0 => decEC w .collSum
    | 1 => decEC w .collMax
    | 2 => decEC w .collGather
    | 3 => decEC w .collScatter
    | 4 => decEC w .collBcast
    | 5 => decEC w .collBarrier
    | _ => .error fldRsvd
  | 0x0F =>
    guarded (.btake (dstOf (fld w 20 6) (fld w 19 1)) (srcOf (fld w 13 6)) (fldB w 0 4))
      [(fldRsvd, bitOf (fld w 4 9)), (srcIll, srcBad (fld w 13 6)), (dstIll, dstBad (fld w 20 6) (fld w 19 1))]
  | _ => .error opcE

/-! ### Slots, versions and bundles -/

/-- The cause of an unused opcode in the class of a slot index (R69, Table 3-2). -/
def slotOpc (s : Nat) : Nat :=
  if s ≤ 1 then opcS else if s = 2 then opcB else if s ≤ 4 then opcM else if s ≤ 12 then opcV
  else if s ≤ 20 then opcVM else if s = 21 then opcX else if s = 22 then opcT else if s = 23 then opcC
  else if s = 24 then opcQ else opcE

/-- The reading of a syllable in the slot of index `s` (Table 3-2), without the rule of its version. -/
def decSlot (s : Nat) (w : W32) : Except Nat Instr :=
  if s = 0 then decS .s0 w else if s = 1 then decS .s1 w
  else if s = 2 then decB w
  else if s = 3 then decM .m0 w else if s = 4 then decM .m1 w
  else if s ≤ 12 then decV (finOf 8 (s - 5)) w
  else if s ≤ 20 then decVM (finOf 8 (s - 13)) w
  else if s = 21 then decX w else if s = 22 then decT w else if s = 23 then decC w
  else if s = 24 then decQ w else decE w

/-- An opcode without a compatibility latency (R63): every Q opcode, PINSET, PINDROP, KVJN and VWMG. -/
def noCompat (s : Nat) (w : W32) : Bool :=
  let o := fld w 26 6
  decide (s = 24) || ((decide (s = 3) || decide (s = 4)) && (decide (o = 0x18) || decide (o = 0x19))) ||
  (decide (5 ≤ s) && decide (s ≤ 12) && decide (o = 0x13)) || (decide (s = 25) && decide (o = 0x09))

/-- The reading of a syllable in slot `s` of a bundle of version `v` (R64, item 7): an unused opcode comes first,
V1_OPC second. -/
def decSyl (v s : Nat) (w : W32) : Except Nat Instr :=
  match decSlot s w with
  | .error c =>
    if c = slotOpc s then .error c else if v = 1 && noCompat s w then .error v1Opc else .error c
  | .ok i => if v = 1 && noCompat s w then .error v1Opc else .ok i

/-- A bundle header (Table 3-1). -/
structure Header where
  gap : Nat
  ver : Nat
  yld : Bool
  stop : Bool
  mask : BitVec 26
  deriving DecidableEq, Repr

/-- The header of a word (R57). -/
def decHeader (w : W32) : Header :=
  ⟨fld w 30 2, fld w 28 2, bitOf (fld w 27 1), bitOf (fld w 26 1), fldB w 0 26⟩

/-- The word of a header. -/
def encHeader (h : Header) : W32 :=
  BitVec.ofNat 32 (h.gap * 2 ^ 30 + h.ver * 2 ^ 28 + bitCode h.yld * 2 ^ 27 + bitCode h.stop * 2 ^ 26 + h.mask.toNat)

/-- The slots a mask names, in slot order. -/
def slotsOf (m : BitVec 26) : List Nat := (List.range 26).filter fun i => m.getLsbD i

/-- A run word (Table 3-3): its reserved bits, QH, AH and RUN. -/
structure RunWord where
  rsvd : Bool
  qh : Bool
  ah : Bool
  run : Nat
  deriving DecidableEq, Repr

/-- The run word of a word (R62). -/
def decRunWord (w : W32) : RunWord := ⟨bitOf (fld w 26 6), bitOf (fld w 25 1), bitOf (fld w 24 1), fld w 0 24⟩

/-! ### The encoder -/

/-- The value of a syllable with opcode `op` and the fields (lowest bit, value). -/
def encFields (op : Nat) : List (Nat × Nat) → Nat
  | [] => op * 2 ^ 26
  | (lo, v) :: t => v * 2 ^ lo + encFields op t

/-- The word of a syllable with opcode `op` and the fields (lowest bit, value). -/
def encW (op : Nat) (fs : List (Nat × Nat)) : W32 := BitVec.ofNat 32 (encFields op fs)

/-- S.R or E.C with D, A and B and the low bits `x`. -/
def encDAB (op : Nat) (d : SDst) (a b : SSrc) (x : Nat) : W32 :=
  encW op [(20, dstCode d), (19, dstW d), (13, srcCode a), (7, srcCode b), (0, x)]
/-- S.I. -/
def encDAI (op : Nat) (d : SDst) (a : SSrc) (i : BitVec 13) : W32 :=
  encW op [(20, dstCode d), (19, dstW d), (13, srcCode a), (0, i.toNat)]
/-- D and A with the low bits `x`. -/
def encDA (op : Nat) (d : SDst) (a : SSrc) (x : Nat) : W32 :=
  encW op [(20, dstCode d), (19, dstW d), (13, srcCode a), (0, x)]
/-- V.R. -/
def encVR (op : Nat) (d : VDst) (a b : VSrc) (p : Fin 8) (t m : Nat) : W32 :=
  encW op [(20, vdstCode d), (14, vsrcCode a), (8, vsrcCode b), (5, p.val), (2, t), (0, m)]
/-- V.R with VA alone. -/
def encVA (op : Nat) (d : VDst) (a : VSrc) (p : Fin 8) (t m : Nat) : W32 :=
  encW op [(20, vdstCode d), (14, vsrcCode a), (5, p.val), (2, t), (0, m)]
/-- V.I. -/
def encVI (op : Nat) (d : VDst) (a : VSrc) (p : Fin 8) (t : Ty) (i : BitVec 8) : W32 :=
  encW op [(20, vdstCode d), (14, vsrcCode a), (11, p.val), (8, tyCode t), (0, i.toNat)]
/-- M.M of a load. -/
def encLoad (op : Nat) (d : SDst) (e : BitVec 4) (b : SSrc) (s : BitVec 2) (i : BitVec 7) : W32 :=
  encW op [(20, dstCode d), (19, dstW d), (15, e.toNat), (9, srcCode b), (7, s.toNat), (0, i.toNat)]
/-- X.B. -/
def encX (op : Nat) (t : Fin 8) (r a : BitVec 8) (m : Nat) : W32 :=
  encW op [(23, t.val), (15, r.toNat), (7, a.toNat), (0, m)]
/-- Q.T. -/
def encQ (op d t : Nat) (r n : BitVec 8) (m : Nat) : W32 :=
  encW op [(24, d), (21, t), (13, r.toNat), (5, n.toNat), (0, m)]

/-- The word of a syllable (Tables 3-5 to 3-12); a step without an encoding has none. -/
def encode : Instr → Option W32
  | .add _ d a b => some (encDAB 0x00 d a b 0)
  | .addi _ d a i => some (encDAI 0x20 d a i)
  | .sub _ d a b => some (encDAB 0x01 d a b 0)
  | .mul _ d a b => some (encDAB 0x02 d a b 0)
  | .muli _ d a i => some (encDAI 0x22 d a i)
  | .mulh _ d a b => some (encDAB 0x03 d a b 0)
  | .mulhn _ d a b => some (encDAB 0x04 d a b 0)
  | .div _ d a b => some (encDAB 0x05 d a b 0)
  | .divn _ d a b => some (encDAB 0x06 d a b 0)
  | .rem _ d a b => some (encDAB 0x07 d a b 0)
  | .remn _ d a b => some (encDAB 0x08 d a b 0)
  | .and _ d a b => some (encDAB 0x09 d a b 0)
  | .andi _ d a i => some (encDAI 0x29 d a i)
  | .or _ d a b => some (encDAB 0x0A d a b 0)
  | .ori _ d a i => some (encDAI 0x2A d a i)
  | .xor _ d a b => some (encDAB 0x0B d a b 0)
  | .xori _ d a i => some (encDAI 0x2B d a i)
  | .andn _ d a b => some (encDAB 0x0C d a b 0)
  | .shl _ d a b => some (encDAB 0x0D d a b 0)
  | .shli _ d a i => some (encDAI 0x2D d a i)
  | .shr _ d a b => some (encDAB 0x0E d a b 0)
  | .shri _ d a i => some (encDAI 0x2E d a i)
  | .sra _ d a b => some (encDAB 0x0F d a b 0)
  | .srai _ d a i => some (encDAI 0x2F d a i)
  | .seq _ d a b => some (encDAB 0x10 d a b 0)
  | .slt _ d a b => some (encDAB 0x11 d a b 0)
  | .slti _ d a i => some (encDAI 0x31 d a i)
  | .sltn _ d a b => some (encDAB 0x12 d a b 0)
  | .min _ d a b => some (encDAB 0x13 d a b 0)
  | .max _ d a b => some (encDAB 0x14 d a b 0)
  | .maxi _ d a i => some (encDAI 0x34 d a i)
  | .sel _ d a b c => some (encDAB 0x15 d a b (srcCode c * 2))
  | .movi _ d i => some (encW 0x16 [(20, dstCode d), (19, dstW d), (0, i.toNat)])
  | .movhi _ d i => some (encW 0x17 [(20, rdstCode d), (19, rdstW d), (0, i.toNat)])
  | .clz _ d a => some (encDA 0x18 d a 0)
  | .popc _ d a => some (encDA 0x19 d a 0)
  | .bfx _ d a p l => some (encW 0x1A [(20, dstCode d), (19, dstW d), (13, srcCode a), (7, p.toNat), (1, l.toNat)])
  | .bfi _ d a p l => some (encW 0x1B [(20, rdstCode d), (19, rdstW d), (13, srcCode a), (7, p.toNat), (1, l.toNat)])
  | .addsc _ d a b s => some (encDAB 0x1C d a b (s.toNat * 2))
  | .getc _ d c => some (encW 0x1D [(20, dstCode d), (19, dstW d), (7, c.toNat)])
  | .setc _ a c => some (encW 0x1E [(20, srcCode a), (7, c.toNat)])
  | .br o => some (encW 0x00 [(0, o.toNat)])
  | .brc a c o => some (encW 0x01 [(20, srcCode a), (18, bcndCode c), (0, o.toNat)])
  | .call d o => some (encW 0x02 [(20, d.val), (0, o.toNat)])
  | .ret a => some (encW 0x03 [(20, srcCode a)])
  | .jr a b i => some (encW 0x04 [(20, srcCode a), (14, srcCode b), (0, i.toNat)])
  | .loop a o => some (encW 0x05 [(20, a.val), (0, o.toNat)])
  | .run a => some (encW 0x08 [(20, srcCode a)])
  | .waitf a b e c => some (encW 0x09 [(20, srcCode a), (14, srcCode b), (10, e.toNat), (8, wcndCode c)])
  | .step l => some (encW 0x0A [(0, l.val)])
  | .fence x s => some (encW 0x0C [(3, bitCode x), (0, s.val)])
  | .trap a n => some (encW 0x0E [(20, srcCode a), (0, n.toNat)])
  | .halt a => some (encW 0x0F [(20, srcCode a)])
  | .ld _ d e b s i => some (encLoad 0x00 d e b s i)
  | .ldn _ d e b s i => some (encLoad 0x01 d e b s i)
  | .st _ a e b s i => some (encW 0x02 [(20, srcCode a), (15, e.toNat), (9, srcCode b), (7, s.toNat), (0, i.toNat)])
  | .amo _ d e b a o =>
    some (encW 0x04 [(20, dstCode d), (19, dstW d), (15, e.toNat), (9, srcCode b), (3, srcCode a), (0, aopCode o)])
  | .cas _ d e b a => some (encW 0x05 [(20, rdstCode d), (19, rdstW d), (15, e.toNat), (9, srcCode b), (3, srcCode a)])
  | .lkup _ d a => some (encDA 0x08 d a 0)
  | .tagset _ d a b => some (encDAB 0x09 d a b 0)
  | .tagdrop _ d a => some (encDA 0x0A d a 0)
  | .bari _ b n => some (encW 0x0C [(7, srcCode b), (0, n.val)])
  | .bara _ b n => some (encW 0x0D [(7, srcCode b), (0, n.val)])
  | .barw _ n => some (encW 0x0E [(0, n.val)])
  | .barx _ d b n => some (encW 0x0F [(20, dstCode d), (19, dstW d), (7, srcCode b), (0, n.val)])
  | .acq _ d o => some (encW 0x10 [(20, dstCode d), (19, dstW d), (0, o.toNat)])
  | .rel _ b m o => some (encW 0x11 [(7, srcCode b), (4, bitCode m), (0, o.toNat)])
  | .bind _ e a b o => some (encW 0x12 [(22, e.toNat), (13, srcCode a), (7, srcCode b), (0, o.toNat)])
  | .rld _ e s a h => some (encW 0x14 [(22, e.toNat), (20, s.toNat), (13, srcCode a), (4, bitCode h)])
  | .rst _ e s q a b c h =>
    some (encW 0x15 [(22, e.toNat), (20, s.toNat), (19, bitCode q), (13, srcCode a), (7, srcCode b), (5, c.toNat),
      (4, bitCode h)])
  | .ramo _ e s a b c h o =>
    some (encW 0x16 [(22, e.toNat), (21, 1), (20, bitCode s), (13, srcCode a), (7, srcCode b), (5, c.toNat),
      (4, bitCode h), (0, aopCode o)])
  | .pinset _ a k => some (encW 0x18 [(13, srcCode a), (0, bitCode k)])
  | .pindrop _ a => some (encW 0x19 [(13, srcCode a)])
  | .vadd _ d a b p t m => some (encVR 0x00 d a b p (tyCode t) (bitCode m))
  | .vaddi _ d a p t i => some (encVI 0x20 d a p t i)
  | .vsub _ d a b p t m => some (encVR 0x01 d a b p (tyCode t) (bitCode m))
  | .vmul _ d a b p t m => some (encVR 0x02 d a b p (tyCode t) (mulModCode m))
  | .vmuli _ d a p t i => some (encVI 0x22 d a p t i)
  | .vfma _ d a b p t m =>
    some (encW 0x03 [(20, d.val), (14, vsrcCode a), (8, vsrcCode b), (5, p.val), (2, tyCode t), (0, m.toNat)])
  | .vmin _ d a b p t => some (encVR 0x04 d a b p (tyCode t) 0)
  | .vmax _ d a b p t => some (encVR 0x05 d a b p (tyCode t) 0)
  | .vcmp _ d c a b p t m =>
    some (encW 0x06 [(23, d.val), (20, vcndCode c), (14, vsrcCode a), (8, vsrcCode b), (5, p.val), (2, tyCode t),
      (0, bitCode m)])
  | .vsel _ d a b p t => some (encVR 0x07 d a b p (tyCode t) 0)
  | .vand _ d a b p t => some (encVR 0x08 d a b p (tyCode t) 0)
  | .vor _ d a b p t => some (encVR 0x09 d a b p (tyCode t) 0)
  | .vxor _ d a b p t => some (encVR 0x0A d a b p (tyCode t) 0)
  | .vshl _ d a b p t => some (encVR 0x0B d a b p (tyCode t) 0)
  | .vshli _ d a p t i => some (encVI 0x2B d a p t i)
  | .vshr _ d a b p t => some (encVR 0x0C d a b p (tyCode t) 0)
  | .vshri _ d a p t i => some (encVI 0x2C d a p t i)
  | .vcvt _ d a f r n p q =>
    some (encW 0x0D [(20, vdstCode d), (14, vsrcCode a), (8, f.toNat), (7, bitCode r), (5, n.toNat), (2, p.val),
      (0, q.toNat)])
  | .vrcp _ d a p => some (encVA 0x0E d a p 0 0)
  | .vrsq _ d a p => some (encVA 0x0F d a p 0 0)
  | .vexp2 _ d a p => some (encVA 0x10 d a p 0 0)
  | .vlog2 _ d a p => some (encVA 0x11 d a p 0 0)
  | .vwel _ d a p => some (encW 0x12 [(20, 4 * d.val), (14, vsrcCode a), (5, p.val)])
  | .vwmg _ d a p => some (encW 0x13 [(20, 4 * d.val), (14, 4 * a.val), (5, p.val)])
  | .vred _ d a p t m => some (encVA 0x14 d a p (tyCode t) (ropCode m))
  | .vperm _ d a b p => some (encVR 0x15 d a b p 0 0)
  | .vbcst _ d a l p => some (encW 0x16 [(20, vdstCode d), (14, vsrcCode a), (8, l.toNat), (5, p.val)])
  | .viota _ d p t m => some (encW 0x17 [(20, vdstCode d), (5, p.val), (2, tyCode t), (0, bitCode m)])
  | .vpset _ d c a b p => some (encW 0x18 [(23, d.val), (20, popCode c), (14, a.val), (8, b.val), (5, p.val)])
  | .vld _ d e b p i => some (encW 0x00 [(20, vdstCode d), (16, e.toNat), (10, srcCode b), (7, p.val), (0, i.toNat)])
  | .vst _ s e b p i => some (encW 0x01 [(20, vsrcCode s), (16, e.toNat), (10, srcCode b), (7, p.val), (0, i.toNat)])
  | .vgth _ d e v p z => some (encW 0x02 [(20, vdstCode d), (16, e.toNat), (10, vsrcCode v), (7, p.val), (5, z.val)])
  | .vsct _ s e v p z => some (encW 0x03 [(20, vsrcCode s), (16, e.toNat), (10, vsrcCode v), (7, p.val), (5, z.val)])
  | .xcp _ d a s p => some (encW 0x04 [(20, vdstCode d), (14, a.val), (11, s.val), (8, p.val)])
  | .vmovs _ o l =>
    match o with
    | .inn v a => some (encW 0x05 [(20, v.val), (14, srcCode a), (10, l.toNat)])
    | .outReg v d => some (encW 0x05 [(20, vsrcCode v), (14, d.val), (10, l.toNat), (9, 1)])
    | .outFo v => some (encW 0x05 [(20, vsrcCode v), (14, 62), (10, l.toNat), (9, 1)])
  | .vtld _ d t b p i => some (encW 0x06 [(20, vdstCode d), (16, t.val), (10, srcCode b), (7, p.val), (0, i.toNat)])
  | .vtst _ s t b p i => some (encW 0x07 [(20, vsrcCode s), (16, t.val), (10, srcCode b), (7, p.val), (0, i.toNat)])
  | .wpush t r w f => some (encX 0x00 t r w f.toNat)
  | .apush t r a p f => some (encX 0x01 t r a (bitCode p * 64 + f.toNat))
  | .acc t r a p f => some (encX 0x02 t r a (bitCode p * 64 + f.toNat))
  | .drain t r a z => some (encX 0x03 t r a (bitCode z))
  | .wswap => some (encW 0x04 [])
  | .mclr m => some (encW 0x05 [(0, m.toNat)])
  | .trw t r s b m => some (encW 0x00 [(23, t.val), (15, r.toNat), (11, s.val), (5, srcCode b), (0, bitCode m)])
  | .tldr t r e b => some (encW 0x01 [(23, t.val), (15, r.toNat), (11, e.toNat), (5, srcCode b)])
  | .tstr t r e b => some (encW 0x02 [(23, t.val), (15, r.toNat), (11, e.toNat), (5, srcCode b)])
  | .scw e b i c => some (encW 0x00 [(22, e.toNat), (16, srcCode b), (8, i.toNat), (0, bitCode c)])
  | .sca e b i c => some (encW 0x01 [(22, e.toNat), (16, srcCode b), (8, i.toNat), (0, bitCode c)])
  | .qrf d t r n w g => some (encQ 0x00 d.val t.val r n (bitCode w * 2 + bitCode g))
  | .qapp d t r n g => some (encQ 0x01 d.val t.val r n (bitCode g))
  | .qrot t r n w => some (encQ 0x02 0 t.val r n (bitCode w * 4))
  | .qsolv d t r n a => some (encQ 0x03 d.val t.val r n (bitCode a * 8))
  | .qget d e b n g => some (encW 0x04 [(24, d.val), (20, e.toNat), (14, srcCode b), (1, bitCode n), (0, bitCode g)])
  | .qput d e b => some (encW 0x05 [(24, d.val), (20, e.toNat), (14, srcCode b)])
  | .qclr d => some (encW 0x06 [(24, d.val)])
  | .eset n i a => some (encW 0x00 [(22, n.toNat), (14, i.toNat), (8, srcCode a)])
  | .eget d n i => some (encW 0x01 [(20, dstCode d), (19, dstW d), (15, n.toNat), (7, i.toNat)])
  | .cpy d a b c h => some (encDAB 0x02 d a b (bitCode c * 4 + h.val))
  | .cdrn d m => some (encW 0x03 [(20, dstCode d), (19, dstW d), (0, m.toNat)])
  | .tierStart d a => some (encDA 0x04 d a 0)
  | .tierAck d a b => some (encDAB 0x04 d a b 1)
  | .tierPoll d a b => some (encDAB 0x04 d a b 2)
  | .tierStop d a => some (encDA 0x04 d a 3)
  | .kvlk d a b => some (encDAB 0x05 d a b 0)
  | .kvap d a b v => some (encDAB 0x06 d a b (bitCode v))
  | .kvfk d a b => some (encDAB 0x07 d a b 0)
  | .kvrl d a => some (encDA 0x08 d a 0)
  | .kvjnOpen d a => some (encDA 0x09 d a 0)
  | .kvjnCommit d a => some (encDA 0x09 d a 1)
  | .kvjnReject d a => some (encDA 0x09 d a 2)
  | .topk d a b => some (encDAB 0x0A d a b 0)
  | .gthrWalk d a b => some (encDAB 0x0B d a b 0)
  | .gthrPlan d a b => some (encDAB 0x0B d a b 1)
  | .gthrList d a b => some (encDAB 0x0B d a b 2)
  | .nsnd d a b => some (encDAB 0x0C d a b 0)
  | .nrcv d a b => some (encDAB 0x0D d a b 0)
  | .collSum d a b => some (encDAB 0x0E d a b 0)
  | .collMax d a b => some (encDAB 0x0E d a b 1)
  | .collGather d a b => some (encDAB 0x0E d a b 2)
  | .collScatter d a b => some (encDAB 0x0E d a b 3)
  | .collBcast d a b => some (encDAB 0x0E d a b 4)
  | .collBarrier d a b => some (encDAB 0x0E d a b 5)
  | .btake d a n => some (encDA 0x0F d a n.toNat)
  | _ => none

/-- The slot index a syllable stands in (Table 3-2); a step without an encoding has none. -/
def slotOf : Instr → Option Nat
  | .add u _ _ _ | .sub u _ _ _ | .mul u _ _ _ | .mulh u _ _ _ | .mulhn u _ _ _ | .div u _ _ _ | .divn u _ _ _
  | .rem u _ _ _ | .remn u _ _ _ | .and u _ _ _ | .or u _ _ _ | .xor u _ _ _ | .andn u _ _ _ | .shl u _ _ _
  | .shr u _ _ _ | .sra u _ _ _ | .seq u _ _ _ | .slt u _ _ _ | .sltn u _ _ _ | .min u _ _ _ | .max u _ _ _
  | .addi u _ _ _ | .muli u _ _ _ | .andi u _ _ _ | .ori u _ _ _ | .xori u _ _ _ | .shli u _ _ _ | .shri u _ _ _
  | .srai u _ _ _ | .slti u _ _ _ | .maxi u _ _ _ | .sel u _ _ _ _ | .movi u _ _ | .movhi u _ _ | .clz u _ _
  | .popc u _ _ | .bfx u _ _ _ _ | .bfi u _ _ _ _ | .addsc u _ _ _ _ | .getc u _ _ | .setc u _ _ =>
    some (match u with | .s0 => 0 | .s1 => 1)
  | .br _ | .brc _ _ _ | .call _ _ | .ret _ | .jr _ _ _ | .loop _ _ | .run _ | .waitf _ _ _ _ | .step _ | .fence _ _
  | .trap _ _ | .halt _ => some 2
  | .ld u _ _ _ _ _ | .ldn u _ _ _ _ _ | .st u _ _ _ _ _ | .amo u _ _ _ _ _ | .cas u _ _ _ _ | .lkup u _ _
  | .tagset u _ _ _ | .tagdrop u _ _ | .bari u _ _ | .bara u _ _ | .barw u _ | .barx u _ _ _ | .acq u _ _
  | .rel u _ _ _ | .bind u _ _ _ _ | .rld u _ _ _ _ | .rst u _ _ _ _ _ _ _ | .ramo u _ _ _ _ _ _ _ | .pinset u _ _
  | .pindrop u _ => some (match u with | .m0 => 3 | .m1 => 4)
  | .vadd k _ _ _ _ _ _ | .vaddi k _ _ _ _ _ | .vsub k _ _ _ _ _ _ | .vmul k _ _ _ _ _ _ | .vmuli k _ _ _ _ _
  | .vfma k _ _ _ _ _ _ | .vmin k _ _ _ _ _ | .vmax k _ _ _ _ _ | .vcmp k _ _ _ _ _ _ _ | .vsel k _ _ _ _ _
  | .vand k _ _ _ _ _ | .vor k _ _ _ _ _ | .vxor k _ _ _ _ _ | .vshl k _ _ _ _ _ | .vshli k _ _ _ _ _
  | .vshr k _ _ _ _ _ | .vshri k _ _ _ _ _ | .vcvt k _ _ _ _ _ _ _ | .vrcp k _ _ _ | .vrsq k _ _ _ | .vexp2 k _ _ _
  | .vlog2 k _ _ _ | .vwel k _ _ _ | .vwmg k _ _ _ | .vred k _ _ _ _ _ | .vperm k _ _ _ _ | .vbcst k _ _ _ _
  | .viota k _ _ _ _ | .vpset k _ _ _ _ _ => some (5 + k.val)
  | .vld k _ _ _ _ _ | .vst k _ _ _ _ _ | .vgth k _ _ _ _ _ | .vsct k _ _ _ _ _ | .xcp k _ _ _ _ | .vmovs k _ _
  | .vtld k _ _ _ _ _ | .vtst k _ _ _ _ _ => some (13 + k.val)
  | .wpush _ _ _ _ | .apush _ _ _ _ _ | .acc _ _ _ _ _ | .drain _ _ _ _ | .wswap | .mclr _ => some 21
  | .trw _ _ _ _ _ | .tldr _ _ _ _ | .tstr _ _ _ _ => some 22
  | .scw _ _ _ _ | .sca _ _ _ _ => some 23
  | .qrf _ _ _ _ _ _ | .qapp _ _ _ _ _ | .qrot _ _ _ _ | .qsolv _ _ _ _ _ | .qget _ _ _ _ _ | .qput _ _ _ | .qclr _ =>
    some 24
  | .eset _ _ _ | .eget _ _ _ | .cpy _ _ _ _ _ | .cdrn _ _ | .tierStart _ _ | .tierAck _ _ _ | .tierPoll _ _ _
  | .tierStop _ _ | .kvlk _ _ _ | .kvap _ _ _ _ | .kvfk _ _ _ | .kvrl _ _ | .kvjnOpen _ _ | .kvjnCommit _ _
  | .kvjnReject _ _ | .topk _ _ _ | .gthrWalk _ _ _ | .gthrPlan _ _ _ | .gthrList _ _ _ | .nsnd _ _ _ | .nrcv _ _ _
  | .collSum _ _ _ | .collMax _ _ _ | .collGather _ _ _ | .collScatter _ _ _ | .collBcast _ _ _
  | .collBarrier _ _ _ | .btake _ _ _ => some 25
  | _ => none

/-! ### A bare word -/

/-- The slots tried, in slot order, for a word that comes without its header: the first slot of each class. -/
def tableSlots : List Nat := [0, 2, 3, 5, 13, 21, 22, 23, 24, 25]

/-- The first slot of `ss` whose class reads the word, with its instruction. -/
def decFirst (w : W32) : List Nat → Option (Nat × Instr)
  | [] => none
  | s :: t => match decSyl 0 s w with | .ok i => some (s, i) | .error _ => decFirst w t

/-- The slot and instruction of a bare 32-bit word (log 8): a word alone does not say its class, since the class comes
from the MASK of the header (R58, R68), so it is read in the first class, in slot order, that has it. -/
def bareWord (w : Nat) : Option (Nat × Instr) := decFirst (BitVec.ofNat 32 w) tableSlots

/-- The instruction of a row's word (log 8). -/
def decodeTableWord (nbits w : Nat) : Option Instr :=
  if nbits = 32 ∧ w < 2 ^ 32 then (bareWord w).map (·.2) else none

end Sys2Proof
end

