-- ==== Sys2Proof/Machine/Cause.lean ====
section
/-!
DEFINITION. The cause codes from 0x20 on (R246, Table 11-4); those below are in Sys2Proof.Decode (Table 3-13).
-/
namespace Sys2Proof.Machine.Cause

abbrev fpNv : Nat := 0x20
abbrev fpDz : Nat := 0x21
abbrev fpOf : Nat := 0x22
abbrev fpUf : Nat := 0x23
abbrev fpNx : Nat := 0x24
abbrev fpSat : Nat := 0x25
abbrev rotAngle : Nat := 0x26
abbrev trap0 : Nat := 0x30
abbrev extInvalid : Nat := 0x40
abbrev extBound : Nat := 0x41
abbrev extRead : Nat := 0x42
abbrev extWrite : Nat := 0x43
abbrev extTier : Nat := 0x44
abbrev extRevoked : Nat := 0x45
abbrev extDemand : Nat := 0x46
abbrev memAlign : Nat := 0x47
abbrev spadUe : Nat := 0x48
abbrev bindFull : Nat := 0x49
abbrev syncUndef : Nat := 0x4A
abbrev tileBound : Nat := 0x4B
abbrev arrayMode : Nat := 0x4C
abbrev pairAbsent : Nat := 0x4D
abbrev pageAbsent : Nat := 0x4E
abbrev pagePerm : Nat := 0x4F
abbrev pageSize : Nat := 0x50
abbrev pageSplit : Nat := 0x51
abbrev ptRsvd : Nat := 0x52
abbrev ptUe : Nat := 0x53
abbrev ptRoot : Nat := 0x54
abbrev demandMiss : Nat := 0x55
abbrev extSlog : Nat := 0x56
abbrev memUeHbm : Nat := 0x57
abbrev memUeLpddr : Nat := 0x58
abbrev memUeCxl : Nat := 0x59
abbrev wlogFull : Nat := 0x5A
abbrev rollbackDone : Nat := 0x5B
abbrev rollbackUnrec : Nat := 0x5C
abbrev memCeRate : Nat := 0x5D
abbrev extAbandon : Nat := 0x5E
abbrev codePage : Nat := 0x5F
abbrev pinExpired : Nat := 0x60
abbrev pinFailed : Nat := 0x61
abbrev grantRefused : Nat := 0x62
abbrev fabRetry : Nat := 0x63
abbrev fabUnreach : Nat := 0x64
abbrev foHdr : Nat := 0x65
abbrev fiEmpty : Nat := 0x66
abbrev freezeLong : Nat := 0x67
abbrev remoteUe : Nat := 0x68
abbrev fiOver : Nat := 0x69
abbrev grantTenant : Nat := 0x6A
abbrev grantRange : Nat := 0x6B
abbrev grantNone : Nat := 0x6C
abbrev peerDown : Nat := 0x6D
abbrev tagFail : Nat := 0x6E
abbrev linkReplay : Nat := 0x6F
abbrev linkDown : Nat := 0x70
abbrev routeFail : Nat := 0x71
abbrev vcTimeout : Nat := 0x72
abbrev mcastGroup : Nat := 0x73
abbrev mcastAck : Nat := 0x74
abbrev pinHoldFull : Nat := 0x75
abbrev pinTableFull : Nat := 0x76
abbrev pinChip : Nat := 0x77
abbrev flagWrap : Nat := 0x78
abbrev remotePerm : Nat := 0x79
abbrev remoteAlign : Nat := 0x7A
abbrev fabTenant : Nat := 0x7B
abbrev fabPartition : Nat := 0x7C
abbrev cxlLink : Nat := 0x7D
abbrev cxlTimeout : Nat := 0x7E
abbrev cxlPoison : Nat := 0x7F
abbrev engRsvd : Nat := 0x80
abbrev engGeom : Nat := 0x81
abbrev engCancel : Nat := 0x82
abbrev chainBroken : Nat := 0x83
abbrev chkMismatch : Nat := 0x84
abbrev tierStream : Nat := 0x85
abbrev tierStopped : Nat := 0x86
abbrev collGroup : Nat := 0x87
abbrev collMismatch : Nat := 0x88
abbrev collTimeout : Nat := 0x89
abbrev gatherQueue : Nat := 0x8A
abbrev gatherExt : Nat := 0x8B
abbrev handleGen : Nat := 0xA0
abbrev handleTenant : Nat := 0xA1
abbrev handleBound : Nat := 0xA2
abbrev kvNopage : Nat := 0xA3
abbrev kvHtfull : Nat := 0xA4
abbrev journalState : Nat := 0xA5
abbrev journalFull : Nat := 0xA6
abbrev itinRsvd : Nat := 0x8C
abbrev itinDue : Nat := 0x8D
abbrev tierLate : Nat := 0x8E
abbrev tierNofit : Nat := 0x8F
abbrev tierGate : Nat := 0x90
abbrev gatherOver : Nat := 0x91
abbrev gatherRec : Nat := 0x92
abbrev walkIndex : Nat := 0x93
abbrev netWrRsvd : Nat := 0x94
abbrev netNoslot : Nat := 0x95
abbrev netPeer : Nat := 0x96
abbrev netTimeout : Nat := 0x97
abbrev netRemote : Nat := 0x98
abbrev netRecv : Nat := 0x99
abbrev netTrunc : Nat := 0x9A
abbrev netTenant : Nat := 0x9B
abbrev netLaunch : Nat := 0x9C
abbrev netLink : Nat := 0x9D
abbrev engUe : Nat := 0x9E
abbrev engReset : Nat := 0x9F
abbrev kvTreefull : Nat := 0xA7
abbrev kvLayer : Nat := 0xA8
abbrev kvKtok : Nat := 0xA9
abbrev kvRefmax : Nat := 0xAA
abbrev kvWindow : Nat := 0xAB
abbrev kvSummary : Nat := 0xAC
abbrev kvPageUe : Nat := 0xAD
abbrev kvBusy : Nat := 0xAE
abbrev kvQuota : Nat := 0xAF
abbrev lrecRsvd : Nat := 0xB0
abbrev lrecBad : Nat := 0xB1
abbrev hdrBad : Nat := 0xB2
abbrev gangSize : Nat := 0xB3
abbrev resumeBad : Nat := 0xB4
abbrev runOverrun : Nat := 0xB5
abbrev depError : Nat := 0xB6
abbrev qTorn : Nat := 0xB7
abbrev claimAbsent : Nat := 0xB8
abbrev stepLevel : Nat := 0xB9
abbrev qReset : Nat := 0xBA
abbrev resetUnrec : Nat := 0xBB
abbrev taskStop : Nat := 0xBC
abbrev ringOver : Nat := 0xBD
abbrev swapFail : Nat := 0xBE
abbrev seatUe : Nat := 0xBF

end Sys2Proof.Machine.Cause
end

