-- ==== Sys2Proof/Machine/State.lean ====
section
/-!
DEFINITION. The state of one Shosol S4 package as plain data (R9, R274 and the chapters named at each field), the
reasons a step can stop, and the state after package reset.  Stores are sparse: an unlisted key of a store of bytes,
words or vectors holds zero (log 1, log 2).
-/
namespace Sys2Proof.Machine

open Sys2Proof

/-! ### One seat -/

/-- One word of `fi`: its hidden error mark and the word (R16, R126). -/
structure FiEnt where
  err : Bool
  w : Word
  deriving DecidableEq, Repr

/-- A reserved entry of `fi` (R122, R125): its number, what its request came to, if that is known, and whether the
success is silent (an RST without PQ). -/
structure Resv where
  id : Nat
  silent : Bool
  done : Option (Option FiEnt)
  deriving DecidableEq, Repr

/-- One word of `fo` (R123): `own` is the reservation of a header that an instruction made, 0 for any other word;
`chk` says that the word is such a header, already checked. -/
structure FoEnt where
  own : Nat
  chk : Bool
  w : Word
  /-- The counted cycle at which the syllable that made it issued (R97). -/
  iss : Nat := 0
  deriving DecidableEq, Repr

/-- A queue entry (R19): its number while it is reserved and not filled (R134), 0 once filled; its data and its
lane-valid mask. -/
structure QEnt where
  id : Nat
  data : Vec
  mask : BitVec 16
  deriving DecidableEq, Repr

/-- An extent (R23, R228): the descriptor of Table 1-3a and what the task cannot see: the physical base (for tier 1 in
the layout of R252), where it came from, and its declared page size. -/
structure Ext where
  v : Bool := false
  tier : Nat := 0
  span : Nat := 0
  len : Nat := 0
  dm : Bool := false
  rv : Bool := false
  w : Bool := false
  rd : Bool := false
  base : Nat := 0
  virt : Nat := 0
  pgsz : Nat := 0
  virtual : Bool := false
  deriving DecidableEq, Repr

/-- A binding slot (R117). -/
structure Bind where
  ext : Nat
  off : Nat
  len : Nat
  obj : Nat
  deriving DecidableEq, Repr

/-- A synchronisation object (R227): the scope, the extent and the offset of its sync word. -/
structure SyncObj where
  scope : Nat
  ext : Nat
  off : Nat
  deriving DecidableEq, Repr

/-- What a parked seat waits for (R93, R96): a word of its scratchpad meeting a condition, or its step, with the counted cycle of its
STEP group. -/
inductive Wait where
  | word (phys : List Nat) (cmp : Word) (c : WCnd)
  | step (level at_ : Nat)
  deriving DecidableEq, Repr

/-- The states of a seat (Table 11-5). -/
inductive SeatSt where
  | empty | ready | parked | stopped | swapping
  deriving DecidableEq, Repr

/-- A stop or a notice on its way to a fault ring (Table 11-2): CAUSE and CAUSE2, SP, SLOT, addresses, INFO words, GTS,
FLG, and the words that locate the task. -/
structure StopRec where
  nt : Bool
  sp : Nat
  cause : Nat
  cause2 : Option Nat
  slot : Nat
  lseq : Nat
  word1 : Word
  faddr : Nat
  raddr : Nat
  info0 : Word
  info1 : Word
  gts : Nat
  flgs : Word
  deriving DecidableEq, Repr

/-- A cause that waits for the boundary it stops the task at (R242): rank 1 arithmetic, 2 execution, 3 TASK_STOP. -/
structure PCause where
  rank : Nat
  cause : Nat
  slot : Nat
  faddr : Nat
  info0 : Word
  info1 : Word
  deriving DecidableEq, Repr

/-- A barrier (R114). -/
structure Barrier where
  expect : Nat := 0
  count : Nat := 0
  deriving DecidableEq, Repr

/-- A region of scratchpad allocated to a task (R228). -/
structure Alloc where
  base : Nat
  bytes : Nat
  span : Nat
  deriving DecidableEq, Repr

/-- How far a retiring task has come (R103): its exit code, whether its completion signal has been made, and for each channel it
used the commands accepted there before it retired, from any seat. -/
structure Retire where
  exit : W32
  raddr : Nat
  signalled : Bool
  kill : Bool
  upto : Tbl Nat := []
  deriving DecidableEq, Repr

/-- One seat of a core (Table 1-1 and the per-seat items of R92 to R131, R241, R247 to R250). -/
structure Seat where
  /-- STATE of SCTL (Table 11-5). -/
  st : SeatSt := .empty
  /-- TASK (0x010, R218). -/
  task : Word := 0
  /-- TCO (0x011, R218). -/
  tco : Word := 0
  /-- DMEM (0x012, R218). -/
  dmem : Word := 0
  /-- QRANK (0x013). -/
  qrank : Nat := 0
  /-- The program counter: a byte offset in the code image (R59). -/
  pc : Word := 0
  /-- a1 to a55 (R12). -/
  a : Tbl Word := []
  /-- Delivered words of `fi`, oldest first (R16). -/
  fi : List FiEnt := []
  /-- Reserved entries of `fi` not yet delivered, in push order (R122, R125). -/
  fiRes : List Resv := []
  /-- The number the next reservation takes (the model's own name for an entry). -/
  resvNext : Nat := 1
  /-- Words of `fo`, oldest first (R16). -/
  fo : List FoEnt := []
  /-- Entries of `fo` reserved at issue whose word has not landed (R77). -/
  foRes : Nat := 0
  /-- The first cycle in which another word may leave `fo`: the words of a request leave one a cycle (R124). -/
  foUntil : Nat := 0
  /-- c.v0 to c.v31 under key 32c + n (R17). -/
  v : Tbl Vec := []
  /-- c.p1 to c.p7 under key 8c + n (R18). -/
  p : Tbl (BitVec 16) := []
  /-- c.qa under key c (R19). -/
  qa : Tbl (List QEnt) := []
  /-- c.qb under key c (R19). -/
  qb : Tbl (List QEnt) := []
  /-- c.qo under key c (R19). -/
  qo : Tbl (List QEnt) := []
  /-- e0 to e15 (R23). -/
  ext : Tbl Ext := []
  /-- Engine staging registers under key 128 × engine + index (R28). -/
  stg : Tbl Word := []
  /-- FPC (0x040, R43). -/
  fpc : Word := 0
  /-- FLG (0x041, R43). -/
  flg : Word := 0
  /-- Command counters by engine id (R188). -/
  cnt : Tbl Nat := []
  /-- Commands accepted and not complete by engine id (R188). -/
  outst : Tbl Nat := []
  /-- Barriers b0 to b7 (R114). -/
  bar : Tbl Barrier := []
  /-- Binding slots (R117). -/
  binds : List Bind := []
  /-- Synchronisation objects (R227). -/
  objs : Tbl SyncObj := []
  /-- Pin carry slot 0 (R131). -/
  carry0 : W32 := 0
  /-- Pin carry slot 1 (R131). -/
  carry1 : W32 := 0
  /-- The recorded run extension (R92). -/
  runExt : Option Nat := none
  /-- The effective run the seat is in (R62, R92). -/
  run : Nat := 0
  /-- Issue cycles counted toward it (R61, R62). -/
  used : Nat := 0
  /-- Whether the run begins with the next group that issues (R62, R241). -/
  fresh : Bool := true
  /-- Whether no group has issued since a yield whose effective run is 0 (R62). -/
  run0 : Bool := false
  /-- What a parked seat waits for (R94, R96). -/
  wait : Option Wait := none
  /-- Whether the yield group that issued last has parked the seat, so that its run counts from the first group after it (R97). -/
  park : Bool := false
  /-- Causes waiting for the boundary (R242). -/
  causes : List PCause := []
  /-- A STOP command that waits for the task's next yield (R248). -/
  stopReq : Option Nat := none
  /-- The stop record of a stopped task (R243) and whether it has been written (R245). -/
  stop : Option (StopRec × Bool) := none
  /-- Whether the task holds the array claim and the rotator claim (R10). -/
  hasA : Bool := false
  hasQ : Bool := false
  /-- The code extent: tier, physical base and length in bytes (R228, R59). -/
  codeTier : Nat := 5
  codeBase : Nat := 0
  codeLen : Nat := 0
  /-- The header's address in the tenant's space, which names the kernel, and SEATS (R419). -/
  kernel : Nat := 0
  seats : Nat := 1
  /-- The claims the header declares (R226). -/
  declA : Bool := false
  declQ : Bool := false
  /-- The scratch allocations (R228). -/
  allocs : List Alloc := []
  /-- The completion signal address of the launch (R224). -/
  sig : Nat := 0
  /-- A retirement in progress (R103). -/
  retire : Option Retire := none
  /-- Gather slots the seat holds: (queue, slot) (R358). -/
  slots : List (Nat × Nat) := []
  /-- Whether a pinned store of the seat has been reported as waiting for a free pin entry (R127). -/
  pinWait : Bool := false
  /-- Whether the task was stopped by a swap-out that is under way (R249). -/
  swapReq : Bool := false
  /-- The address of the group that issued last, which a STOP of a parked task names (R240, R242). -/
  lastGrp : Nat := 0
  /-- Result records written and not yet read by the seat: the command's path, and the scratchpad place of the byte that holds DN (R290). -/
  recs : List (Nat × Nat) := []
  /-- Paths of the commands of engines other than the channels that the seat has drained, while writes of theirs are buffered (R290). -/
  drained : List Nat := []
  deriving DecidableEq, Repr

/-! ### Effects in flight -/

/-- What lands when a latency has passed (R13, R107). -/
inductive Land where
  /-- A scalar result: destination code (0 to 55 a register, 62 `fo`, 64 none) and latch (6 for none). -/
  | sca (d latch : Nat) (v : Word)
  /-- A control register written by SETC (R85). -/
  | ctl (idx : Nat) (v : Word)
  /-- A vector result by R134: cluster, destination code (register, 63 none, 1000 + number for a reserved entry of c.qo),
  predicate, data; `lb` names the latch c.lb instead of c.la. -/
  | vec (k d : Nat) (m : BitVec 16) (data : Vec) (lb : Bool)
  /-- Bytes of a vector register by a 64-bit byte mask, with the latch value, none for the register's new value
  (R145, R152). -/
  | vbytes (k n : Nat) (bm : BitVec 64) (data : Vec) (latch : Option Vec) (lb : Bool)
  /-- A predicate (R141, R142). -/
  | pred (k n : Nat) (m v : BitVec 16)
  /-- The three registers of a Welford triple (R148, R149) and the latch. -/
  | triple (k n : Nat) (m : BitVec 16) (x y z latch : Vec)
  /-- Bytes committed to the scratchpad (R107): physical offsets in write order. -/
  | store (bytes : List (Nat × Byte))
  /-- An atomic read-modify-write of the word at these byte places (R110): the operation (8 for CAS), its operand, the
  comparand, and where the old value lands 8 counted cycles later. -/
  | atomic (phys : List Nat) (op : Nat) (x cmp : Word) (d latch : Nat)
  /-- A carry slot (R131). -/
  | carry (k : Bool) (v : W32)
  /-- A staging register (R186). -/
  | stg (key : Nat) (v : Word)
  /-- Words pushed into `fo` (R121). -/
  | fo (ws : List FoEnt)
  /-- A row of W1 and the plane's tag (R161). -/
  | wrow (row : Nat) (bytes : List Byte) (tag : Nat)
  /-- WSWAP (R162). -/
  | wswap
  /-- MCLR (R164). -/
  | mclr (m : BitVec 3)
  /-- Weight scales or activation scales (R163). -/
  | scales (acts : Bool) (lo : Nat) (vs : List (BitVec 16))
  /-- Bytes of a tile register: byte addresses in write order (R156, R169, R171). -/
  | tile (t : Nat) (bytes : List (Nat × Byte))
  /-- A whole d register: 560 words (R183, R184). -/
  | dreg (n : Nat) (ws : List W32)
  /-- A beat's row for one core: accumulate or overwrite (R165, R167); flags are the issuer's. -/
  | beat (row : Nat) (acc : Bool) (cs : List W32)
  /-- A sequenced row one of whose words raised ROT_ANGLE: it writes nothing and stops its task (R52, R176). -/
  | angle
  deriving DecidableEq, Repr

/-- An effect in flight: the counted cycle it lands at, the seat, group, bundle order and slot that issued it, the
flags its computation raised and the trap enables read at issue (R45, R85). -/
structure Eff where
  due : Nat
  /-- The seat; the part of a pair beat in the partner's array has 4 more than the seat that issued it (R167). -/
  seat : Nat
  /-- The number of switches of the core before it issued (R11); for the partner's part of a pair beat, the landing
  cycle of the issuer's part. -/
  sw : Nat
  /-- The address of its group; for the partner's part of a pair beat, the cycle it entered the array in. -/
  grp : Nat
  slot : Nat
  land : Land
  flags : BitVec 6
  en : BitVec 6
  info1 : Word
  /-- The counted cycle its group issued at, and whether its syllable stood in the group's second bundle (R15, R97). -/
  iss : Nat := 0
  bun : Nat := 0
  /-- Its value has landed already, or its trap has been taken: only its flags are left to land (R45, R166). -/
  dead : Bool := false
  /-- Whether it is a beat that drives the partner's array as well (R167). -/
  pair : Bool := false
  deriving DecidableEq, Repr

/-- A sequenced rotator instruction (R175, R176): the opcode (0 QRF, 1 QAPP, 2 QROT, 3 QSOLV), its fields, the next
row and the counted cycle at which that row is read or completes; `run` is false while its task is stopped. -/
structure Seqr where
  op : Nat
  dr : Nat
  tile : Nat
  row0 : Nat
  rows : Nat
  opt : Nat
  next : Nat
  due : Nat
  /-- The tile row in progress, as it was read 4 cycles before its completion (R175). -/
  row : Option (List W32)
  seat : Nat
  grp : Nat
  en : BitVec 6
  run : Bool
  /-- The counted cycle at which its Q syllable issued (R174). -/
  iss : Nat := 0
  /-- The counted cycle before which a resumed sequencer reads no row (R176). -/
  fill : Nat := 0
  /-- Whether its place goes at the next row boundary, as a RESET of the queue asks (R176). -/
  drop : Bool := false
  deriving DecidableEq, Repr

/-- What a completion freeze waits for (Table 1-6): with its result's destination, latch and bundle where it has one. -/
inductive CWait where
  | fence (xp : Bool) (scope : Nat)
  | barw (n : Nat)
  | acq (obj d latch slot bun : Nat) (started : Option Nat)
  | rel (obj : Nat) (add : Bool) (v : Word) (slot : Nat) (binds : List Bind) (started : Option Nat)
  | cdrn (mask : Nat) (d latch bun : Nat) (upto : Tbl Nat)
  | claim (a q : Bool)
  deriving DecidableEq, Repr

/-- The group being performed (R60): its address, the next address, the header of the bundle whose syllables are being
performed and its version, the gap of its last bundle, its run word if it yields, the syllables still to perform, the
target of a taken branch, the freezes a V = 1 bundle asks for and the banks its accesses use. -/
structure Grp where
  addr : Nat := 0
  next : Nat := 0
  bpc : Nat := 0
  ver : Nat := 0
  slot : Nat := 0
  gap : Nat := 0
  yield : Option (Nat × Bool × Bool) := none
  todo : List (Nat × Nat × Nat × Instr) := []
  branch : Option Nat := none
  taken : Bool := false
  v1hold : Nat := 0
  banks : List Nat := []
  waits : List CWait := []
  park : Option Wait := none
  halt : Option W32 := none
  /-- The binding slots as the group found them (R288). -/
  binds : List Bind := []
  /-- The counted cycle it issued at (R15). -/
  iss : Nat := 0
  deriving DecidableEq, Repr

/-- A command of a copy channel (R193 to R200): its fields as copied at issue, and its progress. -/
structure CpyCmd where
  seat : Nat
  task : Word
  tco : Word
  seq : Nat
  chained : Bool
  mode : Nat
  rop : Nat
  bar : Option Nat
  fl : Bool
  oob : Bool
  cm : Bool
  clm : Nat
  sext : Nat
  dext : Nat
  src : Ext
  dst : Ext
  a : Nat
  b : Nat
  len : Nat
  rows : Nat
  spitch : Nat
  dpitch : Nat
  vlen : Nat
  vrows : Nat
  fill : W32
  seed : W32
  exp : W32
  /-- The extent and offset of the result record, when one is asked for (R190). -/
  res : Option (Ext × Nat)
  /-- Its place in the order in which the core accepted commands (R201), and whether the channel held no incomplete command then (R268). -/
  ord : Nat
  timed : Bool
  /-- Started, with the seed it runs with then (R195, R306); the cycle of its next read (R268). -/
  started : Bool := false
  nextAt : Nat := 0
  /-- Bytes read, or asked for by read requests, or filled, in byte order. -/
  rd : Nat := 0
  /-- Pieces read and not delivered, by place in byte order: the cycle of the read and the bytes. -/
  pend : Tbl (Nat × List Byte) := []
  /-- Ranges of bytes visible and verified, by first byte: the length and the partial check value with seed 0 (R198, R312). -/
  done : Tbl (Nat × W32) := []
  /-- Acknowledgements of verified read replies that wait until their bytes are visible: first byte, number, message (R312). -/
  acks : List (Nat × Nat × Msg) := []
  /-- Bytes sent in messages, and whether the FIN has been sent and acknowledged (R311, R312). -/
  sent : Nat := 0
  finSent : Bool := false
  finDone : Bool := false
  /-- The cause it ends with, its detail and the memory that failed (R192, R263). -/
  code : Nat := 0
  detail : Option Nat := none
  phys : Option (Nat × Nat) := none
  /-- Whether EXT_SLOG has been posted, and whether a demand walk has failed and waits for a REFRESH (R258, R259). -/
  slogged : Bool := false
  miss : Bool := false
  /-- Stream units moved (R196). -/
  units : Nat := 0
  deriving DecidableEq, Repr

/-- A unit in a side log (R199): its command's seat and SEQ, its first byte in byte order, its bytes, and whether the message that replays it
at a peer is under way. -/
structure LogUnit where
  seat : Nat
  seq : Nat
  pos : Nat
  bytes : List Byte
  out : Bool := false
  deriving DecidableEq, Repr

/-- A copy channel (R193, R306). -/
structure Chan where
  cmds : List CpyCmd := []
  slog : List LogUnit := []
  /-- The source extent it is held on (R199). -/
  held : Option Nat := none
  lastChk : W32 := 0
  /-- Commands accepted and completed so far, from all seats (R201). -/
  acc : Nat := 0
  comp : Nat := 0
  /-- Per seat: the check value of the last command completed since dispatch, if it ran in MODE 1 or 2, and its CODE (R195). -/
  pred : Tbl (Option W32 × Nat) := []
  /-- Per seat: commands completed and not yet counted by a CDRN: place in the order of acceptance and CODE (R201, R303). -/
  fin : Tbl (List (Nat × Nat)) := []
  deriving DecidableEq, Repr

/-- A tag-table entry (R112): tenant, key, value. -/
structure TagEnt where
  tenant : Nat
  key : Word
  val : BitVec 63
  deriving DecidableEq, Repr

/-- A request or channel message of a core that has been sent and is not yet answered (R314, R315): the agent, its
MSGID, the message, the refusals so far, when it is to be resent, and the paths that returned reason 3. -/
structure Sent where
  agent : Nat
  id : Nat
  msg : Msg
  refusals : Nat
  resendAt : Option Nat
  badPaths : List Nat
  path : Nat
  resv : Nat
  seat : Nat
  first : Nat
  len : Nat
  seq : Nat
  err : Word
  /-- Whether PIN_HOLD_FULL has been posted for it (R297). -/
  full : Bool := false
  /-- The counted cycle at which its request was made (R97). -/
  iss : Nat := 0
  deriving DecidableEq, Repr

/-- A completion-cache entry (R315): the request's source and MSGID, the response and the cycle it expires. -/
structure CacheEnt where
  schip : Nat
  sdie : Nat
  score : Nat
  sag : Nat
  id : Nat
  resp : Msg
  until_ : Nat
  deriving DecidableEq, Repr

/-- A read reply sent and not acknowledged (R308, R312): the message, its refusals, when it is to be resent, the path it took and
those that returned reason 3. -/
structure Reply where
  msg : Msg
  refusals : Nat
  resendAt : Option Nat
  path : Nat
  badPaths : List Nat
  deriving DecidableEq, Repr

/-- The status word of a CDRN whose condition holds (R201): the issue cycles since then, where it lands, and when and in which
bundle its CDRN issued. -/
structure Drained where
  cycles : Nat
  seat : Nat
  sw : Nat
  grp : Nat
  dst : Nat
  latch : Nat
  v : Word
  iss : Nat := 0
  bun : Nat := 0
  deriving DecidableEq, Repr

/-- A message in a core's receive buffer (R307, R313): the grant entry that passed it, and the pieces of at most one bank word still to be
written: scratchpad offset and bytes. -/
structure RxEnt where
  msg : Msg
  ent : Nat
  left : List (Nat × List Byte)
  deriving DecidableEq, Repr

/-- A core (R9). -/
structure Core where
  seats : Tbl Seat := []
  /-- The seat that issues, and the seat that issued last (R232). -/
  cur : Option Nat := none
  last : Nat := 3
  /-- l0 to l5 (R12). -/
  latch : Tbl Word := []
  /-- c.la under key c and c.lb under key 8 + c (R17). -/
  vlatch : Tbl Vec := []
  /-- Tile bytes under key 36,864 t + byte (R20). -/
  tile : List Host.Cell := []
  /-- TG0 to TG7 (R20). -/
  tg : Tbl Word := []
  /-- Accumulators under key 192 m + n (R21). -/
  acc : Tbl W32 := []
  /-- Planes W0 and W1: bytes, scales and tags (R21, R158). -/
  w0 : List Host.Cell := []
  w1 : List Host.Cell := []
  sw0 : Tbl (BitVec 16) := []
  sw1 : Tbl (BitVec 16) := []
  tag0 : Nat := 0
  tag1 : Nat := 0
  /-- SA[0..191] (R158). -/
  sa : Tbl (BitVec 16) := []
  /-- d0 to d3: elements and gain words under key 560 r + word (R22). -/
  d : Tbl W32 := []
  /-- The rotator's sequencer (R175). -/
  seqr : Option Seqr := none
  /-- The scratchpad (R24) and its bytes that hold an uncorrectable error (R109). -/
  spad : List Host.Cell := []
  spadUe : List Nat := []
  /-- Words of the code image that carry a parity error, as fetched by this core: (tier, address) (R59). -/
  parity : List (Nat × Nat) := []
  /-- ch0 to ch3 (R193). -/
  ch : Tbl Chan := []
  /-- The tag table (R112). -/
  tags : List TagEnt := []
  /-- FRZ (R26, Table 1-4). -/
  ofrz : W32 := 0
  gfrz : W32 := 0
  /-- Counted cycles (R13), whether this cycle counts, and issue cycles of the slice (R231). -/
  ct : Nat := 0
  counts : Bool := true
  slice : Nat := 0
  /-- Gap or bubble cycles left before the next group (R61), hold freezes left (R14). -/
  gap : Nat := 0
  hold : Nat := 0
  /-- Completion freezes under way (R14) and consecutive freeze cycles of one cause with its INFO0 code (R130). -/
  waits : List CWait := []
  frz : Nat := 0
  frzWhy : Nat := 15
  /-- A yield, an exit or an empty core that the arbiter has still to decide on (R232): the effective run word. -/
  choose : Bool := false
  /-- Seat switches so far: a result from before a switch reaches no latch (R11). -/
  sw : Nat := 0
  /-- The governor's window: the weight of each of the last 64 cycles, the present one first (R236). -/
  win : List Nat := []
  /-- The group being performed. -/
  grp : Grp := {}
  /-- Effects in flight, in the order in which they issued. -/
  effs : List Eff := []
  /-- Messages sent and not answered, and the next MSGID of each agent. -/
  sent : List Sent := []
  msgid : Tbl Nat := []
  /-- Answers to the sync-word accesses of ACQ and REL that travel as messages: MSGID, cause of failure, value (R120). -/
  syncRes : List (Nat × Option Nat × Word) := []
  /-- The completion cache (R315). -/
  cache : List CacheEnt := []
  /-- Adds of 1 to 8-byte counters that the network engine has given to the core's atomic unit: the key of the record, 0 for a region's counter,
  and the counter's places (R402). -/
  adds : List (Nat × List Nat) := []
  /-- When each MSGID was last used: key agent × 1024 + MSGID (R315). -/
  msgUse : Tbl Nat := []
  /-- Read replies sent and not acknowledged (R308). -/
  replies : List Reply := []
  /-- Which grant entry passed the message that began at an offset: source (package × 512 + die × 128 + core), agent, offset,
  entry (R328). -/
  flagEnt : List (Nat × Nat × Nat × Nat) := []
  /-- Status words of CDRNs on their way (R201). -/
  drained : List Drained := []
  /-- Scratchpad bytes that the core's commits of this cycle have replaced, as they were before (R268). -/
  prior : List Host.Cell := []
  /-- Whether a beat of this core's own task entered the array in this cycle (R167). -/
  beatNow : Bool := false
  /-- The receive buffer, in arrival order (R313). -/
  rx : List RxEnt := []
  /-- Banks that have served an arriving message or a channel in this cycle (R24, R307). -/
  served : List Nat := []
  /-- The channel that each bank served last, and the channel that sent a message last (R307). -/
  bankTurn : Tbl Nat := []
  sendTurn : Nat := 3
  /-- The place in the order of acceptance that the next CPY of the core takes (R201). -/
  accNo : Nat := 0
  /-- No seat issues in this cycle: none was ready when it began, or the core has lost its seat in it (R103, R232). -/
  idle : Bool := false
  /-- The weight of the partner's pair beat that enters the array in this cycle (R236). -/
  pairIn : Nat := 0
  deriving DecidableEq, Repr

/-! ### Dies and the package -/

/-- A write on its way to its ordering point (R280): where it is (the buffer of a die, the port buffer, or neither for
a package agent), what it writes, and the seat it belongs to (core × 4 + seat), its number in that seat's order. -/
structure BufWr where
  buf : Nat
  tier : Nat
  addr : Nat
  bytes : List Byte
  owner : Option Nat
  launch : Option (Nat × Nat)
  hidden : Bool
  pin : Option Nat
  resv : Nat
  path : Nat
  /-- The error word of the request that made it, without its cause (R126). -/
  err : Word := 0
  /-- The GTS at which it entered the port buffer, from which a write to the pool has CXLTO cy to complete (R344). -/
  at_ : Nat := 0
  /-- The die whose write log it is logged in, when no seat owns it (R261). -/
  die : Nat := 0
  /-- The counted cycle at which its request was made (R97). -/
  iss : Nat := 0
  deriving DecidableEq, Repr

/-- A virtual channel of a port and class (R324): the flit buffers at the neighbour that it holds credits for, the messages whose flits wait for
one, oldest first, the flits of the first that have left, and the GTS since when it has held no credit, as long as no notice has said so. -/
structure Vc where
  credits : Nat := 32
  wait : List Transit := []
  left : Nat := 0
  dry : Option Nat := none
  deriving DecidableEq, Repr

/-- A pin-table entry (R127): state 0 free, 1 pending, 2 landed, 3 failed. -/
structure Pin where
  gen : Nat := 0
  st : Nat := 0
  tenant : Nat := 0
  at_ : Nat := 0
  /-- Packages registered for a report (package + 1,024 × the query's MSGID), each with the pin word it asked for (R271). -/
  wait : List (Nat × Word) := []
  /-- The issuer whose notice reports a later failure of the store: core, seat, task (R125). -/
  who : Nat × Nat × Word := (0, 0, 0)
  deriving DecidableEq, Repr

/-- A request in the hold queue (R297): the message, its pins still unknown or pending, and whether it takes one of the queue's places;
one that only waits behind an earlier request of its seat takes none (R124, R128). -/
structure Held where
  msg : Msg
  pins : List W32
  place : Bool := true
  deriving DecidableEq, Repr

/-- A launch (R222 to R230): its LSEQ, record words, header fields, progress and capability. -/
structure Launch where
  lseq : Nat
  recd : List Word
  /-- The header's words once it has been read (R226), and the tables. -/
  hdr : List Word
  scr : List Word
  buf : List Word
  exts : List Word
  regs : List Word
  bt : List Word
  /-- Whether the record has been checked (R223) and released (R224, R225). -/
  checked : Bool
  released : Bool
  /-- Domains dispatched, tasks completed, tasks with a non-zero exit code, the OR of the codes. -/
  disp : Nat
  comp : Nat
  bad : Nat
  codes : W32
  /-- Rollback capability (R262), rollbacks so far and whether it waits for GO (R264). -/
  cap : Bool
  rolls : Nat
  waitGo : Bool
  /-- A page cause stalls its check or dispatch (R223, R228). -/
  stall : Bool
  /-- Signal adds that wait for a walk (R224). -/
  sigWait : Nat
  /-- Signal adds of completed tasks that wait until the launch can no longer be rolled back (R224, R266). -/
  sigHeld : Nat := 0
  /-- What the word at WAIT has come to, once it has released the launch: whether it carried the error bit (R224). -/
  waited : Option Bool := none
  sigErr : Bool
  fail : Nat
  deriving DecidableEq, Repr

/-- A swapped-out member (R249, R250): its save area and its whole seat with its scratch and claimed state. -/
structure Swapped where
  area : Word
  /-- The bytes of its body. -/
  len : Nat
  words : List Word
  seat : Seat
  scratch : List (List Host.Cell)
  tile : List Host.Cell
  tg : Tbl Word
  acc : Tbl W32
  w0 : List Host.Cell
  w1 : List Host.Cell
  sw0 : Tbl (BitVec 16)
  sw1 : Tbl (BitVec 16)
  tag0 : Nat
  tag1 : Nat
  sa : Tbl (BitVec 16)
  d : Tbl W32
  seqr : Option Seqr
  /-- Per channel: what it keeps of the seat's commands that have completed (R195, R201). -/
  chs : List (Nat × Option (Option W32 × Nat) × List (Nat × Nat)) := []
  deriving DecidableEq, Repr

/-- A unit reserved for a domain (R229): level and number, and the rank, queue, LSEQ and domain it is reserved for. -/
structure Reserve where
  level : Nat
  unit : Nat
  rank : Nat
  q : Nat
  lseq : Nat
  dom : Nat
  deriving DecidableEq, Repr

/-- A command queue (R220): STATE, its launches in order, the last dispatch, records that wait for the fault ring. -/
structure Queue where
  st : Nat := 0
  launches : List Launch := []
  lastDisp : Nat := 0
  anyDisp : Bool := false
  /-- Records on their way to the fault ring in the order of their events: a stop record with its seat, or a notice
  (R245). -/
  recs : List (Option Nat × StopRec) := []
  /-- Stop records that found the ring full (R245). -/
  stops : List (Nat × StopRec) := []
  /-- Notices dropped since the last RING_OVER (R245). -/
  dropped : Nat := 0
  /-- Launches struck by an uncorrectable error: LSEQ, tier, physical offset (R263). -/
  struck : List (Nat × Nat × Nat) := []
  /-- Swapped-out members (R250). -/
  resume : List Swapped := []
  /-- When RESET was written or the queue began to be killed (R238, R265). -/
  resetAt : Nat := 0
  /-- The LSEQ that a teardown or reset record carries, and whether it names a launch (R237). -/
  torn : Nat × Bool := (0, false)
  /-- The launch whose error kills the queue: LSEQ, tier, physical offset (R265). -/
  killed : Option (Nat × Nat × Nat) := none
  deriving DecidableEq, Repr

/-- A command accepted by an engine of a die or of the package (R188): its engine, opcode and subcode, issuer, SEQ, the
operands, the staging registers it copied, the extents they name, and where its result record goes. -/
structure EngCmd where
  eng : Nat
  op : Nat
  sub : Nat
  core : Nat
  seat : Nat
  task : Word
  tco : Word
  seq : Nat
  a : Word
  b : Word
  /-- Staging registers by index. -/
  stg : Tbl Word
  /-- Extents by number. -/
  exts : Tbl Ext
  res : Option (Ext × Nat)
  cyc : Nat
  /-- Gather commands performed, or 1 once a command's work is done and only writes or its record are left. -/
  prog : Nat := 0
  /-- The outcome of that work: CODE, VAL, record word 1; or the entry whose handle that word is at completion (R368). -/
  code : Nat := 0
  val : Nat := 0
  word1 : Word := 0
  ent : Option Nat := none
  detail : Option Nat := none
  phys : Option (Nat × Nat) := none
  /-- Bytes computed and not yet written: extent number, offset, at most 64 bytes of one unit. -/
  out : List (Nat × Nat × List Byte) := []
  /-- Writes that wait in the engine's side log: the number of the retirement, extent number, offset, bytes (R259). -/
  slog : List (Nat × Nat × Nat × List Byte) := []
  slogged : Bool := false
  miss : Bool := false
  /-- Whether its place among the commands that reached the engine in its cycle has been settled (R370). -/
  ord : Bool := false
  deriving DecidableEq, Repr

/-- A node of a prefix tree (R372). -/
structure TNode where
  id : Nat
  tenant : Nat
  parent : Nat
  ids : List W32
  pages : List Nat
  last : Nat
  deriving DecidableEq, Repr

/-- A journal entry (Table 19-5). -/
inductive JEnt where
  | head (bound lb tnode : Nat)
  | alloc (layer p page : Nat)
  | copy (layer p old new : Nat)
  | slot (layer p s : Nat) (bytes : List Byte)
  deriving DecidableEq, Repr

/-- A die (R274). -/
structure Die where
  /-- Page counts (R369), prefix-tree nodes (R372), journals by entry (R382). -/
  count : Tbl Nat := []
  nodes : List TNode := []
  jrn : Tbl (List JEnt) := []
  /-- The journal units that the open journal of an entry holds, in the order in which it took them (R382). -/
  junits : Tbl (List Nat) := []
  /-- The tenant each page in use is charged to (R365), and the next node number (R372, log 14). -/
  charge : Tbl Nat := []
  nextNode : Nat := 1
  /-- KV, top-k and gather commands accepted and not complete (R370, R206, R385). -/
  kv : List EngCmd := []
  topk : List EngCmd := []
  gthr : List EngCmd := []
  /-- The write log (R261): tier, unit, queue, LSEQ and the old bytes, oldest first. -/
  wlog : List (Nat × Nat × Nat × Nat × List Byte) := []
  /-- Units that the die's engines have retired into side logs so far, which number them (R259). -/
  slogNo : Nat := 0
  /-- Power state 0 to 2 (R415) and temperature. -/
  power : Nat := 0
  temp : Nat := 0
  hot : Bool := false
  deriving DecidableEq, Repr

/-- A stream of the tier engine (R202, R334, R346 to R352): TSTATE 0 idle, 1 running, 2 stopping. -/
structure Stream where
  st : Nat := 0
  tenant : Nat := 0
  queue : Nat := 0
  /-- The issuer of the start: core, seat, task and TCO words, SEQ (for the record and notices). -/
  core : Nat := 0
  seat : Nat := 0
  task : Word := 0
  tco : Word := 0
  seq : Nat := 0
  origin : Word := 0
  itin : Ext := {}
  /-- The number of that extent. -/
  iext : Nat := 0
  ioff : Nat := 0
  n : Nat := 0
  twin : Word := 0
  tbyte : Word := 0
  tgrp : Word := 0
  tcons : Word := 0
  res : Option (Ext × Nat) := none
  /-- Entries read: index and its words; the next entry to read. -/
  ents : List (Nat × List Word) := []
  next : Nat := 0
  /-- Per shard 3 i + h: 1 started, 2 landed. -/
  hops : Tbl Nat := []
  /-- Member acknowledgements (shard, package) and consumer acknowledgements (shard, core). -/
  mack : List (Nat × Nat) := []
  cack : List (Nat × Nat) := []
  /-- H2: the bytes of a started shard, and how far each copy has come: (shard, core, bytes). -/
  h2data : List (Nat × List Byte) := []
  h2 : List (Nat × Nat × Nat) := []
  /-- Shards that reached a member and have not been written (R329). -/
  engd : List (Nat × List Byte) := []
  /-- The MSGID of the message that brought the last part of such a shard, by shard (R316, R329). -/
  engdId : Tbl Nat := []
  /-- Parts of shards that have reached a member, by 2^22 × shard + offset (R329). -/
  parts : Tbl (List Byte) := []
  /-- Whether every other member's stream is known to run (R334). -/
  live : Bool := false
  /-- Consumer cores at which the demand walk of HEXT's extent has failed (R258, R349). -/
  missAt : List Nat := []
  /-- Copies to consumers that an extent's failed check has ended: (shard, core) (R349). -/
  gone : List (Nat × Nat) := []
  /-- Hops that have failed on their source and have been given a rerun of the hop before: (shard, hop) (R348). -/
  rerun : List (Nat × Nat) := []
  /-- Hops that wait for a REFRESH after a page cause: (shard, hop) (R347). -/
  noted : List (Nat × Nat) := []
  /-- Whether the demand walk of the itinerary's extent has failed (R258). -/
  miss : Bool := false
  late0 : Nat := 0
  late1 : Nat := 0
  late2 : Nat := 0
  pl : Nat := 0
  gap : Nat := 0
  /-- A stream that stops: the cause, and the first entry no further hop of which starts (R347). -/
  endCode : Nat := 0
  lim : Nat := 0
  /-- Its detail, and tier and place, or for EXT_ABANDON INFO1 and INFO0, of what failed (Table 11-3). -/
  detail : Option Nat := none
  phys : Option (Nat × Nat) := none
  /-- TWPTR by core (Table 17-4). -/
  twptr : Tbl Word := []
  /-- When the last message of a shard was sent to a member, by 1,024 × shard + member (R329). -/
  sentAt : Tbl Nat := []
  deriving DecidableEq, Repr

/-- A gather queue (R355, R357, R358): the open batch (slot, count, first GTS), closed slots oldest first with the
GTS of the close, slots taken, BSEQ. -/
structure GQueue where
  open_ : Option (Nat × Nat × Nat) := none
  closed : List (Nat × Nat) := []
  taken : List Nat := []
  bseq : Nat := 0
  deriving DecidableEq, Repr

/-- A record of the network engine that is waiting or in progress (R389, R398): its key, send or receive, the issuer, its words
and what it has come to. -/
structure NetRec where
  key : Nat
  send : Bool
  tenant : Nat
  queue : Nat
  core : Nat
  seat : Nat
  task : Word
  tco : Word
  seq : Nat
  /-- The extent and the offset of the record, and the issuer's extents as copied at issue. -/
  ext : Ext
  exts : Tbl Ext
  off : Nat
  words : List Word := []
  started : Bool := false
  /-- The place of a posted receive in the tenant's list (R399), or the PDC and message number of a started send. -/
  order : Nat := 0
  pdc : Nat := 0
  msg : Nat := 0
  /-- A matched receive: PDC and message, the message's length, its bytes that have arrived. -/
  matched : Option (Nat × Nat) := none
  total : Nat := 0
  got : Nat := 0
  /-- Bytes of a send in packets that the peer has refused. -/
  lost : Nat := 0
  /-- Whether its queue's TEARDOWN or RESET has cancelled it while the record could not be read (R403). -/
  cancel : Bool := false
  /-- The outcome, and what is left: 0 the message, 1 the entry, 2 the counter, 3 a counter's add at the core's atomic unit (R402). -/
  code : Nat := 0
  val : Nat := 0
  ends : Nat := 0
  detail : Option Nat := none
  phys : Option (Nat × Nat) := none
  /-- Whether a demand walk has failed and waits for a REFRESH (R258). -/
  miss : Bool := false
  deriving DecidableEq, Repr

/-- A packet to be sent or sent and not acknowledged (R390): when it was sent, its resends, whether SACK has shown it, whether it
has been resent for a hole, whether its last answer was that no receive is posted. -/
structure OutPkt where
  psn : Nat
  msg : Nat
  off : Nat
  len : Nat
  sentAt : Option Nat := none
  resends : Nat := 0
  sacked : Bool := false
  selDone : Bool := false
  lastNack : Bool := false
  /-- Whether its acknowledgement is marked: the peer has refused it (R396, R399). -/
  bad : Bool := false
  deriving DecidableEq, Repr

/-- A packet delivery context (R390, R394, R395). -/
structure Pdc where
  id : Nat
  tenant : Nat
  peer : Nat
  rod : Bool
  nextPsn : Nat := 0
  out : List OutPkt := []
  /-- The last CACK received and how often it has been repeated (R395). -/
  lastCack : Option Nat := none
  sameCack : Nat := 0
  /-- When the PDC last made progress: an acknowledgement of something new, or its first packet in flight (R395). -/
  prog : Nat := 0
  /-- Receive side: the PSNs of packets that this receiver has refused (R396, R399, R404, R405). -/
  refused : List Nat := []
  /-- Receive side: every PSN below this one received, and later ones received. -/
  cack : Nat := 0
  seen : List Nat := []
  lastUse : Nat
  /-- Ports its packets have used and queues whose records it has carried (R397). -/
  ports : List Nat := []
  queues : List Nat := []
  /-- Messages matched at this receiver: message and key of the receive (R391). -/
  rx : List (Nat × Nat) := []
  deriving DecidableEq, Repr

/-- A message that arrives for a binding (R404): PDC, message number, binding, length, the bytes so far by offset, and once every
packet is there the port and the PSN of the last, whose ACK is withheld. -/
structure BoundMsg where
  pdc : Nat
  msg : Nat
  nb : Nat
  total : Nat
  got : List (Nat × List Byte)
  last : Option (Nat × Nat)
  deriving DecidableEq, Repr

/-- An RMA write arriving (R396): PDC, message, bytes placed, whether it has been refused. -/
structure RmaIn where
  pdc : Nat
  msg : Nat
  got : Nat
  refused : Bool
  deriving DecidableEq, Repr

/-- A write of XRCTL that starts an operation, with the range as it then stands (R255, Table 11-9). -/
structure XrOp where
  ctl : Word
  base : Word
  len : Word
  deriving DecidableEq, Repr

/-- A collective that has been issued on this package (R209). -/
structure Coll where
  gid : Nat
  cmd : EngCmd
  /-- Whether every other member has arrived, and what they brought (R209). -/
  came : Bool := false
  peers : List CollPart := []
  deriving DecidableEq, Repr

/-- A weight replacement (R354): 1 draining, 2 copying, 3 gate held; its descriptor. -/
structure Replace where
  step : Nat
  words : List Word
  at_ : Nat
  /-- The queues that a replacement which failed at its copy still gates (R354). -/
  old : Word := 0
  deriving DecidableEq, Repr

/-- A checkpoint image (R416): where it lies in the pool and the bytes written there, and what it holds: the HBM4 stage with its
poisoned units, scratchpads, seats and claimed state, dirty 64 KiB units of tier 3, and the chunks marked as poisoned. -/
structure CkptImage where
  off : Nat
  bytes : List Byte
  t2 : List Host.Cell
  units : List (Nat × List Host.Cell)
  poison : List (Nat × Nat)
  cores : Tbl Core
  deriving DecidableEq, Repr

/-! ### The reasons a step can stop -/

/-- Why the machine stops with a fault. -/
inductive Fault where
  /-- Raised by the step after an access to a physical address that the package does not have: an offset beyond the end
  of a tier (R276, R337, R342, R408).  Safe: the spec gives such an access no effect. -/
  | noSuchAddress (tier addr : Nat)
  deriving DecidableEq, Repr

/-- Why an instruction is refused. -/
inductive Refusal where
  /-- Raised by `exec` alone, for an instruction that has no meaning in the model yet.  Safe. -/
  | notModelled (mnemonic : String)
  deriving DecidableEq, Repr

/-! ### The package -/

/-- How far the package has booted (R410): the boot ROM runs on hart 0 and holds the other harts; all harts have been released at a tier 5 offset;
or the ROM has halted after a failure. -/
inductive BootSt where
  | rom
  | run (entry : Nat)
  | halted
  deriving DecidableEq, Repr

/-- The state of one package. -/
structure State where
  /-- CYC (0x000) and GTS (0x001) (R26). -/
  cyc : Nat
  gts : Nat
  /-- Cores under die × 96 + core (R274). -/
  cores : Tbl Core
  dies : Tbl Die
  /-- Tiers 2 to 5 at their ordering points (R276). -/
  t2 : List Host.Cell
  t3 : List Host.Cell
  t4 : List Host.Cell
  t5 : List Host.Cell
  /-- Poisoned 64-byte units: (tier, unit number) (R340, R344). -/
  poison : List (Nat × Nat)
  /-- Atoms of tiers 2 and 3 that hold an error their check bytes correct: (tier, unit); and the corrected errors counted in the last 2^30
  cy: tier, controller, GTS (R340, R342). -/
  soft : List (Nat × Nat)
  cerr : List (Nat × Nat × Nat)
  /-- Dirty 64 KiB units of tier 3 (R416). -/
  dirty : Tbl Bool
  /-- Writes not yet at their ordering point, oldest first (R280). -/
  wbuf : List BufWr
  /-- Management registers with a value other than their reset value, by `regKey` (R408). -/
  mgmt : Tbl Word
  /-- The pin table and the hold queue (R127, R297). -/
  pins : Tbl Pin
  hold : List Held
  /-- Messages in flight inside the package, and messages sent out of it with the port they leave by, newest last
  (R311, R319, R323). -/
  net : List Msg
  out : List (Nat × Transit)
  /-- Virtual channels under 8 × port + 4 × class + VC (R324). -/
  vcs : Tbl Vc
  /-- Responses to what this cycle has performed: they leave in the next one (R271). -/
  late : List Msg
  /-- Command queues (R220). -/
  queues : Tbl Queue
  lastQ : Nat
  reserved : List Reserve
  /-- Streams of the tier engine, the weight replacement (R202, R354). -/
  streams : Tbl Stream
  /-- Messages of the engines not acknowledged, and the next MSGID by agent (R329). -/
  engSent : List Sent
  engId : Tbl Nat
  /-- When each MSGID of an engine was last used: key agent × 1024 + MSGID (R315). -/
  engUse : Tbl Nat
  repl : Option Replace
  /-- Gather queues (R355), and this cycle's records: place in the order of R356, queue, bytes. -/
  gq : Tbl GQueue
  gqIn : List (Nat × Nat × List Byte)
  /-- The network engine (R389 to R406). -/
  netRecs : List NetRec
  pdcs : List Pdc
  bound : List BoundMsg
  rma : List RmaIn
  pkts : List Packet
  uacks : List UAck
  nextPdc : Nat
  nextMsg : Nat
  /-- Collectives in progress (R209). -/
  colls : List Coll
  /-- The revocation that runs (R255, R256), and freed scratch allocations, by core, whose revocation has not been acknowledged (R256,
  R327). -/
  xr : Option XrOp
  freeing : List (Nat × Alloc)
  /-- The control complex: boot flash, RPA, keys (R409 to R414), an attestation quote, power transition, checkpoint. -/
  flash : List Host.Cell
  svnc : Nat
  owndig : BitVec 256
  epoch : W32
  tlatch : Bool
  sealKey : BitVec 256
  attSeed : BitVec 256
  rpaKey : BitVec 256
  keysUp : Bool
  tripped : Bool
  alDef : W32
  /-- The cycle of the last tamper trip and the inputs of ALST that it set: a clear written in that cycle leaves them set (R6, R414). -/
  alNew : Nat × Nat
  dieEn : BitVec 4
  hbmEn : Bool
  pendExt : List (Nat × BitVec 256)
  /-- How far the package has booted (R410), and the debug and boundary scan enables of the configuration record (R411). -/
  boot : BootSt
  dbg : BitVec 2
  /-- What the attestation unit's last seal or unseal has returned: CODE and bytes (R412, R414). -/
  sealOut : Option (Nat × List Byte)
  /-- A write of TLATCH and EPOCH into the replay-protected area that a trip has begun, and whether the package is reset after it (R414). -/
  rpaWrite : Option Bool
  powerBusy : Option (Nat × Nat)
  hbmPower : Nat
  ckpt : Option (Nat × Nat)
  /-- The pool offset of the image that the checkpoint in progress writes, as CKCTL named it at GO (R416). -/
  ckOff : Nat
  ckptWait : List (MReg × Word)
  ckptImage : List CkptImage
  /-- The message of the quote that is being signed (R413). -/
  quoteMsg : List Byte
  /-- Channel width transitions in progress: channels; and the GTS at which a stack was last known not to be below HBMCOOL (R338). -/
  widthBusy : List Nat
  hotAt : Tbl Nat
  /-- CXL root ports without a link, and those whose next read gets no completion within CXLTO cy, an input (R344). -/
  cxlDown : List Nat
  cxlLost : List Nat
  /-- Engines in whose own state an uncorrectable error stands, by engine id and core, die or stream, 0 for one of the package (ENG_UE). -/
  engBad : List (Nat × Nat)
  /-- Notices on the management fault log and events that reach the control complex (Table 17-2, R343). -/
  mlog : List (Nat × Word)
  hartReads : List (List Byte)
  /-- Replays of the fabric's ports: port, GTS, number (R317). -/
  replays : List (Nat × Nat × Nat)
  /-- Timed steps that come due by GTS: the model's own list of deadlines the spec states. -/
  timers : List (Nat × Instr)
  /-- The steps of the present cycle not yet performed: the model's own (log 5). -/
  turn : List Instr
  /-- Inputs and the times of steps the spec leaves open: (cycle, step): the model's own (log 5). -/
  agenda : List (Nat × Instr)
  /-- The core whose group is being performed: the model's own (log 9). -/
  cur : Nat
  /-- Number of free values drawn so far: the model's own (log 4). -/
  fresh : Nat
  /-- An access to an address that does not exist has been made (the next step faults): the model's own (log 3). -/
  bad : Option Fault
  deriving DecidableEq, Repr

/-- The state right after package reset (R6 and the Reset columns; log 2 for what they do not give). -/
def State.reset : State where
  cyc := 0
  gts := 0
  cores := []
  dies := []
  t2 := []
  t3 := []
  t4 := []
  t5 := []
  poison := []
  soft := []
  cerr := []
  dirty := []
  wbuf := []
  mgmt := []
  pins := []
  hold := []
  net := []
  out := []
  vcs := []
  late := []
  queues := []
  lastQ := 63
  reserved := []
  streams := []
  engSent := []
  engId := []
  engUse := []
  repl := none
  gq := []
  gqIn := []
  netRecs := []
  pdcs := []
  bound := []
  rma := []
  pkts := []
  uacks := []
  nextPdc := 1
  nextMsg := 1
  colls := []
  xr := none
  freeing := []
  flash := []
  svnc := 0
  owndig := 0
  epoch := 0
  tlatch := false
  sealKey := 0
  attSeed := 0
  rpaKey := 0
  keysUp := false
  tripped := false
  alDef := 0
  alNew := (0, 0)
  dieEn := 0
  hbmEn := false
  pendExt := []
  boot := .rom
  dbg := 0
  sealOut := none
  rpaWrite := none
  powerBusy := none
  hbmPower := 2
  ckpt := none
  ckOff := 0
  ckptWait := []
  ckptImage := []
  quoteMsg := []
  widthBusy := []
  hotAt := []
  cxlDown := []
  cxlLost := []
  engBad := []
  mlog := []
  hartReads := []
  replays := []
  timers := []
  turn := []
  agenda := []
  cur := 0
  fresh := 0
  bad := none

end Sys2Proof.Machine
end

