-- ==== Sys2Proof/Machine/Regs.lean ====
section
/-!
DEFINITION. Management space as a table: the key of each register, the reset values that are not zero, reading and
writing a register, and the bit fields of a word (R5, R6, R408).
-/
namespace Sys2Proof.Machine

open Sys2Proof

/-- Bits hi..lo of a 64-bit word as a number. -/
def bits (w : Word) (hi lo : Nat) : Nat := w.toNat / 2 ^ lo % 2 ^ (hi + 1 - lo)

/-- Bit i of a 64-bit word. -/
def bitAt (w : Word) (i : Nat) : Bool := w.toNat.testBit i

/-- The word `w` with bits hi..lo replaced by `v`. -/
def setBits (w : Word) (hi lo : Nat) (v : Nat) : Word :=
  let m := 2 ^ (hi + 1 - lo)
  BitVec.ofNat 64 (w.toNat - w.toNat / 2 ^ lo % m * 2 ^ lo + v % m * 2 ^ lo)

/-- A 64-bit word of a natural number, modulo 2^64. -/
def wordOf (n : Nat) : Word := BitVec.ofNat 64 n

/-- The number of a register's kind and its index within the kind. -/
def regParts : MReg → Nat × Nat
  | .qcfg q => (0, q) | .qring q => (1, q) | .qcring q => (2, q) | .qfring q => (3, q) | .qrsv q => (4, q)
  | .qcons q => (5, q) | .qcseq q => (6, q) | .qfseq q => (7, q) | .qfhead q => (8, q) | .qflost q => (9, q)
  | .qrbk q => (10, q) | .sctl k => (11, k) | .spc k => (12, k) | .ssave k => (13, k)
  | .ttbase => (14, 0) | .xrbase => (15, 0) | .xrlen => (16, 0) | .xrctl => (17, 0)
  | .wlbase d => (18, d) | .wlsize d => (19, d) | .pwl c => (20, c) | .cinj c => (21, c) | .grant k => (22, k)
  | .mcast k => (23, k) | .rt k => (24, k) | .fabcfg => (25, 0) | .pst p => (26, p)
  | .hbmst k => (27, k) | .lpst k => (28, k) | .hbmhot => (29, 0) | .hbmcool => (30, 0) | .cxlto => (31, 0)
  | .cerate => (32, 0) | .ingbase => (33, 0) | .cxldec k => (34, k)
  | .tpcfg t => (35, t) | .tpl t => (36, t) | .wrctl => (37, 0) | .wrstat => (38, 0)
  | .gqcfg q => (39, q) | .gqarea q => (40, q) | .gdrop q => (41, q)
  | .kvpfmt d => (42, d) | .kvpool d => (43, d) | .kvht d => (44, d) | .kvmap d => (45, d) | .kvsum d => (46, d)
  | .kvjrn d => (47, d) | .kvtree d => (48, d) | .kvqt k => (49, k)
  | .netcfg => (50, 0) | .nept k => (51, k) | .nrgn k => (52, k) | .nbnd k => (53, k) | .ntq k => (54, k)
  | .npst p => (55, p) | .collgrp k => (56, k)
  | .bootst => (57, 0) | .mr k => (58, k) | .mrsel => (59, 0) | .mrext k => (60, k) | .atnonce k => (61, k)
  | .atsig k => (62, k) | .atpub k => (63, k) | .atctl => (64, 0)
  | .alcfg => (65, 0) | .alst => (66, 0) | .pwctl => (67, 0) | .pwst => (68, 0) | .tlim => (69, 0)
  | .thlim => (70, 0) | .ttrip => (71, 0) | .ckctl => (72, 0) | .ckstat => (73, 0) | .ckdirty => (74, 0)

/-- The key of a register in the table of management space. -/
def regKey (r : MReg) : Nat := (regParts r).1 * 2 ^ 32 + (regParts r).2

/-- The reset value of a register (the Reset columns of the register tables). -/
def regReset : MReg → Word
  | .qrbk _ => 0x30
  | .hbmhot => 380
  | .hbmcool => 340
  | .cxlto => 0x01000000
  | .hbmst _ => 2
  | .pwst => 0x2AA
  | _ => 0

/-- The value of a management register. -/
def mreg (s : State) (r : MReg) : Word := tget (regReset r) s.mgmt (regKey r)

/-- Set a management register, as the hardware does. -/
def setMreg (s : State) (r : MReg) (v : Word) : State := { s with mgmt := tset (regReset r) (regKey r) v s.mgmt }

/-- Change a management register, as the hardware does. -/
def modMreg (s : State) (r : MReg) (f : Word → Word) : State := setMreg s r (f (mreg s r))

/-- Whether CKCTL.BUSY holds back operations of the control complex (R416). -/
def ckBusy (s : State) : Bool := bitAt (mreg s .ckctl) 1

/-- A management write that takes effect only after CKCTL.BUSY clears (R416). -/
def deferWrite (s : State) (r : MReg) (v : Word) : State := { s with ckptWait := s.ckptWait ++ [(r, v)] }

/-- This package's fabric number (Table 15-7). -/
def chipNo (s : State) : Nat := bits (mreg s .fabcfg) 63 54

end Sys2Proof.Machine
end

