-- ==== Sys2Proof/Machine/Flags.lean ====
section
/-!
DEFINITION. The flags and what they do beside the arithmetic that raises them (Sys2Proof.Machine.Float): the trap
enables and the rounding mode of FPC, a write of FLG, the trap of a result and its cause (R43 to R46, R85).
-/
namespace Sys2Proof.Machine

open Sys2Proof

/-- The trap enables of FPC in the order of FLG's bits (Tables 2-6, 2-7). -/
def trapEnables (fpc : Word) : Flags := BitVec.ofNat 6 (bits fpc 13 8)

/-- The dynamic rounding mode (Table 2-6); the reserved value is never written (R43). -/
def dynMode (fpc : Word) : RMode := match bits fpc 1 0 with | 1 => .rtz | 2 => .srne | _ => .rne

/-- FLG with the flags of a result that has landed (R44). -/
def raiseFlags (flg : Word) (f : Flags) : Word := flg ||| BitVec.setWidth 64 f

/-- FLG after a SETC: bits written as one stay, bits written as zero are cleared (R85). -/
def clearFlags (flg v : Word) : Word := flg &&& v &&& 0x3F

/-- FPC as a SETC or a program header leaves it: reserved fields are zero (R5, R85, Table 2-6). -/
def fpcOf (v : Word) : Word := v &&& 0x3F03

/-- The OR of the flags of some lanes (R44). -/
def orFlags (l : List Flags) : Flags := l.foldl (fun a f => a ||| f) 0

/-- The cause of an arithmetic trap: SAT, NV, DZ, OF, UF, NX in this order (R46). -/
def trapCause (f : Flags) : Nat :=
  if f &&& fSAT ≠ 0 then Cause.fpSat
  else if f &&& fNV ≠ 0 then Cause.fpNv
  else if f &&& fDZ ≠ 0 then Cause.fpDz
  else if f &&& fOF ≠ 0 then Cause.fpOf
  else if f &&& fUF ≠ 0 then Cause.fpUf
  else Cause.fpNx

/-- Whether an effect in flight traps when it lands (R45). -/
def Eff.traps (e : Eff) : Bool := !e.dead && (decide (e.flags &&& e.en ≠ 0) || decide (e.land = .angle))

end Sys2Proof.Machine
end

