-- ==== Sys2Proof/Machine/Memory.lean ====
section
/-!
DEFINITION. Memory: bytes and words, the tiers and their ordering points, the buffers a write passes (R276 to R281),
atoms with uncorrectable data (R340 to R344), scratchpads and the places of an extent's bytes (R24, R25).
-/
namespace Sys2Proof.Machine

open Sys2Proof

/-! ### Bytes -/

/-- The number a little-endian string of bytes holds (R1). -/
def leNat : List Byte → Nat
  | [] => 0
  | b :: t => b.toNat + 256 * leNat t

/-- The `n` low bytes of a number, lowest first. -/
def natBytes : Nat → Nat → List Byte
  | 0, _ => []
  | n + 1, v => BitVec.ofNat 8 v :: natBytes n (v / 256)

/-- The 64-bit words of a byte string. -/
def wordsOf : List Byte → List Word
  | a :: b :: c :: d :: e :: f :: g :: h :: t => wordOf (leNat [a, b, c, d, e, f, g, h]) :: wordsOf t
  | _ => []

/-- The bytes of a list of 64-bit words. -/
def bytesOf : List Word → List Byte
  | [] => []
  | w :: t => natBytes 8 w.toNat ++ bytesOf t

/-- The canonical form of a store of bytes (log 1): places rise strictly, and no byte that an unlisted place reads as is listed. -/
def Memory.wf (m : List Host.Cell) : Bool := twf 0 m

/-- The byte of a table of bytes at place `a`; an unlisted byte is 0 (log 1). -/
def cellAt (m : List Host.Cell) (a : Nat) : Byte := tget 0 m a

/-- Put a byte into a table of bytes. -/
def cellPut (a : Nat) (b : Byte) (m : List Host.Cell) : List Host.Cell := tset 0 a b m

/-- The `n` bytes from place `a` on. -/
def cellsAt (m : List Host.Cell) (a n : Nat) : List Byte := (countUp a n).map (cellAt m)

/-- Put a string of bytes at place `a`. -/
def cellsPut (a : Nat) : List Byte → List Host.Cell → List Host.Cell
  | [], m => m
  | b :: t, m => cellsPut (a + 1) t (cellPut a b m)

/-- Put bytes at the places they name, in order. -/
def cellsPutAll : List (Nat × Byte) → List Host.Cell → List Host.Cell
  | [], m => m
  | (a, b) :: t, m => cellsPutAll t (cellPut a b m)

/-- Whether two ranges of bytes meet. -/
def meets (a n b m : Nat) : Bool := decide (a < b + m) && decide (b < a + n)

/-- Whether two ranges of bytes meet one 64-byte unit (R277, R278). -/
def unitsMeet (a n b m : Nat) : Bool :=
  decide (n ≠ 0) && decide (m ≠ 0) && decide (a / 64 ≤ (b + m - 1) / 64) && decide (b / 64 ≤ (a + n - 1) / 64)

/-! ### Cores and seats -/

/-- The core numbered die × 96 + core. -/
def coreAt (s : State) (c : Nat) : Core := tget {} s.cores c

/-- Replace a core. -/
def setCore (s : State) (c : Nat) (k : Core) : State := { s with cores := tput c k s.cores }

/-- Change a core. -/
def modCore (s : State) (c : Nat) (f : Core → Core) : State := setCore s c (f (coreAt s c))

/-- A seat of a core. -/
def seatOf (k : Core) (n : Nat) : Seat := tget {} k.seats n

/-- Replace a seat of a core. -/
def putSeat (k : Core) (n : Nat) (t : Seat) : Core := { k with seats := tput n t k.seats }

/-- A seat of the package. -/
def seatAt (s : State) (c n : Nat) : Seat := seatOf (coreAt s c) n

/-- Change a seat of the package. -/
def modSeat (s : State) (c n : Nat) (f : Seat → Seat) : State :=
  modCore s c fun k => putSeat k n (f (seatOf k n))

/-- The die a core belongs to. -/
def dieOfCore (c : Nat) : Nat := c / 96

/-- A die. -/
def dieAt (s : State) (d : Nat) : Die := tget {} s.dies d

/-- Change a die. -/
def modDie (s : State) (d : Nat) (f : Die → Die) : State := { s with dies := tput d (f (dieAt s d)) s.dies }

/-- A queue. -/
def queueAt (s : State) (q : Nat) : Queue := tget {} s.queues q

/-- Change a queue. -/
def modQueue (s : State) (q : Nat) (f : Queue → Queue) : State :=
  { s with queues := tput q (f (queueAt s q)) s.queues }

/-- TENANT, QUEUE and LSEQ of a task word (Table 10-1). -/
def taskTenant (w : Word) : Nat := bits w 63 48
/-- QUEUE of a task word. -/
def taskQueue (w : Word) : Nat := bits w 47 42
/-- LSEQ of a task word. -/
def taskLseq (w : Word) : Nat := bits w 31 0

/-! ### The tiers -/

/-- The bytes of a tier that the package holds: 96 GiB of HBM4, 1,536 GiB and 64 GiB of LPDDR-6, 64 TiB of pool
(R337, R342, R343, R408). -/
def tierSize : Nat → Nat
  | 2 => 96 * 2 ^ 30
  | 3 => 1536 * 2 ^ 30
  | 4 => 64 * 2 ^ 40
  | 5 => 64 * 2 ^ 30
  | _ => 0

/-- A tier at its ordering points. -/
def tierMem (s : State) : Nat → List Host.Cell
  | 2 => s.t2
  | 3 => s.t3
  | 4 => s.t4
  | 5 => s.t5
  | _ => []

/-- Replace a tier. -/
def setTier (s : State) (t : Nat) (m : List Host.Cell) : State :=
  match t with
  | 2 => { s with t2 := m }
  | 3 => { s with t3 := m }
  | 4 => { s with t4 := m }
  | 5 => { s with t5 := m }
  | _ => s

/-- Whether the tier has all of the bytes of an access. -/
def tierHas (t a n : Nat) : Bool := decide (a + n ≤ tierSize t)

/-- Note an access to bytes beyond the end of a tier (R337, R342, R343, log 3).  A register that names no memory by its TIER reaches nothing
at all. -/
def touch (s : State) (t a n : Nat) : State :=
  if tierHas t a n || decide (t < 2) || decide (5 < t) then s
  else match s.bad with
    | some _ => s
    | none => { s with bad := some (.noSuchAddress t a) }

/-- The 64-byte units an access meets. -/
def unitsOf (a n : Nat) : List Nat := if n = 0 then [] else countUp (a / 64) ((a + n - 1) / 64 - a / 64 + 1)

/-- The 64 KiB units of tier 3 that a write makes dirty (R416). -/
def markDirty (d : Tbl Bool) : List Nat → Tbl Bool
  | [] => d
  | k :: t => markDirty (tput k true d) t

/-- Post a notice that belongs to no queue, in the management fault log (log 13). -/
def postMgmt (s : State) (cause : Nat) (info : Word) : State := { s with mlog := s.mlog ++ [(cause, info)] }

/-- The controller that holds a unit of a tier: the channel of its 256-byte block (R337, R342). -/
def controllerOf (t u : Nat) : Nat := if t = 2 then u / 4 % 128 else u / 4 % 48

/-- Change the status register of a unit's controller; only tiers 2 and 3 have one (R341, R342). -/
def modStatus (s : State) (t u : Nat) (f : Word → Word) : State :=
  if t = 2 then modMreg s (.hbmst (controllerOf t u)) f
  else if t = 3 then modMreg s (.lpst (controllerOf t u)) f
  else s

/-- Count an uncorrectable atom read (Table 17-1, R340). -/
def countUe (s : State) (t u : Nat) : State := modStatus s t u fun w => setBits w 39 24 (bits w 39 24 + 1)

/-- Count a corrected atom (Table 17-1, R340), and post MEM_CE_RATE once a controller's corrected errors within 2^30 cy exceed CERATE
(R345, log 35). -/
def countCe (s : State) (t u : Nat) : State :=
  let s := modStatus s t u fun w => setBits w 23 8 (bits w 23 8 + 1)
  let c := controllerOf t u
  let l := (s.cerr.filter fun x => decide (s.gts < x.2.2 + 2 ^ 30)) ++ [(t, c, s.gts)]
  let own := fun (x : Nat × Nat × Nat) => decide (x.1 = t) && decide (x.2.1 = c)
  let lim := bits (mreg s .cerate) 31 0
  if lim ≠ 0 ∧ lim < (l.filter own).length then
    postMgmt { s with cerr := l.filter fun x => !own x } Cause.memCeRate (wordOf (256 * t + c))
  else { s with cerr := l }

/-- The controller reads some atoms (R340): an uncorrectable one is counted, a correctable one is counted, corrected and written back. -/
def readAtoms (t : Nat) : List Nat → State → State
  | [], s => s
  | u :: r, s =>
    readAtoms t r
      (if s.poison.contains (t, u) then countUe s t u
       else if s.soft.contains (t, u) then countCe { s with soft := s.soft.filter fun p => decide (p ≠ (t, u)) } t u
       else s)

/-- The atoms that a write covers only in part: the controller reads them to merge the new bytes (R341). -/
def mergedUnits (a n : Nat) : List Nat := (unitsOf a n).filter fun u => !(decide (a ≤ 64 * u) && decide (64 * u + 64 ≤ a + n))

/-- A write takes its place at the ordering point (R276, R341): it merges into the atoms it covers in part, marks dirty units and clears the
error marks of every atom it covers whole. -/
def rawWrite (s : State) (t a : Nat) (bs : List Byte) : State :=
  let s := readAtoms t (mergedUnits a bs.length) s
  let s := setTier s t (cellsPut a bs (tierMem s t))
  let whole := fun (p : Nat × Nat) => decide (p.1 = t) && decide (a ≤ 64 * p.2) && decide (64 * p.2 + 64 ≤ a + bs.length)
  let s := { s with poison := s.poison.filter fun p => !whole p, soft := s.soft.filter fun p => !whole p }
  if t = 3 ∧ bs ≠ [] then
    { s with dirty := markDirty s.dirty (countUp (a / 65536) ((a + bs.length - 1) / 65536 - a / 65536 + 1)) }
  else s

/-- The host decoder of the CXL pool that covers an offset: the lowest number (R344; the words' layout is log 10). -/
def cxlDecoder (s : State) (a : Nat) : List Nat → Option Nat
  | [] => none
  | k :: t =>
    let base := bits (mreg s (.cxldec (3 * k))) 45 28 * 2 ^ 28
    let len := bits (mreg s (.cxldec (3 * k + 1))) 46 28 * 2 ^ 28
    if base ≤ a ∧ a < base + len then some k else cxlDecoder s a t

/-- The root port that serves an offset under a decoder: the decoder's ports, interleaved at its granularity (R344). -/
def cxlPort (s : State) (k a : Nat) : Nat :=
  let w := mreg s (.cxldec (3 * k + 2))
  let ports := (List.range 8).filter fun i => bitAt w i
  let base := bits (mreg s (.cxldec (3 * k))) 45 28 * 2 ^ 28
  lget 0 ports ((a - base) / (256 * 2 ^ bits w 10 8) % (if ports.length = 0 then 1 else ports.length))

/-- The first offset of each piece of an access to the pool that one decoder and one root port serve: decoders and ports change at multiples
of 256 bytes only (R344). -/
def cxlPieces (a n : Nat) : List Nat :=
  if n = 0 then [] else (countUp (a / 256) ((a + n - 1) / 256 - a / 256 + 1)).map fun b => max a (256 * b)

/-- The root port that serves an offset of the pool, if a decoder covers it. -/
def cxlPortAt (s : State) (a : Nat) : Option Nat := (cxlDecoder s a (List.range 16)).map fun k => cxlPort s k a

/-- What stops an access to the pool before its data is looked at: a piece that no decoder covers, a port that has lost its link (R344). -/
def cxlRefusal (s : State) (a n : Nat) : Option Nat :=
  let ps := (cxlPieces a n).map (cxlPortAt s)
  if ps.any (·.isNone) then some Cause.cxlPoison
  else if ps.any (fun p => match p with | some p => s.cxlDown.contains p | none => false) then some Cause.cxlTimeout
  else none

/-- Whether a tier is the HBM4 stage while it is out of D0: an access to it completes with PEER_DOWN and moves no byte (R415). -/
def stageOff (s : State) (t : Nat) : Bool := decide (t = 2) && decide (s.hbmPower ≠ 0)

/-- What stops an access to a tier before its data is looked at: the pool's failures (R344), the HBM4 stage out of D0
(R415). -/
def accessRefusal (s : State) (t a n : Nat) : Option Nat :=
  if t = 4 then cxlRefusal s a n else if stageOff s t then some Cause.peerDown else none

/-- Whether a channel of the HBM4 stage that holds a byte of an access is changing its width and issues nothing (R338). -/
def widthWait (s : State) (t a n : Nat) : Bool :=
  decide (t = 2) && (unitsOf a n).any fun u => s.widthBusy.contains (controllerOf 2 u)

/-- The first poisoned unit among some. -/
def firstPoison (s : State) (t : Nat) : List Nat → Option Nat
  | [] => none
  | u :: r => if s.poison.contains (t, u) then some u else firstPoison s t r

/-- What stops a read before its data is looked at: besides that, a pool read that gets no completion within CXLTO cy (R344). -/
def readRefusal (s : State) (t a n : Nat) : Option Nat :=
  match accessRefusal s t a n with
  | some c => some c
  | none => if t = 4 ∧ (cxlPieces a n).any (fun b => match cxlPortAt s b with | some p => s.cxlLost.contains p | none => false) then
      some Cause.cxlTimeout else none

/-- The pool reads under the root ports of an access that got no completion have ended (R344). -/
def lostEnd (s : State) (t a n : Nat) : State :=
  if t = 4 then { s with cxlLost := s.cxlLost.filter fun p => !(cxlPieces a n).any fun b => decide (cxlPortAt s b = some p) } else s

/-- The byte of a tier that an observer reads (R280): from its die's buffer, for tier 4 from the port buffer (buffer 4),
else at the ordering point. -/
def bufByte (t a : Nat) (buf : Nat) : List BufWr → Option Byte
  | [] => none
  | w :: r =>
    match bufByte t a buf r with
    | some b => some b
    | none =>
      if w.buf = buf ∧ w.tier = t ∧ w.addr ≤ a ∧ a < w.addr + w.bytes.length then some (lget 0 w.bytes (a - w.addr))
      else none

/-- The byte of a tier that an observer's buffers hold for it (R280). -/
def bufferedByte (s : State) (die : Option Nat) (t a : Nat) : Option Byte :=
  match (match die with | some d => bufByte t a d s.wbuf | none => none) with
  | some b => some b
  | none => if t = 4 then bufByte t a 4 s.wbuf else none

/-- The byte an observer reads: `die` is its die, or none for a package agent. -/
def obsByte (s : State) (die : Option Nat) (t a : Nat) : Byte := (bufferedByte s die t a).getD (cellAt (tierMem s t) a)

/-- The atoms of an access that have a byte which no buffer serves: those the memory itself reads (R280, R340). -/
def atomsRead (s : State) (die : Option Nat) (t a n : Nat) : List Nat :=
  (unitsOf a n).filter fun u =>
    (countUp a n).any fun i => decide (i / 64 = u) && (bufferedByte s die t i).isNone

/-- A read by an observer: the state (its atoms are counted where they hold an error), the cause that makes it fail, and the bytes. -/
def memRead (s : State) (die : Option Nat) (t a n : Nat) : State × Option Nat × List Byte :=
  if !tierHas t a n then (touch s t a n, some Cause.remoteUe, (countUp a n).map fun _ => 0)
  else
    let bs := (countUp a n).map (obsByte s die t)
    match readRefusal s t a n with
    | some c => (lostEnd s t a n, some c, bs)
    | none =>
      let us := atomsRead s die t a n
      (readAtoms t us s, (firstPoison s t us).map fun _ => if t = 4 then Cause.cxlPoison else Cause.remoteUe, bs)

/-- The 64-byte unit at which a read fails (Table 11-3): the first that the memory reads and that holds an error, else the read's first. -/
def failUnit (s : State) (die : Option Nat) (t a n : Nat) : Nat :=
  match firstPoison s t (atomsRead s die t a n) with
  | some u => 64 * u
  | none => a

/-- A write enters the buffer it passes first (R280): `buf` is a die, 4 the port buffer, 5 a package agent's write that
nobody sees before it arrives. -/
def memEnqueue (s : State) (w : BufWr) : State :=
  let s := touch s w.tier w.addr w.bytes.length
  if tierHas w.tier w.addr w.bytes.length then { s with wbuf := s.wbuf ++ [w] } else s

/-- A strong write or a record the hardware writes at package scope: it is at its ordering point at once (R243, R281). -/
def memStrong (s : State) (t a : Nat) (bs : List Byte) : State :=
  let s := touch s t a bs.length
  if tierHas t a bs.length && !stageOff s t then rawWrite s t a bs else s

/-! ### Scratchpads -/

/-- The swizzle of an extent's offset (R25). -/
def swizzle (span o : Nat) : Nat :=
  let u := o / 16
  let k := o / 1024
  ((u ^^^ (k % 2 ^ span)) * 16) + o % 16

/-- The scratchpad offset of the byte at an extent's offset (R25); the base of a tier 1 extent holds it in [21:0]. -/
def spadPhys (e : Ext) (o : Nat) : Nat := (e.base % 2 ^ 22 + (if e.tier = 0 then swizzle e.span o else o)) % 2 ^ 22

/-- The scratchpad offsets of `n` bytes of an extent. -/
def spadPlaces (e : Ext) (o n : Nat) : List Nat := (countUp o n).map (spadPhys e)

/-- The bytes at some scratchpad offsets. -/
def spadGet (k : Core) (ps : List Nat) : List Byte := ps.map (cellAt k.spad)

/-- The position of the first byte that holds an uncorrectable error (R109). -/
def spadErr (k : Core) : Nat → List Nat → Option Nat
  | _, [] => none
  | i, p :: t => if k.spadUe.contains p then some i else spadErr k (i + 1) t

/-- Whether a condition of WAITF holds of a word (R93). -/
def wcndHolds (c : WCnd) (w b : Word) : Bool :=
  match c with
  | .eq => decide (w = b)
  | .ne => decide (w ≠ b)
  | .geu => decide (b.toNat ≤ w.toNat)
  | .any => decide (w &&& b ≠ 0)

/-- A seat after a write to the scratchpad: a watched word that was written and meets its condition wakes it (R94). -/
def wakeSeat (k : Core) (ps : List Nat) (t : Seat) : Seat :=
  match t.wait with
  | some (.word ph b c) =>
    if ph.any (fun p => ps.contains p) && wcndHolds c (wordOf (leNat (spadGet k ph))) b then
      { t with wait := none, st := if t.st = .parked then .ready else t.st }
    else t
  | _ => t

/-- Wake every seat whose watched word meets its condition. -/
def wakeSeats (k : Core) (ps : List Nat) : Core :=
  { k with seats := k.seats.map fun p => (p.1, wakeSeat k ps p.2) }

/-- Write bytes into a core's scratchpad: errors in the written bytes are gone, watched words are tested (R94, R109). -/
def spadPut (k : Core) (ws : List (Nat × Byte)) : Core :=
  let ps := ws.map (·.1)
  wakeSeats { k with spad := cellsPutAll ws k.spad, spadUe := k.spadUe.filter fun p => !ps.contains p } ps

/-! ### Integrity -/

/-- One bit of a reflected CRC-32C. -/
def crcBit (c : Nat) : Nat := if c % 2 = 1 then (c / 2) ^^^ 0x82F63B78 else c / 2

/-- One byte of a CRC-32C. -/
def crcByte (c : Nat) (b : Byte) : Nat :=
  let x := c ^^^ b.toNat
  crcBit (crcBit (crcBit (crcBit (crcBit (crcBit (crcBit (crcBit x)))))))

/-- CRC-32C of a byte string, continuing from `seed` (R194): initial value NOT seed, final inversion. -/
def crc32c (seed : W32) (bs : List Byte) : W32 :=
  ~~~ (BitVec.ofNat 32 (bs.foldl crcByte (~~~ seed).toNat))

end Sys2Proof.Machine
end

