-- ==== Sys2Proof/Machine/Ops.lean ====
section
/-!
DEFINITION. The named operations over the state that the meanings share: the outcome of a meaning, the records of the
fault ring (R243 to R245), the extent check (R105), effects in flight (R13, R63), taking a stop and resuming from one
(R240 to R248), the arbiter (R232), and the control registers a task reads (R26, R84).
-/
namespace Sys2Proof.Machine

open Sys2Proof

/-- What a meaning answers. -/
abbrev Out := Host.Outcome State Fault Refusal

/-! ### Free values -/

/-- A byte the spec leaves open, and the state that has drawn it (log 4). -/
def drawByte (s : State) : Byte × State := (Config.freeByte s.fresh, { s with fresh := s.fresh + 1 })

/-- `n` bytes the spec leaves open (log 4). -/
def drawBytes (s : State) (n : Nat) : List Byte × State :=
  ((countUp s.fresh n).map Config.freeByte, { s with fresh := s.fresh + n })

/-- A word the spec leaves open (log 4). -/
def drawWord (s : State) : Word × State := (Config.freeWord s.fresh, { s with fresh := s.fresh + 1 })

/-! ### Fault records and notices -/

/-- Put the parts of a word together, each shifted to its place. -/
def pack : List (Nat × Nat) → Word
  | [] => 0
  | (v, lo) :: t => wordOf (v * 2 ^ lo) ||| pack t

/-- Word 1 of a fault record for a task at a seat (Table 11-2). -/
def recWord1 (s : State) (task tco : Word) (c n : Nat) : Word :=
  pack [(taskTenant task, 48), (taskQueue task, 42), (chipNo s, 32), (c / 96, 30), (c % 96, 23), (n, 21),
        (bits tco 19 0, 0)]

/-- A notice (R243): FADDR, RADDR and FLGS are zero, SP is 3, and no slot is named. -/
def noticeOf (s : State) (lseq : Nat) (word1 : Word) (cause : Nat) (cause2 : Option Nat) (info0 info1 : Word) : StopRec :=
  { nt := true, sp := 3, cause := cause, cause2 := cause2, slot := 63, lseq := lseq, word1 := word1, faddr := 0,
    raddr := 0, info0 := info0, info1 := info1, gts := s.gts, flgs := 0 }

/-- Send a record on its way to a queue's fault ring (R245). -/
def postRec (s : State) (q : Nat) (who : Option Nat) (r : StopRec) : State :=
  modQueue s q fun x => { x with recs := x.recs ++ [(who, r)] }

/-- Post a notice about a task at a seat. -/
def postTask (s : State) (task tco : Word) (c n : Nat) (cause : Nat) (cause2 : Option Nat) (info0 info1 : Word) : State :=
  postRec s (taskQueue task) none (noticeOf s (taskLseq task) (recWord1 s task tco c n) cause cause2 info0 info1)

/-- Post a notice about a queue rather than a task (R243: fields that do not apply are zero). -/
def postQueue (s : State) (q : Nat) (lseq cause : Nat) (cause2 : Option Nat) (info0 info1 : Word) : State :=
  postRec s q none (noticeOf s lseq
    (pack [(bits (mreg s (.qcfg q)) 63 48, 48), (q, 42), (chipNo s, 32)]) cause cause2 info0 info1)

/-- The eight words of a record at ring position `rseq` (Table 11-2). -/
def recWords (r : StopRec) (rseq : Nat) : List Word :=
  [pack [(1, 63), (if r.nt then 1 else 0, 62), (r.sp, 60), (if r.cause2.isSome then 1 else 0, 59), (r.slot, 53),
         (r.cause, 40), (r.cause2.getD 0, 32), (r.lseq, 0)],
   r.word1, pack [(r.raddr % 2 ^ 24, 32), (r.faddr % 2 ^ 24, 0)], r.info0, r.info1, wordOf r.gts, r.flgs,
   wordOf (rseq % 2 ^ 32)]

/-- Whether the boot ROM has released the harts (R410). -/
def booted (s : State) : Bool := match s.boot with | .run _ => true | _ => false

/-- A launch struck by an uncorrectable error: the scheduler's rollback follows in this cycle (R263). -/
def strike (s : State) (task : Word) (tier addr : Nat) : State :=
  let q := taskQueue task
  let s := modQueue s q fun x => { x with struck := x.struck ++ [(taskLseq task, tier, addr)] }
  { s with turn := s.turn ++ [.rollback (Fin.ofNat 64 q) tier addr] }

/-! ### The core being performed -/

/-- The core whose group or step is being performed. -/
def cc (s : State) : Core := coreAt s s.cur

/-- The seat that issues on that core. -/
def cn (s : State) : Nat := (cc s).cur.getD 0

/-- That seat's registers. -/
def cs (s : State) : Seat := seatOf (cc s) (cn s)

/-- Change the core being performed. -/
def onCore (s : State) (f : Core → Core) : State := modCore s s.cur f

/-- Change the seat that issues. -/
def onSeat (s : State) (f : Seat → Seat) : State := modSeat s s.cur (cn s) f

/-- Change the group being performed. -/
def onGrp (s : State) (f : Grp → Grp) : State := onCore s fun k => { k with grp := f k.grp }

/-- Note a cause that stops the task at the boundary after the group (R86, R105, R126). -/
def addCause (s : State) (rank cause slot : Nat) (info0 info1 : Word) : State :=
  let f := (cc s).grp.addr
  onSeat s fun t => { t with causes := t.causes ++ [⟨rank, cause, slot, f, info0, info1⟩] }

/-- The bundle whose syllables are being performed: 0 for the first of the group, 1 for the second (R60). -/
def bundleNo (s : State) : Nat := if (cc s).grp.bpc = (cc s).grp.addr then 0 else 1

/-- An effect of the group being performed that lands `lat` counted cycles after issue (R13). -/
def effOf (s : State) (slot lat : Nat) (land : Land) (flags : Flags) (info1 : Word) : Eff :=
  { due := (cc s).ct + lat, seat := cn s, sw := (cc s).sw, grp := (cc s).grp.addr, slot := slot, land := land,
    flags := flags, en := trapEnables (cs s).fpc, info1 := info1, iss := (cc s).ct, bun := bundleNo s, dead := false }

/-- Put an effect in flight. -/
def emitEff (s : State) (e : Eff) : State := onCore s fun k => { k with effs := k.effs ++ [e] }

/-- Put an effect in flight at its native latency. -/
def emit (s : State) (slot lat : Nat) (land : Land) : State := emitEff s (effOf s slot lat land 0 0)

/-- Put an effect in flight that has raised flags. -/
def emitF (s : State) (slot lat : Nat) (land : Land) (flags : Flags) : State := emitEff s (effOf s slot lat land flags 0)

/-- The latency of an instruction with a compatibility latency, and the freezes V = 1 adds (R63). -/
def compat (s : State) (ln lc : Nat) : Nat × State :=
  if (cc s).grp.ver = 1 then (lc, onGrp s fun g => { g with v1hold := max g.v1hold (ln - lc) }) else (ln, s)

/-- The latch of a slot (R12): l0 to l5 as 0 to 5. -/
def latchOf : Nat → Nat
  | 0 => 0 | 1 => 1 | 2 => 4 | 3 => 2 | 4 => 3 | 25 => 5 | _ => 6

/-! ### The extent check -/

/-- Table 5-1: the first check that fails.  `align` is what the offset must be a multiple of, `size` the bytes reached. -/
def extCheck (e : Ext) (tiers : List Nat) (rd wr : Bool) (align off size : Nat) : Option Nat :=
  if !e.v then some Cause.extInvalid
  else if !tiers.contains e.tier then some Cause.extTier
  else if e.rv then some Cause.extRevoked
  else if e.dm then some Cause.extDemand
  else if rd && !e.rd then some Cause.extRead
  else if wr && !e.w then some Cause.extWrite
  else if off % align ≠ 0 then some Cause.memAlign
  else if e.len * 64 < off + size then some Cause.extBound
  else none

/-- Extent `i` of a seat. -/
def extOf (t : Seat) (i : Nat) : Ext := tget {} t.ext i

/-- The descriptor a task reads (Table 1-3a).  LEN of an extent of exactly 256 GiB, 2^32 units, does not fit its 32 bits and reads 0, while
the checks take the whole length (R23, R227; DESIGN CHOICE, log 40). -/
def extWord (e : Ext) : Word :=
  pack [(if e.tier = 0 then e.span else 0, 40), (e.len % 2 ^ 32, 8), (if e.v then 1 else 0, 7), (if e.dm then 1 else 0, 6),
        (if e.rv then 1 else 0, 5), (if e.w then 1 else 0, 4), (if e.rd then 1 else 0, 3), (e.tier, 0)]

/-- Count bank accesses of the group (R24): one for each 16-byte bank word. -/
def useBanks (s : State) (ps : List Nat) : State :=
  onGrp s fun g => { g with banks := g.banks ++ (ps.map fun p => p / 16 % 64) }

/-- The first byte of each 16-byte bank word that some places in order fall into. -/
def bankWords : List Nat → List Nat
  | [] => []
  | p :: t =>
    match bankWords t with
    | [] => [p]
    | q :: r => if p / 16 = q / 16 then p :: r else p :: q :: r

/-! ### Control registers -/

/-- The pace gap of a queue: the largest among the running streams that name it as a consumer (R235). -/
def paceGap (s : State) (q : Nat) : Nat :=
  (s.streams.map (·.2)).foldl (fun m t => if t.st ≠ 0 ∧ bitAt t.tcons q then max m t.gap else m) 0

/-- The value of a control register for a seat (Table 1-3); an index that does not exist reads 0 and is never read,
because an instruction that names it does not issue (R26, R64). -/
def ctlRead (s : State) (c n idx : Nat) : Word :=
  let k := coreAt s c
  let t := seatOf k n
  match idx with
  | 0x000 => wordOf s.cyc
  | 0x001 => wordOf s.gts
  | 0x002 => pack [(k.ofrz.toNat, 32), (k.gfrz.toNat, 0)]
  | 0x003 => wordOf (bits (mreg s (.pwl c)) 15 0)
  | 0x010 => t.task
  | 0x011 => t.tco
  | 0x012 => t.dmem
  | 0x013 => wordOf t.qrank
  | 0x014 => pack [(chipNo s, 22), (c / 96, 14), (c % 96, 7), (n, 0)]
  | 0x040 => t.fpc
  | 0x041 => t.flg
  | 0x050 => wordOf (paceGap s (taskQueue t.task) % 2 ^ 24)
  | _ =>
    if 0x20 ≤ idx ∧ idx ≤ 0x27 then (if t.hasA then tget 0 k.tg (idx - 0x20) else 0)
    else if 0x100 ≤ idx ∧ idx ≤ 0x10F then extWord (extOf t (idx - 0x100))
    else 0

/-- Add a weight to the present cycle of a core's window (R236). -/
def addWeight (k : Core) (w : Nat) : Core :=
  { k with win := match k.win with | x :: t => (x + w) :: t | [] => [w] }

/-! ### Stops -/

/-- The trap of an effect as a cause of rank 1 (R242, Table 11-3).  A rotator row that applies a word with N > 25 and raises an enabled flag
too reports ROT_ANGLE, which no enable selects (R52; DEDUCED, log 20).  FADDR is the address of the group (Table 11-1), also where the
syllable stands in its second bundle, which R45 names (DEDUCED, log 19). -/
def trapOf (e : Eff) : PCause :=
  ⟨1, if e.land = .angle then Cause.rotAngle else trapCause (e.flags &&& e.en), e.slot, e.grp, wordOf e.flags.toNat, e.info1⟩

/-- Insert by landing cycle; in one cycle the earlier-issued group comes first, and within a group the earlier slot (R46). -/
def byDue (e : Eff) : List Eff → List Eff
  | [] => [e]
  | x :: t =>
    if e.due < x.due ∨ (e.due = x.due ∧ (e.iss < x.iss ∨ (e.iss = x.iss ∧ e.slot < x.slot))) then e :: x :: t
    else x :: byDue e t

/-- One effect for each syllable. -/
def onePerSyl : List Eff → List Eff
  | [] => []
  | e :: t => e :: (onePerSyl t).filter fun x => !(decide (x.due = e.due) && decide (x.grp = e.grp) && decide (x.slot = e.slot))

/-- The effects of a seat in flight that will trap, in the order in which their results land (R46). -/
def pendingTraps (k : Core) (n : Nat) : List Eff :=
  onePerSyl ((k.effs.filter fun e => decide (e.seat = n) && e.traps).foldl (fun l e => byDue e l) [])

/-- SP of a cause by its rank (Table 11-1); 6 stands for a FREEZE_LONG of a completion freeze. -/
def spOfRank (r : Nat) : Nat := if r ≤ 1 then 2 else if r = 2 ∨ r = 3 ∨ r = 6 then 1 else 0

/-- Insert a cause by rank; among equal ranks the order of arrival stands, except that rank 2 goes by slot (R242). -/
def byRank (p : PCause) : List PCause → List PCause
  | [] => [p]
  | x :: t => if p.rank < x.rank ∨ (p.rank = x.rank ∧ p.rank = 2 ∧ p.slot < x.slot) then p :: x :: t else x :: byRank p t

/-- Take the running seat off its core (R11, R241): latches zero, the arbiter chooses among the others from the next cycle on. -/
def vacate (k : Core) (n : Nat) : Core :=
  if k.cur = some n then
    { k with cur := none, last := n, choose := true, idle := true, gap := 0, waits := [], frz := 0, latch := [], vlatch := [], sw := k.sw + 1 }
  else k

/-- TAKE A STOP (R240 to R243): the causes of one boundary are ranked, the first two recorded, and of several syllables that trap the one
whose result lands first is reported and enters its flags (R46); the seat stops, the
record goes to its queue's ring, and the core is left to the other seats.  `raddr` is where the seat would issue next; a trap that waited
for a completion freeze stands among the causes, and none in flight lands before it. -/
def takeStop (s : State) (c n : Nat) (own : List PCause) (raddr : Nat) : State :=
  let k := coreAt s c
  let t := seatOf k n
  let traps := if own.any (fun p => decide (p.rank ≤ 1)) then [] else pendingTraps k n
  match (own.foldl (fun l p => byRank p l) ((traps.take 1).map trapOf)) with
  | [] => s
  | f :: rest =>
    let fl : Flags := (traps.take 1).foldl (fun a e => a ||| e.flags) 0
    let flg := t.flg ||| BitVec.setWidth 64 fl
    let ra := match t.retire with | some r => r.raddr | none => raddr
    let r : StopRec :=
      { nt := false, sp := spOfRank f.rank, cause := f.cause, cause2 := rest.head?.map (·.cause), slot := f.slot,
        lseq := taskLseq t.task, word1 := recWord1 s t.task t.tco c n, faddr := f.faddr, raddr := ra, info0 := f.info0,
        info1 := f.info1, gts := s.gts, flgs := flg }
    let t' : Seat := { t with st := .stopped, pc := wordOf ra, flg := flg, causes := [], retire := none,
                              stop := some (r, false) }
    let k := { k with effs := k.effs.map fun e => if e.seat = n ∧ e.traps then { e with dead := true } else e,
                      seqr := k.seqr.map fun q => if q.seat = n then { q with run := false } else q }
    let s := setCore s c (vacate (putSeat k n t') n)
    let s := postRec s (taskQueue t.task) (some (4 * c + n)) r
    if f.cause = Cause.spadUe then strike s t.task 0 (spadPhys (extOf t (bits f.info1 3 0)) f.info0.toNat)
    else if f.cause = Cause.remoteUe ∨ f.cause = Cause.cxlPoison then
      let e := extOf t (bits f.info0 51 48)
      strike s t.task e.tier (if e.tier ≤ 1 then spadPhys e (bits f.info0 39 0) else e.base + bits f.info0 39 0)
    else s

/-- Stop a task without a record, for RESET, a rollback or a checkpoint (R238, R263, R416). -/
def silentStop (s : State) (c n : Nat) : State :=
  let k := coreAt s c
  let t := seatOf k n
  let t' : Seat := { t with st := .stopped, causes := [], retire := none, stopReq := none, stop := none,
                            pc := match t.retire with | some r => wordOf r.raddr | none => t.pc }
  let k := { k with seqr := k.seqr.map fun q => if q.seat = n then { q with run := false } else q }
  setCore s c (vacate (putSeat k n t') n)

/-- Whether a seat stands in a completion freeze: its group is not complete before it ends (R14, R45). -/
def inFreeze (k : Core) (n : Nat) : Bool := decide (k.cur = some n) && decide (k.waits ≠ [])

/-- RESUME (R241, R248): the seat becomes ready at `pc` with run `run`, or parks again when its wait is still open. -/
def resumeSeat (s : State) (c n : Nat) (pc : Word) (run : Nat) : State :=
  modSeat s c n fun t =>
    { t with st := if t.wait.isSome then .parked else .ready, pc := pc, run := run, used := 0, fresh := true,
             run0 := false, stop := none }

/-! ### The arbiter -/

/-- Whether a seat may be chosen (R231). -/
def seatReady (t : Seat) : Bool := decide (t.st = .ready) && t.retire.isNone

/-- The highest rank among some seats. -/
def topRank (k : Core) (ns : List Nat) : Nat := ns.foldl (fun m n => max m (seatOf k n).qrank) 0

/-- The first seat of rank `r` among `ns` in the order y+1, y+2, y+3, y (R232). -/
def nextInTurn (k : Core) (y r : Nat) (ns : List Nat) : Option Nat :=
  [(y + 1) % 4, (y + 2) % 4, (y + 3) % 4, y % 4].find? fun n => ns.contains n && decide ((seatOf k n).qrank = r)

/-- A seat begins to issue: a new slice, and at a switch zero latches; after a yield the run counts from here (R62, R11). -/
def startSeat (k : Core) (n : Nat) : Core :=
  let k := if k.last = n then k else { k with latch := [], vlatch := [], sw := k.sw + 1 }
  let t := seatOf k n
  putSeat { k with cur := some n, last := n, slice := 0, choose := false } n { t with used := 0 }

/-- The arbiter's choice (R232): after a yield of the running seat, or for a core whose seat has gone.  A core that falls idle has made a seat
switch, whichever seat it starts next (R11, R231; DEDUCED, log 23). -/
def arbitrate (k : Core) : Core :=
  let ready := [0, 1, 2, 3].filter fun n => seatReady (seatOf k n)
  match k.cur with
  | some y =>
    let t := seatOf k y
    let k := if t.wait.isSome then putSeat k y { t with st := .parked } else k
    let cand := if t.wait.isSome then ready.filter (· ≠ y) else ready
    let elig := cand.filter fun n => n ≠ y || decide (t.run + k.slice ≤ 4096)
    if elig = [] then
      if cand.contains y then { k with slice := 0, choose := false }
      else { k with cur := none, latch := [], vlatch := [], sw := k.sw + 1 }
    else
      let r := topRank k elig
      if elig.contains y && decide (t.qrank = r) then { k with choose := false }
      else match nextInTurn k y r elig with
        | some n => startSeat k n
        | none => { k with cur := none }
  | none =>
    match nextInTurn k k.last (topRank k ready) ready with
    | some n => startSeat k n
    | none => k

end Sys2Proof.Machine
end

