-- ==== Sys2Proof/Machine/Ingress.lean ====
section
/-!
DEFINITION. The request gatherer's queues (R355 to R357): their configuration, how a record enters a queue, how a batch closes, and
the ingress window.
-/
namespace Sys2Proof.Machine

open Sys2Proof

/-- A gather queue. -/
def gqAt (s : State) (q : Nat) : GQueue := tget {} s.gq q

/-- Change a gather queue. -/
def modGq (s : State) (q : Nat) (f : GQueue → GQueue) : State := { s with gq := tput q (f (gqAt s q)) s.gq }

/-- Fields of GQCFG and GQAREA (Table 17-8). -/
def gqTenant (s : State) (q : Nat) : Nat := bits (mreg s (.gqcfg q)) 62 47
/-- The batch count limit. -/
def gqN (s : State) (q : Nat) : Nat := bits (mreg s (.gqcfg q)) 46 39
/-- The deadline, 0 for none. -/
def gqD (s : State) (q : Nat) : Nat := bits (mreg s (.gqcfg q)) 38 7
/-- The queue that receives the notices. -/
def gqNq (s : State) (q : Nat) : Nat := bits (mreg s (.gqcfg q)) 6 1
/-- The tier of the batch area. -/
def gqTier (s : State) (q : Nat) : Nat := bits (mreg s (.gqarea q)) 63 61
/-- The number of batch slots. -/
def gqSlots (s : State) (q : Nat) : Nat := bits (mreg s (.gqarea q)) 60 52
/-- The offset of the batch area. -/
def gqBase (s : State) (q : Nat) : Nat := bits (mreg s (.gqarea q)) 45 0

/-- Whether a queue accepts records: EN = 1 and no reserved value (R355). -/
def gqOn (s : State) (q : Nat) : Bool :=
  bitAt (mreg s (.gqcfg q)) 63 && decide (1 ≤ gqN s q) && decide (gqN s q ≤ 192) && !bitAt (mreg s (.gqcfg q)) 0 &&
  [2, 3, 5].contains (gqTier s q) && decide (gqSlots s q ≠ 0) && decide (bits (mreg s (.gqarea q)) 51 46 = 0) &&
  decide (gqBase s q % 4096 = 0)

/-- The offset of a slot in the batch area (R355). -/
def gqSlotOff (s : State) (q k : Nat) : Nat := 64 + 64 * k * (gqN s q + 1)

/-- The bytes of the batch area (R355). -/
def gqAreaLen (s : State) (q : Nat) : Nat := 64 + gqSlots s q * 64 * (gqN s q + 1)

/-- Count a dropped record (R355). -/
def gqDrop (s : State) (q : Nat) : State := modMreg s (.gdrop q) fun w => w + 1

/-- Close the open batch of a queue (R357, Table 17-10): the header reaches its ordering point, and the slot joins the closed list
with the GTS of the close. -/
def gqClose (s : State) (q : Nat) (dl : Bool) (gts : Nat) : State :=
  let g := gqAt s q
  match g.open_ with
  | none => s
  | some (k, cnt, first) =>
    let h := [pack [(g.bseq % 2 ^ 32, 32), (q, 16), (if dl then 1 else 0, 8), (cnt, 0)], wordOf first, wordOf gts, 0, 0, 0, 0, 0]
    let s := memStrong s (gqTier s q) (gqBase s q + gqSlotOff s q k) (bytesOf h)
    modGq s q fun g => { g with open_ := none, closed := g.closed ++ [(k, gts)], bseq := g.bseq + 1 }

/-- The lowest free slot of a queue (R357). -/
def gqFree (s : State) (q : Nat) : Option Nat :=
  let g := gqAt s q
  (countUp 0 (gqSlots s q)).find? fun k => !(g.closed.any fun c => decide (c.1 = k)) && !g.taken.contains k

/-- Put a record into the open batch of a queue, and close the batch at N records (R357). -/
def gqPut (s : State) (q : Nat) (bs : List Byte) : State :=
  let g := gqAt s q
  match (match g.open_ with | some o => some o | none => (gqFree s q).map fun k => (k, 0, s.gts)) with
  | none => postQueue (gqDrop s q) (gqNq s q) 0 Cause.gatherOver none 0 0
  | some (k, cnt, first) =>
    let r := bs.take 8 ++ natBytes 8 s.gts ++ bs.drop 16
    let s := memStrong s (gqTier s q) (gqBase s q + gqSlotOff s q k + 64 + 64 * cnt) r
    let s := modGq s q fun g => { g with open_ := some (k, cnt + 1, first) }
    if cnt + 1 = gqN s q then gqClose s q false s.gts else s

/-- Whether the GTS at which the open batch of a queue closes by deadline has just passed (R357): the close is the end of that cycle, behind its
records, so that the machine makes it as the next cycle begins. -/
def gqLate (s : State) (q : Nat) : Bool :=
  match (gqAt s q).open_ with
  | some (_, _, first) => decide (gqD s q ≠ 0) && decide (s.gts = first + gqD s q + 1)
  | none => false

/-- A record that is none: GATHER_REC (R356). -/
def gqBadRec (s : State) (q : Nat) : State :=
  if gqOn s q then postQueue (gqDrop s q) (gqNq s q) 0 Cause.gatherRec none 0 0 else gqDrop s q

/-- A record is taken by a gather queue (R355, R356, Table 17-9). -/
def gqRecord (s : State) (q : Nat) (bs : List Byte) : State :=
  if !gqOn s q || stageOff s (gqTier s q) then gqDrop s q
  else
    let w := wordOf (leNat (bs.take 8))
    if bs.length ≠ 64 ∨ !bitAt w 63 ∨ bits w 62 48 ≠ 0 ∨ bits w 47 32 ≠ gqTenant s q then gqBadRec s q
    else gqPut s q bs

/-- A record arrives at a gather queue: network ports 0 to 3 have the places 0 to 3 among the records of a cycle, the control complex 4, and a
window write of core c 5 + c (R356). -/
def gqArrive (s : State) (place q : Nat) (bs : List Byte) : State := { s with gqIn := s.gqIn ++ [(place, q, bs)] }

/-- Put a record behind those whose place is not behind its own. -/
def gqInsert (x : Nat × Nat × List Byte) : List (Nat × Nat × List Byte) → List (Nat × Nat × List Byte)
  | [] => [x]
  | y :: t => if x.1 < y.1 then x :: y :: t else y :: gqInsert x t

/-- The gatherer takes the records of a cycle in their order (R356, R357). -/
def gqTake (s : State) : State :=
  (s.gqIn.foldl (fun l x => gqInsert x l) []).foldl (fun s x => gqRecord s x.2.1 x.2.2) { s with gqIn := [] }

/-- The offset of the ingress window in tier 5 (Table 17-1). -/
def ingBase (s : State) : Nat := bits (mreg s .ingbase) 45 12 * 4096

/-- A write of a core reaches its ordering point: in the ingress window a whole aligned unit is a record, and any other write is none (R356).
The bytes are in memory too (log 17). -/
def ingress (s : State) (c t a : Nat) (bs : List Byte) : State :=
  if t = 5 ∧ meets a bs.length (ingBase s) 1024 then
    if a % 64 = 0 ∧ bs.length = 64 then gqArrive s (5 + c) ((a - ingBase s) / 64) bs
    else (countUp 0 16).foldl (fun s q => if meets a bs.length (ingBase s + 64 * q) 64 then gqBadRec s q else s) s
  else s

end Sys2Proof.Machine
end

