-- ==== Sys2Proof/Machine/Operands.lean ====
section
/-!
DEFINITION. Operands: scalar sources with the pops of `fi` (R65, R76, R126), scalar results (R12, R77), vector sources,
predicates, queue pops and vector results (R17 to R19, R66, R134).
-/
namespace Sys2Proof.Machine

open Sys2Proof

/-! ### Scalar operands -/

/-- A general register (R12): a0 reads zero. -/
def aReg (t : Seat) (n : Nat) : Word := if n = 0 then 0 else tget 0 t.a n

/-- A general register written: a0 discards it (R12). -/
def aSet (t : Seat) (n : Nat) (v : Word) : Seat := if n = 0 then t else { t with a := tset 0 n v t.a }

/-- The value of a scalar source, `f` being the word this syllable popped from `fi` (R65, R76). -/
def srcVal (k : Core) (t : Seat) (f : Word) : SSrc → Word
  | .reg n => aReg t n.val
  | .latch n => tget 0 k.latch n.val
  | .fi => f

/-- Whether a source is `fi`. -/
def isFi : SSrc → Bool
  | .fi => true
  | _ => false

/-- Whether some source is `fi`. -/
def anyFi (l : List SSrc) : Bool := l.any isFi

/-- Read the sources of a syllable and go on with their values: one word of `fi` serves every field that names it
(R76); an error entry stops the task after the group and the syllable writes nothing (R126).  With `fi` empty the
syllable does nothing, as a group does not issue then (R129). -/
def withSrcs (s : State) (slot : Nat) (l : List SSrc) (f : (SSrc → Word) → State → State) : State :=
  if anyFi l then
    match (cs s).fi with
    | [] => s
    | e :: r =>
      let v := srcVal (cc s) (cs s) e.w
      let s := onSeat s fun t => { t with fi := r }
      if e.err then addCause s 2 (bits e.w 63 56) slot e.w 0 else f v s
  else f (srcVal (cc s) (cs s) 0) s

/-- The landing code of a destination: 0 to 55, 62 for `fo`, 64 for the latch alone (W = 1). -/
def dstTo : SDst → Nat
  | .reg n => n.val
  | .fo => 62
  | .latch => 64

/-- The landing code of a destination that is also read. -/
def rdstTo : RDst → Nat
  | .reg n => n.val
  | .latch => 64

/-- The register a destination that is also read holds at issue: W = 1 reads a0 (R77). -/
def rdstVal (t : Seat) : RDst → Word
  | .reg n => aReg t n.val
  | .latch => 0

/-- Reserve the entry of `fo` that a result will take (R77). -/
def reserveFo (s : State) (n : Nat) : State := onSeat s fun t => { t with foRes := t.foRes + n }

/-- Send a scalar result on its way to its destination and its slot's latch (R77). -/
def sendTo (s : State) (slot lat dst : Nat) (v : Word) : State :=
  let s := if dst = 62 then reserveFo s 1 else s
  emit s slot lat (.sca dst (latchOf slot) v)

/-- Send a result of a syllable with a scalar destination field. -/
def sendS (s : State) (slot lat : Nat) (d : SDst) (v : Word) : State := sendTo s slot lat (dstTo d) v

/-- The slot index of an S slot (Table 3-2). -/
def sSlot : SSlot → Nat
  | .s0 => 0
  | .s1 => 1

/-- The slot index of an M slot (Table 3-2). -/
def mSlot : MSlot → Nat
  | .m0 => 3
  | .m1 => 4

/-! ### Vector operands -/

/-- Lane `i` of a vector image (R3). -/
def lane (v : Vec) (i : Nat) : W32 := BitVec.ofNat 32 (v.toNat / 2 ^ (32 * i))

/-- The sixteen lanes of a vector image. -/
def lanesOf (v : Vec) : List W32 := (List.range 16).map (lane v)

/-- The number whose 32-bit digits are some lanes. -/
def ofLanesNat : List W32 → Nat
  | [] => 0
  | x :: t => x.toNat + 2 ^ 32 * ofLanesNat t

/-- The vector image of sixteen lanes. -/
def ofLanes (l : List W32) : Vec := BitVec.ofNat 512 (ofLanesNat l)

/-- Byte `i` of a vector image. -/
def vbyte (v : Vec) (i : Nat) : Byte := BitVec.ofNat 8 (v.toNat / 2 ^ (8 * i))

/-- The sixty-four bytes of a vector image. -/
def vbytesOf (v : Vec) : List Byte := (List.range 64).map (vbyte v)

/-- The vector image of a byte string. -/
def ofVbytes (l : List Byte) : Vec := BitVec.ofNat 512 (leNat l)

/-- A vector register (R17). -/
def vReg (t : Seat) (c n : Nat) : Vec := tget 0 t.v (32 * c + n)

/-- A predicate (R18): p0 reads all ones. -/
def pReg (t : Seat) (c n : Nat) : BitVec 16 := if n = 0 then 0xFFFF else tget 0 t.p (8 * c + n)

/-- Write a predicate: p0 discards it (R18). -/
def pSet (t : Seat) (c n : Nat) (v : BitVec 16) : Seat :=
  if n = 0 then t else { t with p := tset 0 (8 * c + n) v t.p }

/-- An inbound queue of a cluster. -/
def qaOf (t : Seat) (c : Nat) : List QEnt := tget [] t.qa c
/-- An inbound queue of a cluster. -/
def qbOf (t : Seat) (c : Nat) : List QEnt := tget [] t.qb c
/-- The outbound queue of a cluster. -/
def qoOf (t : Seat) (c : Nat) : List QEnt := tget [] t.qo c

/-- The lanes an active mask keeps, the others zero (R134). -/
def maskLanes (m : BitVec 16) (l : List W32) : List W32 :=
  (countUp 0 16).map fun i => if m.getLsbD i then lget 0 l i else 0

/-- The data of the oldest entry of a queue, its invalid lanes zero (R133); zero when the queue is empty, when no group
that names it issues (R19). -/
def qHead : List QEnt → Vec
  | [] => 0
  | e :: _ => ofLanes (maskLanes e.mask (lanesOf e.data))

/-- The value of a vector source (R66); a queue is read at its oldest entry. -/
def vsrcVal (k : Core) (t : Seat) (c : Nat) : VSrc → Vec
  | .reg n => vReg t c n.val
  | .la => tget 0 k.vlatch c
  | .lb => tget 0 k.vlatch (8 + c)
  | .qa => qHead (qaOf t c)
  | .qb => qHead (qbOf t c)

/-- Whether a source is c.qa. -/
def isQa : VSrc → Bool | .qa => true | _ => false
/-- Whether a source is c.qb. -/
def isQb : VSrc → Bool | .qb => true | _ => false

/-- Pop the inbound queues a syllable names, each once (R19). -/
def popQueues (t : Seat) (c : Nat) (l : List VSrc) : Seat :=
  let t := if l.any isQa then { t with qa := tput c (qaOf t c).tail t.qa } else t
  if l.any isQb then { t with qb := tput c (qbOf t c).tail t.qb } else t

/-- Read the vector sources of a syllable of cluster `c`, popping the queues it names, whatever its predicate (R19). -/
def withVSrcs (s : State) (c : Nat) (l : List VSrc) (f : (VSrc → Vec) → State → State) : State :=
  let v := vsrcVal (cc s) (cs s) c
  f v (onSeat s fun t => popQueues t c l)

/-- The landing code of a vector destination, and the state with the entry of c.qo reserved that it will fill
(R66, R134): a register, 63 for none, 1000 + its number for a reserved entry. -/
def vdstTo (s : State) (c : Nat) (d : VDst) : Nat × State :=
  match d with
  | .reg n => (n.val, s)
  | .none => (63, s)
  | .qo =>
    let id := (cs s).resvNext
    (1000 + id, onSeat s fun t => { t with resvNext := id + 1, qo := tput c (qoOf t c ++ [⟨id, 0, 0⟩]) t.qo })

/-- Fill the reserved entry of number `id` (R134). -/
def fillQo (id : Nat) (data : Vec) (m : BitVec 16) (q : List QEnt) : List QEnt :=
  q.map fun e => if e.id = id then ⟨0, data, m⟩ else e

/-- Remove the reserved entry of number `id`: a trapping syllable pushes none (R45). -/
def dropQo (id : Nat) (q : List QEnt) : List QEnt := q.filter fun e => e.id ≠ id

/-- A vector register with the active lanes of a result (R134). -/
def mergeLanes (m : BitVec 16) (old new : Vec) : Vec :=
  ofLanes ((countUp 0 16).map fun i => if m.getLsbD i then lane new i else lane old i)

/-- A vector image with the bytes that a byte mask selects taken from another. -/
def mergeBytes (bm : BitVec 64) (old new : Vec) : Vec :=
  ofVbytes ((countUp 0 64).map fun i => if bm.getLsbD i then vbyte new i else vbyte old i)

end Sys2Proof.Machine
end

