-- ==== Sys2Proof/Machine/Mem.lean ====
section
/-!
DEFINITION. The M class inside the core: loads and stores (R106 to R109), atomics (R110, R111), the tag table (R112,
R113), transaction barriers (R114 to R116) and bindings (R117).
-/
namespace Sys2Proof.Machine

open Sys2Proof

/-- The offset n64(B + sext(IMM7) × size) (R106). -/
def memOff (b : Word) (s : BitVec 2) (i : BitVec 7) : Nat := (b + i.signExtend 64 * wordOf (2 ^ s.toNat)).toNat

/-- An access to the scratchpad by a syllable: the extent check, the bank accesses and the error check (R24, R105, R109);
a failed check stops the task after the group and the syllable does nothing more. -/
def spadAccess (s : State) (slot e : Nat) (rd wr : Bool) (align off n : Nat) (f : List Nat → State → State) : State :=
  let x := extOf (cs s) e
  match extCheck x [0] rd wr align off n with
  | some cause => addCause s 2 cause slot (wordOf off) (wordOf e)
  | none =>
    let ps := spadPlaces x off n
    let s := useBanks s (bankWords ps)
    match (if rd then spadErr (cc s) 0 ps else none) with
    | some i => addCause s 2 Cause.spadUe slot (wordOf (off + i)) (wordOf e)
    | none => f ps s

/-- Sign-extend a value of `n` bytes to 64 bits (R106). -/
def sextBytes (n v : Nat) : Word :=
  if 2 ^ (8 * n - 1) ≤ v then wordOf (v + (2 ^ 64 - 2 ^ (8 * n))) else wordOf v

/-- A load: `ext` extends the value read to 64 bits. -/
def loadVia (ext : Nat → Nat → Word) (u : MSlot) (d : SDst) (e : BitVec 4) (b : SSrc) (sz : BitVec 2) (i : BitVec 7)
    (s : State) : Out :=
  .next (withSrcs s (mSlot u) [b] fun v s =>
    let n := 2 ^ sz.toNat
    spadAccess s (mSlot u) e.toNat true false n (memOff (v b) sz i) n fun ps s =>
      let r := compat s 4 3
      sendS r.2 (mSlot u) r.1 d (ext n (leNat (spadGet (cc s) ps))))

/-- LD (R106). -/
def execLd (u : MSlot) (d : SDst) (e : BitVec 4) (b : SSrc) (sz : BitVec 2) (i : BitVec 7) (s : State) : Out :=
  loadVia sextBytes u d e b sz i s

/-- LDN (R106). -/
def execLdn (u : MSlot) (d : SDst) (e : BitVec 4) (b : SSrc) (sz : BitVec 2) (i : BitVec 7) (s : State) : Out :=
  loadVia (fun _ v => wordOf v) u d e b sz i s

/-- ST (R106): the bytes commit 4 cycles after issue, 3 under V = 1 (R107, R63). -/
def execSt (u : MSlot) (a : SSrc) (e : BitVec 4) (b : SSrc) (sz : BitVec 2) (i : BitVec 7) (s : State) : Out :=
  .next (withSrcs s (mSlot u) [a, b] fun v s =>
    let n := 2 ^ sz.toNat
    spadAccess s (mSlot u) e.toNat false true n (memOff (v b) sz i) n fun ps s =>
      let r := compat s 4 3
      emit r.2 (mSlot u) r.1 (.store (ps.zip (natBytes n (v a).toNat))))

/-- The number of an atomic operation (R110). -/
def aopNum : AOp → Nat
  | .add => 0 | .and => 1 | .or => 2 | .xor => 3 | .swap => 4 | .min => 5 | .max => 6 | .maxn => 7

/-- The new word of an atomic operation on `n` bytes, as numbers below 2^(8n) (R110, R121); 8 stands for CAS. -/
def atomicNew (n op : Nat) (old x cmp : Nat) : Nat :=
  let m := 2 ^ (8 * n)
  let sg := fun (v : Nat) => if 2 * v < m then (v : Int) else (v : Int) - (m : Int)
  match op with
  | 0 => (old + x) % m
  | 1 => old &&& x
  | 2 => old ||| x
  | 3 => old ^^^ x
  | 4 => x
  | 5 => if sg x < sg old then x else old
  | 6 => if sg old < sg x then x else old
  | 7 => if old < x then x else old
  | _ => if old = cmp then x else old

/-- AMO and CAS: the word is read and written 4 cycles after issue, and the old word lands after 12 (R107, R110).  Its errors are tested with
the other checks at issue (R105, R109; DEDUCED, log 30). -/
def atomicVia (u : MSlot) (e : Nat) (off : Nat) (op : Nat) (x cmp : Word) (dst : Nat) (s : State) : State :=
  spadAccess s (mSlot u) e true true 8 off 8 fun ps s =>
    let s := if dst = 62 then reserveFo s 1 else s
    emit s (mSlot u) 4 (.atomic ps op x cmp dst (latchOf (mSlot u)))

/-- AMO (R110). -/
def execAmo (u : MSlot) (d : SDst) (e : BitVec 4) (b a : SSrc) (o : AOp) (s : State) : Out :=
  .next (withSrcs s (mSlot u) [b, a] fun v s => atomicVia u e.toNat (v b).toNat (aopNum o) (v a) 0 (dstTo d) s)

/-- CAS (R110): the destination is read as the comparand. -/
def execCas (u : MSlot) (d : RDst) (e : BitVec 4) (b a : SSrc) (s : State) : Out :=
  .next (withSrcs s (mSlot u) [b, a] fun v s =>
    atomicVia u e.toNat (v b).toNat 8 (v a) (rdstVal (cs s) d) (rdstTo d) s)

/-! ### The tag table -/

/-- Whether an entry belongs to a tenant and has a key (R112). -/
def tagIs (ten : Nat) (key : Word) (t : TagEnt) : Bool := decide (t.tenant = ten) && decide (t.key = key)

/-- What LKUP and TAGDROP answer on a miss (R113). -/
def tagMiss : Word := 0x8000000000000000

/-- The value a lookup finds (R113). -/
def tagFind (l : List TagEnt) (ten : Nat) (key : Word) : Word :=
  match l.find? (tagIs ten key) with
  | some t => t.val.setWidth 64
  | none => tagMiss

/-- TAGSET on the table: the new table and the answer (R113). -/
def tagPut (l : List TagEnt) (ten : Nat) (key : Word) (v : BitVec 63) : List TagEnt × Word :=
  if l.any (tagIs ten key) then (l.map fun t => if tagIs ten key t then { t with val := v } else t, 1)
  else if l.length < 256 then (l ++ [⟨ten, key, v⟩], 0)
  else (l, 2)

/-- LKUP (R113). -/
def execLkup (u : MSlot) (d : SDst) (a : SSrc) (s : State) : Out :=
  .next (withSrcs s (mSlot u) [a] fun v s => sendS s (mSlot u) 6 d (tagFind (cc s).tags (taskTenant (cs s).task) (v a)))

/-- TAGSET (R113): the table changes at the issue cycle. -/
def execTagset (u : MSlot) (d : SDst) (a b : SSrc) (s : State) : Out :=
  .next (withSrcs s (mSlot u) [a, b] fun v s =>
    let r := tagPut (cc s).tags (taskTenant (cs s).task) (v a) ((v b).setWidth 63)
    sendS (onCore s fun k => { k with tags := r.1 }) (mSlot u) 4 d r.2)

/-- TAGDROP (R113). -/
def execTagdrop (u : MSlot) (d : SDst) (a : SSrc) (s : State) : Out :=
  .next (withSrcs s (mSlot u) [a] fun v s =>
    let ten := taskTenant (cs s).task
    let r := tagFind (cc s).tags ten (v a)
    sendS (onCore s fun k => { k with tags := k.tags.filter fun t => !tagIs ten (v a) t }) (mSlot u) 4 d r)

/-! ### Barriers -/

/-- The largest count of a barrier, 2^40 − 1 (R114). -/
def barMax : Nat := 2 ^ 40 - 1

/-- A barrier of a seat (R114). -/
def barOf (t : Seat) (n : Nat) : Barrier := tget {} t.bar n

/-- Change a barrier. -/
def barPut (t : Seat) (n : Nat) (b : Barrier) : Seat := { t with bar := tset {} n b t.bar }

/-- BARI (R115). -/
def execBari (u : MSlot) (b : SSrc) (n : Fin 8) (s : State) : Out :=
  .next (withSrcs s (mSlot u) [b] fun v s => onSeat s fun t => barPut t n.val ⟨min (v b).toNat barMax, 0⟩)

/-- BARA (R115). -/
def execBara (u : MSlot) (b : SSrc) (n : Fin 8) (s : State) : Out :=
  .next (withSrcs s (mSlot u) [b] fun v s => onSeat s fun t =>
    barPut t n.val { barOf t n.val with expect := min ((barOf t n.val).expect + (v b).toNat) barMax })

/-- BARW (R115, R116): a completion freeze follows the group. -/
def execBarw (_u : MSlot) (n : Fin 8) (s : State) : Out :=
  .next (onGrp s fun g => { g with waits := g.waits ++ [.barw n.val] })

/-- BARX (R115): a complete barrier is armed for its next phase. -/
def execBarx (u : MSlot) (d : SDst) (b : SSrc) (n : Fin 8) (s : State) : Out :=
  .next (withSrcs s (mSlot u) [b] fun v s =>
    let x := barOf (cs s) n.val
    let c := decide (x.expect ≤ x.count)
    let s := if c then onSeat s fun t => barPut t n.val ⟨min (v b).toNat barMax, x.count - x.expect⟩ else s
    sendS s (mSlot u) 1 d (pack [(if c then 1 else 0, 63), (x.count, 0)]))

/-! ### Bindings -/

/-- BIND (R117). -/
def execBind (u : MSlot) (e : BitVec 4) (a b : SSrc) (o : BitVec 4) (s : State) : Out :=
  .next (withSrcs s (mSlot u) [a, b] fun v s =>
    let x := extOf (cs s) e.toNat
    let off := (v a).toNat
    let len := (v b).toNat
    let bad := fun (c : Nat) => addCause s 2 c (mSlot u) (wordOf off) (wordOf e.toNat)
    if !x.v then bad Cause.extInvalid
    else if x.rv then bad Cause.extRevoked
    else if x.dm then bad Cause.extDemand
    else if off % 64 ≠ 0 ∨ len % 64 ≠ 0 then bad Cause.memAlign
    else if x.len * 64 < off + len then bad Cause.extBound
    else if len = 0 then
      onSeat s fun t => { t with binds := t.binds.filter fun y => !(decide (y.ext = e.toNat) && decide (y.obj = o.toNat)) }
    else if (cs s).binds.contains ⟨e.toNat, off, len, o.toNat⟩ then s
    else if 16 ≤ (cs s).binds.length then bad Cause.bindFull
    else onSeat s fun t => { t with binds := t.binds ++ [⟨e.toNat, off, len, o.toNat⟩] })

/-- PINSET (R131): requests that issue one cycle later sample the slot. -/
def execPinset (u : MSlot) (a : SSrc) (k : Bool) (s : State) : Out :=
  .next (withSrcs s (mSlot u) [a] fun v s => emit s (mSlot u) 1 (.carry k ((v a).setWidth 32)))

end Sys2Proof.Machine
end

