-- ==== Sys2Proof/Machine/Wire.lean ====
section
/-!
DEFINITION. Messages: their kinds and integrity tag (R311, R318), the choice of a path and sending (R319, R323, R331), and the
checks of a grant table (R325, R326).
-/
namespace Sys2Proof.Machine

open Sys2Proof

/-- KIND values (Table 15-1). -/
abbrev kData : Nat := 0
abbrev kFin : Nat := 1
abbrev kRed : Nat := 2
abbrev kCrd : Nat := 3
abbrev kCrdr : Nat := 4
abbrev kRld : Nat := 5
abbrev kRst : Nat := 6
abbrev kRamo : Nat := 7
abbrev kRep : Nat := 8
abbrev kAck : Nat := 9
abbrev kNack : Nat := 10
abbrev kPqry : Nat := 11
abbrev kPrep : Nat := 12
abbrev kPdrop : Nat := 13
abbrev kEngd : Nat := 14

/-- Whether a kind is of the response class (Table 15-1). -/
def kindResp (k : Nat) : Bool := [kCrdr, kRep, kAck, kNack, kPrep].contains k

/-- Word 0 of a flit's envelope (Table 15-3): a router changes VC and PH alone. -/
def flitWord0 (t : Transit) (f : Flit) : Word :=
  pack [(t.dchip % 1024, 54), (t.mchip % 1024, 44), (if t.ph then 1 else 0, 43), (if t.resp then 1 else 0, 42),
        ((t.crossed - 1) % 4, 40), (t.path % 8, 37), (t.msg.ddie % 4, 35), (t.msg.dcore % 128, 28), (t.msg.dunit % 16, 24),
        (f.off % 2 ^ 22, 2)]

/-- Word 1 of a flit's envelope (Table 15-3): KIND and TENANT are the flit's own. -/
def flitWord1 (m : Msg) (f : Flit) : Word :=
  pack [(f.tenant % 65536, 48), (m.schip % 1024, 38), (m.sdie % 4, 36), (m.score % 128, 29), (m.sag % 8, 26),
        (m.msgid % 1024, 16), (f.fidx % 16, 12), (if f.last then 1 else 0, 11), (f.kind % 16, 7), ((f.data.length - 1) % 128, 0)]

/-- The 64 payload bytes of a flit: those beyond NB are zero (R316). -/
def flitPayload (f : Flit) : List Byte := f.data ++ natBytes (64 - f.data.length) 0

/-- The link CRC of a flit (R317): over its payload, words 0 and 1, and TAG, which only the last flit carries. -/
def flitLcrc (t : Transit) (f : Flit) : W32 :=
  crc32c 0 (flitPayload f ++ natBytes 8 (flitWord0 t f).toNat ++ natBytes 8 (flitWord1 t.msg f).toNat ++
    natBytes 4 (if f.last then t.msg.tag.toNat else 0))

/-- Word 2 of a flit's envelope on a link (Table 15-3). -/
def flitWord2 (t : Transit) (f : Flit) : Word := pack [((flitLcrc t f).toNat, 32), (if f.last then t.msg.tag.toNat else 0, 0)]

/-- Word 1 of flit 0 with FIDX, LAST and NB read as zero (R318). -/
def tagWord1 (m : Msg) : Word := flitWord1 m { fidx := 0, off := 0, data := [0], kind := m.kind, tenant := m.tenant }

/-- Bytes 0 to NB of a flit's payload: a flit without data has NB 0 and the zero byte 0 (R316, R318). -/
def flitCovered (f : Flit) : List Byte := if f.data = [] then [0] else f.data

/-- The end-to-end tag of a message (R318). -/
def tagOf (m : Msg) : W32 :=
  crc32c 0 (natBytes 8 (tagWord1 m).toNat ++ natBytes 4 ((m.flits.head?.map (·.off)).getD 0) ++
    (m.flits.map flitCovered).flatten)

/-- Whether the indices of some flits count up from `i`, only the last one carries LAST, and each has the message's KIND and TENANT. -/
def flitsInOrder (m : Msg) : Nat → List Flit → Bool
  | _, [] => true
  | i, f :: t =>
    decide (f.fidx = i) && (f.last == t.isEmpty) && decide (f.kind = m.kind) && decide (f.tenant = m.tenant) && flitsInOrder m (i + 1) t

/-- Whether a received message verifies: no gap, no repetition, a last flit, one KIND and one TENANT, and the tag as sent (R318). -/
def msgOk (m : Msg) : Bool := !m.flits.isEmpty && flitsInOrder m 0 m.flits && decide (tagOf m = m.tag)

/-- Flits with the envelope of their message around them. -/
def sealFlits (kind tenant : Nat) : List Flit → List Flit
  | [] => []
  | f :: t => { f with kind := kind, tenant := tenant, last := t.isEmpty } :: sealFlits kind tenant t

/-- A message with its flits' envelopes and its tag. -/
def sealMsg (m : Msg) : Msg :=
  let m := { m with flits := sealFlits m.kind m.tenant m.flits }
  { m with tag := tagOf m }

/-- A message of one flit from an agent of this package. -/
def mkMsg (s : State) (kind tenant sdie score sag msgid dchip ddie dcore dunit off : Nat) (data : List Byte) : Msg :=
  sealMsg { kind := kind, tenant := tenant, schip := chipNo s, sdie := sdie, score := score, sag := sag, msgid := msgid,
            dchip := dchip, ddie := ddie, dcore := dcore, dunit := dunit, flits := [flit 0 off data], tag := 0 }

/-- A response to a message: SAG and MSGID repeat it, the sender is the responder (Table 15-3). -/
def mkResp (s : State) (kind : Nat) (m : Msg) (data : List Byte) : Msg :=
  sealMsg { kind := kind, tenant := m.tenant, schip := chipNo s, sdie := m.ddie, score := m.dcore, sag := m.sag,
            msgid := m.msgid, dchip := m.schip, ddie := m.sdie, dcore := m.score, dunit := 0, flits := [flit 0 0 data],
            tag := 0 }

/-- The bytes of an ACK or NACK: byte 24 holds 1 when it answers a CRDR (log 12). -/
def answerBytes (m : Msg) (bs : List Byte) : List Byte :=
  if m.kind = kCrdr then bs ++ natBytes (24 - bs.length) 0 ++ [1] else bs

/-- The payload of a message's first flit. -/
def payloadOf (m : Msg) : List Byte := (m.flits.head?.map (·.data)).getD []

/-- Whether a fabric port carries traffic (Tables 15-7, 15-8). -/
def portUp (s : State) (p : Nat) : Bool := bitAt (mreg s (.pst p)) 0 && bitAt (mreg s .fabcfg) p

/-- The router table's entry for a package (Table 15-4). -/
def rtOf (s : State) (d : Nat) : Word := mreg s (.rt (d % 1024))

/-- Intermediate k of a router table entry (Table 15-4). -/
def rtMid (e : Word) (k : Nat) : Nat := bits e (10 * k - 1) (10 * k - 10)

/-- The first port of path `k` toward a package (R323). -/
def pathPort (s : State) (d k : Nat) : Nat :=
  if k = 0 then bits (rtOf s d) 62 58 else bits (rtOf s (rtMid (rtOf s d) k)) 62 58

/-- The key of a virtual channel of a port (R324). -/
def vcKey (p : Nat) (resp : Bool) (v : Nat) : Nat := 8 * p + (if resp then 4 else 0) + v

/-- A virtual channel of a port: 32 buffers are free at the neighbour until flits take them (R324). -/
def vcAt (s : State) (p : Nat) (resp : Bool) (v : Nat) : Vc := tget {} s.vcs (vcKey p resp v)

/-- The flits of a message in transit. -/
def flitCount (t : Transit) : Nat := t.msg.flits.length

/-- The flits that wait in a virtual channel. -/
def vcLoad (v : Vc) : Nat := (v.wait.map flitCount).foldl (· + ·) 0 - v.left

/-- The flits that wait for a port in a class (R323): those without a credit, and those that wait for the link itself, whose number the spec
leaves to the link and `occ` gives (log 11). -/
def portLoads (s : State) (resp : Bool) (occ : List Nat) : List Nat :=
  (countUp 0 32).map fun p => ((countUp 0 4).map fun v => vcLoad (vcAt s p resp v)).foldl (· + ·) 0 + lget 0 occ p

/-- The flits of a virtual channel leave in order as far as its credits reach (R324): the messages whose last flit has left, and the channel
then.  The first number bounds the messages. -/
def vcRun : Nat → Vc → List Transit × Vc
  | 0, v => ([], v)
  | n + 1, v =>
    match v.wait with
    | [] => ([], v)
    | t :: r =>
      let k := flitCount t - v.left
      if k ≤ v.credits then
        let q := vcRun n { v with credits := v.credits - k, wait := r, left := 0 }
        (t :: q.1, q.2)
      else ([], { v with credits := 0, left := v.left + v.credits })

/-- Change a virtual channel of a port and let its flits leave; one that has given its last credit away posts VC_TIMEOUT when it gets none for
2^20 cy (R324). -/
def vcStep (s : State) (p : Nat) (resp : Bool) (v : Nat) (f : Vc → Vc) : State :=
  let x := f (vcAt s p resp v)
  let r := vcRun x.wait.length x
  let runsDry := decide (r.2.credits = 0) && decide (x.credits ≠ 0)
  let y := { r.2 with dry := if r.2.credits ≠ 0 then none else if runsDry then some s.gts else r.2.dry }
  { s with out := s.out ++ r.1.map fun t => (p, t)
           vcs := tset {} (vcKey p resp v) y s.vcs
           timers := if runsDry then s.timers ++ [(s.gts + 2 ^ 20, .vcTimeout ⟨Fin.ofNat 32 p, resp, Fin.ofNat 4 v⟩ 0)] else s.timers }

/-- A message joins the virtual channel of a port for the links it has crossed before the next one (R323, R324). -/
def joinPort (s : State) (p : Nat) (t : Transit) : State :=
  vcStep s p t.resp (t.crossed - 1) fun v => { v with wait := v.wait ++ [t] }

/-- The path with the least occupancy of its first port; ties to the lower number. -/
def leastPath (s : State) (d : Nat) (occ : List Nat) : List Nat → Option Nat
  | [] => none
  | k :: t =>
    match leastPath s d occ t with
    | none => some k
    | some j => if lget 0 occ (pathPort s d k) ≤ lget 0 occ (pathPort s d j) then some k else some j

/-- The path a source chooses for a message (R323), or the cause it fails with; `occ` gives the flits that wait at each
port, `badp` the paths that returned reason 3 for this message. -/
def choosePath (s : State) (d : Nat) (occ badp : List Nat) : Except Nat Nat :=
  let e := rtOf s d
  if !bitAt (mreg s .fabcfg) 53 then .error Cause.fabUnreach
  else if !bitAt e 63 then .error Cause.routeFail
  else
    let ps := (countUp 0 (bits e 57 55 + 1)).filter fun k => portUp s (pathPort s d k) && !badp.contains k
    match leastPath s d occ ps with
    | none => .error Cause.fabUnreach
    | some j =>
      if ps.contains 0 && (!bitAt (mreg s .fabcfg) 52 || decide (lget 0 occ (pathPort s d 0) ≤ bits (mreg s .fabcfg) 51 44))
      then .ok 0
      else if !bitAt (mreg s .fabcfg) 52 then .ok 0
      else .ok j

/-- The refusal with reason 3 of a message that a router drops (R315, R323): of a response other than a read reply it repeats what its
source needs to send it again (log 12). -/
def downNack (s : State) (m : Msg) (path : Nat) : Msg :=
  let d := payloadOf m
  mkResp s kNack m
    (if kindResp m.kind && decide (m.kind ≠ kCrdr) then
      [3] ++ natBytes 23 0 ++ [2, BitVec.ofNat 8 m.kind] ++ natBytes 2 m.dchip ++ natBytes 1 m.ddie ++ natBytes 1 m.dcore ++
        natBytes 1 path ++ natBytes 1 d.length ++ d.take 32
    else answerBytes m [3])

/-- Whether a dropped message can be sent again from what its refusal repeats: a refusal that itself repeats a response cannot. -/
def nackable (m : Msg) : Bool := decide (m.kind = kCrdr) || !kindResp m.kind || decide ((payloadOf m).length ≤ 32)

/-- Send a message: inside the package over its own network, else over the port of the chosen path (R319, R323).  The
answer's first part is the cause it fails with, or the path taken. -/
def sendMsg (s : State) (m : Msg) (occ badp : List Nat) : Except Nat Nat × State :=
  if m.dchip = chipNo s then (.ok 0, { s with net := s.net ++ [m] })
  else
    match choosePath s m.dchip (portLoads s (kindResp m.kind) occ) badp with
    | .error c => (.error c, s)
    | .ok p =>
      if portUp s (pathPort s m.dchip p) then
        (.ok p, joinPort s (pathPort s m.dchip p)
          { dchip := m.dchip, mchip := if p = 0 then m.dchip else rtMid (rtOf s m.dchip) p, ph := decide (p = 0),
            crossed := 1, resp := kindResp m.kind, msg := m, path := p })
      else (.ok p, if nackable m then { s with net := s.net ++ [downNack s m p] } else s)

/-- Send a message that the package makes of itself: the flits that wait for each link then are free values (R323, log 4, log 11). -/
def sendFree (s : State) (m : Msg) (badp : List Nat) : Except Nat Nat × State :=
  if m.dchip = chipNo s then sendMsg s m [] badp
  else sendMsg { s with fresh := s.fresh + 32 } m ((countUp s.fresh 32).map fun i => (Config.freeWord i).toNat) badp

/-- Send a response; one without a path is lost with its link (R315). -/
def sendResp (s : State) (m : Msg) : State := (sendFree s m []).2

/-- Answer what has been performed in this cycle: the response leaves after it (R271). -/
def sendLate (s : State) (m : Msg) : State := { s with late := s.late ++ [m] }

/-- The responses of the last cycle leave. -/
def sendAllLate (s : State) : State := s.late.foldl sendResp { s with late := [] }

/-- Whether a message that is received was sent: one from this package must be in flight in it; one from another package
is an input (log 5). -/
def arrived (s : State) (m : Msg) : Bool := decide (m.schip ≠ chipNo s) || s.net.contains m

/-- Take a message of this package out of its network. -/
def takeMsg (s : State) (m : Msg) : State :=
  if m.schip = chipNo s then { s with net := s.net.erase m } else s

/-- Whether a core receives nothing: its die is off or stopped, or the package is gated for a checkpoint
(R326, R411, R415, R416). -/
def coreDown (s : State) (c : Nat) : Bool :=
  decide ((dieAt s (c / 96)).power ≠ 0) || !s.dieEn.getLsbD (c / 96) || s.ckpt.isSome

/-- Whether a grant entry admits a message's source (R325). -/
def grantFrom (w : Word) (m : Msg) : Bool :=
  bitAt w 63 && (bitAt w 42 || decide (bits w 41 32 = m.schip)) &&
  (bitAt w 31 || (decide (m.score ≠ 127) && decide (bits w 30 29 = m.sdie) && decide (bits w 28 22 = m.score)))

/-- Words 0 and 1 of grant entry `i` of a core (Table 15-5). -/
def grantWord (s : State) (c i j : Nat) : Word := mreg s (.grant ((c * 32 + i) * 2 + j))

/-- Whether a grant entry covers some scratchpad ranges. -/
def grantCovers (s : State) (c i : Nat) (rs : List (Nat × Nat)) : Bool :=
  let base := bits (grantWord s c i 0) 21 0
  let len := bits (grantWord s c i 1) 22 0
  rs.all fun r => decide (base ≤ r.1) && decide (r.1 + r.2 ≤ base + len)

/-- The checks of a core's grant table (R326) in order: `perm` is the bit of PERM the kind needs (0 read, 1 write,
2 atomic and reduce), `al` says that every atomic is naturally aligned.  The answer is the entry used or the detail. -/
def grantCheck (s : State) (c : Nat) (m : Msg) (perm : Nat) (rs : List (Nat × Nat)) (al : Bool) : Except Nat Nat :=
  if coreDown s c then .error Cause.peerDown
  else
    let es := (List.range 32).filter fun i => grantFrom (grantWord s c i 0) m
    let et := es.filter fun i => decide (bits (grantWord s c i 0) 58 43 = m.tenant)
    let ec := et.filter fun i => grantCovers s c i rs
    let ep := ec.filter fun i => bitAt (grantWord s c i 0) (59 + perm)
    if es = [] then .error Cause.grantNone
    else if et = [] then .error Cause.grantTenant
    else if ec = [] then .error Cause.grantRange
    else match ep with
      | [] => .error Cause.remotePerm
      | i :: _ => if al then .ok i else .error Cause.remoteAlign

/-- The core a message is for. -/
def msgCore (m : Msg) : Nat := m.ddie % 4 * 96 + m.dcore

/-- The key of a MSGID of an agent. -/
def useKey (ag id : Nat) : Nat := 1024 * ag + id

/-- Whether an agent of a core may send another message: at most 1,024 are outstanding, and a MSGID is not used again within
65,536 cy of its last use (R315). -/
def idFree (s : State) (k : Core) (ag : Nat) : Bool :=
  let i := tget 0 k.msgid ag
  !(k.sent.any fun x => decide (x.agent = ag) && decide (x.id = i)) &&
  decide ((k.sent.filter fun x => decide (x.agent = ag)).length < 1024) &&
  (match tfind k.msgUse (useKey ag i) with | some g => decide (g + 65536 ≤ s.gts) | none => true)

/-- Number of the next message of an agent of a core, and the core after taking it (R315). -/
def nextMsgId (gts : Nat) (k : Core) (ag : Nat) : Nat × Core :=
  let i := tget 0 k.msgid ag
  (i, { k with msgid := tput ag ((i + 1) % 1024) k.msgid, msgUse := tput (useKey ag i) gts k.msgUse })

/-- The word at byte `i` of a payload; bytes beyond its end read 0. -/
def payWord (m : Msg) (i : Nat) : Word := wordOf (leNat ((countUp i 8).map fun j => lget 0 (payloadOf m) j))

end Sys2Proof.Machine
end

