-- ==== Sys2Proof/Machine/Receive.lean ====
section
/-!
DEFINITION. What arriving messages do to a scratchpad: banks (R24, R108, R307), the receive buffer (R313), reads, writes, atomics and
reductions (R111, R121, R197, R271), flags (R328), and the answers to them (R312, R315).
-/
namespace Sys2Proof.Machine

open Sys2Proof

/-! ### Banks -/

/-- The bank of a scratchpad place (R24). -/
def bankOf (p : Nat) : Nat := p / 16 % 64

/-- Whether the banks of some places are free in this cycle: the core does not use them, and they have not served an arriving message or a
channel (R24, R108, R307). -/
def banksFree (k : Core) (ps : List Nat) : Bool :=
  ps.all fun p => !k.grp.banks.contains (bankOf p) && !k.served.contains (bankOf p)

/-- The banks of some places serve an access of an arriving message or a channel. -/
def serveBanks (k : Core) (ps : List Nat) : Core := { k with served := k.served ++ (ps.map bankOf).eraseDups }

/-! ### Reductions -/

/-- One element of a reduction (R197). -/
def reduceOp (rop : Nat) (d x : W32) : W32 :=
  if rop = 0 then (add32 d x).1
  else if rop = 1 then d + x
  else if rop = 2 then (rne32 (fvMax (val32 d) (val32 x)).1).1
  else (rne32 (fvMin (val32 d) (val32 x)).1).1

/-- Reduce elements into a scratchpad, one after another (R111, R197). -/
def reduceSpad (rop : Nat) : List Nat → List Byte → Core → Core
  | p :: q :: r :: t :: ps, a :: b :: c :: d :: bs, k =>
    let old := BitVec.ofNat 32 (leNat (spadGet k [p, q, r, t]))
    let new := reduceOp rop old (BitVec.ofNat 32 (leNat [a, b, c, d]))
    reduceSpad rop ps bs (spadPut k ([p, q, r, t].zip (natBytes 4 new.toNat)))
  | _, _, k => k

/-! ### Answers -/

/-- The failure part of a response: bytes 8 and 9 hold the cause and its detail, 10 the tier and 16 to 23 the physical
offset it names (log 12). -/
def failBytes (cause : Nat) (detail : Option Nat) (phys : Option (Nat × Nat)) : List Byte :=
  natBytes 8 0 ++ [BitVec.ofNat 8 cause, BitVec.ofNat 8 (detail.getD 0), BitVec.ofNat 8 ((phys.map (·.1)).getD 0)] ++
    natBytes 5 0 ++ natBytes 8 ((phys.map (·.2)).getD 0)

/-- Keep a response in the completion cache of the core that performed the request, for 65,536 cy (R315). -/
def cacheResp (s : State) (m r : Msg) : State :=
  let c := msgCore m
  let s := modCore s c fun k =>
    { k with cache := (if 1024 ≤ k.cache.length then k.cache.tail else k.cache) ++
        [{ schip := m.schip, sdie := m.sdie, score := m.score, sag := m.sag, id := m.msgid, resp := r,
           until_ := s.gts + 65536 }] }
  { s with timers := s.timers ++ [(s.gts + 65536, .completionCacheExpire (Fin.ofNat 384 c))] }

/-- What a performed request comes to: the value for its issuer, or a cause with the memory it names. -/
inductive ReqEnd where
  | value (v : Word)
  | fail (cause : Nat) (phys : Option (Nat × Nat))
  deriving DecidableEq, Repr

/-- Answer a single request at a scratchpad: REP or ACK leaves after this cycle; that of a request which has been performed is kept in the
completion cache (R271, R315, R320). -/
def answerMsg (s : State) (m : Msg) (o : ReqEnd) (detail : Option Nat) : State :=
  let h := payWord m 0
  let kind := bits h 63 60
  let r := match o with
    | .value v => mkResp s (if kind = 1 then kAck else kRep) m
        (natBytes 8 (if kind = 1 then (if bitAt h 53 then s.gts else 0) else v.toNat) ++ natBytes 8 0)
    | .fail cause phys => mkResp s (if kind = 1 then kAck else kRep) m (failBytes cause detail phys)
  sendLate (match o with | .value _ => cacheResp s m r | .fail .. => s) r

/-- The sum of the 4-byte words of some bytes (R194). -/
def sumWords : List Byte → W32
  | a :: b :: c :: d :: t => BitVec.ofNat 32 (leNat [a, b, c, d]) + sumWords t
  | _ => 0

/-- The payload of a landing acknowledgement: the sum32 and the CRC-32C partial of the message (R312, log 12). -/
def ackBytes (bs : List Byte) : List Byte := natBytes 4 (sumWords bs).toNat ++ natBytes 4 (crc32c 0 bs).toNat

/-! ### Performing -/

/-- The scratchpad places a single request reads or writes. -/
def reqPlaces (m : Msg) : List Nat :=
  (countUp ((m.flits.head?.map (·.off)).getD 0) (2 ^ bits (payWord m 0) 55 54)).map (· % 2 ^ 22)

/-- Perform a request at a scratchpad (R111, R121, R271). -/
def performSpad (s : State) (m : Msg) : ReqEnd × State :=
  let c := msgCore m
  let h := payWord m 0
  let kind := bits h 63 60
  let n := 2 ^ bits h 55 54
  let ps := reqPlaces m
  let k := coreAt s c
  if kind = 1 then (.value 0, setCore s c (spadPut k (ps.zip (natBytes n (payWord m 16).toNat))))
  else if (spadErr k 0 ps).isSome then (.fail Cause.remoteUe (some (1, (m.flits.head?.map (·.off)).getD 0)), s)
  else
    let old := leNat (spadGet k ps)
    if kind = 0 then (.value (wordOf old), s)
    else
      let new := atomicNew n (bits h 49 46) old ((payWord m 16).toNat % 2 ^ (8 * n)) 0
      (.value (wordOf old), setCore s c (spadPut k (ps.zip (natBytes n new))))

/-- The flag word of a grant entry (Table 15-5). -/
def flagPlaces (s : State) (c i : Nat) : List Nat := (countUp (bits (grantWord s c i 1) 44 23) 8).map (· % 2 ^ 22)

/-- Increment the flag word of an entry and acknowledge the FIN; the ACK says whether the word wrapped (R328, log 12). -/
def raiseFlag (s : State) (c : Nat) (m : Msg) (i : Nat) : State :=
  let k := coreAt s c
  let ps := flagPlaces s c i
  let v := leNat (spadGet k ps) + 1
  let s := setCore s c (spadPut k (ps.zip (natBytes 8 v)))
  let r := mkResp s kAck m (natBytes 12 0 ++ [if v = 2 ^ 64 then 1 else 0])
  sendLate (cacheResp s m r) r

/-- A message's source as R328 and R315 name it: package, die and core. -/
def srcNo (m : Msg) : Nat := m.schip * 512 + m.sdie * 128 + m.score

/-- Note which entry passed the message that began at an offset (R328). -/
def noteEntry (s : State) (m : Msg) (off i : Nat) : State :=
  modCore s (msgCore m) fun k =>
    { k with flagEnt := (srcNo m, m.sag, off, i) ::
        k.flagEnt.filter fun e => !(decide (e.1 = srcNo m) && decide (e.2.1 = m.sag) && decide (e.2.2.1 = off)) }

/-! ### The receive buffer -/

/-- Cut bytes at every multiple of 16 of their scratchpad offset.  The first number bounds the pieces. -/
def cutBanks : Nat → Nat → List Byte → List (Nat × List Byte)
  | 0, _, _ => []
  | n + 1, off, bs =>
    if bs = [] then []
    else
      let k := 16 - off % 16
      (off, bs.take k) :: cutBanks n (off + k) (bs.drop k)

/-- The scratchpad places of a piece. -/
def piecePlaces (p : Nat × List Byte) : List Nat := (countUp p.1 p.2.length).map (· % 2 ^ 22)

/-- The pieces of a message's data: those of a RED begin behind its first flit (R311). -/
def msgPieces (m : Msg) : List (Nat × List Byte) :=
  ((if m.kind = kRed then m.flits.tail else m.flits).map fun f => cutBanks (f.data.length / 16 + 2) f.off f.data).flatten

/-- The data bytes of a message. -/
def msgBytes (m : Msg) : List Byte := ((if m.kind = kRed then m.flits.tail else m.flits).map (·.data)).flatten

/-- Write, or reduce, the pieces whose banks are free; `bl` are banks that an earlier message waits for. -/
def rxPieces (red : Option Nat) : List (Nat × List Byte) → List Nat → Core → List (Nat × List Byte) × List Nat × Core
  | [], bl, k => ([], bl, k)
  | p :: t, bl, k =>
    let ps := piecePlaces p
    if banksFree k ps && !ps.any (fun x => bl.contains (bankOf x)) then
      let k := match red with | some rop => reduceSpad rop ps p.2 k | none => spadPut k (ps.zip p.2)
      rxPieces red t bl (serveBanks k ps)
    else
      let r := rxPieces red t (bl ++ (ps.map bankOf).eraseDups) k
      (p :: r.1, r.2.1, r.2.2)

/-- The end of a message whose bytes have all been written: the tag of a DATA decides now, that of a RED has been verified before
(R312, R313). -/
def rxFinish (s : State) (e : RxEnt) : State :=
  let m := e.msg
  if m.kind = kData ∧ !msgOk m then sendLate s (mkResp s kNack m [0])
  else
    let s := noteEntry s m ((m.flits.head?.map (·.off)).getD 0) e.ent
    let r := mkResp s kAck m (ackBytes (msgBytes m))
    sendLate (if m.kind = kRed then cacheResp s m r else s) r

/-- The operation of a RED message (Table 15-1). -/
def redOp (m : Msg) : Nat := ((m.flits.head?.map fun f => (lget 0 f.data 0).toNat).getD 0) % 4

/-- One message of the receive buffer in one cycle: what is left of it, and the banks that later ones then find taken. -/
def rxOne (s : State) (c : Nat) (e : RxEnt) (bl : List Nat) : State × List Nat × Option RxEnt :=
  let m := e.msg
  if m.kind = kData ∨ m.kind = kRed then
    let r := rxPieces (if m.kind = kRed then some (redOp m) else none) e.left bl (coreAt s c)
    let s := setCore s c r.2.2
    if r.1 = [] then (rxFinish s e, r.2.1, none) else (s, r.2.1, some { e with left := r.1 })
  else
    let ps := if m.kind = kFin then flagPlaces s c e.ent else reqPlaces m
    if banksFree (coreAt s c) ps && !ps.any (fun x => bl.contains (bankOf x)) then
      let s := modCore s c fun k => serveBanks k ps
      (if m.kind = kFin then raiseFlag s c m e.ent else let r := performSpad s m; answerMsg r.2 m r.1 none, bl, none)
    else (s, bl ++ (ps.map bankOf).eraseDups, some e)

/-- The messages of the receive buffer in arrival order. -/
def rxGo (c : Nat) : List RxEnt → List Nat → State → State
  | [], _, s => s
  | e :: t, bl, s =>
    let r := rxOne s c e bl
    rxGo c t r.2.1 (match r.2.2 with | some e => modCore r.1 c fun k => { k with rx := k.rx ++ [e] } | none => r.1)

/-- The counters of the network engine whose banks are free are incremented, behind the arriving messages (R402). -/
def serveAdds : List (Nat × List Nat) → Core → Core
  | [], k => k
  | a :: t, k =>
    serveAdds t (if banksFree k a.2 then
      serveBanks (spadPut k (a.2.zip (natBytes 8 (leNat (spadGet k a.2) + 1)))) a.2
    else { k with adds := k.adds ++ [a] })

/-- The free banks of a core serve its receive buffer, then the adds given to its atomic unit (R307, R313, R402). -/
def rxServe (s : State) (c : Nat) : State :=
  let l := (coreAt s c).rx
  let s := if l = [] then s else rxGo c l [] (modCore s c fun k => { k with rx := [] })
  let a := (coreAt s c).adds
  if a = [] then s else modCore s c fun k => serveAdds a { k with adds := [] }

/-- The free banks serve the receive buffers that have grown since a state: what has joined them is performed in this cycle (R271). -/
def rxServeNew (old : State) : List Nat → State → State
  | [], s => s
  | c :: t, s => rxServeNew old t (if (coreAt old c).rx.length < (coreAt s c).rx.length then rxServe s c else s)

/-- A message takes its place in the receive buffer, which the banks serve from the next cycle on (log 5). -/
def rxPush (s : State) (c : Nat) (e : RxEnt) : State := modCore s c fun k => { k with rx := k.rx ++ [e] }

/-- Flits that the receive buffer holds: of messages that are held whole (R313). -/
def rxFlits (k : Core) : Nat :=
  ((k.rx.filter fun e => decide (e.msg.kind ≠ kData)).map fun e => e.msg.flits.length).foldl (· + ·) 0

/-- Whether a message is one that the receive buffer already holds (R293). -/
def rxHas (k : Core) (m : Msg) : Bool :=
  k.rx.any fun e => decide (srcNo e.msg = srcNo m) && decide (e.msg.sag = m.sag) && decide (e.msg.msgid = m.msgid)

end Sys2Proof.Machine
end

