-- ==== Sys2Proof/Machine/Requests.lean ====
section
/-!
DEFINITION. Remote requests where they are performed: writes at their ordering points with the write log and rollback
capability (R261, R262), pins and the hold queue (R127, R128, R295 to R298), performing RLD, RST and RAMO (R121, R271), and what
their issuer receives (R125, R126).
-/
namespace Sys2Proof.Machine

open Sys2Proof

/-! ### Rollback capability and the write log -/

/-- A launch loses its rollback capability (R262). -/
def loseCap (s : State) (task : Word) : State :=
  modQueue s (taskQueue task) fun q =>
    { q with launches := q.launches.map fun l => if l.lseq = taskLseq task then { l with cap := false } else l }

/-- A command queue's ring: its tier and offset, and its slots (R220, Table 10-4). -/
def ringOf (w : Word) : Nat × Nat := (bits w 63 61, bits w 39 0)
/-- The slots of the rings of a queue. -/
def ringSize (s : State) (q : Nat) : Nat := 2 ^ (bits (mreg s (.qcfg q)) 35 32 + 4)

/-- Whether a write puts a word with V = 1 into a launch ring (R262): the top byte of word 0 of one of its slots. -/
def ringValid (s : State) (t a : Nat) (bs : List Byte) : Bool :=
  (countUp 0 64).any fun q =>
    let r := ringOf (mreg s (.qring q))
    decide (r.1 = t) && decide (2 ≤ t) && meets r.2 (64 * ringSize s q) a bs.length &&
    (countUp 0 bs.length).any fun i =>
      decide (r.2 ≤ a + i) && decide (a + i < r.2 + 64 * ringSize s q) && decide ((a + i - r.2) % 64 = 7) &&
      decide (128 ≤ (lget (0 : Byte) bs i).toNat)

/-- What a write of a launch to memory costs it: its rollback capability, when the write is to tier 4 or 5 or makes a launch
record valid (R262). -/
def capWrite (s : State) (task : Word) (t a : Nat) (bs : List Byte) : State :=
  if t = 4 ∨ t = 5 ∨ ringValid s t a bs then loseCap s task else s

/-- Whether a launch is rollback-capable. -/
def hasCap (s : State) (q lseq : Nat) : Bool :=
  (queueAt s q).launches.any fun l => decide (l.lseq = lseq) && l.cap

/-- The bytes of a new entry of the write log of a die: 128 in tier 3, in an entry of the log (R261).  Which entry it is, and where
the entry's words stand in it, the spec leaves open, and both are free values (log 4, log 40). -/
def logEntryBytes (s : State) (die : Nat) : State :=
  let r := drawWord s
  let b := drawBytes r.2 128
  memStrong b.2 3 (bits (mreg s (.wlbase die)) 63 0 + 128 * (r.1.toNat % (bits (mreg s (.wlsize die)) 63 0 / 128))) b.1

/-- Log one 64-byte unit of tier 2 or 3 before a launch first writes it (R261); a full log costs the launch its
capability (R262). -/
def logUnit (s : State) (die t u q lseq : Nat) : State :=
  let d := dieAt s die
  if !(queueAt s q).launches.any (fun l => decide (l.lseq = lseq)) then s
  else if s.dies.any (fun x => x.2.wlog.any fun e =>
      decide (e.1 = t) && decide (e.2.1 = u) && decide (e.2.2.1 = q) && decide (e.2.2.2.1 = lseq)) then s
  else if bits (mreg s (.wlsize die)) 63 0 ≤ 128 * d.wlog.length then
    if hasCap s q lseq then
      postQueue (loseCap s (pack [(q, 42), (lseq, 0)])) q lseq Cause.wlogFull none 0 0
    else s
  else
    let old := cellsAt (tierMem s t) (64 * u) 64
    modDie (logEntryBytes s die) die fun d => { d with wlog := d.wlog ++ [(t, u, q, lseq, old)] }

/-- Log every unit a write meets. -/
def logUnits (s : State) (die t q lseq : Nat) : List Nat → State
  | [] => s
  | u :: r => logUnits (logUnit s die t u q lseq) die t q lseq r

/-- A pin entry (R127). -/
def pinAt (s : State) (i : Nat) : Pin := tget {} s.pins i

/-- Change a pin entry. -/
def pinPut (s : State) (i : Nat) (p : Pin) : State := { s with pins := tput i p s.pins }

/-- A seat by its number core × 4 + seat. -/
def modSeatNo (s : State) (k : Nat) (f : Seat → Seat) : State := modSeat s (k / 4) (k % 4) f

/-- The pin word of an entry (Table 5-6). -/
def pinWord (s : State) (i gen : Nat) : W32 := BitVec.ofNat 32 (chipNo s * 2 ^ 22 + i * 2 ^ 8 + gen)

/-! ### What an issuer receives -/

/-- The outcome of a reserved entry of `fi` (R125): a silent success releases it, any other waits for its turn. -/
def settleResv (s : State) (c n id : Nat) (o : Option FiEnt) : State :=
  modSeat s c n fun t =>
    match o with
    | none => { t with fiRes := t.fiRes.filter fun r => r.id ≠ id }
    | some e => { t with fiRes := t.fiRes.map fun r => if r.id = id ∧ r.done = none then { r with done := some (some e) } else r }

/-- A request fails (R126): an error entry takes its place in `fi`, and a notice reaches the fault ring.  `phys` is the
failing unit and its tier, which the notice of REMOTE_UE names in place of the error word (Table 11-3). -/
def failRequest (s : State) (c n : Nat) (task : Word) (id : Nat) (err : Word) (cause : Nat) (detail : Option Nat)
    (phys : Option (Nat × Nat)) : State :=
  let t := seatAt s c n
  let w := setBits err 63 56 cause
  let s := settleResv s c n id (some ⟨true, w⟩)
  match (if cause = Cause.remoteUe then phys else none) with
  | some (tier, a) => postTask s task t.tco c n cause detail (wordOf (a / 64 * 64)) (wordOf tier)
  | none => postTask s task t.tco c n cause detail w 0

/-! ### Reports of a pin -/

/-- Send a report of an entry to a package, for the tenant that asked (R330): 2 landed, 3 failed, and 1 for failed-expired, which travels as 3
with OFF 1 (log 12).  `who` is the package + 1,024 × the query's MSGID. -/
def sendPrep (s : State) (tenant who : Nat) (pin : Word) (st : Nat) : State :=
  sendResp s (mkMsg s kPrep tenant 0 127 2 (who / 1024) (who % 1024) 0 127 1 (if st = 1 then 1 else 0)
    (natBytes 8 pin.toNat ++ natBytes 8 (if st = 1 then 3 else st)))

/-- Send a report to every package registered with an entry (R271). -/
def sendPreps (s : State) (tenant st : Nat) : List (Nat × Word) → State
  | [] => s
  | (c, w) :: t => sendPreps (sendPrep s tenant c w st) tenant st t

/-- A pinned store's name for its entry: number and generation, so that a later store in the same entry is not taken for it (R127). -/
def pinKey (i gen : Nat) : Nat := i + 16384 * gen

/-- An entry leaves the pending state for the store that it was allocated for: 2 landed, 3 failed (R127, R271). -/
def settlePin (s : State) (key st gts : Nat) : State :=
  let i := key % 16384
  let p := pinAt s i
  if p.st ≠ 1 ∨ p.gen ≠ key / 16384 then s
  else
    let s := pinPut s i { p with st := st, at_ := gts, wait := [] }
    let s := { s with timers := s.timers ++ [(gts + 65536, .pinExpire (Fin.ofNat 16384 i))] }
    sendPreps s p.tenant st p.wait

/-- A pinned store fails for good: its entry is marked, and its outcome is a notice only (R125). -/
def failPin (s : State) (i : Nat) : State := settlePin s i 3 s.gts

/-! ### Writes at their ordering points -/

/-- The path number of an engine's command in the buffers (R275): 0 is the ordinary path. -/
def engPath (eng seq : Nat) : Nat := 16 * seq + eng + 1

/-- Whether a buffered write is of an engine command that its seat has not drained (R290): a channel's command is drained by a CDRN, which
waits for its writes, any other when the seat has read its result record. -/
def engLive (s : State) (w : BufWr) : Bool :=
  decide (w.path ≠ 0) && match w.owner with
    | some k => !(seatAt s (k / 4) (k % 4)).drained.contains w.path
    | none => true

/-- A write takes its place at the ordering point of tiers 2 to 5 (R276): it is logged first for its launch, and the pin
and the reserved entry of the request that made it are settled (R125, R127, R295). -/
def commitWrite (s : State) (w : BufWr) : State :=
  let s := match w.launch with
    | some (q, l) => if w.tier = 2 ∨ w.tier = 3 then
        logUnits s (match w.owner with | some k => k / 4 / 96 | none => w.die) w.tier q l (unitsOf w.addr w.bytes.length) else s
    | none => s
  let s := if stageOff s w.tier then s
    else ingress (rawWrite s w.tier w.addr w.bytes) (match w.owner with | some k => k / 4 | none => 384) w.tier w.addr w.bytes
  let s := match w.pin with | some i => settlePin s i 2 s.gts | none => s
  match w.owner with
  | some k => if w.resv = 0 then s else settleResv s (k / 4) (k % 4) w.resv none
  | none => s

/-- The selected writes of a list that is oldest first, each with the earlier ones of its buffer to its units: those keep their order
(R278, R280). -/
def closeWrites (p : BufWr → Bool) : List BufWr → List BufWr
  | [] => []
  | w :: t =>
    let r := closeWrites p t
    if p w || r.any (fun x => decide (x.buf = w.buf) && decide (x.tier = w.tier) && unitsMeet w.addr w.bytes.length x.addr x.bytes.length)
    then w :: r else r

/-- The writes that go to their ordering points when the selected ones do, in the order in which they go: what the port buffer holds for
the same units goes first (R280). -/
def commitSet (p : BufWr → Bool) (l : List BufWr) : List BufWr :=
  let near := closeWrites p (l.filter fun w => decide (w.buf ≠ 4))
  closeWrites (fun w => p w || near.any fun x => decide (x.tier = w.tier) && unitsMeet w.addr w.bytes.length x.addr x.bytes.length)
    (l.filter fun w => decide (w.buf = 4)) ++ near

/-- Commit some buffered writes one after another. -/
def commitList : List BufWr → State → State
  | [], s => s
  | w :: t, s => commitList t (commitWrite { s with wbuf := s.wbuf.erase w } w)

/-- Bring every buffered write that `p` selects to its ordering point. -/
def commitAll (p : BufWr → Bool) (s : State) : State := commitList (commitSet p s.wbuf) s

/-- Bring every buffered write to a unit of some bytes to its ordering point, before a strong access to them (R281). -/
def flushOver (s : State) (t a n : Nat) : State :=
  commitAll (fun w => decide (w.tier = t) && unitsMeet w.addr w.bytes.length a n) s

/-- A strong write of the package's own units or a record that the hardware writes at package scope (R243, R281). -/
def unitWrite (s : State) (t a : Nat) (bs : List Byte) : State := memStrong (flushOver s t a bs.length) t a bs

/-- The tier and the offset of the memory word that QRSV of a queue is mapped to, when it is mapped (R221). -/
def qrsvWord (q : Nat) : Option (Nat × Nat) :=
  match Config.qrsvPlace q with
  | some (b, n) => let t := if b then 3 else 2; if tierHas t (8 * n) 8 then some (t, 8 * n) else none
  | none => none

/-- QRSV of a queue (R220, R221): where it is mapped, the memory word holds it, which a task's RAMO.add changes. -/
def qrsvOf (s : State) (q : Nat) : Word :=
  match qrsvWord q with
  | some (t, a) => wordOf (leNat (cellsAt (tierMem s t) a 8))
  | none => mreg s (.qrsv q)

/-- Write QRSV of a queue. -/
def setQrsv (s : State) (q : Nat) (v : Word) : State :=
  match qrsvWord q with
  | some (t, a) => unitWrite s t a (natBytes 8 v.toNat)
  | none => setMreg s (.qrsv q) v

/-- A strong write on behalf of a task (R281). -/
def strongWrite (s : State) (die : Nat) (task : Word) (t a : Nat) (bs : List Byte) : State :=
  let s := flushOver s t a bs.length
  let s := touch s t a bs.length
  if !tierHas t a bs.length || stageOff s t then s
  else
    let s := capWrite s task t a bs
    let s := if t = 2 ∨ t = 3 then logUnits s die t (taskQueue task) (taskLseq task) (unitsOf a bs.length) else s
    ingress (rawWrite s t a bs) (96 * die) t a bs

/-- A launch's write enters the buffer of its die (R280); tiers 4 and 5 cost it its rollback capability (R262). -/
def taskWrite (s : State) (c n : Nat) (task : Word) (t a : Nat) (bs : List Byte) (pin : Option Nat) (resv path : Nat)
    (err : Word) (iss : Nat) : State :=
  let s := capWrite s task t a bs
  memEnqueue s { buf := c / 96, tier := t, addr := a, bytes := bs, owner := some (4 * c + n),
                 launch := some (taskQueue task, taskLseq task), hidden := false, pin := pin, resv := resv, path := path,
                 err := err, iss := iss }

/-! ### Pins at the destination -/

/-- The state of a pin as the package of a carrier sees it (R128, R296). -/
inductive PinSeen where
  | ok | pending | expired | failed | absent | remote
  deriving DecidableEq, Repr

/-- Look at one carried pin: locally when the package is its own (R128); another tenant's entry counts as expired. -/
def pinLook (s : State) (tenant : Nat) (p : W32) : PinSeen :=
  let gen := p.toNat % 256
  let chip := p.toNat / 2 ^ 22
  let x := pinAt s (p.toNat / 256 % 16384)
  if gen = 0 then .ok
  else if chip ≠ chipNo s then (if bitAt (rtOf s chip) 63 then .remote else .absent)
  else if x.st = 0 ∨ x.gen ≠ gen ∨ x.tenant ≠ tenant then .expired
  else if x.st = 1 then .pending
  else if x.st = 2 then .ok
  else .failed

/-- The pins a request carries (Table 5-4, R320): the words its header's CP names. -/
def msgPins (m : Msg) : List W32 :=
  let h := payWord m 0
  let p := payWord m 8
  (if bitAt h 51 then [BitVec.ofNat 32 p.toNat] else []) ++ (if bitAt h 52 then [BitVec.ofNat 32 (p.toNat / 2 ^ 32)] else [])

/-- The cause a carried pin gives, when it fails (R128, R298). -/
def pinCause : PinSeen → Option Nat
  | .expired => some Cause.pinExpired
  | .failed => some Cause.pinFailed
  | .absent => some Cause.pinChip
  | _ => none

/-- The first cause among some pins. -/
def pinsCause (s : State) (tenant : Nat) : List W32 → Option Nat
  | [] => none
  | p :: t => match pinCause (pinLook s tenant p) with | some c => some c | none => pinsCause s tenant t

/-! ### Performing a request -/

/-- The unit of a message built for the memories of its own package: 16 plus the tier; it never travels on a wire. -/
def memUnit (t : Nat) : Nat := 16 + t

/-- The pin entry a request's own store asked for, from its header (the entry's number is in the message's second flit,
which the package adds for itself). -/
def ownPin (m : Msg) : Option Nat := match m.flits with | _ :: f :: _ => some f.off | _ => none

/-- The number of the reserved entry of `fi` of a request built for the memories of its own package. -/
def ownResv (m : Msg) : Nat := match m.flits with | _ :: f :: _ => f.fidx | _ => 0

/-- The counted cycle at which such a request was made (R97). -/
def ownIss (m : Msg) : Nat := match m.flits with | _ :: f :: _ => leNat f.data | _ => 0

/-- Perform a request at tier 2 to 5 of its own package: RLD reads through the die's buffer, RST enters it, RAMO is
strong at fabric scope (R121, R280, R281). -/
def performMem (s : State) (m : Msg) (task : Word) : ReqEnd × State :=
  let t := m.dunit - 16
  let h := payWord m 0
  let kind := bits h 63 60
  let n := 2 ^ bits h 55 54
  let a := (m.flits.head?.map (·.off)).getD 0
  let c := m.sdie * 96 + m.score
  if kind = 1 then
    match accessRefusal s t a n with
    | some cause => (.fail cause none, s)
    | none => (.value 0, taskWrite s c m.sag task t a (natBytes n (payWord m 16).toNat)
                  (if bitAt h 53 then ownPin m else none) (if bitAt h 53 then 0 else ownResv m) 0
                  (h &&& 0xFFFFFFFFFF ||| pack [(kind, 52), (bits h 59 56, 48)]) (ownIss m))
  else if kind = 0 then
    let r := memRead s (some m.sdie) t a n
    match r.2.1 with
    | some cause => (.fail cause (some (t, a)), r.1)
    | none => (.value (wordOf (leNat r.2.2)), r.1)
  else
    let s := flushOver s t a n
    let r := memRead s none t a n
    match r.2.1 with
    | some cause => (.fail cause (some (t, a)), r.1)
    | none =>
      let old := leNat r.2.2
      let new := atomicNew n (bits h 49 46) old ((payWord m 16).toNat % 2 ^ (8 * n)) 0
      (.value (wordOf old), strongWrite r.1 m.sdie task t a (natBytes n new))

/-- Answer a request that was performed or refused: a message to a core's scratchpad is answered by REP or ACK and kept
in the completion cache; a request to the package's own memories settles its reserved entry at once. -/
def answerReq (s : State) (m : Msg) (task : Word) (o : ReqEnd) (detail : Option Nat) : State :=
  let h := payWord m 0
  let kind := bits h 63 60
  if 16 ≤ m.dunit then
    let c := m.sdie * 96 + m.score
    match o with
    | .value v => if kind = 1 then s else settleResv s c m.sag (ownResv m) (some ⟨false, v⟩)
    | .fail cause phys =>
      let s := if bitAt h 53 then (match ownPin m with | some i => failPin s i | none => s) else s
      failRequest s c m.sag task (ownResv m) (h &&& 0xFFFFFFFFFF ||| pack [(kind, 52), (bits h 59 56, 48)]) cause detail phys
  else answerMsg s m o detail

/-- Perform a request whose pins are satisfied, and answer it: at a scratchpad as soon as its bank is free (R307). -/
def performReq (s : State) (m : Msg) (task : Word) : State :=
  if 16 ≤ m.dunit then
    let r := performMem s m task
    answerReq r.2 m task r.1 none
  else rxPush s (msgCore m) { msg := m, ent := 0, left := [] }

/-- The task word an issuer of this package has at the seat a request names. -/
def issuerTask (s : State) (m : Msg) : Word := (seatAt s (m.sdie * 96 + m.score) m.sag).task

/-- Whether a held request or a new one is of the same seat to the same 64-byte unit (R297). -/
def sameUnit (m m' : Msg) : Bool :=
  decide (m.schip = m'.schip) && decide (m.sdie = m'.sdie) && decide (m.score = m'.score) && decide (m.sag = m'.sag) &&
  decide (m.ddie = m'.ddie) && decide (m.dcore = m'.dcore) && decide (m.dunit = m'.dunit) &&
  decide (((m.flits.head?.map (·.off)).getD 0) / 64 = ((m'.flits.head?.map (·.off)).getD 0) / 64)

/-- Change the record of a message that has been sent. -/
def modSent (s : State) (c : Nat) (x : Sent) (f : Sent → Sent) : State :=
  modCore s c fun k => { k with sent := k.sent.map fun y => if y.agent = x.agent ∧ y.id = x.id then f y else y }

/-- Note the path a message took (R314, R323). -/
def notePath (s : State) (c : Nat) (x : Sent) (p : Nat) : State := modSent s c x fun y => { y with path := p }

/-- Change a command of a channel of a core, named by its seat and SEQ. -/
def modCmd (s : State) (c h seat seq : Nat) (f : CpyCmd → CpyCmd) : State :=
  modCore s c fun k =>
    let x := tget {} k.ch h
    let x := { x with cmds := x.cmds.map fun m => if m.seat = seat ∧ m.seq = seq then f m else m }
    { k with ch := tput h x k.ch }

/-- A command of a channel fails (R192): the first cause is its CODE, and nothing more of it is read, written or replayed; the read replies it
still held are acknowledged. -/
def failCmd (s : State) (c h seat seq cause : Nat) (detail : Option Nat) (phys : Option (Nat × Nat)) : State :=
  let acks := ((tget {} (coreAt s c).ch h).cmds.filter fun m => decide (m.seat = seat) && decide (m.seq = seq)).flatMap (·.acks)
  let s := acks.foldl (fun s a => sendLate s a.2.2) s
  let s := modCmd s c h seat seq fun m =>
    if m.code ≠ 0 then m else { m with code := cause, detail := detail, phys := phys, pend := [], acks := [] }
  modCore s c fun k =>
    let x := tget {} k.ch h
    let x := { x with slog := x.slog.filter fun u => !(decide (u.seat = seat) && decide (u.seq = seq)) }
    { k with ch := tput h x k.ch }

/-- An uncorrectable error in a channel's own state ends its oldest command with ENG_UE (Table 11-4, log 35). -/
def chanBad (s : State) (c h : Nat) : State :=
  if s.engBad.contains (h, c) then
    match (tget {} (coreAt s c).ch h).cmds with
    | m :: _ => failCmd { s with engBad := s.engBad.erase (h, c) } c h m.seat m.seq Cause.engUe none none
    | [] => s
  else s

/-- A message ends in failure at its source (R126, R192, R314): a request fails, a sync-word access is answered with its
cause, a channel's command takes the code. -/
def failSent (s : State) (c : Nat) (x : Sent) (cause : Nat) (detail : Option Nat) (phys : Option (Nat × Nat)) : State :=
  let s := modCore s c fun k => { k with sent := k.sent.erase x }
  if 4 ≤ x.agent then failCmd s c (x.agent - 4) x.seat x.seq cause detail phys
  else if x.seq = 1 then modCore s c fun k => { k with syncRes := k.syncRes ++ [(x.id, some cause, 0)] }
  else
    let s := if x.len = 1 then failPin s x.first else s
    failRequest s c x.agent (seatAt s c x.agent).task x.resv x.err cause detail phys

/-- A message is to be resent at a time (R314): the time of the step is among the machine's own deadlines. -/
def dueResend (s : State) (c agent id at_ : Nat) : State :=
  { s with timers := s.timers ++ [(at_, .messageResend (Fin.ofNat 384 c) (Fin.ofNat 8 agent) id [])] }

/-- The cycles a source waits after the n-th refusal (R314). -/
def backOff (n : Nat) : Nat := min (32 * 2 ^ (n - 1)) 4096

/-- A refusal of a message (R314): reasons 0, 1 and 2 count, and the message is resent after its back-off; the sixteenth
ends it with FAB_RETRY.  Reason 3 does not count and rules its path out. -/
def refuseSent (s : State) (c : Nat) (x : Sent) (reason : Nat) : State :=
  if reason = 3 then
    dueResend (modSent s c x fun y => { y with resendAt := some s.gts, badPaths := y.path :: y.badPaths }) c x.agent x.id s.gts
  else
    let n := x.refusals + 1
    if 16 ≤ n then failSent s c x Cause.fabRetry none none
    else
      dueResend (modSent s c x fun y => { y with refusals := n, resendAt := some (s.gts + backOff n) }) c x.agent x.id
        (s.gts + backOff n)

/-- The record of a message that has been sent and is not answered. -/
def findSent (k : Core) (agent id : Nat) : Option Sent := k.sent.find? fun x => decide (x.agent = agent) && decide (x.id = id)

/-! ### Messages of the package's own units -/

/-- Stop a stream for a cause, with what its notice names (Table 11-3): no further hop of entry `lim` or a later one starts (R347). -/
def stopStreamAt (s : State) (t cause lim : Nat) (detail : Option Nat) (phys : Option (Nat × Nat)) : State :=
  let x : Stream := tget {} s.streams t
  let x : Stream := if x.st = 1 then { x with st := 2, endCode := cause, lim := lim, detail := detail, phys := phys }
                    else if x.st = 2 then { x with lim := min x.lim lim } else x
  { s with streams := tput t x s.streams }

/-- Stop a stream for a cause that names no place. -/
def stopStream (s : State) (t cause lim : Nat) : State := stopStreamAt s t cause lim none none

/-- Fail the held requests that carry a pin of another package, for the tenant whose query ends without an answer (R298). -/
def failHeld (tenant : Nat) (pin : W32) (cause : Nat) : List Held → State → State
  | [], s => s
  | h :: t, s =>
    failHeld tenant pin cause t
      (if h.pins.contains pin && decide (h.msg.tenant = tenant) then answerReq s h.msg (issuerTask s h.msg) (.fail cause none) none
       else { s with hold := s.hold ++ [h] })

/-- The agents of the package's own units (Table 15-3; 6 the scheduler's signal, log 12). -/
abbrev agTier : Nat := 0
abbrev agPin : Nat := 2
abbrev agGather : Nat := 3
abbrev agSignal : Nat := 6

/-- A command of a die's engine whose message has failed takes its cause (R192). -/
def failEngCmd (s : State) (eng who seq cause : Nat) (detail : Option Nat) (phys : Option (Nat × Nat)) : State :=
  let f := fun (m : EngCmd) =>
    if m.eng = eng ∧ 4 * m.core + m.seat = who ∧ m.seq = seq ∧ m.code = 0 then
      { m with code := cause, detail := detail, phys := phys, out := [], prog := 1000, val := if eng = 6 then 0 else m.val }
    else m
  { s with dies := s.dies.map fun d => (d.1, { d.2 with kv := d.2.kv.map f, topk := d.2.topk.map f, gthr := d.2.gthr.map f }) }

/-- A message of a unit of the package ends in failure (R192, R224, R298, R314, R347). -/
def failEng (s : State) (x : Sent) (cause : Nat) (detail : Option Nat) (phys : Option (Nat × Nat)) : State :=
  let s := { s with engSent := s.engSent.erase x }
  if x.agent = agTier then stopStream s x.seat cause x.first
  else if x.agent = agPin then
    failHeld x.msg.tenant (BitVec.ofNat 32 x.first) (if cause = Cause.fabRetry then cause else Cause.pinChip) s.hold { s with hold := [] }
  else if x.agent = agSignal then
    modQueue s x.seat fun q => { q with launches := q.launches.map fun l => if l.lseq = x.first then { l with sigErr := true } else l }
  else failEngCmd s x.resv x.seat x.seq cause detail phys

/-- Replace the record of a message of a unit. -/
def putEng (s : State) (x y : Sent) : State := { s with engSent := s.engSent.map fun z => if z = x then y else z }

/-- The next MSGID of a unit, when it may be used: at most 1,024 messages are outstanding, and none is used again within 65,536 cy (R315). -/
def engIdFree (s : State) (ag : Nat) : Option Nat :=
  let i := tget 0 s.engId ag
  if s.engSent.any (fun x => decide (x.agent = ag) && decide (x.id = i)) then none
  else match tfind s.engUse (useKey ag i) with
    | some g => if g + 65536 ≤ s.gts then some i else none
    | none => some i

/-- A message of a unit is to go out again at a time (R314). -/
def dueEng (s : State) (x : Sent) (g : Nat) : State :=
  { s with timers := s.timers ++ [(g, .messageResend 0 (Fin.ofNat 8 x.agent) x.id [])] }

/-- The last message of a shard to a member has gone out: the limit of the member's acknowledgement runs from now on (R329). -/
def shardSent (s : State) (x : Sent) : State :=
  if x.agent ≠ agTier ∨ x.err ≠ 1 then s
  else
    let y : Stream := tget {} s.streams x.seat
    let atmo := bits (mreg s (.mcast (4 * bits y.tgrp 5 0 + 3))) 19 0
    let s := { s with streams := tput x.seat { y with sentAt := tput (1024 * x.first + x.seq) s.gts y.sentAt } s.streams }
    if atmo = 0 then s
    else { s with timers := s.timers ++ [(s.gts + 64 * atmo, .mcastAckTimeout (Fin.ofNat 16 x.seat) x.first x.seq)] }

/-- Put a message of a unit on its way; `x` is among the records.  Each sending is a use of its MSGID (R315). -/
def goEng (s : State) (x : Sent) : State :=
  let y : Sent := { x with resendAt := none }
  let s := { s with engUse := tput (useKey x.agent x.id) s.gts s.engUse }
  match sendFree (putEng s x y) y.msg y.badPaths with
  | (.ok p, s) => shardSent (putEng s y { y with path := p }) y
  | (.error cause, s) => failEng s y cause none none

/-- Give a waiting message of a unit its MSGID and send it; without one it waits a cycle more.  1,024 stands for no MSGID. -/
def startEng (s : State) (x : Sent) : State :=
  match engIdFree s x.agent with
  | none => let y : Sent := { x with resendAt := some (s.gts + 1) }; dueEng (putEng s x y) y (s.gts + 1)
  | some i =>
    let y : Sent := { x with id := i, msg := sealMsg { x.msg with msgid := i } }
    goEng { putEng s x y with engId := tput x.agent ((i + 1) % 1024) s.engId } y

/-- A message of a unit of the package: agent, what it carries, and what its record names (stream or seat or queue, place, number); `err` is 1
on the last message of a shard. -/
def sendEng (s : State) (ag : Nat) (m : Msg) (resv seat first len seq : Nat) (err : Word) : State :=
  let x : Sent := { agent := ag, id := 1024, msg := m, refusals := 0, resendAt := none, badPaths := [], path := 0, resv := resv,
                    seat := seat, first := first, len := len, seq := seq, err := err }
  startEng { s with engSent := s.engSent ++ [x] } x

/-- A refusal of a message of a unit (R314). -/
def refuseEng (s : State) (x : Sent) (reason : Nat) : State :=
  if reason = 3 then
    let y : Sent := { x with resendAt := some s.gts, badPaths := x.path :: x.badPaths }
    dueEng (putEng s x y) y s.gts
  else if 16 ≤ x.refusals + 1 then failEng s x Cause.fabRetry none none
  else
    let g := s.gts + backOff (x.refusals + 1)
    let y : Sent := { x with refusals := x.refusals + 1, resendAt := some g }
    dueEng (putEng s x y) y g

/-- Send a query about each pin of another package, for the tenant of the request that carries it (R296, R330). -/
def sendQueries (s : State) (tenant : Nat) : List W32 → State
  | [] => s
  | p :: t =>
    let chip := p.toNat / 2 ^ 22
    sendQueries (if p.toNat % 256 = 0 ∨ chip = chipNo s then s
      else sendEng s agPin (mkMsg s kPqry tenant 0 127 2 0 chip 0 127 1 0 (natBytes 8 p.toNat ++ natBytes 8 (chipNo s)))
        0 0 p.toNat 0 0 0) tenant t

/-- A request to the package's own memories that found no place in the hold queue waits to be resent (R297). -/
def refuseOwn (s : State) (m : Msg) (task : Word) : State :=
  let c := m.sdie * 96 + m.score
  let h := payWord m 0
  match findSent (coreAt s c) m.sag m.msgid with
  | some x => refuseSent s c x 2
  | none =>
    let s := postTask s task (seatAt s c m.sag).tco c m.sag Cause.pinHoldFull none 0 0
    let x : Sent := { agent := m.sag, id := m.msgid, msg := m, refusals := 0, resendAt := none, badPaths := [],
                      path := 0, resv := ownResv m, seat := m.sag, first := (ownPin m).getD 0, len := if bitAt h 53 then 1 else 0,
                      seq := 0, err := h &&& 0xFFFFFFFFFF ||| pack [(bits h 63 60, 52), (bits h 59 56, 48)], iss := ownIss m }
    refuseSent (modCore s c fun k => { k with sent := k.sent ++ [x] }) c x 2

/-- A request at its destination (R128, R297): a failed pin refuses it, a pin that is pending or of another package sends it to the hold
queue, which refuses it with reason 2 when it is full; one behind an earlier request of its seat to its unit waits and takes no place; any
other is performed. -/
def arriveReq (s : State) (m : Msg) (task : Word) : State :=
  let ps := msgPins m
  let seen := ps.map (pinLook s m.tenant)
  match pinsCause s m.tenant ps with
  | some c => answerReq s m task (.fail c none) none
  | none =>
    if seen.contains .pending || seen.contains .remote then
      if 1024 ≤ (s.hold.filter (·.place)).length then
        if 16 ≤ m.dunit then refuseOwn s m task else
        sendResp s (mkResp s kNack m [2])
      else
        let s := { s with hold := s.hold ++ [{ msg := m, pins := ps.filter fun p => decide (pinLook s m.tenant p = .remote) }] }
        sendQueries s m.tenant ps
    else if s.hold.any (fun h => sameUnit h.msg m) then { s with hold := s.hold ++ [{ msg := m, pins := [], place := false }] }
    else performReq s m task

/-- Whether a request to the HBM4 stage must wait for a channel that changes its width: one that reads does (R338). -/
def reqWaits (s : State) (m : Msg) : Bool :=
  decide (m.dunit = memUnit 2) && decide (m.kind ≠ kRst) &&
  widthWait s 2 ((m.flits.head?.map (·.off)).getD 0) (2 ^ bits (payWord m 0) 55 54)

/-- Whether a held request may leave: no answer is outstanding and no local pin is pending. -/
def heldFree (s : State) (h : Held) : Bool :=
  h.pins.isEmpty && !reqWaits s h.msg && (msgPins h.msg).all fun p =>
    decide (p.toNat / 2 ^ 22 ≠ chipNo s) || decide (pinLook s h.msg.tenant p ≠ .pending)

/-- Release held requests in the order in which they entered (R297); a later one of the same seat and unit waits behind
an earlier one that is still held. -/
def releaseHeld : List Held → List Held → State → State
  | kept, [], s => { s with hold := kept ++ s.hold }
  | kept, h :: t, s =>
    if heldFree s h && !kept.any (fun k => sameUnit k.msg h.msg) then
      let local_ := (msgPins h.msg).filter fun p => decide (p.toNat / 2 ^ 22 = chipNo s)
      let task := issuerTask s h.msg
      releaseHeld kept t (match pinsCause s h.msg.tenant local_ with
        | some c => answerReq s h.msg task (.fail c none) none
        | none => performReq s h.msg task)
    else releaseHeld (kept ++ [h]) t s

/-- Look at every held request again (R271, R297). -/
def recheckHeld (s : State) : State := releaseHeld [] s.hold { s with hold := [] }

end Sys2Proof.Machine
end

