-- ==== Sys2Proof/Machine/Remote.lean ====
section
/-!
DEFINITION. Remote requests at the core: RLD, RST, RAMO and PINDROP (R121, R122, R131), the stream of `fo` (R123, R124),
delivery to `fi` (R125), and the single-request messages of the fabric (R313 to R315, R320, R326, R330).
-/
namespace Sys2Proof.Machine

open Sys2Proof

/-! ### The instructions -/

/-- A request header (Table 5-4). -/
def reqHeader (kind ext sz : Nat) (pq : Bool) (cp : Nat) (rh : Bool) (op off : Nat) : Word :=
  pack [(kind, 60), (ext, 56), (sz, 54), (if pq then 1 else 0, 53), (cp, 51), (if rh then 1 else 0, 50), (op, 46),
        (off % 2 ^ 40, 0)]

/-- The pin word of a request: the halves that CP names, from the carry slots as they stand at issue (R122). -/
def carryWord (t : Seat) (cp : Nat) : Word :=
  pack [(if cp.testBit 0 then t.carry0.toNat else 0, 0), (if cp.testBit 1 then t.carry1.toNat else 0, 32)]

/-- Check a request's extent, reserve its entry of `fi` and push its words (R122). -/
def pushRequest (s : State) (slot kind e sz : Nat) (pq : Bool) (cp : Nat) (rh : Bool) (op off : Nat) (data : List Word) :
    State :=
  let n := 2 ^ sz
  let x := extOf (cs s) e
  match extCheck x (if kind = 2 then [1, 2, 3] else [1, 2, 3, 4, 5]) (kind ≠ 1) (kind ≠ 0) n off n with
  | some cause => addCause s 2 cause slot (wordOf off) (wordOf e)
  | none =>
    let id := (cs s).resvNext
    let ws := reqHeader kind e sz pq cp rh op off :: ((if cp = 0 then [] else [carryWord (cs s) cp]) ++ data)
    let s := onSeat s fun t =>
      { t with resvNext := id + 1, fiRes := t.fiRes ++ [⟨id, kind = 1 && !pq, none⟩], foRes := t.foRes + ws.length }
    emit s slot 1 (.fo (match ws with
      | h :: r => ⟨id, true, h, 0⟩ :: r.map fun w => ⟨0, false, w, 0⟩
      | [] => []))

/-- RLD (R121). -/
def execRld (u : MSlot) (e : BitVec 4) (sz : BitVec 2) (a : SSrc) (h : Bool) (s : State) : Out :=
  .next (withSrcs s (mSlot u) [a] fun v s =>
    pushRequest s (mSlot u) 0 e.toNat sz.toNat false 0 h 0 (v a).toNat [])

/-- RST (R121). -/
def execRst (u : MSlot) (e : BitVec 4) (sz : BitVec 2) (q : Bool) (a b : SSrc) (c : BitVec 2) (h : Bool) (s : State) : Out :=
  .next (withSrcs s (mSlot u) [a, b] fun v s =>
    pushRequest s (mSlot u) 1 e.toNat sz.toNat q c.toNat h 0 (v a).toNat [v b])

/-- RAMO (R121): the size is 4 or 8 bytes. -/
def execRamo (u : MSlot) (e : BitVec 4) (d : Bool) (a b : SSrc) (c : BitVec 2) (h : Bool) (o : AOp) (s : State) : Out :=
  .next (withSrcs s (mSlot u) [a, b] fun v s =>
    pushRequest s (mSlot u) 2 e.toNat (if d then 3 else 2) false c.toNat h (aopNum o) (v a).toNat [v b])

/-- PINDROP (R131): no entry of `fi` is reserved. -/
def execPindrop (u : MSlot) (a : SSrc) (s : State) : Out :=
  .next (withSrcs s (mSlot u) [a] fun v s =>
    let s := reserveFo s 1
    emit s (mSlot u) 1 (.fo [⟨0, true, reqHeader 3 0 0 false 0 false 0 ((v a).toNat % 2 ^ 32), 0⟩]))

/-! ### The stream of `fo` -/

/-- The words a header calls for, itself included (R123). -/
def reqWords (h : Word) : Nat :=
  let kind := bits h 63 60
  if 4 ≤ kind then 1 else 1 + (if bits h 52 51 ≠ 0 then 1 else 0) + (if kind = 1 ∨ kind = 2 then 1 else 0)

/-- Whether a composed header is malformed (R123, Tables 5-3, 5-4). -/
def hdrBadForm (h : Word) : Bool :=
  let kind := bits h 63 60
  decide (4 ≤ kind) || decide (bits h 45 40 ≠ 0) ||
  (decide (kind = 0) && (bitAt h 53 || decide (bits h 52 51 ≠ 0) || decide (bits h 49 46 ≠ 0))) ||
  (decide (kind = 1) && decide (bits h 49 46 ≠ 0)) ||
  (decide (kind = 2) && (bitAt h 53 || decide (8 ≤ bits h 49 46) || decide (bits h 55 54 < 2)))

/-- The extent cause of a composed header (R123). -/
def hdrExtCause (t : Seat) (h : Word) : Option Nat :=
  let kind := bits h 63 60
  let n := 2 ^ bits h 55 54
  if kind = 3 then none
  else extCheck (extOf t (bits h 59 56)) (if kind = 2 then [1, 2, 3] else [1, 2, 3, 4, 5]) (kind ≠ 1) (kind ≠ 0) n
        (bits h 39 0) n

/-- A free entry of the pin table: which one the package takes is a free value (R127, log 4). -/
def freePin (s : State) : Option Nat × State :=
  let r := drawWord s
  let start := r.1.toNat % 16384
  let free := fun (i : Nat) => decide ((pinAt s i).st = 0)
  match (countUp start (16384 - start)).find? free with
  | some i => (some i, r.2)
  | none => ((countUp 0 start).find? free, r.2)

/-- The generation after another one: 1 to 255, then 1 again (R127). -/
def nextGen (g : Nat) : Nat := if 255 ≤ g then 1 else g + 1

/-- The message of a request (R320); a request to the package's own memories carries a second flit with the place of its
pin entry and of its reserved entry and the cycle it was made in, and never travels. -/
def requestMsg (s : State) (c n : Nat) (t : Seat) (x : Ext) (ws : List Word) (id msgid : Nat) (pin : Option Nat) (iss : Nat) : Msg :=
  let h := lget 0 ws 0
  let pinw := if bits h 52 51 ≠ 0 then lget 0 ws 1 else 0
  let data := if bits h 63 60 = 0 then 0 else lget 0 ws (reqWords h - 1)
  let body := bytesOf [h, pinw, data, 0, 0, 0, 0, 0]
  let kind := [kRld, kRst, kRamo].getD (bits h 63 60) 0
  if x.tier = 1 then
    mkMsg s kind (taskTenant t.task) (c / 96) (c % 96) n msgid (x.base / 2 ^ 42 % 1024) (x.base / 2 ^ 40 % 4)
      (x.base / 2 ^ 33 % 128) 0 ((x.base % 2 ^ 22 + bits h 39 0) % 2 ^ 22) body
  else
    { kind := kind, tenant := taskTenant t.task, schip := chipNo s, sdie := c / 96, score := c % 96, sag := n,
      msgid := msgid, dchip := chipNo s, ddie := c / 96, dcore := 127, dunit := memUnit x.tier,
      flits := [flit 0 (x.base + bits h 39 0) body, flit id (pin.getD 0) (natBytes 8 iss)], tag := 0 }

/-- Whether an earlier request of the seat to the same 64-byte unit is unanswered (R320). -/
def unitBusy (k : Core) (n : Nat) (m : Msg) : Bool := k.sent.any fun x => decide (x.agent = n) && sameUnit x.msg m

/-- The reserved entries of `fi` whose requests were pushed into `fo` after its head (R125): those that wait behind it and those on their way
into `fo`. -/
def laterResv (k : Core) (n : Nat) (t : Seat) : List Nat :=
  ((t.fo.tail.filter fun e => e.own ≠ 0).map (·.own)) ++
  (k.effs.filter fun e => decide (e.seat = n)).flatMap fun e => match e.land with | .fo ws => ws.map (·.own) | _ => []

/-- Reserve an entry of `fi` in push order: before those of requests that were pushed later (R125). -/
def putResv (later : List Nat) (r : Resv) : List Resv → List Resv
  | [] => [r]
  | x :: t => if x.id ≠ 0 ∧ later.contains x.id then r :: x :: t else x :: putResv later r t

/-- What the head of a seat's `fo` comes to when it leaves. -/
inductive LeaveEnd where
  /-- Nothing can leave: the words are not all there, `fi` has no entry, an extent waits, an earlier request to the unit is unanswered, no
  MSGID is free, or a word of the last request leaves in this cycle. -/
  | wait
  /-- A pinned store finds no free pin entry. -/
  | noPin
  /-- A composed header fails its checks. -/
  | bad (cause : Nat)
  | drop
  | go (x : Ext)
  deriving DecidableEq, Repr

/-- Whether the request at the head of a seat's `fo` can leave, and as what (R122 to R127, R320). -/
def leaveOf (s : State) (c n : Nat) : LeaveEnd :=
  let k := coreAt s c
  let t := seatOf k n
  match t.fo with
  | [] => .wait
  | e :: _ =>
    let h := e.w
    let kind := bits h 63 60
    let nw := reqWords h
    let ws := (t.fo.take nw).map (·.w)
    let x := extOf t (bits h 59 56)
    if ws.length < nw ∨ s.cyc < t.foUntil then .wait
    else if !e.chk && (kind ≠ 3 || hdrBadForm h) && decide (32 ≤ t.fi.length + t.fiRes.length) then .wait
    else match (if e.chk then none else if hdrBadForm h then some Cause.foHdr else hdrExtCause t h) with
    | some cause => .bad cause
    | none =>
      if kind = 3 then (if bits h 31 22 = chipNo s && !idFree s k n then .wait else .drop)
      else if x.rv || x.dm then .wait
      else
        let m := requestMsg s c n t x ws 0 0 none 0
        if unitBusy k n m || !idFree s k n || reqWaits s m then .wait
        else if kind = 1 && bitAt h 53 && (freePin s).1.isNone then .noPin
        else .go x

/-- A PINDROP leaves: to the pin table of its own package; the entry of another package is not this one's (R131). -/
def leaveDrop (s : State) (c n : Nat) (h : Word) : State :=
  if bits h 31 22 ≠ chipNo s then s
  else
    let r := nextMsgId s.gts (coreAt s c) n
    let s := setCore s c r.2
    { s with net := s.net ++ [mkMsg s kPdrop (taskTenant (seatAt s c n).task) (c / 96) (c % 96) n r.1 (chipNo s) 0 127 1 0
        (natBytes 8 h.toNat ++ natBytes 8 0)] }

/-- A request whose words `ws` have left `fo` goes to its memory or on its way; `id` is its entry of `fi` (R122, R127, R320, R323). -/
def leaveGo (s : State) (c n : Nat) (x : Ext) (ws : List Word) (id iss : Nat) (occ : List Nat) : State :=
  let t := seatAt s c n
  let h := lget 0 ws 0
  let kind := bits h 63 60
  let pq := kind = 1 && bitAt h 53
  let fp := if pq then freePin s else (some 0, s)
  let pi := fp.1.getD 0
  let g := nextGen (pinAt s pi).gen
  let key := pinKey pi g
  let r := nextMsgId s.gts (coreAt fp.2 c) n
  let m := requestMsg s c n t x ws id r.1 (if pq then some key else none) iss
  let s := modSeat (setCore fp.2 c r.2) c n fun t => { t with pinWait := false }
  let s := if pq then
      settleResv (pinPut s pi { gen := g, st := 1, tenant := taskTenant t.task, who := (c, n, t.task) }) c n id
        (some ⟨false, (pinWord s pi g).setWidth 64⟩)
    else s
  let s := if x.tier = 1 ∧ kind ≠ 0 then loseCap s t.task else s
  if x.tier ≠ 1 then arriveReq s m t.task
  else
    let sent : Sent := { agent := n, id := r.1, msg := m, refusals := 0, resendAt := none, badPaths := [], path := 0, resv := id,
                         seat := n, first := key, len := if pq then 1 else 0, seq := 0,
                         err := pack [(kind, 52), (bits h 59 56, 48), (bits h 39 0, 0)], iss := iss }
    match sendMsg (modCore s c fun k => { k with sent := k.sent ++ [sent] }) m occ [] with
    | (.ok p, s) => notePath s c sent p
    | (.error cause, s) => failSent s c sent cause none none

/-- REQUEST_LEAVE_FO (R122 to R127, R320, R323): the request at the head of a seat's `fo` leaves, one word a cycle, when its words are
there, an extent of an instruction's request is translated, a composed one finds an entry of `fi`, a pinned store finds a
pin entry, and no earlier request of the seat to its unit is unanswered. -/
def execRequestLeaveFo (c : CoreId) (n : Fin 4) (occ : List Nat) (s : State) : Out :=
  let k := coreAt s c.val
  let t := seatOf k n.val
  let e := t.fo.head?.getD ⟨0, false, 0, 0⟩
  let h := e.w
  let nw := reqWords h
  let ws := (t.fo.take nw).map (·.w)
  let id := if e.chk then e.own else t.resvNext
  -- the words leave; a composed header reserves its entry now
  let out := fun (s : State) => modSeat s c.val n.val fun t =>
    { t with fo := t.fo.drop nw, foUntil := s.cyc + nw }
  let reserve := fun (s : State) => if e.chk then s else modSeat s c.val n.val fun t =>
    { t with resvNext := id + 1, fiRes := putResv (laterResv k n.val t) ⟨id, bits h 63 60 = 1 && !bitAt h 53, none⟩ t.fiRes }
  .next (match leaveOf s c.val n.val with
    | .wait => s
    | .noPin =>
      if t.pinWait then s
      else postTask (modSeat s c.val n.val fun t => { t with pinWait := true }) t.task t.tco c.val n.val Cause.pinTableFull none 0 0
    | .bad cause =>
      failRequest (out (reserve s)) c.val n.val t.task id (pack [(bits h 63 60, 52), (bits h 59 56, 48), (bits h 39 0, 0)]) cause none none
    | .drop => leaveDrop (out s) c.val n.val h
    | .go x => leaveGo (out (reserve s)) c.val n.val x ws id ((t.fo.take nw).foldl (fun a e => max a e.iss) 0) occ)

/-- FI_DELIVER (R125): the oldest reserved entry whose outcome is known enters `fi`. -/
def execFiDeliver (c : CoreId) (n : Fin 4) (s : State) : Out :=
  .next (modSeat s c.val n.val fun t =>
    match t.fiRes with
    | r :: rest =>
      match r.done with
      | some (some e) => { t with fiRes := rest, fi := t.fi ++ [e] }
      | some none => { t with fiRes := rest }
      | none => t
    | [] => t)

/-! ### Single requests at their destination -/

/-- The response a completion cache holds for a request that was performed before (R315). -/
def cached (k : Core) (m : Msg) : Option Msg :=
  (k.cache.find? fun e => decide (e.schip = m.schip) && decide (e.sdie = m.sdie) && decide (e.score = m.score) &&
    decide (e.sag = m.sag) && decide (e.id = m.msgid)).map (·.resp)

/-- Whether a request has been delivered where it has no core to go to: at a package other than its DCHIP (R332), or for a core
number that no die has. -/
def strayMsg (s : State) (m : Msg) : Bool := decide (m.dchip ≠ chipNo s) || decide (96 ≤ m.dcore)

/-- The failure response to such a request: ROUTE_FAIL, or no entry of a grant table admits it (R326, R332). -/
def refuseStray (s : State) (m : Msg) : State :=
  sendResp s (mkResp s kAck m (if m.dchip ≠ chipNo s then failBytes Cause.routeFail none none
    else failBytes Cause.grantRefused (some Cause.grantNone) none))

/-- Whether two requests are one message of one source (R293, R315). -/
def sameMsg (m m' : Msg) : Bool := decide (srcNo m = srcNo m') && decide (m.sag = m'.sag) && decide (m.msgid = m'.msgid) && decide (m'.dunit < 16) && decide (m.dunit < 16)

/-- RLD, RST or RAMO message at a core of this package (R293, R313, R315, R319, R326): room in the receive buffer and its tag first, then
the completion cache, the requests that still wait, the grant table and the pins. -/
def execSingleRequest (m : Msg) (s : State) : Out :=
  if !arrived s m || !([kRld, kRst, kRamo].contains m.kind) || decide (16 ≤ m.dunit) then .next s
  else
    let s := takeMsg s m
    let k := coreAt s (msgCore m)
    if strayMsg s m then .next (refuseStray s m)
    else if 64 ≤ rxFlits k then .next (sendResp s (mkResp s kNack m [1]))
    else if !msgOk m then .next (sendResp s (mkResp s kNack m [0]))
    else match cached k m with
    | some r => .next (sendLate s r)
    | none =>
      if rxHas k m || s.hold.any (fun h => sameMsg h.msg m) then .next s
      else
      let h := payWord m 0
      let n := 2 ^ bits h 55 54
      let off := (m.flits.head?.map (·.off)).getD 0
      match grantCheck s (msgCore m) m (if m.kind = kRld then 0 else if m.kind = kRst then 1 else 2) [(off, n)]
          (m.kind ≠ kRamo || decide (off % n = 0)) with
      | .error d =>
        .next (answerReq s m (issuerTask s m)
          (.fail (if d = Cause.peerDown then Cause.peerDown else Cause.grantRefused) none)
          (if d = Cause.peerDown then none else some d))
      | .ok _ => .next (arriveReq s m (issuerTask s m))

/-! ### Answers at their issuer -/

/-- The cause a response carries, its detail and the memory it names (log 12). -/
def respFail (m : Msg) : Option (Nat × Option Nat × Option (Nat × Nat)) :=
  let w := payWord m 8
  let c := bits w 7 0
  if c = 0 then none
  else some (c, (if bits w 15 8 = 0 then none else some (bits w 15 8)),
    (if bits w 23 16 = 0 then none else some (bits w 23 16, (payWord m 16).toNat)))

/-- The end of a single request or sync-word access at its issuer: `v` is the value it returns. -/
def endRequest (s : State) (c : Nat) (x : Sent) (m : Msg) (v : Word) : State :=
  match respFail m with
  | some (cause, d, phys) => failSent s c x cause d phys
  | none =>
    let s := modCore s c fun k => { k with sent := k.sent.erase x }
    if x.seq = 1 then modCore s c fun k => { k with syncRes := k.syncRes ++ [(x.id, none, v)] }
    else if x.msg.kind = kRst then
      if x.len = 1 then settlePin s x.first 2 (payWord m 0).toNat else settleResv s c x.agent x.resv none
    else settleResv s c x.agent x.resv (some ⟨false, v⟩)

/-- A response this package may take: it is for one of its cores. -/
def respHere (s : State) (m : Msg) (k : Nat) : Bool :=
  arrived s m && decide (m.kind = k) && decide (m.dchip = chipNo s) && decide (m.dcore < 96)

/-- A notice about a message that has been sent: for the seat that sent it (R243). -/
def postSeat (s : State) (c n cause : Nat) : State :=
  let t := seatAt s c n
  postTask s t.task t.tco c n cause none 0 0

/-- A response whose tag fails is a refusal of its request, whose resending finds the response in the completion cache (R314, R315). -/
def respBad (s : State) (c : Nat) (x : Sent) : State := refuseSent (postSeat s c x.seat Cause.tagFail) c x 0

/-- REP (R125, R320): the value of an RLD or the old value of a RAMO. -/
def execRep (m : Msg) (s : State) : Out :=
  if !respHere s m kRep then .next s
  else
    let s := takeMsg s m
    match findSent (coreAt s (msgCore m)) m.sag m.msgid with
    | some x => .next (if !msgOk m then respBad s (msgCore m) x else if x.agent < 4 then endRequest s (msgCore m) x m (payWord m 0) else s)
    | none => .next s

/-- A request to a unit of this package that has been delivered at a package other than its DCHIP: ROUTE_FAIL goes back to its source (R332). -/
def strayUnit (s : State) (m : Msg) (kind : Nat) : Bool := arrived s m && decide (m.kind = kind) && decide (m.dchip ≠ chipNo s)

/-- PQRY (R296, R330): a landed, failed or free entry is answered at once, and an entry of another tenant as one that has expired; a
pending one registers the querying package. -/
def execPqry (m : Msg) (s : State) : Out :=
  if strayUnit s m kPqry then .next (refuseStray (takeMsg s m) m)
  else if !arrived s m || decide (m.kind ≠ kPqry) || decide (m.dchip ≠ chipNo s) then .next s
  else
    let s := takeMsg s m
    let w := payWord m 0
    let chip := bits (payWord m 8) 9 0 + 1024 * m.msgid
    let i := bits w 21 8
    let p := pinAt s i
    .next (if !msgOk m then sendResp s (mkResp s kNack m [0])
      else if p.st = 0 ∨ p.gen ≠ bits w 7 0 ∨ p.tenant ≠ m.tenant then sendPrep s m.tenant chip w 1
      else if p.st = 1 then pinPut s i { p with wait := p.wait ++ [(chip, w)] }
      else sendPrep s m.tenant chip w p.st)

/-- Strike out an answered pin of every held request of the tenant that asked, refusing those whose pin failed (R271, R296, R298). -/
def applyPrep (tenant : Nat) (pin : W32) (st : Nat) : List Held → State → List Held × State
  | [], s => ([], s)
  | h :: t, s =>
    let r := applyPrep tenant pin st t s
    if !h.pins.contains pin || decide (h.msg.tenant ≠ tenant) then (h :: r.1, r.2)
    else if st = 2 then ({ h with pins := h.pins.filter (· ≠ pin) } :: r.1, r.2)
    else
      let cause := if st = 3 then Cause.pinFailed else Cause.pinExpired
      (r.1, answerReq r.2 h.msg (issuerTask r.2 h.msg) (.fail cause none) none)

/-- PREP (R271, R330): the query it answers is done; OFF 1 marks failed-expired (log 12).  One whose tag fails refuses its query.  Requests that
it satisfies are performed in this cycle where their banks are free. -/
def execPrep (m : Msg) (s : State) : Out :=
  if !arrived s m || decide (m.kind ≠ kPrep) || decide (m.dchip ≠ chipNo s) then .next s
  else
    let s := takeMsg s m
    let q := s.engSent.find? fun x => decide (x.agent = agPin) && decide (x.id = m.msgid)
    if !msgOk m then .next (match q with | some x => refuseEng s x 0 | none => s)
    else
      let s := match q with | some x => { s with engSent := s.engSent.erase x } | none => s
      let st := if bits (payWord m 8) 1 0 = 2 then 2 else if (m.flits.head?.map (·.off)).getD 0 = 1 then 1 else 3
      let r := applyPrep m.tenant (BitVec.ofNat 32 (payWord m 0).toNat) st s.hold { s with hold := [] }
      .next (rxServeNew s (tkeys s.cores) (recheckHeld { r.2 with hold := r.1 ++ r.2.hold }))

/-- PDROP (R131): an entry of the issuer's tenant with equal generation returns to free. -/
def execPdrop (m : Msg) (s : State) : Out :=
  if !arrived s m || decide (m.kind ≠ kPdrop) || decide (m.dchip ≠ chipNo s) || decide (m.schip ≠ chipNo s) || !msgOk m
  then .next s
  else
    let s := takeMsg s m
    let w := payWord m 0
    let i := bits w 21 8
    let p := pinAt s i
    .next (if p.st ≠ 0 ∧ p.gen = bits w 7 0 ∧ p.tenant = m.tenant ∧ bits w 7 0 ≠ 0 then
      recheckHeld (sendPreps (pinPut s i { p with st := 0, wait := [] }) p.tenant 1 p.wait) else s)

/-- PIN_EXPIRE (R127, R298): an entry that landed or failed 65,536 cy ago returns to free. -/
def execPinExpire (i : Fin 16384) (s : State) : Out :=
  let p := pinAt s i.val
  .next (if (p.st = 2 ∨ p.st = 3) ∧ p.at_ + 65536 ≤ s.gts then recheckHeld (pinPut s i.val { p with st := 0 }) else s)

/-- COMPLETION_CACHE_EXPIRE (R315): responses older than 65,536 cy leave the cache; a timer of each response makes the step due. -/
def execCompletionCacheExpire (c : CoreId) (s : State) : Out :=
  .next (modCore s c.val fun k => { k with cache := k.cache.filter fun e => s.gts < e.until_ })

end Sys2Proof.Machine
end

