-- ==== Sys2Proof/Machine/Sync.lean ====
section
/-!
DEFINITION. Synchronisation: ACQ and REL (R118 to R120, R286 to R288), and when a FENCE, a BARW, an ACQ or a REL lets the core
go on (R98 to R100, R116).
-/
namespace Sys2Proof.Machine

open Sys2Proof

/-- The bank accesses of a sync word in the task's own scratchpad, which count in the issue cycle of the group (R24). -/
def syncBanks (s : State) (o : SyncObj) : State :=
  if (extOf (cs s) o.ext).tier = 0 then useBanks s (bankWords (spadPlaces (extOf (cs s) o.ext) o.off 8)) else s

/-- The check of a sync word's extent (R120): an access of 8 bytes in any tier. -/
def syncCheck (s : State) (slot obj : Nat) (wr add : Bool) (f : State → State) : State :=
  match tfind (cs s).objs obj with
  | none => addCause s 2 Cause.syncUndef slot 0 0
  | some o =>
    match extCheck (extOf (cs s) o.ext) [0, 1, 2, 3, 4, 5] (!wr || add) wr 8 o.off 8 with
    | some cause => addCause s 2 cause slot (wordOf o.off) (wordOf o.ext)
    | none => f (syncBanks s o)

/-- ACQ (R119): a completion freeze follows the group. -/
def execAcq (u : MSlot) (d : SDst) (o : BitVec 4) (s : State) : Out :=
  .next (syncCheck s (mSlot u) o.toNat false false fun s =>
    let s := if dstTo d = 62 then reserveFo s 1 else s
    onGrp s fun g => { g with waits := g.waits ++ [.acq o.toNat (dstTo d) (latchOf (mSlot u)) (mSlot u) (bundleNo s) none] })

/-- REL (R118): a completion freeze follows the group; the bindings are those the group found (R288). -/
def execRel (u : MSlot) (b : SSrc) (m : Bool) (o : BitVec 4) (s : State) : Out :=
  .next (withSrcs s (mSlot u) [b] fun v s =>
    syncCheck s (mSlot u) o.toNat true m fun s =>
      onGrp s fun g => { g with waits := g.waits ++ [.rel o.toNat m (v b) (mSlot u) g.binds none] })

/-! ### When earlier accesses are complete -/

/-- Whether an effect is a store or an atomic on its way to the scratchpad. -/
def isStore : Land → Bool
  | .store _ => true
  | .atomic .. => true
  | _ => false

/-- The complete requests waiting in a stream of words: their headers (R123). -/
def foHeaders : Nat → List Word → List Word
  | 0, _ => []
  | f + 1, ws =>
    match ws with
    | [] => []
    | h :: t => if t.length + 1 < reqWords h then [] else h :: foHeaders f (t.drop (reqWords h - 1))

/-- The complete requests waiting in a stream of words: their headers, and the cycle in which the last of their words was made. -/
def foIssued : Nat → List FoEnt → List (Word × Nat)
  | 0, _ => []
  | f + 1, es =>
    match es with
    | [] => []
    | e :: t =>
      if t.length + 1 < reqWords e.w then []
      else (e.w, ((e :: t).take (reqWords e.w)).foldl (fun a x => max a x.iss) 0) :: foIssued f (t.drop (reqWords e.w - 1))

/-- Requests of a seat that wait in `fo`. -/
def foReqs (t : Seat) : List Word := foHeaders 16 (t.fo.map (·.w))

/-- Whether a message in the hold queue is a request of a seat of this package. -/
def heldOf (s : State) (c n : Nat) (h : Held) : Bool :=
  decide (h.msg.schip = chipNo s) && decide (h.msg.sdie * 96 + h.msg.score = c) && decide (h.msg.sag = n)

/-- Whether an error entry still waits to be delivered (R99). -/
def errWaits (t : Seat) : Bool :=
  t.fiRes.any fun r => match r.done with | some (some e) => e.err | _ => false

/-- Whether a buffered write is visible at a scope (Tables 4-3, 13-3): core and die 0 and 1, package 2, beyond 3 and 4. -/
def wrVisible (scope : Nat) (w : BufWr) : Bool :=
  decide (scope ≤ 1) || (decide (scope = 2) && decide (w.tier = 4) && decide (w.buf = 4))

/-- The scope a FENCE reaches: with XP = 1 the paths of later engine commands are observers too, and an engine of the package reads at the
ordering point or the port buffer (R100, R280, R283).  With XP = 0 channels and engines could still read older data; here those of the core and
of its die read what the ordinary path reads (DESIGN CHOICE, log 22). -/
def fenceScope (xp : Bool) (scope : Nat) : Nat := if xp then max scope 2 else scope

/-- The condition of a FENCE (R98, R99, Table 4-3). -/
def fenceDone (s : State) (c n scope : Nat) : Bool :=
  let k := coreAt s c
  let t := seatOf k n
  !(k.effs.any fun e => decide (e.seat = n) && isStore e.land) && decide (t.foRes = 0) && (foReqs t).isEmpty &&
  !(k.sent.any fun x => decide (x.agent = n)) && !(s.hold.any (heldOf s c n)) && !errWaits t &&
  s.wbuf.all fun w => decide (w.owner ≠ some (4 * c + n)) || decide (w.path ≠ 0) || wrVisible scope w

/-- Whether bytes of two extents of a task are bytes of one memory: by their place where both are translated, else by their address in
the tenant's space, or by the number of the extent (R118, R228). -/
def extMeets (t : Seat) (i a n j b m : Nat) : Bool :=
  let x := extOf t i
  let y := extOf t j
  (decide (i = j) && meets a n b m) ||
  (decide (x.tier = y.tier) && !x.dm && !y.dm && meets (x.base + a) n (y.base + b) m) ||
  (x.virtual && y.virtual && meets (x.virt + a) n (y.virt + b) m)

/-- Whether bytes of a task's extent lie in a range bound to an object, by whichever extent the range was bound. -/
def boundMeets (t : Seat) (bs : List Bind) (obj ext off n : Nat) : Bool :=
  bs.any fun b => decide (b.obj = obj) && extMeets t b.ext b.off b.len ext off n

/-- Whether the bytes a request's header names lie in a range bound to an object. -/
def headMeets (t : Seat) (bs : List Bind) (obj : Nat) (h : Word) : Bool :=
  boundMeets t bs obj (bits h 59 56) (bits h 39 0) (2 ^ bits h 55 54)

/-- Whether a scratchpad place lies in a range bound to an object (R25, R117). -/
def boundPlace (t : Seat) (bs : List Bind) (obj p : Nat) : Bool :=
  bs.any fun b =>
    let x := extOf t b.ext
    let base := x.base % 2 ^ 22
    let o := swizzle x.span (p - base)
    decide (b.obj = obj) && decide (x.tier = 0) && decide (base ≤ p) && decide (b.off ≤ o) && decide (o < b.off + b.len)

/-- Whether physical bytes of a tier lie in a range bound to an object. -/
def boundPhys (t : Seat) (bs : List Bind) (obj tier a n : Nat) : Bool :=
  bs.any fun b =>
    let x := extOf t b.ext
    decide (b.obj = obj) && decide (x.tier = tier) && meets (x.base + b.off) b.len a n

/-- The places an effect writes in the scratchpad. -/
def storePlaces : Land → List Nat
  | .store bs => bs.map (·.1)
  | .atomic ps .. => ps
  | _ => []

/-- Step 1 of REL (R118): every earlier write of the seat to a region bound to the object is visible at its scope, and so far that an engine
command of the acquiring seat reads it, from the ordering point or the port buffer where its engine is of the package (R287).  The scopes of
objects are 0 core, 1 die, 2 package, 3 fabric. -/
def relDone (s : State) (c n obj scope : Nat) (bs : List Bind) : Bool :=
  let k := coreAt s c
  let t := seatOf k n
  !(k.effs.any fun e => decide (e.seat = n) && (storePlaces e.land).any (boundPlace t bs obj)) && decide (t.foRes = 0) &&
  !((foReqs t).any (headMeets t bs obj)) &&
  !(k.sent.any fun x => decide (x.agent = n) && headMeets t bs obj (payWord x.msg 0)) &&
  !(s.hold.any fun h => heldOf s c n h && headMeets t bs obj (payWord h.msg 0)) &&
  s.wbuf.all fun w => decide (w.owner ≠ some (4 * c + n)) || engLive s w || wrVisible (max scope 2) w ||
      !boundPhys t bs obj w.tier w.addr w.bytes.length

/-! ### The sync word -/

/-- The error word of a failed sync-word access (R120, R126). -/
def syncErr (cause kind : Nat) (o : SyncObj) : Word := pack [(cause, 56), (kind, 52), (o.ext, 48), (o.off, 0)]

/-- Note the failure of an ACQ or REL: the task stops after the group (R120). -/
def syncFail (s : State) (c n slot cause kind : Nat) (o : SyncObj) : State :=
  modSeat s c n fun t => { t with causes := t.causes ++ [⟨2, cause, slot, (coreAt s c).grp.addr, syncErr cause kind o, 0⟩] }

/-- The value of an ACQ lands in its destination and latch in the next counted cycle, the first in which a group can issue after the freeze,
and takes its place among the results of that cycle by the issue of its own group (R15, R119). -/
def landNext (s : State) (c n dst latch slot bun : Nat) (v : Word) : State :=
  modCore s c fun k =>
    { k with effs := k.effs ++ [{ due := if k.counts then k.ct + 1 else k.ct, seat := n, sw := k.sw, grp := k.grp.addr, slot := slot,
                                  land := .sca dst latch v, flags := 0, en := 0, info1 := 0, iss := k.grp.iss, bun := bun, dead := false }] }

/-- A wait that gives no value frees the `fo` entry it had reserved. -/
def freeFo (s : State) (c n dst : Nat) : State :=
  if dst = 62 then modSeat s c n fun t => { t with foRes := t.foRes - 1 } else s

/-- Read or write the sync word of an object with a strong access: the value read, the cause it fails with, or a message on
its way (tier 1). `op` is none for a read, else the RAMO operation that writes. -/
def syncAccess (s : State) (c n : Nat) (o : SyncObj) (op : Option Nat) (v : Word) : State × Except Nat (Option Word) × Nat :=
  let k := coreAt s c
  let t := seatOf k n
  let x := extOf t o.ext
  if x.tier = 0 then
    let ps := spadPlaces x o.off 8
    if op ≠ some 4 ∧ (spadErr k 0 ps).isSome then (s, .error Cause.spadUe, 0)
    else
      let old := leNat (spadGet k ps)
      match op with
      | none => (s, .ok (some (wordOf old)), 0)
      | some f => (setCore s c (spadPut k (ps.zip (natBytes 8 (atomicNew 8 f old v.toNat 0)))), .ok (some (wordOf old)), 0)
  else if x.tier = 1 then
    let r := nextMsgId s.gts k n
    let h := match op with
      | none => reqHeader 0 o.ext 3 false 0 false 0 o.off
      | some 4 => reqHeader 1 o.ext 3 false 0 false 0 o.off
      | some f => reqHeader 2 o.ext 3 false 0 false f o.off
    let m := requestMsg s c n t x (match op with | none => [h] | some _ => [h, v]) 0 r.1 none 0
    let x : Sent := { agent := n, id := r.1, msg := m, refusals := 0, resendAt := none, badPaths := [], path := 0, resv := 0,
                      seat := n, first := 0, len := 0, seq := 1, err := syncErr 0 (if op.isSome then 1 else 0) o }
    let s := setCore s c { r.2 with sent := r.2.sent ++ [x] }
    let s := if op.isSome then loseCap s t.task else s
    match sendFree s m [] with
    | (.ok p, s) => (notePath s c x p, .ok none, r.1)
    | (.error cause, s) => (modCore s c fun k => { k with sent := k.sent.erase x }, .error cause, 0)
  else
    let a := x.base + o.off
    let s := flushOver s x.tier a 8
    let r := memRead s none x.tier a 8
    match op, r.2.1 with
    | none, none => (r.1, .ok (some (wordOf (leNat r.2.2))), 0)
    | none, some cause => (r.1, .error cause, 0)
    | some f, e =>
      match (if f = 4 then accessRefusal s x.tier a 8 else e) with
      | some cause => (r.1, .error cause, 0)
      | none =>
        (strongWrite r.1 (c / 96) t.task x.tier a (natBytes 8 (atomicNew 8 f (leNat r.2.2) v.toNat 0)), .ok (some 0), 0)

/-- Whether a sync-word access may begin: one that travels needs a MSGID (R315), one to the HBM4 stage a channel that issues (R338). -/
def syncReady (s : State) (c n : Nat) (o : SyncObj) : Bool :=
  let x := extOf (seatAt s c n) o.ext
  (decide (x.tier ≠ 1) || idFree s (coreAt s c) n) && !widthWait s x.tier (x.base + o.off) 8

/-- The answer to a sync-word message, taken out of the core. -/
def takeSync (s : State) (c id : Nat) : Option (Option Nat × Word) × State :=
  let k := coreAt s c
  match k.syncRes.find? fun r => decide (r.1 = id) with
  | some r => (some r.2, setCore s c { k with syncRes := k.syncRes.erase r })
  | none => (none, s)

/-- One look at a completion freeze: none when it ends, else what it waits for now. -/
def waitLook (s : State) (c n : Nat) (w : CWait) : Option CWait × State :=
  match w with
  | .fence x scope => (if fenceDone s c n (fenceScope x scope) then none else some (.fence x scope), s)
  | .barw b =>
    let x := barOf (seatAt s c n) b
    (if x.expect ≤ x.count then none else some (.barw b), s)
  | .acq obj dst latch slot bun started =>
    let o := tget ⟨0, 0, 0⟩ (seatAt s c n).objs obj
    match started with
    | none =>
      if !syncReady s c n o then (some w, s)
      else match syncAccess s c n o none 0 with
      | (s, .ok (some v), _) => (none, landNext s c n dst latch slot bun v)
      | (s, .ok none, id) => (some (.acq obj dst latch slot bun (some id)), s)
      | (s, .error cause, _) => (none, syncFail (freeFo s c n dst) c n slot cause 0 o)
    | some id =>
      match takeSync s c id with
      | (some (none, v), s) => (none, landNext s c n dst latch slot bun v)
      | (some (some cause, _), s) => (none, syncFail (freeFo s c n dst) c n slot cause 0 o)
      | (none, s) => (some w, s)
  | .rel obj add v slot bs started =>
    let o := tget ⟨0, 0, 0⟩ (seatAt s c n).objs obj
    match started with
    | none =>
      if !relDone s c n obj o.scope bs || !syncReady s c n o then (some w, s)
      else match syncAccess s c n o (some (if add then 0 else 4)) v with
        | (s, .ok (some _), _) => (none, s)
        | (s, .ok none, id) => (some (.rel obj add v slot bs (some id)), s)
        | (s, .error cause, _) => (none, syncFail s c n slot cause 1 o)
    | some id =>
      match takeSync s c id with
      | (some (none, _), s) => (none, s)
      | (some (some cause, _), s) => (none, syncFail s c n slot cause 1 o)
      | (none, s) => (some w, s)
  | .cdrn .. => (some w, s)
  | .claim .. => (some w, s)

/-- The object of a REL that has not begun its access, and of any REL. -/
def relWaits : CWait → Option Nat
  | .rel obj _ _ _ _ none => some obj
  | _ => none
/-- The object of a REL. -/
def relOf : CWait → Option Nat
  | .rel obj .. => some obj
  | _ => none

/-- Look at every completion freeze of a core, in slot order; a REL waits behind an earlier one on its object, so that the two write the
sync word in their order (R288).  `busy` are the objects of earlier RELs that have not ended. -/
def waitsLook (c n : Nat) (busy : List Nat) : List CWait → State → List CWait × State
  | [], s => ([], s)
  | w :: t, s =>
    let r := if (match relWaits w with | some o => busy.contains o | none => false) then (some w, s) else waitLook s c n w
    let q := waitsLook c n (match r.1 with | some x => (relOf x).toList ++ busy | none => busy) t r.2
    (match r.1 with | some w => w :: q.1 | none => q.1, q.2)

/-- After a look at the freezes: when none is left, a cause the group has met, a trap that has landed (R45) or a stop asked for at a yield
stops the task now (R86, R120, R241). -/
def afterWaits (s : State) (c n : Nat) (ws : List CWait) : State :=
  let s := modCore s c fun k => { k with waits := ws, frz := if ws = [] then 0 else k.frz }
  let t := seatAt s c n
  if ws = [] ∧ t.causes ≠ [] then takeStop s c n t.causes t.pc.toNat
  else if ws = [] ∧ t.retire.isSome then modCore s c fun k => vacate k n
  else if ws = [] ∧ t.stopReq.isSome ∧ (coreAt s c).cur = some n ∧ (coreAt s c).choose then silentStop s c n
  else s

/-- Look at the freezes of a core whose seat issues. -/
def lookCore (s : State) (c : Nat) : State :=
  let k := coreAt s c
  if k.waits = [] then s
  else
    let n := k.cur.getD k.last
    let r := waitsLook c n [] k.waits s
    afterWaits r.2 c n r.1

end Sys2Proof.Machine
end

