-- ==== Sys2Proof/Machine/Landing.lean ====
section
/-!
DEFINITION. Results in flight: what lands where (R11 to R15, R44, R45, R85, R107, R110, R134), and the steps of the core that land
them: STORE_COMMIT and RESULT_LAND.
-/
namespace Sys2Proof.Machine

open Sys2Proof

/-- Write a tile register's bytes (R20). -/
def tilePut (k : Core) (t : Nat) (bs : List (Nat × Byte)) : Core :=
  { k with tile := cellsPutAll (bs.map fun p => (36864 * t + p.1, p.2)) k.tile }

/-- Write words of a d register from word `i` on (R22). -/
def dregPut (n : Nat) : Nat → List W32 → Tbl W32 → Tbl W32
  | _, [], d => d
  | i, w :: t, d => dregPut n (i + 1) t (tset 0 (560 * n + i) w d)

/-- Write scales from entry `i` on (R163). -/
def scalesPut : Nat → List (BitVec 16) → Tbl (BitVec 16) → Tbl (BitVec 16)
  | _, [], t => t
  | i, v :: r, t => scalesPut (i + 1) r (tset 0 i v t)

/-- Write a latch, unless the core has switched seats since the result's syllable issued (R11). -/
def latchPut (k : Core) (e : Eff) (l : Nat) (v : Word) : Core :=
  if l < 6 ∧ e.sw = k.sw then { k with latch := tset 0 l v k.latch } else k

/-- Write a vector latch: c.la under c, c.lb under 8 + c. -/
def vlatchPut (k : Core) (e : Eff) (l : Nat) (v : Vec) : Core :=
  if e.sw = k.sw then { k with vlatch := tset 0 l v k.vlatch } else k

/-- Change the seat an effect belongs to. -/
def effSeat (k : Core) (e : Eff) (f : Seat → Seat) : Core := putSeat k e.seat (f (seatOf k e.seat))

/-- The value of an effect lands in its core (stores and beats land by their own steps). -/
def landVal (k : Core) (e : Eff) : Core :=
  match e.land with
  | .sca d l v =>
    let k := effSeat k e fun t =>
      if d = 62 then { t with fo := t.fo ++ [⟨0, false, v, e.iss⟩], foRes := t.foRes - 1 }
      else if d < 56 then aSet t d v else t
    latchPut k e l v
  | .ctl i v =>
    if i = 0x40 then effSeat k e fun t => { t with fpc := fpcOf v }
    else if i = 0x41 then effSeat k e fun t => { t with flg := clearFlags t.flg v }
    else { k with tg := tset 0 (i - 0x20) (v &&& 0x3FFFF) k.tg }
  | .vec c d m data lb =>
    let out := ofLanes (maskLanes m (lanesOf data))
    let k := effSeat k e fun t =>
      if d < 32 then { t with v := tset 0 (32 * c + d) (mergeLanes m (vReg t c d) data) t.v }
      else if 1000 ≤ d then { t with qo := tput c (fillQo (d - 1000) out m (qoOf t c)) t.qo }
      else t
    vlatchPut k e (if lb then 8 + c else c) out
  | .vbytes c n bm data latch lb =>
    let new := mergeBytes bm (vReg (seatOf k e.seat) c n) data
    vlatchPut (effSeat k e fun t => { t with v := tset 0 (32 * c + n) new t.v }) e (if lb then 8 + c else c) (latch.getD new)
  | .pred c n m v => effSeat k e fun t => pSet t c n ((pReg t c n &&& ~~~ m) ||| (v &&& m))
  | .triple c n m x y z latch =>
    let k := effSeat k e fun t =>
      { t with v := tset 0 (32 * c + n) (mergeLanes m (vReg t c n) x)
                 (tset 0 (32 * c + n + 1) (mergeLanes m (vReg t c (n + 1)) y)
                   (tset 0 (32 * c + n + 2) (mergeLanes m (vReg t c (n + 2)) z) t.v)) }
    vlatchPut k e c latch
  | .carry b v => effSeat k e fun t => if b then { t with carry1 := v } else { t with carry0 := v }
  | .stg key v => effSeat k e fun t => { t with stg := tset 0 key v t.stg }
  | .fo ws => effSeat k e fun t => { t with fo := t.fo ++ ws.map (fun w => { w with iss := e.iss }), foRes := t.foRes - ws.length }
  | .wrow row bs tag => { k with w1 := cellsPut (192 * row) bs k.w1, tag1 := tag }
  | .wswap => { k with w0 := k.w1, w1 := k.w0, sw0 := k.sw1, sw1 := k.sw0, tag0 := k.tag1, tag1 := k.tag0 }
  | .mclr m =>
    let k := if m.getLsbD 0 then { k with acc := [] } else k
    let k := if m.getLsbD 1 then { k with w1 := [], sw1 := [], tag1 := 0 } else k
    if m.getLsbD 2 then { k with sa := [] } else k
  | .scales acts lo vs => if acts then { k with sa := scalesPut lo vs k.sa } else { k with sw1 := scalesPut lo vs k.sw1 }
  | .tile t bs => tilePut k t bs
  | .dreg n ws => { k with d := dregPut n 0 ws k.d }
  | .store _ => k
  | .atomic .. => k
  | .beat .. => k
  | .angle => k

/-- The place of an effect among those of its group (R15, R107, R156, R174): slot order, and a result of the second bundle after one of the
first, bytes of a tile among them.
Bytes of the scratchpad go by slot alone (R107). -/
def effPlace (e : Eff) : Nat :=
  match e.land with
  | .store _ | .atomic .. => e.slot
  | _ => 32 * e.bun + e.slot

/-- Whether an effect counts as issued before another (R15). -/
def effBefore (x y : Eff) : Bool := decide (x.iss < y.iss) || (decide (x.iss = y.iss) && decide (effPlace x < effPlace y))

/-- Insert an effect into a list that stands in order of issue. -/
def byIssue (e : Eff) : List Eff → List Eff
  | [] => [e]
  | x :: t => if effBefore e x then e :: x :: t else x :: byIssue e t

/-- Some effects in order of issue (R15). -/
def inOrder (l : List Eff) : List Eff := l.foldl (fun r e => byIssue e r) []

/-- What a trapping effect had reserved is free again (R45, R77). -/
def freeReserved (k : Core) (e : Eff) : Core :=
  match e.land with
  | .sca 62 _ _ => effSeat k e fun t => { t with foRes := t.foRes - 1 }
  | .vec c d _ _ _ => if 1000 ≤ d then effSeat k e fun t => { t with qo := tput c (dropQo (d - 1000) (qoOf t c)) t.qo } else k
  | _ => k

/-- Remember what a commit of this cycle replaces, for the channels that read in it (R268). -/
def keepPrior (k : Core) : List Nat → Core
  | [] => k
  | p :: t => keepPrior (if k.prior.any (fun x => decide (x.1 = p)) then k else { k with prior := (p, cellAt k.spad p) :: k.prior }) t

/-- STORE_COMMIT of one effect: a store's bytes commit; an atomic's word is read and written, and its old value lands 8
counted cycles later (R107, R110). -/
def commitEff (k : Core) (e : Eff) : Core × List Eff :=
  match e.land with
  | .store bs => (spadPut (keepPrior k (bs.map (·.1))) bs, if e.flags = 0 then [] else [{ e with land := .fo [] }])
  | .atomic ps op x cmp d l =>
    let old := leNat (spadGet k ps)
    (spadPut (keepPrior k ps) (ps.zip (natBytes 8 (atomicNew 8 op old x.toNat cmp.toNat))),
     [{ e with due := e.due + 8, land := .sca d l (wordOf old) }])
  | _ => (k, [e])

/-- Whether a store or an atomic commits now. -/
def commitNow (k : Core) (e : Eff) : Bool := decide (e.due ≤ k.ct) && isStore e.land && !e.traps && !e.dead

/-- Commit some stores and atomics in turn. -/
def commitAllOf : List Eff → Core → Core
  | [], k => k
  | e :: t, k =>
    let r := commitEff k e
    commitAllOf t { r.1 with effs := r.1.effs ++ r.2 }

/-- STORE_COMMIT (R107): the writes of a cycle take effect before its reads, in order of issue. -/
def execStoreCommit (c : CoreId) (s : State) : Out :=
  .next (modCore s c.val fun k =>
    commitAllOf (inOrder (k.effs.filter (commitNow k))) { k with effs := k.effs.filter fun e => !commitNow k e, prior := [] })

/-- Whether an effect lands now by RESULT_LAND. -/
def effDue (k : Core) (e : Eff) : Bool :=
  decide (e.due ≤ k.ct) && !(isStore e.land && !e.traps && !e.dead)

/-- Land the values of the effects that are due and not trapping, one after another (R15). -/
def landDue : List Eff → Core → Core
  | [], k => k
  | e :: t, k =>
    if effDue k e then landDue t (if e.dead then freeReserved k e else if e.traps then k else landVal k e) else landDue t k

/-- Raise the flags of every result that lands in this cycle, after a SETC of FLG (R44). -/
def flagDue : List Eff → Core → Core
  | [], k => k
  | e :: t, k =>
    flagDue t (if effDue k e ∧ e.flags ≠ 0 then effSeat k e fun x => { x with flg := raiseFlags x.flg e.flags } else k)

/-! ### What the sequencer reads -/

/-- The first 64 columns of a tile row as FP32 words; columns at or beyond COLS read +0 (R177). -/
def seqRow (k : Core) (t r : Nat) : List W32 :=
  let c := bits (tget 0 k.tg t) 15 8
  (countUp 0 64).map fun j =>
    if j < c then BitVec.ofNat 32 (leNat (cellsAt k.tile (36864 * t + (r * c + j) * 4) 4)) else 0

/-- The sequencer reads its next tile row when the cycle for it has come (R175). -/
def seqRead (k : Core) : Core :=
  match k.seqr with
  | none => k
  | some q =>
    if q.row.isNone && q.run && decide (q.due ≤ k.ct) then
      { k with seqr := some { q with row := some (seqRow k q.tile (q.row0 + q.next)), due := k.ct + 4 } }
    else k

end Sys2Proof.Machine
end

