-- ==== Sys2Proof/Machine/Vector.lean ====
section
/-!
DEFINITION. The V class (R132 to R151): vector arithmetic, compare, select and predicate logic, conversion, approximations,
Welford statistics and the cross-lane instructions.
-/
namespace Sys2Proof.Machine

open Sys2Proof

/-! ### Elements and lanes -/

/-- The signed or unsigned integer an element of an integer type holds (R67, R132). -/
def elemInt (ty : Ty) (n : Nat) : Int :=
  match ty with
  | .i32 => if n < 2 ^ 31 then n else (n : Int) - 2 ^ 32
  | .i16 => if n < 2 ^ 15 then n else (n : Int) - 2 ^ 16
  | _ => n

/-- The least and the greatest value of an integer type. -/
def elemRange : Ty → Int × Int
  | .i32 => (-2 ^ 31, 2 ^ 31 - 1)
  | .n32 => (0, 2 ^ 32 - 1)
  | .i16 => (-2 ^ 15, 2 ^ 15 - 1)
  | _ => (0, 2 ^ 16 - 1)

/-- The element an integer wraps to (R132). -/
def elemWrap (ty : Ty) (i : Int) : Nat := (i % (2 ^ ty.bits : Nat)).toNat

/-- An exact integer clamped to the type's range, with SAT where it was clamped (R138). -/
def elemSat (ty : Ty) (i : Int) : Nat × Flags :=
  let r := elemRange ty
  if i < r.1 then (elemWrap ty r.1, fSAT) else if r.2 < i then (elemWrap ty r.2, fSAT) else (elemWrap ty i, 0)

/-- The value of a floating-point element (R67). -/
def elemVal (ty : Ty) (n : Nat) : FV :=
  match ty with
  | .bf16 => valBf (BitVec.ofNat 16 n)
  | .f16 => val16 (BitVec.ofNat 16 n)
  | _ => val32 (BitVec.ofNat 32 n)

/-- An exact value with the flags of its forming, rounded once into the element format (R136). -/
def elemRound (ty : Ty) (r : FV × Flags) : Nat × Flags :=
  match ty with
  | .bf16 => let q := rneBf r.1; (q.1.toNat, r.2 ||| q.2)
  | .f16 => let q := rne16 r.1; (q.1.toNat, r.2 ||| q.2)
  | _ => let q := rne32 r.1; (q.1.toNat, r.2 ||| q.2)

/-- An operation on two elements of a type: what it gives, and the flags it raises. -/
abbrev ElemOp := Ty → Nat → Nat → Nat × Flags

/-- Apply an element operation to each element of a lane (R132). -/
def laneOp (f : ElemOp) (ty : Ty) (a b : W32) : W32 × Flags :=
  if ty.is32 then let r := f ty a.toNat b.toNat; (BitVec.ofNat 32 r.1, r.2)
  else
    let lo := f ty (a.toNat % 2 ^ 16) (b.toNat % 2 ^ 16)
    let hi := f ty (a.toNat / 2 ^ 16) (b.toNat / 2 ^ 16)
    (BitVec.ofNat 32 (lo.1 % 2 ^ 16 + 2 ^ 16 * hi.1), lo.2 ||| hi.2)

/-- The lanes that `f` gives, and the flags of the active ones (R44). -/
def vlanes (p : BitVec 16) (f : Nat → W32 × Flags) : Vec × Flags :=
  let l := (countUp 0 16).map fun i => if p.getLsbD i then f i else (0, 0)
  (ofLanes (l.map (·.1)), orFlags (l.map (·.2)))

/-- The slot of the VA slot of a cluster (Table 3-2). -/
def vaSlot (k : Fin 8) : Nat := 5 + k.val

/-- Deliver a result as R134 gives: the entry of c.qo is reserved now, the rest lands after the latency. -/
def vsend (s : State) (k : Fin 8) (d : VDst) (lat : Nat) (p : BitVec 16) (r : Vec × Flags) : State :=
  let q := vdstTo s k.val d
  emitF q.2 (vaSlot k) lat (.vec k.val q.1 p r.1 false) r.2

/-- A V-class syllable whose lanes depend on one or two sources lane by lane. -/
def vector2 (k : Fin 8) (d : VDst) (a b : VSrc) (p : Fin 8) (lat : Nat) (f : W32 → W32 → W32 × Flags) (s : State) : Out :=
  .next (withVSrcs s k.val [a, b] fun v s =>
    let m := pReg (cs s) k.val p.val
    vsend s k d lat m (vlanes m fun i => f (lane (v a) i) (lane (v b) i)))

/-- The same with one source. -/
def vector1 (k : Fin 8) (d : VDst) (a : VSrc) (p : Fin 8) (lat : Nat) (f : W32 → W32 × Flags) (s : State) : Out :=
  .next (withVSrcs s k.val [a] fun v s =>
    let m := pReg (cs s) k.val p.val
    vsend s k d lat m (vlanes m fun i => f (lane (v a) i)))

/-! ### Arithmetic -/

/-- VADD of elements (Table 6-1, R138). -/
def addElem (sat : Bool) : ElemOp := fun ty a b =>
  if ty.isFloat then elemRound ty (fvAdd (elemVal ty a) (elemVal ty b))
  else let x := elemInt ty a + elemInt ty b; if sat then elemSat ty x else (elemWrap ty x, 0)

/-- VSUB of elements. -/
def subElem (sat : Bool) : ElemOp := fun ty a b =>
  if ty.isFloat then elemRound ty (fvSub (elemVal ty a) (elemVal ty b))
  else let x := elemInt ty a - elemInt ty b; if sat then elemSat ty x else (elemWrap ty x, 0)

/-- VMUL of elements. -/
def mulElem (m : MulMod) : ElemOp := fun ty a b =>
  if ty.isFloat then elemRound ty (fvMul (elemVal ty a) (elemVal ty b))
  else
    let x := elemInt ty a * elemInt ty b
    match m with
    | .lo => (elemWrap ty x, 0)
    | .sat => elemSat ty x
    | .hi => (elemWrap ty (x / (2 ^ ty.bits : Nat)), 0)

/-- VMIN of elements (R137). -/
def minElem : ElemOp := fun ty a b =>
  if ty.isFloat then elemRound ty (fvMin (elemVal ty a) (elemVal ty b))
  else (if elemInt ty b < elemInt ty a then b else a, 0)

/-- VMAX of elements (R137). -/
def maxElem : ElemOp := fun ty a b =>
  if ty.isFloat then elemRound ty (fvMax (elemVal ty a) (elemVal ty b))
  else (if elemInt ty a < elemInt ty b then b else a, 0)

/-- VSHL of elements: the count is b mod w. -/
def shlElem : ElemOp := fun ty a b => (a * 2 ^ (b % ty.bits) % 2 ^ ty.bits, 0)

/-- VSHR of elements: arithmetic for the signed types. -/
def shrElem : ElemOp := fun ty a b => (elemWrap ty (elemInt ty a / (2 ^ (b % ty.bits) : Nat)), 0)

/-- The multiply-add of R139: the product is negated by bit 1 of MOD, the addend by bit 0. -/
def fmaElem (m : BitVec 2) (ty : Ty) (a b d : Nat) : Nat × Flags :=
  let p := fvMul (elemVal ty a) (elemVal ty b)
  let x := if m.getLsbD 1 then p.1.negate else p.1
  let y := if m.getLsbD 0 then (elemVal ty d).negate else elemVal ty d
  let q := fvAdd x y
  elemRound ty (q.1, p.2 ||| q.2)

/-- The element an immediate stands for (R140). -/
def immElem (ty : Ty) (i : BitVec 8) : Nat :=
  if ty.isFloat then (elemRound ty (FV.ofInt i.toInt, 0)).1 else elemWrap ty i.toInt

/-- The lane whose elements all hold one element. -/
def splat (ty : Ty) (n : Nat) : W32 := if ty.is32 then BitVec.ofNat 32 n else BitVec.ofNat 32 (n + 2 ^ 16 * n)

/-- VADD (R136, R138). -/
def execVadd (k : Fin 8) (d : VDst) (a b : VSrc) (p : Fin 8) (t : Ty) (m : Bool) (s : State) : Out :=
  vector2 k d a b p 2 (laneOp (addElem m) t) s

/-- VADDI (R140). -/
def execVaddi (k : Fin 8) (d : VDst) (a : VSrc) (p : Fin 8) (t : Ty) (i : BitVec 8) (s : State) : Out :=
  vector1 k d a p 2 (fun x => laneOp (addElem false) t x (splat t (immElem t i))) s

/-- VSUB (R136, R138). -/
def execVsub (k : Fin 8) (d : VDst) (a b : VSrc) (p : Fin 8) (t : Ty) (m : Bool) (s : State) : Out :=
  vector2 k d a b p 2 (laneOp (subElem m) t) s

/-- VMUL (R136, R138). -/
def execVmul (k : Fin 8) (d : VDst) (a b : VSrc) (p : Fin 8) (t : Ty) (m : MulMod) (s : State) : Out :=
  vector2 k d a b p 3 (laneOp (mulElem m) t) s

/-- VMULI (R140). -/
def execVmuli (k : Fin 8) (d : VDst) (a : VSrc) (p : Fin 8) (t : Ty) (i : BitVec 8) (s : State) : Out :=
  vector1 k d a p 3 (fun x => laneOp (mulElem .lo) t x (splat t (immElem t i))) s

/-- VFMA (R139): VD is read at issue. -/
def execVfma (k : Fin 8) (d : Fin 32) (a b : VSrc) (p : Fin 8) (t : Ty) (m : BitVec 2) (s : State) : Out :=
  .next (withVSrcs s k.val [a, b] fun v s =>
    let q := pReg (cs s) k.val p.val
    let c := vReg (cs s) k.val d.val
    let r := compat s 4 5
    vsend r.2 k (.reg d) r.1 q (vlanes q fun i =>
      if t.is32 then
        let x := fmaElem m t (lane (v a) i).toNat (lane (v b) i).toNat (lane c i).toNat
        (BitVec.ofNat 32 x.1, x.2)
      else
        let lo := fmaElem m t ((lane (v a) i).toNat % 2 ^ 16) ((lane (v b) i).toNat % 2 ^ 16) ((lane c i).toNat % 2 ^ 16)
        let hi := fmaElem m t ((lane (v a) i).toNat / 2 ^ 16) ((lane (v b) i).toNat / 2 ^ 16) ((lane c i).toNat / 2 ^ 16)
        (BitVec.ofNat 32 (lo.1 + 2 ^ 16 * hi.1), lo.2 ||| hi.2)))

/-- VMIN (R137). -/
def execVmin (k : Fin 8) (d : VDst) (a b : VSrc) (p : Fin 8) (t : Ty) (s : State) : Out :=
  vector2 k d a b p 2 (laneOp minElem t) s

/-- VMAX (R137). -/
def execVmax (k : Fin 8) (d : VDst) (a b : VSrc) (p : Fin 8) (t : Ty) (s : State) : Out :=
  vector2 k d a b p 2 (laneOp maxElem t) s

/-- VAND: bitwise on the whole lane (Table 6-1). -/
def execVand (k : Fin 8) (d : VDst) (a b : VSrc) (p : Fin 8) (_t : Ty) (s : State) : Out :=
  vector2 k d a b p 2 (fun x y => (x &&& y, 0)) s

/-- VOR. -/
def execVor (k : Fin 8) (d : VDst) (a b : VSrc) (p : Fin 8) (_t : Ty) (s : State) : Out :=
  vector2 k d a b p 2 (fun x y => (x ||| y, 0)) s

/-- VXOR. -/
def execVxor (k : Fin 8) (d : VDst) (a b : VSrc) (p : Fin 8) (_t : Ty) (s : State) : Out :=
  vector2 k d a b p 2 (fun x y => (x ^^^ y, 0)) s

/-- VSHL (Table 6-1). -/
def execVshl (k : Fin 8) (d : VDst) (a b : VSrc) (p : Fin 8) (t : Ty) (s : State) : Out :=
  vector2 k d a b p 2 (laneOp shlElem t) s

/-- VSHLI (R140). -/
def execVshli (k : Fin 8) (d : VDst) (a : VSrc) (p : Fin 8) (t : Ty) (i : BitVec 8) (s : State) : Out :=
  vector1 k d a p 2 (fun x => laneOp shlElem t x (splat t i.toNat)) s

/-- VSHR (Table 6-1). -/
def execVshr (k : Fin 8) (d : VDst) (a b : VSrc) (p : Fin 8) (t : Ty) (s : State) : Out :=
  vector2 k d a b p 2 (laneOp shrElem t) s

/-- VSHRI (R140). -/
def execVshri (k : Fin 8) (d : VDst) (a : VSrc) (p : Fin 8) (t : Ty) (i : BitVec 8) (s : State) : Out :=
  vector1 k d a p 2 (fun x => laneOp shrElem t x (splat t i.toNat)) s

/-! ### Compare, select and predicate logic -/

/-- A comparison of R141 of two 32-bit elements, with its flags. -/
def cmpElem (c : VCnd) (ty : Ty) (a b : W32) : Bool × Flags :=
  if ty.isFloat then
    let x := val32 a
    let y := val32 b
    let nan := x.isNan || y.isNan
    let sig := x.sig ||| y.sig
    let ord := fun (r : Bool) => if nan then (false, fNV) else (r, (0 : Flags))
    match c with
    | .eq => (!nan && decide (fvCmp x y = .eq), sig)
    | .ne => (nan || decide (fvCmp x y ≠ .eq), sig)
    | .lt => ord (decide (fvCmp x y = .lt))
    | .le => ord (decide (fvCmp x y ≠ .gt))
    | .gt => ord (decide (fvCmp x y = .gt))
    | .ge => ord (decide (fvCmp x y ≠ .lt))
    | .uo => (nan, sig)
    | .ord => (!nan, sig)
  else
    let x := elemInt ty a.toNat
    let y := elemInt ty b.toNat
    match c with
    | .eq => (decide (x = y), 0)
    | .ne => (decide (x ≠ y), 0)
    | .lt => (decide (x < y), 0)
    | .le => (decide (x ≤ y), 0)
    | .gt => (decide (y < x), 0)
    | .ge => (decide (y ≤ x), 0)
    | .uo => (false, 0)
    | .ord => (true, 0)

/-- The 16-bit mask whose bit i is `f i`. -/
def maskOf (f : Nat → Bool) : BitVec 16 := BitVec.ofBoolListLE ((countUp 0 16).map f) |>.setWidth 16

/-- VCMP (R141): with MOD 1 the inactive lanes are written zero. -/
def execVcmp (k : Fin 8) (d : Fin 8) (c : VCnd) (a b : VSrc) (p : Fin 8) (t : Ty) (m : Bool) (s : State) : Out :=
  .next (withVSrcs s k.val [a, b] fun v s =>
    let q := pReg (cs s) k.val p.val
    let r := (countUp 0 16).map fun i => if q.getLsbD i then cmpElem c t (lane (v a) i) (lane (v b) i) else (false, 0)
    emitF s (vaSlot k) 2 (.pred k.val d.val (if m then 0xFFFF else q) (maskOf fun i => (lget (false, 0) r i).1))
      (orFlags (r.map (·.2))))

/-- VSEL (R143): P chooses between the sources; every lane is written. -/
def execVsel (k : Fin 8) (d : VDst) (a b : VSrc) (p : Fin 8) (_t : Ty) (s : State) : Out :=
  .next (withVSrcs s k.val [a, b] fun v s =>
    let q := pReg (cs s) k.val p.val
    vsend s k d 2 0xFFFF (vlanes 0xFFFF fun i => (if q.getLsbD i then lane (v a) i else lane (v b) i, 0)))

/-- The lowest set bit of a mask alone. -/
def firstBit (m : BitVec 16) : BitVec 16 := m &&& (-m)

/-- The result of VPSET before masking (R142). -/
def popVal (o : POp) (a b : BitVec 16) : BitVec 16 :=
  match o with
  | .and => a &&& b
  | .or => a ||| b
  | .xor => a ^^^ b
  | .andn => a &&& ~~~ b
  | .not => ~~~ a
  | .set => 0xFFFF
  | .first => firstBit a
  | .clear => 0

/-- VPSET (R142). -/
def execVpset (k : Fin 8) (d : Fin 8) (o : POp) (a b : Fin 8) (p : Fin 8) (s : State) : Out :=
  let t := cs s
  .next (emit s (vaSlot k) 2 (.pred k.val d.val (pReg t k.val p.val) (popVal o (pReg t k.val a.val) (pReg t k.val b.val))))

/-! ### Conversion -/

/-- The rounding mode of a rounding field (R38). -/
def rndMode (fpc : Word) (n : BitVec 2) : RMode :=
  match n.toNat with
  | 0 => .rne
  | 1 => .rtz
  | 2 => .srne
  | _ => dynMode fpc

/-- Bytes of one narrow element of a format (Table 6-2). -/
def cvtBytes (f : BitVec 6) : Nat := if codeCvt2 f then 2 else if codeCvt4 f then 4 else 1

/-- The range of an integer format (Table 2-4). -/
def intRange (f : BitVec 6) : Int × Int :=
  match f.toNat with
  | 0x24 => (-128, 127)
  | 0x2C => (0, 255)
  | 0x25 => (-2 ^ 15, 2 ^ 15 - 1)
  | 0x2D => (0, 2 ^ 16 - 1)
  | 0x26 => (-2 ^ 31, 2 ^ 31 - 1)
  | _ => (0, 2 ^ 32 - 1)

/-- One FP32 lane narrowed to a format: the element as a number, and its flags (R145, R39 to R41). -/
def narrow (f : BitVec 6) (m : RMode) (x : W32) : Nat × Flags :=
  if isBinary8 f then let r := to8 f m (val32 x); (r.1.toNat, r.2)
  else if f.toNat = 0x20 then let r := convert fmtBf.target m (val32 x); ((packFV fmtBf 16 0x7FC0 r.1).toNat, r.2)
  else if f.toNat = 0x21 then let r := convert fmt16.target m (val32 x); ((packFV fmt16 16 0x7E00 r.1).toNat, r.2)
  else
    let g := intRange f
    let r := toInt g.1 g.2 m (val32 x)
    ((r.1 % (2 ^ (8 * cvtBytes f) : Nat)).toNat, r.2)

/-- An exact widening to FP32; a signalling NaN raises NV (R32, Table 2-5; DEDUCED, log 20). -/
def widenExact (v : FV) : W32 × Flags := ((rne32 v).1, v.sig)

/-- One element widened to an FP32 lane (R146). -/
def widen (f : BitVec 6) (m : RMode) (n : Nat) : W32 × Flags :=
  if isBinary8 f then widenExact (val8 f (BitVec.ofNat 8 n))
  else if f.toNat = 0x20 then widenExact (valBf (BitVec.ofNat 16 n))
  else if f.toNat = 0x21 then widenExact (val16 (BitVec.ofNat 16 n))
  else
    let g := intRange f
    let i : Int := if g.1 < 0 ∧ g.2 < n then (n : Int) - (2 ^ (8 * cvtBytes f) : Nat) else n
    int32ToF m i

/-- The number held by `n` bytes of a vector image from byte `i` on. -/
def vfield (v : Vec) (i n : Nat) : Nat := v.toNat / 2 ^ (8 * i) % 2 ^ (8 * n)

/-- VCVT (R144 to R146). -/
def execVcvt (k : Fin 8) (d : VDst) (a : VSrc) (f : BitVec 6) (r : Bool) (n : BitVec 2) (p : Fin 8) (q : BitVec 2)
    (s : State) : Out :=
  .next (withVSrcs s k.val [a] fun v s =>
    let w := cvtBytes f
    let m := pReg (cs s) k.val p.val
    let md := rndMode (cs s).fpc n
    if r then vsend s k d 3 m (vlanes m fun i => widen f md (vfield (v a) (w * (16 * q.toNat + i)) w))
    else
      let es := (countUp 0 16).map fun i => if m.getLsbD i then narrow f md (lane (v a) i) else (0, 0)
      let fl := orFlags (es.map (·.2))
      if w = 4 then vsend s k d 3 m (ofLanes (es.map fun e => BitVec.ofNat 32 e.1), fl)
      else match d with
        | .reg vd =>
          let data := ofVbytes ((countUp 0 (16 * w * q.toNat)).map (fun _ => 0) ++ (es.map fun e => natBytes w e.1).flatten)
          let bm : BitVec 64 := BitVec.ofNat 64 ((countUp 0 16).foldl (fun x i =>
            if m.getLsbD i then x + (2 ^ w - 1) * 2 ^ (w * (16 * q.toNat + i)) else x) 0)
          emitF s (vaSlot k) 3 (.vbytes k.val vd.val bm data (some (mergeBytes bm (vReg (cs s) k.val vd.val) data)) false) fl
        | _ => s)

/-! ### Approximations -/

/-- VRCP (R147). -/
def execVrcp (k : Fin 8) (d : VDst) (a : VSrc) (p : Fin 8) (s : State) : Out :=
  let r := compat s 6 5
  vector1 k d a p r.1 vrcp32 r.2

/-- VRSQ (R147). -/
def execVrsq (k : Fin 8) (d : VDst) (a : VSrc) (p : Fin 8) (s : State) : Out :=
  let r := compat s 6 5
  vector1 k d a p r.1 vrsq32 r.2

/-- VEXP2 (R147). -/
def execVexp2 (k : Fin 8) (d : VDst) (a : VSrc) (p : Fin 8) (s : State) : Out := vector1 k d a p 8 vexp232 s

/-- VLOG2 (R147). -/
def execVlog2 (k : Fin 8) (d : VDst) (a : VSrc) (p : Fin 8) (s : State) : Out := vector1 k d a p 8 vlog232 s

/-! ### Welford statistics -/

/-- 1.0 in FP32. -/
def one32 : W32 := 0x3F800000

/-- One lane of VWEL (R148): the new count, mean and M2. -/
def welLane (x c m q : W32) : (W32 × W32 × W32) × Flags :=
  let cnt := add32 c one32
  let delta := sub32 x m
  let step := div32 delta.1 cnt.1
  let mean := add32 m step.1
  let diff := sub32 x mean.1
  let prod := mul32 delta.1 diff.1
  let m2 := add32 q prod.1
  ((cnt.1, mean.1, m2.1), orFlags [cnt.2, delta.2, step.2, mean.2, diff.2, prod.2, m2.2])

/-- One lane of VWMG (R149). -/
def wmgLane (na ma qa nb mb qb : W32) : (W32 × W32 × W32) × Flags :=
  let n := add32 na nb
  if (val32 n.1).isZero then ((0, 0, 0), 0)
  else
    let delta := sub32 mb ma
    let f := div32 nb n.1
    let step := mul32 delta.1 f.1
    let mean := add32 ma step.1
    let sq := mul32 delta.1 delta.1
    let sqn := mul32 sq.1 na
    let t := mul32 sqn.1 f.1
    let q := add32 qa qb
    let m2 := add32 q.1 t.1
    ((n.1, mean.1, m2.1), orFlags [n.2, delta.2, f.2, step.2, mean.2, sq.2, sqn.2, t.2, q.2, m2.2])

/-- Send the three registers of a triple on their way; the latch takes the mean register's out values. -/
def sendTriple (s : State) (k : Fin 8) (n lat : Nat) (m : BitVec 16) (f : Nat → (W32 × W32 × W32) × Flags) : State :=
  let l := (countUp 0 16).map fun i => if m.getLsbD i then f i else ((0, 0, 0), 0)
  let mean := ofLanes (l.map fun r => r.1.2.1)
  emitF s (vaSlot k) lat (.triple k.val n m (ofLanes (l.map fun r => r.1.1)) mean (ofLanes (l.map fun r => r.1.2.2)) mean)
    (orFlags (l.map (·.2)))

/-- VWEL (R148). -/
def execVwel (k : Fin 8) (d : Fin 8) (a : VSrc) (p : Fin 8) (s : State) : Out :=
  .next (withVSrcs s k.val [a] fun v s =>
    let t := cs s
    let n := 4 * d.val
    sendTriple s k n 14 (pReg t k.val p.val) fun i =>
      welLane (lane (v a) i) (lane (vReg t k.val n) i) (lane (vReg t k.val (n + 1)) i) (lane (vReg t k.val (n + 2)) i))

/-- VWMG (R149). -/
def execVwmg (k : Fin 8) (d a : Fin 8) (p : Fin 8) (s : State) : Out :=
  let t := cs s
  let n := 4 * d.val
  let b := 4 * a.val
  let r := fun (j i : Nat) => lane (vReg t k.val j) i
  .next (sendTriple s k n 16 (pReg t k.val p.val) fun i =>
    wmgLane (r n i) (r (n + 1) i) (r (n + 2) i) (r b i) (r (b + 1) i) (r (b + 2) i))

/-! ### Across lanes -/

/-- The element operation of a reduction (R150). -/
def redElem (o : ROp) : ElemOp :=
  match o with
  | .add => addElem false
  | .min => minElem
  | .max => maxElem

/-- The identity of a reduction (R150). -/
def redId (o : ROp) (ty : Ty) : W32 :=
  match o, ty with
  | .add, .f32 => 0x80000000
  | .min, .f32 => inf32
  | .max, .f32 => ninf32
  | .add, _ => 0
  | .min, .i32 => 0x7FFFFFFF
  | .min, _ => 0xFFFFFFFF
  | .max, .i32 => 0x80000000
  | .max, _ => 0

/-- One level of the reduction tree: neighbours are joined. -/
def redLevel (f : W32 → W32 → W32 × Flags) : List (W32 × Flags) → List (W32 × Flags)
  | a :: b :: t => (let r := f a.1 b.1; (r.1, r.2 ||| a.2 ||| b.2)) :: redLevel f t
  | l => l

/-- VRED (R150). -/
def execVred (k : Fin 8) (d : VDst) (a : VSrc) (p : Fin 8) (t : Ty) (o : ROp) (s : State) : Out :=
  .next (withVSrcs s k.val [a] fun v s =>
    let m := pReg (cs s) k.val p.val
    let f := laneOp (redElem o) t
    let l := (countUp 0 16).map fun i => (if m.getLsbD i then lane (v a) i else redId o t, (0 : Flags))
    let r := lget (0, 0) (redLevel f (redLevel f (redLevel f (redLevel f l)))) 0
    vsend s k d 6 m (ofLanes ((countUp 0 16).map fun _ => r.1), r.2))

/-- VPERM (R151). -/
def execVperm (k : Fin 8) (d : VDst) (a b : VSrc) (p : Fin 8) (s : State) : Out :=
  .next (withVSrcs s k.val [a, b] fun v s =>
    let m := pReg (cs s) k.val p.val
    vsend s k d 3 m (vlanes m fun i => (lane (v a) ((lane (v b) i).toNat % 16), 0)))

/-- VBCST (R151). -/
def execVbcst (k : Fin 8) (d : VDst) (a : VSrc) (l : BitVec 4) (p : Fin 8) (s : State) : Out :=
  .next (withVSrcs s k.val [a] fun v s =>
    let m := pReg (cs s) k.val p.val
    vsend s k d 2 m (vlanes m fun _ => (lane (v a) l.toNat, 0)))

/-- The set bits of a mask below bit `i`. -/
def bitsBelow (m : BitVec 16) (i : Nat) : Nat := ((countUp 0 i).filter fun j => m.getLsbD j).length

/-- VIOTA (R151). -/
def execViota (k : Fin 8) (d : VDst) (p : Fin 8) (_t : Ty) (c : Bool) (s : State) : Out :=
  let m := pReg (cs s) k.val p.val
  .next (vsend s k d 2 m (vlanes m fun i => (BitVec.ofNat 32 (if c then bitsBelow m i else i), 0)))

end Sys2Proof.Machine
end

