-- ==== Sys2Proof/Machine/VecMem.lean ====
section
/-!
DEFINITION. The VM class (R152 to R156): moves between scalar and vector registers and across clusters, vector loads and stores,
gather and scatter, and tile accesses.
-/
namespace Sys2Proof.Machine

open Sys2Proof

/-- The slot of the VB slot of a cluster (Table 3-2). -/
def vbSlot (k : Fin 8) : Nat := 13 + k.val

/-- Deliver a result of slot VB as R134 gives. -/
def vbsend (s : State) (k : Fin 8) (d : VDst) (lat : Nat) (p : BitVec 16) (data : Vec) : State :=
  let q := vdstTo s k.val d
  emit q.2 (vbSlot k) lat (.vec k.val q.1 p data true)

/-- The offset n64(B + sext(IMM7) × 64) (R154, R156). -/
def vmemOff (b : Word) (i : BitVec 7) : Nat := (b + i.signExtend 64 * 64).toNat

/-- The places of the bytes of active lanes, `w` bytes a lane. -/
def activePlaces (m : BitVec 16) (w : Nat) (ps : List Nat) : List Nat :=
  ((countUp 0 16).map fun i => if m.getLsbD i then (ps.drop (w * i)).take w else []).flatten

/-- VLD (R154). -/
def execVld (k : Fin 8) (d : VDst) (e : BitVec 4) (b : SSrc) (p : Fin 8) (i : BitVec 7) (s : State) : Out :=
  .next (withSrcs s (vbSlot k) [b] fun v s =>
    spadAccess s (vbSlot k) e.toNat true false 64 (vmemOff (v b) i) 64 fun ps s =>
      vbsend s k d 5 (pReg (cs s) k.val p.val) (ofVbytes (spadGet (cc s) ps)))

/-- VST (R154): the bank words it writes are its accesses (R24). -/
def execVst (k : Fin 8) (a : VSrc) (e : BitVec 4) (b : SSrc) (p : Fin 8) (i : BitVec 7) (s : State) : Out :=
  .next (withVSrcs s k.val [a] fun x s =>
    withSrcs s (vbSlot k) [b] fun v s =>
      let t := cs s
      let off := vmemOff (v b) i
      match extCheck (extOf t e.toNat) [0] false true 64 off 64 with
      | some cause => addCause s 2 cause (vbSlot k) (wordOf off) (wordOf e.toNat)
      | none =>
        let m := pReg t k.val p.val
        let ps := spadPlaces (extOf t e.toNat) off 64
        let s := useBanks s (bankWords (activePlaces m 4 ps))
        emit s (vbSlot k) 5 (.store (((countUp 0 64).filter fun j => m.getLsbD (j / 4)).map fun j =>
          (lget 0 ps j, vbyte (x a) j))))

/-- The first active lane whose access fails its checks, with the cause (R155). -/
def laneFault (x : Ext) (rd wr : Bool) (n : Nat) (m : BitVec 16) (idx : Vec) : List Nat → Option (Nat × Nat)
  | [] => none
  | i :: t =>
    if m.getLsbD i then
      match extCheck x [0] rd wr n (lane idx i).toNat n with
      | some c => some (c, (lane idx i).toNat)
      | none => laneFault x rd wr n m idx t
    else laneFault x rd wr n m idx t

/-- The active lanes. -/
def activeLanes (m : BitVec 16) : List Nat := (countUp 0 16).filter fun i => m.getLsbD i

/-- The places of one lane's element. -/
def lanePlaces (x : Ext) (n : Nat) (idx : Vec) (i : Nat) : List Nat := spadPlaces x (lane idx i).toNat n

/-- VGTH (R155). -/
def execVgth (k : Fin 8) (d : VDst) (e : BitVec 4) (a : VSrc) (p : Fin 8) (z : Fin 3) (s : State) : Out :=
  .next (withVSrcs s k.val [a] fun v s =>
    let t := cs s
    let x := extOf t e.toNat
    let n := 2 ^ z.val
    let m := pReg t k.val p.val
    match laneFault x true false n m (v a) (countUp 0 16) with
    | some (cause, off) => addCause s 2 cause (vbSlot k) (wordOf off) (wordOf e.toNat)
    | none =>
      let act := activeLanes m
      let s := useBanks s ((act.map fun i => bankWords (lanePlaces x n (v a) i)).flatten)
      match act.find? fun i => (spadErr (cc s) 0 (lanePlaces x n (v a) i)).isSome with
      | some i => addCause s 2 Cause.spadUe (vbSlot k) (wordOf (lane (v a) i).toNat) (wordOf e.toNat)
      | none =>
        vbsend s k d 8 m (ofLanes ((countUp 0 16).map fun i =>
          if m.getLsbD i then BitVec.ofNat 32 (leNat (spadGet (cc s) (lanePlaces x n (v a) i))) else 0)))

/-- VSCT (R155): the higher lane wins a byte that several lanes write. -/
def execVsct (k : Fin 8) (a : VSrc) (e : BitVec 4) (w : VSrc) (p : Fin 8) (z : Fin 3) (s : State) : Out :=
  .next (withVSrcs s k.val [a, w] fun v s =>
    let t := cs s
    let x := extOf t e.toNat
    let n := 2 ^ z.val
    let m := pReg t k.val p.val
    match laneFault x false true n m (v w) (countUp 0 16) with
    | some (cause, off) => addCause s 2 cause (vbSlot k) (wordOf off) (wordOf e.toNat)
    | none =>
      let act := activeLanes m
      let s := useBanks s ((act.map fun i => bankWords (lanePlaces x n (v w) i)).flatten)
      emit s (vbSlot k) 8 (.store ((act.map fun i =>
        (lanePlaces x n (v w) i).zip (natBytes n (lane (v a) i).toNat)).flatten)))

/-- XCP (R153). -/
def execXcp (k : Fin 8) (d : VDst) (a : Fin 32) (x : Fin 8) (p : Fin 8) (s : State) : Out :=
  let t := cs s
  let r := compat s 4 3
  .next (vbsend r.2 k d r.1 (pReg t k.val p.val) (vReg t x.val a.val))

/-- VMOVS (R152). -/
def execVmovs (k : Fin 8) (o : VMov) (l : BitVec 4) (s : State) : Out :=
  match o with
  | .inn r a =>
    .next (withSrcs s (vbSlot k) [a] fun v s =>
      emit s (vbSlot k) 2 (.vbytes k.val r.val (BitVec.ofNat 64 (15 * 2 ^ (4 * l.toNat)))
        (ofVbytes ((countUp 0 (4 * l.toNat)).map (fun _ => 0) ++ natBytes 4 (v a).toNat)) none true))
  | .outReg a d =>
    .next (withVSrcs s k.val [a] fun v s =>
      sendTo s (vbSlot k) 2 d.val ((lane (v a) l.toNat).setWidth 64))
  | .outFo a =>
    .next (withVSrcs s k.val [a] fun v s =>
      sendTo s (vbSlot k) 2 62 ((lane (v a) l.toNat).setWidth 64))

/-- The rows, columns and element width in bytes of a tile's TG value (Table 1-2); none when it is unset. -/
def tgShape (w : Word) : Option (Nat × Nat × Nat) :=
  if bits w 7 0 = 0 then none else some (bits w 7 0, bits w 15 8, 2 ^ bits w 17 16)

/-- A tile access by a vector syllable: the checks of R156 in order, then the tile's size. -/
def tileVia (s : State) (slot : Nat) (t : Fin 8) (off : Nat) (f : Nat → State → State) : State :=
  if !(cs s).hasA then addCause s 2 Cause.claimAbsent slot 0 0
  else match tgShape (tget 0 (cc s).tg t.val) with
    | none => addCause s 2 ctlValue slot 0 0
    | some (r, c, w) =>
      if off % 64 ≠ 0 then addCause s 2 Cause.memAlign slot (wordOf off) (wordOf t.val)
      else if r * c * w ≤ off then addCause s 2 Cause.tileBound slot (wordOf off) (wordOf t.val)
      else f (r * c * w) s

/-- VTLD (R156): bytes at or beyond the size read zero. -/
def execVtld (k : Fin 8) (d : VDst) (t : Fin 8) (b : SSrc) (p : Fin 8) (i : BitVec 7) (s : State) : Out :=
  .next (withSrcs s (vbSlot k) [b] fun v s =>
    let off := vmemOff (v b) i
    tileVia s (vbSlot k) t off fun size s =>
      vbsend s k d 4 (pReg (cs s) k.val p.val) (ofVbytes ((countUp off 64).map fun a =>
        if a < size then cellAt (cc s).tile (36864 * t.val + a) else 0)))

/-- VTST (R156): bytes at or beyond the size are not written. -/
def execVtst (k : Fin 8) (a : VSrc) (t : Fin 8) (b : SSrc) (p : Fin 8) (i : BitVec 7) (s : State) : Out :=
  .next (withVSrcs s k.val [a] fun x s =>
    withSrcs s (vbSlot k) [b] fun v s =>
      let off := vmemOff (v b) i
      let m := pReg (cs s) k.val p.val
      tileVia s (vbSlot k) t off fun size s =>
        emit s (vbSlot k) 4 (.tile t.val (((countUp 0 64).filter fun j => m.getLsbD (j / 4) && decide (off + j < size)).map
          fun j => (off + j, vbyte (x a) j))))

end Sys2Proof.Machine
end

