-- ==== Sys2Proof/Machine/Array.lean ====
section
/-!
DEFINITION. The X, T and C classes (R158 to R174): weights, scales, beats and pair beats, drain and tile rows; and BEAT_LAND.
-/
namespace Sys2Proof.Machine

open Sys2Proof

/-! ### Checks -/

/-- The bytes of tile row `r` for a shape of `c` columns of `w` bytes. -/
def tileRow (k : Core) (t r c w : Nat) : List Byte := cellsAt k.tile (36864 * t + r * (c * w)) (c * w)

/-- The places and bytes that write a tile row. -/
def rowBytes (r c w : Nat) (bs : List Byte) : List (Nat × Byte) := (countUp (r * (c * w)) (c * w)).zip bs

/-- A syllable of the array: the task must hold the claim (R10). -/
def arrayVia (s : State) (slot : Nat) (f : State → State) : State :=
  if (cs s).hasA then f s else addCause s 2 Cause.claimAbsent slot 0 0

/-- The shape of a tile, or CTL_VALUE for an unset one (R20, R159). -/
def shapeVia (s : State) (slot t : Nat) (f : Nat × Nat × Nat → State → State) : State :=
  match tgShape (tget 0 (cc s).tg t) with
  | none => addCause s 2 ctlValue slot 0 0
  | some h => f h s

/-- A mode condition, and then the row's bound (R159). -/
def modeRow (s : State) (slot t : Nat) (mode : Bool) (r rows c w : Nat) (f : State → State) : State :=
  if !mode then addCause s 2 Cause.arrayMode slot 0 0
  else if rows ≤ r then addCause s 2 Cause.tileBound slot (wordOf (r * (c * w))) (wordOf t)
  else f s

/-- Whether a format code is BF16. -/
def isBf (f : Nat) : Bool := decide (f = 0x20)

/-! ### Weights and scales -/

/-- WPUSH (R161): bytes at or beyond the tile's columns are zero. -/
def execWpush (t : Fin 8) (r w : BitVec 8) (f : BitVec 6) (s : State) : Out :=
  .next (arrayVia s 21 fun s => shapeVia s 21 t.val fun h s =>
    let wd := if isBf f.toNat then 2 else 1
    modeRow s 21 t.val (h.2.2 = wd) r.toNat h.1 h.2.1 h.2.2 fun s =>
      let row := tileRow (cc s) t.val r.toNat h.2.1 h.2.2
      emit s 21 1 (.wrow w.toNat ((countUp 0 192).map (lget 0 row)) f.toNat))

/-- WSWAP (R162). -/
def execWswap (s : State) : Out := .next (arrayVia s 21 fun s => emit s 21 1 .wswap)

/-- MCLR (R164). -/
def execMclr (m : BitVec 3) (s : State) : Out := .next (arrayVia s 21 fun s => emit s 21 1 (.mclr m))

/-- The BF16 values of a byte string. -/
def bfList : List Byte → List (BitVec 16)
  | a :: b :: t => BitVec.ofNat 16 (leNat [a, b]) :: bfList t
  | _ => []

/-- SCW and SCA (R163). -/
def scaleVia (acts : Bool) (e : BitVec 4) (b : SSrc) (i : BitVec 8) (c : Bool) (s : State) : Out :=
  .next (withSrcs s 23 [b] fun v s => arrayVia s 23 fun s =>
    let n := if c then 2 else 64
    spadAccess s 23 e.toNat true false n (v b).toNat n fun ps s =>
      let vs := bfList (spadGet (cc s) ps)
      emit s 23 2 (if c then .scales acts 0 ((countUp 0 192).map fun _ => lget 0 vs 0) else .scales acts i.toNat vs))

/-- SCW (R163). -/
def execScw (e : BitVec 4) (b : SSrc) (i : BitVec 8) (c : Bool) (s : State) : Out := scaleVia false e b i c s

/-- SCA (R163). -/
def execSca (e : BitVec 4) (b : SSrc) (i : BitVec 8) (c : Bool) (s : State) : Out := scaleVia true e b i c s

/-! ### Beats -/

/-- The value of element `k` of a row of bytes, read in a format (R47, R161). -/
def elemOf (f : Nat) (bs : List Byte) (k : Nat) : FV :=
  if isBf f then valBf (BitVec.ofNat 16 (leNat [lget 0 bs (2 * k), lget 0 bs (2 * k + 1)]))
  else val8 (BitVec.ofNat 6 f) (lget 0 bs k)

/-- The chain of R48: the products of two lists added in order, each sum rounded to the chain format.  A zero activation times an infinite
weight is NaN and raises NV, in a row of zeros too (R48 over R166's remark; DEDUCED, log 21). -/
def chainSum : List FV → List FV → FV × Flags → FV × Flags
  | w :: ws, a :: t, c =>
    let p := fvMul w a
    let q := fvAdd c.1 p.1
    let r := rneC q.1
    chainSum ws t (r.1, c.2 ||| p.2 ||| q.2 ||| r.2)
  | _, _, c => c

/-- A BF16 scale as an FP32 word of the same value. -/
def bf32 (b : BitVec 16) : W32 := BitVec.ofNat 32 (b.toNat * 2 ^ 16)

/-- The element a column comes to before accumulation (R48). -/
def beatElem (ws as : List FV) (sw sa : BitVec 16) : W32 × Flags :=
  let c := chainSum ws as (.zero, 0)
  let x := rne32 c.1
  let y := mul32 x.1 (bf32 sw)
  let z := mul32 y.1 (bf32 sa)
  (z.1, c.2 ||| x.2 ||| y.2 ||| z.2)

/-- The order K of a beat: 192, or 96 for BF16 (R165). -/
def beatK (f : Nat) : Nat := if isBf f then 96 else 192

/-- A row through plane W0 of a core: the elements of its columns, and their flags (R165). -/
def beatRow (k : Core) (as : List FV) (n : Nat) (sa : BitVec 16) : List W32 × Flags :=
  let rows := (countUp 0 n).map fun i => cellsAt k.w0 (192 * i) 192
  let r := (countUp 0 n).map fun j =>
    beatElem (rows.map fun w => elemOf k.tag0 w j) as (tget 0 k.sw0 j) sa
  (r.map (·.1), orFlags (r.map (·.2)))

/-- The mode condition of R165 on a plane's tag. -/
def tagMode (tag f : Nat) : Bool := decide (tag ≠ 0) && decide (isBf tag = isBf f)

/-- The partner of a core (R167). -/
def partnerOf (c : Nat) : Nat := c / 2 * 2 + (1 - c % 2)

/-- Whether two tasks belong to the same domain (R219). -/
def sameDomain (t u : Seat) : Bool :=
  decide (taskQueue t.task = taskQueue u.task) && decide (taskLseq t.task = taskLseq u.task) &&
  decide (bits t.dmem 63 44 = bits u.dmem 63 44)

/-- The pair condition of R167. -/
def pairReady (s : State) (t : Seat) (f : Nat) : Bool :=
  let p := coreAt s (partnerOf s.cur)
  tagMode p.tag0 f && [0, 1, 2, 3].any fun n =>
    let u := seatOf p n
    decide (u.st ≠ .empty) && u.hasA && sameDomain t u && decide (1 ≤ bits u.dmem 34 32)

/-- A pair beat enters the partner's array: ahead of the partner's own beat of this cycle, whose core then freezes for a
cycle (R167). -/
def pairEnter (s : State) (p : Nat) (e : Eff) : State :=
  modCore s p fun k =>
    let own := fun (x : Eff) => decide (x.due = e.due) && decide (x.seat < 4) &&
      (match x.land with | .beat .. => true | _ => false)
    let k := addWeight k 96
    if k.beatNow then { k with hold := k.hold + 1, effs := k.effs.filter (fun x => !own x) ++ e :: k.effs.filter own }
    else { k with effs := k.effs ++ [e] }

/-- Whether a pair beat has entered this core's array in this cycle. -/
def pairNow (s : State) (k : Core) : Bool :=
  k.effs.any fun x => decide (4 ≤ x.seat) && decide (x.grp = s.cyc)

/-- APUSH and ACC (R165 to R167): `acc` accumulates, `pr` drives the partner's array as well. -/
def beatVia (acc : Bool) (t : Fin 8) (r a : BitVec 8) (pr : Bool) (f : BitVec 6) (s : State) : Out :=
  .next (arrayVia s 21 fun s => shapeVia s 21 t.val fun h s =>
    let fm := f.toNat
    let k := cc s
    modeRow s 21 t.val (tagMode k.tag0 fm && decide (h.2.2 = if isBf fm then 2 else 1)) r.toNat h.1 h.2.1 h.2.2 fun s =>
      if pr && !pairReady s (cs s) fm then addCause s 2 Cause.pairAbsent 21 0 0
      else
        let n := beatK fm
        let row := tileRow k t.val r.toNat h.2.1 h.2.2
        let as := (countUp 0 n).map fun i => if i < h.2.1 then elemOf fm row i else .zero
        let sa := tget 0 k.sa a.toNat
        let own := beatRow k as n sa
        let p := partnerOf s.cur
        let pk := coreAt s p
        let oth := if pr then beatRow pk as n sa else ([], 0)
        let e := effOf s 21 196 (.beat a.toNat acc own.1) (own.2 ||| oth.2) (wordOf a.toNat)
        let e := { e with pair := pr }
        -- an own beat that meets a pair beat of this cycle enters one cycle later
        let s := if pairNow s k then onCore s fun k => { k with hold := k.hold + 1 } else s
        let s := onCore (emitEff s e) fun k => { k with beatNow := true }
        if pr then pairEnter s p { due := pk.ct + 196, seat := 4 + cn s, sw := e.due, grp := s.cyc, slot := 21,
                                   land := .beat a.toNat acc oth.1, flags := 0, en := 0, info1 := 0, iss := e.iss, dead := false,
                                   pair := true }
        else s)

/-- APUSH (R165). -/
def execApush (t : Fin 8) (r a : BitVec 8) (p : Bool) (f : BitVec 6) (s : State) : Out := beatVia false t r a p f s

/-- ACC (R165). -/
def execAcc (t : Fin 8) (r a : BitVec 8) (p : Bool) (f : BitVec 6) (s : State) : Out := beatVia true t r a p f s

/-! ### Beats land -/

/-- An accumulator row: 192 columns from column 0. -/
def accRow (k : Core) (r : Nat) : List W32 := (countUp 0 192).map fun j => tget 0 k.acc (192 * r + j)

/-- A row after a beat, and the flags of the additions (R48). -/
def beatNew (acc : Bool) : List W32 → List W32 → List W32 × Flags
  | o :: os, c :: cs =>
    let x := if acc then add32 o c else (c, 0)
    let r := beatNew acc os cs
    (x.1 :: r.1, x.2 ||| r.2)
  | os, _ => (os, 0)

/-- The row that an effect will find: the beats before it in the array are applied first. -/
def rowFound (r : Nat) (e : Eff) : List Eff → List W32 → List W32
  | [], cur => cur
  | x :: t, cur =>
    if x = e then cur
    else match x.land with
      | .beat q acc cs => rowFound r e t (if q = r ∧ !x.dead then (beatNew acc cur cs).1 else cur)
      | _ => rowFound r e t cur

/-- The flags that the additions of a beat raise in its array. -/
def beatFlags (k : Core) (e : Eff) : Flags :=
  match e.land with
  | .beat r acc cs => (beatNew acc (rowFound r e k.effs (accRow k r)) cs).2
  | _ => 0

/-- Write a row of accumulators. -/
def accPut (r : Nat) : Nat → List W32 → Tbl W32 → Tbl W32
  | _, [], a => a
  | j, w :: t, a => accPut r (j + 1) t (tset 0 (192 * r + j) w a)

/-- Replace an effect in flight. -/
def swapEff (k : Core) (e e' : Eff) : Core := { k with effs := k.effs.map fun x => if x = e then e' else x }

/-- A beat updates its row, and is done. -/
def landBeat (k : Core) (e : Eff) : Core :=
  match e.land with
  | .beat r acc cs => swapEff { k with acc := accPut r 0 (beatNew acc (accRow k r) cs).1 k.acc } e { e with dead := true }
  | _ => k

/-- Whether an effect is a beat. -/
def isBeat (e : Eff) : Bool := match e.land with | .beat .. => true | _ => false

/-- Whether an effect's flags trap, taken already or not. -/
def wouldTrap (e : Eff) : Bool := decide (e.flags &&& e.en ≠ 0)

/-- One beat that is due lands (R165 to R167): the flags of both arrays are the issuer's, and a beat that traps writes no row
in either.  The half that lands first finds the flags of the other half's addition from the row that the other array holds and the beats before
it in flight: in one cycle that is what the other half then does; when hold freezes of one core set the halves apart it is a prediction
(DEDUCED, log 21). -/
def landOne (s : State) (c : Nat) (e : Eff) : State :=
  let k := coreAt s c
  let p := partnerOf c
  let pk := coreAt s p
  if e.seat < 4 then
    let q := pk.effs.find? fun x => decide (x.seat = 4 + e.seat) && decide (x.sw = e.due) && isBeat x && !x.dead
    let kill := fun (s : State) => match q with
      | some x => modCore s p fun pk => swapEff pk x { x with dead := true }
      | none => s
    if e.dead then (if wouldTrap e then kill s else s)
    else
      let e' := { e with flags := e.flags ||| beatFlags k e ||| (match q with | some x => beatFlags pk x | none => 0) }
      let s := setCore s c (swapEff k e e')
      if e'.traps then kill s else modCore s c fun k => landBeat k e'
  else if e.dead then s
  else match pk.effs.find? fun x => decide (x.seat + 4 = e.seat) && decide (x.due = e.sw) && isBeat x with
    | none => modCore s c fun k => landBeat k e
    | some x =>
      if x.dead then (if wouldTrap x then setCore s c (swapEff k e { e with dead := true }) else modCore s c fun k => landBeat k e)
      else
        let x' := { x with flags := x.flags ||| beatFlags k e }
        let s := setCore s p (swapEff pk x x')
        let trap := ({ x' with flags := x'.flags ||| beatFlags pk x } : Eff).traps
        modCore s c fun k => if trap then swapEff k e { e with dead := true } else landBeat k e

/-- Land the beats of a list in the order in which they entered. -/
def landBeats (c : Nat) : List Eff → State → State
  | [], s => s
  | e :: t, s => landBeats c t (landOne s c e)

/-- BEAT_LAND (R165 to R167): the beats that are due update their rows; the flags and the trap follow with the core's other
results. -/
def execBeatLand (c : CoreId) (s : State) : Out :=
  let k := coreAt s c.val
  .next (landBeats c.val (k.effs.filter fun e => isBeat e && decide (e.due ≤ k.ct)) s)

/-! ### Drain -/

/-- DRAIN (R169): the row is read now; with Z it is cleared now. -/
def execDrain (t : Fin 8) (r a : BitVec 8) (z : Bool) (s : State) : Out :=
  .next (arrayVia s 21 fun s => shapeVia s 21 t.val fun h s =>
    modeRow s 21 t.val (h.2.2 ≠ 1) r.toNat h.1 h.2.1 h.2.2 fun s =>
      let row := accRow (cc s) a.toNat
      let es := (countUp 0 h.2.1).map fun j =>
        let x := lget 0 row j
        if h.2.2 = 4 then (natBytes 4 x.toNat, (0 : Flags))
        else let q := rneBf (val32 x); (natBytes 2 q.1.toNat, (val32 x).sig ||| q.2)
      let s := if z then onCore s fun k => { k with acc := accPut a.toNat 0 (row.map fun _ => 0) k.acc } else s
      emitEff s (effOf s 21 4 (.tile t.val (rowBytes r.toNat h.2.1 h.2.2 (es.map (·.1)).flatten)) (orFlags (es.map (·.2)))
        (wordOf a.toNat)))

/-! ### Tile rows -/

/-- TRW (R172). -/
def execTrw (t : Fin 8) (r : BitVec 8) (src : Fin 8) (b : SSrc) (m : Bool) (s : State) : Out :=
  .next (withSrcs s 22 [b] fun v s => arrayVia s 22 fun s =>
    shapeVia s 22 t.val fun h s => shapeVia s 22 src.val fun g s =>
      let c := (v b).toNat
      modeRow s 22 t.val (h.2.2 = g.2.2) r.toNat h.1 h.2.1 h.2.2 fun s =>
        if (if m then g.1 else g.2.1) ≤ c then
          addCause s 2 Cause.tileBound 22 (wordOf ((if m then c * g.2.1 else c) * g.2.2)) (wordOf src.val)
        else
          let k := cc s
          let w := h.2.2
          let elem := fun (j : Nat) =>
            if m then (if j < g.2.1 then cellsAt k.tile (36864 * src.val + (c * g.2.1 + j) * w) w else natBytes w 0)
            else (if j < g.1 then cellsAt k.tile (36864 * src.val + (j * g.2.1 + c) * w) w else natBytes w 0)
          emit s 22 2 (.tile t.val (rowBytes r.toNat h.2.1 w ((countUp 0 h.2.1).map elem).flatten)))

/-- TLDR (R173). -/
def execTldr (t : Fin 8) (r : BitVec 8) (e : BitVec 4) (b : SSrc) (s : State) : Out :=
  .next (withSrcs s 22 [b] fun v s => arrayVia s 22 fun s => shapeVia s 22 t.val fun h s =>
    modeRow s 22 t.val true r.toNat h.1 h.2.1 h.2.2 fun s =>
      spadAccess s 22 e.toNat true false 16 (v b).toNat (h.2.1 * h.2.2) fun ps s =>
        emit s 22 4 (.tile t.val (rowBytes r.toNat h.2.1 h.2.2 (spadGet (cc s) ps))))

/-- TSTR (R173). -/
def execTstr (t : Fin 8) (r : BitVec 8) (e : BitVec 4) (b : SSrc) (s : State) : Out :=
  .next (withSrcs s 22 [b] fun v s => arrayVia s 22 fun s => shapeVia s 22 t.val fun h s =>
    modeRow s 22 t.val true r.toNat h.1 h.2.1 h.2.2 fun s =>
      spadAccess s 22 e.toNat false true 16 (v b).toNat (h.2.1 * h.2.2) fun ps s =>
        emit s 22 4 (.store (ps.zip (tileRow (cc s) t.val r.toNat h.2.1 h.2.2))))

end Sys2Proof.Machine
end

