-- ==== Sys2Proof/Machine/Extent.lean ====
section
/-!
DEFINITION. Translation: the six-level page-table walk, the dirty bit, and the translation of an extent (R227, R228, R251 to R254),
with the notices that page causes post (Table 11-3).
-/
namespace Sys2Proof.Machine

open Sys2Proof

/-- A leaf a walk ends at: its tier, its physical base and the level it was found at. -/
structure Leaf where
  tier : Nat
  base : Nat
  level : Nat
  deriving DecidableEq, Repr

/-- Why a walk fails: the cause, the virtual address and the level reached (Table 11-3). -/
structure PageFail where
  cause : Nat
  va : Nat
  level : Nat
  deriving DecidableEq, Repr

/-- The index a level takes from a virtual address (Table 11-7). -/
def walkIndex (va : Nat) : Nat → Nat
  | 5 => va / 2 ^ 47 % 1024
  | 4 => va / 2 ^ 38 % 512
  | 3 => va / 2 ^ 29 % 512
  | 2 => va / 2 ^ 25 % 16
  | 1 => va / 2 ^ 21 % 16
  | _ => va / 2 ^ 16 % 32

/-- The alignment of the table of a level (Table 11-7). -/
def tableAlign : Nat → Nat
  | 5 => 8192
  | 4 => 4096
  | 3 => 4096
  | _ => 256

/-- The bytes a leaf of a level maps; also the page size of PGSZ codes 0 to 3 (Tables 10-6, 11-7). -/
def pageBytes : Nat → Nat
  | 0 => 2 ^ 16
  | 1 => 2 ^ 21
  | 2 => 2 ^ 25
  | _ => 2 ^ 29

/-- Read a page-table entry at its memory's ordering point (R253). -/
def readPte (s : State) (t a : Nat) : State × Option Word :=
  let r := memRead s none t a 8
  (r.1, match r.2.1 with | none => some (wordOf (leNat r.2.2)) | some _ => none)

/-- The address field of an entry (Table 11-6). -/
def pteAddr (w : Word) : Nat := bits w 51 8 * 256

/-- Whether an entry is malformed at a level (R252, R253). -/
def pteBad (w : Word) (level : Nat) : Bool :=
  let tier := bits w 7 5
  decide (bits w 63 52 ≠ 0) ||
  (if bitAt w 1 then
    decide (4 ≤ level) || decide (tier = 0) || decide (6 ≤ tier) ||
    (decide (tier ≠ 1) && decide (pteAddr w % pageBytes level ≠ 0)) ||
    (decide (tier = 1) && (decide (bits w 32 22 ≠ 0) || decide (pteAddr w % 2 ^ 16 ≠ 0)))
  else decide (level = 0) || (decide (tier ≠ 3) && decide (tier ≠ 5)) || decide (pteAddr w % tableAlign (level - 1) ≠ 0))

/-- Walk the tables from the table of the first level listed, at an address (R253).  `decl` is the declared page size. -/
def walkFrom (va : Nat) (decl : Option Nat) (rd wr : Bool) :
    State → Nat → Nat → List Nat → State × Except PageFail Leaf
  | s, _, _, [] => (s, .error ⟨Cause.ptRsvd, va, 0⟩)
  | s, t, a, l :: ls =>
    let fail := fun (c : Nat) => (Except.error ⟨c, va, l⟩ : Except PageFail Leaf)
    match readPte s t (a + 8 * walkIndex va l) with
    | (s, none) => (s, fail Cause.ptUe)
    | (s, some w) =>
      if !bitAt w 0 then (s, fail Cause.pageAbsent)
      else if pteBad w l then (s, fail Cause.ptRsvd)
      else if !bitAt w 1 then walkFrom va decl rd wr s (bits w 7 5) (pteAddr w) ls
      else if (match decl with | some p => decide (p ≠ l) | none => false) || (decide (bits w 7 5 = 1) && decide (l ≠ 0)) then
        (s, fail Cause.pageSize)
      else if (rd && !bitAt w 2) || (wr && !bitAt w 3) then (s, fail Cause.pagePerm)
      else
        let s := if wr && !bitAt w 4 then unitWrite s t (a + 8 * walkIndex va l) (natBytes 8 (setBits w 4 4 1).toNat) else s
        (s, .ok ⟨bits w 7 5, pteAddr w, l⟩)

/-- Walk from a tenant's root word (R251, R253).  Table 11-3 gives no level for a failure at that word; the model reports 6, one above the
topmost level (DESIGN CHOICE, log 33). -/
def walk (s : State) (tenant va : Nat) (decl : Option Nat) (rd wr : Bool) : State × Except PageFail Leaf :=
  let tt := mreg s .ttbase
  match readPte s (bits tt 63 61) (bits tt 45 0 + 8 * tenant) with
  | (s, none) => (s, .error ⟨Cause.ptUe, va, 6⟩)
  | (s, some w) =>
    if !bitAt w 0 then (s, .error ⟨Cause.ptRoot, va, 6⟩)
    else if bitAt w 1 || pteBad w 6 then (s, .error ⟨Cause.ptRsvd, va, 6⟩)
    else walkFrom va decl rd wr s (bits w 7 5) (pteAddr w) [5, 4, 3, 2, 1, 0]

/-- The physical place of a virtual byte under its leaf: tier and address. -/
def leafPlace (l : Leaf) (va : Nat) : Nat × Nat :=
  (l.tier, l.base + va % (if l.tier = 1 then 2 ^ 16 else pageBytes l.level))

/-- Walk the pages of an extent in turn: each must lie behind the one before in the same tier (R228).  The answer is the tier and
the address behind the last page. -/
def walkPages (tenant size : Nat) (decl : Nat) (rd wr : Bool) :
    Nat → State → Nat → Option (Nat × Nat) → State × Except PageFail (Nat × Nat)
  | 0, s, _, want => (s, .ok (want.getD (0, 0)))
  | n + 1, s, va, want =>
    match walk s tenant va (some decl) rd wr with
    | (s, .error f) => (s, .error f)
    | (s, .ok l) =>
      if (match want with | some (t, a) => decide (t ≠ l.tier) || decide (a ≠ l.base) | none => false) then
        (s, .error ⟨Cause.pageSplit, va, l.level⟩)
      else walkPages tenant size decl rd wr n s (va + size) (some (l.tier, l.base + size))

/-- Translate a virtual extent at its declared page size (R228): on success it has its tier and base and is neither revoked nor
on demand (R258). -/
def translateExt (s : State) (tenant : Nat) (e : Ext) : State × Except PageFail Ext :=
  let size := pageBytes e.pgsz
  let first := e.virt / size * size
  let pages := if e.len = 0 then 1 else (e.virt + e.len * 64 - 1) / size - e.virt / size + 1
  match walkPages tenant size e.pgsz e.rd e.w pages s first none with
  | (s, .error f) => (s, .error f)
  | (s, .ok (t, a)) => (s, .ok { e with tier := t, base := a - pages * size + e.virt % size, rv := false, dm := false })

/-- INFO1 of a page cause (Table 11-3). -/
def pageInfo1 (e : Ext) (f : PageFail) : Word :=
  pack [((if e.rd then 1 else 0) + (if e.w then 2 else 0), 0), (e.pgsz, 2), (f.level % 8, 4)]

/-- Post the notice of a page cause about a task (R253, R258). -/
def postPage (s : State) (task tco : Word) (c n : Nat) (e : Ext) (f : PageFail) : State :=
  postTask s task tco c n f.cause none (wordOf f.va) (pageInfo1 e f)

/-- Post the notice of a page cause about a launch (R223, R224, R228). -/
def postPageQ (s : State) (q lseq : Nat) (acc : Nat) (f : PageFail) : State :=
  postQueue s q lseq f.cause none (wordOf f.va) (pack [(acc, 0), (f.level % 8, 4)])

end Sys2Proof.Machine
end

