-- ==== Sys2Proof/Machine/Engine.lean ====
section
/-!
DEFINITION. The E slot: ESET and EGET (R186, R187), the status word, counters, acceptance and refusal of commands (R188, R189), result
records and completion (R190 to R192), and the reads and writes that engines make for a command.
-/
namespace Sys2Proof.Machine

open Sys2Proof

/-! ### Staging registers -/

/-- A staging register of a seat. -/
def stgOf (t : Seat) (eng i : Nat) : Word := tget 0 t.stg (128 * eng + i)

/-- RES without its reserved field (Table 8-2). -/
def resMask : Word := 0x80000FFFFFFFFFFF

/-- The defined bits of a staging register (Tables 8-2, 8-3, 8-4, 8-6, 19-4; R206 to R209, R212). -/
def stgMask (eng i : Nat) : Word :=
  let all : Word := 0xFFFFFFFFFFFFFFFF
  if i = 0x7F then resMask
  else if eng < 4 then (if i = 0 then 0x0000FFFFFFF80000 else if 7 ≤ i then 0xFFFFFFFF else all)
  else if eng = 4 then
    (match i with | 0 => 0xF | 1 => 0xFFFFFFFFFFF | 3 => 0x7F7F7F | 4 => 0xFFFFFFFFFFFF | 5 => 0x7F | _ => all)
  else if eng = 5 then (match i with | 0 => 0xF | 1 => 0xFFFF | 3 => 0xFFFFF | 4 => 0xFFFFFFFF | _ => all)
  else if eng = 6 then (if i = 0 then 0x1FF00FF else all)
  else if eng = 7 then (match i with | 0 => 0xFF | 2 => 0xFFFF | _ => all)
  else if eng = 8 then 0xF
  else if eng = 9 then (if i = 0 then 0xFFFF3FFF else all)
  else if eng = 11 then 0x3FFF
  else all

/-- ESET (R186): the register changes at issue + 1. -/
def execEset (n : BitVec 4) (i : BitVec 8) (a : SSrc) (s : State) : Out :=
  .next (withSrcs s 25 [a] fun v s =>
    emit s 25 1 (.stg (128 * n.toNat + i.toNat) (v a &&& stgMask n.toNat i.toNat)))

/-! ### Status registers -/

/-- The state after a CRC-32C register has run over `n` bytes of zero (R194, R312). -/
def crcZeros : Nat → Nat → Nat
  | 0, c => c
  | n + 1, c => crcZeros n (crcByte c 0)

/-- The check value of two strings joined, from that of each with seed 0, or with the first's own seed (R312). -/
def chkJoin (mode : Nat) (x y : W32) (ylen : Nat) : W32 :=
  if mode = 1 then x + y else if mode = 2 then y ^^^ BitVec.ofNat 32 (crcZeros ylen x.toNat) else 0

/-- The running check value of a command: its seed continued over the bytes that have passed R198's test. -/
def cmdChk (m : CpyCmd) : W32 :=
  if m.mode = 1 ∨ m.mode = 2 then
    match tfind m.done 0 with
    | some (n, v) => chkJoin m.mode m.seed v n
    | none => m.seed
  else 0

/-- The bytes of a command that have passed R198's test. -/
def cmdWptr (m : CpyCmd) : Nat := match tfind m.done 0 with | some (n, _) => n | none => 0

/-- The bytes of a copy command. -/
def cpyTotal (m : CpyCmd) : Nat := m.len * m.rows

/-- The destination offset of a byte of a command (R193). -/
def cpyDst (m : CpyCmd) (pos : Nat) : Nat := m.b + pos / m.len * m.dpitch + pos % m.len

/-- The 64-byte unit a byte of a command lies in, by which a side log counts (R199): of its destination, or a popped entry (R196). -/
def logKey (m : CpyCmd) (pos : Nat) : Nat := if m.mode = 6 then pos / 64 else cpyDst m pos / 64

/-- The 64-byte units in a side log (R199): seat, SEQ and unit of each, once. -/
def slogUnits (h : Chan) : List (Nat × Nat × Nat) :=
  (h.slog.map fun u => (u.seat, u.seq,
    match h.cmds.find? fun m => decide (m.seat = u.seat) && decide (m.seq = u.seq) with
    | some m => logKey m u.pos
    | none => 0)).eraseDups

/-- A channel's status registers (Table 8-5). -/
def chanStatus (h : Chan) (i : Nat) : Word :=
  match i with
  | 0x80 => wordOf h.cmds.length
  | 0x81 => wordOf (match h.cmds with | m :: _ => cmdWptr m | [] => 0)
  | 0x82 => (match h.cmds with | m :: _ => (cmdChk m).setWidth 64 | [] => h.lastChk.setWidth 64)
  | 0x83 => wordOf (slogUnits h).length
  | 0x84 => (match h.held with | some e => wordOf (16 + e) | none => 0)
  | _ => 0

/-- The tier port's status registers (Tables 8-6, 17-4): another tenant's stream reads 0. -/
def tierStatus (s : State) (c tenant i : Nat) : Word :=
  let n := if 0xC0 ≤ i then i - 0xC0 else (i - 0x80) / 4
  let t : Stream := tget {} s.streams n
  if t.tenant ≠ tenant then 0
  else if 0xC0 ≤ i then tget 0 t.twptr c
  else match (i - 0x80) % 4 with
    | 0 => wordOf t.late0
    | 1 => wordOf t.late1
    | 2 => wordOf t.late2
    | _ => pack [(t.st, 0), (t.next % 2 ^ 24, 8)]

/-- Pages of a die's pool in use (R369). -/
def kvUsed (d : Die) : Nat := (d.count.filter fun x => decide (x.2 ≠ 0)).length

/-- The tier and offset of entry `e` of a die's handle table (R365, R366). -/
def kvEntry (s : State) (d e : Nat) : Nat × Nat :=
  let w := mreg s (.kvht d)
  (bits w 63 61, bits w 39 0 + 256 * e)

/-- A word of a tier as an agent of a die reads it. -/
def dieWord (s : State) (d t a : Nat) : Word := wordOf (leNat ((countUp a 8).map (obsByte s (some d) t)))

/-- Handle entries of a die with V = 1. -/
def kvLive (s : State) (d : Nat) : Nat :=
  ((countUp 0 (bits (mreg s (.kvht d)) 58 40)).filter fun e =>
    let p := kvEntry s d e
    bitAt (dieWord s d p.1 p.2) 63).length

/-- Journal units an entry takes (Table 19-5). -/
def jentUnits : JEnt → Nat
  | .slot _ _ _ bs => 1 + bs.length / 64
  | _ => 1

/-- Free journal units of a die (R365, R382): unit 0 is never allocated. -/
def kvJfree (s : State) (d : Nat) : Nat :=
  bits (mreg s (.kvjrn d)) 59 40 - 1 -
    ((dieAt s d).jrn.map fun j => (j.2.map jentUnits).foldl (· + ·) 0).foldl (· + ·) 0

/-- The quota register of a tenant for send (`true`) or receive slots: its number, limit and use (R400). -/
def netQuota (s : State) (tenant : Nat) (send : Bool) : Option (Nat × Nat × Nat) :=
  match (List.range 16).find? fun k =>
      let w := mreg s (.ntq k)
      decide (bits w 63 48 = tenant) && decide ((if send then bits w 47 36 else bits w 35 24) ≠ 0) with
  | some k =>
    let w := mreg s (.ntq k)
    some (k, if send then (bits w 47 36, bits w 23 12) else (bits w 35 24, bits w 11 0))
  | none => none

/-- Whether a record takes a slot: until its entry and counter have been written, or until it fails (R400). -/
def takesSlot (r : NetRec) : Bool := decide (r.ends = 0) || decide (r.code = 0)

/-- Slots free to a tenant (R400). -/
def netSlots (s : State) (tenant : Nat) (send : Bool) : Nat :=
  let free := 4096 - (s.netRecs.filter fun r => takesSlot r && (r.send == send)).length
  match netQuota s tenant send with
  | some (_, lim, used) => min free (lim - used)
  | none => free

/-- The pin entry a seat's view shows (Table 8-9). -/
def pinView (s : State) (tenant i : Nat) : Word :=
  let p := pinAt s i
  if p.tenant ≠ tenant then 0
  else pack [(p.gen, 34), (p.st, 32), (if 2 ≤ p.st then p.at_ + 65536 - s.gts else 0, 0)]

/-- The value EGET reads (R187, R28). -/
def engRead (s : State) (c n eng i : Nat) : Word :=
  let k := coreAt s c
  let t := seatOf k n
  let tenant := taskTenant t.task
  if i < 0x80 then stgOf t eng i
  else if eng < 4 then chanStatus (tget {} k.ch eng) i
  else match eng with
    | 4 => tierStatus s c tenant i
    | 5 =>
      let d := c / 96
      if i = 0x80 then wordOf (bits (mreg s (.kvpool d)) 63 40 - kvUsed (dieAt s d))
      else if i = 0x81 then wordOf (bits (mreg s (.kvht d)) 58 40 - kvLive s d)
      else wordOf (kvJfree s d)
    | 8 => wordOf (netSlots s tenant (i = 0x80))
    | 10 =>
      let q := i - 0x80
      if bits (mreg s (.gqcfg q)) 62 47 = tenant then wordOf ((tget {} s.gq q).closed.filter fun x => decide (x.2 < s.gts)).length else 0
    | 11 =>
      if i = 0x81 then wordOf (16384 - (s.pins.filter fun p => decide (p.2.st ≠ 0)).length)
      else pinView s tenant (bits (stgOf t 11 0) 13 0)
    | _ => 0

/-- EGET (R187): the register's value at issue lands at issue + 3. -/
def execEget (d : SDst) (n : BitVec 4) (i : BitVec 8) (s : State) : Out :=
  .next (sendS s 25 3 d (engRead s s.cur (cn s) n.toNat i.toNat))

/-! ### Status words -/

/-- An engine status word (Table 8-1). -/
def statusWord (code eng : Nat) (dn : Bool) (seq val : Nat) : Word :=
  pack [(code % 256, 56), (eng % 16, 52), (if dn then 1 else 0, 51), (seq % 65536, 32), (val % 2 ^ 32, 0)]

/-- The number of an engine's next accepted command (R188). -/
def nextSeq (t : Seat) (eng : Nat) : Nat := let n := tget 0 t.cnt eng; if 65535 ≤ n then 1 else n + 1

/-- Refuse a command (R188, R189). -/
def refuseCmd (s : State) (d : SDst) (eng code : Nat) : State := sendS s 25 2 d (statusWord code eng false 0 0)

/-- Accept a command: the counter advances, the command counts toward the limit of R188 when `lim` says so, and the status
word is on its way. -/
def acceptCmd (s : State) (d : SDst) (eng val : Nat) (lim : Bool) : State :=
  let seq := nextSeq (cs s) eng
  let s := onSeat s fun t =>
    { t with cnt := tput eng seq t.cnt, outst := if lim then tmod 0 eng (· + 1) t.outst else t.outst }
  sendS s 25 2 d (statusWord 0 eng false seq val)

/-! ### Checks at issue -/

/-- The extent checks an engine makes at issue: 1, 2, 5, 6, 7 and 8 of Table 5-1 (R189). -/
def engCheck (e : Ext) (tiers : List Nat) (rd wr : Bool) (align off size : Nat) : Option Nat :=
  extCheck { e with rv := false, dm := false } tiers rd wr align off size

/-- Every tier. -/
def allTiers : List Nat := [0, 1, 2, 3, 4, 5]

/-- The first failure of some checks in order. -/
def firstFail : List (Option Nat) → Option Nat
  | [] => none
  | some c :: _ => some c
  | none :: t => firstFail t

/-- A check that fails with a cause when a condition holds. -/
def failIf (b : Bool) (c : Nat) : Option Nat := if b then some c else none

/-- The result record a command asks for: its extent and offset (Table 8-2). -/
def resOf (t : Seat) (eng : Nat) : Option (Ext × Nat) :=
  let w := stgOf t eng 0x7F
  if bitAt w 63 then some (extOf t (bits w 43 40), bits w 39 0) else none

/-- The check of a result record at issue (R190). -/
def resCheck : Option (Ext × Nat) → Option Nat
  | none => none
  | some (e, off) => engCheck e [0] false true 16 off 16

/-! ### Completion -/

/-- Whether an extent a command copied lets it through (R192, R259). -/
def extFree (e : Ext) : Bool := !e.rv && !e.dm

/-- Whether a result record can be written now. -/
def resFree : Option (Ext × Nat) → Bool
  | none => true
  | some (e, _) => extFree e

/-- Write a result record: both words in one bank write (R190); a record whose extent's walk has led out of the scratchpad is one write of its
memory (log 13). -/
def writeRes (s : State) (c : Nat) (r : Option (Ext × Nat)) (w0 w1 : Word) : State :=
  match r with
  | none => s
  | some (e, off) =>
    let bs := natBytes 8 w0.toNat ++ natBytes 8 w1.toNat
    if e.tier ≤ 1 then modCore s c fun k => spadPut k ((spadPlaces e off 16).zip bs)
    else unitWrite s e.tier (e.base + off) bs

/-- One command of a task less counts toward the limit of R188, wherever the task now is: TASK and TCO name it. -/
def dropOutst (s : State) (task tco : Word) (eng : Nat) : State :=
  let f := fun (t : Seat) => if t.task = task ∧ t.tco = tco then { t with outst := tmod 0 eng (· - 1) t.outst } else t
  { s with cores := s.cores.map fun c => (c.1, { c.2 with seats := c.2.seats.map fun t => (t.1, f t.2) }),
           queues := s.queues.map fun q => (q.1, { q.2 with resume := q.2.resume.map fun x => { x with seat := f x.seat } }) }

/-- The result record of a command has been written: its seat drains the command when it reads the record, and has read it at once when its
WAITF was watching it (R94, R290).  `t` is the seat before the write; commands of which no write is buffered are forgotten. -/
def noteRecord (s : State) (c n : Nat) (t : Seat) (task tco : Word) (path place : Nat) : State :=
  let woken := match t.wait, (seatAt s c n).wait with | some (.word ph _ _), none => ph.contains place | _, _ => false
  modSeat s c n fun x =>
    if x.task ≠ task ∨ x.tco ≠ tco ∨ x.st = .empty then x
    else
      let open_ := fun (p : Nat) => s.wbuf.any fun w => decide (w.owner = some (4 * c + n)) && decide (w.path = p)
      let recs := x.recs.filter fun r => open_ r.1 && decide (r.2 ≠ place)
      let dr := x.drained.filter fun p => open_ p && decide (p ≠ path)
      if !open_ path then { x with recs := recs, drained := dr }
      else if woken then { x with recs := recs, drained := dr ++ [path] }
      else { x with recs := recs ++ [(path, place)], drained := dr }

/-- What a command's failure brings with it (R192, R263, Table 11-3): a notice with the status word, or with the place of an abandoned unit
(`phys` then holds INFO1 and INFO0) or of the data of REMOTE_UE; uncorrectable data strikes its launch. -/
def cmdFailed (s : State) (c n : Nat) (task tco : Word) (code : Nat) (detail : Option Nat) (phys : Option (Nat × Nat)) (w : Word) : State :=
  let s := if code = 0 then s
    else if code = Cause.extAbandon then
      postTask s task tco c n code none (wordOf ((phys.map (·.2)).getD 0)) (wordOf ((phys.map (·.1)).getD 0))
    else match (if code = Cause.remoteUe then phys else none) with
    | some (t, a) => postTask s task tco c n code detail (wordOf (a / 64 * 64)) (wordOf t)
    | none => postTask s task tco c n code detail w 0
  if code = Cause.remoteUe ∨ code = Cause.cxlPoison then
    match phys with
    | some (t, a) => strike s task t a
    | none => s
  else s

/-- A command ends (R190, R192, R260, R263): its record is written, and a failure has its notice and its rollback. -/
def endCmd (s : State) (c n : Nat) (task tco : Word) (eng seq code val : Nat) (detail : Option Nat)
    (phys : Option (Nat × Nat)) (res : Option (Ext × Nat)) (word1 : Word) : State :=
  let w := statusWord code eng true seq val
  let t := seatAt s c n
  let s := writeRes s c res w word1
  let s := match res with
    | some (e, off) => if 4 ≤ eng ∧ e.tier ≤ 1 then
        noteRecord s c n t task tco (engPath eng seq) ((spadPlaces e (off + 6) 1).headD 0) else s
    | none => s
  cmdFailed (dropOutst s task tco eng) c n task tco code detail phys w

/-- Whether a die is out of D0 or has been left off at boot (R411, R415). -/
def dieDown (s : State) (d : Nat) : Bool := decide ((dieAt s d).power ≠ 0) || !s.dieEn.getLsbD d

/-- What keeps an engine of a die from its work: the die is out of D0 (R415), or an error in its own state (Table 11-4, log 35). -/
def engBroken (s : State) (d eng : Nat) : Option Nat :=
  if dieDown s d then some Cause.peerDown else if s.engBad.contains (eng, d) then some Cause.engUe else none

/-- An engine of a die that cannot work completes its oldest command with that cause: each of them while the die is out of D0, one for an
error in its state. -/
def engDown (s : State) (d eng cause : Nat) : State :=
  let x := dieAt s d
  match (if eng = 5 then x.kv else if eng = 6 then x.topk else x.gthr).find? fun m => resFree m.res with
  | none => s
  | some m =>
    let s := modDie s d fun x =>
      if eng = 5 then { x with kv := x.kv.erase m } else if eng = 6 then { x with topk := x.topk.erase m }
      else { x with gthr := x.gthr.erase m }
    let s := if cause = Cause.engUe then { s with engBad := s.engBad.erase (eng, d) } else s
    if m.prog = 2 ∧ eng = 5 then endCmd s m.core m.seat m.task m.tco eng m.seq m.code m.val none m.phys m.res m.word1
    else endCmd s m.core m.seat m.task m.tco eng m.seq cause 0 none none m.res 0

/-! ### Reads and writes of an engine -/

/-- How an engine's access fails (R192, R326, Table 17-2): the cause, its detail, the memory that failed. -/
structure EngFail where
  cause : Nat
  detail : Option Nat := none
  phys : Option (Nat × Nat) := none
  deriving DecidableEq, Repr

/-- The place a tier 1 extent names (R252): package, die × 96 + core, and 384 for a core number that no die has. -/
def peerChip (e : Ext) : Nat := e.base / 2 ^ 42 % 1024
def peerCore (e : Ext) : Nat :=
  if e.base / 2 ^ 33 % 128 < 96 then e.base / 2 ^ 40 % 4 * 96 + e.base / 2 ^ 33 % 128 else 384

/-- What refuses an engine's access to a peer's scratchpad (R323, R325, R326): an engine is source core 127. -/
def peerRefusal (s : State) (tenant : Nat) (e : Ext) (off n perm : Nat) : Option EngFail :=
  if peerChip e ≠ chipNo s then
    match choosePath s (peerChip e) [] [] with
    | .ok _ => none
    | .error c => some { cause := c }
  else
    let m : Msg := { kind := 0, tenant := tenant, schip := chipNo s, sdie := 0, score := 127, sag := 0, msgid := 0,
                     dchip := chipNo s, ddie := 0, dcore := 0, dunit := 0, flits := [], tag := 0 }
    match (if e.base / 2 ^ 33 % 128 < 96 then grantCheck s (peerCore e) m perm [((e.base % 2 ^ 22 + off) % 2 ^ 22, n)] true
           else .error Cause.grantNone) with
    | .ok _ => none
    | .error d =>
      some (if d = Cause.peerDown then { cause := d } else { cause := Cause.grantRefused, detail := some d })

/-- What a peer of another package answers to an engine's read (R192, R326): its bytes, or a cause and its detail; all of it is a free
value (log 4). -/
def peerRead (s : State) (off n : Nat) : State × Option EngFail × List Byte :=
  let d := drawWord s
  if !bitAt d.1 0 then let r := drawBytes d.2 n; (r.2, none, r.1)
  else
    let refused := [Cause.grantNone, Cause.grantTenant, Cause.grantRange, Cause.remotePerm]
    let i := bits d.1 3 1
    (d.2, some (if i < 4 then { cause := Cause.grantRefused, detail := some (lget 0 refused i) }
                else if i = 4 then { cause := Cause.peerDown }
                else if i = 5 then { cause := Cause.fabRetry }
                else if i = 6 then { cause := Cause.fabUnreach }
                else { cause := Cause.remoteUe, phys := some (1, (off + bits d.1 63 32 % max 1 n) % 2 ^ 22) }), [])

/-- The core of a tier 1 place (R252); 384 when it names none. -/
def placeCore (a : Nat) : Nat := if a / 2 ^ 33 % 128 < 96 then a / 2 ^ 40 % 4 * 96 + a / 2 ^ 33 % 128 else 384

/-- What the scheduler reads at a physical place of tiers 1 to 5: whether the read fails, and the bytes; those of another package's scratchpad
are free values (log 4). -/
def physRead (s : State) (t a n : Nat) : State × Bool × List Byte :=
  if t = 1 then
    if a / 2 ^ 42 % 1024 ≠ chipNo s then let r := peerRead s (a % 2 ^ 22) n; (r.1, r.2.1.isSome, r.2.2)
    else
      let k := coreAt s (placeCore a)
      let ps := (countUp (a % 2 ^ 22) n).map (· % 2 ^ 22)
      (s, decide (384 ≤ placeCore a) || (spadErr k 0 ps).isSome, spadGet k ps)
  else
    let r := memRead s none t a n
    (r.1, r.2.1.isSome, r.2.2)

/-- Read `n` bytes at a virtual address, walking again at each leaf they enter (R253); the first number bounds the leaves. -/
def readVirt (tenant : Nat) : Nat → State → Nat → Nat → State × Except PageFail (List Byte)
  | 0, s, _, _ => (s, .ok [])
  | fuel + 1, s, va, n =>
    if n = 0 then (s, .ok [])
    else match walk s tenant va none true false with
    | (s, .error f) => (s, .error f)
    | (s, .ok l) =>
      let p := leafPlace l va
      let size := pageBytes l.level
      let k := min n (size - va % size)
      let r := physRead s p.1 p.2 k
      if r.2.1 then (r.1, .error ⟨Cause.ptUe, va, l.level⟩)
      else
        match readVirt tenant fuel r.1 (va + k) (n - k) with
        | (s, .error f) => (s, .error f)
        | (s, .ok bs) => (s, .ok (r.2.2 ++ bs))

/-- Bytes an engine reads through an extent of the issuing core (R192, R308, Table 17-2): `die` is the engine's die, none for an
engine of the package. -/
def engFetch (s : State) (die : Option Nat) (c tenant : Nat) (e : Ext) (off n : Nat) : State × Option EngFail × List Byte :=
  if e.tier = 0 then
    let k := coreAt s c
    let ps := spadPlaces e off n
    (s, (spadErr k 0 ps).map fun i => { cause := Cause.remoteUe, phys := some (0, lget 0 ps i) }, spadGet k ps)
  else if e.tier = 1 then
    match peerRefusal s tenant e off n 0 with
    | some f => (s, some f, [])
    | none =>
      if peerChip e ≠ chipNo s then peerRead s ((e.base % 2 ^ 22 + off) % 2 ^ 22) n
      else
        let k := coreAt s (peerCore e)
        let ps := spadPlaces e off n
        (s, (spadErr k 0 ps).map fun i => { cause := Cause.remoteUe, phys := some (1, lget 0 ps i) }, spadGet k ps)
  else
    let r := memRead s die e.tier (e.base + off) n
    (r.1, r.2.1.map fun x => { cause := x, phys := some (e.tier, failUnit s die e.tier (e.base + off) n) }, r.2.2)

/-- A write an engine makes for a command through an extent of the issuing core, of tier 0 or 2 to 5. -/
def engStore (s : State) (die c n : Nat) (task : Word) (e : Ext) (off : Nat) (bs : List Byte) (path : Nat) : State :=
  if e.tier = 0 then modCore s c fun k => spadPut k ((spadPlaces e off bs.length).zip bs)
  else
    let s := capWrite s task e.tier (e.base + off) bs
    memEnqueue s { buf := die, tier := e.tier, addr := e.base + off, bytes := bs, owner := some (4 * c + n),
                   launch := some (taskQueue task, taskLseq task), hidden := false, pin := none, resv := 0, path := path }

/-- A write of a top-k or gather command through a tier 1 extent: a DATA message of the gather engine (R308, R312, R314, R316, log 12). -/
def peerStore (s : State) (eng c n seq : Nat) (task : Word) (e : Ext) (off : Nat) (bs : List Byte) : State :=
  sendEng (loseCap s task) agGather
    (mkMsg s kData (taskTenant task) 0 127 agGather 0 (peerChip e) (e.base / 2 ^ 40 % 4) (e.base / 2 ^ 33 % 128) 0
      ((e.base % 2 ^ 22 + off) % 2 ^ 22) bs) eng (4 * c + n) off bs.length seq 0

/-- Whether every message of a command has been acknowledged (R192, R289, R312). -/
def peerClear (s : State) (eng c n seq : Nat) : Bool :=
  s.engSent.all fun x => !(decide (x.agent = agGather) && decide (x.resv = eng) && decide (x.seat = 4 * c + n) && decide (x.seq = seq))

/-- What stops a write before it is made: the failures of the pool and of a stage out of D0 (R344, R415). -/
def storeRefusal (s : State) (e : Ext) (off n : Nat) : Option Nat :=
  if e.tier = 0 ∨ e.tier = 1 then none else accessRefusal s e.tier (e.base + off) n

/-- Whether a command's writes are all at their ordering points. -/
def pathClear (s : State) (c n path : Nat) : Bool :=
  s.wbuf.all fun w => !(decide (w.owner = some (4 * c + n)) && decide (w.path = path))

/-! ### Demand extents -/

/-- An engine meets a demand extent: the walk is made at once, as the next step of this cycle (R258). -/
def meetDemand (s : State) (eng : Nat) (c : Nat) (h : c < 384) : State :=
  let e : Instr := .demandWalk (Fin.ofNat 12 eng) ⟨c, h⟩
  if s.turn.contains e then s else { s with turn := s.turn ++ [e] }

/-- The same for a core number that is not known to be in range. -/
def meetDemandAt (s : State) (eng c : Nat) : State := if h : c < 384 then meetDemand s eng c h else s

/-- A result record on demand is walked before it is written (R192, R258). -/
def resMeet (s : State) (eng c : Nat) (miss : Bool) (r : Option (Ext × Nat)) : State :=
  match r with
  | some (e, _) => if e.dm && !e.rv && !miss then meetDemandAt s eng c else s
  | none => s

end Sys2Proof.Machine
end

