-- ==== Sys2Proof/Machine/Channel.lean ====
section
/-!
DEFINITION. Copy channels inside their core: CPY and CDRN at issue (R193 to R197, R201), starting, reading, writing and completing
commands (R194 to R200, R268, R302, R306, R307, R309), side logs and their replay (R199, R259), and the cluster queues (R196).
-/
namespace Sys2Proof.Machine

open Sys2Proof

/-! ### A command's geometry -/

/-- A channel of a core. -/
def chanOf (s : State) (c h : Nat) : Chan := tget {} (coreAt s c).ch h

/-- Change a channel. -/
def modChan (s : State) (c h : Nat) (f : Chan → Chan) : State :=
  modCore s c fun k => { k with ch := tput h (f (tget {} k.ch h)) k.ch }

/-- Valid source rows (R193). -/
def cpyVRows (m : CpyCmd) : Nat := if m.oob then min m.vrows m.rows else m.rows

/-- Valid bytes of a source row (R193). -/
def cpyVLen (m : CpyCmd) : Nat := if m.oob then min m.vlen m.len else m.len

/-- The source offset of a byte of a command, none for a fill byte (R193). -/
def cpySrc (m : CpyCmd) (pos : Nat) : Option Nat :=
  let row := pos / m.len
  let col := pos % m.len
  if row < cpyVRows m ∧ col < cpyVLen m then some (m.a + row * m.spitch + col) else none

/-- The fill bytes from a place on, piece by piece, up to the next source byte (R193): `n` bounds the rows. -/
def fillPieces (m : CpyCmd) : Nat → Nat → List (Nat × List Byte) × Nat
  | 0, pos => ([], pos)
  | n + 1, pos =>
    if cpyTotal m ≤ pos ∨ (cpySrc m pos).isSome then ([], pos)
    else
      let col := pos % m.len
      let k := m.len - col
      let bs := (countUp col k).map fun j => BitVec.ofNat 8 (m.fill.toNat / 2 ^ (8 * (j % 4)))
      let r := fillPieces m n (pos + k)
      ((pos, bs) :: r.1, r.2)

/-- The physical address of an offset, whose low bits give the atomic unit it lies in: a bank word of 16 bytes in a
scratchpad, else 64 bytes (R277). -/
def unitSize (e : Ext) : Nat := if e.tier ≤ 1 then 16 else 64

/-- Bytes from an offset to the end of its atomic unit. -/
def unitLeft (e : Ext) (off : Nat) : Nat :=
  unitSize e - (if e.tier = 0 then off else e.base + off) % unitSize e

/-- Collect `n` bytes from place `pos` out of some pieces, with the latest cycle they were read in; the first number bounds
the pieces. -/
def gather : Nat → Tbl (Nat × List Byte) → Nat → Nat → Option (Nat × List Byte)
  | 0, _, _, _ => none
  | f + 1, t, pos, n =>
    match t.find? fun x => decide (x.1 ≤ pos) && decide (pos < x.1 + x.2.2.length) with
    | none => none
    | some (p, cyc, bs) =>
      let l := (bs.drop (pos - p)).take n
      if l.length = n then some (cyc, l)
      else match gather f t (pos + l.length) (n - l.length) with
        | none => none
        | some (cyc', r) => some (max cyc cyc', l ++ r)

/-- Take a range of bytes out of some pieces. -/
def cutRange (t : Tbl (Nat × List Byte)) (pos n : Nat) : Tbl (Nat × List Byte) :=
  (t.map fun (p, cyc, bs) =>
    let e := p + bs.length
    if e ≤ pos ∨ pos + n ≤ p then [(p, cyc, bs)]
    else (if p < pos then [(p, cyc, bs.take (pos - p))] else []) ++
         (if pos + n < e then [(pos + n, cyc, bs.drop (pos + n - p))] else [])).flatten

/-- The place of a byte's destination, whose low bits give the atomic unit it lies in (R277). -/
def dstPlace (m : CpyCmd) (pos : Nat) : Nat := if m.dst.tier = 0 then cpyDst m pos else m.dst.base + cpyDst m pos

/-- Whether two bytes next to each other in a command's byte order go into one destination unit, the later one behind the earlier (R268):
rows that share a unit are written to it together. -/
def sameDst (m : CpyCmd) (pos : Nat) : Bool :=
  decide (dstPlace m pos / unitSize m.dst = dstPlace m (pos + 1) / unitSize m.dst) && decide (dstPlace m pos < dstPlace m (pos + 1))

/-- The first byte of a command in the destination unit of a byte; the first number bounds the bytes of a unit. -/
def unitStart (m : CpyCmd) : Nat → Nat → Nat
  | 0, pos => pos
  | f + 1, pos => if pos ≠ 0 ∧ sameDst m (pos - 1) then unitStart m f (pos - 1) else pos

/-- The bytes of a command from a byte on that go into its destination unit. -/
def unitBytes (m : CpyCmd) : Nat → Nat → Nat
  | 0, _ => 0
  | f + 1, pos => if pos + 1 < cpyTotal m ∧ sameDst m pos then unitBytes m f (pos + 1) + 1 else 1

/-- The destination unit a byte of a command falls into: the first byte of the command in it, and their number. -/
def dstUnit (m : CpyCmd) (pos : Nat) : Nat × Nat :=
  let p := unitStart m 64 pos
  (p, unitBytes m 64 p)

/-- Cut bytes of a command at the ends of its rows: first byte and bytes of each piece.  The first number bounds the pieces. -/
def rowPieces (m : CpyCmd) : Nat → Nat → List Byte → List (Nat × List Byte)
  | 0, _, _ => []
  | f + 1, pos, bs =>
    if bs = [] then []
    else
      let k := m.len - pos % m.len
      (pos, bs.take k) :: rowPieces m f (pos + k) (bs.drop k)

/-- The destination units that begin in a piece and have all their bytes: first byte, cycle of the last read, bytes.  The first
number bounds the units. -/
def unitsFrom (m : CpyCmd) : Nat → Nat → Nat → List (Nat × Nat × List Byte)
  | 0, _, _ => []
  | f + 1, pos, stop =>
    if stop ≤ pos then []
    else
      let u := dstUnit m pos
      let rest := unitsFrom m f (u.1 + u.2) stop
      if u.1 ≠ pos then rest
      else match gather 65 m.pend pos u.2 with
        | some (cyc, bs) => (pos, cyc, bs) :: rest
        | none => rest

/-- Every destination unit of a command that is ready to be written. -/
def readyUnits (m : CpyCmd) : List (Nat × Nat × List Byte) :=
  (m.pend.map fun (p, _, bs) => unitsFrom m (bs.length + 1) p (p + bs.length)).flatten

/-! ### Check values and progress -/

/-- The partial check value of some bytes, with seed 0 (R312). -/
def partialChk (mode : Nat) (bs : List Byte) : W32 :=
  if mode = 1 then sumWords bs else if mode = 2 then crc32c 0 bs else 0

/-- Join ranges that touch. -/
def joinDone (mode : Nat) (t : Tbl (Nat × W32)) : Tbl (Nat × W32) :=
  t.foldr (fun x acc => match acc with
    | (q, k, w) :: r => if x.1 + x.2.1 = q then (x.1, x.2.1 + k, chkJoin mode x.2.2 w k) :: r else x :: acc
    | [] => [x]) []

/-- Whether some ranges of bytes cover a range. -/
def coversRange (t : Tbl (Nat × W32)) (pos n : Nat) : Bool := t.any fun r => decide (r.1 ≤ pos) && decide (pos + n ≤ r.1 + r.2.1)

/-- Bytes are visible and verified (R198); a read reply all of whose bytes are visible is acknowledged (R312). -/
def markDone (s : State) (c h : Nat) (m : CpyCmd) (pos n : Nat) (v : W32) : State :=
  if n = 0 then s
  else
    let s := modCmd s c h m.seat m.seq fun x => { x with done := joinDone x.mode (tput pos (n, v) x.done) }
    match (chanOf s c h).cmds.find? fun x => decide (x.seat = m.seat) && decide (x.seq = m.seq) with
    | none => s
    | some x =>
      let due := x.acks.filter fun a => coversRange x.done a.1 a.2.1
      if due = [] then s
      else due.foldl (fun s a => sendLate s a.2.2)
        (modCmd s c h m.seat m.seq fun x => { x with acks := x.acks.filter fun a => !coversRange x.done a.1 a.2.1 })

/-- Credit a barrier of the issuing seat (R114, R198). -/
def creditBar (s : State) (c : Nat) (m : CpyCmd) (n : Nat) : State :=
  match m.bar with
  | none => s
  | some b => modSeat s c m.seat fun t =>
      if t.task = m.task then barPut t b { barOf t b with count := min ((barOf t b).count + n) barMax } else t

/-! ### CPY at issue -/

/-- The command a CPY describes (R193). -/
def cpyOf (s : State) (h : Nat) (chain : Bool) (a b : Nat) : CpyCmd :=
  let t := cs s
  let g := stgOf t h
  let cfg := g 0
  { seat := cn s, task := t.task, tco := t.tco, seq := nextSeq t h, chained := chain, mode := bits cfg 31 29,
    rop := bits cfg 28 27, bar := if bitAt cfg 23 then some (bits cfg 26 24) else none, fl := bitAt cfg 22,
    oob := bitAt cfg 21, cm := bitAt cfg 20, clm := bits cfg 39 32, sext := bits cfg 47 44, dext := bits cfg 43 40,
    src := extOf t (bits cfg 47 44), dst := extOf t (bits cfg 43 40), a := a, b := b, len := (g 1).toNat,
    rows := (g 2).toNat, spitch := (g 3).toNat, dpitch := (g 4).toNat, vlen := (g 5).toNat, vrows := (g 6).toNat,
    fill := (g 7).setWidth 32, seed := (g 8).setWidth 32, exp := (g 9).setWidth 32, res := resOf t h, ord := (cc s).accNo,
    timed := (tget {} (cc s).ch h).cmds.isEmpty, nextAt := s.cyc + 2 }

/-- The alignment a mode asks of offsets, lengths and pitches (R194, R196, R197). -/
def cpyAlign (mode : Nat) : Nat := if mode = 1 ∨ mode = 3 then 4 else if 4 ≤ mode then 64 else 1

/-- The checks of a CPY at issue, in the order of R189.  BE and FL with MODE 4 or 5 are refused with ENG_RSVD whatever DEXT is; otherwise a
DEXT that is not valid leaves them to its own check (DEDUCED, log 36).  An offset that a stream mode does not use is still to be a multiple of
64 (R196), and so is an A of which OOB leaves no source byte a multiple of what its mode asks (R194, R196, R197). -/
def cpyCheck (m : CpyCmd) : Option Nat :=
  let al := cpyAlign m.mode
  let stream := decide (m.mode = 4) || decide (m.mode = 5)
  let vr := cpyVRows m
  let vl := cpyVLen m
  firstFail [
    failIf (decide (m.mode = 7) || (decide (m.rop ≠ 0) && decide (m.mode ≠ 3)) ||
      (m.bar.isSome && (stream || (m.dst.v && decide (m.dst.tier ≠ 0)))) ||
      (m.fl && (stream || (m.dst.v && decide (m.dst.tier ≠ 1)))) ||
      (m.cm && decide (m.mode ≠ 1) && decide (m.mode ≠ 2)) || (m.oob && decide (m.mode = 6))) Cause.engRsvd,
    failIf (decide (m.len = 0) || decide (2 ^ 32 < m.len) || decide (m.rows = 0) || decide (65536 < m.rows) ||
      decide (2 ^ 40 < cpyTotal m) || decide (m.len % al ≠ 0) || decide (m.spitch % al ≠ 0) ||
      decide (m.dpitch % al ≠ 0) || (decide (4 ≤ m.mode) && decide (m.clm = 0))) Cause.engGeom,
    (if m.mode = 6 then none
     else if vr = 0 ∨ vl = 0 then failIf (decide (m.a % al ≠ 0)) Cause.memAlign
     else engCheck m.src allTiers true false al m.a ((vr - 1) * m.spitch + vl)),
    failIf (decide (m.mode = 6) && decide (m.a % 64 ≠ 0) || stream && decide (m.b % 64 ≠ 0)) Cause.memAlign,
    (if stream then none
     else engCheck m.dst (if m.mode = 3 then [0, 1] else allTiers) false true al m.b ((m.rows - 1) * m.dpitch + m.len)),
    resCheck m.res]

/-- CPY (R193, R188): accepted at the end of its channel's queue, or refused. -/
def execCpy (d : SDst) (a b : SSrc) (c : Bool) (h : Fin 4) (s : State) : Out :=
  .next (withSrcs s 25 [a, b] fun v s =>
    let m := cpyOf s h.val c (v a).toNat (v b).toNat
    match cpyCheck m with
    | some code => refuseCmd s d h.val code
    | none =>
      acceptCmd (onCore (modChan s s.cur h.val fun x => { x with cmds := x.cmds ++ [m], acc := x.acc + 1 }) fun k =>
        { k with accNo := k.accNo + 1 }) d h.val 0 true)

/-- CDRN (R201): a completion freeze follows the group, until every command accepted on the named channels is complete. -/
def execCdrn (d : SDst) (m : BitVec 4) (s : State) : Out :=
  let s := if dstTo d = 62 then reserveFo s 1 else s
  let upto := ([0, 1, 2, 3].filter fun i => m.getLsbD i).map fun i => (i, (tget {} (cc s).ch i).acc)
  .next (onGrp s fun g => { g with waits := g.waits ++ [.cdrn m.toNat (dstTo d) 5 (bundleNo s) upto] })

/-! ### Starting -/

/-- Whether every read of a command has been issued (R306). -/
def readsOut (m : CpyCmd) : Bool :=
  decide (m.code ≠ 0) || (if m.mode = 6 then decide (cpyTotal m ≤ 64 * m.units) else decide (cpyTotal m ≤ m.rd))

/-- Start a command (R195): a chained one takes its seed from its predecessor, or fails with it. -/
def startCmd (s : State) (c h : Nat) (m : CpyCmd) : State :=
  let up := fun (seed : W32) => modCmd s c h m.seat m.seq fun x => { x with started := true, seed := seed }
  if !m.chained then up m.seed
  else match tfind (chanOf s c h).pred m.seat with
    | none => up m.seed
    | some (v, code) =>
      if code ≠ 0 then failCmd (up m.seed) c h m.seat m.seq Cause.chainBroken none none else up (v.getD m.seed)

/-- CHANNEL_COMMAND_START (R306, R195): the oldest command starts; the next one starts once every read of the oldest has been
issued, unless it is chained to a command that is not complete. -/
def execChannelCommandStart (c : CoreId) (h : Fin 4) (s : State) : Out :=
  .next (match (chanOf s c.val h.val).cmds with
    | m :: rest =>
      if !m.started then startCmd s c.val h.val m
      else match rest with
        | n :: _ =>
          if !n.started && readsOut m && !(n.chained && decide (m.seat = n.seat) && decide (m.task = n.task)) then
            startCmd s c.val h.val n
          else s
        | [] => s
    | [] => s)

/-- The place of an offset of an extent, whose low bits give the atomic unit it lies in (R277). -/
def unitPlace (e : Ext) (off : Nat) : Nat := if e.tier = 0 then off else e.base + off

/-- The bytes from a place on that the read of one source unit brings (R268): pieces by place, offset and length, as long as the next source
byte lies in the unit behind the last one; the fill bytes between them, and the place after them.  The first number bounds the pieces. -/
def readSpan (m : CpyCmd) (unit : Nat) : Nat → Nat → Nat → List (Nat × Nat × Nat) × List (Nat × List Byte) × Nat
  | 0, pos, _ => ([], [], pos)
  | f + 1, pos, from_ =>
    let fl := fillPieces m (m.rows + 1) pos
    match cpySrc m fl.2 with
    | none => ([], fl.1, fl.2)
    | some off =>
      if unitPlace m.src off / unitSize m.src = unit ∧ from_ ≤ off then
        let n := min (cpyVLen m - fl.2 % m.len) (unitLeft m.src off)
        let r := readSpan m unit f (fl.2 + n) (off + n)
        ((fl.2, off, n) :: r.1, fl.1 ++ r.2.1, r.2.2)
      else ([], fl.1, fl.2)

/-- Bytes of a command that have passed, or that wait in the side log: first byte and number. -/
def keptRanges (x : Chan) (m : CpyCmd) : List (Nat × Nat) :=
  m.done.map (fun r => (r.1, r.2.1)) ++
  ((x.slog.filter fun u => decide (u.seat = m.seat) && decide (u.seq = m.seq)).map fun u => (u.pos, u.bytes.length))

/-- The first place from `pos` on that no kept range covers. -/
def skipKept (rs : List (Nat × Nat)) : Nat → Nat → Nat
  | 0, pos => pos
  | n + 1, pos =>
    match rs.find? fun r => decide (r.1 ≤ pos) && decide (pos < r.1 + r.2) with
    | some r => skipKept rs n (r.1 + r.2)
    | none => pos

/-- Whether a ready unit may be written now: the elements of a reduction go in the command's byte order (R197), so that its unit is the first
that has been neither delivered nor retired into the side log. -/
def unitTurn (x : Chan) (m : CpyCmd) (pos : Nat) : Bool :=
  let rs := keptRanges x m
  decide (m.mode ≠ 3) || decide (skipKept rs (rs.length + 1) 0 = pos)

/-- Whether a logged unit of the channel waits for the same bytes of a destination (R199). -/
def logMeets (x : Chan) (e : Ext) (off n : Nat) : Bool :=
  x.slog.any fun u => match x.cmds.find? fun m => decide (m.seat = u.seat) && decide (m.seq = u.seq) with
    | some m => decide (m.dst.tier = e.tier) && meets (m.dst.base + cpyDst m u.pos) u.bytes.length (e.base + off) n
    | none => false

/-- The scratchpad places of pieces of a command's destination. -/
def dstPlaces (m : CpyCmd) (ps : List (Nat × List Byte)) : List Nat :=
  (ps.map fun p => spadPlaces m.dst (cpyDst m p.1) p.2.length).flatten

/-- The ready units of the running commands whose destination the channel writes itself. -/
def writable (s : State) (c h : Nat) : List (CpyCmd × (Nat × Nat × List Byte)) :=
  let x := chanOf s c h
  ((x.cmds.take 2).map fun m =>
    if m.started ∧ m.mode < 4 ∧ (m.dst.tier ≠ 1 ∨ m.dst.dm) then
      (readyUnits m).map fun u => (m, u)
    else []).flatten

/-- Whether a channel may read for a command now (R268, R306): its side log has room, and a timed command reads one word a
cycle. -/
def mayRead (s : State) (c h : Nat) (m : CpyCmd) : Bool :=
  m.started && decide (m.code = 0) && decide (m.mode ≠ 6) && decide (m.rd < cpyTotal m) &&
  (decide (m.src.tier ≠ 1) || m.src.dm || m.src.rv) && decide ((slogUnits (chanOf s c h)).length < 32) &&
  (!m.timed || decide (m.src.tier ≠ 0) || decide (m.nextAt ≤ s.cyc))

/-- Whether a message of a command is not yet answered. -/
def msgsOut (k : Core) (h : Nat) (m : CpyCmd) : Bool :=
  k.sent.any fun x => decide (x.agent = 4 + h) && decide (x.seat = m.seat) && decide (x.seq = m.seq)

/-- Whether the oldest command of a channel is complete but for the bank that takes its result record (R200). -/
def cpyDone (s : State) (c h : Nat) (m : CpyCmd) : Bool :=
  m.started && resFree m.res && !msgsOut (coreAt s c) h m && pathClear s c m.seat (engPath h m.seq) &&
  (decide (m.code ≠ 0) ||
    (decide (cmdWptr m = cpyTotal m) && (!m.fl || m.finDone) &&
     !(chanOf s c h).slog.any fun u => decide (u.seat = m.seat) && decide (u.seq = m.seq)))

/-! ### Banks -/

/-- The next source access of a command: pieces by place, offset and length, the fill bytes around them, and the place after them (R193, R268);
no piece when only fill is left. -/
def nextSpan (m : CpyCmd) : List (Nat × Nat × Nat) × List (Nat × List Byte) × Nat :=
  let f := fillPieces m (m.rows + 1) m.rd
  match cpySrc m f.2 with
  | none => ([], f.1, f.2)
  | some off =>
    let r := readSpan m (unitPlace m.src off / unitSize m.src) 64 f.2 off
    (r.1, f.1 ++ r.2.1, r.2.2)

/-- The scratchpad places of source pieces of a command. -/
def srcPlaces (m : CpyCmd) (l : List (Nat × Nat × Nat)) : List Nat := (l.map fun x => spadPlaces m.src x.2.1 x.2.2).flatten

/-- The scratchpad places of a result record (R190). -/
def resPlaces : Option (Ext × Nat) → List Nat
  | none => []
  | some (e, off) => if e.tier ≤ 1 then spadPlaces e off 16 else []

/-- The ready units of a channel that it writes into the scratchpad in this cycle: those whose bytes were read two cycles ago (R268). -/
def spadWrites (s : State) (c h : Nat) : List (CpyCmd × (Nat × Nat × List Byte)) :=
  (writable s c h).filter fun p => decide (p.1.dst.tier = 0) && !p.1.dst.dm && decide (p.2.2.1 + 2 ≤ s.cyc)

/-- The scratchpad places that a channel asks the banks for in this cycle (R268, R307): the next read of its oldest command where the spec gives
its cycle, the units it writes, and the result record of a command that is complete. -/
def wantedPlaces (s : State) (c h : Nat) : List Nat :=
  let x := chanOf s c h
  (match x.cmds with
    | m :: _ =>
      (if m.timed && decide (m.src.tier = 0) && mayRead s c h m && extFree m.src then srcPlaces m (nextSpan m).1 else []) ++
      (if cpyDone s c h m then resPlaces m.res else [])
    | [] => []) ++
  ((spadWrites s c h).filter fun p => extFree p.1.dst && unitTurn x p.1 p.2.1 &&
    !(rowPieces p.1 65 p.2.1 p.2.2.2).any fun q => logMeets x p.1.dst (cpyDst p.1 q.1) q.2.length).flatMap fun p =>
      dstPlaces p.1 (rowPieces p.1 65 p.2.1 p.2.2.2)

/-- The channels that a bank serves before a channel: round-robin by number from the one it served last (R307). -/
def bankBefore (k : Core) (b h : Nat) : List Nat :=
  let y := tget 3 k.bankTurn b
  [(y + 1) % 4, (y + 2) % 4, (y + 3) % 4, y % 4].takeWhile (· ≠ h)

/-- Whether the banks of some places serve a channel now: they are free, and none has a channel that asks for it and comes before (R24, R307). -/
def chanFree (s : State) (c h : Nat) (ps : List Nat) : Bool :=
  let k := coreAt s c
  banksFree k ps && (ps.map bankOf).eraseDups.all fun b => (bankBefore k b h).all fun j => !(wantedPlaces s c j).any fun p => decide (bankOf p = b)

/-- The banks of some places serve a channel: it is the last in their rounds (R307). -/
def chanServe (c h : Nat) (ps : List Nat) (s : State) : State :=
  modCore s c fun k => serveBanks { k with bankTurn := ps.foldl (fun t p => tput (bankOf p) h t) k.bankTurn } ps

/-! ### Reading -/

/-- What a read step comes to. -/
inductive ReadEnd where
  | wait | held
  | fail (cause tier addr : Nat)
  | got (src fill : List (Nat × List Byte)) (rd : Nat)
  deriving DecidableEq, Repr

/-- A byte of the scratchpad as a channel reads it: as the core's commits up to the last cycle left it (R268). -/
def priorByte (k : Core) (p : Nat) : Byte := (tfind k.prior p).getD (cellAt k.spad p)

/-- Read the next source bank word or unit of a command, with the fill bytes around it (R193, R268, R277). -/
def readUnit (s : State) (c h : Nat) (m : CpyCmd) : State × ReadEnd :=
  let r := nextSpan m
  match r.1.head? with
  | none => (s, .got [] r.2.1 r.2.2)
  | some (_, off, _) =>
    if m.src.rv || m.src.dm then (s, .held)
    else if m.src.tier = 0 then
      let k := coreAt s c
      let ps := srcPlaces m r.1
      if !chanFree s c h ps then (s, .wait)
      else match spadErr k 0 ps with
        | some i => (s, .fail Cause.remoteUe 0 (lget 0 ps i))
        | none =>
          (chanServe c h ps s, .got (r.1.map fun x => (x.1, (spadPlaces m.src x.2.1 x.2.2).map (priorByte k))) r.2.1 r.2.2)
    else
      let a := m.src.base + off
      let n := r.1.foldl (fun e x => max e (x.2.1 + x.2.2 - off)) 0
      if widthWait s m.src.tier a n then (s, .wait)
      else
        let q := memRead s (some (c / 96)) m.src.tier a n
        match q.2.1 with
        | some cause => (q.1, .fail cause m.src.tier a)
        | none => (q.1, .got (r.1.map fun x => (x.1, (q.2.2.drop (x.2.1 - off)).take x.2.2)) r.2.1 r.2.2)

/-- Invert bit `b` of byte `i` of a string. -/
def flipBit (bs : List Byte) (i b : Nat) : List Byte := lset bs i (lget 0 bs i ^^^ BitVec.ofNat 8 (2 ^ b))

/-- The injection register acts on source bytes of a command (R302). -/
def inject (s : State) (c h : Nat) (m : CpyCmd) (p : Nat × List Byte) : State × (Nat × List Byte) :=
  let w := mreg s (.cinj c)
  let at_ := bits w 39 0
  if bitAt w 63 && decide (bits w 59 58 = h) && decide (bits w 57 56 = m.seat) && decide (bits w 55 40 = m.seq) &&
     decide (p.1 ≤ at_) && decide (at_ < p.1 + p.2.length) then
    (setMreg s (.cinj c) (setBits w 63 63 0), (p.1, flipBit p.2 (at_ - p.1) (bits w 62 60)))
  else (s, p)

/-- The injection register acts on each piece of a read. -/
def injectAll (c h : Nat) (m : CpyCmd) : List (Nat × List Byte) → State → State × List (Nat × List Byte)
  | [], s => (s, [])
  | p :: t, s =>
    let q := inject s c h m p
    let r := injectAll c h m t q.1
    (r.1, q.2 :: r.2)

/-- List the pieces a read has brought. -/
def addPend (cyc : Nat) : List (Nat × List Byte) → Tbl (Nat × List Byte) → Tbl (Nat × List Byte)
  | [], t => t
  | (p, bs) :: r, t => addPend cyc r (if bs = [] then t else tput p (cyc, bs) t)

/-- One read of a command. -/
def readOnce (s : State) (c h : Nat) (m : CpyCmd) : State × Bool :=
  match readUnit s c h m with
  | (s, .wait) => (s, false)
  | (s, .held) =>
    let s := if m.src.dm && !m.src.rv && !m.miss then meetDemandAt s h c else s
    (modChan s c h fun x => { x with held := some m.sext }, false)
  | (s, .fail cause t a) => (failCmd s c h m.seat m.seq cause none (some (t, a)), false)
  | (s, .got src fill rd) =>
    let r := injectAll c h m src s
    let s := modChan r.1 c h fun x => { x with held := none }
    (modCmd s c h m.seat m.seq fun x =>
      { x with rd := rd, nextAt := s.cyc + 1, pend := addPend s.cyc (r.2 ++ fill) x.pend }, true)

/-- The command of a channel at a place of its queue. -/
def cmdAt (s : State) (c h : Nat) (second : Bool) : Option CpyCmd :=
  (chanOf s c h).cmds[if second then 1 else 0]?

/-- Read units of a command until `len` bytes have been read: at least one, and one only when the spec gives its cycle. -/
def readMany (c h : Nat) (second : Bool) : Nat → State → State
  | 0, s => s
  | n + 1, s =>
    match cmdAt s c h second with
    | none => s
    | some m =>
      if !mayRead s c h m then s
      else match readOnce s c h m with
        | (s', true) => if m.timed && decide (m.src.tier = 0) then s' else readMany c h second n s'
        | (s', false) => s'

/-- CHANNEL_READ (R193, R268, R302): the oldest command or the second one reads its next bank words or units; `len` is how many
when the spec does not give their cycles. -/
def execChannelRead (c : CoreId) (h : Fin 4) (second : Bool) (len : Nat) (s : State) : Out :=
  .next (readMany c.val h.val second (len + 1) s)

/-! ### Writing -/

/-- Deliver bytes of one row of a command to its destination of tier 0 or 2 to 5 (R193, R197, R198). -/
def deliverPiece (s : State) (c h : Nat) (m : CpyCmd) (p : Nat × List Byte) : State :=
  let off := cpyDst m p.1
  if m.dst.tier = 0 then
    let ps := spadPlaces m.dst off p.2.length
    let k := coreAt s c
    let s := setCore s c (if m.mode = 3 then reduceSpad m.rop ps p.2 k else spadPut k (ps.zip p.2))
    creditBar (markDone s c h m p.1 p.2.length (partialChk m.mode p.2)) c m p.2.length
  else
    markDone (engStore s (c / 96) c m.seat m.task m.dst off p.2 (engPath h m.seq)) c h m p.1 p.2.length (partialChk m.mode p.2)

/-- What keeps pieces of a command from being delivered: a reduction that reads an uncorrectable byte, a destination that a reduction cannot
have, a memory that refuses the write (R192, R197, R344). -/
def deliverFail (s : State) (c : Nat) (m : CpyCmd) (ps : List (Nat × List Byte)) : Option (Nat × Option (Nat × Nat)) :=
  if m.dst.tier = 0 then
    let places := dstPlaces m ps
    match (if m.mode = 3 then spadErr (coreAt s c) 0 places else none) with
    | some i => some (Cause.remoteUe, some (0, lget 0 places i))
    | none => none
  else if m.mode = 3 then some (Cause.extTier, none)
  else (firstFail (ps.map fun p => storeRefusal s m.dst (cpyDst m p.1) p.2.length)).map fun c => (c, none)

/-- Deliver the bytes of one unit of a command, row by row; the banks of a scratchpad serve them in this cycle (R24, R307). -/
def deliver (s : State) (c h : Nat) (m : CpyCmd) (pos : Nat) (bs : List Byte) : State :=
  let ps := rowPieces m 65 pos bs
  match deliverFail s c m ps with
  | some f => failCmd s c h m.seat m.seq f.1 none f.2
  | none =>
    let s := if m.dst.tier = 0 then chanServe c h (dstPlaces m ps) s else s
    ps.foldl (fun s p => deliverPiece s c h m p) s

/-- The cluster the k-th unit of a stream command goes to or comes from (R196). -/
def streamCluster (m : CpyCmd) (k : Nat) : Nat :=
  let l := (List.range 8).filter fun i => m.clm.testBit i
  lget 0 l (k % l.length)

/-- The first unit a command logs posts EXT_SLOG (R259, Table 11-3). -/
def postSlog (s : State) (c h : Nat) (m : CpyCmd) (pos : Nat) : State :=
  if m.slogged then s
  else
    let s := modCmd s c h m.seat m.seq fun x => { x with slogged := true }
    postTask s m.task m.tco c m.seat Cause.extSlog none (wordOf (cpyDst m pos / 64 * 64)) (pack [(m.dext, 0), (h, 4)])

/-- Retire bytes into the channel's side log when it has room (R199): 32 units of 64 bytes. -/
def logBytes (s : State) (c h : Nat) (m : CpyCmd) (pos : Nat) (bs : List Byte) : State × Bool :=
  let x := chanOf s c h
  let us := slogUnits x
  if us.contains (m.seat, m.seq, logKey m pos) || decide (us.length < 32) then
    (modChan (postSlog s c h m pos) c h fun x => { x with slog := x.slog ++ [{ seat := m.seat, seq := m.seq, pos := pos, bytes := bs }] }, true)
  else (s, false)

/-- Retire the rows of one unit into the side log: all of them fit where the first does, for they share a unit of 64 bytes. -/
def logPieces (c h : Nat) (m : CpyCmd) : List (Nat × List Byte) → State → State × Bool
  | [], s => (s, true)
  | p :: t, s =>
    match logBytes s c h m p.1 p.2 with
    | (s, true) => logPieces c h m t s
    | (s, false) => (s, false)

/-- Write one ready unit, or retire it into the side log, or leave it waiting. -/
def writeUnit (s : State) (c h seat seq : Nat) (u : Nat × Nat × List Byte) : State :=
  match (chanOf s c h).cmds.find? fun m => decide (m.seat = seat) && decide (m.seq = seq) with
  | none => s
  | some m =>
    if m.code ≠ 0 then s
    else
      let ps := rowPieces m 65 u.1 u.2.2
      let cut := fun (s : State) => modCmd s c h seat seq fun x => { x with pend := cutRange x.pend u.1 u.2.2.length }
      if !unitTurn (chanOf s c h) m u.1 then s
      else if m.dst.dm && !m.dst.rv && !m.miss then meetDemandAt s h c
      else if m.dst.rv || m.dst.dm then
        match logPieces c h m ps s with
        | (s, true) => cut s
        | (s, false) => s
      else if ps.any (fun p => logMeets (chanOf s c h) m.dst (cpyDst m p.1) p.2.length) then s
      else if m.dst.tier = 0 ∧ !chanFree s c h (dstPlaces m ps) then s
      else deliver (cut s) c h m u.1 u.2.2

/-- Write some units in turn. -/
def writeUnits (c h : Nat) : List (CpyCmd × (Nat × Nat × List Byte)) → State → State
  | [], s => s
  | (m, u) :: t, s => writeUnits c h t (writeUnit s c h m.seat m.seq u)

/-- CHANNEL_WRITE (R193, R199, R268): every tier 0 bank word whose bytes were read two cycles ago is written; `k` not 0 also
writes the k-th ready unit for tiers 2 to 5, whose cycle the spec leaves open. -/
def execChannelWrite (c : CoreId) (h : Fin 4) (k : Nat) (s : State) : Out :=
  let far := (writable s c.val h.val).filter fun p => decide (p.1.dst.tier ≠ 0) || p.1.dst.dm
  let s := writeUnits c.val h.val (spadWrites s c.val h.val) s
  .next (match k with
    | 0 => s
    | j + 1 => writeUnits c.val h.val ((far.drop j).take 1) s)

/-! ### The side log -/

/-- The first logged unit whose destination has been refreshed. -/
def replayable (x : Chan) : Option (Nat × LogUnit × CpyCmd) :=
  match findIdx (fun (u : LogUnit) => x.cmds.any fun m =>
      decide (m.seat = u.seat) && decide (m.seq = u.seq) && extFree m.dst && decide (m.dst.tier ≠ 1)) 0 x.slog with
  | none => none
  | some (i, u) =>
    (x.cmds.find? fun m => decide (m.seat = u.seat) && decide (m.seq = u.seq)).map fun m => (i, u, m)

/-- The pieces of a command that wait in the side log for the destination unit of one of them, in log order: they are replayed together
(R199, R277). -/
def logGroup (x : Chan) (m : CpyCmd) (u : LogUnit) : List LogUnit :=
  x.slog.filter fun v => decide (v.seat = u.seat) && decide (v.seq = u.seq) &&
    decide (dstPlace m v.pos / unitSize m.dst = dstPlace m u.pos / unitSize m.dst)

/-- Deliver some logged pieces of a command. -/
def replayList (c h : Nat) (m : CpyCmd) : List LogUnit → State → State
  | [], s => s
  | v :: t, s => replayList c h m t (deliver s c h m v.pos v.bytes)

/-- SIDE_LOG_REPLAY (R199, R259): the oldest logged unit that can be written is written; a tier 1 unit is sent as a message
(MESSAGE_SEND). -/
def execSideLogReplay (c : CoreId) (h : Fin 4) (s : State) : Out :=
  .next (match replayable (chanOf s c.val h.val) with
    | none => s
    | some (_, u, m) =>
      let l := logGroup (chanOf s c.val h.val) m u
      if m.dst.tier = 0 ∧ !chanFree s c.val h.val (dstPlaces m (l.map fun v => (v.pos, v.bytes))) then s
      else replayList c.val h.val m l (modChan s c.val h.val fun x => { x with slog := x.slog.filter fun v => !l.contains v }))

/-! ### Cluster queues -/

/-- The oldest running stream command of a channel that meets a condition. -/
def streamCmd (s : State) (c h : Nat) (f : CpyCmd → Bool) : Option CpyCmd :=
  ((chanOf s c h).cmds.take 2).find? fun m =>
    m.started && decide (m.code = 0) && decide ((seatAt s c m.seat).task = m.task) && f m

/-- STREAM_QUEUE_PUSH (R196): the next unit of a MODE 4 or 5 command enters its cluster's queue, unless that is full. -/
def execStreamQueuePush (c : CoreId) (h : Fin 4) (s : State) : Out :=
  let room := fun (m : CpyCmd) =>
    let t := seatAt s c.val m.seat
    let k := streamCluster m m.units
    decide ((if m.mode = 4 then qaOf t k else qbOf t k).length < 8)
  .next (match streamCmd s c.val h.val fun m =>
      (decide (m.mode = 4) || decide (m.mode = 5)) && (gather 65 m.pend (64 * m.units) 64).isSome && room m with
    | none => s
    | some m =>
      let bs := ((gather 65 m.pend (64 * m.units) 64).map (·.2)).getD []
      let k := streamCluster m m.units
      let e : QEnt := ⟨0, BitVec.ofNat 512 (leNat bs), 0xFFFF⟩
      let s := modSeat s c.val m.seat fun t =>
        if m.mode = 4 then { t with qa := tput k (qaOf t k ++ [e]) t.qa } else { t with qb := tput k (qbOf t k ++ [e]) t.qb }
      let s := modCmd s c.val h.val m.seat m.seq fun x =>
        { x with pend := cutRange x.pend (64 * m.units) 64, units := x.units + 1 }
      markDone s c.val h.val m (64 * m.units) 64 0)

/-- The runs of set bits of a lane mask from lane `i` on: first lane and number of lanes. -/
def laneRuns (v : BitVec 16) : Nat → Nat → Option (Nat × Nat) → List (Nat × Nat)
  | 0, _, r => (match r with | some x => [x] | none => [])
  | n + 1, i, r =>
    if v.getLsbD i then laneRuns v n (i + 1) (match r with | some (p, k) => some (p, k + 1) | none => some (i, 1))
    else (match r with | some x => [x] | none => []) ++ laneRuns v n (i + 1) none

/-- The parts of a run of lanes in each bank word of the entry. -/
def bankRuns (r : Nat × Nat) : List (Nat × Nat) :=
  [0, 4, 8, 12].filterMap fun b =>
    let i := max b r.1
    let j := min (b + 4) (r.1 + r.2)
    if i < j then some (i, j - i) else none

/-- Deliver the valid runs of a popped entry, or retire them into the side log (R196, R199). -/
def popRuns (c h : Nat) (m : CpyCmd) (pos : Nat) (data : List Byte) : List (Nat × Nat) → State → State
  | [], s => s
  | (i, n) :: t, s =>
    let p := pos + 4 * i
    let bs := (data.drop (4 * i)).take (4 * n)
    popRuns c h m pos data t
      (if m.dst.rv || m.dst.dm then (logBytes s c h m p bs).1
       else if m.dst.tier = 1 then
         modCmd s c h m.seat m.seq fun x => { x with pend := tput p (s.cyc, bs) x.pend }
       else deliver s c h m p bs)

/-- The bytes of a popped entry that are not written count as passed (R196, R198). -/
def skipLanes (c h : Nat) (m : CpyCmd) (pos : Nat) : List (Nat × Nat) → State → State
  | [], s => s
  | (i, n) :: t, s => skipLanes c h m pos t (markDone s c h m (pos + 4 * i) (4 * n) 0)

/-- STREAM_QUEUE_POP (R196, R134): the next unit of a MODE 6 command leaves its cluster's c.qo, in push order. -/
def execStreamQueuePop (c : CoreId) (h : Fin 4) (s : State) : Out :=
  let head := fun (m : CpyCmd) => (qoOf (seatAt s c.val m.seat) (streamCluster m m.units)).head?
  .next (match streamCmd s c.val h.val fun m => decide (m.mode = 6) && decide (64 * m.units < cpyTotal m) &&
      (match head m with | some e => decide (e.id = 0) | none => false) with
    | none => s
    | some m =>
      match head m with
      | none => s
      | some e =>
        let pos := 64 * m.units
        let k := streamCluster m m.units
        let x := chanOf s c.val h.val
        if m.dst.dm && !m.dst.rv && !m.miss then meetDemandAt s h.val c.val
        else if (m.dst.rv || m.dst.dm) && decide (32 ≤ (slogUnits x).length) then s
        else if !(m.dst.rv || m.dst.dm) && logMeets x m.dst (cpyDst m pos) 64 then s
        else if extFree m.dst && decide (m.dst.tier = 0) && !chanFree s c.val h.val (spadPlaces m.dst (cpyDst m pos) 64) then s
        else
          let s := modSeat s c.val m.seat fun t => { t with qo := tput k (qoOf t k).tail t.qo }
          let s := modCmd s c.val h.val m.seat m.seq fun x => { x with units := x.units + 1 }
          let s := skipLanes c.val h.val m pos (laneRuns (~~~ e.mask) 16 0 none) s
          let runs := laneRuns e.mask 16 0 none
          popRuns c.val h.val m pos (natBytes 64 e.data.toNat) (if m.dst.tier = 0 then runs.flatMap bankRuns else runs) s)

/-- Cancel the stream commands of a task that are not complete, at HALT and at a swap-out (R196, R249). -/
def cancelStreams (s : State) (c n : Nat) (task : Word) : State :=
  [0, 1, 2, 3].foldl (fun s h =>
    (chanOf s c h).cmds.foldl (fun s m =>
      if m.seat = n ∧ m.task = task ∧ 4 ≤ m.mode then failCmd s c h m.seat m.seq Cause.engCancel none none else s) s) s

/-! ### Completion -/

/-- CPY_COMPLETE (R190, R194, R198, R200): the oldest command of a channel completes; its result record waits for a bank cycle (R108). -/
def execCpyComplete (c : CoreId) (h : Fin 4) (s : State) : Out :=
  let s := chanBad s c.val h.val
  .next (match (chanOf s c.val h.val).cmds with
    | [] => s
    | m :: rest =>
      if !cpyDone s c.val h.val m then resMeet s h.val c.val m.miss m.res
      else if !chanFree s c.val h.val (resPlaces m.res) then s
      else
        let s := chanServe c.val h.val (resPlaces m.res) s
        let chk := cmdChk m
        let sum := decide (m.mode = 1) || decide (m.mode = 2)
        let code := if m.code = 0 ∧ m.cm ∧ chk ≠ m.exp then Cause.chkMismatch else m.code
        let s := modChan s c.val h.val fun x =>
          { x with cmds := rest, comp := x.comp + 1, held := if rest = [] then none else x.held,
                   lastChk := if sum then chk else 0,
                   pred := tput m.seat (if sum then some chk else none, code) x.pred,
                   fin := tmod [] m.seat (· ++ [(m.ord, code)]) x.fin }
        let s := endCmd s c.val m.seat m.task m.tco h.val m.seq code 0 m.detail m.phys m.res
          (if sum then chk.setWidth 64 else wordOf (cpyTotal m))
        match rest with
        | n :: _ => if cpyDone s c.val h.val n then { s with turn := .cpyComplete c h :: s.turn } else s
        | [] => s)

/-- Insert by the order of acceptance. -/
def byOrder (x : Nat × Nat) : List (Nat × Nat) → List (Nat × Nat)
  | [] => [x]
  | y :: t => if x.1 < y.1 then x :: y :: t else y :: byOrder x t

/-- Whether the commands accepted on some channels, up to the numbers given, are complete as CDRN completes them: none is left, and every
byte a channel has written is visible to every agent (R201). -/
def drainedTo (s : State) (c : Nat) (upto : Tbl Nat) : Bool :=
  (upto.all fun p => decide (p.2 ≤ (tget {} (coreAt s c).ch p.1).comp)) &&
  s.wbuf.all fun w => !(decide (w.path ≠ 0) && (upto.map (·.1)).contains ((w.path - 1) % 16) &&
    (match w.owner with | some o => decide (o / 4 = c) | none => false))

/-- CDRN_RELEASE (R201, R303): every command accepted before the CDRN is complete and its writes are visible everywhere; the
status word is on its way. -/
def execCdrnRelease (c : CoreId) (s : State) : Out :=
  let k := coreAt s c.val
  match k.cur with
  | none => .next s
  | some n =>
    match k.waits.find? fun w => match w with | .cdrn .. => true | _ => false with
    | some (.cdrn mask d latch bun upto) =>
      let chans := upto.map (·.1)
      if !drainedTo s c.val upto then .next s
      else
        let fins := (chans.map fun h => tget [] (tget {} k.ch h).fin n).flatten.foldl (fun l x => byOrder x l) []
        let code := ((fins.map (·.2)).find? (· ≠ 0)).getD 0
        let v := statusWord code (chans.head?.getD 0) false 0 fins.length
        let s := chans.foldl (fun s h => modChan s c.val h fun x => { x with fin := tput n [] x.fin }) s
        let s := modCore s c.val fun k =>
          { k with drained := k.drained ++ [⟨0, n, k.sw, k.grp.addr, d, latch, v, k.grp.iss, bun⟩] }
        .next (afterWaits s c.val n (k.waits.erase (.cdrn mask d latch bun upto)))
    | _ => .next s

end Sys2Proof.Machine
end

