-- ==== Sys2Proof/Machine/KvTable.lean ====
section
/-!
DEFINITION. The KV engine's objects: the page format, handle entries, map words, pages and their counts, summary entries and the prefix
tree (R363 to R369, R372, R375, R378), as the engine of a die reads and writes them for a command.
-/
namespace Sys2Proof.Machine

open Sys2Proof

/-! ### The format -/

/-- The page format of a die (Table 19-1, R364). -/
structure KvFmt where
  nl : Nat
  efmt : BitVec 6
  nhead : Nat
  hdim : Nat
  ktok : Nat
  maxp : Nat
  deriving DecidableEq, Repr

/-- Bytes of an element of EFMT; 0 for an invalid format (Table 19-1). -/
def kvElt (f : BitVec 6) : Nat := if f = 0x22 then 4 else if f = 0x20 then 2 else if isBinary8 f then 1 else 0

/-- KTOKU of a format word (R363, R364). -/
def kvKtoku (w : Word) : Nat :=
  let f := BitVec.ofNat 6 (bits w 51 46)
  let nhead := bits w 45 39
  let hdim := bits w 38 29
  let u := 2 * nhead * hdim * kvElt f + (if isBinary8 f then 4 * nhead else 0)
  if bits w 63 52 = 0 ∨ nhead = 0 ∨ hdim = 0 ∨ kvElt f = 0 ∨ bits w 14 0 = 0 ∨ 16384 < (u + 63) / 64 * 64 then 0 else (u + 63) / 64

/-- The page format of a die. -/
def kvFmtOf (s : State) (d : Nat) : KvFmt :=
  let w := mreg s (.kvpfmt d)
  ⟨bits w 63 52, BitVec.ofNat 6 (bits w 51 46), bits w 45 39, bits w 38 29, 64 * bits w 28 20, bits w 14 0⟩

/-- KVPFMT_WRITE (R363): no effect while the die has a valid handle or a page in use. -/
def execKvpfmtWrite (d : Fin 4) (v : Word) (s : State) : Out :=
  .next (if kvLive s d.val ≠ 0 ∨ kvUsed (dieAt s d.val) ≠ 0 then s
    else setMreg s (.kvpfmt d.val) (setBits (setBits v 28 20 (kvKtoku v)) 19 15 0))

/-! ### Reading and writing for a command -/

/-- Bytes the engine of a die reads: the cause that makes the read fail, and the bytes. -/
def kvRead (s : State) (d t a n : Nat) : State × Option Nat × List Byte := memRead s (some d) t a n

/-- Bytes the engine of a die writes for a command (R275, R280). -/
def kvPut (s : State) (d : Nat) (m : EngCmd) (t a : Nat) (bs : List Byte) : State :=
  memEnqueue s { buf := d, tier := t, addr := a, bytes := bs, owner := some (4 * m.core + m.seat),
                 launch := some (taskQueue m.task, taskLseq m.task), hidden := false, pin := none, resv := 0,
                 path := engPath 5 m.seq }

/-- What a failed read of a table or page gives (R377). -/
def kvUe (c : Nat) : Nat := if c = Cause.peerDown then c else Cause.kvPageUe

/-- A word of a handle-table entry. -/
def entWord (s : State) (d e i : Nat) : Word := let p := kvEntry s d e; dieWord s d p.1 (p.2 + 8 * i)

/-- Write a word of a handle-table entry. -/
def putEnt (s : State) (d : Nat) (m : EngCmd) (e i : Nat) (w : Word) : State :=
  let p := kvEntry s d e
  kvPut s d m p.1 (p.2 + 8 * i) (natBytes 8 w.toNat)

/-- The place of a map word (R366): tier and offset. -/
def mapPlace (s : State) (d e l p : Nat) : Nat × Nat :=
  let w := mreg s (.kvmap d)
  let f := kvFmtOf s d
  (bits w 63 61, bits w 39 0 + 4 * ((e * f.nl + l) * f.maxp + p))

/-- No page. -/
abbrev noPage : Nat := 0xFFFFFFFF

/-- A map word: its page, none for no page. -/
def mapAt (s : State) (d e l p : Nat) : Option Nat :=
  let q := mapPlace s d e l p
  let n := leNat ((countUp q.2 4).map (obsByte s (some d) q.1))
  if n = noPage then none else some n

/-- Write a map word. -/
def putMap (s : State) (d : Nat) (m : EngCmd) (e l p : Nat) (pg : Option Nat) : State :=
  let q := mapPlace s d e l p
  kvPut s d m q.1 q.2 (natBytes 4 (pg.getD noPage))

/-- The cause that makes a place of a table unreadable, with the tier and the unit that fail. -/
def kvBadAt (s : State) (d t a n : Nat) : Option (Nat × Nat × Nat) :=
  (kvRead s d t a n).2.1.map fun c => (c, t, failUnit s (some d) t a n)

/-- Whether the entry, or a map word of it, cannot be read: the cause, the tier and the unit. -/
def kvTableBad (s : State) (d e : Nat) (ws : List (Nat × Nat)) : Option (Nat × Nat × Nat) :=
  let p := kvEntry s d e
  (kvBadAt s d p.1 p.2 256).orElse fun _ => ws.findSome? fun w => let q := mapPlace s d e w.1 w.2; kvBadAt s d q.1 q.2 4

/-- What a KV command completes with for it (R377). -/
def kvTableUe (s : State) (d e : Nat) (ws : List (Nat × Nat)) : Option Nat := (kvTableBad s d e ws).map fun x => kvUe x.1

/-- The tier 2 offset of a page (R364). -/
def pageOff (s : State) (d pg : Nat) : Nat := bits (mreg s (.kvpool d)) 39 0 + pg * 32 * (kvFmtOf s d).ktok

/-! ### Counts, quotas, pages -/

/-- The count of a page. -/
def cntOf (s : State) (d pg : Nat) : Nat := tget 0 (dieAt s d).count pg

/-- Set the count of a page. -/
def setCnt (s : State) (d pg n : Nat) : State := modDie s d fun x => { x with count := tset 0 pg n x.count }

/-- The KVQT entry of a tenant (Table 19-2). -/
def quotaOf (s : State) (d tenant : Nat) : Option Nat :=
  (List.range 16).find? fun k =>
    let w := mreg s (.kvqt (16 * d + k))
    decide (bits w 63 48 = tenant) && decide (bits w 47 24 ≠ 0)

/-- Add to, or take from, the pages charged to a tenant. -/
def chargePages (s : State) (d tenant : Nat) (up : Bool) : State :=
  match quotaOf s d tenant with
  | some k => modMreg s (.kvqt (16 * d + k)) fun w => setBits w 23 0 (if up then bits w 23 0 + 1 else bits w 23 0 - 1)
  | none => s

/-- USED of every quota entry of a die, after a write of one: the pages charged to its tenant now (R365). -/
def syncKvqt (s : State) (d : Nat) : State :=
  (countUp 0 16).foldl (fun s k =>
    modMreg s (.kvqt (16 * d + k)) fun w =>
      setBits w 23 0 ((dieAt s d).charge.filter fun x => decide (x.2 = bits w 63 48) && decide (bits w 47 24 ≠ 0)).length) s

/-- Whether a tenant may be charged another page. -/
def quotaRoom (s : State) (d tenant : Nat) : Bool :=
  match quotaOf s d tenant with
  | some k => let w := mreg s (.kvqt (16 * d + k)); decide (bits w 23 0 < bits w 47 24)
  | none => true

/-- The summary entry of a page: tier, offset, bytes (R378). -/
def sumPlace (s : State) (d pg : Nat) : Nat × Nat × Nat :=
  let w := mreg s (.kvsum d)
  let f := kvFmtOf s d
  let n := (8 * f.nhead * f.hdim + 63) / 64 * 64
  (bits w 63 61, bits w 39 0 + pg * n, n)

/-- Free a page (R369): its contents and its summary entry are undefined from now on (log 4). -/
def freePage (s : State) (d : Nat) (m : EngCmd) (pg : Nat) : State :=
  let s := setCnt s d pg 0
  let s := chargePages s d (tget 0 (dieAt s d).charge pg) false
  let s := modDie s d fun x => { x with charge := tdel pg x.charge }
  let r := drawBytes s (32 * (kvFmtOf s d).ktok)
  let s := kvPut r.2 d m 2 (pageOff s d pg) r.1
  let q := sumPlace s d pg
  let r := drawBytes s q.2.2
  kvPut r.2 d m q.1 q.2.1 r.1

/-- One holder of a page less (R369): free at 0. -/
def releasePage (s : State) (d : Nat) (m : EngCmd) (pg : Nat) : State :=
  let n := cntOf s d pg
  if n ≤ 1 then freePage s d m pg else setCnt s d pg (n - 1)

/-- Release some pages. -/
def releasePages (d : Nat) (m : EngCmd) : List Nat → State → State
  | [], s => s
  | p :: t, s => releasePages d m t (releasePage s d m p)

/-- One holder of a page more. -/
def holdPage (s : State) (d pg : Nat) : State := setCnt s d pg (cntOf s d pg + 1)

/-- Hold some pages. -/
def holdPages (d : Nat) : List Nat → State → State
  | [], s => s
  | p :: t, s => holdPages d t (holdPage s d p)

/-! ### The prefix tree -/

/-- A node of a die. -/
def nodeAt (s : State) (d id : Nat) : Option TNode := (dieAt s d).nodes.find? fun n => decide (n.id = id)

/-- The leaf that eviction takes (R375): every page it holds has count 1; the oldest match first, then the lowest number. -/
def victim (s : State) (d keep : Nat) : Option TNode :=
  let x := dieAt s d
  let leaf := fun (n : TNode) => !x.nodes.any (fun k => decide (k.parent = n.id) && decide (k.tenant = n.tenant)) &&
    n.pages.all (fun p => decide (tget 0 x.count p = 1)) && decide (n.id ≠ keep)
  (x.nodes.filter leaf).foldl (fun b n => match b with
    | none => some n
    | some m => if n.last < m.last ∨ (n.last = m.last ∧ n.id < m.id) then some n else some m) none

/-- Evict a node (R375). -/
def evict (s : State) (d : Nat) (m : EngCmd) (n : TNode) : State :=
  releasePages d m n.pages (modDie s d fun x => { x with nodes := x.nodes.filter fun k => k.id ≠ n.id })

/-- A free page: which one the engine takes is a free value (R375, log 4). -/
def findFree (s : State) (d : Nat) : Option Nat × State :=
  let npg := bits (mreg s (.kvpool d)) 63 40
  let r := drawWord s
  let start := if npg = 0 then 0 else r.1.toNat % npg
  let free := fun (i : Nat) => decide (cntOf s d i = 0)
  match (countUp start (npg - start)).find? free with
  | some i => (some i, r.2)
  | none => ((countUp 0 start).find? free, r.2)

/-- Take a page for a tenant, evicting leaves until one is free (R369, R375): its count is 1.  `n` bounds the evictions. -/
def takePage (d : Nat) (m : EngCmd) : Nat → State → Option Nat × State
  | 0, s => (none, s)
  | n + 1, s =>
    match findFree s d with
    | (some p, s) =>
      let s := chargePages (setCnt s d p 1) d (taskTenant m.task) true
      (some p, modDie s d fun x => { x with charge := tput p (taskTenant m.task) x.charge })
    | (none, s) =>
      match victim s d 0 with
      | some v => takePage d m n (evict s d m v)
      | none => (none, s)

/-- Make room for a node below the KVTREE limit (R375); the node that will be its parent stays.  `n` bounds the evictions. -/
def roomForNode (d : Nat) (m : EngCmd) (keep : Nat) : Nat → State → Bool × State
  | 0, s => (false, s)
  | n + 1, s =>
    if (dieAt s d).nodes.length < bits (mreg s (.kvtree d)) 31 0 then (true, s)
    else match victim s d keep with
      | some v => roomForNode d m keep n (evict s d m v)
      | none => (false, s)

/-- The child of a node with given ids (R373). -/
def childOf (s : State) (d tenant parent : Nat) (ids : List W32) : Option TNode :=
  (dieAt s d).nodes.find? fun n => decide (n.tenant = tenant) && decide (n.parent = parent) && decide (n.ids = ids)

/-- The walk of R373: the matched nodes from the root down.  `n` bounds the depth. -/
def treeWalk (s : State) (d tenant : Nat) : Nat → Nat → List W32 → List TNode
  | 0, _, _ => []
  | n + 1, node, toks =>
    if toks.length < 32 then []
    else match childOf s d tenant node (toks.take 32) with
      | some c => c :: treeWalk s d tenant n c.id (toks.drop 32)
      | none => []

/-- The path from the root to a node, root not included (R380). -/
def nodePath (s : State) (d : Nat) : Nat → Nat → List Nat
  | 0, _ => []
  | n + 1, id =>
    if id = 0 then []
    else match nodeAt s d id with
      | some x => nodePath s d n x.parent ++ [id]
      | none => []

/-! ### Summaries -/

/-- An FP32 element of an entry. -/
def f32At (bs : List Byte) (i : Nat) : W32 := BitVec.ofNat 32 (leNat ((countUp (4 * i) 4).map fun j => lget 0 bs j))

/-- The key elements of a token, exactly in FP32, or rounded after their scale (R364, R378). -/
def keysOf (f : KvFmt) (tok : List Byte) : List FV :=
  let n := f.nhead * f.hdim
  let b := fun (i : Nat) => lget 0 tok i
  (countUp 0 n).map fun i =>
    if f.efmt = 0x22 then val32 (f32At tok i)
    else if f.efmt = 0x20 then valBf (BitVec.ofNat 16 ((b (2 * i)).toNat + 256 * (b (2 * i + 1)).toNat))
    else
      let o := 2 * n + 4 * (i / f.hdim)
      let sc := valBf (BitVec.ofNat 16 ((b o).toNat + 256 * (b (o + 1)).toNat))
      val32 (rne32 (fvMul (val8 f.efmt (b i)) sc).1).1

/-- The bytes of a number in FP32. -/
def f32Bytes (x : FV) : List Byte := natBytes 4 (rne32 x).1.toNat

/-- A summary entry with one value for every minimum and one for every maximum. -/
def sumFill (f : KvFmt) (n : Nat) (lo hi : FV) : List Byte :=
  let k := f.nhead * f.hdim
  let bs := ((countUp 0 k).map fun _ => f32Bytes lo).flatten ++ ((countUp 0 k).map fun _ => f32Bytes hi).flatten
  bs ++ natBytes (n - bs.length) 0

/-- A summary entry after an append (R378): a NaN key leaves its bounds as they are. -/
def sumNext (f : KvFmt) (bs : List Byte) (keys : List FV) : List Byte :=
  let k := f.nhead * f.hdim
  let upd := fun (base : Nat) (op : FV → FV → FV) => (keys.zip (countUp 0 k)).map fun p =>
    if p.1.isNan then natBytes 4 (f32At bs (base + p.2)).toNat else f32Bytes (op (val32 (f32At bs (base + p.2))) p.1)
  let new := (upd 0 fun a b => (fvMin a b).1).flatten ++ (upd k fun a b => (fvMax a b).1).flatten
  new ++ bs.drop new.length

end Sys2Proof.Machine
end

