-- ==== Sys2Proof/Machine/KvEngine.lean ====
section
/-!
DEFINITION. The KV engine's commands: KVLK, KVAP, KVFK, KVRL and KVJN at issue (R203, R205, R376) and as the engine of a die performs them
(R204, R205, R368, R370, R371, R373, R374, R377 to R383).
-/
namespace Sys2Proof.Machine

open Sys2Proof

/-! ### At issue -/

/-- The die a handle names (R203, R367). -/
def handleDie (h : Word) : Nat := bits h 39 38

/-- A command for an engine of a die, with its staging registers and one extent. -/
def engCmdOf (s : State) (eng op sub : Nat) (a b : Word) (idx : List Nat) (exts : List Nat) : EngCmd :=
  let t := cs s
  { eng := eng, op := op, sub := sub, core := s.cur, seat := cn s, task := t.task, tco := t.tco, seq := nextSeq t eng, a := a, b := b,
    stg := idx.map fun i => (i, stgOf t eng i), exts := exts.map fun e => (e, extOf t e), res := resOf t eng, cyc := s.cyc }

/-- Accept a KV command at the engine of a die (R188, R203, R262): any but KVLK costs the launch its capability. -/
def kvAccept (s : State) (d : SDst) (die op sub : Nat) (a b : Word) : State :=
  let kext := bits (stgOf (cs s) 5 0) 3 0
  let m := engCmdOf s 5 op sub a b [0, 1, 2, 3, 4] (if op = 5 ∨ op = 6 then [kext] else [])
  let s := if op = 5 then s else loseCap s m.task
  acceptCmd (modDie s die fun x => { x with kv := x.kv ++ [m] }) d 5 0 true

/-- The extent of a seat's scratchpad operands. -/
def kextOf (t : Seat) : Ext := extOf t (bits (stgOf t 5 0) 3 0)

/-- KVLK (R203, R373). -/
def execKvlk (d : SDst) (a b : SSrc) (s : State) : Out :=
  .next (withSrcs s 25 [a, b] fun v s =>
    let n := (v b).toNat
    match firstFail [failIf (decide (n = 0) || decide (65536 < n)) Cause.engGeom,
        engCheck (kextOf (cs s)) [0] true false 4 (v a).toNat (4 * n), resCheck (resOf (cs s) 5)] with
    | some code => refuseCmd s d 5 code
    | none => kvAccept s d (s.cur / 96) 5 0 (v a) (v b))

/-- KVAP (R203, R376, R377). -/
def execKvap (d : SDst) (a b : SSrc) (adv : Bool) (s : State) : Out :=
  .next (withSrcs s 25 [a, b] fun v s =>
    let k := (stgOf (cs s) 5 2).toNat
    match firstFail [failIf (decide (k < 64) || decide (16384 < k) || decide (k % 64 ≠ 0)) Cause.engGeom,
        engCheck (kextOf (cs s)) [0] true false 64 (v b).toNat k, resCheck (resOf (cs s) 5)] with
    | some code => refuseCmd s d 5 code
    | none => kvAccept s d (handleDie (v a)) 6 (if adv then 1 else 0) (v a) (v b))

/-- KVFK (R203, R380). -/
def execKvfk (d : SDst) (a b : SSrc) (s : State) : Out :=
  .next (withSrcs s 25 [a, b] fun v s =>
    match resCheck (resOf (cs s) 5) with
    | some code => refuseCmd s d 5 code
    | none => kvAccept s d (handleDie (v a)) 7 0 (v a) (v b))

/-- A KV command whose only operand is a handle. -/
def kvHandleOnly (d : SDst) (a : SSrc) (op sub : Nat) (s : State) : State :=
  withSrcs s 25 [a] fun v s =>
    match resCheck (resOf (cs s) 5) with
    | some code => refuseCmd s d 5 code
    | none => kvAccept s d (handleDie (v a)) op sub (v a) 0

/-- KVRL (R203, R381). -/
def execKvrl (d : SDst) (a : SSrc) (s : State) : Out := .next (kvHandleOnly d a 8 0 s)

/-- KVJN.open (R205, R383). -/
def execKvjnOpen (d : SDst) (a : SSrc) (s : State) : Out := .next (kvHandleOnly d a 9 0 s)

/-- KVJN.commit (R205, R383). -/
def execKvjnCommit (d : SDst) (a : SSrc) (s : State) : Out := .next (kvHandleOnly d a 9 1 s)

/-- KVJN.reject (R205, R383). -/
def execKvjnReject (d : SDst) (a : SSrc) (s : State) : Out := .next (kvHandleOnly d a 9 2 s)

/-! ### Handles at the engine -/

/-- What a performed command comes to: CODE, VAL, the entry whose handle the record carries, the memory that failed. -/
structure KvEnd where
  code : Nat
  val : Nat := 0
  ent : Option Nat := none
  phys : Option (Nat × Nat) := none
  deriving DecidableEq, Repr

/-- The entry a handle names (R366). -/
def handleEnt (h : Word) : Nat := bits h 37 20

/-- Checks 1 and 2 of R371 (R368). -/
def handleCheck (s : State) (d tenant : Nat) (h : Word) : Option Nat :=
  let e := handleEnt h
  let w := entWord s d e 0
  if bits (mreg s (.kvht d)) 58 40 ≤ e ∨ !bitAt w 63 ∨ bits w 55 48 ≠ bits h 47 40 ∨ bits w 47 32 ≠ bits h 63 48 then some Cause.handleGen
  else if bits w 47 32 ≠ tenant then some Cause.handleTenant
  else none

/-- The handle of an entry as it stands (R367, R368). -/
def handleWord (s : State) (d e : Nat) : Word :=
  let w := entWord s d e 0
  pack [(bits w 47 32, 48), (bits w 55 48, 40), (d * 2 ^ 18 + e, 20), (bits w 19 0, 0)]

/-- Fields of an entry. -/
def entBound (s : State) (d e : Nat) : Nat := bits (entWord s d e 0) 19 0
def entLb (s : State) (d e : Nat) : Nat := bits (entWord s d e 1) 19 0
def entWin (s : State) (d e : Nat) : Nat := bits (entWord s d e 1) 39 20
def entJo (s : State) (d e : Nat) : Bool := bitAt (entWord s d e 0) 62
def entTnode (s : State) (d e : Nat) : Nat := bits (entWord s d e 2) 63 32

/-- A handle that is off the tree (Table 19-3). -/
abbrev offTree : Nat := 0xFFFFFFFF

/-- Change a field of an entry. -/
def setEnt (s : State) (d : Nat) (m : EngCmd) (e i hi lo v : Nat) : State := putEnt s d m e i (setBits (entWord s d e i) hi lo v)

/-- Every layer and page index. -/
def allPlaces (f : KvFmt) (np : Nat) : List (Nat × Nat) :=
  ((countUp 0 f.nl).map fun l => (countUp 0 np).map fun p => (l, p)).flatten

/-- The mapped pages of an entry below a page index, with their places. -/
def mappedBelow (s : State) (d e np : Nat) : List (Nat × Nat × Nat) :=
  (allPlaces (kvFmtOf s d) (min np (kvFmtOf s d).maxp)).filterMap fun q => (mapAt s d e q.1 q.2).map fun pg => (q.1, q.2, pg)

/-- A free entry of the handle table: which one the engine takes is a free value (R373, R380, log 4). -/
def findEnt (s : State) (d : Nat) : Option Nat × State :=
  let n := bits (mreg s (.kvht d)) 58 40
  let r := drawWord s
  let start := if n = 0 then 0 else r.1.toNat % n
  let free := fun (e : Nat) => !bitAt (entWord s d e 0) 63
  match (countUp start (n - start)).find? free with
  | some e => (some e, r.2)
  | none => ((countUp 0 start).find? free, r.2)

/-- Make an entry live with its map words (R373, R380). -/
def makeEnt (s : State) (d : Nat) (m : EngCmd) (e bound lb win tnode : Nat) (pg : Nat → Nat → Option Nat) : State :=
  let f := kvFmtOf s d
  let s := putEnt s d m e 0 (pack [(1, 63), (bits (entWord s d e 0) 55 48, 48), (taskTenant m.task, 32), (bound, 0)])
  let s := putEnt s d m e 1 (pack [(win, 20), (lb, 0)])
  let s := putEnt s d m e 2 (pack [(tnode, 32)])
  let q := mapPlace s d e 0 0
  kvPut s d m q.1 q.2 ((allPlaces f f.maxp).map fun x => natBytes 4 ((pg x.1 x.2).getD noPage)).flatten

/-! ### KVLK -/

/-- The n32 words of some bytes. -/
def w32s : List Byte → List W32
  | a :: b :: c :: d :: t => BitVec.ofNat 32 (leNat [a, b, c, d]) :: w32s t
  | _ => []

/-- KVLK at the engine (R373, R262). -/
def kvLookup (s : State) (d : Nat) (m : EngCmd) : State × KvEnd :=
  let f := kvFmtOf s d
  let tenant := taskTenant m.task
  let x := (m.exts.head?.map (·.2)).getD {}
  let r := engFetch s (some d) m.core tenant x m.a.toNat (4 * m.b.toNat)
  match r.2.1 with
  | some e => (r.1, { code := e.cause, phys := e.phys })
  | none =>
    let s := r.1
    let ns := treeWalk s d tenant f.maxp 0 (w32s r.2.2)
    let pages := (ns.map (·.pages)).flatten
    if pages.any (fun p => decide (65535 ≤ cntOf s d p)) then (s, { code := Cause.kvRefmax })
    else match findEnt s d with
    | (none, s) => (s, { code := Cause.kvHtfull })
    | (some e, s) =>
      match kvTableUe s d e [] with
      | some c => (s, { code := c })
      | none =>
        let n := ns.length
        let s := makeEnt s d m e (32 * n) 0 (bits (tget 0 m.stg 3) 19 0) ((ns.getLast?.map (·.id)).getD 0)
          fun l p => (ns[p]?).map fun x => lget noPage x.pages l
        let s := holdPages d pages s
        let mark := fun (k : TNode) => if ns.any (fun y => decide (y.id = k.id)) then { k with last := s.gts } else k
        let s := modDie s d fun x => { x with nodes := x.nodes.map mark }
        let s := if n = 0 then s else loseCap s m.task
        (s, { code := 0, val := 32 * n, ent := some e })

/-! ### KVAP -/

/-- A free journal unit of a die: unit 0 is never allocated, and which of the others an entry takes the spec leaves open (R365, R382, log 4). -/
def freeUnit (s : State) (d : Nat) : Option Nat × State :=
  let n := bits (mreg s (.kvjrn d)) 59 40
  let r := drawWord s
  let start := 1 + (if n ≤ 1 then 0 else r.1.toNat % (n - 1))
  let free := fun (i : Nat) => (dieAt s d).junits.all fun j => !j.2.contains i
  match (countUp start (n - start)).find? free with
  | some i => (some i, r.2)
  | none => ((countUp 1 (start - 1)).find? free, r.2)

/-- Allocate `k` units to the journal of an entry; where the words of a journal entry stand in its units the spec leaves open (R382, log 4,
log 29). -/
def journalUnits (d : Nat) (m : EngCmd) (e : Nat) : Nat → State → State
  | 0, s => s
  | k + 1, s =>
    match freeUnit s d with
    | (none, s) => s
    | (some u, s) =>
      let w := mreg s (.kvjrn d)
      let b := drawBytes s 64
      journalUnits d m e k (modDie (kvPut b.2 d m (bits w 63 61) (bits w 39 0 + 64 * u) b.1) d fun x =>
        { x with junits := tmod [] e (· ++ [u]) x.junits })

/-- Record a journal entry of a handle (R382). -/
def journal (s : State) (d : Nat) (m : EngCmd) (e : Nat) (j : JEnt) : State :=
  modDie (journalUnits d m e (jentUnits j) s) d fun x => { x with jrn := tmod [] e (· ++ [j]) x.jrn }

/-- The units of an entry's journal are free (R383). -/
def freeJournal (s : State) (d e : Nat) : State := modDie s d fun x => { x with jrn := tdel e x.jrn, junits := tdel e x.junits }

/-- Drop the pages below the lower bound (R379). -/
def dropPages (d : Nat) (m : EngCmd) (e : Nat) : List (Nat × Nat × Nat) → State → State
  | [], s => s
  | (l, p, pg) :: t, s => dropPages d m e t (releasePage (putMap s d m e l p none) d m pg)

/-- The drops of a handle for its lower bound. -/
def dropBelow (s : State) (d : Nat) (m : EngCmd) (e : Nat) : State :=
  dropPages d m e (mappedBelow s d e (entLb s d e / 32)) s

/-- Offer the last full page index to the tree (R374): the failure that the command reports, if there is one. -/
def offer (s : State) (d : Nat) (m : EngCmd) (e : Nat) : State × Nat :=
  let f := kvFmtOf s d
  let tn := entTnode s d e
  let tenant := bits (entWord s d e 0) 47 32
  let p := entBound s d e / 32 - 1
  let q := kvEntry s d e
  let ids := w32s ((countUp (q.2 + 128) 128).map (obsByte s (some d) q.1))
  let off := fun (s : State) => setEnt s d m e 2 63 32 offTree
  if tn ≠ 0 ∧ (nodeAt s d tn).isNone then (off s, 0)
  else
    let pgs := (countUp 0 f.nl).map fun l => mapAt s d e l p
    let pages := pgs.filterMap id
    if pages.any (fun g => decide (65535 ≤ cntOf s d g)) then (off s, Cause.kvRefmax)
    else match childOf s d tenant tn ids with
    | some c => (setEnt s d m e 2 63 32 c.id, 0)
    | none =>
      if pgs.any (·.isNone) then (off s, 0)
      else match roomForNode d m tn ((dieAt s d).nodes.length + 1) s with
      | (false, s) => (off s, Cause.kvTreefull)
      | (true, s) =>
        let id := (dieAt s d).nextNode
        let s := modDie s d fun x =>
          { x with nextNode := id + 1,
                   nodes := x.nodes ++ [{ id := id, tenant := tenant, parent := tn, ids := ids, pages := pages, last := s.gts }] }
        (setEnt (holdPages d pages s) d m e 2 63 32 id, 0)

/-- The map words that an advance from `t` reads: those of the pages it drops, and those it offers (R374, R379). -/
def advancePlaces (s : State) (d e t : Nat) : List (Nat × Nat) :=
  let f := kvFmtOf s d
  let win := entWin s d e
  let lb := if win ≠ 0 ∧ win < t + 1 then max (entLb s d e) (t + 1 - win) else entLb s d e
  (if entJo s d e then [] else allPlaces f (min (lb / 32) f.maxp)) ++
  (if (t + 1) % 32 = 0 ∧ entTnode s d e ≠ offTree then (countUp 0 f.nl).map fun l => (l, t / 32) else [])

/-- Advance the bound (R377, R379, R374): the token id, the window, the offer. -/
def advance (s : State) (d : Nat) (m : EngCmd) (e t : Nat) : State × Nat :=
  let q := kvEntry s d e
  let s := kvPut s d m q.1 (q.2 + 128 + 4 * (t % 32)) (natBytes 4 (tget 0 m.stg 4).toNat)
  let s := setEnt s d m e 0 19 0 (t + 1)
  let win := entWin s d e
  let s := if win ≠ 0 ∧ win < t + 1 then setEnt s d m e 1 19 0 (max (entLb s d e) (t + 1 - win)) else s
  let s := if entJo s d e then s else dropBelow s d m e
  if (t + 1) % 32 = 0 ∧ entTnode s d e ≠ offTree then offer s d m e else (s, 0)

/-- The page an append goes to: none when none is mapped, and whether it needs a new one (R377). -/
def appendPage (s : State) (d e l p : Nat) : Option Nat × Bool :=
  match mapAt s d e l p with
  | none => (none, true)
  | some pg => (some pg, decide (1 < cntOf s d pg))

/-- The changes of an append after its checks (R377, R378): `old` holds the bytes of the page that is copied. -/
def appendDo (s : State) (d : Nat) (m : EngCmd) (e : Nat) (pg : Option Nat) (fresh : Bool) (old prev src : List Byte) : State × KvEnd :=
  let f := kvFmtOf s d
  let t := entBound s d e
  let l := bits (tget 0 m.stg 1) 15 0
  let p := t / 32
  let sl := t % 32
  let jo := entJo s d e
  match (if fresh then takePage d m ((dieAt s d).nodes.length + 1) s else (pg, s)) with
  | (none, s) => (s, { code := Cause.kvNopage })
  | (some n, s) =>
    let sm := fun (g : Nat) => sumPlace s d g
    -- the summary as it stands, or none when it cannot be read
    let base : Option (List Byte) := match pg with
      | none => some (sumFill f (sm n).2.2 (.inf false) (.inf true))
      | some g => let r := kvRead s d (sm g).1 (sm g).2.1 (sm g).2.2
                  match r.2.1 with | some _ => none | none => some r.2.2
    let s := if !fresh then s else
      match pg with
      | none => if jo then journal s d m e (.alloc l p n) else s
      | some g =>
        let s := kvPut s d m 2 (pageOff s d n) old
        let s := releasePage s d m g
        if jo then journal s d m e (.copy l p g n) else s
    let s := putMap s d m e l p (some n)
    -- in a page that has just been allocated, the bytes that it holds
    let prev := if pg.isSome then prev else (kvRead s d 2 (pageOff s d n + sl * f.ktok) f.ktok).2.2
    let s := if jo then journal s d m e (.slot l p sl prev) else s
    let s := kvPut s d m 2 (pageOff s d n + sl * f.ktok) src
    let sum := match base with
      | some bs => sumNext f bs (keysOf f src)
      | none => sumFill f (sm n).2.2 (.inf true) (.inf false)
    let s := kvPut s d m (sm n).1 (sm n).2.1 sum
    let r := if m.sub = 1 then advance s d m e t else (s, 0)
    (r.1, { code := if base.isNone then Cause.kvSummary else r.2, val := t, ent := some e })

/-- KVAP at the engine (R377). -/
def kvAppend (s : State) (d : Nat) (m : EngCmd) : State × KvEnd :=
  let f := kvFmtOf s d
  let e := handleEnt m.a
  let l := bits (tget 0 m.stg 1) 15 0
  let t := entBound s d e
  if t = 32 * f.maxp then (s, { code := Cause.handleBound })
  else if bitAt (entWord s d e 0) 61 then (s, { code := Cause.kvBusy })
  else if f.nl ≤ l then (s, { code := Cause.kvLayer })
  else if (tget 0 m.stg 2).toNat ≠ f.ktok then (s, { code := Cause.kvKtok })
  else
    let p := t / 32
    let a := appendPage s d e l p
    let jo := entJo s d e
    let need := if jo then 1 + f.ktok / 64 + (if a.2 then 1 else 0) else 0
    if kvJfree s d < need then (s, { code := Cause.journalFull })
    else if a.2 && !quotaRoom s d (taskTenant m.task) then (s, { code := Cause.kvQuota })
    else if a.2 && (findFree s d).1.isNone && (victim s d 0).isNone then (s, { code := Cause.kvNopage })
    else match kvTableUe s d e ((l, p) :: (if m.sub = 1 then advancePlaces s d e t else [])) with
    | some c => (s, { code := c })
    | none =>
      let x := (m.exts.head?.map (·.2)).getD {}
      let src := engFetch s (some d) m.core (taskTenant m.task) x m.b.toNat f.ktok
      match src.2.1 with
      | some g => (src.1, { code := g.cause, phys := g.phys })
      | none =>
        let s := src.1
        let old := match a with
          | (some g, true) => kvRead s d 2 (pageOff s d g) (32 * f.ktok)
          | _ => (s, none, [])
        let prev := match a.1 with
          | some g => if jo then kvRead s d 2 (pageOff s d g + t % 32 * f.ktok) f.ktok else (s, none, [])
          | none => (s, none, [])
        match old.2.1, prev.2.1 with
        | none, none => appendDo s d m e a.1 a.2 old.2.2 prev.2.2 src.2.2
        | some c, _ => (old.1, { code := kvUe c })
        | none, some c => (prev.1, { code := kvUe c })

/-! ### KVFK and KVRL -/

/-- KVFK at the engine (R380). -/
def kvFork (s : State) (d : Nat) (m : EngCmd) : State × KvEnd :=
  let e := handleEnt m.a
  let b := m.b.toNat
  if entBound s d e < b then (s, { code := Cause.handleBound })
  else if b < entLb s d e then (s, { code := Cause.kvWindow })
  else if bitAt (entWord s d e 0) 61 then (s, { code := Cause.kvBusy })
  else
    let np := (b + 31) / 32
    let ms := mappedBelow s d e np
    if ms.any (fun x => decide (65535 ≤ cntOf s d x.2.2)) then (s, { code := Cause.kvRefmax })
    else match findEnt s d with
    | (none, s) => (s, { code := Cause.kvHtfull })
    | (some n, s) =>
      match (kvTableUe s d e (allPlaces (kvFmtOf s d) (min np (kvFmtOf s d).maxp))).orElse fun _ => kvTableUe s d n [] with
      | some c => (s, { code := c })
      | none =>
        let tn := entTnode s d e
        let path := nodePath s d ((dieAt s d).nodes.length + 1) tn
        let tnode := if tn = offTree ∨ (tn ≠ 0 ∧ (nodeAt s d tn).isNone) ∨ path.length < b / 32 then offTree
                     else if b / 32 = 0 then 0 else lget offTree path (b / 32 - 1)
        let q := kvEntry s d e
        let ids := (countUp (q.2 + 128) (4 * (b % 32))).map (obsByte s (some d) q.1)
        let s := makeEnt s d m n b (entLb s d e) (entWin s d e) tnode fun l p => if 32 * p < b then mapAt s d e l p else none
        let z := kvEntry s d n
        let s := if ids = [] then s else kvPut s d m z.1 (z.2 + 128) ids
        let s := holdPages d (ms.map (·.2.2)) s
        (s, { code := 0, ent := some n })

/-- KVRL at the engine (R381). -/
def kvRelease (s : State) (d : Nat) (m : EngCmd) : State × KvEnd :=
  let e := handleEnt m.a
  if bitAt (entWord s d e 0) 61 then (s, { code := Cause.kvBusy })
  else match kvTableUe s d e (allPlaces (kvFmtOf s d) (kvFmtOf s d).maxp) with
  | some c => (s, { code := c })
  | none =>
    let used := kvUsed (dieAt s d)
    let ms := mappedBelow s d e (kvFmtOf s d).maxp
    let s := freeJournal s d e
    let s := releasePages d m (ms.map (·.2.2)) s
    let w := entWord s d e 0
    let s := setEnt (putEnt s d m e 0 (setBits (setBits w 63 61 0) 55 48 (bits w 55 48 + 1))) d m e 2 31 0 0
    (s, { code := 0, val := used - kvUsed (dieAt s d) })

/-! ### KVJN -/

/-- The place of a slot of a handle as its map word stands. -/
def slotPlace (s : State) (d e l p sl : Nat) : Option Nat :=
  (mapAt s d e l p).map fun g => pageOff s d g + sl * (kvFmtOf s d).ktok

/-- Undo journal entries, the last recorded first (R383). -/
def undo (d : Nat) (m : EngCmd) (e : Nat) : List JEnt → State → State
  | [], s => s
  | .slot l p sl bs :: t, s =>
    undo d m e t (match slotPlace s d e l p sl with | some a => kvPut s d m 2 a bs | none => s)
  | .alloc l p n :: t, s => undo d m e t (putMap (releasePage s d m n) d m e l p none)
  | .copy l p old n :: t, s => undo d m e t (holdPage (putMap (releasePage s d m n) d m e l p (some old)) d old)
  | .head b lb tn :: t, s =>
    undo d m e t (setEnt (setEnt (setEnt s d m e 0 19 0 b) d m e 1 19 0 lb) d m e 2 63 32 tn)

/-- Close a handle's journal: its units are free (R383). -/
def closeJournal (s : State) (d : Nat) (m : EngCmd) (e : Nat) : State :=
  let s := freeJournal s d e
  setEnt (setEnt s d m e 0 62 61 0) d m e 2 31 0 0

/-- KVJN at the engine (R205, R383): `none` when a backward replay has begun. -/
def kvJournal (s : State) (d : Nat) (m : EngCmd) : State × Option KvEnd :=
  let e := handleEnt m.a
  let jo := entJo s d e
  let js := tget [] (dieAt s d).jrn e
  if bitAt (entWord s d e 0) 61 then (s, some { code := Cause.kvBusy })
  else if m.sub = 0 then
    if jo then (s, some { code := Cause.journalState })
    else if kvJfree s d = 0 then (s, some { code := Cause.journalFull })
    else
      let s := journal s d m e (.head (entBound s d e) (entLb s d e) (entTnode s d e))
      let s := setEnt (setEnt s d m e 0 62 62 1) d m e 2 31 0 ((tget [] (dieAt s d).junits e).headD 0)
      (s, some { code := 0 })
  else if !jo then (s, some { code := Cause.journalState })
  else if m.sub = 1 then
    match kvTableUe s d e (allPlaces (kvFmtOf s d) (min (entLb s d e / 32) (kvFmtOf s d).maxp)) with
    | some c => (s, some { code := c })
    | none => (dropBelow (closeJournal s d m e) d m e, some { code := 0, val := js.length })
  else (setEnt s d m e 0 61 61 1, none)

/-- The end of a backward replay (R383). -/
def kvReplay (s : State) (d : Nat) (m : EngCmd) : State × KvEnd :=
  let e := handleEnt m.a
  let js := tget [] (dieAt s d).jrn e
  (closeJournal (undo d m e js.reverse s) d m e, { code := 0, val := js.length - 1 })

/-! ### The engine -/

/-- Perform a command from its checks on (R363, R371). -/
def kvDo (s : State) (d : Nat) (m : EngCmd) : State × Option KvEnd :=
  let some' := fun (r : State × KvEnd) => (r.1, some r.2)
  if (kvFmtOf s d).ktok = 0 then (s, some { code := Cause.engRsvd })
  else if m.op = 5 then some' (kvLookup s d m)
  else match (match kvTableUe s d (handleEnt m.a) [] with | some c => some c | none => handleCheck s d (taskTenant m.task) m.a) with
  | some c => (s, some { code := c })
  | none =>
    if m.op = 6 then some' (kvAppend s d m)
    else if m.op = 7 then some' (kvFork s d m)
    else if m.op = 8 then some' (kvRelease s d m)
    else kvJournal s d m

/-- The page an append of the queue is aimed at (R204, R370). -/
def kvTarget (s : State) (d : Nat) (m : EngCmd) : Option Nat :=
  if m.op ≠ 6 ∨ (handleCheck s d (taskTenant m.task) m.a).isSome then none
  else let e := handleEnt m.a; mapAt s d e (bits (tget 0 m.stg 1) 15 0) (entBound s d e / 32)

/-- The order of two commands that reached the engine in one cycle (R370): appends to a shared page first, by index; the rest by
core and seat. -/
def kvBefore (shared : EngCmd → Bool) (a b : EngCmd) : Bool :=
  let ca := 4 * a.core + a.seat
  let cb := 4 * b.core + b.seat
  if shared a && shared b then
    decide (bits a.a 39 20 < bits b.a 39 20) || (decide (bits a.a 39 20 = bits b.a 39 20) && decide (ca < cb))
  else if shared a then true else if shared b then false else decide (ca < cb)

/-- Insert a command into those of its cycle; commands of one seat keep their order. -/
def kvInsert (shared : EngCmd → Bool) (x : EngCmd) : List EngCmd → List EngCmd
  | [] => [x]
  | y :: t => if kvBefore shared x y then x :: y :: t else y :: kvInsert shared x t

/-- Whether a command of the queue releases a handle that maps a page. -/
def kvReleases (s : State) (d : Nat) (y : EngCmd) (g : Nat) : Bool :=
  decide (y.op = 8) && (handleCheck s d (taskTenant y.task) y.a).isNone &&
    (mappedBelow s d (handleEnt y.a) (kvFmtOf s d).maxp).any fun x => decide (x.2.2 = g)

/-- Settle the order of the commands of the oldest cycle (R370).  A lone append to a page that a release of the cycle drops stands among the
rest, or goes first as the appends to one page do (R386): R370 forces neither, so that it is a free value (log 4, log 38). -/
def kvOrder (s : State) (d : Nat) : State :=
  let l := (dieAt s d).kv
  match l.find? fun m => !m.ord && decide (m.prog = 0) && decide (m.cyc < s.cyc) with
  | none => s
  | some x =>
    let group := l.filter fun m => !m.ord && decide (m.cyc = x.cyc)
    let r := drawWord s
    let freed := fun (g : Nat) => bitAt r.1 0 && group.any fun y => kvReleases s d y g
    let shared := fun (m : EngCmd) => match kvTarget s d m with
      | some g => decide (2 ≤ (group.filter fun y => decide (kvTarget s d y = some g)).length) || freed g
      | none => false
    let s := if group.any fun y => decide (y.op = 8) then r.2 else s
    let sorted := (group.foldl (fun acc m => kvInsert shared m acc) []).map fun m => { m with ord := true }
    modDie s d fun z => { z with kv := (l.filter fun m => m.ord) ++ sorted ++ (l.filter fun m => !m.ord && decide (m.cyc ≠ x.cyc)) }

/-- Change a command of a die's KV engine. -/
def modKv (s : State) (d : Nat) (m : EngCmd) (f : EngCmd → EngCmd) : State :=
  modDie s d fun z => { z with kv := z.kv.map fun x => if x = m then f x else x }

/-- Note a performed command's outcome: it completes once its effects are visible to the issuer (R203). -/
def kvDone (s : State) (d : Nat) (m : EngCmd) (r : KvEnd) : State :=
  modKv s d m fun x => { x with prog := 2, code := r.code, val := r.val, ent := r.ent, phys := r.phys }

/-- Record word 1 of a performed command: the handle of its entry as it stands at completion (R203, R368). -/
def kvWord1 (s : State) (d : Nat) (m : EngCmd) : Word := match m.ent with | some e => handleWord s d e | none => m.word1

/-- The performed commands of a die with their record words as they stand. -/
def kvWords (s : State) (d : Nat) : State :=
  modDie s d fun z => { z with kv := z.kv.map fun m => if m.prog = 2 then { m with word1 := kvWord1 s d m } else m }

/-- KV_COMMAND_PERFORM (R190, R203, R259, R370): the engine of a die completes a command whose effects its issuer sees, or performs
the next one, or ends a backward replay; which of the last two is a free value (log 4).  It waits while a channel of the HBM4 stage changes its width (R338, log 36). -/
def execKvCommandPerform (d : Fin 4) (s : State) : Out :=
  let d := d.val
  match engBroken s d 5 with
  | some c => .next (engDown (kvWords s d) d 5 c)
  | none =>
  if s.widthBusy ≠ [] then .next s
  else
  let s := ((dieAt s d).kv.filter fun m => decide (m.prog = 2)).foldl (fun s m => resMeet s 5 m.core m.miss m.res) s
  match (dieAt s d).kv.find? fun m => decide (m.prog = 2) && resFree m.res &&
      (decide (m.core / 96 = d) || pathClear s m.core m.seat (engPath 5 m.seq)) with
  | some m =>
    .next (endCmd (modDie s d fun z => { z with kv := z.kv.erase m }) m.core m.seat m.task m.tco 5 m.seq m.code m.val none m.phys
      m.res (kvWord1 s d m))
  | none =>
    let s := kvOrder s d
    let l := (dieAt s d).kv
    let r := drawWord s
    let next := l.find? fun m => m.ord && decide (m.prog = 0)
    let perform := fun (s : State) => match next with
      | none => s
      | some m =>
        if m.exts.any (fun e => e.2.rv) then s
        else if m.exts.any (fun e => e.2.dm) then (if m.miss then s else meetDemandAt s 5 m.core)
        else match kvDo s d m with
          | (s, some o) => kvDone s d m o
          | (s, none) => modKv s d m fun x => { x with prog := 1 }
    .next (match l.find? fun m => decide (m.prog = 1) with
      | some m =>
        if bitAt r.1 0 ∨ next.isNone then let q := kvReplay r.2 d m; kvDone q.1 d m q.2 else perform r.2
      | none => perform s)

end Sys2Proof.Machine
end

