-- ==== Sys2Proof/Machine/Coll.lean ====
section
/-!
DEFINITION. The collective engine (R209, R210): the group tables, the commands, and their completion with what the other members
bring.
-/
namespace Sys2Proof.Machine

open Sys2Proof

/-! ### Groups -/

/-- Entry of a group's table for a rank: bit 63 V and [9:0] the member package (the layout is the model's, log 15). -/
def collEntry (s : State) (g r : Nat) : Word := mreg s (.collgrp (1024 * (g % 256) + r))

/-- Members of a group: the valid entries from rank 0 on; 0 for a group that is not configured. -/
def collSize (s : State) (g : Nat) : Nat := ((countUp 0 1024).takeWhile fun r => bitAt (collEntry s g r) 63).length

/-- This package's rank in a group. -/
def collRank (s : State) (g : Nat) : Option Nat :=
  (countUp 0 (collSize s g)).find? fun r => decide (bits (collEntry s g r) 9 0 = chipNo s)

/-- Bytes of an element of a format a collective takes; 0 for another format (R209). -/
def collElt (f : Nat) : Nat := if f = 0x22 ∨ f = 0x26 then 4 else if f = 0x20 then 2 else 0

/-- The operations of COLL by SUB (R209): 0 sum, 1 max, 2 gather, 3 scatter, 4 bcast, 5 barrier. -/
abbrev copSum : Nat := 0
abbrev copMax : Nat := 1
abbrev copGather : Nat := 2
abbrev copScatter : Nat := 3
abbrev copBcast : Nat := 4
abbrev copBarrier : Nat := 5

/-- Bytes a member reads and writes (R209): a barrier moves none (log 16). -/
def collBytes (op n cnt es : Nat) : Nat × Nat :=
  if op = copBarrier then (0, 0)
  else if op = copGather then (cnt * es, n * cnt * es)
  else if op = copScatter then (n * cnt * es, cnt * es)
  else (cnt * es, cnt * es)

/-- COLL at issue (R188, R189, R209, R262): the command waits for the other members; its deadline is 2^26 cy away. -/
def collIssue (d : SDst) (op : Nat) (a b : SSrc) (s : State) : State :=
  withSrcs s 25 [a, b] fun v s =>
    let t := cs s
    let cfg := stgOf t 9 0
    let cnt := (stgOf t 9 1).toNat
    let g := bits cfg 7 0
    let es := collElt (bits cfg 13 8)
    let n := collSize s g
    let sz := collBytes op n cnt es
    match firstFail [
        failIf (decide (es = 0)) fmtRsvd,
        failIf (decide (cnt = 0) || decide (2 ^ 32 < cnt)) Cause.engGeom,
        (if op = copBarrier then none else engCheck (extOf t (bits cfg 19 16)) [0, 2, 3] true false 1 (v a).toNat sz.1),
        (if op = copBarrier then none else engCheck (extOf t (bits cfg 23 20)) [0, 2, 3] false true 1 (v b).toNat sz.2),
        resCheck (resOf t 9),
        failIf ((collRank s g).isNone || decide (n ≤ bits cfg 31 24)) Cause.collGroup] with
    | some code => refuseCmd s d 9 code
    | none =>
      let m := engCmdOf s 9 0x0E op (v a) (v b) [0, 1] [bits cfg 19 16, bits cfg 23 20]
      let s := acceptCmd s d 9 0 true
      let s := loseCap { s with colls := s.colls ++ [{ gid := g, cmd := m }] } t.task
      { s with timers := s.timers ++ [(s.gts + 2 ^ 26, .collTimeout (BitVec.ofNat 8 g))] }

/-- COLL.sum (R209). -/
def execCollSum (d : SDst) (a b : SSrc) (s : State) : Out := .next (collIssue d copSum a b s)
/-- COLL.max (R209). -/
def execCollMax (d : SDst) (a b : SSrc) (s : State) : Out := .next (collIssue d copMax a b s)
/-- COLL.gather (R209). -/
def execCollGather (d : SDst) (a b : SSrc) (s : State) : Out := .next (collIssue d copGather a b s)
/-- COLL.scatter (R209). -/
def execCollScatter (d : SDst) (a b : SSrc) (s : State) : Out := .next (collIssue d copScatter a b s)
/-- COLL.bcast (R209). -/
def execCollBcast (d : SDst) (a b : SSrc) (s : State) : Out := .next (collIssue d copBcast a b s)
/-- COLL.barrier (R209). -/
def execCollBarrier (d : SDst) (a b : SSrc) (s : State) : Out := .next (collIssue d copBarrier a b s)

/-! ### Completion -/

/-- Element `i` of a member's bytes, widened to 32 bits (R210). -/
def collElem (f es : Nat) (bs : List Byte) (i : Nat) : W32 :=
  let x := leNat ((countUp (es * i) es).map fun j => lget 0 bs j)
  BitVec.ofNat 32 (if f = 0x20 then x * 2 ^ 16 else x)

/-- OP of a reduction (R210): the max of R137, a wrapping add of integers, or the rounded sum. -/
def collOp (op f : Nat) (x y : W32) : W32 :=
  if op = copMax then BitVec.ofNat 32 (maxElem (if f = 0x26 then .i32 else .f32) x.toNat y.toNat).1
  else if f = 0x26 then x + y
  else (add32 x y).1

/-- The bytes of a reduced element: BF16 rounds once at the end, and a NaN is canonical (R210). -/
def collOut (f : Nat) (x : W32) : List Byte :=
  if f = 0x26 then natBytes 4 x.toNat
  else if f = 0x20 then natBytes 2 (rneBf (val32 x)).1.toNat
  else natBytes 4 (rne32 (val32 x)).1.toNat

/-- Reduce element `i` over the members in ascending rank (R210). -/
def collReduce (op f es : Nat) (parts : List (List Byte)) (i : Nat) : List Byte :=
  match parts with
  | [] => []
  | p :: r => collOut f (r.foldl (fun x q => collOp op f x (collElem f es q i)) (collElem f es p i))

/-- What a member of rank `r` finds in its destination (R209, R210). -/
def collResult (op f es cnt root r : Nat) (parts : List (List Byte)) : List Byte :=
  if op = copBarrier then []
  else if op = copGather then parts.flatten
  else if op = copBcast then lget [] parts root
  else if op = copScatter then ((countUp (r * cnt) cnt).map (collReduce copSum f es parts)).flatten
  else ((countUp 0 cnt).map (collReduce op f es parts)).flatten

/-- Whether a request header of a seat's `fo` is an RST to bytes of a range: memory `t` of the package, or a scratchpad of it (tier 0: that of
core `c`). -/
def hdrStores (s : State) (c : Nat) (t : Seat) (h : Word) (e : Ext) (a n : Nat) : Bool :=
  let x := extOf t (bits h 59 56)
  decide (bits h 63 60 = 1) &&
  (if e.tier = 0 then decide (x.tier = 1) && decide (peerChip x = chipNo s) && decide (peerCore x = c) &&
      meets (spadPhys e a) n ((x.base + bits h 39 0) % 2 ^ 22) (2 ^ bits h 55 54)
   else decide (x.tier = e.tier) && meets (e.base + a) n (x.base + bits h 39 0) (2 ^ bits h 55 54))

/-- The headers among the words of a seat's `fo` (R123).  The first number bounds them. -/
def reqHeads : Nat → List Word → List Word
  | 0, _ => []
  | _ + 1, [] => []
  | f + 1, h :: t => h :: reqHeads f (t.drop (reqWords h - 1))

/-- Whether a message of a seat is an RST to bytes of a range. -/
def msgStores (s : State) (c : Nat) (m : Msg) (e : Ext) (a n : Nat) : Bool :=
  let off := (m.flits.head?.map (·.off)).getD 0
  decide (m.kind = kRst) &&
  (if e.tier = 0 then decide (m.dunit = 0) && decide (m.dchip = chipNo s) && decide (msgCore m = c) &&
      meets (spadPhys e a) n off (2 ^ bits (payWord m 0) 55 54)
   else decide (m.dunit = memUnit e.tier) && meets (e.base + a) n off (2 ^ bits (payWord m 0) 55 54))

/-- Whether an ordinary store of the issuing seat to the source range is still on its way (R210): in the core, in `fo`, as a request that is
not answered or waits for its pins, or in a buffer. -/
def collStoresOut (s : State) (m : EngCmd) (e : Ext) (n : Nat) : Bool :=
  let k := coreAt s m.core
  let t := seatOf k m.seat
  let a := m.a.toNat
  (if e.tier = 0 then
    let ps := spadPlaces e a n
    k.effs.any fun x => decide (x.seat = m.seat) && (storePlaces x.land).any ps.contains
   else s.wbuf.any fun w => decide (w.owner = some (4 * m.core + m.seat)) && decide (w.path = 0) && decide (w.tier = e.tier) &&
    meets w.addr w.bytes.length (e.base + a) n) ||
  (let ws := (t.fo ++ (k.effs.filter fun x => decide (x.seat = m.seat)).flatMap fun x => match x.land with | .fo ws => ws | _ => []).map (·.w)
   (reqHeads ws.length ws).any fun w => hdrStores s m.core t w e a n) ||
  (k.sent.any fun x => decide (x.agent = m.seat) && msgStores s m.core x.msg e a n) ||
  s.hold.any fun h => decide (h.msg.schip = chipNo s) && decide (h.msg.sdie * 96 + h.msg.score = m.core) && decide (h.msg.sag = m.seat) &&
    msgStores s m.core h.msg e a n

/-- Take a collective off the engine's list. -/
def dropColl (s : State) (x : Coll) : State := { s with colls := s.colls.erase x }

/-- A collective ends on this member (R190, R192). -/
def collEnd (s : State) (x : Coll) (code : Nat) (detail : Option Nat) (phys : Option (Nat × Nat)) : State :=
  let m := x.cmd
  endCmd (dropColl s x) m.core m.seat m.task m.tco 9 m.seq code 0 detail phys m.res 0

/-- Write a member's result: strong writes at fabric scope, so that completion releases them (R210). -/
def collWrite (s : State) (m : EngCmd) (e : Ext) (bs : List Byte) : State :=
  if bs = [] then s
  else if e.tier = 0 then modCore s m.core fun k => spadPut k ((spadPlaces e m.b.toNat bs.length).zip bs)
  else strongWrite s (m.core / 96) m.task e.tier (e.base + m.b.toNat) bs

/-- Bytes a member brings to a collective of this package. -/
def collPart (s : State) (x : Coll) : Nat :=
  (collBytes x.cmd.sub (collSize s x.gid) (tget 0 x.cmd.stg 1).toNat (collElt (bits (tget 0 x.cmd.stg 0) 13 8))).1

/-- Whether a member's part is of another operation, format or count (R209). -/
def collDiffers (m : EngCmd) (p : CollPart) : Bool :=
  decide (p.op ≠ m.sub) || decide (p.fmt ≠ bits (tget 0 m.stg 0) 13 8) || decide (p.cnt ≠ (tget 0 m.stg 1).toNat)

/-- A collective whose members have all arrived goes on: the engine holds while an extent is revoked or on demand (R192, R209, R210). -/
def collTry (s : State) (x : Coll) : State :=
  let m := x.cmd
  let cfg := tget 0 m.stg 0
  let f := bits cfg 13 8
  let es := collElt f
  let cnt := (tget 0 m.stg 1).toNat
  let n := collSize s x.gid
  let sz := collBytes m.sub n cnt es
  let se := tget {} m.exts (bits cfg 19 16)
  let de := tget {} m.exts (bits cfg 23 20)
  match collRank s x.gid with
  | none => s
  | some r =>
    if !resFree m.res then resMeet s 9 m.core m.miss m.res
    else if x.peers.any (collDiffers m) then collEnd s x Cause.collMismatch none none
    else if m.sub ≠ copBarrier ∧ (se.rv ∨ de.rv) then s
    else if m.sub ≠ copBarrier ∧ (se.dm ∨ de.dm) then (if m.miss then s else meetDemandAt s 9 m.core)
    else if s.engBad.contains (9, 0) then collEnd { s with engBad := s.engBad.erase (9, 0) } x Cause.engUe none none
    else if s.widthBusy ≠ [] || collStoresOut s m se sz.1 then s
    else
      let q := if sz.1 = 0 then (s, none, []) else engFetch s none m.core (taskTenant m.task) se m.a.toNat sz.1
      match q.2.1 with
      | some e => collEnd q.1 x e.cause e.detail e.phys
      | none =>
        let bs := x.peers.map (·.bytes)
        let parts := bs.take r ++ [q.2.2] ++ bs.drop r
        match storeRefusal q.1 de m.b.toNat sz.2 with
        | some c => if sz.2 = 0 then collEnd q.1 x 0 none none else collEnd q.1 x c none none
        | none => collEnd (collWrite q.1 m de (collResult m.sub f es cnt (bits cfg 31 24) r parts)) x 0 none none

/-- The members of a group arrive for its oldest collective here that lacks them: `peers` are the other members' parts in ascending rank. -/
def collArrive (s : State) (g : Nat) (peers : List CollPart) : State :=
  match s.colls.find? fun x => decide (x.gid = g) && !x.came with
  | none => s
  | some x =>
    if peers.length + 1 ≠ collSize s g || (!peers.any (collDiffers x.cmd) && peers.any fun p => decide (p.bytes.length ≠ collPart s x)) then s
    else
      let f := fun (y : Coll) => if y = x then { y with came := true, peers := peers } else y
      { s with colls := s.colls.map f }

/-- COLL_COMPLETE (R190, R209, R210): every member of a group has arrived with its part of a collective; the oldest collective of the group
goes on when its members have arrived. -/
def execCollComplete (g : BitVec 8) (peers : List CollPart) (s : State) : Out :=
  let s := collArrive s g.toNat peers
  .next (match s.colls.find? fun x => decide (x.gid = g.toNat) with
    | none => s
    | some x => if x.came then collTry s x else s)

/-- COLL_TIMEOUT (R209): a collective that has waited 2^26 cy for a member ends; it waits while its record cannot be written. -/
def execCollTimeout (g : BitVec 8) (s : State) : Out :=
  .next (match s.colls.find? fun x => decide (x.gid = g.toNat) && !x.came && decide (x.cmd.cyc + 2 ^ 26 ≤ s.cyc) with
    | none => s
    | some x =>
      if resFree x.cmd.res then collEnd s x Cause.collTimeout none none
      else { resMeet s 9 x.cmd.core x.cmd.miss x.cmd.res with timers := s.timers ++ [(s.gts + 1, .collTimeout g)] })

end Sys2Proof.Machine
end

