-- ==== Sys2Proof/Machine/Uses.lean ====
section
/-!
DEFINITION. What a syllable needs before its group may issue: the sources that may pop `fi`, the words it pushes to
`fo`, the entries of `fi` it reserves, the cluster queues it pops and pushes, its engine, and its current weight (R16,
R19, R122, R129, R175, R188, R236).
-/
namespace Sys2Proof.Machine

open Sys2Proof

/-- The scalar sources a syllable reads. -/
def srcsOf : Instr → List SSrc
  | .add _ _ a b | .sub _ _ a b | .mul _ _ a b | .mulh _ _ a b | .mulhn _ _ a b | .div _ _ a b | .divn _ _ a b
  | .rem _ _ a b | .remn _ _ a b | .and _ _ a b | .or _ _ a b | .xor _ _ a b | .andn _ _ a b | .shl _ _ a b
  | .shr _ _ a b | .sra _ _ a b | .seq _ _ a b | .slt _ _ a b | .sltn _ _ a b | .min _ _ a b | .max _ _ a b => [a, b]
  | .addi _ _ a _ | .muli _ _ a _ | .andi _ _ a _ | .ori _ _ a _ | .xori _ _ a _ | .shli _ _ a _ | .shri _ _ a _
  | .srai _ _ a _ | .slti _ _ a _ | .maxi _ _ a _ => [a]
  | .sel _ _ a b c => [a, b, c]
  | .clz _ _ a | .popc _ _ a => [a]
  | .bfx _ _ a _ _ | .bfi _ _ a _ _ => [a]
  | .addsc _ _ a b _ => [a, b]
  | .setc _ a _ => [a]
  | .brc a _ _ | .ret a | .run a | .trap a _ | .halt a => [a]
  | .jr a b _ => [a, b]
  | .waitf a b _ _ => [a, b]
  | .ld _ _ _ b _ _ | .ldn _ _ _ b _ _ => [b]
  | .st _ a _ b _ _ => [a, b]
  | .amo _ _ _ b a _ => [b, a]
  | .cas _ _ _ b a => [b, a]
  | .lkup _ _ a | .tagdrop _ _ a => [a]
  | .tagset _ _ a b => [a, b]
  | .bari _ b _ | .bara _ b _ => [b]
  | .barx _ _ b _ => [b]
  | .rel _ b _ _ => [b]
  | .bind _ _ a b _ => [a, b]
  | .rld _ _ _ a _ => [a]
  | .rst _ _ _ _ a b _ _ => [a, b]
  | .ramo _ _ _ a b _ _ _ => [a, b]
  | .pinset _ a _ | .pindrop _ a => [a]
  | .vld _ _ _ b _ _ | .vst _ _ _ b _ _ => [b]
  | .vmovs _ (.inn _ a) _ => [a]
  | .vtld _ _ _ b _ _ | .vtst _ _ _ b _ _ => [b]
  | .trw _ _ _ b _ | .tldr _ _ _ b | .tstr _ _ _ b => [b]
  | .scw _ b _ _ | .sca _ b _ _ => [b]
  | .qget _ _ b _ _ | .qput _ _ b => [b]
  | .eset _ _ a => [a]
  | .cpy _ a b _ _ => [a, b]
  | .tierStart _ a | .tierStop _ a => [a]
  | .tierAck _ a b | .tierPoll _ a b => [a, b]
  | .kvlk _ a b | .kvap _ a b _ | .kvfk _ a b => [a, b]
  | .kvrl _ a | .kvjnOpen _ a | .kvjnCommit _ a | .kvjnReject _ a => [a]
  | .topk _ a b | .gthrWalk _ a b | .gthrPlan _ a b | .gthrList _ a b | .nsnd _ a b | .nrcv _ a b => [a, b]
  | .collSum _ a b | .collMax _ a b | .collGather _ a b | .collScatter _ a b | .collBcast _ a b
  | .collBarrier _ a b => [a, b]
  | .btake _ a _ => [a]
  | _ => []

/-- The scalar destination of a syllable that has one. -/
def sdstOf : Instr → Option SDst
  | .add _ d _ _ | .sub _ d _ _ | .mul _ d _ _ | .mulh _ d _ _ | .mulhn _ d _ _ | .div _ d _ _ | .divn _ d _ _
  | .rem _ d _ _ | .remn _ d _ _ | .and _ d _ _ | .or _ d _ _ | .xor _ d _ _ | .andn _ d _ _ | .shl _ d _ _
  | .shr _ d _ _ | .sra _ d _ _ | .seq _ d _ _ | .slt _ d _ _ | .sltn _ d _ _ | .min _ d _ _ | .max _ d _ _
  | .addi _ d _ _ | .muli _ d _ _ | .andi _ d _ _ | .ori _ d _ _ | .xori _ d _ _ | .shli _ d _ _ | .shri _ d _ _
  | .srai _ d _ _ | .slti _ d _ _ | .maxi _ d _ _ | .sel _ d _ _ _ | .movi _ d _ | .clz _ d _ | .popc _ d _
  | .bfx _ d _ _ _ | .addsc _ d _ _ _ | .getc _ d _ => some d
  | .ld _ d _ _ _ _ | .ldn _ d _ _ _ _ | .amo _ d _ _ _ _ | .lkup _ d _ | .tagset _ d _ _ | .tagdrop _ d _
  | .barx _ d _ _ | .acq _ d _ => some d
  | .eget d _ _ | .cpy d _ _ _ _ | .cdrn d _ | .tierStart d _ | .tierAck d _ _ | .tierPoll d _ _ | .tierStop d _
  | .kvlk d _ _ | .kvap d _ _ _ | .kvfk d _ _ | .kvrl d _ | .kvjnOpen d _ | .kvjnCommit d _ | .kvjnReject d _
  | .topk d _ _ | .gthrWalk d _ _ | .gthrPlan d _ _ | .gthrList d _ _ | .nsnd d _ _ | .nrcv d _ _ | .collSum d _ _
  | .collMax d _ _ | .collGather d _ _ | .collScatter d _ _ | .collBcast d _ _ | .collBarrier d _ _
  | .btake d _ _ => some d
  | _ => none

/-- The words a syllable pushes to `fo` (R77, R122). -/
def foWordsOf (i : Instr) : Nat :=
  match i with
  | .rld .. => 1
  | .rst _ _ _ _ _ _ c _ => if c = 0 then 2 else 3
  | .ramo _ _ _ _ _ c _ _ => if c = 0 then 2 else 3
  | .pindrop .. => 1
  | .vmovs _ (.outFo _) _ => 1
  | i => if sdstOf i = some .fo then 1 else 0

/-- The entries of `fi` a syllable reserves (R122). -/
def fiResOf : Instr → Nat
  | .rld .. | .rst .. | .ramo .. => 1
  | _ => 0

/-- The cluster of a vector syllable and the vector sources it names. -/
def vsrcsOf : Instr → Option (Nat × List VSrc)
  | .vadd k _ a b _ _ _ | .vsub k _ a b _ _ _ => some (k.val, [a, b])
  | .vmul k _ a b _ _ _ | .vfma k _ a b _ _ _ => some (k.val, [a, b])
  | .vmin k _ a b _ _ | .vmax k _ a b _ _ | .vsel k _ a b _ _ | .vand k _ a b _ _ | .vor k _ a b _ _
  | .vxor k _ a b _ _ | .vshl k _ a b _ _ | .vshr k _ a b _ _ => some (k.val, [a, b])
  | .vcmp k _ _ a b _ _ _ => some (k.val, [a, b])
  | .vaddi k _ a _ _ _ | .vmuli k _ a _ _ _ | .vshli k _ a _ _ _ | .vshri k _ a _ _ _ => some (k.val, [a])
  | .vcvt k _ a _ _ _ _ _ => some (k.val, [a])
  | .vrcp k _ a _ | .vrsq k _ a _ | .vexp2 k _ a _ | .vlog2 k _ a _ => some (k.val, [a])
  | .vwel k _ a _ => some (k.val, [a])
  | .vred k _ a _ _ _ => some (k.val, [a])
  | .vperm k _ a b _ => some (k.val, [a, b])
  | .vbcst k _ a _ _ => some (k.val, [a])
  | .vst k a _ _ _ _ => some (k.val, [a])
  | .vgth k _ _ v _ _ => some (k.val, [v])
  | .vsct k a _ v _ _ => some (k.val, [a, v])
  | .vmovs k (.outReg v _) _ | .vmovs k (.outFo v) _ => some (k.val, [v])
  | .vtst k a _ _ _ _ => some (k.val, [a])
  | _ => none

/-- The inbound queues a syllable pops: 2 × cluster for c.qa, one more for c.qb. -/
def qPopsOf (i : Instr) : List Nat :=
  match vsrcsOf i with
  | some (k, l) => (if l.any isQa then [2 * k] else []) ++ (if l.any isQb then [2 * k + 1] else [])
  | none => []

/-- The vector destination of a syllable that has one, with its cluster. -/
def vdstOf : Instr → Option (Nat × VDst)
  | .vadd k d _ _ _ _ _ | .vsub k d _ _ _ _ _ => some (k.val, d)
  | .vmul k d _ _ _ _ _ => some (k.val, d)
  | .vmin k d _ _ _ _ | .vmax k d _ _ _ _ | .vsel k d _ _ _ _ | .vand k d _ _ _ _ | .vor k d _ _ _ _
  | .vxor k d _ _ _ _ | .vshl k d _ _ _ _ | .vshr k d _ _ _ _ => some (k.val, d)
  | .vaddi k d _ _ _ _ | .vmuli k d _ _ _ _ | .vshli k d _ _ _ _ | .vshri k d _ _ _ _ => some (k.val, d)
  | .vcvt k d _ _ _ _ _ _ => some (k.val, d)
  | .vrcp k d _ _ | .vrsq k d _ _ | .vexp2 k d _ _ | .vlog2 k d _ _ => some (k.val, d)
  | .vred k d _ _ _ _ => some (k.val, d)
  | .vperm k d _ _ _ => some (k.val, d)
  | .vbcst k d _ _ _ => some (k.val, d)
  | .viota k d _ _ _ => some (k.val, d)
  | .vld k d _ _ _ _ => some (k.val, d)
  | .vgth k d _ _ _ _ => some (k.val, d)
  | .xcp k d _ _ _ => some (k.val, d)
  | .vtld k d _ _ _ _ => some (k.val, d)
  | _ => none

/-- The cluster whose c.qo a syllable pushes to. -/
def qoPushOf (i : Instr) : Option Nat :=
  match vdstOf i with
  | some (k, .qo) => some k
  | _ => none

/-- The engine whose commands of this seat are limited to 16 (R188). -/
def engLimitOf : Instr → Option Nat
  | .cpy _ _ _ _ h => some h.val
  | .kvlk .. | .kvap .. | .kvfk .. | .kvrl .. | .kvjnOpen .. | .kvjnCommit .. | .kvjnReject .. => some 5
  | .topk .. => some 6
  | .gthrWalk .. | .gthrPlan .. | .gthrList .. => some 7
  | .nsnd .. | .nrcv .. => some 8
  | .collSum .. | .collMax .. | .collGather .. | .collScatter .. | .collBcast .. | .collBarrier .. => some 9
  | _ => none

/-- The current weight of a syllable by its slot (Table 10-8). -/
def weightOf (slot : Nat) : Nat :=
  if slot ≤ 1 then 2 else if slot = 2 then 1 else if slot ≤ 4 then 3 else if slot ≤ 12 then 6 else if slot ≤ 20 then 5
  else if slot = 21 then 96 else if slot = 22 then 8 else if slot = 23 then 4 else if slot = 24 then 40 else 3

end Sys2Proof.Machine
end

