-- ==== Sys2Proof/Machine/Issue.lean ====
section
/-!
DEFINITION. Issue: fetching a group and its encoding causes (R57 to R64), what freezes or stops it before it issues (R16, R19, R122,
R129, R130, R175, R188, R236), opening and closing a group (R60, R61, R87, R92, R103, R242), the core's steps RESULT_LAND,
ARBITER_CHOICE, RUN_OVERRUN and FREEZE_LONG, and CLAIM_RELEASE at a yield (R170).
-/
namespace Sys2Proof.Machine

open Sys2Proof

/-! ### Fetch -/

/-- The word of the code image at an offset, read by the core's die (R59). -/
def codeWord (s : State) (c : Nat) (t : Seat) (off : Nat) : W32 :=
  BitVec.ofNat 32 (leNat ((countUp (t.codeBase + off) 4).map (obsByte s (some (c / 96)) t.codeTier)))

/-- Whether a fetched word carries a parity error (R59).  Which words do stands in the core and no step changes it, so that a task resumed at
such a word stops again (log 35). -/
def codeParity (s : State) (c : Nat) (t : Seat) (off : Nat) : Bool :=
  (coreAt s c).parity.contains (t.codeTier, t.codeBase + off)

/-- A fetched bundle: its offset, its header, its syllables by slot, its run word, its length in bytes. -/
structure Bun where
  at_ : Nat
  hdr : Header
  syls : List (Nat × W32)
  run : Option RunWord
  len : Nat
  deriving DecidableEq, Repr

/-- Why a bundle cannot be fetched, or the bundle (R58, R59). -/
def fetchBun (s : State) (c : Nat) (t : Seat) (off : Nat) : Except (List Nat) Bun :=
  if off % 4 ≠ 0 then .error [pcAlign]
  else if t.codeLen < off + 4 then .error [codeEnd]
  else
    let h := decHeader (codeWord s c t off)
    let sl := slotsOf h.mask
    let n := sl.length + (if h.yld then 1 else 0)
    let len := 4 * (1 + n)
    let par := (countUp 0 (1 + n)).any fun i => decide (off + 4 * i + 4 ≤ t.codeLen) && codeParity s c t (off + 4 * i)
    if par then .error (instPar :: if t.codeLen < off + len then [codeEnd] else [])
    else if t.codeLen < off + len then .error [codeEnd]
    else .ok ⟨off, h, sl.zip ((countUp 1 sl.length).map fun i => codeWord s c t (off + 4 * i)),
              if h.yld then some (decRunWord (codeWord s c t (off + 4 * n))) else none, len⟩

/-- Causes of the run word, the hold flags and the placement of WAITF, STEP and HALT (R62, R64 item 6). -/
def runCauses (t : Seat) (bs : List Bun) : List Nat :=
  let runs := bs.filterMap (·.run)
  (if runs.any (·.rsvd) then [runRsvd] else []) ++
  (if runs.any (fun r => (r.ah && !t.hasA) || (r.qh && !t.hasQ)) then [holdIll] else []) ++
  (if bs.any (fun b => b.syls.any fun p => decide (p.1 = 2) &&
      (let o := fld p.2 26 6
       ((decide (o = 0x09) || decide (o = 0x0A)) && !b.hdr.yld) || (decide (o = 0x0F) && b.hdr.yld))) then [waitPlace] else [])

/-- The syllables of a bundle as instructions, and the causes of those that are none (R64 item 7). -/
def decBun (b : Bun) : List (Nat × Nat × Nat × Instr) × List Nat :=
  b.syls.foldl (fun r p =>
    match decSyl b.hdr.ver p.1 p.2 with
    | .ok i => (r.1 ++ [(b.at_, b.hdr.ver, p.1, i)], r.2)
    | .error c => (r.1, r.2 ++ [c])) ([], [])

/-- A group ready to issue. -/
structure Img where
  addr : Nat
  next : Nat
  gap : Nat
  run : Option RunWord
  syls : List (Nat × Nat × Nat × Instr)
  deriving DecidableEq, Repr

/-- Causes of the rules of an issue group, in table order (R60). -/
def groupCauses (a : Bun) (b : Bun) : List Nat :=
  (if !b.hdr.stop then [grpLong] else []) ++ (if a.hdr.mask &&& b.hdr.mask ≠ 0 then [grpClash] else []) ++
  (if a.hdr.ver ≠ b.hdr.ver then [grpVer] else []) ++ (if a.hdr.yld then [grpYield] else []) ++
  (if a.hdr.gap ≠ 0 then [grpGap] else [])

/-- Every cause that is detected before a group issues, in the order of R64, or the group: its syllables bundle by bundle (R15).  How the
writes of its two bundles to one tile are ordered is in log 18 (DEDUCED). -/
def fetchGroup (s : State) (c : Nat) (t : Seat) (off : Nat) : Except (List Nat) Img :=
  match fetchBun s c t off with
  | .error cs => .error cs
  | .ok a =>
    let rest : Except (List Nat) (List Bun) :=
      if a.hdr.stop then .ok [a]
      else match fetchBun s c t (off + a.len) with
        | .error cs => .error cs
        | .ok b => .ok [a, b]
    match rest with
    | .error cs => .error cs
    | .ok bs =>
      let l := bs.getLast?.getD a
      let d := bs.map decBun
      let causes := (if bs.any (fun b => decide (2 ≤ b.hdr.ver)) then [hdrVer] else []) ++
        (match bs with | [a, b] => groupCauses a b | _ => []) ++ runCauses t bs ++ (d.map (·.2)).flatten
      if causes = [] then .ok ⟨off, l.at_ + l.len, l.hdr.gap, l.run, (d.map (·.1)).flatten⟩ else .error causes

/-! ### What holds a group back -/

/-- What a group meets before it issues: nothing, a stop before it, or a wait freeze with its INFO0 code (15 for a freeze
that R130 does not bound). -/
inductive Before where
  | clear
  | stop (cause : Nat)
  | freeze (why : Nat)
  deriving DecidableEq, Repr

/-- How often a number stands in a list. -/
def timesIn (x : Nat) (l : List Nat) : Nat := l.count x

/-- Whether a header that a task composed itself asks for an entry of `fi`: any but a well-formed PINDROP (R123). -/
def asksEntry (h : Word) : Bool := decide (bits h 63 60 ≠ 3) || hdrBadForm h

/-- The entries of `fo` that begin a request. -/
def foHeads : Nat → List FoEnt → List FoEnt
  | 0, _ => []
  | f + 1, es =>
    match es with
    | [] => []
    | e :: t => e :: foHeads f (t.drop (reqWords e.w - 1))

/-- Whether a composed request that waits in `fo` will reserve an entry of `fi` (R123, R129). -/
def foAsks (t : Seat) : Bool := (foHeads 16 t.fo).any fun e => !e.chk && asksEntry e.w

/-- Whether a word of a composed request is on its way to `fo` (R77, R129). -/
def landAsks (k : Core) (t : Seat) : Bool :=
  decide (t.foRes ≠ 0) && k.effs.any fun e =>
    match e.land with
    | .sca 62 _ w => decide ((seatOf k e.seat).task = t.task) && decide ((seatOf k e.seat).tco = t.tco) && asksEntry w
    | _ => false

/-- Look at `fi`, `fo` with the words of a request that are still leaving it in cycle `cyc` (R124), the engines, the cluster queues and the rotator (R16, R19, R122, R129, R175, R188). -/
def resources (cyc : Nat) (k : Core) (t : Seat) (is : List Instr) : Before :=
  let pops := (is.filter fun i => anyFi (srcsOf i)).length
  let need := (is.map fiResOf).foldl (· + ·) 0
  let fow := (is.map foWordsOf).foldl (· + ·) 0
  let outstanding := !t.fiRes.isEmpty || foAsks t || landAsks k t
  let nfi := t.fi.length
  let resFull := decide (need ≠ 0) && decide (32 < nfi - min pops nfi + t.fiRes.length + need)
  let qs := (is.map qPopsOf).flatten
  let qos := is.filterMap qoPushOf
  if resFull && t.fiRes.isEmpty && decide (nfi = 32) then .stop Cause.fiOver
  else if nfi < pops && !outstanding then .stop Cause.fiEmpty
  else if nfi < pops then .freeze 0
  else if 16 < t.fo.length + (t.foUntil - 1 - cyc) + t.foRes + fow then .freeze 1
  else if resFull then .freeze 2
  else if is.any (fun i => match engLimitOf i with | some e => decide (16 ≤ tget 0 t.outst e) | none => false) then .freeze 6
  else if qs.any (fun q => decide ((if q % 2 = 0 then qaOf t (q / 2) else qbOf t (q / 2)).length < timesIn q qs)) then .freeze 15
  else if qos.any (fun c => decide (8 < (qoOf t c).length + timesIn c qos)) then .freeze 15
  else if k.seqr.isSome && is.any (fun i => slotOf i = some 24) then .freeze 15
  else .clear

/-- The weight of a group (R236). -/
def groupWeight (g : Img) : Nat := (g.syls.map fun p => weightOf p.2.2.1).foldl (· + ·) 0

/-- The window limit a core's governor applies, 0 for none: PWL.LIMIT, and min(PWL.LIMIT, THLIM) while its die is hot (R236, R415). -/
def windowLimit (s : State) (c : Nat) : Nat :=
  let l := bits (mreg s (.pwl c)) 15 0
  if (dieAt s (c / 96)).hot then min l (bits (mreg s .thlim) 15 0) else l

/-- Whether the governor inserts a freeze before a group of weight `w` (R236): the sum is that of the 63 cycles before this one and of the
partner's pair beat that enters the array in it. -/
def governed (s : State) (c w : Nat) : Bool :=
  let k := coreAt s c
  let lim := windowLimit s c
  let sum := k.win.tail.foldl (· + ·) 0 + k.pairIn
  decide (lim ≠ 0) && decide (lim < sum + w) && (decide (w ≤ lim) || decide (sum ≠ 0))

/-- The number of the next issue cycle of a run: 0 for its first group when the run begins with it (R62). -/
def nextNo (t : Seat) : Nat := if t.fresh then 0 else t.used + 1

/-- Whether a group issues past its run (R62, R234): at number m, with the exception of the yield group or HALT that
directly follows a yield with RUN = 0. -/
def pastRun (t : Seat) (m : Nat) (g : Img) : Bool :=
  decide (t.run < m) &&
  !(t.run0 && decide (m = 1) && (g.run.isSome || g.syls.any fun p => match p.2.2.2 with | .halt _ => true | _ => false))

/-- What a core does in a cycle. -/
inductive View where
  | hold | waiting | gap (held : Bool) | choosing | idle
  | encoding (n : Nat) (cs : List Nat)
  | before (n cause : Nat)
  | frozen (n why : Nat)
  | governed
  | overrun (n : Nat)
  | go (n : Nat) (g : Img)
  deriving DecidableEq, Repr

/-- Look at a core.  The gap and the bubbles of a yield group count in the run it states (R91), but a run that they pass overruns only
once the arbiter has let the seat go on, and starts again when it has not (R62; DEDUCED, log 23). -/
def viewOf (s : State) (c : Nat) : View :=
  let k := coreAt s c
  if k.hold ≠ 0 then .hold
  else if k.waits ≠ [] then .waiting
  else match k.cur with
    | none => .idle
    | some n =>
      let t := seatOf k n
      if k.gap ≠ 0 then .gap (decide (t.run < nextNo t) && !k.choose)
      else if k.choose then .choosing
      else match fetchGroup s c t t.pc.toNat with
        | .error cs => .encoding n cs
        | .ok g =>
          match resources s.cyc k t (g.syls.map (·.2.2.2)) with
          | .stop cause => .before n cause
          | .freeze why => if governed s c (groupWeight g) then .governed else .frozen n why
          | .clear =>
            if governed s c (groupWeight g) then .governed
            else if pastRun t (nextNo t) g then .overrun n
            else .go n g

/-- A core as the arbiter's choice will leave it, when nothing but that choice stands before its next group (R232). -/
def afterChoice (k : Core) : Core :=
  match k.cur with
  | none => arbitrate k
  | some _ => if k.choose then arbitrate k else k

/-- Whether the governor freezes the cycle, beside any other freeze (R14, R27): the next group is known and too heavy. -/
def alsoGoverned (s : State) (c : Nat) : Bool :=
  let k := afterChoice (coreAt s c)
  match k.cur with
  | none => false
  | some n =>
    decide (k.gap = 0) && (seatOf k n).retire.isNone &&
    match fetchGroup s c (seatOf k n) (seatOf k n).pc.toNat with
    | .error _ => false
    | .ok g => governed s c (groupWeight g)

/-! ### Stops before and after a group -/

/-- The run overrun of a task (R234): the issue cycle that its run does not reach is the one numbered RUN + 1. -/
def lateCause (t : Seat) (pc : Nat) : PCause := ⟨5, Cause.runOverrun, 63, pc, wordOf t.run, wordOf (t.run + 1)⟩

/-- The causes of ranks 4 and 5 on the boundary before the group at `pc`, which would issue at number `m` (R242). -/
def nextCauses (s : State) (c n pc m : Nat) : List PCause :=
  let k := coreAt s c
  let t := seatOf k n
  let late : List PCause := [lateCause t pc]
  match fetchGroup s c t pc with
  | .error cs => cs.map (fun x => ⟨4, x, 63, pc, 0, 0⟩) ++ (if t.run < m then late else [])
  | .ok g =>
    (match resources s.cyc k t (g.syls.map (·.2.2.2)) with | .stop x => [⟨4, x, 63, pc, 0, 0⟩] | _ => []) ++
    (if pastRun t m g then late else [])

/-- Stop a task at the boundary before its next group for some causes, beside those of that group. -/
def stopBefore (s : State) (c n : Nat) (cs : List PCause) : State :=
  let t := seatAt s c n
  takeStop s c n (cs ++ nextCauses s c n t.pc.toNat (nextNo t)) t.pc.toNat

/-! ### The cycle's bookkeeping -/

/-- A core's cycle: whether it counts for results in flight, and the weight that issued in it (R13, R236). -/
def endCycle (k : Core) (counts : Bool) (w : Nat) : Core :=
  addWeight { k with counts := counts } w

/-- A hold freeze (R14, R27): it counts for the governor when that is one of its causes. -/
def holdCycle (k : Core) (gov : Bool) : Core :=
  let k := if gov then { k with gfrz := k.gfrz + 1 } else { k with ofrz := k.ofrz + 1 }
  endCycle k false 0

/-- A wait freeze (R14, R70, R130); together with the governor it is a hold freeze. -/
def waitCycle (k : Core) (gov : Bool) (why : Nat) : Core :=
  if gov then holdCycle k true
  else endCycle { k with ofrz := k.ofrz + 1, frz := if k.frzWhy = why then k.frz + 1 else 1, frzWhy := why } true 0

/-- The INFO0 code of a completion freeze (Table 11-3); 15 when R130 does not bound it. -/
def waitCode : CWait → Nat
  | .barw _ => 3
  | .acq .. => 4
  | .rel .. => 5
  | .cdrn .. => 7
  | .fence .. => 8
  | .claim .. => 15

/-- The code of the first bounded freeze among some. -/
def waitsCode (ws : List CWait) : Nat := ((ws.map waitCode).find? (· ≠ 15)).getD 15

/-- The status words of CDRNs count a cycle that is no freeze; one that has counted two lands before the next (R61, R201). -/
def drainTick (k : Core) : Core :=
  let land := fun (k : Core) (d : Drained) =>
    let e : Eff := { due := k.ct + 1, seat := d.seat, sw := d.sw, grp := d.grp, slot := 25, land := .sca d.dst d.latch d.v,
                     flags := 0, en := 0, info1 := 0, iss := d.iss, bun := d.bun, dead := false }
    { k with effs := k.effs ++ [e] }
  let ds := k.drained.map fun d => { d with cycles := d.cycles + 1 }
  let k := (ds.filter fun d => decide (2 ≤ d.cycles)).foldl land k
  { k with drained := ds.filter fun d => decide (d.cycles < 2) }

/-- The banks the core still serves in a hold freeze for bank conflicts (R24): each bank has served one access more. -/
def servedOnce : List Nat → List Nat
  | [] => []
  | b :: t => if t.contains b then b :: servedOnce t else servedOnce t

/-- No bank is in use by the core in this cycle. -/
def noBanks (k : Core) : Core := { k with grp := { k.grp with banks := [] } }

/-- The scratchpad places that a syllable reads as its operands stand, for the records among them (R290): `f` is the word of `fi` it pops. -/
def sylReads (k : Core) (t : Seat) (f : Word) (i : Instr) : List Nat :=
  let v := srcVal k t f
  let at_ := fun (e : BitVec 4) (off n : Nat) =>
    let x := extOf t e.toNat
    if extCheck x [0] true false 1 off n = none then spadPlaces x off n else []
  match i with
  | .ld _ _ e b z m | .ldn _ _ e b z m => at_ e (memOff (v b) z m) (2 ^ z.toNat)
  | .amo _ _ e b _ _ => at_ e (v b).toNat 8
  | .cas _ _ e b _ => at_ e (v b).toNat 8
  | .waitf a _ e _ => at_ e (v a).toNat 8
  | .vld _ _ e b _ m => at_ e (vmemOff (v b) m) 64
  | _ => []

/-- The scratchpad places that the syllables of a group read: those that name `fi` take its words in turn. -/
def groupReads (k : Core) (t : Seat) : List Instr → List FiEnt → List Nat
  | [], _ => []
  | i :: is, fi =>
    sylReads k t ((fi.head?.map (·.w)).getD 0) i ++ groupReads k t is (if anyFi (srcsOf i) then fi.tail else fi)

/-- A seat that reads the result record of a command with DN = 1 has drained the command (R290). -/
def drainRead (k : Core) (t : Seat) (ps : List Nat) : Seat :=
  let seen := fun (r : Nat × Nat) => ps.contains r.2 && (cellAt k.spad r.2).getLsbD 3
  if t.recs = [] then t
  else { t with recs := t.recs.filter (fun r => !seen r), drained := t.drained ++ (t.recs.filter seen).map (·.1) }

/-- Open a group: its cycle counts for the run and the slice, and its syllables wait to be performed (R61, R231). -/
def openGroup (k : Core) (n : Nat) (g : Img) : Core :=
  let t := seatOf k n
  let t := drainRead k t (if t.recs = [] then [] else groupReads k t (g.syls.map (·.2.2.2)) t.fi)
  let k := putSeat k n { t with used := nextNo t, fresh := false, causes := [], park := false }
  let grp : Grp := { addr := g.addr, next := g.next, gap := g.gap, binds := t.binds, todo := g.syls, iss := k.ct,
                     yield := g.run.map fun r => (r.run, r.ah, r.qh) }
  endCycle (drainTick { k with slice := k.slice + 1, frz := 0, frzWhy := 15, grp := grp }) true (groupWeight g)

/-- ISSUE_GROUP: one cycle of a core (R60, R64): a freeze, a gap cycle, a stop before the next group, or the next group, whose
syllables the step then performs in order. -/
def execIssueGroup (c : CoreId) (s : State) : Out :=
  let s := { s with cur := c.val }
  let up := modCore s c.val
  match viewOf s c.val with
  | .hold => .next (up fun k =>
      let k := { k with hold := k.hold - 1, grp := { k.grp with banks := servedOnce k.grp.banks } }
      holdCycle k (alsoGoverned s c.val))
  | .waiting => .next (up fun k => waitCycle (noBanks k) (alsoGoverned s c.val) (waitsCode k.waits))
  | .gap _ => .next (up fun k =>
      let n := k.cur.getD 0
      let t := seatOf k n
      let k := if t.park then k else putSeat k n { t with used := nextNo t, fresh := false }
      endCycle (drainTick (noBanks { k with gap := k.gap - 1, slice := k.slice + 1 })) true 0)
  | .choosing | .idle => .next (up fun k => endCycle (drainTick (noBanks k)) true 0)
  | .encoding n _ => .next (modCore (stopBefore s c.val n []) c.val fun k => endCycle (drainTick (noBanks k)) true 0)
  | .before n _ => .next (modCore (stopBefore s c.val n []) c.val fun k => endCycle (drainTick (noBanks k)) true 0)
  | .frozen _ why => .next (up fun k => waitCycle (noBanks k) false why)
  | .governed => .next (up fun k => holdCycle (noBanks k) true)
  | .overrun _ => .next (up fun k => endCycle (drainTick (noBanks k)) true 0)
  | .go n g => .next (up fun k => openGroup k n g)

/-! ### Closing a group -/

/-- The largest number of accesses to one bank, less one (R24). -/
def bankExcess (l : List Nat) : Nat := l.foldl (fun m b => max m (timesIn b l - 1)) 0

/-- The largest effective run (R92). -/
def runMax : Nat := 2 ^ 24 - 1

/-- The channels a task has used, each with the commands accepted there so far from any seat (R103, R201). -/
def usedChans (k : Core) (t : Seat) : Tbl Nat :=
  ([0, 1, 2, 3].filter fun h => decide (tget 0 t.cnt h ≠ 0)).map fun h => (h, (tget {} k.ch h).acc)

/-- Close a group once its syllables have been performed: bank and version freezes, the next address, yields, waits,
retirement, and a stop of the task after it (R24, R60, R61, R63, R87, R92, R103, R170, R242, R248). -/
def closeGroup (s : State) (c : Nat) : State :=
  let k := coreAt s c
  match k.cur with
  | none => s
  | some n =>
    let g := k.grp
    let t := seatOf k n
    let gap := if g.taken then max 2 g.gap else g.gap
    let pc := g.branch.getD g.next
    let isYield := g.yield.isSome && g.halt.isNone
    let run := min (((g.yield.map (·.1)).getD 0) + t.runExt.getD 0) runMax
    let t := if isYield then
        { t with runExt := none, run := run, used := 0, run0 := decide (run = 0), wait := g.park, park := g.park.isSome }
      else t
    let t := { t with pc := wordOf (if g.halt.isSome then g.addr else pc), lastGrp := g.addr }
    let k := { k with hold := k.hold + bankExcess g.banks + g.v1hold, grp := { g with todo := [], yield := none } }
    let stopNow : List PCause := if isYield && t.stopReq = some 0 then [⟨3, Cause.taskStop, 63, g.addr, 0, 0⟩] else []
    let causes := t.causes ++ stopNow
    let t := if isYield && t.stopReq = some 0 then { t with stopReq := none } else t
    let s := setCore s c (putSeat k n t)
    if causes ≠ [] then
      let all := causes ++ (if g.halt.isSome then [] else nextCauses s c n pc (if isYield then 0 else t.used + gap + 1))
      if g.waits = [] then takeStop s c n all t.pc.toNat
      else modCore s c fun k =>
        let k := putSeat k n { t with causes := all }
        { k with waits := g.waits }
    else match g.halt with
      | some code =>
        let r : Retire := { exit := code, raddr := g.addr, signalled := false, kill := false, upto := usedChans k t }
        let ws := g.waits ++ (if t.hasA || t.hasQ then [.claim t.hasA t.hasQ] else [])
        let k := putSeat k n { t with retire := some r }
        let k := { k with waits := ws }
        setCore s c (if ws = [] then vacate k n else k)
      | none =>
        if isYield && t.stopReq.isSome && decide (g.waits = []) then silentStop s c n
        else
          let a := match g.yield with | some (_, ah, _) => isYield && !ah && t.hasA | none => false
          let q := match g.yield with | some (_, _, qh) => isYield && !qh && t.hasQ | none => false
          let k := putSeat k n t
          setCore s c { k with gap := gap, choose := isYield, waits := g.waits ++ (if a || q then [.claim a q] else []) }

/-! ### The other steps of a core's cycle -/

/-- Seats of effects that trap in this cycle. -/
def trapSeats (k : Core) (l : List Eff) : List Nat := ((l.filter fun e => effDue k e && e.traps).map (·.seat)).eraseDups

/-- The causes behind a seat's boundary, which a gap may still separate from the next group (R242). -/
def behindCauses (s : State) (c n : Nat) : List PCause :=
  let k := coreAt s c
  let t := seatOf k n
  if t.retire.isSome then [] else nextCauses s c n t.pc.toNat (nextNo t + if k.cur = some n then k.gap else 0)

/-- A trap that lands in a completion freeze waits for the end of the freeze: the groups that have issued complete (R45; DEDUCED for the
freezes that return nothing, log 22).  The first that lands is the one reported (R46). -/
def trapWaits (s : State) (c n : Nat) : State :=
  let k := coreAt s c
  let t := seatOf k n
  let mine := fun (e : Eff) => decide (e.seat = n) && e.traps && effDue k e
  let own := if t.causes.any (fun p => decide (p.rank ≤ 1)) then [] else (((pendingTraps k n).filter mine).take 1).map trapOf
  let t' : Seat := { t with causes := own ++ t.causes ++ if t.causes = [] then behindCauses s c n else [] }
  setCore s c (putSeat { k with effs := k.effs.map fun e => if mine e then { e with dead := true } else e } n t')

/-- Take the traps of the results that land in this cycle (R45, R104): a task that has stopped already takes none. -/
def takeTraps (c : Nat) : List Nat → State → State
  | [], s => s
  | n :: t, s =>
    let x := seatAt s c n
    if x.st = .stopped ∨ x.st = .empty ∨ x.st = .swapping then takeTraps c t s
    else if inFreeze (coreAt s c) n then takeTraps c t (trapWaits s c n)
    else takeTraps c t (takeStop s c n (x.causes ++ behindCauses s c n) x.pc.toNat)

/-- RESULT_LAND (R13, R15, R44, R45): the results due land in issue order, their flags enter FLG, traps are
taken, and a tile row that the sequencer reads in this cycle is read as they leave it (R174, R175). -/
def execResultLand (c : CoreId) (s : State) : Out :=
  let k := coreAt s c.val
  let due := k.effs
  let s := setCore s c.val (flagDue due (landDue (inOrder due) k))
  let s := takeTraps c.val (trapSeats k due) s
  -- what was due has landed; a trap that was just taken has freed what it had reserved
  let s := modCore s c.val fun k =>
    let dead := k.effs.filter fun e => decide (e.due ≤ k.ct) && e.dead && !due.contains e
    let k := dead.foldl freeReserved k
    seqRead { k with effs := k.effs.filter fun e => !(decide (e.due ≤ k.ct) && (!isStore e.land || e.dead)) }
  .next s

/-- A choice that finds no ready seat leaves the core idle for the cycle: a seat that becomes ready in it is chosen for the next (R232). -/
def chosen (k : Core) : Core := let k := arbitrate k; if k.cur = none then { k with idle := true } else k

/-- ARBITER_CHOICE (R232): after a yield's bubbles, freezes and claim release, or for a core that has lost its seat in an earlier cycle. -/
def execArbiterChoice (c : CoreId) (s : State) : Out :=
  .next (modCore s c.val fun k =>
    if k.hold ≠ 0 ∨ k.waits ≠ [] ∨ k.idle then k
    else match k.cur with
      | none => chosen k
      | some _ => if k.choose ∧ k.gap = 0 then chosen k else k)

/-- RUN_OVERRUN (R234): the task stops at the boundary before the issue cycle that its run does not reach. -/
def execRunOverrun (c : CoreId) (s : State) : Out :=
  match viewOf s c.val with
  | .gap true => .next (match (coreAt s c.val).cur with
      | some n =>
        let t := seatAt s c.val n
        takeStop s c.val n [lateCause t t.pc.toNat] t.pc.toNat
      | none => s)
  | .overrun n =>
    let t := seatAt s c.val n
    .next (takeStop s c.val n [lateCause t t.pc.toNat] t.pc.toNat)
  | _ => .next s

/-- The sync-word access of an ACQ or REL that is given up (R130): its message, wherever in the package it waits to be performed, and any
answer to it go nowhere. -/
def dropSync (s : State) (c n : Nat) : Option Nat → State
  | none => s
  | some id =>
    let mine := fun (m : Msg) => decide (m.schip = chipNo s) && decide (m.sdie * 96 + m.score = c) && decide (m.sag = n) && decide (m.msgid = id)
    let s := modCore s c fun k =>
      { k with sent := k.sent.filter fun x => !(decide (x.agent = n) && decide (x.id = id) && decide (x.seq = 1)),
               syncRes := k.syncRes.filter fun r => decide (r.1 ≠ id) }
    { s with net := s.net.filter fun m => !mine m, out := s.out.filter fun x => !mine x.2.msg,
             vcs := s.vcs.map fun v => (v.1, { v.2 with
               wait := v.2.wait.filter (fun t => !mine t.msg)
               left := if v.2.wait.head?.any (fun t => mine t.msg) then 0 else v.2.left }),
             hold := s.hold.filter fun h => !mine h.msg,
             cores := s.cores.map fun p => (p.1, { p.2 with rx := p.2.rx.filter fun e => !mine e.msg }) }

/-- The destination of a completion freeze that is given up: an entry of `fo` it had reserved is free again. -/
def dropWait (s : State) (c n : Nat) : CWait → State
  | .acq _ d _ _ _ id => freeFo (dropSync s c n id) c n d
  | .rel _ _ _ _ _ id => dropSync s c n id
  | .cdrn _ d _ _ _ => freeFo s c n d
  | _ => s

/-- FREEZE_LONG (R130): after 2^20 consecutive freeze cycles of one cause the task stops; an issue freeze stops it before its
group, a completion freeze names the group that holds the instruction. -/
def execFreezeLong (c : CoreId) (s : State) : Out :=
  let k := coreAt s c.val
  match k.cur with
  | none => .next s
  | some n =>
    let t := seatOf k n
    if k.frz < 2 ^ 20 ∨ k.frzWhy = 15 then .next s
    else match viewOf s c.val with
      | .waiting =>
        if waitsCode k.waits ≠ k.frzWhy then .next s
        else
          let s' := k.waits.foldl (fun s w => dropWait s c.val n w) s
          .next (takeStop s' c.val n (t.causes ++ [⟨6, Cause.freezeLong, 63, k.grp.addr, wordOf k.frzWhy, 0⟩])
            (if t.causes = [] then k.grp.addr else t.pc.toNat))
      | .frozen n why =>
        if why ≠ k.frzWhy then .next s
        else .next (takeStop s c.val n [⟨4, Cause.freezeLong, 63, t.pc.toNat, wordOf why, 0⟩] t.pc.toNat)
      | _ => .next s

/-- Whether a task still has an effect of the X, T or C classes in flight, or a beat to its partner (R170). -/
def arrayBusy (s : State) (c n : Nat) : Bool :=
  let isArr := fun (e : Eff) => match e.land with
    | .wrow .. | .wswap | .mclr _ | .scales .. | .beat .. => true
    | .tile .. | .store _ => decide (21 ≤ e.slot) && decide (e.slot ≤ 23)
    | _ => false
  ((coreAt s c).effs.any fun e => decide (e.seat = n) && isArr e) ||
  ((coreAt s c).effs.any fun e => match e.land with | .beat .. => true | _ => false) ||
  ((coreAt s (c / 2 * 2 + (1 - c % 2))).effs.any fun e => match e.land with
    | .beat .. => decide (e.seat = 4 + n) | _ => false)

/-- Whether the rotator's sequencer still works for a seat (R170, R175). -/
def rotBusy (k : Core) (n : Nat) : Bool := match k.seqr with | some q => decide (q.seat = n) && q.run | none => false

/-- CLAIM_RELEASE (R170): the freeze of a yield or of HALT ends when every effect in flight has landed; a yield's claims go with it, those of
a retiring task only after its stores (R103 step 6). -/
def execClaimRelease (c : CoreId) (s : State) : Out :=
  let k := coreAt s c.val
  match k.cur with
  | none => .next s
  | some n =>
    if k.hold ≠ 0 then .next s
    else match k.waits.find? fun w => match w with | .claim .. => true | _ => false with
      | some (.claim a q) =>
        if (a && arrayBusy s c.val n) || (q && rotBusy k n) then .next s
        else
          let s := modSeat s c.val n fun t =>
            if t.retire.isSome then t else { t with hasA := t.hasA && !a, hasQ := t.hasQ && !q }
          .next (afterWaits s c.val n (k.waits.erase (.claim a q)))
      | _ => .next s

end Sys2Proof.Machine
end

