-- ==== Sys2Proof/Machine/Fabric.lean ====
section
/-!
DEFINITION. Channel messages: cutting a command and sending (R307 to R312, R323), DATA, RED, CRD, CRDR and FIN where they arrive
(R308, R312, R313, R318, R326, R328), acknowledgements, refusals and resending (R314, R315).
-/
namespace Sys2Proof.Machine

open Sys2Proof

/-! ### Cutting a command into messages -/

/-- The bytes of a message from an offset of a scratchpad on, as flits that begin at every multiple of 64 (R311).  The first
number bounds the flits. -/
def splitFlits : Nat → Nat → Nat → List Byte → List Flit
  | 0, _, _, _ => []
  | n + 1, i, off, bs =>
    if bs = [] then []
    else
      let k := 64 - off % 64
      flit i off (bs.take k) :: splitFlits n (i + 1) (off + k) (bs.drop k)

/-- The scratchpad offset of an offset of a tier 1 extent. -/
def peerOff (e : Ext) (off : Nat) : Nat := (e.base % 2 ^ 22 + off) % 2 ^ 22

/-- How far a message of a command reaches from a place, by its row and the scratchpad offset there (R311); a RED has at most 15 flits of
data. -/
def cutLen (m : CpyCmd) (red : Bool) (pos p : Nat) : Nat :=
  let n := min (m.len - pos % m.len) (1024 - p % 1024)
  if red then min n (960 - p % 64) else n

/-- How far a place is from the next kept range behind it. -/
def toKept (rs : List (Nat × Nat)) (pos : Nat) : Option Nat :=
  ((rs.filter fun r => decide (pos < r.1)).map fun r => r.1 - pos).foldl
    (fun a b => match a with | none => some b | some c => some (min b c)) none

/-- Full popped entries in a row from a place on, at most `n` of them (R309). -/
def fullRun (t : Tbl (Nat × List Byte)) : Nat → Nat → Nat
  | 0, _ => 0
  | n + 1, pos =>
    match tfind t pos with
    | some (_, bs) => if bs.length = 64 then 1 + fullRun t n (pos + 64) else 0
    | none => 0

/-- The next data message of a command: its first byte and its bytes, when all of them are there (R309, R311). -/
def nextData (x : Chan) (m : CpyCmd) : Option (Nat × List Byte) :=
  if m.mode = 6 then
    match m.pend with
    | [] => none
    | (p, _, bs) :: _ =>
      if bs.length < 64 then some (p, bs)
      else
        let n := cutLen m false p (peerOff m.dst (cpyDst m p))
        let k := 64 * fullRun m.pend (n / 64) p
        if k < n ∧ 64 * m.units ≤ p + k then none else (gather 70 m.pend p k).map fun r => (p, r.2)
  else
    let rs := keptRanges x m
    let p := skipKept rs (rs.length + 1) m.sent
    if cpyTotal m ≤ p then none
    else
      let n := cutLen m (decide (m.mode = 3)) p (peerOff m.dst (cpyDst m p))
      let n := match toKept rs p with | some k => min n k | none => n
      (gather 70 m.pend p n).map fun r => (p, r.2)

/-! ### Sending -/

/-- Put a message of a channel's command on its way (R311, R323): a path that cannot be found fails the command. -/
def postMsg (s : State) (c h : Nat) (m : CpyCmd) (e : Ext) (kind : Nat) (fl : List Flit) (pos len : Nat) (occ : List Nat) :
    State :=
  let r := nextMsgId s.gts (coreAt s c) (4 + h)
  let msg := sealMsg { kind := kind, tenant := taskTenant m.task, schip := chipNo s, sdie := c / 96, score := c % 96,
                       sag := 4 + h, msgid := r.1, dchip := e.base / 2 ^ 42 % 1024, ddie := e.base / 2 ^ 40 % 4,
                       dcore := e.base / 2 ^ 33 % 128, dunit := 0, flits := fl, tag := 0 }
  let x : Sent := { agent := 4 + h, id := r.1, msg := msg, refusals := 0, resendAt := none, badPaths := [], path := 0,
                    resv := 0, seat := m.seat, first := pos, len := len, seq := m.seq, err := 0 }
  let s := setCore s c { r.2 with sent := r.2.sent ++ [x] }
  let s := if kind = kCrd then s else loseCap s m.task
  match sendMsg s msg occ [] with
  | (.ok p, s) => notePath s c x p
  | (.error cause, s) => failSent s c x cause none none

/-- Send bytes of a command as a DATA or RED message (R311): a reduction names its operation in a flit of its own. -/
def sendData (s : State) (c h : Nat) (m : CpyCmd) (pos : Nat) (bs : List Byte) (occ : List Nat) : State :=
  let off := peerOff m.dst (cpyDst m pos)
  if m.mode = 3 then
    postMsg s c h m m.dst kRed (flit 0 off [BitVec.ofNat 8 m.rop] :: splitFlits 16 1 off bs) pos bs.length occ
  else postMsg s c h m m.dst kData (splitFlits 17 0 off bs) pos bs.length occ

/-- Send the next read request of a command (R308), with the fill bytes around it; when only fill is left, none is sent. -/
def sendCrd (s : State) (c h : Nat) (m : CpyCmd) (occ : List Nat) : State :=
  let f := fillPieces m (m.rows + 1) m.rd
  let up := fun (s : State) (fill : List (Nat × List Byte)) (rd : Nat) => modCmd s c h m.seat m.seq fun x =>
    { x with rd := rd, pend := addPend s.cyc fill x.pend }
  match cpySrc m f.2 with
  | none => up s f.1 f.2
  | some off =>
    let p := peerOff m.src off
    -- the reply has at most 16 flits at its source offsets, and with a tier 1 destination ends where a message to it does
    let cut := if m.dst.tier = 1 ∧ m.mode < 4 then min (cutLen m false f.2 (peerOff m.dst (cpyDst m f.2))) (cutLen m false f.2 p)
               else cutLen m false f.2 p
    let n := min cut (cpyVLen m - f.2 % m.len)
    let f2 := fillPieces m (m.rows + 1) (f.2 + n)
    postMsg (up s (f.1 ++ f2.1) f2.2) c h m m.src kCrd [flit 0 p (natBytes 8 n)] f.2 n occ

/-- Whether a command may ask for source bytes (R199, R308). -/
def mayAsk (s : State) (c h : Nat) (m : CpyCmd) : Bool :=
  decide (m.mode ≠ 6) && decide (m.rd < cpyTotal m) && decide (m.src.tier = 1) && extFree m.src &&
  decide ((slogUnits (chanOf s c h)).length < 32)

/-- Whether a command's FIN is due (R312). -/
def finDue (s : State) (c h : Nat) (m : CpyCmd) : Bool :=
  m.fl && !m.finSent && decide (cmdWptr m = cpyTotal m) && !msgsOut (coreAt s c) h m && decide (m.dst.tier = 1) && extFree m.dst

/-- Whether a reduction message of the command to some of the same bytes is not acknowledged: the elements go in byte order (R197). -/
def redBehind (k : Core) (h : Nat) (m : CpyCmd) (off n : Nat) : Bool :=
  k.sent.any fun x => decide (x.agent = 4 + h) && decide (x.seat = m.seat) && decide (x.seq = m.seq) && decide (x.msg.kind = kRed) &&
    x.msg.flits.any fun f => meets f.off f.data.length off n

/-- Whether a logged unit still waits before place `i` of the log for some of the same bytes of a destination as the unit there: its message,
if it is under way, is not acknowledged (R199). -/
def logFirst (x : Chan) (m : CpyCmd) (i : Nat) (u : LogUnit) : Bool :=
  !logMeets { x with slog := x.slog.take i } m.dst (cpyDst m u.pos) u.bytes.length

/-- The first logged unit of a channel that can be sent: its destination has been refreshed and is a peer's scratchpad, every logged unit before
it to the same bytes has been acknowledged, and so has every earlier reduction message to them (R197, R199). -/
def peerReplay (k : Core) (h : Nat) : Option (Nat × LogUnit × CpyCmd) :=
  let x := tget {} k.ch h
  match findIdx (fun (u : LogUnit) => !u.out && x.cmds.any fun m =>
      decide (m.seat = u.seat) && decide (m.seq = u.seq) && extFree m.dst && decide (m.dst.tier = 1)) 0 x.slog with
  | none => none
  | some (i, u) =>
    match x.cmds.find? fun m => decide (m.seat = u.seat) && decide (m.seq = u.seq) with
    | none => none
    | some m =>
      if logFirst x m i u && !(decide (m.mode = 3) && redBehind k h m (peerOff m.dst (cpyDst m u.pos)) u.bytes.length)
      then some (i, u, m) else none

/-- What a command sends next. -/
inductive SendEnd where
  | none | ask | fin
  | log (u : Nat × Nat × List Byte)
  | data (pos : Nat) (bs : List Byte)
  deriving DecidableEq, Repr

/-- The next message of a command: data, then a read request, then its FIN; a unit whose destination is revoked or on demand retires into
the side log (R199). -/
def sendOf (s : State) (c h : Nat) (m : CpyCmd) : SendEnd :=
  let x := chanOf s c h
  let next : SendEnd := if mayAsk s c h m then .ask else .none
  if m.mode = 4 ∨ m.mode = 5 ∨ m.dst.tier ≠ 1 then next
  else if !extFree m.dst then
    match (if m.mode = 6 then m.pend else readyUnits m).head? with | some u => .log u | none => next
  else match nextData x m with
    | some (p, bs) =>
      if logMeets x m.dst (cpyDst m p) bs.length ||
         (decide (m.mode = 3) && redBehind (coreAt s c) h m (peerOff m.dst (cpyDst m p)) bs.length) then .none
      else .data p bs
    | none => if mayAsk s c h m then .ask else if finDue s c h m then .fin else .none

/-- Send the next message of a command. -/
def sendNext (s : State) (c h : Nat) (m : CpyCmd) (occ : List Nat) : State :=
  match sendOf s c h m with
  | .none => s
  | .ask => sendCrd s c h m occ
  | .log u => writeUnit s c h m.seat m.seq u
  | .data p bs =>
    sendData (modCmd s c h m.seat m.seq fun y => { y with sent := p + bs.length, pend := cutRange y.pend p bs.length }) c h m p bs occ
  | .fin =>
    postMsg (modCmd s c h m.seat m.seq fun y => { y with finSent := true }) c h m m.dst kFin
      [flit 0 (peerOff m.dst (cpyDst m 0)) []] (cpyTotal m) 0 occ

/-- Whether a command of a channel may send. -/
def cmdSends (m : CpyCmd) : Bool := m.started && decide (m.code = 0)

/-- Whether a channel has a message to send. -/
def chanWants (s : State) (c h : Nat) : Bool :=
  idFree s (coreAt s c) (4 + h) && ((peerReplay (coreAt s c) h).isSome || [false, true].any fun b =>
    match cmdAt s c h b with
    | some m => cmdSends m && decide (sendOf s c h m ≠ .none)
    | none => false)

/-- Whether a word of some seat's `fo` leaves in this cycle, or could: it goes ahead of channel messages (R307). -/
def foAhead (s : State) (c : Nat) : Bool :=
  [0, 1, 2, 3].any fun n => decide (s.cyc < (seatAt s c n).foUntil) ||
    (match leaveOf s c n with | .wait => false | .noPin => false | _ => true)

/-- Whether it is a channel's turn at the fabric interface: round-robin among those with a message (R307). -/
def sendsNow (s : State) (c h : Nat) : Bool :=
  let y := (coreAt s c).sendTurn
  !foAhead s c && ([(y + 1) % 4, (y + 2) % 4, (y + 3) % 4, y % 4].takeWhile (· ≠ h)).all fun j => !chanWants s c j

/-- MESSAGE_SEND (R307, R309, R311, R318, R319, R323, R331): a channel whose turn it is sends one message, if its agent may have one more
outstanding; `occ` gives the flits that wait for each link beside those without a credit. -/
def execMessageSend (c : CoreId) (h : Fin 4) (second : Bool) (occ : List Nat) (s : State) : Out :=
  .next (if !idFree s (coreAt s c.val) (4 + h.val) || !sendsNow s c.val h.val then s
    else
      let s := modCore s c.val fun k => { k with sendTurn := h.val }
      match peerReplay (coreAt s c.val) h.val with
      | some (i, u, m) =>
        sendData (modChan s c.val h.val fun x => { x with slog := lset x.slog i { u with out := true } }) c.val h.val m u.pos u.bytes occ
      | none =>
        match cmdAt s c.val h.val second with
        | none => s
        | some m => if cmdSends m then sendNext s c.val h.val m occ else s)

/-! ### Messages at their destination -/

/-- A request of the fabric as it arrives, after the network has given it up: `f` performs it at its core. -/
def atCore (s : State) (m : Msg) (kind : Nat) (f : State → Nat → State) : Out :=
  if !arrived s m || decide (m.kind ≠ kind) || decide (m.dunit ≠ 0) then .next s
  else
    let s := takeMsg s m
    .next (if strayMsg s m then refuseStray s m else f s (msgCore m))

/-- The failure response to a message the grant table refuses (R326). -/
def refuseGrant (s : State) (m : Msg) (d : Nat) : State :=
  sendResp s (mkResp s kAck m (if d = Cause.peerDown then failBytes d none none else failBytes Cause.grantRefused (some d) none))

/-- The scratchpad bytes of a message. -/
def flitRanges (fl : List Flit) : List (Nat × Nat) := fl.map fun f => (f.off, f.data.length)

/-- DATA (R108, R307, R312, R313, R318, R326): the bytes are written as the banks take them, then the tag decides. -/
def execData (m : Msg) (s : State) : Out :=
  atCore s m kData fun s c =>
    match grantCheck s c m 1 (flitRanges m.flits) true with
    | .error d => refuseGrant s m d
    | .ok i => rxPush s c { msg := m, ent := i, left := msgPieces m }

/-- RED (R111, R197, R313, R326): held whole where the receive buffer has room for 16 flits, verified, then performed once. -/
def execRed (m : Msg) (s : State) : Out :=
  atCore s m kRed fun s c =>
    let k := coreAt s c
    if 48 < rxFlits k then sendResp s (mkResp s kNack m [1])
    else if !msgOk m then sendResp s (mkResp s kNack m [0])
    else match cached k m with
    | some r => sendLate s r
    | none =>
      if rxHas k m then s
      else
        let off := (m.flits.head?.map (·.off)).getD 0
        match grantCheck s c m 2 (flitRanges m.flits.tail) (decide (off % 4 = 0)) with
        | .error d => refuseGrant s m d
        | .ok i =>
          let ps := ((msgPieces m).map piecePlaces).flatten
          match spadErr k 0 ps with
          | some j => sendLate s (mkResp s kAck m (failBytes Cause.remoteUe none (some (1, lget 0 ps j))))
          | none => rxPush s c { msg := m, ent := i, left := msgPieces m }

/-- Send a read reply, remembering it until it is acknowledged (R308). -/
def sendReply (s : State) (c : Nat) (r : Reply) : State :=
  let same := fun (y : Reply) => decide (y.msg.dchip = r.msg.dchip) && decide (y.msg.ddie = r.msg.ddie) &&
    decide (y.msg.dcore = r.msg.dcore) && decide (y.msg.sag = r.msg.sag) && decide (y.msg.msgid = r.msg.msgid)
  let put := fun (s : State) (r : Reply) => modCore s c fun k =>
    { k with replies := (k.replies.filter fun y => !same y) ++ [r] }
  match sendFree s r.msg r.badPaths with
  | (.ok p, s) => put s { r with path := p, resendAt := none }
  | (.error _, s) => put s { r with resendAt := none }

/-- CRD (R308, R326): the reply carries the source bytes, or the cause that refuses them. -/
def execCrd (m : Msg) (s : State) : Out :=
  atCore s m kCrd fun s c =>
    if !msgOk m then sendResp s (mkResp s kNack m [0])
    else
      let off := (m.flits.head?.map (·.off)).getD 0
      let n := (payWord m 0).toNat
      match grantCheck s c m 0 [(off, n)] true with
      | .error d => refuseGrant s m d
      | .ok _ =>
        let ps := (countUp off n).map (· % 2 ^ 22)
        let k := coreAt s c
        match spadErr k 0 ps with
        | some j => sendResp s (mkResp s kAck m (failBytes Cause.remoteUe none (some (1, lget 0 ps j))))
        | none =>
          let r := sealMsg { mkResp s kCrdr m [] with flits := splitFlits 17 0 off (spadGet k ps) }
          sendReply s c { msg := r, refusals := 0, resendAt := none, path := 0, badPaths := [] }

/-- The task of a sent message's notices (R243): a seat's own, or that of a channel's command. -/
def sentTask (s : State) (c : Nat) (x : Sent) : Word × Word × Nat :=
  if x.agent < 4 then let t := seatAt s c x.agent; (t.task, t.tco, x.agent)
  else match (chanOf s c (x.agent - 4)).cmds.find? fun m => decide (m.seat = x.seat) && decide (m.seq = x.seq) with
    | some m => (m.task, m.tco, m.seat)
    | none => let t := seatAt s c x.seat; (t.task, t.tco, x.seat)

/-- Post a notice about a sent message. -/
def postSent (s : State) (c : Nat) (x : Sent) (cause : Nat) : State :=
  let t := sentTask s c x
  postTask s t.1 t.2.1 c t.2.2 cause none 0 0

/-- CRDR (R308, R312): a verified reply's bytes join the command, and it is acknowledged once they are visible here, or at once when they only
pass on to a peer; a failed one is refused. -/
def execCrdr (m : Msg) (s : State) : Out :=
  if strayUnit s m kCrdr then .next (sendResp (takeMsg s m) (mkResp s kAck m (answerBytes m (failBytes Cause.routeFail none none))))
  else if !arrived s m || decide (m.kind ≠ kCrdr) || decide (m.dchip ≠ chipNo s) || decide (96 ≤ m.dcore) then .next s
  else
    let s := takeMsg s m
    let c := msgCore m
    .next (match findSent (coreAt s c) m.sag m.msgid with
      | none => if msgOk m then sendResp s (mkResp s kAck m (answerBytes m (ackBytes (m.flits.map (·.data)).flatten))) else s
      | some x =>
        let bs := (m.flits.map (·.data)).flatten
        if !msgOk m || decide (bs.length ≠ x.len) then
          sendResp (postSent s c x Cause.tagFail) (mkResp s kNack m (answerBytes m [0]))
        else
          let s := modCore s c fun k => { k with sent := k.sent.erase x }
          let h := x.agent - 4
          let ack := mkResp s kAck m (answerBytes m (ackBytes bs))
          let s := match (chanOf s c h).cmds.find? fun y => decide (y.seat = x.seat) && decide (y.seq = x.seq) with
            | some y =>
              if y.code ≠ 0 then sendLate s ack
              else
                let q := inject s c h y (x.first, bs)
                modCmd (if y.dst.tier = 1 ∧ y.mode < 4 then sendLate q.1 ack else q.1) c h y.seat y.seq fun z =>
                  { z with pend := addPend s.cyc [q.2] z.pend,
                           acks := if y.dst.tier = 1 ∧ y.mode < 4 then z.acks else z.acks ++ [(x.first, bs.length, ack)] }
            | none => sendLate s ack
          s)

/-- FIN (R328): the flag word of the entry that passed the command's first message is incremented. -/
def execFin (m : Msg) (s : State) : Out :=
  atCore s m kFin fun s c =>
    if !msgOk m then sendResp s (mkResp s kNack m [0])
    else match cached (coreAt s c) m with
    | some r => sendLate s r
    | none =>
      let k := coreAt s c
      let off := (m.flits.head?.map (·.off)).getD 0
      let done := fun (s : State) (bs : List Byte) => let r := mkResp s kAck m bs; sendLate (cacheResp s m r) r
      if rxHas k m then s
      else if coreDown s c then refuseGrant s m Cause.peerDown
      else match k.flagEnt.find? fun e => decide (e.1 = srcNo m) && decide (e.2.1 = m.sag) && decide (e.2.2.1 = off) with
        | none => done s []
        | some (_, _, _, i) =>
          let w0 := grantWord s c i 0
          let w1 := grantWord s c i 1
          let f := bits w1 44 23
          if !grantFrom w0 m then refuseGrant s m Cause.grantNone
          else if bits w0 58 43 ≠ m.tenant then refuseGrant s m Cause.grantTenant
          else if !bitAt w1 63 then done s []
          else if !grantCovers s c i [(f, 8)] then refuseGrant s m Cause.grantRange
          else if !bitAt w0 60 then refuseGrant s m Cause.remotePerm
          else rxPush s c { msg := m, ent := i, left := [] }

/-! ### Acknowledgements and refusals at the source -/

/-- The reply of a core that an ACK or NACK answers. -/
def findReply (k : Core) (m : Msg) : Option Reply :=
  k.replies.find? fun y => decide (y.msg.dchip = m.schip) && decide (y.msg.ddie = m.sdie) && decide (y.msg.dcore = m.score) &&
    decide (y.msg.sag = m.sag) && decide (y.msg.msgid = m.msgid)

/-- Whether an ACK or NACK answers a CRDR (log 12). -/
def forReply (m : Msg) : Bool := decide (bits (payWord m 24) 7 0 = 1)

/-- The acknowledgement of a channel's message (R198, R312). -/
def ackChan (s : State) (c : Nat) (x : Sent) (m : Msg) : State :=
  let h := x.agent - 4
  match respFail m with
  | some (cause, d, phys) => failSent s c x cause d phys
  | none =>
    let s := modCore s c fun k => { k with sent := k.sent.erase x }
    if x.msg.kind = kFin then
      let s := modCmd s c h x.seat x.seq fun y => { y with finDone := true }
      if bits (payWord m 12) 7 0 = 1 then postSent s c x Cause.flagWrap else s
    else match (chanOf s c h).cmds.find? fun y => decide (y.seat = x.seat) && decide (y.seq = x.seq) with
      | some y =>
        if y.code ≠ 0 then s
        else
          let w := payWord m 0
          let s := modChan s c h fun z => { z with slog := z.slog.filter fun u =>
            !(u.out && decide (u.seat = x.seat) && decide (u.seq = x.seq) && decide (u.pos = x.first)) }
          markDone s c h y x.first x.len (BitVec.ofNat 32 (if y.mode = 1 then bits w 31 0 else if y.mode = 2 then bits w 63 32 else 0))
      | none => s

/-- The acknowledgement, or the failure, of a message of a unit of the package (R192, R224, R308). -/
def ackEng (s : State) (x : Sent) (m : Msg) : State :=
  match respFail m with
  | some (cause, d, phys) => failEng s x cause d phys
  | none => { s with engSent := s.engSent.erase x }

/-- A message of a unit of this package that a response or refusal with DCORE 127 answers. -/
def findEng (s : State) (m : Msg) : Option Sent := s.engSent.find? fun x => decide (x.agent = m.sag) && decide (x.id = m.msgid)

/-- Whether a message comes for a unit of this package. -/
def unitHere (s : State) (m : Msg) (k : Nat) : Bool :=
  arrived s m && decide (m.kind = k) && decide (m.dchip = chipNo s) && decide (m.dcore = 127)

/-- Post TAG_FAIL for a message of a unit of the package (R314): to the queue it works for, or, of a query, to the management fault log
(log 13). -/
def tagFailEng (s : State) (x : Sent) : State :=
  if x.agent = agTier then let t : Stream := tget {} s.streams x.seat; postTask s t.task t.tco t.core t.seat Cause.tagFail none 0 0
  else if x.agent = agPin then postMgmt s Cause.tagFail 0
  else if x.agent = agSignal then postQueue s x.seat x.first Cause.tagFail none 0 0
  else postSeat s (x.seat / 4) (x.seat % 4) Cause.tagFail

/-- A member's landing acknowledgement of a shard (R329, log 12): byte 24 of the payload is 3, and it names group and shard. -/
def shardAck (s : State) (m : Msg) : State :=
  let g := (payWord m 0).toNat
  match (countUp 0 16).find? fun t =>
      let x : Stream := tget {} s.streams t
      decide (x.st ≠ 0) && bitAt x.tgrp 6 && decide (bits x.tgrp 5 0 = g) && decide (x.tenant = m.tenant) with
  | some t => { s with turn := s.turn ++ [.memberAck (Fin.ofNat 16 t) (payWord m 8).toNat m.schip] }
  | none => s

/-- ACK (R125, R127, R198, R312, R320, R329): of a single request, a channel's message or a read reply, or of a message of a unit. -/
def execAck (m : Msg) (s : State) : Out :=
  if unitHere s m kAck then
    let s := takeMsg s m
    .next (if bits (payWord m 24) 7 0 = 3 then (if msgOk m then shardAck s m else s) else match findEng s m with
      | some x => if msgOk m then ackEng s x m else refuseEng (tagFailEng s x) x 0
      | none => s)
  else if !respHere s m kAck then .next s
  else
    let s := takeMsg s m
    let c := msgCore m
    if forReply m then
      .next (match findReply (coreAt s c) m with
        | some y => if msgOk m then modCore s c fun k => { k with replies := k.replies.erase y } else s
        | none => s)
    else match findSent (coreAt s c) m.sag m.msgid with
    | some x => .next (if !msgOk m then respBad s c x else if x.agent < 4 then endRequest s c x m 0 else ackChan s c x m)
    | none => .next s

/-- A read reply is refused (R308, R314). -/
def refuseReply (s : State) (c : Nat) (y : Reply) (reason : Nat) : State :=
  let put := fun (z : Reply) => modCore s c fun k => { k with replies := k.replies.map fun r => if r = y then z else r }
  if reason = 3 then
    dueResend (put { y with resendAt := some s.gts, badPaths := y.path :: y.badPaths }) c y.msg.sag y.msg.msgid s.gts
  else if 16 ≤ y.refusals + 1 then
    sendResp (modCore s c fun k => { k with replies := k.replies.erase y })
      (sealMsg { y.msg with kind := kAck, flits := [flit 0 0 (failBytes Cause.fabRetry none none)] })
  else
    let n := y.refusals + 1
    dueResend (put { y with refusals := n, resendAt := some (s.gts + backOff n) }) c y.msg.sag y.msg.msgid (s.gts + backOff n)

/-- A response that a router has dropped goes out again on another path, from what its refusal repeats (R315, R323, log 12). -/
def resendResp (s : State) (m : Msg) : State :=
  let p := payloadOf m
  let b := fun (i : Nat) => (lget (0 : Byte) p i).toNat
  let r : Msg := { kind := b 25, tenant := m.tenant, schip := chipNo s, sdie := m.ddie, score := m.dcore, sag := m.sag, msgid := m.msgid,
                   dchip := b 26 + 256 * b 27, ddie := b 28, dcore := b 29, dunit := 0, flits := [flit 0 0 ((p.drop 32).take (b 31))], tag := 0 }
  (sendFree s (sealMsg r) [b 30]).2

/-- NACK (R126, R127, R297, R314, R315): the first refusal with reason 2 posts PIN_HOLD_FULL for the task that issued the request, by its own
package (DEDUCED, log 32). -/
def execNack (m : Msg) (s : State) : Out :=
  let reason := bits (payWord m 0) 7 0
  let again := decide (bits (payWord m 24) 7 0 = 2)
  if unitHere s m kNack then
    let s := takeMsg s m
    .next (if !msgOk m then s
      else if again then resendResp s m
      else match findEng s m with
        | some x => refuseEng (if reason = 0 then tagFailEng s x else s) x reason
        | none => s)
  else if !respHere s m kNack || !msgOk m then .next s
  else
    let s := takeMsg s m
    let c := msgCore m
    if again then .next (resendResp s m)
    else if forReply m then
      .next (match findReply (coreAt s c) m with | some y => refuseReply s c y reason | none => s)
    else match findSent (coreAt s c) m.sag m.msgid with
    | none => .next s
    | some x =>
      let s := if reason = 0 then postSent s c x Cause.tagFail else s
      if reason = 2 ∧ !x.full then
        let y : Sent := { x with full := true }
        .next (refuseSent (modSent (postSent s c x Cause.pinHoldFull) c x fun _ => y) c y reason)
      else .next (refuseSent s c x reason)

/-- Whether a time has come. -/
def dueBy (t : Option Nat) (now : Nat) : Bool := match t with | some g => decide (g ≤ now) | none => false

/-- Resend one message whose back-off is over (R314): a use of its MSGID (R315).  Without `occ` the flits that wait for each link are free values
(log 11). -/
def resendOne (s : State) (c : Nat) (x : Sent) (occ : List Nat) : State :=
  let s := modSent s c x fun y => { y with resendAt := none }
  let s := modCore s c fun k => { k with msgUse := tput (useKey x.agent x.id) s.gts k.msgUse }
  if 16 ≤ x.msg.dunit then
    let s := arriveReq s x.msg (seatAt s c x.agent).task
    modCore s c fun k => { k with sent := k.sent.filter fun y => !(decide (y.agent = x.agent) && decide (y.id = x.id) && y.resendAt.isNone) }
  else match (if occ = [] then sendFree s x.msg x.badPaths else sendMsg s x.msg occ x.badPaths) with
    | (.ok p, s) => notePath s c x p
    | (.error cause, s) => failSent s c (match findSent (coreAt s c) x.agent x.id with | some y => y | none => x) cause none none

/-- MESSAGE_RESEND (R314): the whole message goes out again on a path chosen anew: of an agent of a core, a read reply, or of a unit of the
package. -/
def execMessageResend (c : CoreId) (a : Fin 8) (id : Nat) (occ : List Nat) (s : State) : Out :=
  let k := coreAt s c.val
  let s := match k.sent.find? fun x => decide (x.agent = a.val) && decide (x.id = id) && dueBy x.resendAt s.gts with
    | some x => resendOne s c.val x occ
    | none => s
  let s := match k.replies.find? fun y => decide (y.msg.sag = a.val) && decide (y.msg.msgid = id) && dueBy y.resendAt s.gts with
    | some y => sendReply s c.val y
    | none => s
  .next (match s.engSent.find? fun x => decide (x.agent = a.val) && decide (x.id = id) && dueBy x.resendAt s.gts with
    | some x => if id = 1024 then startEng s x else goEng s x
    | none => s)

end Sys2Proof.Machine
end

