-- ==== Sys2Proof/Machine/Links.lean ====
section
/-!
DEFINITION. The fabric's ports and this package's router (R298, R315, R317, R323, R324, R331, R332).  Notices about a port belong to no
queue and go to the management fault log (log 13).
-/
namespace Sys2Proof.Machine

open Sys2Proof

/-- The tenant of a queue. -/
def qTenant (s : State) (q : Nat) : Nat := bits (mreg s (.qcfg q)) 63 48

/-- Set the state of a port: UP and WID (Table 15-8). -/
def setPort (s : State) (p : Nat) (up : Bool) (wid : Nat) : State :=
  modMreg s (.pst p) fun w => setBits (setBits w 2 1 wid) 0 0 (if up then 1 else 0)

/-- LINK_REPLAY (R317): RPL counts; more than RPLT replays in 2^20 cy post LINK_REPLAY, and the count starts again. -/
def execLinkReplay (p : Fin 32) (n : Nat) (s : State) : Out :=
  let s := modMreg s (.pst p.val) fun w => setBits w 63 32 (bits w 63 32 + n)
  let rs := (s.replays.filter fun r => decide (s.gts < r.2.1 + 2 ^ 20)) ++ [(p.val, s.gts, n)]
  let sum := ((rs.filter fun r => decide (r.1 = p.val)).map (·.2.2)).foldl (· + ·) 0
  let t := bits (mreg s .fabcfg) 43 32
  if t ≠ 0 ∧ t < sum then
    .next (postMgmt { s with replays := rs.filter fun r => decide (r.1 ≠ p.val) } Cause.linkReplay (wordOf p.val))
  else .next { s with replays := rs }

/-- PORT_RETRAIN (R317): four lanes, or two when only two work; until the package has booted the ports are powered down (R410). -/
def execPortRetrain (p : Fin 32) (two : Bool) (s : State) : Out :=
  .next (if booted s then setPort s p.val true (if two then 1 else 2) else s)

/-- FABRIC_PORT_UP (R317, R331): the port has trained and knows its neighbour; not before the package has booted (R410). -/
def execFabricPortUp (p : Fin 32) (nbr : Nat) (two : Bool) (s : State) : Out :=
  .next (if booted s then modMreg (setPort s p.val true (if two then 1 else 2)) (.pst p.val) fun w => setBits w 25 16 nbr else s)

/-- Return reason 3 for a message that its port has lost: to this package's own source, or on the way back (R315). -/
def returnDown (s : State) (t : Transit) : State := if nackable t.msg then sendResp s (downNack s t.msg t.path) else s

/-- The messages whose flits wait on a port's virtual channels, which it forgets (R315). -/
def takeWaiting (s : State) (p : Nat) : List Transit × State :=
  ((s.vcs.filter fun v => decide (v.1 / 8 = p)).flatMap fun v => v.2.wait, { s with vcs := s.vcs.filter fun v => decide (v.1 / 8 ≠ p) })

/-- The messages in the replay buffer of a port that fails: which of those sent over it is a free value (R315, log 4). -/
def loseQueued : List (Nat × Transit) → Nat → State → State
  | [], _, s => s
  | (q, t) :: r, p, s =>
    if q ≠ p then loseQueued r p s
    else
      let d := drawWord s
      loseQueued r p (if bitAt d.1 0 then returnDown d.2 t else d.2)

/-- Whether a path to a package survives (R298). -/
def reachable (s : State) (chip : Nat) : Bool := match choosePath s chip [] [] with | .ok _ => true | .error _ => false

/-- Fail the held requests whose pin's package no path reaches (R298). -/
def dropUnreachable : List Held → State → State
  | [], s => s
  | h :: t, s =>
    if h.pins.any fun p => !reachable s (p.toNat / 2 ^ 22) then
      dropUnreachable t (answerReq s h.msg (issuerTask s h.msg) (.fail Cause.pinChip none) none)
    else dropUnreachable t { s with hold := s.hold ++ [h] }

/-- After a path has gone, requests held on a pin's package that none reaches any more fail, and those behind them may go on (R298). -/
def pathLost (s : State) : State := recheckHeld (dropUnreachable s.hold { s with hold := [] })

/-- LINK_DOWN (R298, R315, R317): the router returns reason 3 for the messages with flits queued for the port or in its replay buffer. -/
def execLinkDown (p : Fin 32) (s : State) : Out :=
  let s := postMgmt (setPort s p.val false 0) Cause.linkDown (wordOf p.val)
  let w := takeWaiting s p.val
  let s := w.1.foldl returnDown w.2
  .next (pathLost (loseQueued s.out p.val { s with out := s.out.filter fun x => decide (x.1 ≠ p.val) }))

/-- The queue whose traffic a message is (R324): that of the task which issued it, of the stream it belongs to, or of the launch whose signal it
is.  What answers or passes on the traffic of another package, or asks about a pin, is no queue's of this package. -/
def trafficOf (s : State) (m : Msg) : Option Nat :=
  if m.schip ≠ chipNo s ∨ kindResp m.kind then none
  else if m.score < 96 then
    let c := m.sdie % 4 * 96 + m.score
    (findSent (coreAt s c) m.sag m.msgid).map fun x => taskQueue (sentTask s c x).1
  else match s.engSent.find? fun x => decide (x.agent = m.sag) && decide (x.id = m.msgid) with
    | none => none
    | some x =>
      if x.agent = agTier then some (taskQueue (tget ({} : Stream) s.streams x.seat).task)
      else if x.agent = agPin then none
      else if x.agent = agSignal then some x.seat
      else some (taskQueue (seatAt s (x.seat / 4) (x.seat % 4)).task)

/-- The queues whose traffic waits on a virtual channel, each once. -/
def waitQueues (s : State) (v : Vc) : List Nat := (v.wait.filterMap fun t => trafficOf s t.msg).eraseDups

/-- VC_TIMEOUT (R324): the neighbour gives `back` credits, an input, and flits that waited for them leave; a channel that still has had none for
2^20 cy posts VC_TIMEOUT for each queue whose traffic waits on it, once until it has one again, and its flits keep waiting. -/
def execVcTimeout (x : VcId) (back : Nat) (s : State) : Out :=
  let s := if back = 0 then s else
    vcStep s x.port.val x.resp x.vc.val fun v => { v with credits := min 32 (v.credits + back) }
  let v := vcAt s x.port.val x.resp x.vc.val
  .next (match v.dry with
    | some g =>
      if s.gts < g + 2 ^ 20 then s
      else (waitQueues s v).foldl (fun s q => postQueue s q 0 Cause.vcTimeout none 0 0)
        { s with vcs := tput (vcKey x.port.val x.resp x.vc.val) { v with dry := none } s.vcs }
    | none => s)

/-- The step that performs a message at its destination, by its kind (Table 15-1). -/
def arrivalOf (m : Msg) : Option Instr :=
  match m.kind with
  | 0 => some (.data m) | 1 => some (.fin m) | 2 => some (.red m) | 3 => some (.crd m) | 4 => some (.crdr m)
  | 5 => some (.singleRequest m) | 6 => some (.singleRequest m) | 7 => some (.singleRequest m)
  | 8 => some (.rep m) | 9 => some (.ack m) | 10 => some (.nack m) | 11 => some (.pqry m) | 12 => some (.prep m)
  | 13 => some (.pdrop m) | 14 => some (.engd m) | _ => none

/-- FLIT_FORWARD (R323): a message of another package at this router. -/
def execFlitForward (t : Transit) (s : State) : Out :=
  let m := t.msg
  let ph := t.ph || decide (t.mchip = chipNo s)
  let goal := if ph then t.dchip else t.mchip
  if 15 ≤ m.kind then .next (sendResp s (mkResp s kNack m [0]))
  else if ph ∧ t.dchip = chipNo s then
    .next (match arrivalOf m with | some i => { s with turn := s.turn ++ [i] } | none => s)
  else if 4 ≤ t.crossed then .next (returnDown s t)
  else
    let port := bits (rtOf s goal) 62 58
    if portUp s port then .next (joinPort s port { t with ph := ph, crossed := t.crossed + 1 })
    else .next (returnDown s t)

end Sys2Proof.Machine
end

