-- ==== Sys2Proof/Machine/Memories.lean ====
section
/-!
DEFINITION. The memories: writes reaching their ordering points (R276 to R280), accesses of control-complex harts and of the pool's
other hosts (R274, R285, R408), channel widths of the HBM4 stage (R338), and the failures of the CXL pool (R343, R344).
-/
namespace Sys2Proof.Machine

open Sys2Proof

/-! ### Ordering points -/

/-- Whether an earlier write in the same buffer meets the 64-byte units of a write: the two keep their order (R278, R280). -/
def writeWaits (w : BufWr) (earlier : List BufWr) : Bool :=
  earlier.any fun x => decide (x.buf = w.buf) && decide (x.tier = w.tier) && unitsMeet x.addr x.bytes.length w.addr w.bytes.length

/-- The writes that move on with a write: those of the same engine command to the same unit, which an observer sees wholly or not at all
(R277). -/
def sameMove (w x : BufWr) : Bool :=
  decide (w.path ≠ 0) && decide (x.path = w.path) && decide (x.owner = w.owner) && decide (x.buf = w.buf) && decide (x.tier = w.tier) &&
  decide (x.addr / 64 = w.addr / 64)

/-- The writes behind a write that move on in its step: as far as the last of its own move, every one of the same buffer that meets its unit,
so that a write of another agent between them keeps its place in the order of the unit (R277, R278, R280). -/
def behindMove (w : BufWr) (rest : List BufWr) : List BufWr :=
  (rest.reverse.dropWhile fun x => !sameMove w x).reverse

/-- Whether a write meets the 64-byte unit of another in the same buffer. -/
def meetsUnit (w x : BufWr) : Bool :=
  decide (x.buf = w.buf) && decide (x.tier = w.tier) && unitsMeet x.addr x.bytes.length w.addr w.bytes.length

/-- Whether one of the writes that would move waits for one that stays before it. -/
def moveWaits (w : BufWr) : List BufWr → List BufWr → Bool
  | _, [] => false
  | stay, x :: r => if meetsUnit w x then writeWaits x stay || moveWaits w stay r else moveWaits w (stay ++ [x]) r

/-- A write moves on: to tier 4 from its die's buffer to the port buffer, from which the pool has CXLTO cy to complete it (R344), any other
to its ordering point. -/
def moveOn (s : State) (w : BufWr) : State :=
  let rest := s.wbuf.erase w
  if w.tier = 4 ∧ w.buf ≠ 4 then { s with wbuf := rest ++ [{ w with buf := 4, at_ := s.gts }] }
  else commitWrite { s with wbuf := rest } w

/-- ORDERING_POINT_ARRIVAL (R276, R277, R280): write `k` of the buffers moves on, with the others of its command's unit. -/
def execOrderingPointArrival (k : Nat) (s : State) : Out :=
  .next (match lget none (s.wbuf.map some) k with
    | none => s
    | some w =>
      let seg := behindMove w (s.wbuf.drop (k + 1))
      if writeWaits w (s.wbuf.take k) || moveWaits w (s.wbuf.take k) seg then s
      else (w :: seg.filter (meetsUnit w)).foldl moveOn s)

/-! ### Agents outside the cores -/

/-- The memory cause that the management fault log shows for a hart's access (Table 17-2). -/
def hartCause (t : Nat) : Nat := if t = 2 then Cause.memUeHbm else if t = 4 then Cause.memUeCxl else Cause.memUeLpddr

/-- The path number of the harts' writes in the buffers: that of no engine. -/
def hartPath : Nat := 15

/-- Whether a buffered write is a hart's. -/
def isHart (w : BufWr) : Bool := w.owner.isNone && decide (w.path = hartPath)

/-- HART_MEMORY_ACCESS (R280, R285, R408): a hart loads or stores a physical range of tiers 2 to 5 as an agent of the package, or its
FENCE W,W brings its earlier writes to their ordering points.  A load that meets uncorrectable data is a load access fault of the
hart, and the management fault log shows it.  The attestation unit seals and unseals with SEAL; after a trip an unseal completes with CODE 1 (R412,
R414): the spec gives these two operations no register, and as accesses of a hart they are the model's (DESIGN CHOICE, log 37). -/
def execHartMemoryAccess (o : HartOp) (s : State) : Out :=
  .next (match o with
    | .load t a n =>
      if widthWait s t a n then s else
      let s := commitAll (fun w => isHart w && decide (w.tier = t) && decide (t ≠ 4) && unitsMeet w.addr w.bytes.length a n) s
      let r := memRead s none t a n
      match r.2.1 with
      | none => { r.1 with hartReads := r.1.hartReads ++ [r.2.2] }
      | some c => if c = Cause.remoteUe ∨ c = Cause.cxlPoison then postMgmt r.1 (hartCause t) (wordOf (a / 64 * 64)) else postMgmt r.1 c (wordOf a)
    | .store t a bs =>
      match accessRefusal s t a bs.length with
      | some c => postMgmt s c (wordOf a)
      | none =>
        let w : BufWr := { buf := if t = 4 then 4 else 5, tier := t, addr := a, bytes := bs, owner := none, launch := none,
                           hidden := decide (t ≠ 4), pin := none, resv := 0, path := hartPath, at_ := s.gts }
        memEnqueue s w
    | .fence => commitAll (fun w => isHart w && decide (w.tier ≠ 4)) s
    | .clearTag c t key =>
      modCore s c.val fun k => { k with tags := k.tags.filter fun e => !(decide (e.tenant = t) && decide (e.key = key)) }
    | .seal bs => { s with sealOut := some (0, Config.sealOf s.sealKey bs) }
    | .unseal bs => { s with sealOut := some (if s.tripped || !s.keysUp then (1, []) else Config.unsealOf s.sealKey bs) })

/-- POOL_HOST_ACCESS (R274, R280): another host of the pool reads or writes the pool at its device. -/
def execPoolHostAccess (addr : Nat) (write : Option (List Byte)) (s : State) : Out :=
  .next (match write with
    | none => s
    | some bs => memStrong s 4 addr bs)

/-! ### The HBM4 stage -/

/-- The channels of a stack: 32 of the 128 (R337). -/
def stackChans (st : Nat) : List Nat := countUp (32 * st) 32

/-- A channel begins to change its width; it issues nothing for at most 2^14 cy (R338). -/
def widthStart (s : State) (ch : Nat) : State :=
  { s with widthBusy := ch :: s.widthBusy.filter (· ≠ ch),
           timers := s.timers ++ [(s.gts + 2 ^ 14, .widthTransitionEnd (Fin.ofNat 128 ch))] }

/-- WID of a channel's status follows from TH and LF (Table 17-1). -/
def widthOf (w : Word) : Nat := if bitAt w 2 || bitAt w 3 then 1 else 2

/-- Set a bit of a channel's status and its width with it. -/
def setChan (s : State) (ch i v : Nat) : State :=
  let old := mreg s (.hbmst ch)
  let w := setBits old i i v
  let w := setBits w 1 0 (widthOf w)
  let s := setMreg s (.hbmst ch) w
  if bits w 1 0 = bits old 1 0 then s else widthStart s ch

/-- The temperature below which full width returns (Table 17-2a). -/
def hbmCool (s : State) : Nat :=
  let hot := bits (mreg s .hbmhot) 15 0
  let cool := bits (mreg s .hbmcool) 15 0
  if hot ≤ cool then hot - 4 else cool

/-- A temperature of a stack is taken: one that is not below HBMCOOL begins the 2^20 cy anew (R338). -/
def noteTemp (s : State) (st : Nat) (temp : Nat) : State :=
  if temp < hbmCool s then s else { s with hotAt := tput st s.gts s.hotAt }

/-- HBM_THERMAL_DROP (R338): a stack's temperature exceeds HBMHOT. -/
def execHbmThermalDrop (st : Fin 4) (temp : BitVec 16) (s : State) : Out :=
  let s := noteTemp s st.val temp.toNat
  .next (if bits (mreg s .hbmhot) 15 0 < temp.toNat then (stackChans st.val).foldl (fun s ch => setChan s ch 2 1) s else s)

/-- HBM_THERMAL_RESTORE (R338): a stack's temperature is `temp`, its highest since it was last known not to be below HBMCOOL; after 2^20
consecutive cy below it full width returns. -/
def execHbmThermalRestore (st : Fin 4) (temp : BitVec 16) (s : State) : Out :=
  let s := noteTemp s st.val temp.toNat
  .next (if temp.toNat < hbmCool s ∧ tget 0 s.hotAt st.val + 2 ^ 20 ≤ s.gts then
      (stackChans st.val).foldl (fun s ch => setChan s ch 2 0) s else s)

/-- HBM_LANE_FAULT (R338): link training finds a failed lane of a channel. -/
def execHbmLaneFault (ch : Fin 128) (s : State) : Out := .next (setChan s ch.val 3 1)

/-- WIDTH_TRANSITION_END (R338): the channel issues again. -/
def execWidthTransitionEnd (ch : Fin 128) (s : State) : Out := .next { s with widthBusy := s.widthBusy.filter (· ≠ ch.val) }

/-! ### The CXL pool -/

/-- A command of an engine of a die, or of a channel, ends with a cause for one of its writes (R192, R344). -/
def failPath (s : State) (c n path cause : Nat) : State :=
  let eng := (path - 1) % 16
  let seq := (path - 1) / 16
  if eng < 4 then failCmd s c eng n seq cause none none else failEngCmd s eng (4 * c + n) seq cause none none

/-- A write to the pool that gets no completion in time (R344): its issuer learns CXL_TIMEOUT; whether the device has made the write
is open, so that a free value says it (log 4). -/
def timeOutWrite (s : State) (k : Nat) : State :=
  match lget none (s.wbuf.map some) k with
  | none => s
  | some w =>
    if w.tier ≠ 4 then s
    else
      let x := drawWord { s with wbuf := ldel s.wbuf k }
      let s := if bitAt x.1 0 then rawWrite x.2 4 w.addr w.bytes else x.2
      match w.owner with
      | none => postMgmt s Cause.cxlTimeout (wordOf w.addr)
      | some o =>
        let task := (seatAt s (o / 4) (o % 4)).task
        let s := match w.pin with | some i => failPin s i | none => s
        if w.path ≠ 0 then failPath s (o / 4) (o % 4) w.path Cause.cxlTimeout
        else failRequest s (o / 4) (o % 4) task w.resv w.err Cause.cxlTimeout none none

/-- The cycles a CXL.mem access has to complete (R345): 0 is taken as 1. -/
def cxlLimit (s : State) : Nat := max 1 (bits (mreg s .cxlto) 31 0)

/-- Whether a write of the port buffer has had no completion within CXLTO cy. -/
def cxlLate (s : State) (w : BufWr) : Bool := decide (w.tier = 4) && decide (w.buf = 4) && decide (w.at_ + cxlLimit s ≤ s.gts)

/-- CXL_TIMEOUT (R344): write `k` of the buffers, which goes to the pool, has had no completion within CXLTO cy; or the outside says that a
read under a root port gets none, and the next one that an agent makes under it ends so (log 35). -/
def execCxlTimeout (e : CxlEnd) (s : State) : Out :=
  .next (match e with
    | .read p => { s with cxlLost := s.cxlLost ++ [p.val] }
    | .write k =>
      match lget none (s.wbuf.map some) k with
      | some w => if cxlLate s w then timeOutWrite s k else s
      | none => s)

/-- The writes that time out in this cycle, the last of the buffers first. -/
def cxlLateAt (s : State) : List Nat :=
  ((countUp 0 s.wbuf.length).filter fun k => match lget none (s.wbuf.map some) k with | some w => cxlLate s w | none => false).reverse

/-- The place of a write to the pool under a root port. -/
def portWrite (s : State) (p : Nat) : Option Nat :=
  (findIdx (fun w : BufWr => decide (w.tier = 4) &&
    (cxlPieces w.addr w.bytes.length).any fun a => decide (cxlPortAt s a = some p)) 0 s.wbuf).map (·.1)

/-- The writes under a root port end with CXL_TIMEOUT. -/
def dropPort (p : Nat) : Nat → State → State
  | 0, s => s
  | f + 1, s => match portWrite s p with | some k => dropPort p f (timeOutWrite s k) | none => s

/-- CXL_LINK_LOSS (R344): a root port loses its link; CXL_LINK is posted, and its accesses end with CXL_TIMEOUT. -/
def execCxlLinkLoss (p : Fin 8) (s : State) : Out :=
  .next (if s.cxlDown.contains p.val then s
    else
      let s := postMgmt { s with cxlDown := s.cxlDown ++ [p.val] } Cause.cxlLink (wordOf p.val)
      dropPort p.val s.wbuf.length s)

/-- CXL_CAPACITY_EVENT (R343): a dynamic-capacity event of a device reaches the control complex. -/
def execCxlCapacityEvent (info : Word) (s : State) : Out := .next (postMgmt s 0 info)

end Sys2Proof.Machine
end

