-- ==== Sys2Proof/Machine/Network.lean ====
section
/-!
DEFINITION. The network engine: NSND and NRCV (R208, R400), records (R389, R398), delivery over UET (R390, R391, R394 to R399), tenants
(R401), completion entries and counters (R402, R403), and bindings to queues (R404 to R406).
-/
namespace Sys2Proof.Machine

open Sys2Proof

/-! ### Configuration -/

/-- Whether the engine runs: EN = 1 and no reserved value in NETCFG (Table 21-4). -/
def netOn (s : State) : Bool :=
  let w := mreg s .netcfg
  bitAt w 63 && decide (bits w 62 61 ≠ 3) && decide (bits w 56 53 ≠ 0) && decide (bits w 52 41 ≠ 0) && decide (bits w 31 0 ≠ 0)

/-- Packet payload bytes. -/
def netPsz (s : State) : Nat := 1024 * 2 ^ bits (mreg s .netcfg) 62 61
/-- The reordering tolerance. -/
def netNrt (s : State) : Nat := bits (mreg s .netcfg) 56 53
/-- The retransmission timeout. -/
def netRto (s : State) : Nat := bits (mreg s .netcfg) 31 0
/-- Word `j` of endpoint table entry `i` (Table 21-5). -/
def nept (s : State) (i j : Nat) : Word := mreg s (.nept (4 * i + j))
/-- Word `j` of region table entry `i` (Table 21-3). -/
def nrgn (s : State) (i j : Nat) : Word := mreg s (.nrgn (4 * i + j))
/-- Word `j` of queue binding `i` (Table 21-6). -/
def nbnd (s : State) (i j : Nat) : Word := mreg s (.nbnd (2 * i + j))

/-- The enabled ports of an endpoint's PMASK, ascending. -/
def netPorts (s : State) (peer : Nat) : List Nat :=
  (countUp 0 4).filter fun p => bitAt (nept s peer 0) (41 + p) && bitAt (mreg s .netcfg) (57 + p)

/-- Whether an Ethernet port carries traffic (Table 21-7). -/
def netUp (s : State) (p : Nat) : Bool := bitAt (mreg s (.npst p)) 0

/-- The slots a tenant uses stand in its quota registers (R400). -/
def syncNtq (s : State) : State :=
  (countUp 0 16).foldl (fun s k =>
    modMreg s (.ntq k) fun w =>
      let used := fun (send : Bool) => (s.netRecs.filter fun r => takesSlot r && decide (r.tenant = bits w 63 48) && (r.send == send)).length
      setBits (setBits w 23 12 (used true)) 11 0 (used false)) s

/-! ### Commands -/

/-- NSND and NRCV at issue (R188, R189, R208, R400): `B` slots are taken at once. -/
def netIssue (d : SDst) (send : Bool) (a b : SSrc) (s : State) : State :=
  withSrcs s 25 [a, b] fun v s =>
    let t := cs s
    let n := (v b).toNat
    let e := extOf t (bits (stgOf t 8 0) 3 0)
    let tenant := taskTenant t.task
    match firstFail [
        failIf (decide (n = 0) || decide (64 < n)) Cause.engGeom,
        engCheck e [0, 2, 3] true false 64 (v a).toNat (64 * n),
        failIf (decide (netSlots s tenant send < n)) Cause.netNoslot] with
    | some code => refuseCmd s d 8 code
    | none =>
      let seq := nextSeq t 8
      let mk := fun (i : Nat) => ({
        key := s.nextMsg + i, send := send, tenant := tenant, queue := taskQueue t.task, core := s.cur, seat := cn s, task := t.task,
        tco := t.tco, seq := seq, ext := e, exts := t.ext, off := (v a).toNat + 64 * i } : NetRec)
      let s := acceptCmd s d 8 0 true
      let s := syncNtq { s with netRecs := s.netRecs ++ (countUp 0 n).map mk, nextMsg := s.nextMsg + n }
      if send then loseCap s t.task else s

/-- NSND (R208, R262). -/
def execNsnd (d : SDst) (a b : SSrc) (s : State) : Out := .next (netIssue d true a b s)
/-- NRCV (R208). -/
def execNrcv (d : SDst) (a b : SSrc) (s : State) : Out := .next (netIssue d false a b s)

/-! ### Records and their ends -/

/-- Word `i` of a record. -/
def recW (r : NetRec) (i : Nat) : Word := lget 0 r.words i
/-- OP or KIND of a record. -/
def recOp (r : NetRec) : Nat := bits (recW r 0) 62 60
/-- Whether a record asks for ROD. -/
def recRod (r : NetRec) : Bool := decide (bits (recW r 0) 59 58 = 1)
/-- PEER of a record. -/
def recPeer (r : NetRec) : Nat := bits (recW r 1) 63 48
/-- LEN of a record. -/
def recLen (r : NetRec) : Nat := bits (recW r 1) 31 0
/-- Its buffer's extent and offset. -/
def recBuf (r : NetRec) : Ext × Nat := (tget {} r.exts (bits (recW r 0) 51 48), bits (recW r 0) 39 0)

/-- Change a record. -/
def modRec (s : State) (key : Nat) (f : NetRec → NetRec) : State :=
  { s with netRecs := s.netRecs.map fun r => if r.key = key then f r else r }

/-- A record. -/
def netRec (s : State) (key : Nat) : Option NetRec := s.netRecs.find? fun r => decide (r.key = key)

/-- Change a PDC. -/
def modPdc (s : State) (id : Nat) (f : Pdc → Pdc) : State :=
  { s with pdcs := s.pdcs.map fun p => if p.id = id then f p else p }

/-- A PDC. -/
def pdcAt (s : State) (id : Nat) : Option Pdc := s.pdcs.find? fun p => decide (p.id = id)

/-- Write bytes the engine owes a task: strong, at package scope (R391, R402). -/
def netStore (s : State) (r : NetRec) (e : Ext) (off : Nat) (bs : List Byte) : State :=
  if e.tier = 0 then modCore s r.core fun k => spadPut k ((spadPlaces e off bs.length).zip bs)
  else strongWrite s (r.core / 96) r.task e.tier (e.base + off) bs

/-- The extent and offset a counter or entry word names, when it is enabled and within the tenant's grants (R389, R401). -/
def recPlace (r : NetRec) (w : Word) (n : Nat) : Option (Ext × Nat) :=
  let e := tget {} r.exts (bits w 43 40)
  let off := bits w 39 0
  if bitAt w 63 && (engCheck e [0, 2, 3] false true n off n).isNone then some (e, off) else none

/-- A slot frees and its command may be complete (R188, R400); a failure posts a notice and may strike the launch (R192, R263, R260,
Table 11-3). -/
def netFree (s : State) (r : NetRec) : State :=
  let s := syncNtq { s with netRecs := s.netRecs.filter fun x => x.key ≠ r.key }
  let more := s.netRecs.any fun x => decide (x.core = r.core) && decide (x.seat = r.seat) && decide (x.task = r.task) && decide (x.seq = r.seq)
  let s := if more then s else dropOutst s r.task r.tco 8
  let s := if r.code = 0 then s
    else match r.phys with
    | some (i, a) =>
      if r.code = Cause.remoteUe then postTask s r.task r.tco r.core r.seat r.code r.detail (wordOf (a / 64 * 64)) (wordOf i)
      else if r.code = Cause.extAbandon then postTask s r.task r.tco r.core r.seat r.code none (wordOf a) (wordOf i)
      else postTask s r.task r.tco r.core r.seat r.code r.detail (statusWord r.code 8 true r.seq r.val) 0
    | none => postTask s r.task r.tco r.core r.seat r.code r.detail (statusWord r.code 8 true r.seq r.val) 0
  match (if r.code = Cause.remoteUe then r.phys else none) with
  | some (t, a) => strike s r.task t a
  | none => s

/-- Whether a record that has ended waits for an earlier one of its ROD PDC (R395, R407): messages complete, and write their entries and counters,
in PSN order. -/
def rodBehind (s : State) (r : NetRec) : Bool :=
  let at_ := fun (x : NetRec) => if x.send then (if x.started then some (x.pdc, x.msg) else none) else x.matched
  match at_ r with
  | none => false
  | some (i, m) => (match pdcAt s i with | some p => p.rod | none => false) && s.netRecs.any fun x =>
      (x.send == r.send) && (match at_ x with | some (j, n) => decide (j = i) && decide (n < m) | none => false)

/-- What is left of a record that has ended (R391, R402): its entry, then its counter; either waits while its extent is revoked or on
demand, or while an earlier record of its ROD PDC is not complete.  A counter in a scratchpad is given to the core's atomic unit. -/
def netFinish (s : State) (key : Nat) : State :=
  match netRec s key with
  | none => s
  | some r =>
    if r.ends = 0 ∨ r.ends = 3 ∨ rodBehind s r then s
    else
      let wait := fun (e : Ext) (s : State) => if e.dm && !e.rv && !r.miss then meetDemandAt s 8 r.core else s
      let counter := fun (r : NetRec) (s : State) =>
        match recPlace r (recW r 3) 8 with
        | none => netFree s r
        | some (e, off) =>
          if !extFree e then wait e s
          else if decide (e.tier = 2) && s.widthBusy ≠ [] then s
          else
            let q := engFetch (if e.tier = 0 then s else flushOver s e.tier (e.base + off) 8) none r.core r.tenant e off 8
            match q.2.1 with
            | some f => netFree q.1 { r with code := if r.code = 0 then f.cause else r.code, phys := f.phys }
            | none =>
              if e.tier = 0 then
                modCore (modRec q.1 key fun x => { x with ends := 3 }) r.core fun k => { k with adds := k.adds ++ [(key, spadPlaces e off 8)] }
              else netFree (netStore q.1 r e off (natBytes 8 (leNat q.2.2 + 1))) r
      if r.ends = 2 then counter r s
      else match recPlace r (recW r 4) 16 with
      | none => counter r (modRec s key fun x => { x with ends := 2 })
      | some (e, off) =>
        if !extFree e then wait e s
        else
          let s := netStore s r e off (natBytes 8 (statusWord r.code 8 true r.seq r.val).toNat ++ natBytes 8 (recW r 5).toNat)
          counter r (modRec s key fun x => { x with ends := 2 })

/-- Go on with the records that have ended: those that wait for an extent (R402, after a REFRESH), and those behind them (R395). -/
def netRetry (s : State) : State :=
  let ks := (s.netRecs.filter fun r => decide (r.ends ≠ 0)).map (·.key)
  ks.foldl (fun s _ => ks.foldl netFinish s) s

/-- Records whose counters the atomic units have incremented are done, and those behind them go on (R395, R402). -/
def netSettle (s : State) : State :=
  let done := s.netRecs.filter fun r => decide (r.ends = 3) && !s.cores.any fun c => c.2.adds.any fun a => decide (a.1 = r.key)
  if done = [] then s else netRetry (done.foldl netFree s)

/-- Bytes that a record has transferred (R389): those placed, or of the packets that have been acknowledged without a refusal. -/
def netMoved (s : State) (r : NetRec) : Nat :=
  if !r.send then min r.got (recLen r)
  else if !r.started then 0
  else
    let left := match pdcAt s r.pdc with
      | some p => ((p.out.filter fun o => decide (o.msg = r.msg) && !o.sacked).map (·.len)).foldl (· + ·) 0
      | none => 0
    recLen r - left - r.lost

/-- A record ends with a code (R389, R391): the packets it has still to send are not sent; a failed one frees its slot (R400). -/
def netEnd (s : State) (key code val : Nat) (detail : Option Nat) (phys : Option (Nat × Nat)) : State :=
  match netRec s key with
  | none => s
  | some r =>
    if r.ends ≠ 0 then s
    else
      let s := modRec s key fun x => { x with ends := 1, code := code, val := val, detail := detail, phys := phys }
      let s := if r.send ∧ r.started then modPdc s r.pdc fun p => { p with out := p.out.filter fun o => o.msg ≠ r.msg } else s
      netRetry (syncNtq s)

/-- A record fails: VAL counts the bytes transferred until then (R389). -/
def netFail (s : State) (key code : Nat) (detail : Option Nat) (phys : Option (Nat × Nat)) : State :=
  netEnd s key code (match netRec s key with | some r => netMoved s r | none => 0) detail phys

/-- The engine reads the words of a record: the state, what fails, the words. -/
def readRec (s : State) (r : NetRec) : State × Option EngFail × List Word :=
  let q := engFetch s none r.core r.tenant r.ext r.off 64
  (q.1, q.2.1, wordsOf q.2.2)

/-- A record is cancelled (R403): one that has not been read is read first, so that its entry and counter are written; it waits for that while its
extent is revoked or on demand. -/
def cancelRec (s : State) (key : Nat) : State :=
  match netRec s key with
  | none => s
  | some r =>
    if r.words ≠ [] then netFail s key Cause.engCancel none none
    else if !extFree r.ext then modRec s key fun x => { x with cancel := true }
    else
      let q := readRec s r
      match q.2.1 with
      | some _ => netFail q.1 key Cause.engCancel none none
      | none => netFail (modRec q.1 key fun x => { x with words := q.2.2 }) key Cause.engCancel none none

/-- TEARDOWN or RESET of a queue cancels its receives and its sends that are not acknowledged (R403). -/
def netCancel (s : State) (q : Nat) : State :=
  ((s.netRecs.filter fun r => decide (r.queue = q) && decide (r.ends = 0)).map (·.key)).foldl cancelRec s

/-! ### Starting a record -/

/-- The fields of a record that the engine checks (R389, Table 20-2). -/
def recRsvd (send : Bool) (w : Nat → Word) : Bool :=
  let op := bits (w 0) 62 60
  !bitAt (w 0) 63 || decide (bits (w 0) 57 52 ≠ 0) || decide (bits (w 0) 47 40 ≠ 0) || decide (bits (w 1) 47 32 ≠ 0) ||
  (if send then decide (3 ≤ op) || decide (2 ≤ bits (w 0) 59 58) else decide (2 ≤ op) || decide (bits (w 0) 59 58 ≠ 0)) ||
  (decide (op = 0) && decide (w 2 ≠ 0)) ||
  decide (bits (w 1) 31 0 = 0) || decide (2 ^ 24 < bits (w 1) 31 0) ||
  decide (bits (w 3) 62 44 ≠ 0) || decide (bits (w 4) 62 44 ≠ 0) || decide (bits (w 3) 39 0 % 8 ≠ 0) ||
  decide (bits (w 4) 39 0 % 16 ≠ 0) || decide (w 6 ≠ 0) || decide (w 7 ≠ 0)

/-- What fails a record as it is read (R389, R396, R401, Table 21-5). -/
def recCheck (s : State) (r : NetRec) : Option Nat :=
  let peer := recPeer r
  let e := nept s peer 0
  let b := recBuf r
  firstFail [
    failIf (!netOn s) Cause.netLink,
    failIf (recRsvd r.send (recW r)) Cause.netWrRsvd,
    failIf ((r.send || decide (peer ≠ 0xFFFF)) && (decide (1024 ≤ peer) || !bitAt e 63)) Cause.netPeer,
    failIf ((r.send || decide (peer ≠ 0xFFFF)) && decide (bits e 62 47 ≠ r.tenant)) Cause.netTenant,
    failIf (r.send && !bitAt e (if recRod r then 46 else 45)) Cause.netPeer,
    failIf (r.send && (netPorts s peer).isEmpty) Cause.netLink,
    failIf ((engCheck b.1 [0, 2, 3] r.send (!r.send) 1 b.2 (recLen r)).isSome ||
      (bitAt (recW r 3) 63 && (recPlace r (recW r 3) 8).isNone) || (bitAt (recW r 4) 63 && (recPlace r (recW r 4) 16).isNone))
      Cause.netTenant]

/-- Cut a message into packets of consecutive PSNs (R390).  The first number bounds them. -/
def cutPackets (psz msg len : Nat) : Nat → Nat → Nat → List OutPkt
  | 0, _, _ => []
  | n + 1, psn, off =>
    if len ≤ off then []
    else { psn := psn, msg := msg, off := off, len := min psz (len - off) } :: cutPackets psz msg len n (psn + 1) (off + psz)

/-- The PDC of a tenant, peer and mode: made at its first packet, at most 4,096 (R394). -/
def pdcFor (s : State) (tenant peer : Nat) (rod : Bool) : Option Pdc × State :=
  match s.pdcs.find? fun p => decide (p.tenant = tenant) && decide (p.peer = peer) && (p.rod == rod) with
  | some p => (some p, s)
  | none =>
    if 4096 ≤ s.pdcs.length then (none, s)
    else
      let p : Pdc := { id := s.nextPdc, tenant := tenant, peer := peer, rod := rod, lastUse := s.gts }
      (some p, { s with pdcs := s.pdcs ++ [p], nextPdc := s.nextPdc + 1,
                        timers := s.timers ++ [(s.gts + 2 ^ 26, .pdcClose s.nextPdc)] })

/-- A send takes its PSNs on its PDC (R390, R398). -/
def startSend (s : State) (r : NetRec) : State :=
  match pdcFor s r.tenant (recPeer r) (recRod r) with
  | (none, s) => s
  | (some p, s) =>
    let m := s.nextMsg
    let ps := cutPackets (netPsz s) m (recLen r) (recLen r / netPsz s + 1) p.nextPsn 0
    let s := modPdc { s with nextMsg := m + 1 } p.id fun p =>
      { p with nextPsn := p.nextPsn + ps.length, out := p.out ++ ps, lastUse := s.gts,
               queues := if p.queues.contains r.queue then p.queues else p.queues ++ [r.queue] }
    modRec s r.key fun x => { x with started := true, pdc := p.id, msg := m, lost := 0 }

/-- Start a record that has been read (R398): a receive is posted, a send takes its PSNs. -/
def startRec (s : State) (key : Nat) : State :=
  match netRec s key with
  | none => s
  | some r =>
    match recCheck s r with
    | some c => netFail s key c none none
    | none =>
      if r.cancel then netFail s key Cause.engCancel none none
      else if !r.send then
        modRec { s with nextMsg := s.nextMsg + 1 } key fun x => { x with started := true, order := s.nextMsg }
      else startSend s r

/-- Whether a record may be read: no earlier one of its seat is unread, and its extent is neither revoked nor waiting after a failed
demand walk (R398). -/
def recNext (earlier : List NetRec) (r : NetRec) : Bool :=
  !r.started && decide (r.ends = 0) && !r.ext.rv && !(r.ext.dm && r.miss) &&
  !earlier.any fun x => !x.started && decide (x.ends = 0) && decide (x.core = r.core) && decide (x.seat = r.seat)

/-- The first record that may be read. -/
def firstRec : List NetRec → List NetRec → Option NetRec
  | _, [] => none
  | seen, r :: t => if recNext seen r then some r else firstRec (seen ++ [r]) t

/-- NET_RECORD_START (R338, R389, R398, R400, R401): the engine reads the next record and starts it, or fails it. -/
def execNetRecordStart (s : State) : Out :=
  .next (match firstRec [] s.netRecs with
    | none => s
    | some r =>
      if s.engBad.contains (8, 0) then netFail { s with engBad := s.engBad.erase (8, 0) } r.key Cause.engUe none none
      else if r.ext.tier = 2 ∧ s.widthBusy ≠ [] then s
      else if r.ext.dm then meetDemandAt s 8 r.core
      else
        let q := readRec s r
        match q.2.1 with
        | some f => netFail q.1 r.key f.cause f.detail f.phys
        | none => startRec (modRec q.1 r.key fun x => { x with words := q.2.2 }) r.key)

/-! ### The sender -/

/-- The packets in flight of a PDC. -/
def inFlight (p : Pdc) : Nat := (p.out.filter fun o => o.sentAt.isSome && !o.sacked).length

/-- Change a packet that waits at a sender. -/
def modPkt (s : State) (id psn : Nat) (f : OutPkt → OutPkt) : State :=
  modPdc s id fun p => { p with out := p.out.map fun o => if o.psn = psn then f o else o }

/-- The port by which a packet leaves (R395, R397): RUD sprays over the ports of PMASK that are up, round-robin in PSN order; ROD uses one port. -/
def portFor (s : State) (p : Pdc) (psn : Nat) : Option Nat :=
  let ps := netPorts s p.peer
  let up := ps.filter (netUp s)
  if p.rod then (if ps ≠ [] then (let x := lget 4 ps (p.id % ps.length); if netUp s x then some x else none) else none)
  else if up ≠ [] then some (lget 4 up (psn % up.length)) else none

/-- A PDC has traffic on a port. -/
def usePort (s : State) (id port : Nat) : State :=
  modPdc s id fun p => { p with lastUse := s.gts, ports := if p.ports.contains port then p.ports else p.ports ++ [port] }

/-- PACKET_SEND (R390, R394, R395, R397): a packet leaves by its port, its source read as it is sent; when congestion control lets it
leave is open (log 5), within the window's cap. -/
def execPacketSend (i psn : Nat) (port : Fin 4) (s : State) : Out :=
  .next (match pdcAt s i with
    | none => s
    | some p =>
      match p.out.find? fun o => decide (o.psn = psn) && o.sentAt.isNone && !o.sacked with
      | none => s
      | some o =>
        if !netOn s || decide (portFor s p psn ≠ some port.val) || decide (bits (mreg s .netcfg) 52 41 ≤ inFlight p) ||
            (p.rod && p.out.any fun x => decide (x.psn < psn) && x.sentAt.isNone && !x.sacked) then s
        else match s.netRecs.find? fun r => r.send && r.started && decide (r.pdc = i) && decide (r.msg = o.msg) && decide (r.ends = 0) with
        | none => s
        | some r =>
          let b := recBuf r
          if b.1.rv ∨ (b.1.tier = 2 ∧ s.widthBusy ≠ []) then s
          else if b.1.dm then (if r.miss then s else meetDemandAt s 8 r.core)
          else
            let q := engFetch s none r.core r.tenant b.1 (b.2 + o.off) o.len
            match q.2.1 with
            | some f => netFail q.1 r.key f.cause f.detail f.phys
            | none =>
              let s := if inFlight p = 0 then modPdc q.1 i fun x => { x with prog := s.gts } else q.1
              let k : Packet :=
                { addrLo := nept s p.peer 2, addrHi := nept s p.peer 3, rpid := p.tenant, job := bits (nept s p.peer 0) 23 0,
                  port := port.val, ecn := false, rod := p.rod, psn := psn, msg := o.msg, op := recOp r, tag := recW r 2,
                  len := recLen r, off := o.off, data := q.2.2 }
              let s := modPkt s i psn fun x => { x with sentAt := some s.gts }
              let s := usePort s i port.val
              { s with pkts := s.pkts ++ [k] })

/-- Messages whose every packet is acknowledged complete, in the order of their numbers (R391, R395, R396). -/
def sendsDone (s : State) (i : Nat) : State :=
  match pdcAt s i with
  | none => s
  | some p =>
    let done := s.netRecs.filter fun r => r.send && r.started && decide (r.pdc = i) && decide (r.ends = 0) &&
      !p.out.any fun o => decide (o.msg = r.msg) && !o.sacked
    done.foldl (fun s r => netEnd s r.key r.code (netMoved s r) none none) s

/-- A packet has to be sent again (R390); one that has been resent 8 times fails its message. -/
def resend (s : State) (i : Nat) (sel : Bool) (o : OutPkt) : State :=
  if 8 ≤ o.resends then
    match s.netRecs.find? fun r => r.send && r.started && decide (r.pdc = i) && decide (r.msg = o.msg) && decide (r.ends = 0) with
    | some r => netFail s r.key (if o.lastNack then Cause.netRecv else Cause.netTimeout) none none
    | none => s
  else modPkt s i o.psn fun x => { x with sentAt := none, resends := x.resends + 1, selDone := x.selDone || sel }

/-- Resend every unacknowledged packet of a PDC that has been sent, in PSN order (R395). -/
def goBack (s : State) (i : Nat) : State :=
  match pdcAt s i with
  | none => s
  | some p => (p.out.filter fun o => o.sentAt.isSome && !o.sacked).foldl (fun s o => resend s i false o) s

/-- The endpoint table entry that a source's address, process and job match (R401). -/
def srcOf (s : State) (addrLo addrHi : Word) (rpid job : Nat) : Option Nat :=
  (countUp 0 1024).find? fun i =>
    bitAt (nept s i 0) 63 && decide (nept s i 2 = addrLo) && decide (nept s i 3 = addrHi) &&
    decide (bits (nept s i 1) 15 0 = rpid) && decide (bits (nept s i 0) 23 0 = job)

/-- Count a discarded frame at a port (R394, R401). -/
def netDrop (s : State) (p : Nat) : State := modMreg s (.npst p) fun w => setBits w 63 32 (bits w 63 32 + 1)

/-- The peer has refused a packet: its message's record ends with NET_REMOTE once its packets are acknowledged (R396, R399). -/
def remoteErr (id : Nat) (s : State) (psn : Nat) : State :=
  match (pdcAt s id).bind fun p => p.out.find? fun (o : OutPkt) => decide (o.psn = psn) && !o.bad with
  | none => s
  | some o =>
    let f := fun (r : NetRec) =>
      if r.send ∧ r.started ∧ r.pdc = id ∧ r.msg = o.msg ∧ r.ends = 0 then { r with code := Cause.netRemote, lost := r.lost + o.len } else r
    modPkt { s with netRecs := s.netRecs.map f } id psn fun x => { x with bad := true }

/-- An acknowledgement from a PDC's peer (R390, R391, R395, R396, R399). -/
def takeAck (s : State) (p : Pdc) (a : UAck) : State :=
  let s := modPdc s a.pdc fun p => { p with lastUse := s.gts }
  match a.nack with
  | some psn => modPkt s a.pdc psn fun o => { o with lastNack := true }
  | none =>
    let s := a.errs.foldl (remoteErr a.pdc) s
    let got := fun (psn : Nat) => decide (psn < a.cack) || (decide (psn < a.cack + 64) && bitAt a.sack (psn - a.cack))
    let new := p.out.any fun o => !o.sacked && (o.sentAt.isSome || decide (0 < o.resends)) && got o.psn
    let mark := fun (o : OutPkt) => if (o.sentAt.isSome ∨ 0 < o.resends) ∧ got o.psn then { o with sacked := true } else o
    let s := modPdc s a.pdc fun p =>
      { p with out := p.out.map mark, prog := if new then s.gts else p.prog,
               sameCack := (if p.lastCack = some a.cack then p.sameCack + 1 else 0), lastCack := some a.cack }
    let s := sendsDone s a.pdc
    let s := modPdc s a.pdc fun p => { p with out := p.out.filter fun o => !(o.sacked && decide (o.psn < a.cack)) }
    match pdcAt s a.pdc with
    | none => s
    | some p =>
      if p.rod then (if p.sameCack = netNrt s then goBack s p.id else s)
      else
        let above := fun (psn : Nat) => ((countUp 0 64).filter fun j => bitAt a.sack j && decide (psn < a.cack + j)).length
        (p.out.filter fun o => o.sentAt.isSome && !o.sacked && !o.selDone && decide (a.cack ≤ o.psn) && decide (netNrt s ≤ above o.psn)).foldl
          (fun s o => resend s p.id true o) s

/-- UET_ACK (R390, R391, R395, R396, R399, R401): an acknowledgement, a refusal or a report that no receive is posted reaches the sender; one
whose source no endpoint entry matches is discarded and counted. -/
def execUetAck (a : UAck) (s : State) : Out :=
  .next (if !netOn s || decide (4 ≤ a.port) then s
    else match srcOf s a.addrLo a.addrHi a.rpid a.job with
    | none => netDrop s a.port
    | some e =>
      match pdcAt s a.pdc with
      | none => s
      | some p => if p.peer ≠ e then s else takeAck s p a)

/-- The packets, or the ROD PDCs by their first packet in flight, whose time RTO is over in this cycle (R390, R395). -/
def rtoDue (s : State) : List Instr :=
  if !netOn s then [] else s.pdcs.flatMap fun p =>
    let fly := p.out.filter fun o => o.sentAt.isSome && !o.sacked
    if p.rod then
      match fly with
      | [] => []
      | o :: _ => if p.prog + netRto s ≤ s.gts then [.rtoExpire p.id o.psn] else []
    else (fly.filter fun o => match o.sentAt with | some g => decide (g + netRto s ≤ s.gts) | none => false).map fun o => .rtoExpire p.id o.psn

/-- RTO_EXPIRE (R390, R395): a packet has stayed unacknowledged for RTO, or a ROD PDC has made no progress for RTO. -/
def execRtoExpire (i psn : Nat) (s : State) : Out :=
  .next (match pdcAt s i with
    | none => s
    | some p =>
      match p.out.find? fun o => decide (o.psn = psn) && !o.sacked with
      | none => s
      | some o =>
        match o.sentAt with
        | none => s
        | some g =>
          if s.gts < (if p.rod then p.prog else g) + netRto s then s
          else if p.rod then goBack s i
          else resend s i false o)

/-! ### The receiver -/

/-- The endpoint table entry a packet comes from (R401). -/
def srcEntry (s : State) (p : Packet) : Option Nat := srcOf s p.addrLo p.addrHi p.rpid p.job

/-- Advance CACK over what has been received. -/
def advanceCack (fuel cack : Nat) (seen : List Nat) : Nat × List Nat :=
  match fuel with
  | 0 => (cack, seen)
  | f + 1 => if seen.contains cack then advanceCack f (cack + 1) (seen.filter (· ≠ cack)) else (cack, seen)

/-- A PSN has been received (R390, R395). -/
def markSeen (s : State) (id psn : Nat) : State :=
  modPdc s id fun p =>
    let r := advanceCack (p.seen.length + 1) p.cack (psn :: p.seen)
    { p with cack := r.1, seen := r.2 }

/-- Answer a packet (R390, R391, R395, R396, R401): every answer of a PDC carries the marks of what it has refused, so that a duplicate's answer or
a later CACK marks it too, and the process identifier is the PDC's tenant. -/
def sendAck (s : State) (id port : Nat) (nack : Option Nat) : State :=
  match pdcAt s id with
  | none => s
  | some p =>
    let sack := if p.rod then 0 else (p.seen.filter fun x => decide (p.cack ≤ x) && decide (x < p.cack + 64)).foldl
      (fun w x => setBits w (x - p.cack) (x - p.cack) 1) 0
    { s with uacks := s.uacks ++ [{ addrLo := nept s p.peer 2, addrHi := nept s p.peer 3, rpid := p.tenant, job := bits (nept s p.peer 0) 23 0,
                                    port := port, pdc := id, cack := p.cack, sack := sack, nack := nack, errs := p.refused }] }

/-- Receive a packet and acknowledge it; `err` marks a refusal. -/
def takePacket (s : State) (id port psn : Nat) (err : Bool) : State :=
  let s := if err then modPdc s id fun p => { p with refused := psn :: p.refused } else s
  sendAck (markSeen s id psn) id port none

/-- Whether a PEER field lets an endpoint entry match (Table 20-2). -/
def peerFits (want peer : Nat) : Bool := decide (want = 0xFFFF) || decide (want = peer)

/-- The oldest posted receive that a message matches (R391, R399). -/
def matchRecv (s : State) (tenant peer : Nat) (k : Packet) : Option NetRec :=
  let fits := s.netRecs.filter fun r => !r.send && r.started && decide (r.ends = 0) && r.matched.isNone && decide (r.tenant = tenant) &&
    peerFits (recPeer r) peer && decide (recOp r = k.op) && (decide (k.op = 0) || decide (recW r 2 = k.tag))
  fits.foldl (fun a r => match a with | none => some r | some b => if r.order < b.order then some r else some b) none

/-- Place a packet of a send in its receive (R391, R399). -/
def placeSend (s : State) (id : Nat) (k : Packet) (r : NetRec) : State :=
  let b := recBuf r
  if b.1.rv then s
  else if b.1.dm then (if r.miss then s else meetDemandAt s 8 r.core)
  else if stageOff s b.1.tier then takePacket (netFail s r.key Cause.peerDown none none) id k.port k.psn true
  else
    let len := recLen r
    let bs := k.data.take (len - k.off)
    let s := if bs = [] then s else netStore s r b.1 (b.2 + k.off) bs
    let s := modRec s r.key fun x => { x with got := x.got + k.data.length }
    let long := decide (len < k.len)
    let s := takePacket s id k.port k.psn long
    if k.len ≤ r.got + k.data.length then
      let s := modPdc s id fun p => { p with rx := p.rx.filter fun x => x.2 ≠ r.key }
      netEnd s r.key (if long then Cause.netTrunc else 0) (min len k.len) none none
    else s

/-- A packet of a send or a tagged send for a posted receive (R391). -/
def arriveSend (s : State) (p : Pdc) (k : Packet) : State :=
  match p.rx.find? fun x => decide (x.1 = k.msg) with
  | some (_, key) =>
    (match netRec s key with
     | some r => if r.ends = 0 then placeSend s p.id k r else takePacket s p.id k.port k.psn true
     | none => takePacket s p.id k.port k.psn true)
  | none =>
    match matchRecv s p.tenant p.peer k with
    | none => sendAck s p.id k.port (some k.psn)
    | some r =>
      let s := modPdc s p.id fun x => { x with rx := x.rx ++ [(k.msg, r.key)] }
      let s := modRec s r.key fun x => { x with matched := some (p.id, k.msg), total := k.len }
      match netRec s r.key with
      | some r => placeSend s p.id k r
      | none => s

/-- Whether a region table entry refuses an RMA write (R396, Table 21-3), or its tier does (R415). -/
def rmaRefused (s : State) (tenant : Nat) (k : Packet) : Bool :=
  let i := bits k.tag 63 56
  let w := nrgn s i 0
  !bitAt w 63 || !([0, 2, 3].contains (bits w 46 44)) || decide (bits w 33 16 ≠ 0) || decide (bits (nrgn s i 1) 63 40 ≠ 0) ||
  decide (bits (nrgn s i 2) 63 40 ≠ 0) || decide (bits (nrgn s i 3) 63 40 ≠ 0) || decide (bits w 62 47 ≠ tenant) ||
  decide (bits w 15 0 ≠ bits k.tag 55 40) || decide (bits (nrgn s i 2) 39 0 < bits k.tag 39 0 + k.len) ||
  (decide (bits w 46 44 = 0) && decide (96 ≤ bits w 41 35)) || stageOff s (bits w 46 44)

/-- Write into a region: strong, at package scope (R396). -/
def rgnWrite (s : State) (i a : Nat) (bs : List Byte) : State :=
  let w := nrgn s i 0
  if bits w 46 44 = 0 then
    modCore s (bits w 43 42 * 96 + bits w 41 35) fun k => spadPut k (((countUp a bs.length).map (· % 2 ^ 22)).zip bs)
  else unitWrite s (bits w 46 44) a bs

/-- The counter of a region is incremented (R396, R402): by the core's atomic unit, or at its ordering point. -/
def rgnAdd (s : State) (i : Nat) : State :=
  let w := nrgn s i 0
  let a := bits (nrgn s i 3) 39 0
  if bits w 46 44 = 0 then
    modCore s (bits w 43 42 * 96 + bits w 41 35) fun k => { k with adds := k.adds ++ [(0, (countUp a 8).map (· % 2 ^ 22))] }
  else
    let s := flushOver s (bits w 46 44) a 8
    rgnWrite s i a (natBytes 8 (leNat (cellsAt (tierMem s (bits w 46 44)) a 8) + 1))

/-- A packet of an RMA write (R396). -/
def arriveRma (s : State) (p : Pdc) (k : Packet) : State :=
  let i := bits k.tag 63 56
  let old := s.rma.find? fun x => decide (x.pdc = p.id) && decide (x.msg = k.msg)
  let cur : RmaIn := old.getD { pdc := p.id, msg := k.msg, got := 0, refused := false }
  let bad := cur.refused || rmaRefused s p.tenant k
  let cur := { cur with got := cur.got + k.data.length, refused := bad }
  let rest := s.rma.filter fun x => !(decide (x.pdc = p.id) && decide (x.msg = k.msg))
  let s := { s with rma := if k.len ≤ cur.got then rest else rest ++ [cur] }
  let s := if bad then s else rgnWrite s i (bits (nrgn s i 1) 39 0 + bits k.tag 39 0 + k.off) k.data
  let s := if !bad ∧ k.len ≤ cur.got ∧ bitAt (nrgn s i 0) 34 then rgnAdd s i else s
  takePacket s p.id k.port k.psn bad

/-- The binding that a tagged send selects (R404). -/
def bindingOf (s : State) (tenant : Nat) (k : Packet) : Option Nat :=
  if k.op ≠ 1 then none
  else (countUp 0 16).find? fun i => bitAt (nbnd s i 0) 63 && decide (bits (nbnd s i 0) 39 0 = 0) && decide (bits (nbnd s i 0) 62 47 = tenant) &&
    decide (nbnd s i 1 = k.tag) && (!bitAt (nbnd s i 0) 46 || decide (bits (nbnd s i 0) 45 40 < 16))

/-- The bytes of a message from its packets' parts. -/
def joinParts : Nat → Nat → List (Nat × List Byte) → List Byte
  | 0, _, _ => []
  | n + 1, off, l =>
    match l.find? fun x => decide (x.1 = off) with
    | some (_, bs) => if bs = [] then [] else bs ++ joinParts n (off + bs.length) l
    | none => []

/-- The 64-byte records of a message. -/
def recordsOf : Nat → List Byte → List (List Byte)
  | 0, _ => []
  | n + 1, bs => if bs = [] then [] else bs.take 64 :: recordsOf n (bs.drop 64)

/-- Whether a command queue takes launch records from a tenant's wire (R405). -/
def queueTakes (s : State) (q tenant : Nat) : Bool :=
  let w := mreg s (.qcfg q)
  bitAt w 43 && bitAt w 41 && decide (bits w 63 48 = tenant)

/-- The slots of a launch ring that messages which wait for their delivery will take (R405). -/
def boundSlots (s : State) (q : Nat) : Nat :=
  ((s.bound.filter fun x => x.last.isSome && !bitAt (nbnd s x.nb 0) 46 && decide (bits (nbnd s x.nb 0) 45 40 = q)).map
    fun x => x.total / 64).foldl (· + ·) 0

/-- A bound message whose last packet is here (R404 to R406): a request record enters its gather queue at once; a launch record waits
for its delivery, for which the ring must have room. -/
def boundWhole (s : State) (p : Pdc) (k : Packet) (b : BoundMsg) : State :=
  let w := nbnd s b.nb 0
  let q := bits w 45 40
  let n := b.total / 64
  let rest := s.bound.filter fun x => !(decide (x.pdc = b.pdc) && decide (x.msg = b.msg))
  if bitAt w 46 then
    let rs := recordsOf (n + 1) (joinParts (b.got.length + 1) 0 b.got)
    takePacket (rs.foldl (fun s r => gqArrive s k.port q r) { s with bound := rest }) p.id k.port k.psn false
  else if !queueTakes s q p.tenant then
    takePacket (postQueue { s with bound := rest } q 0 Cause.netLaunch none k.tag 0) p.id k.port k.psn true
  else if (bits (qrsvOf s q) 31 0 + 2 ^ 32 - bits (mreg s (.qcons q)) 31 0) % 2 ^ 32 + boundSlots s q + n ≤ ringSize s q then
    { s with bound := rest ++ [{ b with last := some (k.port, k.psn) }] }
  else s

/-- A packet of a message for a binding (R404). -/
def arriveBound (s : State) (p : Pdc) (k : Packet) (nb : Nat) : State :=
  if k.len = 0 ∨ k.len % 64 ≠ 0 ∨ 4096 < k.len then takePacket s p.id k.port k.psn true
  else
    let old := s.bound.find? fun x => decide (x.pdc = p.id) && decide (x.msg = k.msg)
    let b : BoundMsg := old.getD { pdc := p.id, msg := k.msg, nb := nb, total := k.len, got := [], last := none }
    if b.last.isSome then s
    else
      let b := { b with got := b.got ++ [(k.off, k.data)] }
      if b.total ≤ (b.got.map fun x => x.2.length).foldl (· + ·) 0 then boundWhole s p k b
      else
        let rest := s.bound.filter fun x => !(decide (x.pdc = p.id) && decide (x.msg = k.msg))
        takePacket { s with bound := rest ++ [b] } p.id k.port k.psn false

/-- PACKET_ARRIVE (R416: not during a checkpoint; R390, R391, R394 to R396, R399, R401, R404): a packet reaches a port. -/
def execPacketArrive (k : Packet) (s : State) : Out :=
  .next (
    if !netOn s || decide (4 ≤ k.port) || s.ckpt.isSome then s
    else
      if k.absent then netDrop s k.port else
      let s := if k.ecn then modMreg s (.npst k.port) fun w => setBits w 31 16 (bits w 31 16 + 1) else s
      match srcEntry s k with
      | none => netDrop s k.port
      | some e =>
        if !bitAt (nept s e 0) (if k.rod then 46 else 45) || decide (3 ≤ k.op) then netDrop s k.port
        else match pdcFor s (bits (nept s e 0) 62 47) e k.rod with
        | (none, s) => s
        | (some p, s) =>
          let s := usePort s p.id k.port
          if k.psn < p.cack ∨ p.seen.contains k.psn then sendAck s p.id k.port none
          else if p.rod ∧ k.psn ≠ p.cack then sendAck s p.id k.port none
          else if k.op = 2 then arriveRma s p k
          else match bindingOf s p.tenant k with
          | some nb => arriveBound s p k nb
          | none => arriveSend s p k)

/-- The words of a launch record written into its slot: words 1 to 7 before word 0 (R405). -/
def putRecord (s : State) (t a : Nat) (r : List Byte) : State :=
  unitWrite (unitWrite s t (a + 8) (r.drop 8)) t a (r.take 8)

/-- Write launch records from slot index `i` on. -/
def putRecords (t base size : Nat) : Nat → List (List Byte) → State → State
  | _, [], s => s
  | i, r :: rs, s => putRecords t base size (i + 1) rs (putRecord s t (base + 64 * (i % size)) r)

/-- LAUNCH_DELIVER (R404, R405): the records of a whole bound message enter their launch ring; then its last packet is
acknowledged.  It waits during a checkpoint (R416), and while the ring's tier is out of D0 (R415). -/
def execLaunchDeliver (i : Nat) (s : State) : Out :=
  .next (match lget none (s.bound.map some) i with
    | none => s
    | some b =>
      match b.last with
      | none => s
      | some (port, psn) =>
        let q := bits (nbnd s b.nb 0) 45 40
        let ring := ringOf (mreg s (.qring q))
        if s.ckpt.isSome || stageOff s ring.1 then s else
        let rs := recordsOf (b.total / 64 + 1) (joinParts (b.got.length + 1) 0 b.got)
        let old := (qrsvOf s q).toNat
        let s := setQrsv s q (wordOf (old + rs.length))
        let s := if [2, 3, 5].contains ring.1 then putRecords ring.1 ring.2 (ringSize s q) old rs s else s
        takePacket { s with bound := s.bound.erase b } b.pdc port psn false)

/-- A PDC closes (R394): what it has received in part is forgotten, and messages that it has not sent wholly are cut anew for the PDC that their
next packets make (DESIGN CHOICE, log 28). -/
def closePdc (s : State) (p : Pdc) : State :=
  let open_ := fun (r : NetRec) => decide (r.ends = 0) && (match r.matched with | some (i, _) => decide (i = p.id) | none => false)
  let sends := s.netRecs.filter fun r => r.send && r.started && decide (r.pdc = p.id) && decide (r.ends = 0)
  let s := { s with pdcs := s.pdcs.filter fun x => decide (x.id ≠ p.id), rma := s.rma.filter fun x => decide (x.pdc ≠ p.id),
                    bound := s.bound.filter fun x => decide (x.pdc ≠ p.id),
                    netRecs := s.netRecs.map fun r => if open_ r then { r with matched := none, got := 0, total := 0 } else r }
  sends.foldl (fun s r => startSend (modRec s r.key fun x => { x with started := false }) r) s

/-- PDC_CLOSE (R394): a PDC without traffic for 2^26 cy closes; else it is looked at again. -/
def execPdcClose (i : Nat) (s : State) : Out :=
  .next (match pdcAt s i with
    | none => s
    | some p =>
      if p.lastUse + 2 ^ 26 ≤ s.gts then closePdc s p
      else { s with timers := s.timers ++ [(max (p.lastUse + 2 ^ 26) (s.gts + 1), .pdcClose i)] })

/-- NET_PORT_DOWN (R397): an Ethernet port loses its link; every queue with a PDC that used it is told. -/
def execNetPortDown (p : Fin 4) (s : State) : Out :=
  .next (
    if !netUp s p.val then s
    else
      let s := modMreg s (.npst p.val) fun w => setBits w 0 0 0
      let qs := ((s.pdcs.filter fun x => x.ports.contains p.val).map (·.queues)).flatten.eraseDups
      qs.foldl (fun s q => postQueue s q 0 Cause.netLink none 0 0) s)

/-- NET_PORT_UP (R397): an Ethernet port carries traffic; until the package has booted the ports are powered down (R410). -/
def execNetPortUp (p : Fin 4) (s : State) : Out :=
  .next (if booted s then modMreg s (.npst p.val) fun w => setBits w 0 0 1 else s)

end Sys2Proof.Machine
end

