-- ==== Sys2Proof/Machine/Tier.lean ====
section
/-!
DEFINITION. The tier engine: the tier port's commands (R202), itineraries (R346, R347), hops, straits and reruns (R334, R348 to R350),
archipelagos (R329), lateness and pacing (R235, R351, R352), and weight replacement (R353, R354).
-/
namespace Sys2Proof.Machine

open Sys2Proof

/-! ### Streams and entries -/

/-- A stream. -/
def strAt (s : State) (t : Nat) : Stream := tget {} s.streams t

/-- Change a stream. -/
def modStr (s : State) (t : Nat) (f : Stream → Stream) : State := { s with streams := tput t (f (strAt s t)) s.streams }

/-- The words of an entry that has been read. -/
def entOf (x : Stream) (i : Nat) : Option (List Word) := (x.ents.find? fun e => decide (e.1 = i)).map (·.2)

/-- A field of an entry (Table 17-3). -/
def entBits (w : List Word) (i hi lo : Nat) : Nat := bits (lget 0 w i) hi lo

/-- The bytes of a shard. -/
def shardLen (w : List Word) : Nat := entBits w 0 15 4 * 512

/-- The virtual addresses of a shard: source, H0 landing area, H1 stage area. -/
def shardVa (w : List Word) (k : Nat) : Nat := entBits w k 63 16 * 512

/-- Whether a hop of a shard is made (R347). -/
def hopMade (w : List Word) (h : Nat) : Bool := decide (h = 2) || decide (shardVa w (h + 1) ≠ 0)

/-- The hop before a hop of a shard, when there is one. -/
def hopBefore (w : List Word) (h : Nat) : Option Nat :=
  if h = 2 then (if hopMade w 1 then some 1 else if hopMade w 0 then some 0 else none)
  else if h = 1 then (if hopMade w 0 then some 0 else none) else none

/-- The source of a hop: its virtual address and the tier it must be in (R347). -/
def hopSrcOf (w : List Word) (h : Nat) : Nat × Nat :=
  match hopBefore w h with
  | some 1 => (shardVa w 2, 2)
  | some _ => (shardVa w 1, 3)
  | none => (shardVa w 0, if hopMade w 0 then 4 else if hopMade w 1 then 3 else 2)

/-- The consumers of a shard (Table 17-3): die × 96 + core. -/
def consumers (w : List Word) : List Nat := countUp (entBits w 3 14 13 * 96 + entBits w 3 12 6) (entBits w 3 5 0 + 1)

/-- When a shard is due at a hop (R346). -/
def dueOf (x : Stream) (w : List Word) (h : Nat) : Nat :=
  let d0 := (x.origin + wordOf (entBits w 3 63 32)).toNat
  if h = 0 then d0 else if h = 1 then d0 + entBits w 1 15 0 else d0 + entBits w 1 15 0 + entBits w 2 15 0

/-- The state of a hop of a shard: 0 not started, 1 started, 2 landed. -/
def hopSt (x : Stream) (i h : Nat) : Nat := tget 0 x.hops (3 * i + h)

/-- Set the state of a hop. -/
def setHop (x : Stream) (i h v : Nat) : Stream := { x with hops := tput (3 * i + h) v x.hops }

/-! ### Groups -/

/-- The leader of a multicast group and its members (Table 15-6). -/
def groupOf (s : State) (g : Nat) : Nat × List Nat :=
  let w0 := mreg s (.mcast (4 * g))
  let w1 := mreg s (.mcast (4 * g + 1))
  let w2 := mreg s (.mcast (4 * g + 2))
  let all := ([0, 1, 2, 3].map fun k => bits w0 (10 * k + 9) (10 * k)) ++
    ([0, 1, 2, 3, 4, 5].map fun k => bits w1 (10 * k + 9) (10 * k)) ++
    ([0, 1, 2, 3, 4, 5].map fun k => bits w2 (10 * k + 9) (10 * k))
  (bits w0 62 53, all.take (bits w0 52 48))

/-- The multicast group a stream names, when it is an archipelago's. -/
def archOf (x : Stream) : Option Nat := if bitAt x.tgrp 6 then some (bits x.tgrp 5 0) else none

/-- The members whose acknowledgements a stream's H0 slots wait for (R334, R350). -/
def membersOf (s : State) (x : Stream) : List Nat :=
  match archOf x with | some g => (groupOf s g).2 | none => [chipNo s]

/-- Whether this package leads a stream. -/
def leads (s : State) (x : Stream) : Bool :=
  match archOf x with | some g => decide ((groupOf s g).1 = chipNo s) | none => true

/-- Whether every member has acknowledged a shard. -/
def allAcked (s : State) (x : Stream) (i : Nat) : Bool := (membersOf s x).all fun m => x.mack.contains (i, m)

/-! ### Straits -/

/-- Whether a shard holds a slot of a strait (R334, R350). -/
def holdsSlot (s : State) (x : Stream) (h : Nat) (e : Nat × List Word) : Bool :=
  let st := hopSt x e.1 h
  if h = 0 then decide (st = 1) || (decide (st = 2) && !allAcked s x e.1)
  else if h = 1 then decide (st = 1)
  else decide (st ≠ 0) && !(consumers e.2).all fun c => x.cack.contains (e.1, c)

/-- Whether a strait has room for a shard of `n` bytes (R350). -/
def strait (s : State) (x : Stream) (h n : Nat) : Bool :=
  let es := x.ents.filter (holdsSlot s x h)
  let win := bits x.twin (8 * h + 6) (8 * h)
  let byt := bits x.tbyte (16 * h + 15) (16 * h) * 65536
  es.isEmpty || (decide (es.length < win) && decide (((es.map fun e => shardLen e.2).foldl (· + ·) 0) + n ≤ byt))

/-! ### Lateness and pacing -/

/-- The gap a stream asks for (R352). -/
def gapOf (s : State) (t pl : Nat) : Nat :=
  let w := mreg s (.tpcfg t)
  let thr := bits w 63 40
  if thr = 0 ∨ pl ≤ thr then 0 else min (bits w 31 8) ((pl - thr) * bits w 39 32 / 256)

/-- Set a stream's pace lateness; TIER_LATE is posted when it first rises above the threshold (R352). -/
def setPl (s : State) (t pl : Nat) : State :=
  let x := strAt s t
  let thr := bits (mreg s (.tpcfg t)) 63 40
  let s := if thr ≠ 0 ∧ x.pl ≤ thr ∧ thr < pl then postTask s x.task x.tco x.core x.seat Cause.tierLate none 0 0 else s
  modStr s t fun x => { x with pl := pl, gap := gapOf s t pl }

/-- A 64-bit counter that saturates. -/
def satAdd (a b : Nat) : Nat := min (a + b) (2 ^ 64 - 1)

/-- A landing adds its lateness to its hop's counter and to the pace lateness (R334, R351). -/
def addLate (s : State) (t h due : Nat) : State :=
  let d := s.gts - due
  let s := modStr s t fun x =>
    if h = 0 then { x with late0 := satAdd x.late0 d } else if h = 1 then { x with late1 := satAdd x.late1 d }
    else { x with late2 := satAdd x.late2 d }
  if d = 0 then s else setPl s t (satAdd (strAt s t).pl d)

/-- PACE_HALVE (R351): at every GTS that is a multiple of 4,096. -/
def execPaceHalve (s : State) : Out :=
  .next (if s.gts % 4096 ≠ 0 then s
    else (tkeys s.streams).foldl (fun s t => if (strAt s t).st = 0 then s else setPl s t ((strAt s t).pl / 2)) s)

/-! ### The end of a stream -/

/-- Whether a shard is finished (R334). -/
def shardDone (s : State) (x : Stream) (e : Nat × List Word) : Bool :=
  decide (hopSt x e.1 2 = 2) && (!leads s x || !hopMade e.2 0 || allAcked s x e.1)

/-- Whether a stream has come to its end (R202, R334, R347). -/
def streamOver (s : State) (x : Stream) : Bool :=
  if x.st = 1 then decide (x.n ≤ x.next) && x.ents.all (shardDone s x)
  else x.ents.all fun e =>
    if e.1 < x.lim then shardDone s x e
    else ([0, 1, 2].all fun h => decide (hopSt x e.1 h ≠ 1)) && (decide (hopSt x e.1 0 ≠ 2) || !leads s x || allAcked s x e.1)

/-- End a stream whose work is over: the record, and what a failure brings with it (R190, R192, R202, R263); a stop is none. -/
def endStream (s : State) (t : Nat) : State :=
  let x := strAt s t
  if x.st = 0 ∨ !streamOver s x then s
  else if !resFree x.res then resMeet s 4 x.core x.miss x.res
  else
    let code := if x.st = 1 then 0 else x.endCode
    let w := statusWord code 4 true x.seq 0
    let s := writeRes s x.core x.res w 0
    let s := if code = Cause.tierStopped then s else cmdFailed s x.core x.seat x.task x.tco code x.detail x.phys w
    modStr s t fun x => { x with st := 0, gap := 0, h2data := [], engd := [] }

/-! ### The tier port's commands -/

/-- Whether a stream may be named by a command other than start (R202). -/
def streamOpen (s : State) (t : Nat) : Bool :=
  decide (t < 16) && decide ((strAt s t).st ≠ 0) && decide ((strAt s t).tenant = taskTenant (cs s).task)

/-- Whether a weight replacement that runs holds a stream idle (R354). -/
def streamHeld (s : State) (t : Nat) : Bool :=
  match s.repl with | some r => decide (r.step ≠ 3) && bitAt (lget 0 r.words 5) t | none => false

/-- The extent of a tier start's itinerary. -/
def itinOf (t : Seat) : Ext := extOf t (bits (stgOf t 4 1) 43 40)

/-- The checks of TIER.start (R189, R202, R329, R354). -/
def tierCheck (s : State) : Option Nat :=
  let t := cs s
  let g := stgOf t 4
  let n := (g 2).toNat
  let lim := [0, 1, 2].all fun h => decide (1 ≤ bits (g 3) (8 * h + 6) (8 * h)) && decide (bits (g 3) (8 * h + 6) (8 * h) ≤ 64) &&
    decide (bits (g 4) (16 * h + 15) (16 * h) ≠ 0)
  let grp := bits (g 5) 5 0
  firstFail [
    failIf (decide (n = 0) || decide (2 ^ 24 < n) || !lim) Cause.engGeom,
    engCheck (itinOf t) allTiers true false 32 (bits (g 1) 39 0) (32 * n),
    resCheck (resOf t 4),
    failIf (decide ((strAt s (bits (g 0) 3 0)).st ≠ 0) || streamHeld s (bits (g 0) 3 0)) Cause.tierStream,
    failIf (bitAt (g 5) 6 && (!bitAt (mreg s (.mcast (4 * grp))) 63 ||
      decide (bits (mreg s (.mcast (4 * grp + 3))) 35 20 ≠ taskTenant t.task))) Cause.mcastGroup]

/-- TIER.start (R202, R191): the stream runs on its own from now on. -/
def execTierStart (d : SDst) (a : SSrc) (s : State) : Out :=
  .next (withSrcs s 25 [a] fun v s =>
    match tierCheck s with
    | some code => refuseCmd s d 4 code
    | none =>
      let t := cs s
      let g := stgOf t 4
      let x : Stream :=
        { st := 1, tenant := taskTenant t.task, queue := taskQueue t.task, core := s.cur, seat := cn s, task := t.task,
          tco := t.tco, seq := nextSeq t 4, origin := v a, itin := itinOf t, iext := bits (g 1) 43 40, ioff := bits (g 1) 39 0, n := (g 2).toNat,
          twin := g 3, tbyte := g 4, tgrp := g 5, tcons := g 6, res := resOf t 4 }
      acceptCmd { s with streams := tput (bits (g 0) 3 0) x s.streams } d 4 0 false)

/-- TIER.ack (R202, R262, R334, R349): this core has consumed a shard. -/
def execTierAck (d : SDst) (a b : SSrc) (s : State) : Out :=
  .next (withSrcs s 25 [a, b] fun v s =>
    let t := (v a).toNat
    let i := (v b).toNat
    if !streamOpen s t then refuseCmd s d 4 Cause.tierStream
    else if (strAt s t).n ≤ i then refuseCmd s d 4 Cause.engGeom
    else
      let c := s.cur
      let s := loseCap s (cs s).task
      let s := modStr s t fun x => if x.cack.contains (i, c) then x else { x with cack := x.cack ++ [(i, c)] }
      acceptCmd s d 4 0 false)

/-- The last hop of a shard that has landed for a core (R202). -/
def lastHop (x : Stream) (i c : Nat) : Nat :=
  match entOf x i with
  | none => 0
  | some w =>
    if x.h2.any (fun p => decide (p.1 = i) && decide (p.2.1 = c) && decide (p.2.2 = shardLen w)) then 3
    else if hopSt x i 1 = 2 then 2 else if hopSt x i 0 = 2 then 1 else 0

/-- TIER.poll (R202): answered in the status word. -/
def execTierPoll (d : SDst) (a b : SSrc) (s : State) : Out :=
  .next (withSrcs s 25 [a, b] fun v s =>
    let t := (v a).toNat
    if !streamOpen s t then refuseCmd s d 4 Cause.tierStream
    else acceptCmd s d 4 (lastHop (strAt s t) (v b).toNat s.cur) false)

/-- TIER.stop (R202, R262): no further hop is issued. -/
def execTierStop (d : SDst) (a : SSrc) (s : State) : Out :=
  .next (withSrcs s 25 [a] fun v s =>
    let t := (v a).toNat
    if !streamOpen s t then refuseCmd s d 4 Cause.tierStream
    else acceptCmd (endStream (stopStream (loseCap s (cs s).task) t Cause.tierStopped 0) t) d 4 0 false)

/-! ### Reading the itinerary -/

/-- The first check an entry fails when it is read (R347). -/
def entCheck (w : List Word) : Option Nat :=
  if entBits w 0 2 0 ≠ 0 ∨ shardLen w = 0 ∨ 95 < entBits w 3 12 6 + entBits w 3 5 0 ∨
      4 * 2 ^ 20 < entBits w 3 27 15 * 512 + shardLen w then some Cause.itinRsvd
  else if bitAt (lget 0 w 1) 15 || bitAt (lget 0 w 2) 15 then some Cause.itinDue
  else none

/-- ITINERARY_READ (R346, R347, R258): the next entry, up to 64 ahead of the oldest shard not finished. -/
def execItineraryRead (t : Fin 16) (s : State) : Out :=
  let x := strAt s t.val
  let oldest := ((x.ents.filter fun e => !shardDone s x e).map (·.1)).foldl min x.next
  .next (if x.st ≠ 1 ∨ x.n ≤ x.next ∨ oldest + 64 ≤ x.next ∨ x.itin.rv ∨ s.widthBusy ≠ [] then s
    else if x.itin.dm then (if x.miss then s else meetDemandAt s 4 x.core)
    else
      let r := engFetch s none x.core x.tenant x.itin (x.ioff + 32 * x.next) 32
      match r.2.1 with
      | some f => endStream (stopStreamAt r.1 t.val f.cause x.next f.detail f.phys) t.val
      | none =>
        let w := wordsOf r.2.2
        match entCheck w with
        | some cause => endStream (stopStream r.1 t.val cause x.next) t.val
        | none => modStr r.1 t.val fun x => { x with ents := x.ents ++ [(x.next, w)], next := x.next + 1 })

/-! ### Hops -/

/-- The places of a virtual range, leaf by leaf (R253): tier, address, number of bytes.  The first number bounds the leaves. -/
def virtPlaces (tenant : Nat) (rd wr : Bool) : Nat → State → Nat → Nat → State × Except PageFail (List (Nat × Nat × Nat))
  | 0, s, _, _ => (s, .ok [])
  | f + 1, s, va, n =>
    if n = 0 then (s, .ok [])
    else match walk s tenant va none rd wr with
    | (s, .error e) => (s, .error e)
    | (s, .ok l) =>
      let p := leafPlace l va
      let k := min n (pageBytes l.level - va % pageBytes l.level)
      match virtPlaces tenant rd wr f s (va + k) (n - k) with
      | (s, .error e) => (s, .error e)
      | (s, .ok r) => (s, .ok ((p.1, p.2, k) :: r))

/-- Read some places: the tier and address that failed, if one did, with its cause, and the bytes. -/
def readPlaces : List (Nat × Nat × Nat) → State → State × Option (Nat × Nat × Nat) × List Byte
  | [], s => (s, none, [])
  | (t, a, n) :: r, s =>
    let q := memRead s none t a n
    match q.2.1 with
    | some c => (q.1, some (c, t, failUnit s none t a n), [])
    | none =>
      let z := readPlaces r q.1
      (z.1, z.2.1, q.2.2 ++ z.2.2)

/-- The path number of a hop's writes in the buffers: no seat's. -/
def hopPath (t h i : Nat) : Nat := 16 * (4 * i + h) + t

/-- Put a hop's writes on their way to their ordering points, 64 bytes at a time (R348, R280); they are logged for the launch that started
the stream (R261).  The first number bounds the units. -/
def hopUnits (x : Stream) (path t : Nat) : Nat → Nat → List Byte → State → State
  | 0, _, _, s => s
  | f + 1, a, bs, s =>
    if bs = [] then s
    else
      hopUnits x path t f (a + 64) (bs.drop 64)
        (memEnqueue s { buf := 5, tier := t, addr := a, bytes := bs.take 64, owner := none,
                        launch := some (taskQueue x.task, taskLseq x.task), hidden := true, pin := none, resv := 0, path := path,
                        die := x.core / 96 })

/-- Write a hop's bytes to its places. -/
def hopWrite (x : Stream) (path : Nat) : List (Nat × Nat × Nat) → List Byte → State → State
  | [], _, s => s
  | (t, a, n) :: r, bs, s => hopWrite x path r (bs.drop n) (hopUnits x path t (n / 64 + 1) a (bs.take n) s)

/-- A page cause of a hop (R347): it is posted, and the hop waits for a REFRESH. -/
def hopPage (s : State) (t i h acc : Nat) (f : PageFail) : State :=
  let x := strAt s t
  let s := postTask s x.task x.tco x.core x.seat f.cause none (wordOf f.va) (pack [(acc, 0), (f.level % 8, 4)])
  modStr s t fun x => { x with noted := x.noted ++ [(i, h)] }

/-- An uncorrectable source of a hop (R348): the hop before is rerun, or the stream ends. -/
def hopBroken (s : State) (t i h : Nat) (w : List Word) (c : Nat × Nat × Nat) : State :=
  let x := strAt s t
  let again := x.rerun.contains (i, h) || x.rerun.any fun r => decide (r.1 = i) && decide (hopBefore w r.2 = some h)
  let ue := decide (c.1 = Cause.remoteUe)
  match hopBefore w h with
  | none => endStream (stopStreamAt s t c.1 i none (some c.2)) t
  | some p =>
    if again || !ue || (decide (p = 0) && !leads s x) then endStream (stopStreamAt s t c.1 i none (some c.2)) t
    else
      let s := postTask s x.task x.tco x.core x.seat (if c.2.1 = 3 then Cause.memUeLpddr else Cause.memUeHbm) none
        (wordOf (c.2.2 / 64 * 64)) (wordOf c.2.1)
      modStr s t fun x => setHop { x with rerun := x.rerun ++ [(i, h)] } i p 0

/-- The shard whose hop may start next (R334): the first that has not started it, if the stream still starts hops of it. -/
def nextShard (x : Stream) (h : Nat) : Option (Nat × List Word) :=
  match x.ents.find? fun e => hopMade e.2 h && decide (hopSt x e.1 h = 0) with
  | some e => if x.st = 1 ∨ (x.st = 2 ∧ e.1 < x.lim) then some e else none
  | none => none

/-- One ENGD message of a shard to a member (R311, R329, log 12): its first flit names group, shard and length, the others carry at most 960
bytes and their place in the shard. -/
def engdMsg (s : State) (x : Stream) (g i member len off : Nat) (bs : List Byte) : Msg :=
  sealMsg { kind := kEngd, tenant := x.tenant, schip := chipNo s, sdie := 0, score := 127, sag := agTier, msgid := 0,
            dchip := member, ddie := 0, dcore := 127, dunit := 3,
            flits := flit 0 off (natBytes 8 g ++ natBytes 8 i ++ natBytes 8 len) :: splitFlits 16 1 off bs, tag := 0 }

/-- The message stream of a shard to a member (R329).  The first number bounds the messages. -/
def engdStream (t g i member len : Nat) : Nat → Nat → List Byte → State → State
  | 0, _, _, s => s
  | f + 1, off, bs, s =>
    if bs = [] then s
    else
      engdStream t g i member len f (off + 960) (bs.drop 960)
        (sendEng s agTier (engdMsg s (strAt s t) g i member len off (bs.take 960)) 0 t i off member (if bs.length ≤ 960 then 1 else 0))

/-- Send a shard to the other members (R329). -/
def multicast (t g i : Nat) (bs : List Byte) : List Nat → State → State
  | [], s => s
  | m :: r, s =>
    if m = chipNo s then multicast t g i bs r s
    else
      let s := modStr s t fun x => { x with sentAt := tput (1024 * i + m) s.gts x.sentAt }
      multicast t g i bs r (engdStream t g i m bs.length (bs.length / 960 + 1) 0 bs s)

/-- Start a hop of a shard into memory (R347, R348): both addresses are translated, the source is read, the writes go out.
`data` is the shard a member has received: its own entry's source is looked at and not used (R350, log 32). -/
def startCopy (s : State) (t i h : Nat) (w : List Word) (data : Option (List Byte)) : State :=
  let x := strAt s t
  let n := shardLen w
  let fuel := n / 65536 + 2
  let src := hopSrcOf w h
  match virtPlaces x.tenant true false fuel s src.1 n with
  | (s, .error f) => hopPage s t i h 1 f
  | (s, .ok ps) =>
    if ps.any fun p => p.1 ≠ src.2 then endStream (stopStream s t Cause.itinRsvd i) t
    else match virtPlaces x.tenant false true fuel s (shardVa w (h + 1)) n with
    | (s, .error f) => hopPage s t i h 2 f
    | (s, .ok qs) =>
      if qs.any fun p => p.1 ≠ (if h = 0 then 3 else 2) then endStream (stopStream s t Cause.itinRsvd i) t
      else
        let r := match data with | some bs => (s, none, bs) | none => readPlaces ps s
        match r.2.1 with
        | some c => hopBroken r.1 t i h w c
        | none =>
          if h = 1 ∧ r.1.hbmPower ≠ 0 then endStream (stopStream r.1 t Cause.peerDown i) t
          else
            let s := modStr (hopWrite x (hopPath t h i) qs r.2.2 r.1) t fun x => setHop x i h 1
            match archOf x with
            | some g =>
              if h = 0 ∧ data = none ∧ !x.sentAt.any fun p => p.1 / 1024 = i then multicast t g i r.2.2 (groupOf s g).2 s
              else s
            | none => s

/-- Start H2 of a shard: its bytes are read, and the copies to its consumers may begin (R349). -/
def startLast (s : State) (t i : Nat) (w : List Word) : State :=
  let x := strAt s t
  let n := shardLen w
  let src := hopSrcOf w 2
  match virtPlaces x.tenant true false (n / 65536 + 2) s src.1 n with
  | (s, .error f) => hopPage s t i 2 1 f
  | (s, .ok ps) =>
    if ps.any fun p => p.1 ≠ src.2 then endStream (stopStream s t Cause.itinRsvd i) t
    else
      let r := readPlaces ps s
      match r.2.1 with
      | some c => hopBroken r.1 t i 2 w c
      | none => modStr r.1 t fun x => setHop { x with h2data := x.h2data ++ [(i, r.2.2)] } i 2 1

/-- Whether every member's stream of the group runs, as far as the leader knows (R334): whether those of the other packages do is outside
this package, so it is a free value until they do (log 4, log 32). -/
def membersRun (s : State) (t : Nat) : State :=
  let x := strAt s t
  if x.live then s
  else if (membersOf s x).all fun m => decide (m = chipNo s) then modStr s t fun x => { x with live := true }
  else
    let d := drawWord s
    if bitAt d.1 0 then modStr d.2 t fun x => { x with live := true } else d.2

/-- HOP_START (R329, R334, R347 to R350): the next shard's hop starts when the hop before has landed and its strait has room; the leader's
first read waits for every member's stream.  At a member of an archipelago H0 is the writing of a shard that the leader has sent. -/
def execHopStart (t : Fin 16) (h : Fin 3) (s : State) : Out :=
  let s := if h.val = 0 ∧ (strAt s t.val).st ≠ 0 ∧ leads s (strAt s t.val) then membersRun s t.val else s
  let x := strAt s t.val
  .next (if x.st = 0 ∨ s.widthBusy ≠ [] then s
    else if h.val = 0 ∧ !leads s x then
      match x.engd.find? fun d => (match entOf x d.1 with
          | some w => hopMade w 0 && decide (hopSt x d.1 0 = 0) && !x.noted.contains (d.1, 0) &&
              (decide (x.st = 1) || decide (d.1 < x.lim))
          | none => false) with
      | none => s
      | some (i, bs) =>
        match entOf x i with
        | none => s
        | some w =>
          if bs.length ≠ shardLen w then endStream (stopStream s t.val Cause.itinRsvd i) t.val
          else startCopy s t.val i 0 w (some bs)
    else match nextShard x h.val with
    | none => s
    | some (i, w) =>
      if (decide (h.val = 0) && !x.live) || x.noted.contains (i, h.val) || !(match hopBefore w h.val with | some p => decide (hopSt x i p = 2) | none => true) ||
          !strait s x h.val (shardLen w) then s
      else if h.val = 2 then startLast s t.val i w
      else startCopy s t.val i h.val w none)

/-! ### Landings -/

/-- The consumer seat of a core (R349). -/
def consumerSeat (s : State) (x : Stream) (c : Nat) : Option Nat :=
  [0, 1, 2, 3].find? fun n =>
    let t := seatAt s c n
    decide (t.st ≠ .empty) && decide (taskTenant t.task = x.tenant) && bitAt x.tcons (taskQueue t.task)

/-- Bytes of a shard that a core has. -/
def h2Got (x : Stream) (i c : Nat) : Nat :=
  ((x.h2.find? fun p => decide (p.1 = i) && decide (p.2.1 = c)).map (·.2.2)).getD 0

/-- Whether a core's copy of a shard is over: it has landed, was given up, or its extent has failed its check (R349). -/
def h2Over (x : Stream) (i c n : Nat) : Bool := decide (h2Got x i c = n) || x.cack.contains (i, c) || x.gone.contains (i, c)

/-- TWPTR of a core (Table 17-4): the first entry whose H2 has started and not landed there, else the last that has landed: it passes no byte
before the ones in front of it. -/
def twptrOf (x : Stream) (c : Nat) : Word :=
  match x.ents.find? fun e => decide (hopSt x e.1 2 = 1) && (consumers e.2).contains c && !h2Over x e.1 c (shardLen e.2) with
  | some e => pack [(e.1 % 2 ^ 32, 32), (h2Got x e.1 c, 0)]
  | none => match (x.ents.filter fun e => decide (h2Got x e.1 c = shardLen e.2)).getLast? with
    | some e => pack [(e.1 % 2 ^ 32, 32), (shardLen e.2, 0)]
    | none => tget 0 x.twptr c

/-- Write more of a shard to one of its consumers; how much, and to which of them, is a free value (R349, log 4). -/
def copyLast (s : State) (t i : Nat) (w : List Word) : State :=
  let x := strAt s t
  let n := shardLen w
  let off := entBits w 3 27 15 * 512
  let e := fun (c : Nat) => match consumerSeat s x c with
    | some k => some (extOf (seatAt s c k) (entBits w 3 31 28))
    | none => none
  let wait := (consumers w).filter fun c => !h2Over x i c n && (e c).isSome
  match wait with
  | [] => s
  | c0 :: _ =>
    let d := drawWord s
    let c := lget c0 wait (bits d.1 15 0 % wait.length)
    match e c with
    | none => s
    | some ext =>
      match engCheck ext [0] false true 1 0 (off + n) with
      | some cause => modStr (stopStream d.2 t cause i) t fun x => { x with gone := x.gone ++ [(i, c)] }
      | none =>
        if ext.rv then d.2
        else if ext.dm then (if x.missAt.contains c then d.2 else meetDemandAt d.2 4 c)
        else
          let got := h2Got x i c
          let k := min (n - got) (64 * (bits d.1 31 16 + 1))
          let bs := ((((x.h2data.find? fun p => decide (p.1 = i)).map (·.2)).getD []).drop got).take k
          let s := modCore d.2 c fun z => spadPut z ((spadPlaces ext (off + got) bs.length).zip bs)
          modStr s t fun x =>
            let x : Stream := { x with h2 := (x.h2.filter fun p => !(decide (p.1 = i) && decide (p.2.1 = c))) ++ [(i, c, got + bs.length)] }
            { x with twptr := tput c (twptrOf x c) x.twptr }

/-- A hop of a shard has landed at this package (R334, R351). -/
def landHop (s : State) (t i h : Nat) (w : List Word) : State :=
  let s := modStr s t fun x =>
    let x := setHop { x with engd := if h = 0 then x.engd.filter fun d => decide (d.1 ≠ i) else x.engd,
                             h2data := if h = 2 then x.h2data.filter fun d => decide (d.1 ≠ i) else x.h2data } i h 2
    if h = 0 ∧ leads s x ∧ !x.mack.contains (i, chipNo s) then { x with mack := x.mack ++ [(i, chipNo s)] } else x
  let s := if h = 2 ∧ (strAt s t).gone.any fun p => p.1 = i then s else addLate s t h (dueOf (strAt s t) w h)
  let x := strAt s t
  -- a member acknowledges the landing to the leader, in answer to the message that completed the shard (R316, R329, log 12)
  match archOf x with
  | some g =>
    if h = 0 ∧ !leads s x then
      sendResp s (mkMsg s kAck x.tenant 0 127 0 (tget 0 x.engdId i) (groupOf s g).1 0 127 3 0
        (natBytes 8 g ++ natBytes 8 i ++ natBytes 8 0 ++ [3]))
    else s
  | none => s

/-- An uncorrectable error in a stream's own state stops it with ENG_UE (Table 11-4, log 35). -/
def streamBad (s : State) (t : Nat) : State :=
  if s.engBad.contains (4, t) ∧ (strAt s t).st = 1 then
    stopStreamAt { s with engBad := s.engBad.erase (4, t) } t Cause.engUe 0 none none
  else s

/-- HOP_LAND (R334, R348, R349): a hop into memory lands when its writes are at their ordering points; H2 moves on at one consumer, and
lands when every consumer has the shard or has given it up.  The stream comes to its end behind the issues of the cycle of the last landing, as
the step of that cycle which names no shard (R336, log 32). -/
def execHopLand (t : Fin 16) (h : Fin 3) (shard : Nat) (s : State) : Out :=
  let x := strAt s t.val
  .next (match entOf x shard with
    | none => endStream (streamBad s t.val) t.val
    | some w =>
      if x.st = 0 then s
      else if hopSt x shard h.val ≠ 1 then endStream s t.val
      else if h.val < 2 then
        if s.wbuf.any fun b => decide (b.owner = none) && decide (b.path = hopPath t.val h.val shard) then s
        else endStream (landHop s t.val shard h.val w) t.val
      else
        let s := copyLast s t.val shard w
        let x := strAt s t.val
        if hopSt x shard 2 ≠ 1 then s
        else if (consumers w).all fun c => h2Over x shard c (shardLen w) then landHop s t.val shard 2 w else s)

/-! ### Archipelagos -/

/-- The stream of this package that takes a group's shards as a member. -/
def memberStream (s : State) (g tenant : Nat) : Option Nat :=
  (countUp 0 16).find? fun t =>
    let x := strAt s t
    decide (x.st ≠ 0) && decide (archOf x = some g) && decide (x.tenant = tenant) && !leads s x

/-- The parts of a shard that a member holds, in their order. -/
def shardParts (x : Stream) (i : Nat) : List (List Byte) := (x.parts.filter fun p => decide (p.1 / 2 ^ 22 = i)).map (·.2)

/-- A part of a shard of `len` bytes joins those that a member holds; with the last of them the shard has arrived (R329). -/
def joinShard (x : Stream) (i len off : Nat) (bs : List Byte) (id : Nat) : Stream :=
  if x.engd.any (fun d => decide (d.1 = i)) || decide (hopSt x i 0 ≠ 0) then x
  else
    let x := { x with parts := tput (2 ^ 22 * i + off) bs x.parts }
    let all := (shardParts x i).flatten
    if all.length < len then x
    else { x with engd := x.engd ++ [(i, all)], engdId := tput i id x.engdId, parts := x.parts.filter fun p => decide (p.1 / 2 ^ 22 ≠ i) }

/-- ENGD (R318, R329): a message of a shard reaches a member's tier engine; its tag is verified, and it is acknowledged (log 12).  What
reaches the collective engine is the operands that COLL_COMPLETE brings (log 12). -/
def execEngd (m : Msg) (s : State) : Out :=
  if strayUnit s m kEngd then .next (refuseStray (takeMsg s m) m)
  else if !arrived s m || decide (m.kind ≠ kEngd) || decide (m.dchip ≠ chipNo s) then .next s
  else
    let s := takeMsg s m
    if !msgOk m then .next (sendResp s (mkResp s kNack m [0]))
    else
      let s := sendResp s (mkResp s kAck m [])
      if m.dunit ≠ 3 then .next s
      else
        let bs := (m.flits.tail.map (·.data)).flatten
        .next (match memberStream s (payWord m 0).toNat m.tenant with
          | none => s
          | some t => modStr s t fun x =>
              joinShard x (payWord m 8).toNat (payWord m 16).toNat ((m.flits.head?.map (·.off)).getD 0) bs m.msgid)

/-- MEMBER_ACK (R329, R334): a member has landed a shard. -/
def execMemberAck (t : Fin 16) (shard member : Nat) (s : State) : Out :=
  let x := strAt s t.val
  let sent := hopSt x shard 0 ≠ 0 ∨ x.sentAt.any fun p => p.1 / 1024 = shard
  .next (if x.st = 0 ∨ !(membersOf s x).contains member ∨ x.mack.contains (shard, member) ∨ ¬sent then s
    else
      let s := modStr s t.val fun x => { x with mack := x.mack ++ [(shard, member)] }
      endStream { s with engSent := s.engSent.filter fun y =>
        !(decide (y.agent = agTier) && decide (y.seat = t.val) && decide (y.first = shard) && decide (y.seq = member)) } t.val)

/-- MCAST_ACK_TIMEOUT (R329): the shard keeps waiting. -/
def execMcastAckTimeout (t : Fin 16) (shard member : Nat) (s : State) : Out :=
  let x := strAt s t.val
  .next (match archOf x, tfind x.sentAt (1024 * shard + member) with
    | some g, some at_ =>
      let lim := 64 * bits (mreg s (.mcast (4 * g + 3))) 19 0
      if x.st = 0 ∨ lim = 0 ∨ s.gts < at_ + lim ∨ x.mack.contains (shard, member) then s
      else postTask s x.task x.tco x.core x.seat Cause.mcastAck none 0 0
    | _, _ => s)

/-! ### Weight replacement -/

/-- Set STEP of WRSTAT and BUSY of WRCTL (Table 17-7). -/
def setStep (s : State) (step : Nat) : State :=
  let s := modMreg s .wrstat fun w => setBits w 1 0 step
  modMreg s .wrctl fun w => setBits w 1 1 (if step = 1 ∨ step = 2 then 1 else 0)

/-- A replacement has ended: CODE of WRSTAT takes its cause (Table 17-7). -/
def setWr (s : State) (code step : Nat) : State := setStep (modMreg s .wrstat fun w => setBits w 63 56 code) step

/-- The check of a replacement descriptor (R353, R354). -/
def wrCheck (w : List Word) : Option Nat :=
  let g := lget 0 w
  let place := fun (x : Word) (ts : List Nat) =>
    ts.contains (bits x 63 61) && decide (bits x 60 46 = 0) && decide (bits x 45 0 % 64 = 0)
  if !place (g 0) [2, 3, 4, 5] || !place (g 1) [2, 3, 4] || decide (bits (g 2) 63 46 ≠ 0) || decide ((g 2).toNat % 64 ≠ 0) ||
      decide (bits (g 3) 63 46 ≠ 0) || decide ((g 3).toNat % 64 ≠ 0) || decide (g 3 = 0) || decide (bits (g 5) 63 48 ≠ 0) ||
      decide (g 6 ≠ 0) || decide (g 7 ≠ 0) then some Cause.itinRsvd
  else if (g 2).toNat < (g 3).toNat then some Cause.tierNofit
  else none

/-- WEIGHT_REPLACE (R354): a write of WRCTL; GO starts a replacement when none runs. -/
def execWeightReplace (v : Word) (s : State) : Out :=
  if bitAt v 0 && ckBusy s then .next (deferWrite s .wrctl v) else
  let busy := bitAt (mreg s .wrctl) 1
  let s := modMreg s .wrctl fun w =>
    setBits (setBits w 63 61 (bits v 63 61)) 45 6 (bits v 45 6)
  .next (if busy || !bitAt v 0 then s
    else
      let t := bits v 63 61
      let keep := match s.repl with | some r => r.step | none => 0
      if t ≠ 2 ∧ t ≠ 3 ∧ t ≠ 5 then setWr s Cause.itinRsvd keep
      else
        let r := memRead s none t (bits v 45 6 * 64) 64
        match r.2.1 with
        | some cause => setWr r.1 cause keep
        | none =>
          let w := wordsOf r.2.2
          match wrCheck w with
          | some cause => setWr r.1 cause keep
          | none =>
            let lim := bits (lget 0 w 5) 47 16 * 1024
            let s := setStep r.1 1
            { s with repl := some { step := 1, words := w, at_ := s.gts,
                                    old := match s.repl with | some o => lget 0 o.words 4 ||| o.old | none => 0 },
                     timers := s.timers ++ [(s.gts + lim, .replaceGateTimeout)] })

/-- Whether a queue is gated by a replacement, or by one before it whose gate only this one's end opens (R354). -/
def replGates (s : State) (q : Nat) : Bool :=
  match s.repl with | some r => bitAt (lget 0 r.words 4) q || bitAt r.old q | none => false

/-- The tasks that hold a seat, as (core, seat). -/
def residents (s : State) (p : Word → Bool) : List (Nat × Nat) :=
  (s.cores.map fun k => ((tkeys k.2.seats).filter fun n =>
    let t := seatOf k.2 n
    decide (t.st ≠ .empty) && p t.task).map fun n => (k.1, n)).flatten

/-- REPLACE_DRAIN_DONE (R354): no task of a gated queue is resident, and the streams of SMASK are idle. -/
def execReplaceDrainDone (s : State) : Out :=
  .next (match s.repl with
    | some r =>
      if r.step = 1 ∧ (residents s fun w => bitAt (lget 0 r.words 4) (taskQueue w)) = [] ∧
          ((countUp 0 16).all fun t => !bitAt (lget 0 r.words 5) t || decide ((strAt s t).st = 0)) then
        setStep { s with repl := some { r with step := 2 } } 2
      else s
    | none => s)

/-- REPLACE_GATE_TIMEOUT (R354): the gate opens, and nothing is written. -/
def execReplaceGateTimeout (s : State) : Out :=
  .next (match s.repl with
    | some r =>
      if r.step = 1 ∧ r.at_ + bits (lget 0 r.words 5) 47 16 * 1024 ≤ s.gts then
        setWr { s with repl := none } Cause.tierGate 0
      else s
    | none => s)

/-- Copy units of new weights, except those that cannot be read; when one cannot, which others are copied is a free value
(R354, log 4).  The first number bounds the units. -/
def copyWeights (all : Bool) (st dt : Nat) : Nat → Nat → Nat → State → State
  | 0, _, _, s => s
  | n + 1, a, b, s =>
    let r := memRead s none st a 64
    let d := drawWord s
    let s := match r.2.1 with
      | some _ => s
      | none =>
        if (accessRefusal s dt b 64).isSome then s
        else if all then unitWrite s dt b r.2.2 else if bitAt d.1 0 then unitWrite d.2 dt b r.2.2 else d.2
    copyWeights all st dt n (a + 64) (b + 64) s

/-- REPLACE_COPY_DONE (R354): every byte of the new weights is at its ordering point and the gate opens, or an uncorrectable error keeps
it closed. -/
def execReplaceCopyDone (s : State) : Out :=
  .next (match s.repl with
    | some r =>
      if r.step ≠ 2 ∨ s.widthBusy ≠ [] then s
      else
        let w := lget 0 r.words
        let n := (w 3).toNat
        let q := memRead s none (bits (w 0) 63 61) (bits (w 0) 45 0) n
        -- a region that no decoder maps takes no byte (R344)
        let deny := accessRefusal s (bits (w 1) 63 61) (bits (w 1) 45 0) n
        let copy := fun (all : Bool) (s : State) =>
          copyWeights all (bits (w 0) 63 61) (bits (w 1) 63 61) (n / 64) (bits (w 0) 45 0) (bits (w 1) 45 0) s
        match (match q.2.1 with | some cause => some cause | none => deny) with
        | none => setWr { copy true q.1 with repl := none } 0 0
        | some cause => setWr { copy false q.1 with repl := some { r with step := 3 } } cause 3
    | none => s)

end Sys2Proof.Machine
end

