-- ==== Sys2Proof/Machine/Cycle.lean ====
section
/-!
DEFINITION. A cycle of the package (R11, R13, R26, R107, R236): the counters advance, and the steps that the spec ties to a cycle or
to a GTS are listed for it in the order in which they take effect.  The order is log 5.
-/
namespace Sys2Proof.Machine

open Sys2Proof

/-- Deadlines that have come (R118, R213, R351 and the rules that set them), earliest first as they were set. -/
def dueTimers (s : State) : List Instr := (s.timers.filter fun x => decide (x.1 ≤ s.gts)).map (·.2)

/-- Whether a core's cycle will be a hold freeze, in which nothing in flight moves (R14): one it owes, or one of the governor's. -/
def heldNow (s : State) (c : Nat) : Bool := decide ((coreAt s c).hold ≠ 0) || (decide (windowLimit s c ≠ 0) && alsoGoverned s c)

/-- What lands in a core in one cycle: nothing in a hold freeze (R13, R14, R107, R165, R175). -/
def landSteps (held : Bool) (c : Nat) : List Instr :=
  let n : CoreId := Fin.ofNat 384 c
  if held then [] else [.storeCommit n, .beatLand n, .rotatorRow n, .resultLand n]

/-- The steps of a core after that: releases, the arbiter, the stops that bound a run or a freeze, and the cycle itself (R60, R130, R170,
R201, R232, R234). -/
def coreSteps (c : Nat) : List Instr :=
  let n : CoreId := Fin.ofNat 384 c
  [.claimRelease n, .cdrnRelease n, .arbiterChoice n, .runOverrun n, .freezeLong n, .issueGroup n]

/-- The steps of a core's channels whose cycle the spec gives (R200, R268, R306), channel by channel: the start of the next command; reads of
a timed command from its own scratchpad and writes into it; completion. -/
def chanSteps (c : Nat) (l : Tbl Chan) : List Instr :=
  let n : CoreId := Fin.ofNat 384 c
  let l := l.filter fun x => !x.2.cmds.isEmpty
  (l.map fun x => .channelCommandStart n (Fin.ofNat 4 x.1)) ++
  (l.map fun x => (if x.2.cmds.any fun m => m.timed && decide (m.src.tier = 0) then [.channelRead n (Fin.ofNat 4 x.1) false 0] else []) ++
    [.channelWrite n (Fin.ofNat 4 x.1) 0]).flatten ++
  (l.map fun x => .cpyComplete n (Fin.ofNat 4 x.1))

/-- The steps of the domains at which seats of a core wait (R96): looked at before the arbiters choose. -/
def waitSteps (p : Nat × Core) : List Instr :=
  p.2.seats.filterMap fun x => match x.2.wait with
    | some (.step _ _) => some (.stepComplete (Fin.ofNat 384 p.1) (Fin.ofNat 4 x.1))
    | _ => none

/-- The steps of a seat that take place as soon as they can: a retirement, a swap-out (R103, R249). -/
def seatSteps (c n : Nat) (t : Seat) : List Instr :=
  let k : CoreId := Fin.ofNat 384 c
  let g : Fin 4 := Fin.ofNat 4 n
  (if t.retire.isSome then [.taskCompletionSignal k g] else []) ++
  (if t.swapReq ∨ t.st = .swapping then [.swapImageWrite k g] else [])

/-- The steps of a core's channels and seats. -/
def unitSteps (p : Nat × Core) : List Instr :=
  chanSteps p.1 p.2.ch ++ (p.2.seats.map fun x => seatSteps p.1 x.1 x.2).flatten

/-- Writes to CXL devices whose time is over, streams whose work is over, packets whose time RTO is over, collectives whose members have all arrived, records that wait for a fault ring, signal adds of
launches that have lost their rollback capability, a guard operation that runs, the halving of pace lateness (R209, R224, R245, R256, R344,
R351). -/
def packageSteps (s : State) : List Instr :=
  ((cxlLateAt s).map fun k => .cxlTimeout (.write k)) ++
  (s.colls.filterMap fun x => if x.came then some (.collComplete (BitVec.ofNat 8 x.gid) []) else none) ++
  (s.queues.filterMap fun p =>
    if p.2.recs ≠ [] ∨ p.2.stops ≠ [] ∨ p.2.dropped ≠ 0 then some (.faultRecordWrite (Fin.ofNat 64 p.1)) else none) ++
  (s.queues.filterMap fun p => if p.2.launches.any fun l => !l.cap && decide (l.sigHeld ≠ 0) then some (.launchComplete (Fin.ofNat 64 p.1)) else none) ++
  (s.streams.filterMap fun p =>
    if p.2.st ≠ 0 ∧ (streamOver s p.2 ∨ s.engBad.contains (4, p.1)) then some (.hopLand (Fin.ofNat 16 p.1) 2 p.2.n) else none) ++
  rtoDue s ++
  (if s.xr.isSome ∨ s.freeing ≠ [] then [.guardAck] else []) ++
  (if s.gts % 4096 = 0 then [.paceHalve] else [])

/-- The batches that the last cycle's GTS closed by deadline (R357). -/
def lateBatches (s : State) : List Instr :=
  s.gq.filterMap fun p => if gqLate s p.1 then some (.batchDeadline (Fin.ofNat 16 p.1)) else none

/-- The steps of the present cycle: first the arbiters choose among the seats that were ready when the last one ended (R232). -/
def cycleSteps (s : State) : List Instr :=
  (s.cores.map fun p => .arbiterChoice (Fin.ofNat 384 p.1)) ++ lateBatches s ++ dueTimers s ++
  (s.cores.map fun p => landSteps (heldNow s p.1) p.1).flatten ++ (s.cores.map waitSteps).flatten ++
  (s.cores.map fun p => coreSteps p.1).flatten ++ (s.cores.map unitSteps).flatten ++ packageSteps s

/-- A core at the start of a cycle: the last one counts if it was no hold freeze (R13), and the governor's window moves on (R236). -/
def beginCycle (k : Core) : Core :=
  { k with ct := if k.counts then k.ct + 1 else k.ct, win := (0 :: k.win).take 64, beatNow := false, prior := [], served := [],
           idle := false, pairIn := 0 }

/-- Whether a syllable issued by core `c` sends a beat into its partner's array (R167). -/
def entersPartner (s : State) (c : Nat) (i : Instr) : Bool :=
  let grows := fun (o : Out) => match o with
    | .next t => decide ((coreAt s (partnerOf c)).effs.length < (coreAt t (partnerOf c)).effs.length)
    | _ => false
  match i with
  | .apush t r a true f => grows (beatVia false t r a true f { s with cur := c })
  | .acc t r a true f => grows (beatVia true t r a true f { s with cur := c })
  | _ => false

/-- Whether the group that a core issues in this cycle holds a pair beat, as the cycle's start shows it. -/
def pushesPair (s : State) (c : Nat) : Bool :=
  let s := modCore s c afterChoice
  match viewOf s c with
  | .go _ g => g.syls.any fun p => entersPartner s c p.2.2.2
  | _ => false

/-- The weight of the partner's pair beat counts in the window of a governed core in the cycle in which the beat enters (R236): first on the
even cores of the pairs, which their partners' groups then know. -/
def pairWeights (even : Bool) : List Nat → State → State
  | [], s => s
  | c :: t, s =>
    pairWeights even t (if decide (c % 2 = 0) = even ∧ windowLimit s c ≠ 0 ∧ pushesPair s (partnerOf c) then
      modCore s c fun k => { k with pairIn := 96 } else s)

/-- Look at the completion freezes of some cores, at the end of the cycle. -/
def lookCores : List Nat → State → State
  | [], s => s
  | c :: t, s => lookCores t (lookCore s c)

/-- THE NEXT CYCLE: the gatherer takes the last cycle's records (R356), CYC and GTS advance by 1 (R26), requests whose pins have landed leave
the hold queue (R297), the responses to what the last cycle performed leave (R271), and the cycle's steps are listed. -/
def tick (s : State) : State :=
  let s := netSettle (gqTake s)
  let s := recheckHeld (lookCores (tkeys s.cores) s)
  let s := sendAllLate { s with cyc := s.cyc + 1, gts := s.gts + 1, cores := s.cores.map fun p => (p.1, beginCycle p.2) }
  let s := pairWeights false (tkeys s.cores) (pairWeights true (tkeys s.cores) s)
  let l := cycleSteps s
  { s with turn := l, timers := s.timers.filter fun x => !decide (x.1 ≤ s.gts) }

end Sys2Proof.Machine
end

