-- ==== Sys2Proof/Machine/Control.lean ====
section
/-!
DEFINITION. The B class (R87 to R104): branches, runs, waits, steps, fences, traps and retirement.  A syllable notes in
the group what takes effect once the whole group has issued (R60).
-/
namespace Sys2Proof.Machine

open Sys2Proof

/-- The target an encoded offset names: signed words from the header of the bundle that holds the branch (R87). -/
def branchTo (s : State) {n : Nat} (o : BitVec n) : Word := wordOf (cc s).grp.bpc + (o.signExtend 64 <<< 2)

/-- Note a taken branch, whose target is reached with bubbles (R87). -/
def takeBranch (s : State) (t : Word) : State := onGrp s fun g => { g with branch := some t.toNat, taken := true }

/-- Whether a value meets a condition of BRC (Table 3-6). -/
def bcndHolds (c : BCnd) (a : Word) : Bool :=
  match c with
  | .eqz => decide (a = 0)
  | .nez => decide (a ≠ 0)
  | .ltz => a.msb
  | .gez => !a.msb

/-- BR (R88). -/
def execBr (o : BitVec 26) (s : State) : Out := .next (takeBranch s (branchTo s o))

/-- BRC (R88): a word of `fi` is popped whether or not the branch is taken. -/
def execBrc (a : SSrc) (c : BCnd) (o : BitVec 18) (s : State) : Out :=
  .next (withSrcs s 2 [a] fun v s => if bcndHolds c (v a) then takeBranch s (branchTo s o) else s)

/-- CALL (R88): the link is the offset after the branch's group. -/
def execCall (d : Fin 56) (o : BitVec 20) (s : State) : Out :=
  .next (takeBranch (sendTo s 2 1 d.val (wordOf (cc s).grp.next)) (branchTo s o))

/-- RET (R88). -/
def execRet (a : SSrc) (s : State) : Out := .next (withSrcs s 2 [a] fun v s => takeBranch s (v a))

/-- JR (R88). -/
def execJr (a b : SSrc) (i : BitVec 14) (s : State) : Out :=
  .next (withSrcs s 2 [a, b] fun v s => takeBranch s (v a + v b + (i.signExtend 64 <<< 2)))

/-- LOOP (R90): no bubble either way. -/
def execLoop (a : Fin 56) (o : BitVec 20) (s : State) : Out :=
  let cnt := aReg (cs s) a.val - 1
  let t := branchTo s o
  let s := sendTo s 2 1 a.val cnt
  .next (if cnt ≠ 0 then onGrp s fun g => { g with branch := some t.toNat } else s)

/-- RUN (R92): the recorded extension is replaced. -/
def execRun (a : SSrc) (s : State) : Out :=
  .next (withSrcs s 2 [a] fun v s => onSeat s fun t => { t with runExt := some (v a).toNat })

/-- WAITF (R93): the faults of an LD.d; the seat parks at its yield when the condition fails. -/
def execWaitf (a b : SSrc) (e : BitVec 4) (c : WCnd) (s : State) : Out :=
  .next (withSrcs s 2 [a, b] fun v s =>
    let x := extOf (cs s) e.toNat
    let off := (v a).toNat
    match extCheck x [0] true false 8 off 8 with
    | some cause => addCause s 2 cause 2 (wordOf off) (wordOf e.toNat)
    | none =>
      let ps := spadPlaces x off 8
      let s := useBanks s (bankWords ps)
      match spadErr (cc s) 0 ps with
      | some i => addCause s 2 Cause.spadUe 2 (wordOf (off + i)) (wordOf e.toNat)
      | none =>
        if wcndHolds c (wordOf (leNat (spadGet (cc s) ps))) (v b) then s
        else onGrp s fun g => { g with park := some (.word ps (v b) c) })

/-- STEP (R96): a level above the domain's raises STEP_LEVEL; otherwise the seat arrives and parks at its yield. -/
def execStep (l : Fin 5) (s : State) : Out :=
  .next (if bits (cs s).dmem 34 32 < l.val then addCause s 2 Cause.stepLevel 2 0 0
         else onGrp s fun g => { g with park := some (.step l.val (cc s).ct) })

/-- FENCE (R98, R100): a completion freeze follows the group. -/
def execFence (x : Bool) (c : Fin 5) (s : State) : Out :=
  .next (onGrp s fun g => { g with waits := g.waits ++ [.fence x c.val] })

/-- TRAP (R102): the task stops after the group with TRAP_n. -/
def execTrap (a : SSrc) (n : BitVec 4) (s : State) : Out :=
  .next (withSrcs s 2 [a] fun v s => addCause s 2 (Cause.trap0 + n.toNat) 2 (v a) 0)

/-- HALT (R103): the group retires the task, with the low 32 bits of A as its exit code. -/
def execHalt (a : SSrc) (s : State) : Out :=
  .next (withSrcs s 2 [a] fun v s => onGrp s fun g => { g with halt := some ((v a).setWidth 32) })

end Sys2Proof.Machine
end

