-- ==== Sys2Proof/Machine/Gather.lean ====
section
/-!
DEFINITION. The top-k and gather engines of a die (R206, R207, R384, R385), with the side logs of R259.
-/
namespace Sys2Proof.Machine

open Sys2Proof

/-! ### Writing a command's bytes -/

/-- Cut bytes at every multiple of 64 of their offset.  The first number bounds the pieces. -/
def cutUnits (x : Nat) : Nat → Nat → List Byte → List (Nat × Nat × List Byte)
  | 0, _, _ => []
  | n + 1, off, bs =>
    if bs = [] then []
    else
      let k := 64 - off % 64
      (x, off, bs.take k) :: cutUnits x n (off + k) (bs.drop k)

/-- An extent a command has copied. -/
def extIn (m : EngCmd) (i : Nat) : Ext := tget {} m.exts i

/-- The commands of an engine of a die: 6 top-k, 7 gather. -/
def engList (s : State) (d eng : Nat) : List EngCmd := if eng = 6 then (dieAt s d).topk else (dieAt s d).gthr

/-- Replace a command of an engine of a die. -/
def putCmd (s : State) (d eng : Nat) (old new : EngCmd) : State :=
  let f := fun (x : EngCmd) => if x = old then new else x
  modDie s d fun z => if eng = 6 then { z with topk := z.topk.map f } else { z with gthr := z.gthr.map f }

/-- Take a command out of an engine of a die. -/
def dropCmd (s : State) (d eng : Nat) (old : EngCmd) : State :=
  modDie s d fun z => if eng = 6 then { z with topk := z.topk.erase old } else { z with gthr := z.gthr.erase old }

/-- Make one write of a command now: the failure that ends it, if there is one (R192). -/
def writeNow (s : State) (d : Nat) (m : EngCmd) (u : Nat × Nat × List Byte) : State × Option EngFail :=
  let e := extIn m u.1
  if e.tier = 1 then
    match (if peerChip e = chipNo s then none else match choosePath s (peerChip e) [] [] with | .ok _ => none | .error c => some c) with
    | some c => (s, some { cause := c })
    | none => (peerStore s m.eng m.core m.seat m.seq m.task e u.2.1 u.2.2, none)
  else match storeRefusal s e u.2.1 u.2.2.length with
  | some c => (s, some { cause := c })
  | none => (engStore s d m.core m.seat m.task e u.2.1 u.2.2 (engPath m.eng m.seq), none)

/-- A failing write ends a command's writes (R192). -/
def failWrite (m : EngCmd) (f : EngFail) : EngCmd :=
  if m.code ≠ 0 then m else { m with code := f.cause, detail := f.detail, phys := f.phys, out := [], prog := 1000,
                                        val := if m.eng = 6 then 0 else m.val }

/-- Post EXT_SLOG for the first unit a command retires (R259, Table 11-3). -/
def engSlog (s : State) (m : EngCmd) (u : Nat × Nat × List Byte) : State :=
  if m.slogged then s
  else postTask s m.task m.tco m.core m.seat Cause.extSlog none (wordOf u.2.1) (pack [(u.1, 0), (m.eng, 4)])

/-- The side log of an engine, with the command of each unit; `m` is one of the engine's commands as it stands now (R259). -/
def engLog (s : State) (d eng : Nat) (m : EngCmd) : List (EngCmd × Nat × Nat × Nat × List Byte) :=
  (m :: (engList s d eng).filter fun x => decide (x.core ≠ m.core) || decide (x.seat ≠ m.seat) || decide (x.seq ≠ m.seq)).flatMap fun x =>
    x.slog.map fun u => (x, u)

/-- Whether two units have an address in common: a place of one memory, or of one tenant's virtual space while extents are revoked (R259). -/
def logsMeet (m : EngCmd) (u : Nat × Nat × List Byte) (m' : EngCmd) (u' : Nat × Nat × List Byte) : Bool :=
  let e := extIn m u.1
  let e' := extIn m' u'.1
  let place := fun (e : Ext) (i : Nat) => if e.tier = 0 then spadPhys e i else e.base + i
  (decide (e.tier = e'.tier) && (decide (e.tier ≠ 0) || decide (m.core = m'.core)) &&
    (countUp u.2.1 u.2.2.length).any fun i => (countUp u'.2.1 u'.2.2.length).any fun j => decide (place e i = place e' j)) ||
  (e.virtual && e'.virtual && decide (taskTenant m.task = taskTenant m'.task) &&
    meets (e.virt + u.2.1) u.2.2.length (e'.virt + u'.2.1) u'.2.2.length)

/-- Whether a unit waits for one that was retired before it, `no` units having been retired then (R259): replays keep the order of one
address, and no later unit goes before them. -/
def behindLog (s : State) (d eng : Nat) (m : EngCmd) (no : Nat) (u : Nat × Nat × List Byte) : Bool :=
  (engLog s d eng m).any fun x => decide (x.2.1 < no) && logsMeet m u x.1 x.2.2

/-- Replay the logged units whose extent has been refreshed, in their order. -/
def replayUnits (d eng : Nat) : List (Nat × Nat × Nat × List Byte) → EngCmd → State → EngCmd × State
  | [], m, s => (m, s)
  | u :: r, m, s =>
    if extFree (extIn m u.2.1) && !behindLog s d eng m u.1 u.2 then
      match writeNow s d m u.2 with
      | (s, none) => replayUnits d eng r { m with slog := m.slog.erase u } s
      | (s, some f) => (failWrite { m with slog := [] } f, s)
    else replayUnits d eng r m s

/-- Write, or retire into the side log, the bytes a command has computed (R199, R259): it stops at a unit that must wait. -/
def pushUnits (d eng : Nat) : List (Nat × Nat × List Byte) → EngCmd → State → EngCmd × State
  | [], m, s => (m, s)
  | u :: r, m, s =>
    let e := extIn m u.1
    if e.dm && !e.rv && !m.miss then (m, meetDemandAt s eng m.core)
    else if e.rv || e.dm then
      if 32 ≤ (engLog s d eng m).length then (m, s)
      else
        let no := (dieAt s d).slogNo
        pushUnits d eng r { m with out := r, slog := m.slog ++ [(no, u)], slogged := true }
          (modDie (engSlog s m u) d fun z => { z with slogNo := no + 1 })
    else if behindLog s d eng m (dieAt s d).slogNo u then (m, s)
    else match writeNow s d m u with
    | (s, none) => pushUnits d eng r { m with out := r } s
    | (s, some f) => (failWrite m f, s)

/-- Move a command's writes on: replays first, then new units. -/
def moveWrites (s : State) (d eng : Nat) (m : EngCmd) : EngCmd × State :=
  let r := replayUnits d eng m.slog m s
  pushUnits d eng r.1.out r.1 r.2

/-- Whether a command's writes are visible where its completion makes them so: a top-k's to its own core, a gather's at each destination's
ordering point (R206, Table 13-5), and at a peer when it has acknowledged them (R312). -/
def engSeen (s : State) (m : EngCmd) : Bool :=
  (decide (m.eng ≠ 7) || pathClear s m.core m.seat (engPath m.eng m.seq)) && peerClear s m.eng m.core m.seat m.seq

/-- A command whose writes are made ends (R190, R192, R206, R207, R289). -/
def engEnd (s : State) (d eng : Nat) (m : EngCmd) : State :=
  let s := resMeet s eng m.core m.miss m.res
  if m.out = [] ∧ m.slog = [] ∧ resFree m.res ∧ engSeen s m then
    endCmd (dropCmd s d eng m) m.core m.seat m.task m.tco eng m.seq m.code m.val m.detail m.phys m.res m.word1
  else s

/-! ### TOPK -/

/-- TOPK (R206). -/
def execTopk (d : SDst) (a b : SSrc) (s : State) : Out :=
  .next (withSrcs s 25 [a, b] fun v s =>
    let t := cs s
    let g := stgOf t 6
    let n := (v b).toNat
    let k := bits (g 0) 24 16
    match firstFail [
        failIf (decide (n = 0) || decide (65536 < n) || decide (k = 0) || decide (256 < k) || decide (n < k)) Cause.engGeom,
        engCheck (extOf t (bits (g 0) 3 0)) allTiers true false 4 (v a).toNat (4 * n),
        engCheck (extOf t (bits (g 0) 7 4)) allTiers false true 8 (g 1).toNat (8 * k),
        resCheck (resOf t 6)] with
    | some code => refuseCmd s d 6 code
    | none =>
      let m := engCmdOf s 6 0x0A 0 (v a) (v b) [0, 1] [bits (g 0) 3 0, bits (g 0) 7 4]
      acceptCmd (modDie s (s.cur / 96) fun x => { x with topk := x.topk ++ [m] }) d 6 0 true)

/-- Whether a score ranks before another one (R206): every NaN below every number; ties by the order of the list. -/
def rankBefore (x y : W32) : Bool :=
  let a := val32 x
  let b := val32 y
  if a.isNan then false else if b.isNan then true else decide (fvCmp a b = .gt)

/-- Insert an entry into a ranking of at most `k`. -/
def rankInsert (k : Nat) (e : Nat × W32) (l : List (Nat × W32)) : List (Nat × W32) :=
  let rec go : List (Nat × W32) → List (Nat × W32)
    | [] => [e]
    | y :: t => if rankBefore e.2 y.2 then e :: y :: t else y :: go t
  (go l).take k

/-- The `k` best of some scores (R206). -/
def topOf (k : Nat) (xs : List W32) : List (Nat × W32) := (countUp 0 xs.length).zip xs |>.foldl (fun l e => rankInsert k e l) []

/-- TOPK_COMPLETE (R190, R206, R259, R338): the top-k engine of a die selects for its oldest command, writes, and ends it. -/
def execTopkComplete (d : Fin 4) (s : State) : Out :=
  .next (match engBroken s d.val 6 with | some c => engDown s d.val 6 c | none => if s.widthBusy ≠ [] then s else match (dieAt s d.val).topk with
    | [] => s
    | m :: _ =>
      if m.prog = 0 then
        let cfg := tget 0 m.stg 0
        let e := extIn m (bits cfg 3 0)
        if e.rv then s
        else if e.dm then (if m.miss then s else meetDemandAt s 6 m.core)
        else
          let r := engFetch s (some d.val) m.core (taskTenant m.task) e m.a.toNat (4 * m.b.toNat)
          match r.2.1 with
          | some f => engEnd (putCmd r.1 d.val 6 m (failWrite m f)) d.val 6 (failWrite m f)
          | none =>
            let k := bits cfg 24 16
            let top := topOf k (w32s r.2.2)
            let bs := (top.map fun p => natBytes 4 p.1 ++ natBytes 4 p.2.toNat).flatten
            let m' : EngCmd := { m with prog := 1, val := k, out := cutUnits (bits cfg 7 4) (bs.length / 64 + 2) (tget 0 m.stg 1).toNat bs }
            let q := moveWrites r.1 d.val 6 m'
            engEnd (putCmd q.2 d.val 6 m q.1) d.val 6 q.1
      else
        let q := moveWrites s d.val 6 m
        engEnd (putCmd q.2 d.val 6 m q.1) d.val 6 q.1)

/-! ### GTHR -/

/-- The bytes of a token a gather takes: first byte and number (GSLICE). -/
def gSlice (w : Word) : Nat × Nat := (bits w 15 0, bits w 31 16)

/-- GTHR at issue (R189, R207, R385): the list is read, or the gather commands; the plan writes into the list's extent. -/
def gthrIssue (s : State) (d : SDst) (sub : Nat) (a b : Word) : State :=
  let t := cs s
  let g := stgOf t 7
  let n := b.toNat
  let le := extOf t (bits (g 0) 3 0)
  let de := extOf t (bits (g 0) 7 4)
  let sl := gSlice (g 3)
  let ktok := (kvFmtOf s (if sub = 2 then s.cur / 96 else handleDie (g 1))).ktok
  match firstFail [
      failIf (decide (n = 0) || decide (256 < n) || decide (sl.2 = 0) || decide (sl.2 % 4 ≠ 0) || decide (ktok < sl.1 + sl.2))
        Cause.engGeom,
      (if sub = 2 then engCheck le allTiers true false 16 a.toNat (16 * n) else engCheck le allTiers true false 8 a.toNat (8 * n)),
      (if sub = 1 then engCheck le allTiers false true 16 (g 4).toNat (16 * n)
       else if sub = 0 then engCheck de allTiers false true 1 (g 5).toNat (32 * sl.2 * n) else none),
      resCheck (resOf t 7)] with
  | some code => refuseCmd s d 7 code
  | none =>
    let m := engCmdOf s 7 0x0B sub a b [0, 1, 2, 3, 4, 5] [bits (g 0) 3 0, bits (g 0) 7 4]
    acceptCmd (modDie s (s.cur / 96) fun x => { x with gthr := x.gthr ++ [m] }) d 7 0 true

/-- GTHR.walk (R207). -/
def execGthrWalk (d : SDst) (a b : SSrc) (s : State) : Out :=
  .next (withSrcs s 25 [a, b] fun v s => gthrIssue s d 0 (v a) (v b))

/-- GTHR.plan (R207, R384). -/
def execGthrPlan (d : SDst) (a b : SSrc) (s : State) : Out :=
  .next (withSrcs s 25 [a, b] fun v s => gthrIssue s d 1 (v a) (v b))

/-- GTHR.list (R207). -/
def execGthrList (d : SDst) (a b : SSrc) (s : State) : Out :=
  .next (withSrcs s 25 [a, b] fun v s => gthrIssue s d 2 (v a) (v b))

/-- The gather command for list entry `j` with page index `x` (R384). -/
def gatherCmd (m : EngCmd) (j x : Nat) : Word × Word :=
  let g := fun (i : Nat) => tget 0 m.stg i
  (g 1, pack [(bits (g 2) 15 0, 48), (x, 33), (((g 5).toNat + 32 * j * (gSlice (g 3)).2) % 2 ^ 32, 0)])

/-- What stands in the way of a gather command, or the bytes it writes and where (R369, R385). -/
inductive GatherEnd where
  | wait
  | fail (f : EngFail)
  | got (off : Nat) (bs : List Byte)
  deriving DecidableEq, Repr

/-- The tokens of a page slot by slot: a masked one, or one beyond the bound, reads as zeros (R207, R369). -/
def gatherSlots (hd page : Nat) (pg : Option Nat) (lb bound : Nat) (sl : Nat × Nat) :
    List Nat → State → State × Option (Nat × Nat) × List Byte
  | [], s => (s, none, [])
  | i :: r, s =>
    let t := 32 * page + i
    match (if lb ≤ t ∧ t < bound then pg else none) with
    | none =>
      let q := gatherSlots hd page pg lb bound sl r s
      (q.1, q.2.1, ((countUp 0 sl.2).map fun _ => 0) ++ q.2.2)
    | some g =>
      let a := pageOff s hd g + i * (kvFmtOf s hd).ktok + sl.1
      let x := kvRead s hd 2 a sl.2
      match x.2.1 with
      | some c => (x.1, some (c, failUnit s (some hd) 2 a sl.2), [])
      | none =>
        let q := gatherSlots hd page pg lb bound sl r x.1
        (q.1, q.2.1, x.2.2 ++ q.2.2)

/-- One gather command (R370, R385): `doff` is its destination, which for a walk is not cut to the 32 bits of a command in memory (R207). -/
def gatherOne (s : State) (m : EngCmd) (h w1 : Word) (doff : Nat) : State × GatherEnd :=
  let hd := handleDie h
  let e := handleEnt h
  let f := kvFmtOf s hd
  let sl := gSlice (tget 0 m.stg 3)
  let page := bits w1 47 33
  match handleCheck s hd (taskTenant m.task) h with
  | some c => (s, .fail { cause := c })
  | none =>
    if bitAt (entWord s hd e 0) 61 then (s, .wait)
    else if f.nl ≤ bits w1 63 48 then (s, .fail { cause := Cause.kvLayer })
    else if f.maxp ≤ page then (s, .fail { cause := Cause.walkIndex })
    else if bitAt w1 32 then (s, .fail { cause := Cause.engRsvd })
    else match engCheck (extIn m (bits (tget 0 m.stg 0) 7 4)) allTiers false true 1 doff (32 * sl.2) with
    | some c => (s, .fail { cause := c })
    | none =>
      match kvTableBad s hd e [(bits w1 63 48, page)] with
      | some (c, t, a) => (s, .fail { cause := c, phys := some (t, a) })
      | none =>
        let q := gatherSlots hd page (mapAt s hd e (bits w1 63 48) page) (entLb s hd e) (entBound s hd e) sl (countUp 0 32) s
        match q.2.1 with
        | some (c, a) => (q.1, .fail { cause := c, phys := some (2, a) })
        | none => (q.1, .got doff q.2.2)

/-- The next gather command of a GTHR: from the list of page indices, or from the commands in memory (R207, R384). -/
def nextGather (s : State) (d : Nat) (m : EngCmd) : State × Except EngFail (Word × Word) :=
  let e := extIn m (bits (tget 0 m.stg 0) 3 0)
  let tenant := taskTenant m.task
  if m.sub = 2 then
    let r := engFetch s (some d) m.core tenant e (m.a.toNat + 16 * m.prog) 16
    match r.2.1 with
    | some f => (r.1, .error f)
    | none => let w := wordsOf r.2.2; (r.1, .ok (lget 0 w 0, lget 0 w 1))
  else
    let r := engFetch s (some d) m.core tenant e (m.a.toNat + 8 * m.prog) 8
    match r.2.1 with
    | some f => (r.1, .error f)
    | none =>
      let x := leNat (r.2.2.take 4)
      if 32768 ≤ x then (r.1, .error { cause := Cause.walkIndex }) else (r.1, .ok (gatherCmd m m.prog x))

/-- A GTHR ends with a failure: what it has written stands (R192, R385). -/
def gatherFail (s : State) (d : Nat) (m : EngCmd) (f : EngFail) : State :=
  let m' : EngCmd := { failWrite m f with slog := m.slog }
  engEnd (putCmd s d 7 m m') d 7 m'

/-- Which of its commands the gather engine moves on: no rule orders one behind another, so it is a free value (R361, log 4, log 38). -/
def pickGather (s : State) (d : Nat) : Option EngCmd × State :=
  match (dieAt s d).gthr with
  | [] => (none, s)
  | [m] => (some m, s)
  | m :: t =>
    let r := drawWord s
    (some (lget m (m :: t) (r.1.toNat % (t.length + 1))), r.2)

/-- GATHER_COMMAND_PERFORM (R190, R207, R259, R338, R384, R385): the gather engine of a die makes what a command still has to write,
performs or writes the next gather command, and ends the command after the last. -/
def execGatherCommandPerform (d : Fin 4) (s : State) : Out :=
  .next (match engBroken s d.val 7 with | some c => engDown s d.val 7 c | none => if s.widthBusy ≠ [] then s else match pickGather s d.val with
    | (none, s) => s
    | (some m, s) =>
      if m.out ≠ [] ∨ m.slog ≠ [] ∧ m.b.toNat ≤ m.prog then
        let q := moveWrites s d.val 7 m
        let s := putCmd q.2 d.val 7 m q.1
        if m.b.toNat ≤ q.1.prog then engEnd s d.val 7 q.1 else s
      else if m.b.toNat ≤ m.prog then engEnd s d.val 7 m
      else
        let le := extIn m (bits (tget 0 m.stg 0) 3 0)
        if le.rv then s
        else if le.dm then (if m.miss then s else meetDemandAt s 7 m.core)
        else match (if m.sub ≠ 2 ∧ m.prog = 0 then
            handleCheck s (handleDie (tget 0 m.stg 1)) (taskTenant m.task) (tget 0 m.stg 1) else none) with
        | some c => gatherFail s d.val m { cause := c }
        | none =>
          match nextGather s d.val m with
          | (s, .error f) => gatherFail s d.val m f
          | (s, .ok (h, w1)) =>
            let put := fun (s : State) (x off : Nat) (bs : List Byte) (val : Nat) =>
              let m' : EngCmd := { m with prog := m.prog + 1, val := val, out := cutUnits x (bs.length / 64 + 2) off bs }
              let q := moveWrites s d.val 7 m'
              let s := putCmd q.2 d.val 7 m q.1
              if m.b.toNat ≤ q.1.prog then engEnd s d.val 7 q.1 else s
            if m.sub = 1 then put s (bits (tget 0 m.stg 0) 3 0) ((tget 0 m.stg 4).toNat + 16 * m.prog) (bytesOf [h, w1]) 0
            else match gatherOne s m h w1
                (if m.sub = 0 then (tget 0 m.stg 5).toNat + 32 * m.prog * (gSlice (tget 0 m.stg 3)).2 else bits w1 31 0) with
            | (s, .wait) => s
            | (s, .fail f) => gatherFail s d.val m f
            | (s, .got off bs) => put s (bits (tget 0 m.stg 0) 7 4) off bs (m.val + 1))

end Sys2Proof.Machine
end

