-- ==== Sys2Proof/Machine/Gatherer.lean ====
section
/-!
DEFINITION. The request gatherer: BTAKE (R211, R358), REQUEST_RECORD and BATCH_DEADLINE (R356, R357).
-/
namespace Sys2Proof.Machine

open Sys2Proof

/-- Free the gather slots of a seat that meet a condition (R358). -/
def freeSlots (s : State) (c n : Nat) (p : Nat → Bool) : State :=
  let mine := (seatAt s c n).slots.filter fun x => p x.1
  let s := mine.foldl (fun s x => modGq s x.1 fun g => { g with taken := g.taken.filter (· ≠ x.2) }) s
  modSeat s c n fun t => { t with slots := t.slots.filter fun x => !p x.1 }

/-- A batch record's refusal (R211): bit 63 and the cause. -/
def btakeErr (cause : Nat) : Word := pack [(1, 63), (cause, 0)]

/-- BTAKE (R211, R262, R358): the seat's earlier slot of the queue is free, then the oldest closed batch is taken; a close of this
cycle is not seen (R357). -/
def execBtake (d : SDst) (a : SSrc) (n : BitVec 4) (s : State) : Out :=
  .next (withSrcs s 25 [a] fun v s =>
    let q := (v a).toNat
    let t := cs s
    let e := extOf t n.toNat
    let s := loseCap s t.task
    let s := freeSlots s s.cur (cn s) fun x => decide (x = q)
    if 15 < q ∨ gqTenant s q ≠ taskTenant t.task then sendS s 25 6 d (btakeErr Cause.gatherQueue)
    else
      if !e.v ∨ e.tier ≠ gqTier s q ∨ e.base ≠ gqBase s q ∨ 64 * e.len < gqAreaLen s q then sendS s 25 6 d (btakeErr Cause.gatherExt)
      else match (gqAt s q).closed with
        | [] => sendS s 25 6 d 0
        | (k, g) :: r =>
          if s.gts ≤ g then sendS s 25 6 d 0
          else
            let s := modGq s q fun x => { x with closed := r, taken := k :: x.taken }
            let s := onSeat s fun t => { t with slots := t.slots ++ [(q, k)] }
            sendS s 25 6 d (wordOf (gqSlotOff s q k)))

/-- REQUEST_RECORD (R355 to R357): a record arrives from the control complex; the gatherer takes it at the end of the cycle, in the order of
R356. -/
def execRequestRecord (q : Fin 16) (rec : List Byte) (s : State) : Out := .next (gqArrive s 4 q.val rec)

/-- BATCH_DEADLINE (R357): the open batch whose deadline, by the D the queue has now, was the last cycle's GTS closes with DL = 1 and that GTS,
behind that cycle's records. -/
def execBatchDeadline (q : Fin 16) (s : State) : Out := .next (if gqLate s q.val then gqClose s q.val true (s.gts - 1) else s)

end Sys2Proof.Machine
end

