-- ==== Sys2Proof/Machine/Guard.lean ====
section
/-!
DEFINITION. The extent guards (R255 to R260, R420): revoking, refreshing and abandoning the extents of a range, and the walk of a
demand extent (R258).
-/
namespace Sys2Proof.Machine

open Sys2Proof

/-! ### The extents under the guards -/

/-- An extent under a guard with the task it was made for. -/
structure ExtUse where
  core : Nat
  seat : Nat
  task : Word
  tco : Word
  tenant : Nat
  e : Ext
  deriving DecidableEq, Repr

/-- The extents of a copy command. -/
def cpyExts (m : CpyCmd) : List Ext := m.src :: m.dst :: (match m.res with | some r => [r.1] | none => [])

/-- The extents of an engine's command. -/
def engExts (m : EngCmd) : List Ext := m.exts.map (·.2) ++ (match m.res with | some r => [r.1] | none => [])

/-- The extents of a network record that it uses: that of the record, and those its words name. -/
def netExts (r : NetRec) : List Ext :=
  r.ext :: (if r.words = [] then []
    else (recBuf r).1 :: ((if bitAt (recW r 3) 63 then [tget {} r.exts (bits (recW r 3) 43 40)] else []) ++
      (if bitAt (recW r 4) 63 then [tget {} r.exts (bits (recW r 4) 43 40)] else [])))

/-- The extents that an unfinished network record names, read or not (R403): those of one that has not been read stand in its memory. -/
def netNamed (s : State) (r : NetRec) : List Ext :=
  if r.words ≠ [] then netExts r
  else
    let bs := if r.ext.tier = 0 then spadGet (coreAt s r.core) (spadPlaces r.ext r.off 64)
      else (countUp (r.ext.base + r.off) 64).map (obsByte s none r.ext.tier)
    netExts { r with words := wordsOf bs }

/-- The uses of an engine's command. -/
def engUses (m : EngCmd) : List ExtUse := (engExts m).map fun e => ⟨m.core, m.seat, m.task, m.tco, taskTenant m.task, e⟩

/-- The commands of the engines of the dies and of the collective engine. -/
def allEng (s : State) : List EngCmd :=
  (s.dies.map fun d => d.2.kv ++ d.2.topk ++ d.2.gthr).flatten ++ s.colls.map (·.cmd)

/-- Every extent of the package under a guard (R255). -/
def allUses (s : State) : List ExtUse :=
  (s.cores.map fun c =>
    (c.2.seats.map fun t => t.2.ext.map fun e =>
      (⟨c.1, t.1, t.2.task, t.2.tco, taskTenant t.2.task, e.2⟩ : ExtUse)).flatten ++
    (c.2.ch.map fun x => (x.2.cmds.map fun m => (cpyExts m).map fun e =>
      (⟨c.1, m.seat, m.task, m.tco, taskTenant m.task, e⟩ : ExtUse)).flatten).flatten).flatten ++
  ((allEng s).map engUses).flatten ++
  (s.streams.map fun x => (x.2.itin :: (match x.2.res with | some r => [r.1] | none => [])).map fun e =>
    (⟨x.2.core, x.2.seat, x.2.task, x.2.tco, x.2.tenant, e⟩ : ExtUse)).flatten ++
  (s.netRecs.map fun r => (netExts r).map fun e => (⟨r.core, r.seat, r.task, r.tco, r.tenant, e⟩ : ExtUse)).flatten

/-- Change the extents of an engine's command; `f` is told its core and its task. -/
def mapEng (f : Nat → Word → Ext → Ext) (m : EngCmd) : EngCmd :=
  { m with exts := m.exts.map fun e => (e.1, f m.core m.task e.2), res := m.res.map fun r => (f m.core m.task r.1, r.2) }

/-- Change the extents of a copy command. -/
def mapCpy (f : Nat → Word → Ext → Ext) (c : Nat) (m : CpyCmd) : CpyCmd :=
  { m with src := f c m.task m.src, dst := f c m.task m.dst, res := m.res.map fun r => (f c m.task r.1, r.2) }

/-- Change the extents of a core's seats and channels. -/
def mapCore (f : Nat → Word → Ext → Ext) (c : Nat) (k : Core) : Core :=
  { k with seats := k.seats.map fun t => (t.1, { t.2 with ext := t.2.ext.map fun e => (e.1, f c t.2.task e.2) }),
           ch := k.ch.map fun x => (x.1, { x.2 with cmds := x.2.cmds.map (mapCpy f c) }) }

/-- Change the extents of a die's engines. -/
def mapDie (f : Nat → Word → Ext → Ext) (d : Die) : Die :=
  { d with kv := d.kv.map (mapEng f), topk := d.topk.map (mapEng f), gthr := d.gthr.map (mapEng f) }

/-- Change the extents of a stream; its task word names its tenant. -/
def mapStr (f : Nat → Word → Ext → Ext) (x : Stream) : Stream :=
  { x with itin := f x.core x.task x.itin, res := x.res.map fun r => (f x.core x.task r.1, r.2) }

/-- Change the extents of a network record. -/
def mapNet (f : Nat → Word → Ext → Ext) (r : NetRec) : NetRec :=
  { r with ext := f r.core r.task r.ext, exts := r.exts.map fun e => (e.1, f r.core r.task e.2) }

/-- Change every extent under a guard. -/
def mapExts (f : Nat → Word → Ext → Ext) (s : State) : State :=
  { s with cores := s.cores.map fun c => (c.1, mapCore f c.1 c.2), dies := s.dies.map fun d => (d.1, mapDie f d.2),
           colls := s.colls.map fun x => { x with cmd := mapEng f x.cmd },
           streams := s.streams.map fun x => (x.1, mapStr f x.2), netRecs := s.netRecs.map (mapNet f) }

/-! ### The range of an operation -/

/-- The operation that a write of XRCTL starts, over the range as the registers give it. -/
def xrOp (s : State) (v : Word) : XrOp := ⟨v, mreg s .xrbase, mreg s .xrlen⟩

/-- Whether bytes of an extent of a core lie in the range of an operation (R420): `a` is the physical place of the first and `n` their
number. -/
def rangeMeets (s : State) (x : XrOp) (c : Nat) (e : Ext) (a n : Nat) : Bool :=
  let v := x.ctl
  let t := bits v 63 61
  let base := x.base.toNat
  let len := x.len.toNat
  let named := bits v 43 42 * 96 + bits v 41 35
  let off := a % 2 ^ 22
  if t = 0 then
    decide (bits v 41 35 < 96) &&
    (if e.tier = 0 then decide (c = named) && meets base len off n
     else decide (e.tier = 1) && decide (peerChip e = chipNo s) && decide (peerCore e = named) && meets base len off n)
  else if t = 1 then
    let o := base % 2 ^ 22
    decide (e.tier = 1) && decide (e.base / 2 ^ 33 = base / 2 ^ 33) && meets o (min len (2 ^ 22 - o)) off n
  else decide (e.tier = t) && meets base len a n

/-- Whether the tenant filter of an operation passes a tenant (Table 11-9). -/
def filterPass (v : Word) (tenant : Nat) : Bool := !bitAt v 60 || decide (bits v 59 44 = tenant)

/-- Whether an operation covers an extent (R256, R420): one on demand has no physical range. -/
def covers (s : State) (x : XrOp) (c : Nat) (tenant : Nat) (e : Ext) : Bool :=
  e.v && !(e.dm && e.virtual) && filterPass x.ctl tenant && rangeMeets s x c e e.base (64 * e.len)

/-! ### REVOKE -/

/-- REVOKE (R255, R256): every covered extent is marked within the cycle; BUSY stays until the guards have acknowledged. -/
def revokeOp (s : State) (v : Word) : State :=
  let x := xrOp s v
  let s := mapExts (fun c w e => if covers s x c (taskTenant w) e then { e with rv := true } else e) s
  { (modMreg s .xrctl fun w => setBits w 1 1 1) with xr := some x }

/-- Whether a message that has not been answered reaches the range: its scratchpad, or the memory of this package that its DUNIT names. -/
def msgMeets (s : State) (x : XrOp) (c : Nat) (m : Msg) : Bool :=
  let off := (m.flits.head?.map (·.off)).getD 0
  if m.dunit < 16 then
    rangeMeets s x c { tier := 1, base := m.dchip * 2 ^ 42 + m.ddie * 2 ^ 40 + m.dcore * 2 ^ 33 + off }
      (m.dchip * 2 ^ 42 + m.ddie * 2 ^ 40 + m.dcore * 2 ^ 33 + off) ((m.flits.map fun f => f.data.length).foldl (· + ·) 0)
  else rangeMeets s x c { tier := m.dunit - 16, base := off } off (2 ^ bits (payWord m 0) 55 54)

/-- Whether an access translated before the mark is still under way in the range (R256): a buffered write, a store in a core, a request or a
message of this package that is not answered or waits for its pins. -/
def underWay (s : State) (x : XrOp) : Bool :=
  let whole := fun (t a n : Nat) (c : Nat) => rangeMeets s x c { tier := t, base := a } a n
  s.wbuf.any (fun w => whole w.tier w.addr w.bytes.length 0) ||
  (s.cores.any fun c =>
    (c.2.effs.any fun e => (storePlaces e.land).any fun p => whole 0 p 1 c.1) ||
    (c.2.sent.any fun y => msgMeets s x c.1 y.msg)) ||
  (s.hold.any fun h => decide (h.msg.schip = chipNo s) && msgMeets s x (h.msg.sdie * 96 + h.msg.score) h.msg) ||
  s.engSent.any fun y => decide (y.agent = agGather) && msgMeets s x 384 y.msg

/-! ### Freed allocations -/

/-- Revoke every tier 1 extent of the package over an allocation (R249, R256). -/
def revokeOver (s : State) (c : Nat) (a : Alloc) : State :=
  mapExts (fun _ _ e =>
    if e.v ∧ e.tier = 1 ∧ peerChip e = chipNo s ∧ peerCore e = c ∧ meets (e.base % 2 ^ 22) (64 * e.len) a.base a.bytes then
      { e with rv := true } else e) s

/-- Remove the scheduler's grant entries over an allocation (R327). -/
def dropGrants (s : State) (c : Nat) (a : Alloc) : State :=
  (countUp 0 32).foldl (fun s i =>
    if bitAt (grantWord s c i 0) 63 && bitAt (grantWord s c i 0) 62 && decide (bits (grantWord s c i 0) 21 0 = a.base) &&
        decide (bits (grantWord s c i 1) 22 0 = a.bytes) then
      setMreg (setMreg s (.grant ((c * 32 + i) * 2)) 0) (.grant ((c * 32 + i) * 2 + 1)) 0
    else s) s

/-- The scratchpad range of an allocation. -/
def allocOp (c : Nat) (a : Alloc) : XrOp := ⟨pack [(c / 96, 42), (c % 96, 35)], wordOf a.base, wordOf a.bytes⟩

/-- A freed allocation whose extents are revoked: its grants go once the guards have acknowledged (R256, R327). -/
def settleAlloc (s : State) (c : Nat) (a : Alloc) : State :=
  if underWay s (allocOp c a) then { s with freeing := s.freeing ++ [(c, a)] } else dropGrants s c a

/-- Free an allocation: the extents of other cores over it are revoked, then its grants removed (R249, R327). -/
def freeAlloc (s : State) (c : Nat) (a : Alloc) : State := settleAlloc (revokeOver s c a) c a

/-- Look at the freed allocations again. -/
def settleFreed (s : State) : State := s.freeing.foldl (fun s p => settleAlloc s p.1 p.2) { s with freeing := [] }

/-- GUARD_ACK (R256, R257, R327): when no access translated before the mark is under way, the guards acknowledge and BUSY clears; so for the
revocations of freed allocations. -/
def execGuardAck (s : State) : Out :=
  .next (settleFreed (match s.xr with
    | none => s
    | some x => if underWay s x then s else { (modMreg s .xrctl fun w => setBits w 1 1 0) with xr := none }))

/-! ### REFRESH -/

/-- What walking some extents again comes to: each old extent, with its core and task, beside its new one, and whether a walk has failed. -/
structure Rewalked where
  st : State
  new : List (Nat × Word × Ext × Ext) := []
  failed : Bool := false

/-- Walk the extents of some uses again, a failure posted (R258). -/
def rewalk (s : State) : List ExtUse → Rewalked
  | [] => { st := s }
  | u :: t =>
    if !u.e.virtual then
      let r := rewalk s t
      { r with new := (u.core, u.task, u.e, { u.e with rv := false }) :: r.new }
    else
      match translateExt s u.tenant u.e with
      | (s, .ok e) => let r := rewalk s t; { r with new := (u.core, u.task, u.e, e) :: r.new }
      | (s, .error f) => { rewalk (postPage s u.task u.tco u.core u.seat u.e f) t with failed := true }

/-- Put walked extents in the places of the old ones, core by core. -/
def replaceExts (s : State) (rs : List (Nat × Word × Ext × Ext)) : State :=
  mapExts (fun c w e =>
    match rs.find? fun r => decide (r.1 = c) && decide (r.2.1 = w) && decide (r.2.2.1 = e) with | some r => r.2.2.2 | none => e) s

/-- Engines that wait after a failed demand walk look at their extents again (R258): those of every tenant that the filter passes (log 33). -/
def clearMiss (s : State) (v : Word) : State :=
  let eng := fun (m : EngCmd) => if filterPass v (taskTenant m.task) then { m with miss := false } else m
  let cpy := fun (m : CpyCmd) => if filterPass v (taskTenant m.task) then { m with miss := false } else m
  let str := fun (x : Stream) => if filterPass v x.tenant then { x with miss := false, noted := [], missAt := [] } else x
  let net := fun (r : NetRec) => if filterPass v r.tenant then { r with miss := false } else r
  { s with cores := s.cores.map fun c => (c.1, { c.2 with ch := c.2.ch.map fun x => (x.1, { x.2 with cmds := x.2.cmds.map cpy }) }),
           dies := s.dies.map fun d => (d.1, { d.2 with kv := d.2.kv.map eng, topk := d.2.topk.map eng, gthr := d.2.gthr.map eng }),
           colls := s.colls.map fun x => { x with cmd := eng x.cmd },
           streams := s.streams.map fun x => (x.1, str x.2), netRecs := s.netRecs.map net }

/-- REFRESH (R258). -/
def refreshOp (s : State) (v : Word) : State :=
  let x := xrOp s v
  let us := ((allUses s).filter fun u => u.e.rv && covers s x u.core u.tenant u.e).eraseDups
  let r := rewalk s us
  let s := replaceExts r.st r.new
  netRetry (if r.failed then s else clearMiss s v)

/-! ### ABANDON -/

/-- Whether the bytes at an offset of an extent lie in the range of an operation. -/
def bytesMeet (s : State) (x : XrOp) (c : Nat) (e : Ext) (off n : Nat) : Bool :=
  rangeMeets s x c e (if e.tier = 0 then spadPhys e off else e.base + off) n

/-- The first side-log unit or held read of a copy command in the range: its offset, extent and engine (R260). -/
def cpyAbandon (s : State) (x : XrOp) (c h : Nat) (m : CpyCmd) : Option (Nat × Nat) :=
  let y := chanOf s c h
  if !filterPass x.ctl (taskTenant m.task) then none
  else match y.slog.find? fun u => decide (u.seat = m.seat) && decide (u.seq = m.seq) &&
      bytesMeet s x c m.dst (cpyDst m u.pos) u.bytes.length with
  | some u => some (m.dext + 16 * h, cpyDst m u.pos)
  | none =>
    match (if m.started && decide (m.code = 0) && m.mode ≠ 6 && m.src.rv then cpySrc m (fillPieces m (m.rows + 1) m.rd).2 else none) with
    | some off => if bytesMeet s x c m.src off (unitLeft m.src off) then some (m.sext + 16 * h, off) else none
    | none => none

/-- Abandon the affected commands of a core's channels. -/
def abandonCore (x : XrOp) (s : State) (c : Nat) : State :=
  (countUp 0 4).foldl (fun s h =>
    (tget {} (coreAt s c).ch h).cmds.foldl (fun s m =>
      match cpyAbandon s x c h m with
      | some p => failCmd s c h m.seat m.seq Cause.extAbandon none (some p)
      | none => s) s) s

/-- What an engine's command holds on while the extent is revoked (Table 11-10): extent number, offset and bytes of what it reads next; of a
collective also its destination. -/
def engReads (s : State) (m : EngCmd) : List (Nat × Nat × Nat) :=
  let g := fun (i : Nat) => tget 0 m.stg i
  if m.eng = 5 then
    (if m.prog ≠ 0 then [] else if m.op = 5 then [(bits (g 0) 3 0, m.a.toNat, 4 * m.b.toNat)]
     else if m.op = 6 then [(bits (g 0) 3 0, m.b.toNat, (g 2).toNat)] else [])
  else if m.eng = 6 then (if m.prog = 0 then [(bits (g 0) 3 0, m.a.toNat, 4 * m.b.toNat)] else [])
  else if m.eng = 7 then
    (if m.b.toNat ≤ m.prog then []
     else let w := if m.sub = 2 then 16 else 8
          [(bits (g 0) 3 0, m.a.toNat + w * m.prog, w)])
  else match s.colls.find? fun y => decide (y.cmd = m) && y.came with
    | none => []
    | some y =>
      if m.sub = copBarrier then []
      else
        let sz := collBytes m.sub (collSize s y.gid) (g 1).toNat (collElt (bits (g 0) 13 8))
        [(bits (g 0) 19 16, m.a.toNat, sz.1), (bits (g 0) 23 20, m.b.toNat, sz.2)]

/-- Whether an engine has come to a command: the KV and top-k engines take theirs in order. -/
def engTurn (s : State) (m : EngCmd) : Bool :=
  !s.dies.any fun d => (d.2.kv.takeWhile (· ≠ m)).any (fun y => decide (y.prog = 0) && d.2.kv.contains m) ||
    (d.2.topk.contains m && d.2.topk.head? ≠ some m)

/-- The first side-log unit or held read of an engine's command in the range (R260). -/
def engAbandon (s : State) (x : XrOp) (m : EngCmd) : Option (Nat × Nat) :=
  if !filterPass x.ctl (taskTenant m.task) then none
  else match m.slog.find? fun u => bytesMeet s x m.core (extIn m u.2.1) u.2.2.1 u.2.2.2.length with
  | some u => some (u.2.1 + 16 * m.eng, u.2.2.1)
  | none =>
    match (if engTurn s m then engReads s m else []).find? fun r => (extIn m r.1).rv && bytesMeet s x m.core (extIn m r.1) r.2.1 r.2.2 with
    | some r => some (r.1 + 16 * m.eng, r.2.1)
    | none => none

/-- End an engine's command with EXT_ABANDON. -/
def abandonEng (x : XrOp) (s : State) (m : EngCmd) : State :=
  match engAbandon s x m with
  | none => s
  | some p =>
    let drop := fun (d : Die) => { d with kv := d.kv.erase m, topk := d.topk.erase m, gthr := d.gthr.erase m }
    let s := { s with dies := s.dies.map fun d => (d.1, drop d.2), colls := s.colls.filter fun x => x.cmd ≠ m }
    endCmd s m.core m.seat m.task m.tco m.eng m.seq Cause.extAbandon 0 none (some p) (if resFree m.res then m.res else none) 0

/-- End the streams that hold on the next entry of an itinerary in the range. -/
def abandonStr (x : XrOp) (s : State) (t : Nat) : State :=
  let y := strAt s t
  if y.st = 1 ∧ y.next < y.n ∧ y.itin.rv ∧ filterPass x.ctl y.tenant ∧ bytesMeet s x y.core y.itin (y.ioff + 32 * y.next) 32 then
    endStream (stopStreamAt s t Cause.extAbandon y.next none (some (y.iext + 16 * 4, y.ioff + 32 * y.next))) t
  else s

/-- What a record of the network engine holds on while the extent is revoked: extent number, extent, offset and bytes of the record while it
is unread, then of a send's source. -/
def netReads (r : NetRec) : Option (Nat × Ext × Nat × Nat) :=
  if r.words = [] then some (((r.exts.find? fun e => decide (e.2 = r.ext)).map (·.1)).getD 0, r.ext, r.off, 64)
  else if r.send then some (bits (recW r 0) 51 48, (recBuf r).1, (recBuf r).2, recLen r)
  else none

/-- End the records of the network engine that hold on an extent in the range. -/
def abandonNet (x : XrOp) (s : State) (r : NetRec) : State :=
  match netReads r with
  | some (i, e, off, n) =>
    if e.rv && filterPass x.ctl r.tenant && bytesMeet s x r.core e off n then netFail s r.key Cause.extAbandon none (some (i + 16 * 8, off))
    else s
  | none => s

/-- ABANDON (R260): the extents stay revoked. -/
def abandonOp (s : State) (v : Word) : State :=
  let x := xrOp s v
  let s := (s.cores.map (·.1)).foldl (abandonCore x) s
  let s := (allEng s).foldl (abandonEng x) s
  let s := (countUp 0 16).foldl (abandonStr x) s
  s.netRecs.foldl (abandonNet x) s

/-! ### XRCTL -/

/-- A write of XRCTL (R255, Table 11-9): the fields, and the operation when GO starts one.  Bits [3:2], which stand in no row of the table, are
kept (DESIGN CHOICE, log 33). -/
def xrctlWrite (s : State) (v : Word) : State :=
  if bitAt v 0 && ckBusy s then deferWrite s .xrctl v else
  let busy := bitAt (mreg s .xrctl) 1
  let s := setMreg s .xrctl (setBits (setBits (setBits v 0 0 0) 34 8 0) 1 1 (if busy then 1 else 0))
  if busy || !bitAt v 0 || decide (6 ≤ bits v 63 61) then s
  else match bits v 7 4 with
    | 1 => revokeOp s v
    | 2 => refreshOp s v
    | 3 => abandonOp s v
    | _ => s

/-- REVOKE: a write of XRCTL with OP 1 (R255, R256). -/
def execRevoke (v : Word) (s : State) : Out := .next (if bits v 7 4 = 1 then xrctlWrite s v else s)
/-- REFRESH: a write of XRCTL with OP 2 (R255, R258). -/
def execRefresh (v : Word) (s : State) : Out := .next (if bits v 7 4 = 2 then xrctlWrite s v else s)
/-- ABANDON: a write of XRCTL with OP 3 (R255, R260). -/
def execAbandon (v : Word) (s : State) : Out := .next (if bits v 7 4 = 3 then xrctlWrite s v else s)

/-! ### Demand extents -/

/-- The extents of a core's consumer seat that the started copies of a stream write (R349). -/
def hextUses (s : State) (c : Nat) (x : Stream) : List ExtUse :=
  match consumerSeat s x c with
  | none => []
  | some n =>
    let t := seatAt s c n
    (x.ents.filter fun e => decide (hopSt x e.1 2 = 1) && (consumers e.2).contains c && !h2Over x e.1 c (shardLen e.2)).map fun e =>
      ⟨c, n, t.task, t.tco, taskTenant t.task, extOf t (entBits e.2 3 31 28)⟩

/-- The demand extents that an engine has met in a command that a core issued, or at a core that a stream serves: with the task each belongs
to. -/
def demandUses (s : State) (n c : Nat) : List ExtUse :=
  let head := fun (l : List (List ExtUse)) => (l.find? fun us => us.any fun u => u.e.dm && !u.e.rv).getD []
  let engs := fun (l : List EngCmd) => head ((l.filter fun m => decide (m.core = c) && !m.miss).map engUses)
  let us :=
    if n < 4 then head (((tget {} (coreAt s c).ch n).cmds.filter fun m => !m.miss).map fun m =>
      (cpyExts m).map fun e => (⟨c, m.seat, m.task, m.tco, taskTenant m.task, e⟩ : ExtUse))
    else if n = 4 then
      let run := (s.streams.map (·.2)).filter fun x => decide (x.st ≠ 0)
      head ((run.filter fun x => decide (x.core = c) && !x.miss).map (fun x =>
          (x.itin :: (match x.res with | some r => [r.1] | none => [])).map fun e => (⟨c, x.seat, x.task, x.tco, x.tenant, e⟩ : ExtUse)) ++
        ((run.filter fun x => !x.missAt.contains c).map (hextUses s c)))
    else if n = 5 then engs ((s.dies.map fun d => d.2.kv).flatten)
    else if n = 6 then engs ((s.dies.map fun d => d.2.topk).flatten)
    else if n = 7 then engs ((s.dies.map fun d => d.2.gthr).flatten)
    else if n = 8 then head ((s.netRecs.filter fun r => decide (r.core = c) && !r.miss).map fun r =>
      (netExts r).map fun e => (⟨c, r.seat, r.task, r.tco, r.tenant, e⟩ : ExtUse))
    else if n = 9 then engs (s.colls.map (·.cmd))
    else []
  (us.filter fun u => u.e.dm && !u.e.rv).eraseDups

/-- The commands that use an extent wait for a REFRESH (R258). -/
def setMiss (s : State) (n : Nat) (u : ExtUse) : State :=
  let eng := fun (m : EngCmd) => if m.task = u.task ∧ m.core = u.core ∧ (engExts m).contains u.e then { m with miss := true } else m
  let cpy := fun (m : CpyCmd) => if m.task = u.task ∧ (cpyExts m).contains u.e then { m with miss := true } else m
  let str := fun (x : Stream) =>
    if x.core = u.core ∧ (x.itin = u.e ∨ x.res.map (·.1) = some u.e) then { x with miss := true }
    else if x.st ≠ 0 ∧ x.tenant = u.tenant then { x with missAt := u.core :: x.missAt } else x
  let net := fun (r : NetRec) => if r.task = u.task ∧ r.core = u.core ∧ (netExts r).contains u.e then { r with miss := true } else r
  if n < 4 then modCore s u.core fun k => { k with ch := tmod {} n (fun x => { x with cmds := x.cmds.map cpy }) k.ch }
  else if n = 4 then { s with streams := s.streams.map fun x => (x.1, str x.2) }
  else if n = 8 then { s with netRecs := s.netRecs.map net }
  else if n = 9 then { s with colls := s.colls.map fun x => { x with cmd := eng x.cmd } }
  else { s with dies := s.dies.map fun d => (d.1, { d.2 with kv := d.2.kv.map eng, topk := d.2.topk.map eng, gthr := d.2.gthr.map eng }) }

/-- Walk the demand extents an engine has met: each takes its place and DM := 0, or DEMAND_MISS is posted and its command waits
(R258), behind PAGE_SPLIT where that is why (Table 11-4). -/
def walkDemand (n : Nat) : List ExtUse → State → State
  | [], s => s
  | u :: t, s =>
    match (if u.e.virtual then translateExt s u.tenant u.e else (s, .ok { u.e with dm := false })) with
    | (s, .ok e) => walkDemand n t (replaceExts s [(u.core, u.task, u.e, e)])
    | (s, .error f) =>
      let s := if f.cause = Cause.pageSplit then postPage s u.task u.tco u.core u.seat u.e f else s
      walkDemand n t (setMiss (postTask s u.task u.tco u.core u.seat Cause.demandMiss none (wordOf f.va) (pageInfo1 u.e f)) n u)

/-- DEMAND_WALK (R253, R258): engine `n` has met a demand extent of a command that core `c` issued. -/
def execDemandWalk (n : Fin 12) (c : CoreId) (s : State) : Out :=
  .next (netRetry (walkDemand n.val (demandUses s n.val c.val) s))

end Sys2Proof.Machine
end

