-- ==== Sys2Proof/Machine/Record.lean ====
section
/-!
DEFINITION. Launch records and program headers: their fields and the checks a launch passes when it is consumed (R222, R223, R226,
R227, R120).
-/
namespace Sys2Proof.Machine

open Sys2Proof

/-! ### Fields -/

/-- Word `i` of a launch record (Table 10-5). -/
def lrW (l : Launch) (i : Nat) : Word := lget 0 l.recd i
/-- LVL of a launch. -/
def lrLvl (l : Launch) : Nat := bits (lrW l 0) 61 59
/-- NTASK of a launch. -/
def lrNtask (l : Launch) : Nat := bits (lrW l 0) 51 32
/-- DSIZE of a launch. -/
def lrDsize (l : Launch) : Nat := bits (lrW l 0) 10 0
/-- HDR of a launch. -/
def lrHdr (l : Launch) : Nat := bits (lrW l 1) 56 0
/-- BUFT of a launch. -/
def lrBuft (l : Launch) : Nat := bits (lrW l 2) 56 0
/-- SIG of a launch. -/
def lrSig (l : Launch) : Nat := bits (lrW l 3) 56 0
/-- WAIT of a launch. -/
def lrWait (l : Launch) : Nat := bits (lrW l 4) 56 0
/-- The domains of a launch. -/
def lrDoms (l : Launch) : Nat := lrNtask l / lrDsize l

/-- Word `i` of the header block (Table 10-6). -/
def hdW (l : Launch) (i : Nat) : Word := lget 0 l.hdr i
/-- SEATS of a header: co-resident tasks of the kernel per core. -/
def hdSeats (l : Launch) : Nat := bits (hdW l 0) 31 30 + 1
/-- Whether a header declares the array claim. -/
def hdCA (l : Launch) : Bool := bitAt (hdW l 0) 29
/-- Whether a header declares the rotator claim. -/
def hdCR (l : Launch) : Bool := bitAt (hdW l 0) 28
/-- The counts NSCR, NBUF, NEXT and NREG of a header. -/
def hdCounts (w : Word) : Nat × Nat × Nat × Nat := (bits w 36 32, bits w 41 37, bits w 46 42, bits w 51 47)

/-- BYTES of a scratch entry. -/
def scBytes (w : Word) : Nat := bits w 31 0
/-- SPAN of a scratch entry. -/
def scSpan (w : Word) : Nat := bits w 34 32
/-- The span in bytes (R25). -/
def spanBytes (sp : Nat) : Nat := 16 * 2 ^ sp
/-- EN of an extent entry. -/
def exEn (w : Word) : Nat := bits w 3 0
/-- IDX of an extent entry. -/
def exIdx (w : Word) : Nat := bits w 8 5
/-- Whether an extent entry has a buffer as its source. -/
def exBuf (w : Word) : Bool := bitAt w 4
/-- ACC of an extent entry. -/
def exAcc (w : Word) : Nat := bits w 11 10
/-- DEM of an extent entry. -/
def exDem (w : Word) : Bool := bitAt w 12

/-- Word `j` of buffer entry `i` of the launch buffer table (R227). -/
def btW (l : Launch) (i j : Nat) : Word := lget 0 l.bt (2 * i + j)
/-- Whether buffer entry `i` is a peer buffer. -/
def btPeer (l : Launch) (i : Nat) : Bool := decide (bits (btW l i 0) 63 62 = 1)
/-- Word 0 of object entry `o` of the launch buffer table. -/
def obW (l : Launch) (o : Nat) : Word := lget 0 l.bt (2 * (l.buf.length + o))

/-- The cores a unit of each level holds (R223, Table 10-5). -/
def unitCores : Nat → Nat
  | 0 => 1
  | 1 => 2
  | 2 => 8
  | 3 => 96
  | _ => 384

/-- The allocation indices the peer buffers of a launch name. -/
def peerAllocs (l : Launch) : List Nat :=
  ((List.range l.buf.length).filter (btPeer l)).map (fun i => bits (btW l i 0) 3 0) |>.eraseDups

/-! ### The checks of the record and the header -/

/-- Whether a reserved field of a record is not zero, or a reserved LVL or NARG is given (R223 item 1). -/
def lrecRsvd (l : Launch) : Bool :=
  decide (bits (lrW l 0) 55 52 ≠ 0) || decide (bits (lrW l 0) 31 11 ≠ 0) || decide (5 ≤ lrLvl l) ||
  decide (bits (lrW l 0) 58 57 = 3) || ([1, 2, 3, 4].any fun i => decide (bits (lrW l i) 63 57 ≠ 0)) || bitAt (lrW l 5) 63

/-- Whether the counts or the alignment of a record are bad (R223 item 2). -/
def lrecBadForm (l : Launch) : Bool :=
  decide (lrNtask l = 0) || decide (lrDsize l = 0) || decide (lrNtask l % lrDsize l ≠ 0) ||
  decide (lrHdr l % 64 ≠ 0) || decide (lrBuft l % 16 ≠ 0) || decide (lrSig l % 8 ≠ 0) || decide (lrWait l % 8 ≠ 0)

/-- Whether the 32-byte block of a header is malformed (R226); CODE and CSIZE that Table 10-6 does not allow count too. -/
def hdrBlockBad (h : List Word) : Bool :=
  let w := fun i => lget (0 : Word) h i
  let c := hdCounts (w 2)
  decide (bits (w 0) 63 56 ≠ 1) || decide (bits (w 0) 27 14 ≠ 0) || decide (bits (w 0) 1 0 = 3) || decide (bits (w 0) 7 2 ≠ 0) ||
  ((bitAt (w 0) 29 || bitAt (w 0) 28) && decide (bits (w 0) 31 30 ≠ 0)) ||
  decide (bits (w 1) 63 57 ≠ 0) || decide (bits (w 1) 5 0 ≠ 0) || decide (bits (w 2) 63 52 ≠ 0) ||
  decide (16 < c.1) || decide (16 < c.2.1) || decide (16 < c.2.2.1) || decide (16 < c.2.2.2) ||
  decide (bits (w 2) 1 0 ≠ 0) || decide (bits (w 2) 31 0 < 4) || decide (2 ^ 24 < bits (w 2) 31 0) || decide (w 3 ≠ 0)

/-- Whether the tables of a header are malformed (R226). -/
def hdrTablesBad (l : Launch) : Bool :=
  (l.scr.any fun w => decide (bits w 63 35 ≠ 0) || decide (6 ≤ scSpan w) || decide (scBytes w % 64 ≠ 0) ||
    decide (scBytes w % spanBytes (scSpan w) ≠ 0)) ||
  decide (2 ^ 22 < (l.scr.map scBytes).foldl (· + ·) 0) ||
  (l.buf.any fun w => decide (bits w 63 2 ≠ 0)) ||
  (l.exts.any fun w => decide (bits w 63 13 ≠ 0) || bitAt w 9 || decide (exAcc w = 0) ||
    decide ((if exBuf w then l.buf.length else l.scr.length) ≤ exIdx w)) ||
  decide ((l.exts.map exEn).eraseDups.length ≠ l.exts.length) ||
  l.regs.any fun w => decide (bits w 63 8 ≠ 0)

/-- The cores a unit of a level can hold on the dies that are powered up (R223, R411). -/
def ableCores (s : State) (level : Nat) : Nat :=
  let dies := ((List.range 4).filter fun d => s.dieEn.getLsbD d).length
  if dies = 0 then 0 else if level < 4 then unitCores level else 96 * dies

/-- Whether a domain is larger than a unit of its level can hold (R223 item 4, R411). -/
def gangTooBig (s : State) (l : Launch) : Bool :=
  decide (ableCores s (lrLvl l) * hdSeats l < lrDsize l) || ((hdCA l || hdCR l) && decide (ableCores s (lrLvl l) < lrDsize l))

/-- Whether an entry of the launch buffer table is one the header cannot use (R223 item 5, R227). -/
def bufBad (l : Launch) (i : Nat) : Bool :=
  let w := btW l i 0
  match bits w 63 62 with
  | 0 => decide (bits w 61 57 ≠ 0) || decide (bits (btW l i 1) 63 39 ≠ 0) || decide (2 ^ 38 < bits (btW l i 1) 38 0)
  | 1 => decide (bits w 7 4 ≠ 0) || decide (bits w 61 8 ≠ 0) || decide (btW l i 1 ≠ 0) || decide (l.scr.length ≤ bits w 3 0) ||
         decide (lrLvl l = 0) || decide (lrDsize l % 2 ≠ 0)
  | _ => true

/-- Whether an object entry of the launch buffer table is malformed. -/
def objBad (l : Launch) (o : Nat) : Bool :=
  let w := obW l o
  decide (lget (0 : Word) l.bt (2 * (l.buf.length + o) + 1) ≠ 0) || decide (bits w 62 62 ≠ 0) || decide (bits w 55 40 ≠ 0) ||
  (bitAt w 63 && decide (bits w 39 0 % 8 ≠ 0))

/-! ### Extents -/

/-- RD and W of an access code. -/
def accExt (acc : Nat) (e : Ext) : Ext := { e with rd := acc % 2 = 1, w := 2 ≤ acc }

/-- A virtual buffer's extent before translation (R227, R228).  One on demand shows TIER 0 until its walk: the spec gives it no tier (R189
check 4, Table 5-1 check 2; DESIGN CHOICE, log 33). -/
def virtExt (l : Launch) (x : Word) : Ext :=
  let i := exIdx x
  accExt (exAcc x) { v := true, virt := bits (btW l i 0) 56 0, len := bits (btW l i 1) 38 0 / 64, virtual := true,
                     pgsz := bits (lget 0 l.buf i) 1 0, dm := exDem x }

/-- Translate the virtual buffers of a launch: each extent number with its extent, or the first failure (R228). -/
def virtExts (l : Launch) (tenant : Nat) : List Word → State → State × Except (Ext × PageFail) (List (Nat × Ext))
  | [], s => (s, .ok [])
  | x :: t, s =>
    if !exBuf x || btPeer l (exIdx x) then virtExts l tenant t s
    else
      let e := virtExt l x
      let r := if exDem x then (s, Except.ok e) else translateExt s tenant e
      match r with
      | (s, .error f) => (s, .error (e, f))
      | (s, .ok e) =>
        match virtExts l tenant t s with
        | (s, .error f) => (s, .error f)
        | (s, .ok es) => (s, .ok ((exEn x, e) :: es))

/-- Whether a scope reaches a place (R120): `die` is the die of the task, when it is known. -/
def scopeReaches (s : State) (scope : Nat) (die : Option Nat) (e : Ext) : Bool :=
  match e.tier with
  | 0 => true
  | 1 =>
    if scope = 3 then true
    else if scope = 2 then decide (peerChip e = chipNo s)
    else if scope = 1 then decide (peerChip e = chipNo s) && (match die with | some d => decide (peerCore e / 96 = d) | none => true)
    else false
  | 4 => decide (2 ≤ scope)
  | _ => decide (1 ≤ scope)

/-- Whether the sync words of a launch lie where their scopes reach, as far as the translated extents tell (R120). -/
def syncReach (s : State) (l : Launch) (die : Option Nat) (es : List (Nat × Ext)) : Bool :=
  (List.range 16).all fun o =>
    let w := obW l o
    !bitAt w 63 ||
    (match l.exts.find? fun x => decide (exEn x = bits w 59 56) with
     | none => true
     | some x =>
       if !exBuf x then true
       else if btPeer l (exIdx x) then decide (1 ≤ bits w 61 60)
       else match es.find? fun e => decide (e.1 = exEn x) with
         | some e => e.2.dm || scopeReaches s (bits w 61 60) die e.2
         | none => true)

/-! ### The check of a launch -/

/-- What the check of a launch comes to. -/
inductive Checked where
  | ok (l : Launch)
  | fail (code : Nat)
  | stall (acc : Nat) (f : PageFail)
  deriving DecidableEq, Repr

/-- Item 5 of the check: the buffer table against the header (R223). -/
def checkBuffers (s : State) (tenant : Nat) (l : Launch) : Checked :=
  if (List.range l.buf.length).any (bufBad l) && decide (lrBuft l ≠ 0) then .fail Cause.lrecBad
  else if decide (lrBuft l = 0) && l.exts.any exBuf then .fail Cause.lrecBad
  else if (List.range 16).any (objBad l) then .fail Cause.lrecBad
  else match (virtExts l tenant l.exts s).2 with
    | .error (_, f) => if f.cause = Cause.pageSplit then .fail Cause.lrecBad else .ok { l with checked := true, stall := false }
    | .ok es => if syncReach s l none es then .ok { l with checked := true, stall := false } else .fail Cause.lrecBad

/-- The walks of the words at SIG and WAIT (R223 item 3). -/
def checkSignals (s : State) (tenant : Nat) (l : Launch) : State × Option (Nat × PageFail) :=
  let r := if lrSig l = 0 then (s, none) else match walk s tenant (lrSig l) none false true with
    | (s, .error f) => (s, some (2, f))
    | (s, .ok _) => (s, none)
  match r with
  | (s, some f) => (s, some f)
  | (s, none) =>
    if lrWait l = 0 then (s, none) else match walk s tenant (lrWait l) none true false with
    | (s, .error f) => (s, some (1, f))
    | (s, .ok _) => (s, none)

/-- Read the header's tables and the launch buffer table, then make the checks that need them (R223). -/
def checkTables (s : State) (tenant : Nat) (l : Launch) : State × Checked :=
  let c := hdCounts (hdW l 2)
  let n1 := c.1
  let n2 := n1 + c.2.1
  let n3 := n2 + c.2.2.1
  let n4 := n3 + c.2.2.2
  match readVirt tenant 8 s (lrHdr l + 32) (8 * n4) with
  | (s, .error f) => (s, .stall 1 f)
  | (s, .ok bs) =>
    let ws := wordsOf bs
    let l := { l with scr := ws.take n1, buf := (ws.drop n1).take (n2 - n1), exts := (ws.drop n2).take (n3 - n2),
                      regs := ws.drop n3 }
    if hdrTablesBad l then (s, .fail Cause.hdrBad)
    else
      let r := if lrBuft l = 0 then (s, Except.ok []) else readVirt tenant 8 s (lrBuft l) (16 * (l.buf.length + 16))
      match r with
      | (s, .error f) => (s, .stall 1 f)
      | (s, .ok bs) =>
        let l := { l with bt := wordsOf bs }
        match checkSignals s tenant l with
        | (s, some (acc, f)) => (s, .stall acc f)
        | (s, none) => if gangTooBig s l then (s, .fail Cause.gangSize) else (s, checkBuffers s tenant l)

/-- Check a consumed launch record (R223). -/
def checkLaunch (s : State) (tenant : Nat) (l : Launch) : State × Checked :=
  if lrecRsvd l then (s, .fail Cause.lrecRsvd)
  else if lrecBadForm l then (s, .fail Cause.lrecBad)
  else match readVirt tenant 8 s (lrHdr l) 32 with
    | (s, .error f) => (s, .stall 1 f)
    | (s, .ok bs) =>
      let l := { l with hdr := wordsOf bs }
      if hdrBlockBad l.hdr then (s, .fail Cause.hdrBad) else checkTables s tenant l

end Sys2Proof.Machine
end

