-- ==== Sys2Proof/Machine/Seats.lean ====
section
/-!
DEFINITION. A task leaves its seat: freeing what it holds (R103, R249, R256, R327, R358), the signal word of its launch (R224),
TASK_COMPLETION_SIGNAL, and the completion of a launch (R224).
-/
namespace Sys2Proof.Machine

open Sys2Proof

/-! ### Launches of a queue -/

/-- Change the launch of a queue that has an LSEQ. -/
def modLaunch (s : State) (q lseq : Nat) (f : Launch → Launch) : State :=
  modQueue s q fun x => { x with launches := x.launches.map fun l => if l.lseq = lseq then f l else l }

/-- The launch of a queue that has an LSEQ. -/
def launchAt (s : State) (q lseq : Nat) : Option Launch := (queueAt s q).launches.find? fun l => decide (l.lseq = lseq)

/-- Every seat of the package that holds a task: core, seat number, registers. -/
def allSeats (s : State) : List (Nat × Nat × Seat) :=
  (s.cores.map fun c => (c.2.seats.filter fun t => decide (t.2.st ≠ .empty)).map fun t => (c.1, t.1, t.2)).flatten

/-- The resident tasks of a queue. -/
def queueSeats (s : State) (q : Nat) : List (Nat × Nat × Seat) := (allSeats s).filter fun x => decide (taskQueue x.2.2.task = q)

/-- The resident tasks of a launch. -/
def launchSeats (s : State) (q lseq : Nat) : List (Nat × Nat × Seat) :=
  (queueSeats s q).filter fun x => decide (taskLseq x.2.2.task = lseq)

/-! ### Freeing a seat -/

/-- A seat that holds no task: its registers keep what the last task left, until the next dispatch clears them (R29); what is still in `fi`
and `fo`, and later replies, go nowhere (R104). -/
def emptySeat (t : Seat) : Seat :=
  { t with st := .empty, hasA := false, hasQ := false, allocs := [], slots := [], fi := [], fiRes := [], fo := [], foRes := 0, foUntil := 0, ext := [],
           wait := none, park := false, causes := [], stopReq := none, stop := none, retire := none, runExt := none, swapReq := false,
           pinWait := false, fresh := true, run0 := false, used := 0, recs := [], drained := [] }

/-- Free a seat: its scratch with the peers' extents and grants over it, and its claims (R103, R104, R249, R327). -/
def vacateSeat (s : State) (c n : Nat) : State :=
  let t := seatAt s c n
  let s := t.allocs.foldl (fun s a => freeAlloc s c a) s
  modCore s c fun k =>
    let k := vacate k n
    let k := { k with seqr := match k.seqr with | some q => if q.seat = n then none else some q | none => none }
    putSeat k n (emptySeat (seatOf k n))

/-- Free a seat whose task has ended, with its gather slots (R358). -/
def releaseSeat (s : State) (c n : Nat) : State := vacateSeat (freeSlots s c n fun _ => true) c n

/-! ### The signal word -/

/-- Change the 64-bit word at a physical place as a strong access of the scheduler (R224); `f` is told the old word.  A word whose
memory fails, or whose old value carries an uncorrectable error while it is needed, cannot be changed; one in another package is changed by
a message for launch `lseq` of queue `q`. -/
def sigPut (s : State) (q lseq t a : Nat) (reads : Bool) (f : Word → Word) : State × Bool :=
  if t = 1 then
    if a / 2 ^ 42 % 1024 = chipNo s then
      let c := placeCore a
      let ps := countUp (a % 2 ^ 22) 8
      let k := coreAt s c
      if 384 ≤ c ∨ (reads ∧ (spadErr k 0 ps).isSome) then (s, false)
      else (setCore s c (spadPut k (ps.zip (natBytes 8 (f (wordOf (leNat (spadGet k ps)))).toNat))), true)
    else
      let h := if reads then reqHeader 2 0 3 false 0 false 0 (a % 2 ^ 22) else reqHeader 1 0 3 false 0 false 0 (a % 2 ^ 22)
      (sendEng s agSignal (mkMsg s (if reads then kRamo else kRst) (qTenant s q) 0 127 agSignal 0 (a / 2 ^ 42 % 1024) (a / 2 ^ 40 % 4)
        (a / 2 ^ 33 % 128) 0 (a % 2 ^ 22) (bytesOf [h, 0, f 0, 0, 0, 0, 0, 0])) 0 q lseq 0 0 0, true)
  else
    let s := flushOver s t a 8
    if reads then
      let r := memRead s none t a 8
      match r.2.1 with
      | some _ => (r.1, false)
      | none => (memStrong r.1 t a (natBytes 8 (f (wordOf (leNat r.2.2))).toNat), true)
    else if (accessRefusal s t a 8).isSome then (s, false)
    else (memStrong s t a (natBytes 8 (f 0).toNat), true)

/-- Walk to a launch's signal word and change it (R224). -/
def sigChange (s : State) (q : Nat) (x : Launch) (reads : Bool) (f : Word → Word) : State × Option PageFail :=
  let va := lrSig x
  match walk s (qTenant s q) va none false true with
  | (s, .error e) => (s, some e)
  | (s, .ok l) =>
    let p := leafPlace l va
    match sigPut s q x.lseq p.1 p.2 reads f with
    | (s, true) => (s, none)
    | (s, false) => (s, some ⟨Cause.ptUe, va, l.level⟩)

/-- Add 1 to the signal word of a launch; an add that cannot be made waits for QRETRY (R224). -/
def sigOnce (s : State) (q : Nat) (l : Launch) : State :=
  match sigChange s q l true fun w => w + 1 with
  | (s, none) => s
  | (s, some f) => modLaunch (postPageQ s q l.lseq 2 f) q l.lseq fun l => { l with sigWait := l.sigWait + 1 }

/-- Make some adds to the signal word of a launch, one after another. -/
def sigMany (q lseq : Nat) : Nat → State → State
  | 0, s => s
  | n + 1, s => sigMany q lseq n (match launchAt s q lseq with | some l => sigOnce s q l | none => s)

/-- Whether a launch can still be rolled back, so that its signal adds wait: it writes no signal before its successful run (R262, R266;
DEDUCED, log 25). -/
def sigWaits (l : Launch) : Bool := l.cap && decide (l.comp < lrNtask l)

/-- Make the signal adds of a launch that wait for nothing but the end of its rollback capability (R224, R266). -/
def sigFlush (s : State) (q : Nat) (l : Launch) : State :=
  if sigWaits l then s else sigMany q l.lseq l.sigHeld (modLaunch s q l.lseq fun l => { l with sigHeld := 0 })

/-- The signal of a task that has completed (R224): its add is made at once unless the launch can still be rolled back. -/
def sigAdd (s : State) (q : Nat) (l : Launch) : State :=
  if lrSig l = 0 then s
  else
    let s := modLaunch s q l.lseq fun l => { l with sigHeld := l.sigHeld + 1 }
    match launchAt s q l.lseq with
    | some l => sigFlush s q l
    | none => s

/-- Release the signal word of a launch in error; a release that cannot be made waits for QRETRY (R224). -/
def sigError (s : State) (q : Nat) (l : Launch) : State :=
  if lrSig l = 0 then modLaunch s q l.lseq fun l => { l with sigErr := true, sigWait := 0, sigHeld := 0 }
  else match sigChange s q l false fun _ => BitVec.allOnes 64 with
    | (s, none) => modLaunch s q l.lseq fun l => { l with sigErr := true, sigWait := 0, sigHeld := 0 }
    | (s, some f) => modLaunch (postPageQ s q l.lseq 2 f) q l.lseq fun l => { l with stall := true }

/-- Release the signals of the launches of a queue that have not been released yet (R237, R238, R265). -/
def sigErrors (s : State) (q : Nat) : State :=
  ((queueAt s q).launches.filter fun l => !l.sigErr && !l.stall).foldl (fun s l => sigError s q l) s

/-- Whether every signal of a queue's launches has been released in error. -/
def sigsErr (s : State) (q : Nat) : Bool := (queueAt s q).launches.all fun l => l.sigErr

/-! ### The end of a task -/

/-- Whether a task's results have all landed: nothing in flight, no beat on its way, the rotator halted (R103, R249). -/
def landedAll (s : State) (c n : Nat) : Bool :=
  let k := coreAt s c
  !(k.effs.any fun e => decide (e.seat = n)) && !arrayBusy s c n && !rotBusy k n &&
  !(match k.seqr with | some q => decide (q.seat = n) && q.row.isSome | none => false) && !(k.drained.any fun d => decide (d.seat = n))

/-- Whether the copy commands of a task have completed as CDRN completes them (R103, R201). -/
def copiesDone (s : State) (c n : Nat) : Bool :=
  !((coreAt s c).ch.any fun x => x.2.cmds.any fun m => decide (m.seat = n)) &&
  s.wbuf.all fun w => !(decide (w.owner = some (4 * c + n)) && decide (w.path ≠ 0) && decide ((w.path - 1) % 16 < 4))

/-- Whether every remote store and atomic of a task has been acknowledged (R103). -/
def storesAcked (s : State) (c n : Nat) : Bool :=
  let k := coreAt s c
  let t := seatOf k n
  decide (t.foRes = 0) && !((foReqs t).any fun h => decide (bits h 63 60 ≠ 0)) &&
  !(k.sent.any fun x => decide (x.agent = n) && decide (x.msg.kind ≠ kRld)) &&
  !(s.hold.any fun h => heldOf s c n h && decide (h.msg.kind ≠ kRld))

/-- Whether a task's writes are published at package scope, those of the engine commands it has drained among them, and its bound writes released
(R103 step 5, R290). -/
def published (s : State) (c n : Nat) : Bool :=
  let t := seatAt s c n
  (s.wbuf.all fun w => decide (w.owner ≠ some (4 * c + n)) || engLive s w || wrVisible 2 w) &&
  t.objs.all fun o => relDone s c n o.1 o.2.scope t.binds

/-- A task's exit enters the tally of its launch (R224). -/
def tally (s : State) (q lseq : Nat) (code : W32) : State :=
  modLaunch s q lseq fun l =>
    { l with comp := l.comp + 1, bad := l.bad + (if code = 0 then 0 else 1), codes := l.codes ||| code }

/-- TASK_COMPLETION_SIGNAL (R103 steps 2 to 7, R224, R237): once everything of the task is done, its claims go, its exit code enters
the tally, its signal is added, and its seat is free. -/
def execTaskCompletionSignal (c : CoreId) (n : Fin 4) (s : State) : Out :=
  .next (
    let t := seatAt s c.val n.val
    match t.retire with
    | none => s
    | some r =>
      if !landedAll s c.val n.val ∨ (coreAt s c.val).cur = some n.val then s
      else
        let s := cancelStreams s c.val n.val t.task
        if !(drainedTo s c.val r.upto && copiesDone s c.val n.val && storesAcked s c.val n.val && published s c.val n.val) then s
        else
          let q := taskQueue t.task
          let s := modSeat s c.val n.val fun t => { t with hasA := false, hasQ := false }
          let s := tally s q (taskLseq t.task) r.exit
          let s := match launchAt s q (taskLseq t.task) with
            | some l => if (queueAt s q).st = 2 then s else sigAdd s q l
            | none => s
          releaseSeat s c.val n.val)

/-! ### The completion of a launch -/

/-- Write an entry of the completion ring (R220, R224); a ring whose register names no tier it may lie in takes no entry. -/
def putCompletion (s : State) (q code lseq bad : Nat) (codes : W32) : State :=
  let r := ringOf (mreg s (.qcring q))
  let n := (mreg s (.qcseq q)).toNat
  let s := if [2, 3, 5].contains r.1 then
      unitWrite s r.1 (r.2 + 16 * (n % ringSize s q)) (bytesOf [pack [(code, 56), (lseq, 0)], pack [(bad, 32), (codes.toNat, 0)]])
    else s
  setMreg s (.qcseq q) (wordOf ((n + 1) % 2 ^ 32))

/-- Discard the entries of a launch in every write log (R261). -/
def dropLog (s : State) (q lseq : Nat) : State :=
  { s with dies := s.dies.map fun d => (d.1, { d.2 with wlog := d.2.wlog.filter fun e => !(decide (e.2.2.1 = q) && decide (e.2.2.2.1 = lseq)) }) }

/-- Take a launch off its queue. -/
def dropLaunch (s : State) (q lseq : Nat) : State :=
  modQueue (dropLog s q lseq) q fun x => { x with launches := x.launches.filter fun l => l.lseq ≠ lseq }

/-- Whether an add to a launch's signal word in another package is not yet acknowledged (R224). -/
def sigAway (s : State) (q lseq : Nat) : Bool :=
  s.engSent.any fun x => decide (x.agent = agSignal) && decide (x.seat = q) && decide (x.first = lseq)

/-- Whether a launch is complete: every task has completed, or it failed before any ran and those that ran have ended; no signal
waits for a walk or is on its way (R223, R224). -/
def launchDone (s : State) (q : Nat) (l : Launch) : Bool :=
  decide (l.sigWait = 0) && !l.stall && !sigAway s q l.lseq &&
  (if l.fail = 0 then decide (l.checked = true) && decide (l.comp = lrNtask l)
   else decide (l.comp = l.disp * lrDsize l) && (launchSeats s q l.lseq).isEmpty)

/-- LAUNCH_COMPLETE (R223, R224): signal adds that wait for a launch's rollback capability to end are made when it has ended; the first launch
that is complete leaves the queue with an entry in the completion ring; one that failed releases its signal in error first.  A queue that is torn down or reset writes no such entry (R237, R238). -/
def execLaunchComplete (q : Fin 64) (s : State) : Out :=
  .next (
    if (queueAt s q.val).st = 2 ∨ (queueAt s q.val).st = 3 then s
    else
      let s := ((queueAt s q.val).launches.filter fun l => decide (l.sigHeld ≠ 0)).foldl (fun s l => sigFlush s q.val l) s
      match (queueAt s q.val).launches.find? (launchDone s q.val) with
      | none => s
      | some l =>
        let s := if l.fail ≠ 0 ∧ !l.sigErr then sigError s q.val l else s
        if l.fail ≠ 0 ∧ (launchAt s q.val l.lseq).any (fun x => x.stall) then s
        else dropLaunch (putCompletion s q.val l.fail l.lseq l.bad l.codes) q.val l.lseq)

end Sys2Proof.Machine
end

