-- ==== Sys2Proof/Machine/Place.lean ====
section
/-!
DEFINITION. Where a domain can stand (R228 to R230, R419, R327): the room of a core, the scratch a core has free, the members on the
cores of a unit, and the seats and places of scratch a dispatch takes.
-/
namespace Sys2Proof.Machine

open Sys2Proof

/-! ### What a core has free -/

/-- Bytes of a core's scratchpad in use: the allocations of its tasks, freed ones whose revocation is not acknowledged, and tier 0 extents of
network records that outlive their task (R228, R327, R403). -/
def spadUsed (s : State) (c : Nat) : List (Nat × Nat) :=
  ((coreAt s c).seats.map fun t => if t.2.st = .empty then [] else t.2.allocs.map fun a => (a.base, a.bytes)).flatten ++
  ((s.freeing.filter fun p => decide (p.1 = c)).map fun p => (p.2.base, p.2.bytes)) ++
  ((s.netRecs.filter fun r => decide (r.core = c)).map fun r =>
    ((netNamed s r).filter fun e => e.v && decide (e.tier = 0)).map fun e => (e.base, 64 * e.len)).flatten

/-- Whether `n` bytes at an offset are free. -/
def spadFits (used : List (Nat × Nat)) (a n : Nat) : Bool :=
  decide (a + n ≤ 2 ^ 22) && used.all fun u => !meets u.1 u.2 a n

/-- Round up to a multiple. -/
def roundUp (a m : Nat) : Nat := (a + m - 1) / m * m

/-- The lowest of some numbers, when there is one. -/
def lowest : List Nat → Option Nat
  | [] => none
  | a :: t => match lowest t with | none => some a | some b => some (min a b)

/-- The first place of `n` bytes aligned to `m` that is free. -/
def firstFit (used : List (Nat × Nat)) (n m : Nat) : Option Nat :=
  lowest ((0 :: used.map fun u => roundUp (u.1 + u.2) m).filter fun a => spadFits used a n)

/-- Places for the scratch entries of one task: the spec leaves them open, so that a free value chooses each place, and the first
fit stands in where the chosen bytes are not free (log 4).  `f` is none to take first fits alone. -/
def placeScratch : Option Nat → List (Nat × Nat) → List Word → Option (List Alloc)
  | _, _, [] => some []
  | f, used, w :: t =>
    let n := scBytes w
    let m := spanBytes (scSpan w)
    let want := match f with | some i => some ((Config.freeWord i).toNat % (2 ^ 22 / m) * m) | none => none
    let at_ := match want with
      | some a => if spadFits used a n then some a else firstFit used n m
      | none => firstFit used n m
    match at_ with
    | none => none
    | some a =>
      match placeScratch (f.map (· + 1)) ((a, n) :: used) t with
      | none => none
      | some r => some (⟨a, n, scSpan w⟩ :: r)

/-- Places for the scratch of `k` tasks on one core; when places chosen freely do not all fit, the first fits are taken. -/
def placeTasks (f : Option Nat) (scr : List Word) : Nat → List (Nat × Nat) → Option (List (List Alloc))
  | 0, _ => some []
  | k + 1, used =>
    match placeScratch f used scr with
    | none => none
    | some as =>
      match placeTasks (f.map (· + 17)) scr k ((as.map fun a => (a.base, a.bytes)) ++ used) with
      | none => none
      | some r => some (as :: r)

/-- Seats of a core that hold no task. -/
def freeSeats (k : Core) : List Nat := [0, 1, 2, 3].filter fun n => decide ((seatOf k n).st = .empty)

/-- Tasks of a kernel on a core (R419). -/
def sameKernel (k : Core) (tenant hdr : Nat) : Nat :=
  (k.seats.filter fun t => decide (t.2.st ≠ .empty) && decide (taskTenant t.2.task = tenant) && decide (t.2.kernel = hdr)).length

/-- Whether a claim is free on a core (R230). -/
def claimFree (k : Core) (ca cr : Bool) : Bool :=
  k.seats.all fun t => decide (t.2.st = .empty) || (!(ca && t.2.hasA) && !(cr && t.2.hasQ))

/-- Whether a core may take tasks at all: its die is in D0, enabled and not on its way out, and the package is not in a checkpoint
(R415, R416). -/
def coreUsable (s : State) (c : Nat) : Bool :=
  !coreDown s c && (match s.powerBusy with | some (u, _) => decide (u ≠ c / 96) | none => true)

/-- Free grant entries of a core (R327). -/
def freeGrants (s : State) (c : Nat) : List Nat := (countUp 0 32).filter fun i => !bitAt (grantWord s c i 0) 63

/-- Whether a core lies in a unit. -/
def inUnit (level unit c : Nat) : Bool := decide (c / unitCores level = unit)

/-- Whether a unit is reserved for a domain. -/
def Reserve.isFor (r : Reserve) (q lseq dom : Nat) : Bool := decide (r.q = q) && decide (r.lseq = lseq) && decide (r.dom = dom)

/-- Whether the reservation of another domain keeps a core from a domain (R229). -/
def coreReserved (s : State) (q rank lseq dom c : Nat) : Bool :=
  s.reserved.any fun r => inUnit r.level r.unit c && !r.isFor q lseq dom && decide (rank ≤ r.rank)

/-- What the members of a domain need of a core. -/
structure Need where
  q : Nat
  rank : Nat
  lseq : Nat
  dom : Nat
  tenant : Nat
  hdr : Nat
  seats : Nat
  ca : Bool
  cr : Bool
  scr : List Word
  peers : List Nat
  deriving DecidableEq, Repr

/-- What a domain of a launch needs. -/
def needOf (s : State) (q : Nat) (l : Launch) (dom : Nat) : Need :=
  { q := q, rank := bits (mreg s (.qcfg q)) 47 44, lseq := l.lseq, dom := dom, tenant := qTenant s q, hdr := lrHdr l, seats := hdSeats l,
    ca := hdCA l, cr := hdCR l, scr := l.scr, peers := peerAllocs l }

/-- How many members fit on a core, at most `n`: seats, SEATS, claims, scratch and grant entries (R229, R230, R419, R327). -/
def coreRoom (s : State) (d : Need) (c n : Nat) : Nat :=
  let k := coreAt s c
  if !coreUsable s c || coreReserved s d.q d.rank d.lseq d.dom c || !claimFree k d.ca d.cr then 0
  else
    let most := min n (min (freeSeats k).length (d.seats - sameKernel k d.tenant d.hdr))
    let most := if d.ca || d.cr then min most 1 else most
    let most := if d.peers = [] then most else min most ((freeGrants s c).length / d.peers.length)
    ((countUp 1 most).filter fun j => (placeTasks none d.scr j (spadUsed s c)).isSome).length

/-- The members of a domain over the cores of a unit in ascending order: for each core how many it takes. -/
def spread (s : State) (d : Need) : List Nat → Nat → List (Nat × Nat)
  | [], _ => []
  | c :: t, left =>
    let k := coreRoom s d c left
    (c, k) :: spread s d t (left - k)

/-- The members of a domain with peers over the pairs of a unit: members 2j and 2j + 1 on the even and the odd core of a pair, at the
same position among the kernel's tasks (R229). -/
def spreadPairs (s : State) (d : Need) : List Nat → Nat → List (Nat × Nat)
  | [], _ => []
  | p :: t, left =>
    let same := decide (sameKernel (coreAt s (2 * p)) d.tenant d.hdr = sameKernel (coreAt s (2 * p + 1)) d.tenant d.hdr)
    let k := if same then min (coreRoom s d (2 * p) (left / 2)) (coreRoom s d (2 * p + 1) (left / 2)) else 0
    (2 * p, k) :: (2 * p + 1, k) :: spreadPairs s d t (left - 2 * k)

/-- The members a unit takes, when it holds all of them. -/
def unitTakes (s : State) (d : Need) (level unit size : Nat) : Option (List (Nat × Nat)) :=
  let n := unitCores level
  let r := if d.peers = [] then spread s d (countUp (unit * n) n) size else spreadPairs s d (countUp (unit * n / 2) (n / 2)) size
  if (r.map (·.2)).foldl (· + ·) 0 = size then some r else none

/-- The lowest-numbered unit of a level that holds a domain (R229). -/
def findUnit (s : State) (d : Need) (level size : Nat) : List Nat → Option (List (Nat × Nat))
  | [] => none
  | u :: t => match unitTakes s d level u size with | some r => some r | none => findUnit s d level size t

/-- Reserve a unit for a domain that finds no room (R229): the lowest-numbered one not reserved for another domain.  It stays reserved until
the domain has been placed. -/
def reserveUnit (s : State) (d : Need) (level : Nat) : State :=
  if s.reserved.any fun r => r.isFor d.q d.lseq d.dom then s
  else match (countUp 0 (384 / unitCores level)).find? fun u =>
      !(s.reserved.any fun r => decide (r.level = level) && decide (r.unit = u)) with
    | none => s
    | some u => { s with reserved := s.reserved ++ [{ level := level, unit := u, rank := d.rank, q := d.q, lseq := d.lseq, dom := d.dom }] }

/-- The reservation of a domain that has been placed ends (R229). -/
def endReserve (s : State) (d : Need) : State := { s with reserved := s.reserved.filter fun r => !r.isFor d.q d.lseq d.dom }

/-- A seat among the free ones: the spec leaves the number open (log 4). -/
def pickSeat (f : Nat) (ns : List Nat) : Nat := lget 0 ns ((Config.freeWord f).toNat % (if ns.length = 0 then 1 else ns.length))

/-- A member of a domain with the place it takes: its core, its seat and its scratch. -/
structure Spot where
  core : Nat
  seat : Nat
  allocs : List Alloc
  deriving DecidableEq, Repr

/-- The places on one core. -/
def coreSpots (s : State) (d : Need) (c k f : Nat) : List Spot :=
  let as := match placeTasks (some (f + k)) d.scr k (spadUsed s c) with
    | some as => as
    | none => (placeTasks none d.scr k (spadUsed s c)).getD []
  let rec go : List (List Alloc) → List Nat → Nat → List Spot
    | [], _, _ => []
    | a :: t, ns, i =>
      let n := pickSeat (f + i) ns
      ⟨c, n, a⟩ :: go t (ns.filter (· ≠ n)) (i + 1)
  go as (freeSeats (coreAt s c)) 0

/-- Free values the places of a domain use. -/
def spotDraws : Nat := 128

/-- The places on the cores of a unit, core after core. -/
def spotsFrom (s : State) (d : Need) : List (Nat × Nat) → Nat → List Spot
  | [], _ => []
  | (c, k) :: t, f => coreSpots s d c k f ++ spotsFrom s d t (f + spotDraws)

/-- Members 2j and 2j + 1 in turn from the places of an even core and of its odd partner. -/
def zipSpots : List Spot → List Spot → List Spot
  | a :: s, b :: t => a :: b :: zipSpots s t
  | s, t => s ++ t

/-- The places of a domain with peers, pair after pair. -/
def pairSpots (s : State) (d : Need) : List (Nat × Nat) → Nat → List Spot
  | (c, k) :: (c', k') :: t, f =>
    zipSpots (coreSpots s d c k f) (coreSpots s d c' k' (f + spotDraws)) ++ pairSpots s d t (f + 2 * spotDraws)
  | _, _ => []

/-- The places of the members of a domain in ascending DRANK, and the state that has drawn the free values (R229). -/
def spotsOf (s : State) (d : Need) (r : List (Nat × Nat)) : List Spot × State :=
  (if d.peers = [] then spotsFrom s d r s.fresh else pairSpots s d r s.fresh,
   { s with fresh := s.fresh + spotDraws * r.length })

end Sys2Proof.Machine
end

