-- ==== Sys2Proof/Machine/Scheduler.lean ====
section
/-!
DEFINITION. The scheduler: consuming launch records (R221, R223), releasing dependants (R224, R225), dispatching domains (R228 to
R230), loading seats (R29, R218), and QRETRY (R253).
-/
namespace Sys2Proof.Machine

open Sys2Proof

/-! ### Consuming launch records -/

/-- A launch as it is consumed. -/
def newLaunch (lseq : Nat) (ws : List Word) : Launch :=
  { lseq := lseq, recd := ws, hdr := [], scr := [], buf := [], exts := [], regs := [], bt := [], checked := false,
    released := false, disp := 0, comp := 0, bad := 0, codes := 0, cap := true, rolls := 0, waitGo := false, stall := false,
    sigWait := 0, sigErr := false, fail := 0 }

/-- Check a launch of a queue and note what comes of it (R223): a failing walk stalls it with a notice. -/
def checkIn (s : State) (q : Nat) (l : Launch) : State :=
  match checkLaunch s (qTenant s q) l with
  | (s, .ok l') => modLaunch s q l.lseq fun _ => { l' with checked := true, stall := false }
  | (s, .fail code) => modLaunch s q l.lseq fun l => { l with checked := true, stall := false, fail := code }
  | (s, .stall acc f) => modLaunch (postPageQ s q l.lseq acc f) q l.lseq fun l => { l with stall := true }

/-- LAUNCH_RECORD_CONSUME (R221, R223): the slot at the consumer position is consumed when its word 0 shows V = 1 at its ordering
point; word 0 becomes 0, and the record is checked. -/
def execLaunchRecordConsume (q : Fin 64) (s : State) : Out :=
  .next (
    let cfg := mreg s (.qcfg q.val)
    let r := ringOf (mreg s (.qring q.val))
    let n := (mreg s (.qcons q.val)).toNat
    let a := r.2 + 64 * (n % ringSize s q.val)
    if !bitAt cfg 43 ∨ (queueAt s q.val).st ≠ 1 ∨ 12 ≤ bits cfg 35 32 ∨ !([2, 3, 5].contains r.1) then s
    else
      let x := memRead s none r.1 a 64
      match x.2.1 with
      | some _ => x.1
      | none =>
        let ws := wordsOf x.2.2
        if !bitAt (lget 0 ws 0) 63 then x.1
        else
          let s := setMreg (unitWrite x.1 r.1 a (natBytes 8 0)) (.qcons q.val) (wordOf ((n + 1) % 2 ^ 32))
          let l := newLaunch n ws
          checkIn (modQueue s q.val fun x => { x with launches := x.launches ++ [l] }) q.val l)

/-! ### Heads and dependants -/

/-- Whether a queue is enabled and runs (R229). -/
def queueRuns (s : State) (q : Nat) : Bool := bitAt (mreg s (.qcfg q)) 43 && decide ((queueAt s q).st = 1)

/-- The head launch of a queue: the oldest with an undispatched domain; nothing stands at the head while a check stalls (R223). -/
def headLaunch (s : State) (q : Nat) : Option Launch :=
  let ls := (queueAt s q).launches
  if ls.any fun l => !l.checked then none else ls.find? fun l => decide (l.fail = 0) && decide (l.disp < lrDoms l)

/-- Read the 64-bit word at a physical place at its ordering point; none when it cannot be read. -/
def readSync (s : State) (t a : Nat) : State × Option Word :=
  let r := physRead s t a 8
  (r.1, if r.2.1 then none else some (wordOf (leNat r.2.2)))

/-- Whether the launch before one in its queue has not completed (R225). -/
def earlierRuns (s : State) (q : Nat) (l : Launch) : Bool :=
  (queueAt s q).launches.any fun x => decide ((x.lseq + 1) % 2 ^ 32 = l.lseq)

/-- The look at the word at WAIT of a launch (R224): what it says is kept once it lets the launch go. -/
def waitCheck (s : State) (q : Nat) (l : Launch) : State :=
  match walk s (qTenant s q) (lrWait l) none true false with
  | (s, .error f) => modLaunch (postPageQ s q l.lseq 1 f) q l.lseq fun l => { l with stall := true }
  | (s, .ok leaf) =>
    let p := leafPlace leaf (lrWait l)
    match readSync s p.1 p.2 with
    | (s, none) => s
    | (s, some w) =>
      if bitAt w 63 ∨ bits (lrW l 5) 62 0 ≤ bits w 62 0 then modLaunch s q l.lseq fun l => { l with waited := some (bitAt w 63) } else s

/-- Whether a launch waits for no word any more. -/
def waitOver (l : Launch) : Bool := decide (lrWait l = 0) || l.waited.isSome

/-- Release a launch whose dependencies are met: with ERRP = 1 an error in its word ends it (R224, R225). -/
def releaseDep (s : State) (q : Nat) (l : Launch) : State :=
  if !waitOver l || (bitAt (lrW l 0) 56 && earlierRuns s q l) then s
  else if l.waited = some true ∧ bitAt (lrW l 0) 62 then
    modLaunch s q l.lseq fun l => { l with released := true, fail := Cause.depError }
  else modLaunch s q l.lseq fun l => { l with released := true }

/-- DEPENDENCY_RELEASE (R224, R225): the head launch is released when the launch before it has completed, for SER = 1, and when its
WAIT word has reached WVAL or carries the error bit; with ERRP = 1 an error ends it. -/
def execDependencyRelease (q : Fin 64) (s : State) : Out :=
  .next (match headLaunch s q.val with
    | none => s
    | some l =>
      if l.released || l.stall || decide ((queueAt s q.val).st ≠ 1) then s
      else
        let s := if waitOver l then s else waitCheck s q.val l
        match launchAt s q.val l.lseq with
        | some l => if l.stall then s else releaseDep s q.val l
        | none => s)

/-! ### The code image -/

/-- Walk the code image's leaves: they must follow one another in one tier (R228); there is no declared page size. -/
def walkCode (tenant : Nat) : Nat → State → Nat → Nat → Option (Nat × Nat) → State × Except PageFail (Nat × Nat)
  | 0, s, _, _, _ => (s, .error ⟨Cause.pageSplit, 0, 0⟩)
  | fuel + 1, s, va, n, want =>
    match walk s tenant va none true false with
    | (s, .error f) => (s, .error f)
    | (s, .ok l) =>
      let p := leafPlace l va
      if decide (l.tier = 1) || (match want with | some w => decide (w ≠ p) | none => false) then (s, .error ⟨Cause.pageSplit, va, l.level⟩)
      else
        let k := min n (pageBytes l.level - va % pageBytes l.level)
        if n ≤ k then (s, .ok p)
        else match walkCode tenant fuel s (va + k) (n - k) (some (p.1, p.2 + k)) with
          | (s, .error f) => (s, .error f)
          | (s, .ok _) => (s, .ok p)

/-! ### Loading seats -/

/-- The extents of a member (R228, R258): scratch over its own allocations, never on demand, peers over its partner's, virtual buffers as
translated.  `gone` says that the partner has ended: the extents over its allocations stay revoked (R256). -/
def memberExts (s : State) (l : Launch) (es : List (Nat × Ext)) (own partner : Spot) (gone : Bool) : Tbl Ext :=
  l.exts.foldl (fun t x =>
    let e : Ext :=
      if !exBuf x then
        let a := lget ⟨0, 0, 0⟩ own.allocs (exIdx x)
        accExt (exAcc x) { v := true, tier := 0, span := a.span, len := a.bytes / 64, base := a.base }
      else if btPeer l (exIdx x) then
        let a := lget ⟨0, 0, 0⟩ partner.allocs (bits (btW l (exIdx x) 0) 3 0)
        accExt (exAcc x) { v := true, tier := 1, len := a.bytes / 64, dm := exDem x, rv := gone,
                           base := chipNo s * 2 ^ 42 + partner.core / 96 * 2 ^ 40 + partner.core % 96 * 2 ^ 33 + a.base }
      else ((es.find? fun e => decide (e.1 = exEn x)).map (·.2)).getD {}
    tput (exEn x) e t) []

/-- The bindings of the regions a header declares: the whole of each extent (R226). -/
def regionBinds (l : Launch) (t : Tbl Ext) : List Bind :=
  l.regs.map fun w => { ext := bits w 3 0, off := 0, len := 64 * (tget {} t (bits w 3 0)).len, obj := bits w 7 4 }

/-- The synchronisation objects of a launch (R227). -/
def launchObjs (l : Launch) : Tbl SyncObj :=
  ((List.range 16).filter fun o => bitAt (obW l o) 63).map fun o =>
    (o, { scope := bits (obW l o) 61 60, ext := bits (obW l o) 59 56, off := bits (obW l o) 39 0 })

/-- TASK, TCO and DMEM of a task (Tables 10-1 to 10-3). -/
def taskWord (tenant q lseq : Nat) : Word := pack [(tenant, 48), (q, 42), (lseq, 0)]
/-- TCO of task `i`. -/
def tcoWord (l : Launch) (i : Nat) : Word := pack [(lrNtask l, 20), (i, 0)]
/-- DMEM of task `i`. -/
def dmemWord (l : Launch) (i : Nat) : Word :=
  pack [(i / lrDsize l, 44), (lrLvl l, 32), (lrDsize l, 11), (i % lrDsize l, 0)]

/-- The scalar registers a launch record sets (R222). -/
def argRegs (l : Launch) : Tbl Word :=
  let n := bits (lrW l 0) 58 57
  let t := if 1 ≤ n then tset 0 1 (lrW l 6) [] else []
  if 2 ≤ n then tset 0 2 (lrW l 7) t else t

/-- A seat as dispatch loads it (R29). -/
def freshSeat (s : State) (q : Nat) (l : Launch) (i : Nat) (code : Nat × Nat) (t : Tbl Ext) (sp : Spot) : Seat :=
  { st := .ready, task := taskWord (qTenant s q) q l.lseq, tco := tcoWord l i, dmem := dmemWord l i,
    qrank := bits (mreg s (.qcfg q)) 47 44, a := argRegs l, ext := t, fpc := fpcOf (wordOf (bits (hdW l 0) 13 0)),
    binds := regionBinds l t, objs := launchObjs l, run := bits (hdW l 0) 55 32, hasA := hdCA l, hasQ := hdCR l,
    codeTier := code.1, codeBase := code.2, codeLen := bits (hdW l 2) 31 0, kernel := lrHdr l, seats := hdSeats l,
    declA := hdCA l, declQ := hdCR l, allocs := sp.allocs, sig := lrSig l,
    resvNext := (seatAt s sp.core sp.seat).resvNext }

/-- A claim that is granted zeroes its state (R10). -/
def zeroClaims (a q : Bool) (k : Core) : Core :=
  let k := if a then { k with tile := [], tg := [], acc := [], w0 := [], w1 := [], sw0 := [], sw1 := [], tag0 := 0, tag1 := 0, sa := [] } else k
  if q then { k with d := [], seqr := none } else k

/-- Put a task into a seat: the copy channels forget what ran for the seat before (R195, R201). -/
def loadSeat (s : State) (c n : Nat) (t : Seat) : State :=
  modCore s c fun k =>
    let k := { k with ch := k.ch.map fun x => (x.1, { x.2 with pred := tdel n x.2.pred, fin := tdel n x.2.fin }) }
    putSeat k n t

/-- Put a word into the first free grant entry of a core (R327). -/
def addGrant (s : State) (c : Nat) (w0 w1 : Word) : State :=
  match freeGrants s c with
  | [] => s
  | i :: _ => setMreg (setMreg s (.grant ((c * 32 + i) * 2)) w0) (.grant ((c * 32 + i) * 2 + 1)) w1

/-- Install the grants over a member's allocations for its partner (R327). -/
def grantPeers (s : State) (d : Need) (own partner : Spot) : State :=
  d.peers.foldl (fun s i =>
    let a := lget ⟨0, 0, 0⟩ own.allocs i
    addGrant s own.core
      (pack [(1, 63), (1, 62), (7, 59), (d.tenant, 43), (chipNo s, 32), (partner.core / 96, 29), (partner.core % 96, 22), (a.base, 0)])
      (wordOf a.bytes)) s

/-- The partner of member `r` of a domain (R227). -/
def peerSpot (sp : List Spot) (r : Nat) : Spot :=
  lget ⟨0, 0, []⟩ sp (if r % 2 = 0 then r + 1 else r - 1)

/-! ### Dispatch -/

/-- Place a domain whose unit and translations are known: every member is loaded (R229, R230). -/
def placeDomain (s : State) (q : Nat) (l : Launch) (d : Need) (r : List (Nat × Nat)) (code : Nat × Nat) (es : List (Nat × Ext)) : State :=
  let x := spotsOf s d r
  let sp := x.1
  let s := (countUp 0 sp.length).foldl (fun s i =>
    let own := lget ⟨0, 0, []⟩ sp i
    let t := memberExts s l es own (peerSpot sp i) false
    let s := if d.peers = [] then s else grantPeers s d own (peerSpot sp i)
    let s := modCore s own.core (zeroClaims (hdCA l) (hdCR l))
    loadSeat s own.core own.seat (freshSeat s q l (l.disp * lrDsize l + i) code t own)) x.2
  let s := modLaunch s q l.lseq fun l => { l with disp := l.disp + 1 }
  { (endReserve (modQueue s q fun x => { x with lastDisp := s.gts, anyDisp := true }) d) with lastQ := q }

/-- A head launch that cannot be translated stalls with a notice, or is refused (R228, R223 item 5). -/
def stallLaunch (s : State) (q : Nat) (l : Launch) (cause : Nat) (f : PageFail) (info1 : Word) : State :=
  modLaunch (postQueue s q l.lseq cause none (wordOf f.va) info1) q l.lseq fun l => { l with stall := true }

/-- A launch that is refused at dispatch runs no further task (R228): no domain of it is left to place. -/
def refuseLaunch (s : State) (q : Nat) (l : Launch) (d : Need) : State :=
  endReserve (modLaunch s q l.lseq fun l => { l with fail := Cause.lrecBad }) d

/-- Translate and place the next domain of a head launch on a unit that holds it (R228, R229). -/
def dispatchOn (s : State) (q : Nat) (l : Launch) (d : Need) (r : List (Nat × Nat)) : State :=
  match virtExts l d.tenant l.exts s with
  | (s, .error (e, f)) =>
    if f.cause = Cause.pageSplit then refuseLaunch s q l d else stallLaunch s q l f.cause f (pageInfo1 e f)
  | (s, .ok es) =>
    if !((r.filter fun x => decide (x.2 ≠ 0)).all fun x => syncReach s l (some (x.1 / 96)) es) then refuseLaunch s q l d
    else match walkCode d.tenant 300 s (bits (hdW l 1) 56 0) (bits (hdW l 2) 31 0) none with
      | (s, .error f) => stallLaunch s q l Cause.codePage f (pack [(1, 0), (f.level % 8, 4)])
      | (s, .ok code) => placeDomain s q l d r code es

/-- Whether the gates of a queue let it dispatch: its pace gap, the gate of a weight replacement and that of a checkpoint (R235, R354,
R416). -/
def queueGate (s : State) (q : Nat) : Bool :=
  let x := queueAt s q
  (!x.anyDisp || decide (x.lastDisp + paceGap s q ≤ s.gts)) && !(replGates s q) && s.ckpt.isNone

/-- The ready queues in the order of service: by RANK, and from the queue served last on among equals (R229). -/
def queueOrder (s : State) (ready : Nat → Bool) : List Nat :=
  let qs := (countUp 1 64).map fun i => (s.lastQ + i) % 64
  ((countUp 0 16).map fun r => qs.filter fun q => ready q && decide (bits (mreg s (.qcfg q)) 47 44 = 15 - r)).flatten

end Sys2Proof.Machine
end

