-- ==== Sys2Proof/Machine/Preempt.lean ====
section
/-!
DEFINITION. The commands of a seat's control register (R247, R248), swapping a domain out and in (R249, R250), and the scheduler's
loop, which dispatches swapped-out domains and head launches (R229, R250).
-/
namespace Sys2Proof.Machine

open Sys2Proof

/-! ### RESUME, STOP and KILL -/

/-- The seat control registers of a seat are numbered core × 4 + seat. -/
def seatNo (c n : Nat) : Nat := 4 * c + n

/-- RUNV of a seat (Table 11-5). -/
def runV (s : State) (c n : Nat) : Nat := bits (mreg s (.sctl (seatNo c n))) 39 16

/-- A resumed task's sequencer refills and continues with its next row, once a row still in progress is complete (R176).  Its rows keep the
trap enables of the Q syllable's issue (R85; DEDUCED, log 21). -/
def refill (k : Core) (n : Nat) : Core :=
  { k with seqr := k.seqr.map fun q =>
      if q.seat = n ∧ !q.run then
        if q.row.isSome then { q with run := true, fill := k.ct + 64 } else { q with run := true, due := k.ct + 64 }
      else q }

/-- Resume a stopped task at an address (R241, R248): before its record is written the command only posts RESUME_BAD. -/
def resumeAt (s : State) (c n : Nat) (pc : Word) : State :=
  let t := seatAt s c n
  if t.st ≠ .stopped ∨ t.retire.isSome ∨ t.swapReq then s
  else match t.stop with
    | none => s
    | some (_, false) => postTask s t.task t.tco c n Cause.resumeBad none 0 0
    | some (_, true) => modCore (resumeSeat s c n pc (runV s c n)) c fun k => refill k n

/-- RESUME (R248): at RADDR. -/
def execResume (c : CoreId) (n : Fin 4) (s : State) : Out := .next (resumeAt s c.val n.val (seatAt s c.val n.val).pc)

/-- RESUME at SPC (R248): an address that is misaligned or beyond the code image stops the task again when it would issue. -/
def execResumeAtSpc (c : CoreId) (n : Fin 4) (s : State) : Out :=
  .next (resumeAt s c.val n.val (wordOf (bits (mreg s (.spc (seatNo c.val n.val))) 23 0)))

/-- Stop a task as STOP does (R248): a ready one after its next yield group, a parked one at once. -/
def stopTask (s : State) (c n : Nat) : State :=
  let t := seatAt s c n
  if t.retire.isSome then s
  else match t.st with
    | .ready =>
      if t.wait.isSome then
        if inFreeze (coreAt s c) n then modSeat s c n fun t => { t with causes := t.causes ++ [⟨3, Cause.taskStop, 63, t.lastGrp, 0, 0⟩] }
        else takeStop s c n [⟨3, Cause.taskStop, 63, t.lastGrp, 0, 0⟩] t.pc.toNat
      else modSeat s c n fun t => { t with stopReq := some 0 }
    | .parked => takeStop s c n [⟨3, Cause.taskStop, 63, t.lastGrp, 0, 0⟩] t.pc.toNat
    | _ => s

/-- STOP (R248). -/
def execStop (c : CoreId) (n : Fin 4) (s : State) : Out := .next (stopTask s c.val n.val)

/-- KILL (R248): steps 2 to 7 of HALT, with exit code 0x8000_0000 + CAUSE. -/
def killTask (s : State) (c n cause : Nat) : State :=
  modSeat s c n fun t =>
    let r : Retire :=
      { exit := BitVec.ofNat 32 (2 ^ 31 + cause), raddr := t.pc.toNat, signalled := false, kill := true, upto := usedChans (coreAt s c) t }
    { t with retire := some r, runExt := none, swapReq := false }

/-- KILL of a stopped task. -/
def execKill (c : CoreId) (n : Fin 4) (s : State) : Out :=
  let t := seatAt s c.val n.val
  .next (if t.st ≠ .stopped ∨ t.retire.isSome then s
    else match t.stop with
      | some (r, _) => killTask s c.val n.val r.cause
      | none => s)

/-! ### Swapping out -/

/-- DOM of a task. -/
def taskDom (t : Seat) : Nat := bits t.dmem 63 44
/-- LEVEL of a task. -/
def taskLevel (t : Seat) : Nat := bits t.dmem 34 32

/-- Whether two tasks are swapped together: the same domain, or the same task for LEVEL 0 (R219, R249). -/
def sameGang (x y : Seat) : Bool :=
  decide (x.task = y.task) && decide (taskDom x = taskDom y) && (decide (1 ≤ taskLevel x) || decide (x.tco = y.tco))

/-- The resident members a swap-out of a task takes. -/
def gangOf (s : State) (t : Seat) : List (Nat × Nat × Seat) := (allSeats s).filter fun x => sameGang t x.2.2

/-- SWAPOUT (R249): every other member of the domain is stopped as STOP gives. -/
def execSwapout (c : CoreId) (n : Fin 4) (s : State) : Out :=
  let t := seatAt s c.val n.val
  .next (if t.st ≠ .stopped ∨ t.retire.isSome ∨ t.swapReq ∨ t.stop = none then s
    else (gangOf s t).foldl (fun s x =>
      modSeat (stopTask s x.1 x.2.1) x.1 x.2.1 fun t => { t with swapReq := true }) s)

/-- A save area: its tier and offset (R247). -/
def saveArea (w : Word) : Nat × Nat := (bits w 63 61, bits w 45 0)

/-- Whether a save area can be used (R247, R249). -/
def saveOk (w : Word) : Bool :=
  let a := saveArea w
  (decide (a.1 = 2) || decide (a.1 = 3)) && decide (a.2 % 2 ^ 23 = 0) && tierHas a.1 a.2 (2 ^ 23)

/-- Whether a member has nothing left in flight (R249 step 1). -/
def quiet (s : State) (c n : Nat) : Bool :=
  let t := seatAt s c n
  landedAll s c n && decide (t.fo = []) && decide (t.foRes = 0) && decide (t.fiRes = []) && copiesDone s c n

/-- Words 0 to 7 of a save image (R249 step 2). -/
def imageHead (s : State) (c n : Nat) : List Word :=
  let t := seatAt s c n
  let r := match t.stop with | some (r, _) => pack [(r.raddr % 2 ^ 24, 32), (r.faddr % 2 ^ 24, 0)] | none => 0
  [pack [(if t.hasA then 1 else 0, 62), (if t.hasQ then 1 else 0, 61), (runV s c n, 0)], t.task, t.tco, t.dmem, r,
   mreg s (.ssave (seatNo c n)), 0, 0]

/-- The bytes of an allocation, by place in it. -/
def saveScratch (k : Core) (a : Alloc) : List Host.Cell :=
  (k.spad.filter fun x => decide (a.base ≤ x.1) && decide (x.1 < a.base + a.bytes)).map fun x => (x.1 - a.base, x.2)

/-- Write a member's image and free its seat; the body is in Shosol's own format, so that its bytes and their number are free values
(R249 steps 2 and 3, log 4).  An uncorrectable byte of its scratch makes the image uncorrectable. -/
def writeImage (s : State) (c n : Nat) : State :=
  let k := coreAt s c
  let t := seatOf k n
  let w := mreg s (.ssave (seatNo c n))
  let area := saveArea w
  let head := imageHead s c n
  let x := drawWord s
  let len := x.1.toNat % (2 ^ 23 - 63)
  let y := drawBytes x.2 len
  let s := unitWrite y.2 area.1 area.2 (bytesOf head ++ y.1)
  let ue := t.allocs.any fun a => k.spadUe.any fun p => decide (a.base ≤ p) && decide (p < a.base + a.bytes)
  let s := if ue then { s with poison := s.poison ++ [(area.1, area.2 / 64)] } else s
  let none_ : Core := {}
  let ka := if t.hasA then k else none_
  let sw : Swapped :=
    { area := w, len := 64 + len, words := head, seat := { t with st := .stopped, swapReq := false }, scratch := t.allocs.map (saveScratch k),
      tile := ka.tile, tg := ka.tg, acc := ka.acc, w0 := ka.w0, w1 := ka.w1, sw0 := ka.sw0, sw1 := ka.sw1, tag0 := ka.tag0,
      tag1 := ka.tag1, sa := ka.sa, d := if t.hasQ then k.d else [],
      seqr := if t.hasQ then k.seqr.filter (fun q => decide (q.seat = n)) else none,
      chs := k.ch.map fun x => (x.1, tfind x.2.pred n, tget [] x.2.fin n) }
  let s := modQueue s (taskQueue t.task) fun x => { x with resume := x.resume ++ [sw] }
  vacateSeat s c n

/-- SWAP_IMAGE_WRITE (R249): once every member is stopped they pass to STATE 4, unless a save area is unusable; a member that is quiet
then has its image written and leaves its seat. -/
def execSwapImageWrite (c : CoreId) (n : Fin 4) (s : State) : Out :=
  let t := seatAt s c.val n.val
  .next (
    if t.st = .swapping then (if quiet s c.val n.val then writeImage s c.val n.val else s)
    else if t.st = .stopped ∧ t.swapReq then
      let g := (gangOf s t).filter fun x => x.2.2.swapReq
      if g.any fun x => decide (x.2.2.st ≠ .stopped) || x.2.2.retire.isSome then s
      else
        let bad := g.filter fun x => !saveOk (mreg s (.ssave (seatNo x.1 x.2.1)))
        if bad = [] then
          g.foldl (fun s x => cancelStreams (modSeat s x.1 x.2.1 fun t => { t with st := .swapping }) x.1 x.2.1 x.2.2.task) s
        else
          let s := bad.foldl (fun s x => postTask s x.2.2.task x.2.2.tco x.1 x.2.1 Cause.swapFail none 0 0) s
          g.foldl (fun s x => modSeat s x.1 x.2.1 fun t => { t with swapReq := false }) s
    else s)

/-! ### Swapping in -/

/-- DRANK of a member. -/
def taskRank (t : Seat) : Nat := bits t.dmem 10 0

/-- Insert a member by DRANK. -/
def byDrank (x : Swapped) : List Swapped → List Swapped
  | [] => [x]
  | y :: t => if taskRank x.seat < taskRank y.seat then x :: y :: t else y :: byDrank x t

/-- The swapped-out members that belong with one, in ascending DRANK. -/
def swapGang (l : List Swapped) (x : Swapped) : List Swapped :=
  (l.filter fun y => sameGang x.seat y.seat).foldl (fun r y => byDrank y r) []

/-- The domains that wait whole on a queue's resume list, oldest first: no member is still on its way out. -/
def swapGangs (s : State) (q : Nat) : List (List Swapped) :=
  (((queueAt s q).resume.filter fun x => (gangOf s x.seat).isEmpty).map (swapGang (queueAt s q).resume)).eraseDups

/-- What a member's image shows: none when it carries an uncorrectable error, else its header. -/
def imageHeader (s : State) (x : Swapped) : Option (List Word) :=
  let a := saveArea x.area
  if (firstPoison s a.1 (unitsOf a.2 x.len)).isSome then none else some (wordsOf ((countUp a.2 64).map (obsByte s none a.1)))

/-- Whether every member of a swapped-out domain may go. -/
def gangGo (s : State) (g : List Swapped) : Bool :=
  g.all fun x => match imageHeader s x with | some h => bitAt (lget 0 h 0) 63 | none => true

/-- The members whose image carries an uncorrectable error. -/
def gangUe (s : State) (g : List Swapped) : Bool := g.any fun x => (imageHeader s x).isNone

/-- The members whose header words 1 to 7 have been altered (R250). -/
def gangBad (s : State) (g : List Swapped) : List Swapped :=
  g.filter fun x => match imageHeader s x with | some h => decide (h.drop 1 ≠ x.words.drop 1) | none => false

/-- The swapped-out domain that a queue dispatches next (R250). -/
def swapReady (s : State) (q : Nat) : Option (List Swapped) :=
  (swapGangs s q).find? fun g => g ≠ [] && gangGo s g && !gangUe s g && decide (gangBad s g = [])

/-- A place of a watched word in a task's new scratch (R250). -/
def movePlace (old new : List Alloc) (p : Nat) : Nat :=
  match (old.zip new).find? fun x => decide (x.1.base ≤ p) && decide (p < x.1.base + x.1.bytes) with
  | some x => x.2.base + (p - x.1.base)
  | none => p

/-- Refill an allocation with its bytes. -/
def refillScratch (k : Core) (a : Alloc) (bs : List Host.Cell) : Core :=
  let out := fun (p : Nat) => !(decide (a.base ≤ p) && decide (p < a.base + a.bytes))
  { k with spad := cellsPutAll (bs.map fun x => (a.base + x.1, x.2)) (k.spad.filter fun x => out x.1),
           spadUe := k.spadUe.filter out }

/-- The seat of a member that is swapped in (R250). -/
def swappedSeat (s : State) (l : Launch) (x : Swapped) (code : Nat × Nat) (t : Tbl Ext) (sp : Spot) : Seat :=
  let run := match imageHeader s x with | some h => bits (lget 0 h 0) 23 0 | none => 0
  { x.seat with
    st := if x.seat.wait.isSome then .parked else .ready,
    wait := match x.seat.wait with | some (.word ph b c) => some (.word (ph.map (movePlace x.seat.allocs sp.allocs)) b c) | w => w,
    ext := t, codeTier := code.1, codeBase := code.2, codeLen := bits (hdW l 2) 31 0, allocs := sp.allocs, run := run, used := 0,
    fresh := true, run0 := false, stop := none, stopReq := none, causes := [], swapReq := false, recs := [], drained := [],
    resvNext := max x.seat.resvNext (seatAt s sp.core sp.seat).resvNext }

/-- Restore a member's scratch and the claimed state it held (R250). -/
def restoreMember (x : Swapped) (sp : Spot) (k : Core) : Core :=
  let k := (sp.allocs.zip x.scratch).foldl (fun k y => refillScratch k y.1 y.2) k
  let k := if x.seat.hasA then
      { k with tile := x.tile, tg := x.tg, acc := x.acc, w0 := x.w0, w1 := x.w1, sw0 := x.sw0, sw1 := x.sw1, tag0 := x.tag0,
               tag1 := x.tag1, sa := x.sa } else k
  if x.seat.hasQ then
    { k with d := x.d, seqr := x.seqr.map fun q => { q with seat := sp.seat, run := true, row := none, due := k.ct + 64, fill := 0 } }
  else k

/-- The pairs of a domain with peers that have a member on the resume list: each takes a place on both cores of a pair (R229, R250). -/
def gangPairs (g : List Swapped) : List Nat := (g.map fun x => taskRank x.seat / 2).eraseDups

/-- How many places a swapped-out domain needs. -/
def gangSize (d : Need) (g : List Swapped) : Nat := if d.peers = [] then g.length else 2 * (gangPairs g).length

/-- The place of member `i` of a swapped-out domain among its places. -/
def gangPlace (d : Need) (g : List Swapped) (i : Nat) (x : Swapped) : Nat :=
  if d.peers = [] then i else 2 * (gangPairs g).idxOf (taskRank x.seat / 2) + taskRank x.seat % 2

/-- Whether the partner of a member is not on the resume list with it: it has ended. -/
def partnerGone (g : List Swapped) (x : Swapped) : Bool :=
  !g.any fun y => decide (taskRank y.seat / 2 = taskRank x.seat / 2) && decide (taskRank y.seat ≠ taskRank x.seat)

/-- Give the channels of a core back what they kept of a seat's completed commands (R195, R201, R250): they stay ahead, in the order of
acceptance, of the commands that the core accepts from then on. -/
def restoreChans (x : Swapped) (n : Nat) (k : Core) : Core :=
  x.chs.foldl (fun k y => { k with
    accNo := y.2.2.foldl (fun a f => max a (f.1 + 1)) k.accNo
    ch := tmod {} y.1 (fun ch =>
      { ch with pred := (match y.2.1 with | some p => tput n p ch.pred | none => tdel n ch.pred), fin := tput n y.2.2 ch.fin }) k.ch }) k

/-- Place a swapped-out domain on a unit that holds it (R250): a page that does not translate stalls it with a notice. -/
def swapOn (s : State) (q : Nat) (l : Launch) (g : List Swapped) (d : Need) (r : List (Nat × Nat)) : State :=
  match virtExts l d.tenant l.exts s with
  | (s, .error (e, f)) => stallLaunch s q l f.cause f (pageInfo1 e f)
  | (s, .ok es) =>
    match walkCode d.tenant 300 s (bits (hdW l 1) 56 0) (bits (hdW l 2) 31 0) none with
    | (s, .error f) => stallLaunch s q l Cause.codePage f (pack [(1, 0), (f.level % 8, 4)])
    | (s, .ok code) =>
      let y := spotsOf s d r
      let sp := y.1
      let s := (countUp 0 g.length).foldl (fun s i =>
        match lget none (g.map some) i with
        | none => s
        | some x =>
          let j := gangPlace d g i x
          let own := lget ⟨0, 0, []⟩ sp j
          let t := memberExts s l es own (peerSpot sp j) (partnerGone g x)
          let s := if d.peers = [] ∨ partnerGone g x then s else grantPeers s d own (peerSpot sp j)
          let seat := swappedSeat s l x code t own
          modCore (loadSeat (modCore s own.core (restoreMember x own)) own.core own.seat seat) own.core (restoreChans x own.seat)) y.2
      let s := modQueue s q fun x => { x with resume := x.resume.filter fun y => !g.contains y, lastDisp := s.gts, anyDisp := true }
      { (endReserve s d) with lastQ := q }

/-! ### The loop -/

/-- Whether a head launch may be dispatched (R229, R264). -/
def headReady (l : Launch) : Bool := l.released && !l.waitGo && !l.stall

/-- Whether a queue dispatches nothing at all: a check stalls, or its head launch waits for the word at WAIT (R223, R224). -/
def queueHeld (s : State) (q : Nat) : Bool :=
  ((queueAt s q).launches.any fun l => !l.checked) || (headLaunch s q).any fun l => !l.released && !waitOver l

/-- Whether a queue has something to dispatch (R229, R250). -/
def queueReady (s : State) (q : Nat) : Bool :=
  queueRuns s q && queueGate s q && !queueHeld s q &&
  ((swapReady s q).any (fun g => g.any fun x => (launchAt s q (taskLseq x.seat.task)).any fun l => !l.stall) ||
   (headLaunch s q).any headReady)

/-- Serve a queue (R229): its swapped-out domain first, else the next domain of its head launch.  The answer says whether something
was placed, or stalled, and the state; a domain that finds no unit has one reserved. -/
def serveQueue (s : State) (q : Nat) : Bool × State :=
  let fromHead : Bool × State :=
    match headLaunch s q with
    | none => (false, s)
    | some l =>
      if !headReady l then (false, s)
      else
        let d := needOf s q l l.disp
        match findUnit s d (lrLvl l) (lrDsize l) (countUp 0 (384 / unitCores (lrLvl l))) with
        | some r => (true, dispatchOn s q l d r)
        | none => (false, reserveUnit s d (lrLvl l))
  match swapReady s q with
  | none => fromHead
  | some g =>
    match g.head?.bind fun x => (launchAt s q (taskLseq x.seat.task)).map fun l => (x, l) with
    | none => fromHead
    | some (x, l) =>
      if l.stall then (false, s)
      else
        let d := needOf s q l (taskDom x.seat)
        match findUnit s d (lrLvl l) (gangSize d g) (countUp 0 (384 / unitCores (lrLvl l))) with
        | some r => (true, swapOn s q l g d r)
        | none => (false, reserveUnit s d (lrLvl l))

/-- Serve the queues in order until one is served. -/
def serveFirst : List Nat → State → Option Nat × State
  | [], s => (none, s)
  | q :: t, s => match serveQueue s q with
    | (true, s) => (some q, s)
    | (false, s) => serveFirst t s

/-- One pass of the scheduler's loop (R229). -/
def schedule (s : State) : Option Nat × State := serveFirst (queueOrder s (queueReady s)) s

/-- DISPATCH_DOMAIN (R228 to R230). -/
def execDispatchDomain (s : State) : Out := .next (schedule s).2

/-- Kill the members of a swapped-out domain whose image cannot be read (R250, Table 11-4): as by KILL, with SEAT_UE. -/
def killSwapped (s : State) (q : Nat) (g : List Swapped) : State :=
  let s := modQueue s q fun x => { x with resume := x.resume.filter fun y => !g.contains y }
  g.foldl (fun s x =>
    let s := x.seat.slots.foldl (fun s y => modGq s y.1 fun g => { g with taken := g.taken.filter (· ≠ y.2) }) s
    let lseq := taskLseq x.seat.task
    let s := postTask s x.seat.task x.seat.tco 0 0 Cause.seatUe none 0 0
    let s := tally s q lseq (BitVec.ofNat 32 (2 ^ 31 + Cause.seatUe))
    match launchAt s q lseq with
    | some l => if (queueAt s q).st = 2 then s else sigAdd s q l
    | none => s) s

/-- SWAP_IN (R250): a domain whose members may all go is looked at: an uncorrectable image kills it, an altered header posts
RESUME_BAD and holds it; else the scheduler dispatches it when its queue's turn comes. -/
def execSwapIn (q : Fin 64) (s : State) : Out :=
  .next (match (swapGangs s q.val).find? fun g => gangGo s g && (gangUe s g || decide (gangBad s g ≠ [])) with
    | some g =>
      if gangUe s g then killSwapped s q.val g
      else (gangBad s g).foldl (fun s x => postTask s x.seat.task x.seat.tco 0 0 Cause.resumeBad none 0 0) s
    | none =>
      if (swapReady s q.val).isNone then s
      else
        let r := schedule s
        if r.1 = some q.val then r.2 else s)

/-! ### QRETRY -/

/-- Make again what a failing walk has stalled for a launch (R223, R224, R228). -/
def retryLaunch (s : State) (q : Nat) (l : Launch) : State :=
  let s := modLaunch s q l.lseq fun l => { l with stall := false, sigWait := 0 }
  let s := if l.checked then s else checkIn s q { l with stall := false }
  sigMany q l.lseq l.sigWait s

/-- QRETRY (R223, R224, R228, R253): the checks, dispatches and signals of the queue that wait for a walk are tried again. -/
def execQretry (q : Fin 64) (s : State) : Out :=
  .next ((queueAt s q.val).launches.foldl (fun s l => retryLaunch s q.val l) s)

end Sys2Proof.Machine
end

