-- ==== Sys2Proof/Machine/Queues.lean ====
section
/-!
DEFINITION. The queues: TEARDOWN, RESET and RESTART (R237, R238), rollback and the killing of a queue (R261 to R266), the fault ring
(R243, R245), and the completion of a step (R96, R97).
-/
namespace Sys2Proof.Machine

open Sys2Proof

/-! ### STEP_COMPLETE -/

/-- Whether an effect in flight brings words to `fo`. -/
def bringsFo (l : Land) : Bool := match l with | .fo _ => true | .sca d _ _ => decide (d = 62) | _ => false

/-- Whether every remote store and atomic that a task issued before a cycle has been acknowledged (R97); one composed of words is issued with
the last of them (DEDUCED, log 22). -/
def ackedBefore (s : State) (c n at_ : Nat) : Bool :=
  let k := coreAt s c
  !(k.effs.any fun e => decide (e.seat = n) && decide (e.iss < at_) && bringsFo e.land) &&
  !((foIssued 16 (seatOf k n).fo).any fun h => decide (bits h.1 63 60 ≠ 0) && decide (h.2 < at_)) &&
  !(k.sent.any fun x => decide (x.agent = n) && decide (x.msg.kind ≠ kRld) && decide (x.iss < at_)) &&
  !(s.hold.any fun h => heldOf s c n h && decide (16 ≤ h.msg.dunit) && decide (h.msg.kind ≠ kRld) && decide (ownIss h.msg < at_))

/-- Whether the stores and atomics a task has issued before its STEP group are visible at a scope, with the writes of the engine commands it
has drained (R97, R290). -/
def stepVisible (s : State) (c n at_ scope : Nat) : Bool :=
  !((coreAt s c).effs.any fun e => decide (e.seat = n) && decide (e.iss < at_) && isStore e.land) && ackedBefore s c n at_ &&
  s.wbuf.all fun w => decide (w.owner ≠ some (seatNo c n)) || engLive s w || decide (w.path = 0 ∧ at_ ≤ w.iss) || wrVisible scope w

/-- Whether a pair beat that a task issued before its STEP group is on its way in either array (R168). -/
def beatOut (s : State) (c n at_ : Nat) : Bool :=
  let out := fun (k : Nat) (e : Eff) => decide (e.seat = k) && isBeat e && e.pair && decide (e.iss < at_)
  ((coreAt s c).effs.any (out n)) || ((coreAt s (partnerOf c)).effs.any (out (4 + n)))

/-- Whether a member of a task's domain is swapped out (R249): a step does not complete before it is back (R96). -/
def memberAway (s : State) (t : Seat) : Bool :=
  (queueAt s (taskQueue t.task)).resume.any fun y => decide (y.seat.task = t.task) && decide (taskDom y.seat = taskDom t)

/-- The resident members of the step at which a task waits (R96). -/
def stepMembers (s : State) (c : Nat) (t : Seat) (level : Nat) : List (Nat × Nat × Seat) :=
  (allSeats s).filter fun x =>
    decide (x.2.2.task = t.task) && decide (taskDom x.2.2 = taskDom t) && decide (x.1 / unitCores level = c / unitCores level)

/-- Whether a task waits at a step of a level. -/
def atStep (l : Nat) (t : Seat) : Bool := match t.wait with | some (.step m _) => decide (m = l) | _ => false

/-- STEP_COMPLETE (R96, R97, R168): when every member has arrived or retired and their stores are visible, all become ready at once.  A member
has retired when HALT's steps are done and its seat is free (R103), its pair beats landed among them. -/
def execStepComplete (c : CoreId) (n : Fin 4) (s : State) : Out :=
  let t := seatAt s c.val n.val
  .next (match t.wait with
    | some (.step l _) =>
      let ms := stepMembers s c.val t l
      let scope := if l = 0 then 0 else if l ≤ 3 then 1 else 2
      if !memberAway s t && ms.all fun x => (match x.2.2.wait with
          | some (.step m a) => decide (m = l) && stepVisible s x.1 x.2.1 a scope && (decide (l = 0) || !beatOut s x.1 x.2.1 a)
          | _ => false) then
        ms.foldl (fun s x =>
          if atStep l x.2.2 then
            modSeat s x.1 x.2.1 fun t => { t with wait := none, st := if t.st = .parked then .ready else t.st }
          else s) s
      else s
    | _ => s)

/-! ### The fault ring -/

/-- Write a record into the fault ring (R243, R245); a ring whose register names no tier it may lie in takes no entry. -/
def putFault (s : State) (q : Nat) (r : StopRec) : State :=
  let a := ringOf (mreg s (.qfring q))
  let n := (mreg s (.qfseq q)).toNat
  let s := if [2, 3, 5].contains a.1 then unitWrite s a.1 (a.2 + 64 * (n % ringSize s q)) (bytesOf (recWords r n)) else s
  setMreg s (.qfseq q) (wordOf ((n + 1) % 2 ^ 32))

/-- The stop record of a seat has been written (R245, R248). -/
def markWritten (s : State) (k : Nat) (r : StopRec) : State :=
  modSeatNo s k fun t => match t.stop with
    | some (x, false) => if x = r then { t with stop := some (x, true) } else t
    | _ => t

/-- Whether a queue's fault ring is full (R245). -/
def ringFull (s : State) (q : Nat) : Bool :=
  decide (ringSize s q ≤ ((mreg s (.qfseq q)).toNat + 2 ^ 32 - (mreg s (.qfhead q)).toNat % 2 ^ 32) % 2 ^ 32)

/-- The fault interrupt of a queue: it stays asserted while QFSEQ differs from QFHEAD (R245). -/
def faultIrq (s : State) (q : Nat) : Bool := decide (mreg s (.qfseq q) ≠ mreg s (.qfhead q))

/-- FAULT_RECORD_WRITE (R245): with a free slot, a stop record that waited goes first, then RING_OVER when notices have been dropped,
then the oldest record; in a full ring a stop record waits in its seat and a notice is dropped and counted. -/
def execFaultRecordWrite (q : Fin 64) (s : State) : Out :=
  let x := queueAt s q.val
  .next (
    if ringFull s q.val then
      match x.recs with
      | [] => s
      | (some k, r) :: t => modQueue s q.val fun x => { x with recs := t, stops := x.stops ++ [(k, r)] }
      | (none, _) :: t =>
        modMreg (modQueue s q.val fun x => { x with recs := t, dropped := x.dropped + 1 }) (.qflost q.val)
          fun w => wordOf ((w.toNat + 1) % 2 ^ 32)
    else match x.stops with
      | (k, r) :: t => markWritten (putFault (modQueue s q.val fun x => { x with stops := t }) q.val r) k r
      | [] =>
        if x.dropped ≠ 0 then
          let r := noticeOf s 0 (pack [(qTenant s q.val, 48), (q.val, 42), (chipNo s, 32)]) Cause.ringOver none (wordOf x.dropped) 0
          putFault (modQueue s q.val fun x => { x with dropped := 0 }) q.val r
        else match x.recs with
          | [] => s
          | (who, r) :: t =>
            let s := putFault (modQueue s q.val fun x => { x with recs := t }) q.val r
            match who with | some k => markWritten s k r | none => s)

/-- QFHEAD_WRITE (R245): software says how many entries it has consumed. -/
def execQfheadWrite (q : Fin 64) (v : W32) (s : State) : Out := .next (setMreg s (.qfhead q.val) (v.setWidth 64))

/-! ### Ending the work of launches -/

/-- Remove the entries of a tenant from every tag table when its last queue ends (R112). -/
def purgeTags (s : State) (q : Nat) : State :=
  let t := qTenant s q
  if s.queues.any fun x => decide (x.1 ≠ q) && decide (x.2.st ≠ 0) && decide (qTenant s x.1 = t) then s
  else { s with cores := s.cores.map fun c => (c.1, { c.2 with tags := c.2.tags.filter fun e => e.tenant ≠ t }) }

/-- Drop the commands of some tasks from a channel: they count as gone (R238, R263). -/
def dropCmds (p : Word → Bool) (x : Chan) : Chan :=
  let cs := x.cmds.filter fun m => !p m.task
  let gone := x.cmds.filter fun m => p m.task
  { x with cmds := cs, comp := x.comp + gone.length, held := if cs = [] then none else x.held,
           slog := x.slog.filter fun u => !(gone.any fun m => decide (m.seat = u.seat) && decide (m.seq = u.seq)) }

/-- Drop the work that stopped tasks have not had performed: channel and engine commands with their side logs, words in `fo`
(R238, R263). -/
def dropWork (s : State) (p : Word → Bool) : State :=
  let eng := fun (l : List EngCmd) => l.filter fun m => !p m.task
  { s with
    cores := s.cores.map fun c =>
      (c.1, { c.2 with ch := c.2.ch.map fun x => (x.1, dropCmds p x.2),
                       seats := c.2.seats.map fun t => (t.1, if t.2.st ≠ .empty ∧ p t.2.task then { t.2 with fo := [] } else t.2) }),
    dies := s.dies.map fun d => (d.1, { d.2 with kv := eng d.2.kv, topk := eng d.2.topk, gthr := eng d.2.gthr }),
    colls := s.colls.filter fun x => !p x.cmd.task }

/-- Whether the writes of some tasks have all settled: landed, out of the hold queue, acknowledged, at their ordering points (R263 step 2). -/
def workSettled (s : State) (q : Nat) (p : Nat → Bool) : Bool :=
  ((queueSeats s q).all fun x => !p (taskLseq x.2.2.task) ||
    (landedAll s x.1 x.2.1 && decide (x.2.2.foRes = 0) && !((coreAt s x.1).sent.any fun m => decide (m.seat = x.2.1)) &&
     !(s.hold.any fun h => heldOf s x.1 x.2.1 h) &&
     !(s.engSent.any fun y => decide (y.agent = agGather) && decide (y.seat = 4 * x.1 + x.2.1)))) &&
  s.wbuf.all fun w => match w.launch with | some (q', l) => !(decide (q' = q) && p l) | none => true

/-- Restore every unit that some launches of a queue have logged, in reverse log order (R261, R263 step 3).  Each die keeps its own log,
and the spec orders no entries of two dies' logs. -/
def restoreLogs (s : State) (q : Nat) (lseqs : List Nat) : State :=
  let es := (s.dies.map fun d => d.2.wlog).flatten.filter fun e => decide (e.2.2.1 = q) && lseqs.contains e.2.2.2.1
  lseqs.foldl (fun s l => dropLog s q l) (es.reverse.foldl (fun s e => unitWrite s e.1 (64 * e.2.1) e.2.2.2.2) s)

/-- Free the gather slots of swapped-out tasks and take them off the resume list (R358). -/
def dropSwapped (s : State) (q : Nat) (p : Nat → Bool) : State :=
  let gone := (queueAt s q).resume.filter fun x => p (taskLseq x.seat.task)
  let s := gone.foldl (fun s x =>
    x.seat.slots.foldl (fun s y => modGq s y.1 fun g => { g with taken := g.taken.filter (· ≠ y.2) }) s) s
  modQueue s q fun x => { x with resume := x.resume.filter fun y => !p (taskLseq y.seat.task) }

/-- Free the seats of some launches of a queue. -/
def freeLaunchSeats (s : State) (q : Nat) (p : Nat → Bool) : State :=
  ((queueSeats s q).filter fun x => p (taskLseq x.2.2.task)).foldl (fun s x => releaseSeat s x.1 x.2.1) s

/-- The launch that a teardown or reset record names (R237). -/
def oldestLaunch (s : State) (q : Nat) : Nat × Bool :=
  match (queueAt s q).launches with
  | l :: _ => (l.lseq, true)
  | [] => ((mreg s (.qcons q)).toNat, false)

/-- The tally of a launch that such a record carries. -/
def tallyOf (s : State) (q : Nat) (x : Nat × Bool) : Nat × W32 :=
  if x.2 then match launchAt s q x.1 with | some l => (l.bad, l.codes) | none => (0, 0) else (0, 0)

/-- Dispatch from a queue ends: its reservations go, and what stalled is not tried again (R237, R238). -/
def endDispatch (s : State) (q : Nat) : State :=
  modQueue { s with reserved := s.reserved.filter fun r => r.q ≠ q } q fun x =>
    { x with launches := x.launches.map fun l => { l with stall := false } }

/-- A queue has ended: its launches are discarded, and its STATE becomes 0. -/
def queueEnds (s : State) (q : Nat) : State :=
  let s := (queueAt s q).launches.foldl (fun s l => dropLog s q l.lseq) s
  modQueue (dropSwapped s q fun _ => true) q fun x =>
    { x with st := 0, launches := [], struck := [], torn := (0, false), killed := none }

/-! ### TEARDOWN and RESTART -/

/-- TEARDOWN (R237, R403): dispatch stops, and every seat parked on WAITF, or about to park at its yield, becomes ready (R94). -/
def execTeardown (q : Fin 64) (s : State) : Out :=
  .next (
    if ckBusy s then deferWrite s (.qcfg q.val) 1
    else if (queueAt s q.val).st ≠ 1 then s
    else
      let s := netCancel (endDispatch s q.val) q.val
      let s := modQueue s q.val fun x => { x with st := 2, torn := oldestLaunch s q.val }
      (queueSeats s q.val).foldl (fun s x =>
        match x.2.2.wait with
        | some (.word ..) =>
          modSeat s x.1 x.2.1 fun t => { t with wait := none, st := if t.st = .parked then .ready else t.st }
        | _ => s) s)

/-- TEARDOWN_RECORD (R237): when no task of the queue is resident, the signals of its launches are released in error, one record is
written, and the queue stops. -/
def execTeardownRecord (q : Fin 64) (s : State) : Out :=
  .next (
    if (queueAt s q.val).st ≠ 2 ∨ queueSeats s q.val ≠ [] then s
    else
      let s := sigErrors s q.val
      if !sigsErr s q.val then s
      else
        let x := (queueAt s q.val).torn
        let t := tallyOf s q.val x
        purgeTags (queueEnds (putCompletion s q.val Cause.qTorn x.1 t.1 t.2) q.val) q.val)

/-- RESTART (R238). -/
def execRestart (q : Fin 64) (s : State) : Out :=
  .next (if ckBusy s then deferWrite s (.qcfg q.val) 3
    else if (queueAt s q.val).st ≠ 0 then s else modQueue s q.val fun x => { x with st := 1 })

/-! ### RESET -/

/-- RESET of a task's queue halts the sequencer at the next row boundary and discards its place (R176). -/
def haltRotator (s : State) (c n : Nat) : State :=
  modCore s c fun k => match k.seqr with
    | none => k
    | some q =>
      if q.seat ≠ n then k
      else if q.row.isSome then { k with seqr := some { q with run := false, drop := true } }
      else { k with seqr := none }

/-- Stop the tasks of a queue as RESET does (R238): parked ones at once, the others at their next yield or when their time is up. -/
def stopQueue (s : State) (q : Nat) : State :=
  let s := (queueSeats s q).foldl (fun s x =>
    match x.2.2.st with
    | .parked => silentStop (haltRotator s x.1 x.2.1) x.1 x.2.1
    | .ready =>
      let s := haltRotator s x.1 x.2.1
      if x.2.2.wait.isSome && !inFreeze (coreAt s x.1) x.2.1 then silentStop s x.1 x.2.1 else modSeat s x.1 x.2.1 fun t => { t with stopReq := some 1 }
    | _ => haltRotator s x.1 x.2.1) s
  let s := modQueue s q fun x => { x with st := 3, resetAt := s.gts }
  { s with timers := s.timers ++ [(s.gts + 65536, .resetStopTimeout (Fin.ofNat 64 q))] }

/-- RESET (R238, R403). -/
def execReset (q : Fin 64) (s : State) : Out :=
  let st := (queueAt s q.val).st
  .next (
    if ckBusy s then deferWrite s (.qcfg q.val) 2
    else if st ≠ 1 ∧ st ≠ 2 then s
    else
      let s := if st = 1 then modQueue s q.val fun x => { x with torn := oldestLaunch s q.val } else s
      stopQueue (netCancel (endDispatch s q.val) q.val) q.val)

/-- RESET_STOP_TIMEOUT (R238): 65,536 cy after the write, every task that still runs stops. -/
def execResetStopTimeout (q : Fin 64) (s : State) : Out :=
  let x := queueAt s q.val
  .next (
    if x.st ≠ 3 ∨ s.gts < x.resetAt + 65536 then s
    else (queueSeats s q.val).foldl (fun s y =>
      if y.2.2.st = .ready ∨ y.2.2.st = .parked ∨ y.2.2.retire.isSome then silentStop s y.1 y.2.1 else s) s)

/-- Whether every task of a queue has stopped. -/
def allStopped (s : State) (q : Nat) : Bool :=
  (queueSeats s q).all fun x => (decide (x.2.2.st = .stopped) || decide (x.2.2.st = .swapping)) && x.2.2.retire.isNone

/-- The memory cause of a tier (R265); an error in a scratchpad has none there and keeps its own (log 30). -/
def memCause (tier : Nat) : Nat :=
  if tier = 2 then Cause.memUeHbm else if tier = 3 ∨ tier = 5 then Cause.memUeLpddr
  else if tier = 4 then Cause.memUeCxl else Cause.spadUe

/-- RESET_COMPLETE (R238, R265): when every task has stopped and settled, the writes of the capable launches are rolled back and the
others reported; the seats are free, the signals are released in error, and one record is written.  A queue that is killed restores
and reports nothing here, and its record carries the memory cause. -/
def execResetComplete (q : Fin 64) (s : State) : Out :=
  .next (
    let x := queueAt s q.val
    if x.st ≠ 3 ∨ !allStopped s q.val then s
    else
      let s := dropWork s fun w => decide (taskQueue w = q.val)
      if !workSettled s q.val (fun _ => true) then s
      else
        let s := if x.killed.isSome then s else
          x.launches.foldl (fun s l =>
            if l.cap then s
            else (launchSeats s q.val l.lseq).foldl (fun s y => postTask s y.2.2.task y.2.2.tco y.1 y.2.1 Cause.resetUnrec none 0 0) s)
            (restoreLogs s q.val ((x.launches.filter (·.cap)).map (·.lseq)))
        let s := dropSwapped (freeLaunchSeats s q.val fun _ => true) q.val fun _ => true
        let s := sigErrors s q.val
        if !sigsErr s q.val then s
        else match x.killed with
          | some (lseq, tier, _) =>
            let t := tallyOf s q.val (lseq, true)
            queueEnds (putCompletion s q.val (memCause tier) lseq t.1 t.2) q.val
          | none =>
            let t := tallyOf s q.val x.torn
            purgeTags (queueEnds (putCompletion s q.val Cause.qReset x.torn.1 t.1 t.2) q.val) q.val)

/-! ### Rollback -/

/-- Stop the tasks of a launch (R263 step 1). -/
def stopLaunch (s : State) (q lseq : Nat) : State :=
  (launchSeats s q lseq).foldl (fun s x =>
    match x.2.2.st with
    | .ready => silentStop s x.1 x.2.1
    | .parked => silentStop s x.1 x.2.1
    | _ => if x.2.2.retire.isSome then silentStop s x.1 x.2.1 else s) s

/-- Cancel the network records of a launch. -/
def cancelLaunchNet (s : State) (q lseq : Nat) : State :=
  ((s.netRecs.filter fun r => decide (r.queue = q) && decide (taskLseq r.task = lseq) && decide (r.ends = 0)).map (·.key)).foldl
    cancelRec s

/-- A launch that has been rolled back: it waits at the head of its queue as if it had not been dispatched (R263, R264). -/
def requeued (go : Bool) (l : Launch) : Launch :=
  { l with disp := 0, comp := 0, bad := 0, codes := 0, sigWait := 0, sigHeld := 0, rolls := l.rolls + 1, cap := true, waitGo := !go, stall := false }

/-- Roll a settled launch back (R263 steps 3 to 6, R264). -/
def rollBack (s : State) (q : Nat) (l : Launch) (tier addr : Nat) : State :=
  let s := restoreLogs s q [l.lseq]
  let s := dropSwapped (freeLaunchSeats s q fun x => decide (x = l.lseq)) q fun x => decide (x = l.lseq)
  let s := postQueue s q l.lseq Cause.rollbackDone none (wordOf (addr / 64 * 64)) (wordOf tier)
  let s := modLaunch s q l.lseq (requeued (bitAt (mreg s (.qrbk q)) 1))
  modQueue s q fun x => { x with struck := x.struck.filter fun y => y.1 ≠ l.lseq }

/-- Kill a queue (R265): the other tasks stop as RESET stops them. -/
def killQueue (s : State) (q : Nat) (l : Launch) (tier addr : Nat) : State :=
  let s := postQueue s q l.lseq Cause.rollbackUnrec (some (memCause tier)) (wordOf (addr / 64 * 64)) (wordOf tier)
  stopQueue (modQueue (endDispatch s q) q fun x => { x with struck := [], killed := some (l.lseq, tier, addr) }) q

/-- ROLLBACK (R263 to R265): the struck launch stops, settles, and is rolled back, or its queue is killed. -/
def execRollback (q : Fin 64) (tier addr : Nat) (s : State) : Out :=
  .next (
    let x := queueAt s q.val
    match x.struck.find? fun y => decide (y.2.1 = tier) && decide (y.2.2 = addr) with
    | none => s
    | some y =>
      let drop := modQueue s q.val fun x => { x with struck := x.struck.filter fun z => z ≠ y }
      match launchAt s q.val y.1 with
      | none => drop
      | some l =>
        if x.st = 0 ∨ x.st = 3 then drop
        else
          let s := cancelLaunchNet (stopLaunch s q.val l.lseq) q.val l.lseq
          let s := dropWork s fun w => decide (taskQueue w = q.val) && decide (taskLseq w = l.lseq)
          if !(l.cap && decide (l.rolls < bits (mreg s (.qrbk q.val)) 7 4)) then killQueue s q.val l tier addr
          else if !workSettled s q.val (fun z => decide (z = l.lseq)) then
            { s with timers := s.timers ++ [(s.gts + 1, .rollback q tier addr)] }
          else rollBack s q.val l tier addr)

/-- QRBK_GO (R264): launches of the queue that wait after a rollback are released. -/
def execQrbkGo (q : Fin 64) (s : State) : Out :=
  .next (modQueue s q.val fun x => { x with launches := x.launches.map fun l => { l with waitGo := false } })

end Sys2Proof.Machine
end

