-- ==== Sys2Proof/Machine/System.lean ====
section
/-!
DEFINITION. The control complex's package-wide operations: boot (R409 to R412), measurement and attestation (R413), the tamper alarm
(R414), power states (R415), the checkpoint (R416) and package reset (R6).
-/
namespace Sys2Proof.Machine

open Sys2Proof

/-! ### Bytes and words -/

/-- A little-endian number of the flash. -/
def flashNat (s : State) (off n : Nat) : Nat := leNat (cellsAt s.flash off n)

/-- The bytes of a digest, lowest first. -/
def digestBytes (d : BitVec 256) : List Byte := natBytes 32 d.toNat

/-- The words of a string of bytes; a last part of a word is filled with zeros. -/
def padWords (bs : List Byte) : List Word := wordsOf (bs ++ natBytes 7 0)

/-- Set the words of a register that is an array (R417). -/
def setWords (r : Nat → MReg) : Nat → List Word → State → State
  | _, [], s => s
  | k, w :: t, s => setWords r (k + 1) t (setMreg s (r k) w)

/-- The bytes of words k to k + n − 1 of an array register. -/
def regBytes (s : State) (r : Nat → MReg) (k n : Nat) : List Byte := bytesOf ((countUp k n).map fun i => mreg s (r i))

/-- Measurement register `n` (R410, R413). -/
def mrBytes (s : State) (n : Nat) : List Byte := regBytes s .mr (4 * n) 4

/-- Set measurement register `n`. -/
def setMr (s : State) (n : Nat) (d : BitVec 256) : State := setWords .mr (4 * n) (wordsOf (digestBytes d)) s

/-- A text as bytes. -/
def textBytes (l : List Nat) : List Byte := l.map (BitVec.ofNat 8)

/-! ### Boot -/

/-- The bytes of a manifest up to its signer, by its place in the flash (Table 22-2). -/
def maniLen (s : State) (m : Nat) : Nat := 32 + 48 * flashNat s (m + 12) 4

/-- Whether a manifest is accepted (R410 step 2). -/
def maniOk (s : State) (m : Nat) : Bool :=
  let n := maniLen s m
  let signer := cellsAt s.flash (m + n) 1312
  let sig := cellsAt s.flash (m + n + 1312) 2420
  decide (flashNat s m 8 = 0x4D46535453340001) && decide (1 ≤ flashNat s (m + 12) 4) && decide (flashNat s (m + 12) 4 ≤ 15) &&
  decide (Config.sha3_256 signer = Config.rootDigest) &&
  Config.mlDsaVerify signer (digestBytes (Config.sha3_256 (cellsAt s.flash m (n + 1312)))) sig &&
  decide (s.svnc ≤ flashNat s (m + 8) 4)

/-- Load the images of a manifest into tier 5 and check their digests (R410 step 3); the answer says whether all agree. -/
def loadImages (m : Nat) : List Nat → State → State × Bool
  | [], s => (s, true)
  | i :: t, s =>
    let e := m + 32 + 48 * i
    let bs := cellsAt s.flash (flashNat s e 8) (Config.imageLength (cellsAt s.flash e 48))
    let s := unitWrite s 5 (flashNat s (e + 8) 8) bs
    if digestBytes (Config.sha3_256 bs) = cellsAt s.flash (e + 16) 32 then loadImages m t s else (s, false)

/-- Whether the configuration record at a place of the flash is accepted (R411); its HBMEN names all four stacks or none. -/
def configOk (s : State) (c len : Nat) : Bool :=
  let signer := cellsAt s.flash (c + 48) 1312
  decide (3780 ≤ len) && decide (flashNat s c 8 = 0x4346475253340001) && decide (flashNat s (c + 8) 1 < 16) &&
  (decide (flashNat s (c + 9) 1 = 0) || decide (flashNat s (c + 9) 1 = 15)) && decide (flashNat s (c + 10) 1 < 4) &&
  decide (flashNat s (c + 11) 1 = 0) &&
  Config.mlDsaVerify signer (digestBytes (Config.sha3_256 (cellsAt s.flash c 1360))) (cellsAt s.flash (c + 1360) 2420) &&
  (decide (s.owndig = 0) || decide (Config.sha3_256 signer = s.owndig))

/-- PWST after a change of the power states: two bits per unit (Table 22-4). -/
def showPower (s : State) : State :=
  let die := fun (d : Nat) => if !s.dieEn.getLsbD d then 2 else (dieAt s d).power
  modMreg s .pwst fun w => setBits w 15 0 ((pack [(die 0, 0), (die 1, 2), (die 2, 4), (die 3, 6), (s.hbmPower, 8)]).toNat)

/-- A boot that has failed (R410): every die, stack and port stays powered down, and the ROM halts; B shows that manifest B was the one used, also
when both have failed (DESIGN CHOICE, log 27). -/
def bootFail (s : State) (b tamp : Bool) (code : Nat) : State :=
  let s := (countUp 0 32).foldl (fun s p => modMreg s (.pst p) fun w => setBits w 2 0 0) s
  let s := (countUp 0 4).foldl (fun s p => modMreg s (.npst p) fun w => setBits w 0 0 0) s
  showPower (setMreg { s with dieEn := 0, hbmEn := false, hbmPower := 2, boot := .halted } .bootst
    (pack [(if tamp then 1 else 0, 62), (if b then 1 else 0, 61), (code, 0)]))

/-- Derive the sealing and attestation keys (R412). -/
def deriveKeys (s : State) : State :=
  let ep := natBytes 4 s.epoch.toNat
  let secret := digestBytes Config.deviceSecret
  let sk := Config.sha3_256 (secret ++ ep ++ mrBytes s 0 ++ textBytes [0x73, 0x65, 0x61, 0x6C])
  let seed := Config.sha3_256 (secret ++ ep ++ mrBytes s 0 ++ mrBytes s 1 ++ textBytes [0x61, 0x74, 0x74, 0x65, 0x73, 0x74])
  setWords .atpub 0 (padWords (Config.mlDsaPublic (digestBytes seed))) { s with sealKey := sk, attSeed := seed, keysUp := true }

/-- Apply an accepted configuration record, and release the harts at the tier 5 offset of image 0 (R410 steps 5 to 7, R411). -/
def applyConfig (s : State) (m c len : Nat) (b tamp : Bool) : State :=
  let owner : BitVec 256 := BitVec.ofNat 256 (flashNat s (c + 16) 32)
  let svn := flashNat s (m + 8) 4
  let al : W32 := BitVec.ofNat 32 (flashNat s (c + 12) 4)
  let s := { s with owndig := owner, svnc := max s.svnc svn, dieEn := BitVec.ofNat 4 (flashNat s (c + 8) 1),
                    hbmEn := decide (flashNat s (c + 9) 1 = 15), hbmPower := if flashNat s (c + 9) 1 = 15 then 0 else 2, alDef := al,
                    dbg := BitVec.ofNat 2 (flashNat s (c + 10) 1), boot := .run (flashNat s (m + 40) 8) }
  let s := setMr s 0 (Config.sha3_256 (cellsAt s.flash m (maniLen s m + 3732)))
  let s := setMr s 1 (Config.sha3_256 (cellsAt s.flash c len))
  let s := [2, 3, 4, 5, 6, 7].foldl (fun s n => setMr s n 0) s
  let s := setMreg s .alcfg (al.setWidth 64 &&& 0x3F)
  showPower (setMreg (deriveKeys s) .bootst (pack [(1, 63), (if tamp then 1 else 0, 62), (if b then 1 else 0, 61)]))

/-- The boot ROM runs, once after a package reset (R409 to R412). -/
def runRom (s : State) : State :=
  if s.boot ≠ .rom then s
  else
    let tamp := s.tlatch
    let s := { s with tlatch := false,
                      rpaKey := Config.sha3_256 (digestBytes Config.deviceSecret ++ textBytes [0x72, 0x70, 0x61]) }
    let b := !maniOk s 0
    let m := if b then 0x01000000 else 0
    if b && !maniOk s m then bootFail s b tamp 1
    else
      match loadImages m (List.range (flashNat s (m + 12) 4)) s with
      | (s, false) => bootFail s b tamp 2
      | (s, true) =>
        let c := flashNat s (m + 16) 8
        let len := flashNat s (m + 24) 8
        if configOk s c len then applyConfig s m c len b tamp else bootFail s b tamp 3

/-! ### Measurement and attestation -/

/-- Extend measurement register `n` (R413): only 2 to 7 can be extended. -/
def extendMr (s : State) (n : Nat) (v : BitVec 256) : State :=
  if 2 ≤ n ∧ n ≤ 7 then setMr s n (Config.sha3_256 (mrBytes s n ++ digestBytes v)) else s

/-- Whether a quote runs: ATCTL.BUSY (Table 22-5). -/
def quoteBusy (s : State) : Bool := bitAt (mreg s .atctl) 2

/-- MR_EXTEND (R413): while a quote runs, the extension waits. -/
def execMrExtend (v : BitVec 256) (s : State) : Out :=
  let n := bits (mreg s .mrsel) 2 0
  .next (if quoteBusy s then { s with pendExt := s.pendExt ++ [(n, v)] } else extendMr s n v)

/-- BUSY and ERR of ATCTL. -/
def setAtctl (s : State) (busy err : Nat) : State := setMreg s .atctl (pack [(busy, 2), (err, 1)])

/-- QUOTE (R413, R414): a write of ATCTL.GO; after a trip a quote ends at once in error. -/
def execQuote (s : State) : Out :=
  .next (
    if quoteBusy s then s
    else if s.tripped || !s.keysUp then setAtctl s 0 1
    else
      let msg := ((List.range 8).map (mrBytes s)).flatten ++ regBytes s .atnonce 0 4 ++ natBytes 8 (chipNo s) ++ natBytes 4 s.epoch.toNat
      setAtctl { s with quoteMsg := digestBytes (Config.sha3_256 msg) } 1 0)

/-- The extensions that waited are made (R413). -/
def applyExts : List (Nat × BitVec 256) → State → State
  | [], s => s
  | (n, v) :: t, s => applyExts t (extendMr s n v)

/-- QUOTE_COMPLETE (R413, R414). -/
def execQuoteComplete (s : State) : Out :=
  .next (
    if !quoteBusy s then s
    else
      let s := if s.tripped then setAtctl s 0 1
        else setAtctl (setWords .atsig 0 (padWords ((Config.mlDsaSign (digestBytes s.attSeed) s.quoteMsg).take 2420)) s) 0 0
      let ps := s.pendExt
      applyExts ps { s with pendExt := [], quoteMsg := [] })

/-! ### Package reset -/

/-- The package right after a reset (R6, R410): the boot flash with its replay-protected area, the memories and the pool, and the
images that checkpoints have written there outlast it (log 31); inputs still to come keep their distance in time. -/
def resetPackage (s : State) : State :=
  let r : State := { State.reset with
    flash := s.flash, svnc := s.svnc, owndig := s.owndig, epoch := s.epoch, tlatch := s.tlatch, alDef := s.alDef,
    t2 := s.t2, t3 := s.t3, t4 := s.t4, t5 := s.t5, poison := s.poison, ckptImage := s.ckptImage, fresh := s.fresh,
    agenda := s.agenda.map fun a => (a.1 - s.cyc, a.2) }
  setMreg r .alcfg (s.alDef.setWidth 64 &&& 0x3F)

/-- The write into the replay-protected area that a trip has begun is complete: TLATCH, and EPOCH counted (R414). -/
def rpaDone (s : State) : State :=
  match s.rpaWrite with
  | none => s
  | some _ => { s with tlatch := true, epoch := s.epoch + 1, rpaWrite := none }

/-- PACKAGE_RESET (R6, R414): the package is reset, and a write of the replay-protected area that runs is completed. -/
def execPackageReset (s : State) : Out := .next (resetPackage (rpaDone s))

/-- The package after a failure of its power (R6, R414): it is reset, and a write of the replay-protected area that ran and the contents of tiers
2, 3 and 5 are lost (log 27, log 31). -/
def powerFailed (s : State) : State :=
  resetPackage { s with rpaWrite := none, t2 := [], t3 := [], t5 := [], poison := s.poison.filter fun p => decide (p.1 = 4) }

/-- BOOT (R409 to R412): the boot ROM runs, once after a package reset; a cold one comes with the power, which has failed before (R414, log 31). -/
def execBoot (cold : Bool) (s : State) : Out := .next (runRom (if cold then powerFailed s else s))

/-! ### The tamper alarm -/

/-- The cycles that a write of the replay-protected area takes at most: 2 ms at 600 MHz (R4, R414). -/
abbrev rpaTime : Nat := 1200000

/-- An enabled input trips (R414): every key is gone and ATSIG is zero in the same cycle; ERASE begins the write of TLATCH and EPOCH, and RST
resets the package behind it. -/
def trip (s : State) (inputs : Nat) : State :=
  let cfg := mreg s .alcfg
  let hit := inputs % 16 &&& bits cfg 3 0
  if hit = 0 then s
  else
    let s := modMreg s .alst fun w => w ||| wordOf hit
    let s := { s with alNew := (s.cyc, if s.alNew.1 = s.cyc then s.alNew.2 ||| hit else hit) }
    let s := { s with sealKey := 0, attSeed := 0, rpaKey := 0, keysUp := false, tripped := true }
    let s := setWords .atsig 0 ((countUp 0 303).map fun _ => 0) s
    if bitAt cfg 4 then
      { s with rpaWrite := some (bitAt cfg 5 || s.rpaWrite = some true),
               timers := if s.rpaWrite.isSome then s.timers else s.timers ++ [(s.gts + rpaTime, .tamperTrip 0)] }
    else if bitAt cfg 5 then resetPackage s else s

/-- The alarm's write of the replay-protected area ends: the reset that ALCFG asks for follows (R414). -/
def tripDone (s : State) : State :=
  match s.rpaWrite with
  | some true => resetPackage (rpaDone s)
  | _ => rpaDone s

/-- TAMPER_TRIP (R414): inputs 0 to 3 are the enclosure, the voltage, the clock and the temperature.  With none of them it is the alarm's own
going on: its write of the replay-protected area ends, at the latest after 2 ms (log 27). -/
def execTamperTrip (inputs : BitVec 4) (s : State) : Out := .next (if inputs = 0 then tripDone s else trip s inputs.toNat)

/-! ### Power -/

/-- Whether a command to take a unit out of D0 is refused (R415). -/
def powerRefused (s : State) (u : Nat) : Bool :=
  if u < 4 then
    (allSeats s).any (fun x => decide (x.1 / 96 = u)) ||
    (countUp 0 96).any (fun c => (countUp 0 32).any fun i =>
      bitAt (grantWord s (96 * u + c) i 0) 63 && bitAt (grantWord s (96 * u + c) i 0) 62) ||
    (s.netRecs.any fun r => decide (r.core / 96 = u) && (netNamed s r).any fun e => e.v && decide (e.tier = 0)) ||
    decide (kvLive s u ≠ 0)
  else s.streams.any (fun x => decide (x.2.st ≠ 0)) || !(allSeats s).isEmpty

/-- The present state of a unit. -/
def powerOf (s : State) (u : Nat) : Nat :=
  if u < 4 then (if s.dieEn.getLsbD u then (dieAt s u).power else 2) else s.hbmPower

/-- A non-zero code the spec does not state (log 4). -/
def openCode (s : State) : Nat × State :=
  let x := drawWord s
  (if x.1.toNat % 256 = 0 then 1 else x.1.toNat % 256, x.2)

/-- A write of PWCTL (R415, Table 22-5): a refused command is reported in PWST.CODE; an accepted one takes its time. -/
def powerWrite (s : State) (v : Word) : State :=
  if bitAt v 0 && ckBusy s then deferWrite s .pwctl v else
  let busy := s.powerBusy.isSome
  let u := bits v 7 5
  let st := bits v 4 3
  let s := setMreg s .pwctl (pack [(u, 5), (st, 3), (if busy then 1 else 0, 1)])
  if busy || !bitAt v 0 || decide (5 ≤ u) || decide (st = 3) then s
  else
    let off := decide (u < 4) && !s.dieEn.getLsbD u || decide (u = 4) && !s.hbmEn
    if (decide (st ≠ 0) && powerRefused s u) || (decide (st ≠ 2) && off) then
      let x := openCode s
      modMreg x.2 .pwst fun w => setBits w 63 56 x.1
    else
      let s := modMreg (modMreg s .pwst fun w => setBits w 63 56 0) .pwctl fun w => setBits w 1 1 1
      let wait := if st = 0 then (if powerOf s u = 2 then [(s.gts + 2 ^ 20, Instr.powerTransitionDone)]
        else [(s.gts + 2 ^ 12, Instr.powerTransitionDone)]) else []
      { s with powerBusy := some (u, st), timers := s.timers ++ wait }

/-- POWER_TRANSITION (R415): a write of PWCTL. -/
def execPowerTransition (v : Word) (s : State) : Out := .next (powerWrite s v)

/-- What a die that is powered off loses: scratchpads and tables, its engines' included (R415). -/
def loseDie (s : State) (d : Nat) : State :=
  let s := { s with cores := s.cores.filter fun c => decide (c.1 / 96 ≠ d) }
  let s := modDie s d fun x => { power := x.power, temp := x.temp, hot := x.hot }
  (countUp (96 * d * 64) (96 * 64)).foldl (fun s k => setMreg s (.grant k) 0) s

/-- POWER_TRANSITION_DONE (R415). -/
def execPowerTransitionDone (s : State) : Out :=
  .next (match s.powerBusy with
    | none => s
    | some (u, st) =>
      let s := { s with powerBusy := none, timers := s.timers.filter fun t => t.2 ≠ .powerTransitionDone }
      let s := modMreg s .pwctl fun w => setBits w 1 1 0
      if u < 4 then
        let s := if st = 2 then loseDie s u else s
        showPower (modDie s u fun x => { x with power := st })
      else
        let s := if st = 2 then { s with t2 := [], poison := s.poison.filter fun p => p.1 ≠ 2 } else s
        showPower { s with hbmPower := st })

/-- DIE_THERMAL_LIMIT (R414, R415): a die's temperature is measured: above TLIM its cores take the limit THLIM, above TTRIP the alarm
trips. -/
def execDieThermalLimit (d : Fin 4) (temp : BitVec 16) (s : State) : Out :=
  let s := modDie s d.val fun x => { x with temp := temp.toNat, hot := decide (bits (mreg s .tlim) 15 0 < temp.toNat) }
  .next (if bits (mreg s .ttrip) 15 0 < temp.toNat then trip s 8 else s)

/-! ### The checkpoint -/

/-- Start a checkpoint (R416 steps 1 and 2): the package is gated, tasks stop at their next yield or when the time is up, parked ones
at once, and streams stop as TIER stop stops them. -/
def ckptStart (s : State) : State :=
  let s := { s with ckpt := some (0, s.gts), ckOff := bits (mreg s .ckctl) 60 16 * 2 ^ 16, timers := s.timers ++ [(s.gts + 65536, .checkpointQuiesceTimeout)] }
  let s := setMreg (modMreg s .ckctl fun w => setBits w 1 1 1) .ckstat 0
  let s := (countUp 0 16).foldl (fun s t => if (strAt s t).st = 1 then endStream (stopStream s t Cause.tierStopped 0) t else s) s
  (allSeats s).foldl (fun s x =>
    match x.2.2.st with
    | .parked => silentStop s x.1 x.2.1
    | .ready =>
      if x.2.2.retire.isSome then s
      else if x.2.2.wait.isSome && !inFreeze (coreAt s x.1) x.2.1 then silentStop s x.1 x.2.1
      else modSeat s x.1 x.2.1 fun t => { t with stopReq := some 1 }
    | _ => s) s

/-- CHECKPOINT_QUIESCE_TIMEOUT (R416): 65,536 cy after GO, every task that still runs stops. -/
def execCheckpointQuiesceTimeout (s : State) : Out :=
  .next (match s.ckpt with
    | some (0, g) =>
      if s.gts < g + 65536 then s
      else (allSeats s).foldl (fun s x => if x.2.2.st = .ready ∨ x.2.2.st = .parked then silentStop s x.1 x.2.1 else s) s
    | _ => s)

/-- What an image holds of a core (R416): its scratchpad, its seats, its claimed state. -/
def ckptCore (k : Core) : Core :=
  { spad := k.spad, spadUe := k.spadUe, seats := k.seats.filter fun t => decide (t.2.st ≠ .empty), tile := k.tile, tg := k.tg,
    acc := k.acc, w0 := k.w0, w1 := k.w1, sw0 := k.sw0, sw1 := k.sw1, tag0 := k.tag0, tag1 := k.tag1, sa := k.sa, d := k.d,
    seqr := k.seqr, accNo := k.accNo, ch := k.ch.map fun x => (x.1, { pred := x.2.pred, fin := x.2.fin }) }

/-- The 64 KiB chunks of an image that meet an uncorrectable error: of the HBM4 stage, of dirty tier 3 units, of scratchpads. -/
def ckptBad (s : State) : List (Nat × Nat) :=
  ((s.poison.filter fun p => decide (p.1 = 2) || (decide (p.1 = 3) && tget false s.dirty (p.2 / 1024))).map fun p => (p.1, p.2 / 1024)).eraseDups ++
  ((s.cores.map fun c => c.2.spadUe.map fun p => (100 + c.1, p / 65536)).flatten).eraseDups

/-- The bytes of tier 3 units that are dirty. -/
def dirtyUnits (s : State) : List (Nat × List Host.Cell) :=
  (s.dirty.filter fun d => d.2).map fun d => (d.1, s.t3.filter fun x => decide (x.1 / 65536 = d.1))

/-- The dirty tier 3 units: what CKDIRTY reads (R416). -/
def ckDirty (s : State) : Nat := (s.dirty.filter fun d => d.2).length

/-- Write a checkpoint's image and end it (R416 steps 3 to 5): its index and data are in a layout the spec does not give, so that the
bytes in the pool are free values (log 4). -/
def ckptWrite (s : State) : State :=
  let s := commitAll (fun _ => true) s
  let off := s.ckOff
  let bad := ckptBad s
  let units := dirtyUnits s
  let x := drawWord s
  let y := drawBytes x.2 (x.1.toNat % 2 ^ 40)
  let s := memStrong y.2 4 off y.1
  let img : CkptImage :=
    { off := off, bytes := y.1, t2 := s.t2, units := units,
      poison := s.poison.filter fun p => decide (p.1 = 2) || (decide (p.1 = 3) && tget false s.dirty (p.2 / 1024)),
      cores := (s.cores.map fun c => (c.1, ckptCore c.2)).filter fun c => c.2 ≠ {} }
  let s := { s with ckptImage := s.ckptImage.filter (fun i => i.off ≠ off) ++ [img], dirty := [], ckpt := some (2, s.gts),
                    timers := s.timers.filter fun t => t.2 ≠ .checkpointQuiesceTimeout }
  setMreg (modMreg s .ckctl fun w => setBits w 1 1 0) .ckstat (pack [(1, 63), (bad.length % 2 ^ 31, 32)])

/-- Whether every seat has stopped and is quiet (R416 step 2). -/
def ckptQuiet (s : State) : Bool :=
  (allSeats s).all fun x => decide (x.2.2.st = .stopped) && x.2.2.retire.isNone && quiet s x.1 x.2.1

/-- End the gate of a checkpoint (R416 step 5): each task that it stopped resumes at its RADDR, with the run its seat's RUNV gives
(R241). -/
def ckptResume (s : State) : State :=
  match s.ckpt with
  | some (2, _) =>
    (allSeats s).foldl (fun s x =>
      if x.2.2.st = .stopped ∧ x.2.2.stop = none ∧ x.2.2.retire.isNone then
        modCore (resumeSeat s x.1 x.2.1 x.2.2.pc (runV s x.1 x.2.1)) x.1 fun k => refill k x.2.1
      else s) { s with ckpt := none }
  | _ => s

/-- Put a core's checkpointed state back. -/
def restoreCore (s : State) (c : Nat) (x : Core) : State :=
  modCore s c fun k =>
    { k with spad := x.spad, spadUe := x.spadUe, seats := x.seats, tile := x.tile, tg := x.tg, acc := x.acc, w0 := x.w0, w1 := x.w1,
             sw0 := x.sw0, sw1 := x.sw1, tag0 := x.tag0, tag1 := x.tag1, sa := x.sa, d := x.d,
             seqr := x.seqr.map fun q => { q with run := false }, accNo := max k.accNo x.accNo,
             ch := x.ch.foldl (fun t y => tmod {} y.1 (fun ch => { ch with pred := y.2.pred, fin := y.2.fin }) t) k.ch }

/-- RESTORE (R416): with every queue stopped, the image at the named place is read back when its bytes are as they were written; the
package then waits for RESUME.  A failed check is reported in CKSTAT.CODE. -/
def ckptRestore (s : State) : State :=
  if s.queues.any fun q => decide (q.2.st ≠ 0) then s
  else
    let off := bits (mreg s .ckctl) 60 16 * 2 ^ 16
    let bad := fun (s : State) => let x := openCode s; setMreg x.2 .ckstat (pack [(x.1, 0)])
    match s.ckptImage.find? fun i => decide (i.off = off) with
    | none => bad s
    | some i =>
      if (countUp off i.bytes.length).map (obsByte s none 4) ≠ i.bytes ∨ (firstPoison s 4 (unitsOf off i.bytes.length)).isSome then bad s
      else
        let s := { s with t2 := i.t2, poison := s.poison.filter (fun (p : Nat × Nat) => decide (p.1 ≠ 2) && !(decide (p.1 = 3) &&
                     i.units.any fun u => decide (u.1 = p.2 / 1024))) ++ i.poison }
        let s := i.units.foldl (fun s u =>
          { s with t3 := cellsPutAll u.2 (s.t3.filter fun x => decide (x.1 / 65536 ≠ u.1)), dirty := markDirty s.dirty [u.1] }) s
        let s := i.cores.foldl (fun s c => restoreCore s c.1 c.2)
          { s with cores := s.cores.map fun (c : Nat × Core) => (c.1, { c.2 with spad := [], spadUe := [] }) }
        setMreg { s with ckpt := some (2, s.gts) } .ckstat (pack [(1, 63)])

/-- A write of CKCTL (R416, Table 22-5). -/
def ckctlWrite (s : State) (v : Word) : State :=
  if bitAt v 0 && ckBusy s then deferWrite s .ckctl v else
  let s := setMreg s .ckctl (pack [(bits v 60 16, 16), (bits v 3 2, 2), (if ckBusy s then 1 else 0, 1)])
  if !bitAt v 0 then s
  else match bits v 3 2 with
    | 0 => ckptStart s
    | 1 => ckptResume s
    | 2 => ckptRestore s
    | _ => s

/-- CHECKPOINT (R416): a write of CKCTL with OP 0. -/
def execCheckpoint (v : Word) (s : State) : Out := .next (if bits v 3 2 = 0 then ckctlWrite s v else s)

/-- CHECKPOINT_RESUME (R416): OP RESUME. -/
def execCheckpointResume (s : State) : Out := .next (ckctlWrite s (setBits (setBits (mreg s .ckctl) 3 2 1) 0 0 1))

/-- RESTORE (R416): a write of CKCTL with OP 2. -/
def execRestore (v : Word) (s : State) : Out := .next (if bits v 3 2 = 2 then ckctlWrite s v else s)

end Sys2Proof.Machine
end

