-- ==== Sys2Proof/Machine/Mgmt.lean ====
section
/-!
DEFINITION. Management space (R5, R6, R408, R417): which bits of each register a write sets, the operations that writes start, what a
register reads as, and the end of a checkpoint, which lets the writes it held back take effect (R416).
-/
namespace Sys2Proof.Machine

open Sys2Proof

/-! ### The fields of the registers -/

/-- A mask of bits hi..lo. -/
def maskBits (hi lo : Nat) : Word := wordOf ((2 ^ (hi + 1 - lo) - 1) * 2 ^ lo)

/-- Whether a register of this number exists. -/
def regExists : MReg → Bool
  | .qcfg q | .qring q | .qcring q | .qfring q | .qrsv q | .qcons q | .qcseq q | .qfseq q | .qfhead q | .qflost q | .qrbk q =>
    decide (q < 64)
  | .sctl k | .spc k | .ssave k => decide (k < 1536)
  | .wlbase d | .wlsize d | .kvpfmt d | .kvpool d | .kvht d | .kvmap d | .kvsum d | .kvjrn d | .kvtree d => decide (d < 4)
  | .pwl c | .cinj c => decide (c < 384)
  | .grant k => decide (k < 24576)
  | .mcast k => decide (k < 256)
  | .rt k => decide (k < 1024)
  | .pst p => decide (p < 32)
  | .hbmst k => decide (k < 128)
  | .lpst k => decide (k < 48)
  | .cxldec k => decide (k < 48)
  | .tpcfg t | .tpl t | .gqcfg t | .gqarea t | .gdrop t | .ntq t => decide (t < 16)
  | .kvqt k => decide (k < 64)
  | .nept k => decide (k < 4096)
  | .nrgn k => decide (k < 1024)
  | .nbnd k => decide (k < 32)
  | .npst p => decide (p < 4)
  | .collgrp k => decide (k < 262144)
  | .mr k => decide (k < 32)
  | .mrext k | .atnonce k => decide (k < 4)
  | .atsig k => decide (k < 303)
  | .atpub k => decide (k < 164)
  | .ttbase | .xrbase | .xrlen | .xrctl | .fabcfg | .hbmhot | .hbmcool | .cxlto | .cerate | .ingbase | .wrctl | .wrstat | .netcfg
  | .bootst | .mrsel | .atctl | .alcfg | .alst | .pwctl | .pwst | .tlim | .thlim | .ttrip | .ckctl | .ckstat | .ckdirty => true

/-- The bits of a register that a write sets (the rw fields of the register tables).  The registers of the gatherer and the region table
keep their reserved bits, because R355 and Table 21-3 say what they do; they read as zero (`hiddenBits`).  Bits of a field below the multiple
that its value must be are not kept (DESIGN CHOICE, log 40). -/
def regMask : MReg → Word
  | .qcfg _ => maskBits 63 41 ||| maskBits 35 32
  | .qring _ | .qcring _ | .qfring _ => maskBits 63 61 ||| maskBits 39 6
  | .qrsv _ => maskBits 63 0
  | .qfhead _ => maskBits 31 0
  | .qrbk _ => maskBits 7 4 ||| maskBits 1 1
  | .sctl _ => maskBits 39 16
  | .spc _ => maskBits 23 0
  | .ssave _ => maskBits 63 61 ||| maskBits 45 0
  | .ttbase => maskBits 63 61 ||| maskBits 45 0
  | .xrbase | .xrlen => maskBits 63 0
  | .wlbase _ | .wlsize _ => maskBits 63 16
  | .pwl _ => maskBits 15 0
  | .cinj _ => maskBits 63 0
  | .grant k => if k % 2 = 0 then maskBits 63 63 ||| maskBits 61 0 else maskBits 63 63 ||| maskBits 44 0
  | .mcast k => if k % 4 = 0 then maskBits 63 48 ||| maskBits 39 0 else if k % 4 = 3 then maskBits 35 0 else maskBits 59 0
  | .rt _ => maskBits 63 55 ||| maskBits 39 0
  | .fabcfg => maskBits 63 0
  | .hbmhot | .hbmcool | .tlim | .thlim | .ttrip => maskBits 15 0
  | .cxlto | .cerate | .kvtree _ => maskBits 31 0
  | .ingbase => maskBits 45 12
  | .cxldec k => if k % 3 = 0 then maskBits 45 28 else if k % 3 = 1 then maskBits 46 28 else maskBits 10 0
  | .tpcfg _ => maskBits 63 8
  | .gqcfg _ | .gqarea _ | .nrgn _ | .netcfg => maskBits 63 0
  | .kvpool _ => maskBits 63 16
  | .kvht _ => maskBits 63 61 ||| maskBits 58 16
  | .kvmap _ | .kvsum _ => maskBits 63 61 ||| maskBits 39 16
  | .kvjrn _ => maskBits 63 61 ||| maskBits 59 16
  | .kvqt _ => maskBits 63 24
  | .nept k => if k % 4 = 0 then maskBits 63 41 ||| maskBits 23 0 else if k % 4 = 1 then maskBits 15 0 else maskBits 63 0
  | .nbnd k => if k % 2 = 0 then maskBits 63 40 else maskBits 63 0
  | .ntq _ => maskBits 63 24
  | .collgrp _ => maskBits 63 63 ||| maskBits 9 0
  | .mrsel => maskBits 2 0
  | .mrext _ | .atnonce _ => maskBits 63 0
  | .alcfg => maskBits 5 0
  | .qcons _ | .qcseq _ | .qfseq _ | .qflost _ | .xrctl | .pst _ | .hbmst _ | .lpst _ | .tpl _ | .wrctl | .wrstat | .gdrop _ | .kvpfmt _
  | .npst _ | .bootst | .mr _ | .atsig _ | .atpub _ | .atctl | .alst | .pwctl | .pwst | .ckctl | .ckstat | .ckdirty => 0

/-- The bits of a register that read as zero though the register holds them (R5). -/
def hiddenBits : MReg → Word
  | .gqcfg _ => maskBits 0 0
  | .gqarea _ => maskBits 51 46
  | .nrgn k => if k % 4 = 0 then maskBits 33 16 else maskBits 63 40
  | _ => 0

/-- A register after a write of its rw fields. -/
def putFields (s : State) (r : MReg) (v : Word) : State :=
  modMreg s r fun w => (w &&& ~~~ regMask r) ||| (v &&& regMask r)

/-! ### The operations a write starts -/

/-- The state a step goes on in. -/
def nextOf (s : State) (o : Out) : State := match o with | .next t => t | _ => s

/-- A write of CMD to QCFG (R237, R238); it waits while a checkpoint runs (R416). -/
def qcfgCmd (s : State) (q : Nat) (v : Word) : State :=
  match bits v 7 0 with
  | 1 => nextOf s (execTeardown (Fin.ofNat 64 q) s)
  | 2 => nextOf s (execReset (Fin.ofNat 64 q) s)
  | 3 => nextOf s (execRestart (Fin.ofNat 64 q) s)
  | _ => s

/-- A write of CMD to SCTL (R247, R248, R249). -/
def sctlCmd (s : State) (k : Nat) (v : Word) : State :=
  let c : CoreId := Fin.ofNat 384 (k / 4)
  let n : Fin 4 := Fin.ofNat 4 k
  match bits v 7 0 with
  | 1 => nextOf s (execResume c n s)
  | 2 => nextOf s (execResumeAtSpc c n s)
  | 3 => nextOf s (execStop c n s)
  | 4 => nextOf s (execSwapout c n s)
  | 5 => nextOf s (execKill c n s)
  | _ => s

/-- The inputs of ALST that the hardware has set in this cycle, which a clear of the same cycle does not reach (R6). -/
def tripsNow (s : State) : Nat := if s.alNew.1 = s.cyc then s.alNew.2 else 0

/-- Whether requests of this package that go to another one are not yet answered. -/
def fabricBusy (s : State) : Bool :=
  s.cores.any (fun c => c.2.sent.any fun x => decide (x.msg.dchip ≠ chipNo s)) || s.engSent.any fun x => decide (x.msg.dchip ≠ chipNo s)

/-- A write of the registers that part the fabric: CHIP, EN and PEN of FABCFG and the router table; FAB_PARTITION is posted when it changes
them while requests are in flight (R246, log 28), and requests held on a pin to which it leaves no path fail (R298). -/
def fabricWrite (s : State) (r : MReg) (v : Word) : State :=
  let t := putFields s r v
  let part := fun (w : Word) => if r = .fabcfg then w &&& (maskBits 63 53 ||| maskBits 31 0) else w
  pathLost (if fabricBusy s && decide (part (mreg t r) ≠ part (mreg s r)) then postMgmt t Cause.fabPartition 0 else t)

/-- A write of a management register (R5, R6, R408). -/
def mgmtWrite (s : State) (r : MReg) (v : Word) : State :=
  if !regExists r then s
  else match r with
    | .qcfg q => qcfgCmd (putFields s r v) q v
    | .qrsv q => setQrsv s q v
    | .qrbk q => let s := putFields s r v; if bitAt v 0 then nextOf s (execQrbkGo (Fin.ofNat 64 q) s) else s
    | .sctl k => sctlCmd (putFields s r v) k v
    | .xrctl => xrctlWrite s v
    | .wrctl => nextOf s (execWeightReplace v s)
    | .kvpfmt d => nextOf s (execKvpfmtWrite (Fin.ofNat 4 d) v s)
    | .ntq _ => syncNtq (putFields s r v)
    | .kvqt k => syncKvqt (putFields s (.kvqt k) v) (k / 16)
    | .mrext k =>
      let s := putFields s r v
      if k = 3 then nextOf s (execMrExtend (BitVec.ofNat 256 (leNat (regBytes s .mrext 0 4))) s) else s
    | .atctl => if bitAt v 0 then nextOf s (execQuote s) else s
    | .alst => modMreg s .alst fun w => w &&& ~~~ (v &&& 0xF &&& ~~~ wordOf (tripsNow s))
    | .pwctl => powerWrite s v
    | .ckctl => ckctlWrite s v
    | .fabcfg => fabricWrite s r v
    | .rt d => fabricWrite s (.rt d) v
    | _ => putFields s r v

/-- MGMT_REGISTER_WRITE (R408, R417). -/
def execMgmtRegisterWrite (r : MReg) (v : Word) (s : State) : Out := .next (mgmtWrite s r v)

/-! ### The end of a checkpoint -/

/-- A write that a checkpoint held back takes effect (R416): of QCFG only its CMD was held. -/
def replayWrite (s : State) (x : MReg × Word) : State :=
  match x.1 with
  | .qcfg q => qcfgCmd s q x.2
  | r => mgmtWrite s r x.2

/-- Writes held back take effect in the order in which they were written; one that starts an operation holds back those behind it. -/
def replayWrites (s : State) : State :=
  let ws := s.ckptWait
  ws.foldl replayWrite { s with ckptWait := [] }

/-- CHECKPOINT_DONE (R416 steps 3 to 5): when every seat is quiet the image is written, BUSY clears and DONE is set. -/
def execCheckpointDone (s : State) : Out :=
  .next (match s.ckpt with
    | some (0, _) => if ckptQuiet s then replayWrites (ckptWrite s) else s
    | _ => s)

/-! ### What a register reads as -/

/-- The value a hart reads from a register (Table 0-3): fields with access wo read as zero, and STATE, CKDIRTY and the pace lateness
show the machine. -/
def mgmtRead (s : State) (r : MReg) : Word :=
  match r with
  | .qcfg q => setBits (mreg s r) 9 8 (queueAt s q).st
  | .sctl k =>
    let t := seatAt s (k / 4) (k % 4)
    setBits (mreg s r) 10 8 (match t.st with | .empty => 0 | .ready => 1 | .parked => 2 | .stopped => 3 | .swapping => 4)
  | .tpl t => wordOf (strAt s t).pl
  | .ckdirty => wordOf (ckDirty s)
  | .mrext _ => 0
  | _ => mreg s r &&& ~~~ hiddenBits r

end Sys2Proof.Machine
end

