-- ==== Sys2Proof/Machine/Rotator.lean ====
section
/-!
DEFINITION. The Q class (R51 to R56, R175 to R184): angle words, the cells of the triangle, the sequenced instructions and their
rows (ROTATOR_ROW), and moving and clearing d registers.
-/
namespace Sys2Proof.Machine

open Sys2Proof

/-! ### Cells -/

/-- A value scaled by 2^−i, exactly. -/
def fvScale (i : Nat) : FV → FV
  | .fin n m e => .fin n m (e - i)
  | v => v

/-- A pair of a cell with the flags raised so far. -/
structure Cell where
  x : FV
  y : FV
  fl : Flags
  deriving DecidableEq, Repr

/-- RNER of a step, with its flags (R51). -/
def rner (r : FV × Flags) : FV × Flags := thenRound fmtRot r

/-- Micro-rotation `i` with direction `neg` (R53). -/
def micro (i : Nat) (neg : Bool) (p : Cell) : Cell :=
  let a := if neg then rner (fvSub p.x (fvScale i p.y)) else rner (fvAdd p.x (fvScale i p.y))
  let b := if neg then rner (fvAdd p.y (fvScale i p.x)) else rner (fvSub p.y (fvScale i p.x))
  ⟨a.1, b.1, p.fl ||| a.2 ||| b.2⟩

/-- PRE of an angle word: 0 none, 1 +90°, 2 −90°, 3 skip (Table 2-8). -/
def wordPre (w : W32) : Nat := w.toNat / 2 ^ 30
/-- The count of micro-rotations. -/
def wordN (w : W32) : Nat := w.toNat % 32
/-- Whether a word is skip. -/
def wordSkip (w : W32) : Bool := decide (wordPre w = 3)
/-- Whether a word raises ROT_ANGLE when it is applied (R52). -/
def wordBad (w : W32) : Bool := !wordSkip w && decide (25 < wordN w)
/-- The skip word. -/
def skipWord : W32 := 0xC0000000

/-- Step 1 of R53. -/
def preTurn (pre : Nat) (p : Cell) : Cell :=
  if pre = 1 then ⟨p.y.negate, p.x, p.fl⟩ else if pre = 2 then ⟨p.y, p.x.negate, p.fl⟩ else p

/-- Micro-rotations `i`, `i + 1`, … of a word, `n` of them. -/
def micros (w : W32) : Nat → Nat → Cell → Cell
  | 0, _, p => p
  | n + 1, i, p => micros w n (i + 1) (micro i (w.getLsbD (5 + i)) p)

/-- Steps 1 and 2 of R53; skip changes nothing. -/
def applyWord (w : W32) (p : Cell) : Cell :=
  if wordSkip w then p else micros w (wordN w) 0 (preTurn (wordPre w) p)

/-- Step 3 of R53 on one value. -/
def gainStep (n : Nat) (v : FV) : FV × Flags := rner (fvMul v (kc n))

/-- Step 3 of R53 on a pair. -/
def gainPair (n : Nat) (p : Cell) : Cell :=
  let a := gainStep n p.x
  let b := gainStep n p.y
  ⟨a.1, b.1, p.fl ||| a.2 ||| b.2⟩

/-- Whether a value is above zero; NaN is not (R54, R55). -/
def fvPos (v : FV) : Bool := !v.isZero && !v.isNan && !v.neg?

/-- The vectoring loop of R54: the directions taken so far as bits, and their count. -/
def vectorLoop : Nat → Nat → Nat → Cell → Nat × Nat × Cell
  | 0, n, sg, p => (n, sg, p)
  | f + 1, n, sg, p =>
    if p.y.isZero then (n, sg, p)
    else
      let neg := !fvPos p.y
      vectorLoop f (n + 1) (if neg then sg + 2 ^ n else sg) (micro n neg p)

/-- A boundary cell (R54) without its last line: the word it makes, and the pair. -/
def vectorCell (p : Cell) : W32 × Cell :=
  if p.x.isNan || p.x.isInf || p.y.isNan || p.y.isInf then (skipWord, ⟨.qnan, p.y, p.fl ||| fNV⟩)
  else if p.y.isZero then (skipWord, p)
  else
    let pre := if fvPos p.x then 0 else if fvPos p.y then 2 else 1
    let r := vectorLoop 25 0 0 (preTurn pre p)
    (BitVec.ofNat 32 (pre * 2 ^ 30 + r.2.1 * 2 ^ 5 + r.1), r.2.2)

/-! ### Rows of the triangle -/

/-- The word index of element (i, j), i ≤ j, of a d register (R22). -/
def dIdx (i j : Nat) : Nat := 32 * i - i * (i - 1) / 2 + (j - i)

/-- A word of a d register. -/
def dWord (k : Core) (r i : Nat) : W32 := tget 0 k.d (560 * r + i)

/-- What a row of QRF or QAPP comes to: words of d to write, the angle words, the outputs, flags, and whether a word
raised ROT_ANGLE. -/
structure RotOut where
  d : List (Nat × W32) := []
  words : List W32 := []
  out : List FV := []
  fl : Flags := 0
  bad : Bool := false
  deriving DecidableEq, Repr

/-- The values of a row divided by a gain (R178). -/
def divRow (g : FV) : List FV → List FV × Flags
  | [] => ([], 0)
  | y :: t =>
    let a := divTo fmtRot y g
    let b := rner a
    let r := divRow g t
    (b.1 :: r.1, b.2 ||| r.2)

/-- The values of a row multiplied by a gain (R178). -/
def mulRow (g : FV) : List FV → List FV × Flags
  | [] => ([], 0)
  | y :: t =>
    let b := rner (fvMul y g)
    let r := mulRow g t
    (b.1 :: r.1, b.2 ||| r.2)

/-- Triangle row `j` and those below it (R178): `w` gives the recorded word of a row for QAPP, none for QRF.  After a word that raises
ROT_ANGLE the rest of the tile row is carried through with that word as skip, and the flags of those steps enter FLG with the others, although
the row writes nothing (DEDUCED, log 20). -/
def triRows (k : Core) (r : Nat) (deferred : Bool) (w : Nat → Option W32) : Nat → Nat → List FV → RotOut → RotOut
  | 0, _, _, o => o
  | f + 1, j, y, o =>
    let g := dWord k r (528 + j)
    let s := divRow (val32 g) y
    let cells := (countUp j (32 - j)).zip s.1 |>.map fun p => (⟨val32 (dWord k r (dIdx j p.1)), p.2, 0⟩ : Cell)
    match cells with
    | [] => o
    | c :: rest =>
      let v := match w j with
        | some x => (x, if wordBad x then c else applyWord x c)
        | none => vectorCell c
      let bad := wordBad v.1
      let skip := wordSkip v.1 || bad
      let n := wordN v.1
      let rest := if skip then rest else rest.map (applyWord v.1)
      let head := if skip || deferred then v.2
        else match w j with
          | some _ => gainPair n v.2
          | none => let a := gainStep n v.2.x; { v.2 with x := a.1, fl := v.2.fl ||| a.2 }
      let rest := if skip || deferred then rest else rest.map (gainPair n)
      let gn := if skip || !deferred then (g, (0 : Flags)) else
        (let a := rne32 (fvMul (val32 g) (kc n)).1; (a.1, a.2 ||| (fvMul (val32 g) (kc n)).2))
      let all := head :: rest
      let m := mulRow (val32 gn.1) (all.map (·.y))
      let xs := all.map fun p => rne32 p.x
      let o := { o with
        d := o.d ++ ((countUp (dIdx j j) (32 - j)).zip (xs.map (·.1))) ++ (if gn.1 = g then [] else [(528 + j, gn.1)]),
        words := o.words ++ [v.1], out := o.out ++ [m.1.headD .zero], bad := o.bad || bad,
        fl := o.fl ||| s.2 ||| orFlags (all.map (·.fl)) ||| gn.2 ||| m.2 ||| orFlags (xs.map (·.2)) }
      triRows k r deferred w f (j + 1) m.1.tail o

/-! ### QROT and QSOLV -/

/-- The directions of an angle (R55): the residual angle, the count, the bits. -/
def angleLoop : Nat → Nat → Nat → W32 → Flags → Nat × Nat × Flags
  | 0, n, sg, _, fl => (n, sg, fl)
  | f + 1, n, sg, z, fl =>
    if (val32 z).isZero then (n, sg, fl)
    else
      let at_ : W32 := BitVec.ofNat 32 (lget 0 atTable n)
      let pos := fvPos (val32 z)
      let r := if pos then sub32 z at_ else add32 z at_
      angleLoop f (n + 1) (if pos then sg + 2 ^ n else sg) r.1 (fl ||| r.2)

/-- The word of an FP32 angle (R55). -/
def angleWord (t : W32) : W32 × Flags :=
  let v := val32 t
  if v.isNan || decide (fvCmp v.abs (val32 0x40490FDB) = .gt) then (skipWord, fNV)
  else
    let r : Nat × (W32 × Flags) :=
      if fvCmp v (val32 0x3FC90FDB) = .gt then (1, sub32 t 0x3FC90FDB)
      else if fvCmp v (val32 0xBFC90FDB) = .lt then (2, add32 t 0x3FC90FDB)
      else (0, (t, 0))
    let q := angleLoop 25 0 0 r.2.1 r.2.2
    (BitVec.ofNat 32 (r.1 * 2 ^ 30 + q.2.1 * 2 ^ 5 + q.1), q.2.2)

/-- QROT on the values of a row from pair `j` on (R181). -/
def rotPairs (wd : Bool) (raw : List W32) : Nat → Nat → List FV → RotOut → RotOut
  | 0, _, vs, o => { o with out := o.out ++ vs }
  | f + 1, j, vs, o =>
    match vs with
    | x :: y :: t =>
      let a := lget 0 raw (32 + j)
      let w := if wd then (a, (0 : Flags)) else angleWord a
      let bad := wordBad w.1
      let p : Cell := ⟨x, y, 0⟩
      let p := if wordSkip w.1 || bad then p else gainPair (wordN w.1) (applyWord w.1 p)
      rotPairs wd raw f (j + 1) (p.y :: t)
        { o with out := o.out ++ [p.x], fl := o.fl ||| w.2 ||| p.fl, bad := o.bad || bad }
    | _ => { o with out := o.out ++ vs }

/-- An element of the scaled triangle (R182). -/
def scaledD (k : Core) (r i j : Nat) : W32 × Flags := mul32 (dWord k r (dIdx i j)) (dWord k r (528 + i))

/-- The subtractions of one row of QSOLV: `zs` are z[k], z[k+1], … up to z[top]. -/
def solveSum (k : Core) (r i : Nat) : Nat → List W32 → W32 × Flags → W32 × Flags
  | _, [], s => s
  | j, z :: t, s =>
    let a := scaledD k r i j
    let m := mul32 a.1 z
    let d := sub32 s.1 m.1
    solveSum k r i (j + 1) t (d.1, s.2 ||| a.2 ||| m.2 ||| d.2)

/-- Back-substitution from row `i` down to row 0 (R182): `i + 1` rows are left, `zs` are the unknowns found. -/
def solveRows (k : Core) (r : Nat) (aug : Bool) (b : List W32) : Nat → List W32 → Flags → List W32 × Flags
  | 0, zs, fl => (zs, fl)
  | i + 1, zs, fl =>
    let s0 := if aug then scaledD k r i 31 else (lget 0 b i, 0)
    let s := solveSum k r i (i + 1) zs s0
    let t := scaledD k r i i
    let z := div32 s.1 t.1
    solveRows k r aug b i (z.1 :: zs) (fl ||| s.2 ||| t.2 ||| z.2)

/-! ### Sequenced rows -/

/-- Write words of a tile row from column `j` on. -/
def seqPut (k : Core) (t r j : Nat) (ws : List W32) : Core :=
  let c := bits (tget 0 k.tg t) 15 8
  tilePut k t (((countUp j ws.length).zip ws).filter (fun p => decide (p.1 < c)) |>.map fun p =>
    (countUp ((r * c + p.1) * 4) 4).zip (natBytes 4 p.2.toNat)).flatten

/-- Write listed words of a d register. -/
def dPut (r : Nat) : List (Nat × W32) → Tbl W32 → Tbl W32
  | [], d => d
  | (i, w) :: t, d => dPut r t (tset 0 (560 * r + i) w d)

/-- What a row of the sequenced instruction does (R178 to R182): the core after it, its flags, and whether a word raised
ROT_ANGLE. -/
def seqStep (k : Core) (q : Seqr) (row : List W32) : Core × Flags × Bool :=
  let r := q.row0 + q.next
  let ys := (row.take 32).map val32
  if q.op = 0 then
    let o := triRows k q.dr (q.opt % 2 = 1) (fun _ => none) 32 0 ys {}
    let k' := { k with d := dPut q.dr o.d k.d }
    (if q.opt / 2 % 2 = 1 then seqPut k' q.tile r 32 o.words else k', o.fl, false)
  else if q.op = 1 then
    let o := triRows k q.dr (q.opt % 2 = 1) (fun j => some (lget 0 row (32 + j))) 32 0 ys {}
    let out := o.out.map rne32
    (seqPut { k with d := dPut q.dr o.d k.d } q.tile r 0 (out.map (·.1)), o.fl ||| orFlags (out.map (·.2)), o.bad)
  else if q.op = 2 then
    let o := rotPairs (q.opt / 4 % 2 = 1) row 31 0 ys {}
    let out := o.out.map rne32
    (seqPut k q.tile r 0 (out.map (·.1)), o.fl ||| orFlags (out.map (·.2)), o.bad)
  else
    let aug := q.opt / 8 % 2 = 1
    let z := solveRows k q.dr aug row (if aug then 31 else 32) [] 0
    let n := scaledD k q.dr 31 31
    (seqPut k q.tile r 0 (z.1 ++ (if aug then [n.1 &&& 0x7FFFFFFF] else [])), z.2 ||| (if aug then n.2 else 0), false)

/-- The sequencer after a row: free after its last row, or when its place has gone (R176); else it reads the next row at once, or when a
resumption's refill is over (R175, R176). -/
def seqNext (k : Core) (q : Seqr) : Core :=
  if q.rows ≤ q.next ∨ q.drop then { k with seqr := none }
  else { k with seqr := some { q with row := none, due := max k.ct q.fill } }

/-- ROTATOR_ROW (R175, R176): the row in progress completes; the next tile row is read with the results of this cycle (RESULT_LAND).  A
row that traps writes nothing and stays the next row; its flags and its trap follow with the core's other results. -/
def execRotatorRow (c : CoreId) (s : State) : Out :=
  let k := coreAt s c.val
  match k.seqr with
  | none => .next s
  | some q =>
    match q.row with
    | none => .next s
    | some row =>
      if k.ct < q.due then .next s
      else
        let r := seqStep k q row
        let e : Eff := { due := k.ct, seat := q.seat, sw := k.sw, grp := q.grp, slot := 24, land := if r.2.2 then .angle else .fo [],
                         flags := r.2.1, en := q.en, info1 := wordOf (q.row0 + q.next), iss := q.iss, dead := false }
        if e.traps then
          .next (setCore s c.val { seqNext k { q with run := false, fill := 0 } with effs := k.effs ++ [e] })
        else
          let k := if r.2.1 = 0 then r.1 else { r.1 with effs := r.1.effs ++ [e] }
          .next (setCore s c.val (seqNext k { q with next := q.next + 1 }))

/-- Start a sequenced instruction (R175, R177): `minc` is the least number of columns. -/
def seqVia (op dr : Nat) (t : Fin 8) (r n : BitVec 8) (opt minc : Nat) (s : State) : Out :=
  .next (if !(cs s).hasQ then addCause s 2 Cause.claimAbsent 24 0 0
    else shapeVia s 24 t.val fun h s =>
      if h.2.2 ≠ 4 then addCause s 2 Cause.arrayMode 24 0 0
      else if h.1 < r.toNat + n.toNat ∨ h.2.1 < minc then
        addCause s 2 Cause.tileBound 24 (wordOf (r.toNat * (h.2.1 * 4))) (wordOf t.val)
      else onCore s fun k =>
        let q : Seqr := { op := op, dr := dr, tile := t.val, row0 := r.toNat, rows := n.toNat, opt := opt, next := 0,
                          due := k.ct + 64, row := none, seat := cn s, grp := k.grp.addr, en := trapEnables (cs s).fpc,
                          run := true, iss := k.ct }
        { k with seqr := some q })

/-- The bit of an option. -/
def optBit (b : Bool) (i : Nat) : Nat := if b then 2 ^ i else 0

/-- QRF (R177 to R179). -/
def execQrf (d : Fin 4) (t : Fin 8) (r n : BitVec 8) (w g : Bool) (s : State) : Out :=
  seqVia 0 d.val t r n (optBit g 0 + optBit w 1) (if w then 64 else 1) s

/-- QAPP (R178, R180). -/
def execQapp (d : Fin 4) (t : Fin 8) (r n : BitVec 8) (g : Bool) (s : State) : Out := seqVia 1 d.val t r n (optBit g 0) 64 s

/-- QROT (R181). -/
def execQrot (t : Fin 8) (r n : BitVec 8) (w : Bool) (s : State) : Out := seqVia 2 0 t r n (optBit w 2) 64 s

/-- QSOLV (R182). -/
def execQsolv (d : Fin 4) (t : Fin 8) (r n : BitVec 8) (a : Bool) (s : State) : Out := seqVia 3 d.val t r n (optBit a 3) 32 s

/-! ### Moving and clearing d registers -/

/-- The 32-bit words of a byte string. -/
def words32 : List Byte → List W32
  | a :: b :: c :: d :: t => BitVec.ofNat 32 (leNat [a, b, c, d]) :: words32 t
  | _ => []

/-- The words of a d register in the packed order of R22. -/
def dImage (k : Core) (r : Nat) : List W32 := (countUp 0 560).map (dWord k r)

/-- The row that word `i` of the packed image belongs to. -/
def dRowOf (i : Nat) : Nat → Nat → Nat
  | 0, j => j
  | f + 1, j => if i < dIdx (j + 1) (j + 1) then j else dRowOf i f (j + 1)

/-- The image with its gains applied, and the flags of the products (R183). -/
def dScaled (k : Core) (r : Nat) : List W32 × Flags :=
  let l := (countUp 0 528).map fun i => mul32 (dWord k r i) (dWord k r (528 + dRowOf i 31 0))
  (l.map (·.1) ++ (countUp 0 32).map (fun _ => one32), orFlags (l.map (·.2)))

/-- Q syllables that are not sequenced check the rotator claim first (R183, R184). -/
def rotVia (s : State) (f : State → State) : State :=
  if (cs s).hasQ then f s else addCause s 2 Cause.claimAbsent 24 0 0

/-- QGET (R183). -/
def execQget (d : Fin 4) (e : BitVec 4) (b : SSrc) (nb ga : Bool) (s : State) : Out :=
  .next (withSrcs s 24 [b] fun v s => rotVia s fun s =>
    spadAccess s 24 e.toNat false true 64 (v b).toNat 2240 fun ps s =>
      let r := if ga then dScaled (cc s) d.val else (dImage (cc s) d.val, 0)
      let s := emitF s 24 8 (.store (ps.zip (r.1.map fun w => natBytes 4 w.toNat).flatten)) r.2
      if nb then emitF s 24 8 (.dreg d.val r.1) r.2 else s)

/-- QPUT (R183). -/
def execQput (d : Fin 4) (e : BitVec 4) (b : SSrc) (s : State) : Out :=
  .next (withSrcs s 24 [b] fun v s => rotVia s fun s =>
    spadAccess s 24 e.toNat true false 64 (v b).toNat 2240 fun ps s =>
      emit s 24 8 (.dreg d.val (words32 (spadGet (cc s) ps))))

/-- QCLR (R184). -/
def execQclr (d : Fin 4) (s : State) : Out :=
  .next (rotVia s fun s => emit s 24 1
    (.dreg d.val ((countUp 0 528).map (fun _ => 0) ++ (countUp 0 32).map fun _ => one32)))

end Sys2Proof.Machine
end

