-- ==== Sys2Proof/Machine/Scalar.lean ====
section
/-!
DEFINITION. The S class (R76 to R86): integer and address arithmetic, constants, bit fields, and the control registers.
-/
namespace Sys2Proof.Machine

open Sys2Proof

/-! ### What the S class computes -/

/-- 1 for true, 0 for false. -/
def wordB (b : Bool) : Word := if b then 1 else 0

/-- The sign extension of an immediate (R80). -/
def immS (i : BitVec 13) : Word := i.signExtend 64

/-- The shift count of B[5:0] (R79). -/
def shAmt (b : Word) : Nat := b.toNat % 64

/-- MULH: the high half of the signed product (R79, R81). -/
def mulhVal (a b : Word) : Word := BitVec.ofInt 64 ((a.toInt * b.toInt) / (2 ^ 64 : Nat))

/-- MULHN: the high half of the unsigned product (R79, R81). -/
def mulhnVal (a b : Word) : Word := BitVec.ofNat 64 (a.toNat * b.toNat / 2 ^ 64)

/-- The most negative 64-bit integer. -/
def minInt : Word := 0x8000000000000000

/-- DIV (R81). -/
def divVal (a b : Word) : Word :=
  if b = 0 then BitVec.allOnes 64
  else if a = minInt ∧ b = BitVec.allOnes 64 then a
  else BitVec.ofInt 64 (Int.tdiv a.toInt b.toInt)

/-- DIVN (R81). -/
def divnVal (a b : Word) : Word := if b = 0 then BitVec.allOnes 64 else BitVec.ofNat 64 (a.toNat / b.toNat)

/-- REM (R81). -/
def remVal (a b : Word) : Word :=
  if b = 0 then a
  else if a = minInt ∧ b = BitVec.allOnes 64 then 0
  else BitVec.ofInt 64 (a.toInt - b.toInt * Int.tdiv a.toInt b.toInt)

/-- REMN (R81). -/
def remnVal (a b : Word) : Word := if b = 0 then a else BitVec.ofNat 64 (a.toNat % b.toNat)

/-- The leading zero bits of a number of `n` bits. -/
def clzNat : Nat → Nat → Nat
  | 0, _ => 0
  | n + 1, v => if v.testBit n then 0 else 1 + clzNat n v

/-- The one bits among the low `n` bits of a number. -/
def popNat : Nat → Nat → Nat
  | 0, _ => 0
  | n + 1, v => (if v.testBit n then 1 else 0) + popNat n v

/-- BFX: bits pos+L-1..pos, zero-extended (R82). -/
def bfxVal (a : Word) (pos len : Nat) : Word := BitVec.ofNat 64 (a.toNat / 2 ^ pos % 2 ^ len)

/-- BFI: the old value with bits pos+L-1..pos replaced (R82). -/
def bfiVal (old a : Word) (pos len : Nat) : Word :=
  BitVec.ofNat 64 (old.toNat - old.toNat / 2 ^ pos % 2 ^ len * 2 ^ pos + a.toNat % 2 ^ len * 2 ^ pos)

/-! ### Forms -/

/-- A syllable of two sources with latency 1. -/
def sBin (u : SSlot) (d : SDst) (a b : SSrc) (f : Word → Word → Word) (s : State) : Out :=
  .next (withSrcs s (sSlot u) [a, b] fun v s => sendS s (sSlot u) 1 d (f (v a) (v b)))

/-- A syllable of two sources with a native and a compatibility latency (Tables 3-4, 3-12). -/
def sBinL (u : SSlot) (d : SDst) (a b : SSrc) (ln lc : Nat) (f : Word → Word → Word) (s : State) : Out :=
  .next (withSrcs s (sSlot u) [a, b] fun v s =>
    let r := compat s ln lc
    sendS r.2 (sSlot u) r.1 d (f (v a) (v b)))

/-- A syllable of one source with latency 1. -/
def sUn (u : SSlot) (d : SDst) (a : SSrc) (f : Word → Word) (s : State) : Out :=
  .next (withSrcs s (sSlot u) [a] fun v s => sendS s (sSlot u) 1 d (f (v a)))

/-! ### Meanings -/

/-- ADD (R79). -/
def execAdd (u : SSlot) (d : SDst) (a b : SSrc) (s : State) : Out := sBin u d a b (· + ·) s

/-- ADDI (R79, R80). -/
def execAddi (u : SSlot) (d : SDst) (a : SSrc) (i : BitVec 13) (s : State) : Out := sUn u d a (· + immS i) s

/-- SUB (R79). -/
def execSub (u : SSlot) (d : SDst) (a b : SSrc) (s : State) : Out := sBin u d a b (· - ·) s

/-- MUL (R79, R81). -/
def execMul (u : SSlot) (d : SDst) (a b : SSrc) (s : State) : Out := sBinL u d a b 3 2 (· * ·) s

/-- MULI (R79, R80). -/
def execMuli (u : SSlot) (d : SDst) (a : SSrc) (i : BitVec 13) (s : State) : Out :=
  .next (withSrcs s (sSlot u) [a] fun v s =>
    let r := compat s 3 2
    sendS r.2 (sSlot u) r.1 d (v a * immS i))

/-- MULH (R79, R81). -/
def execMulh (u : SSlot) (d : SDst) (a b : SSrc) (s : State) : Out := sBinL u d a b 3 2 mulhVal s

/-- MULHN (R79, R81). -/
def execMulhn (u : SSlot) (d : SDst) (a b : SSrc) (s : State) : Out := sBinL u d a b 3 2 mulhnVal s

/-- DIV (R81). -/
def execDiv (u : SSlot) (d : SDst) (a b : SSrc) (s : State) : Out := sBinL u d a b 18 20 divVal s

/-- DIVN (R81). -/
def execDivn (u : SSlot) (d : SDst) (a b : SSrc) (s : State) : Out := sBinL u d a b 18 20 divnVal s

/-- REM (R81). -/
def execRem (u : SSlot) (d : SDst) (a b : SSrc) (s : State) : Out := sBinL u d a b 18 20 remVal s

/-- REMN (R81). -/
def execRemn (u : SSlot) (d : SDst) (a b : SSrc) (s : State) : Out := sBinL u d a b 18 20 remnVal s

/-- AND (R79). -/
def execAnd (u : SSlot) (d : SDst) (a b : SSrc) (s : State) : Out := sBin u d a b (· &&& ·) s

/-- ANDI (R79, R80). -/
def execAndi (u : SSlot) (d : SDst) (a : SSrc) (i : BitVec 13) (s : State) : Out := sUn u d a (· &&& immS i) s

/-- OR (R79). -/
def execOr (u : SSlot) (d : SDst) (a b : SSrc) (s : State) : Out := sBin u d a b (· ||| ·) s

/-- ORI (R79, R80). -/
def execOri (u : SSlot) (d : SDst) (a : SSrc) (i : BitVec 13) (s : State) : Out := sUn u d a (· ||| immS i) s

/-- XOR (R79). -/
def execXor (u : SSlot) (d : SDst) (a b : SSrc) (s : State) : Out := sBin u d a b (· ^^^ ·) s

/-- XORI (R79, R80). -/
def execXori (u : SSlot) (d : SDst) (a : SSrc) (i : BitVec 13) (s : State) : Out := sUn u d a (· ^^^ immS i) s

/-- ANDN (R79). -/
def execAndn (u : SSlot) (d : SDst) (a b : SSrc) (s : State) : Out := sBin u d a b (fun x y => x &&& ~~~ y) s

/-- SHL (R79). -/
def execShl (u : SSlot) (d : SDst) (a b : SSrc) (s : State) : Out := sBin u d a b (fun x y => x <<< shAmt y) s

/-- SHLI (R79, R80). -/
def execShli (u : SSlot) (d : SDst) (a : SSrc) (i : BitVec 13) (s : State) : Out := sUn u d a (· <<< i.toNat) s

/-- SHR (R79). -/
def execShr (u : SSlot) (d : SDst) (a b : SSrc) (s : State) : Out := sBin u d a b (fun x y => x >>> shAmt y) s

/-- SHRI (R79, R80). -/
def execShri (u : SSlot) (d : SDst) (a : SSrc) (i : BitVec 13) (s : State) : Out := sUn u d a (· >>> i.toNat) s

/-- SRA (R79). -/
def execSra (u : SSlot) (d : SDst) (a b : SSrc) (s : State) : Out := sBin u d a b (fun x y => x.sshiftRight (shAmt y)) s

/-- SRAI (R79, R80). -/
def execSrai (u : SSlot) (d : SDst) (a : SSrc) (i : BitVec 13) (s : State) : Out := sUn u d a (·.sshiftRight i.toNat) s

/-- SEQ (R79). -/
def execSeq (u : SSlot) (d : SDst) (a b : SSrc) (s : State) : Out := sBin u d a b (fun x y => wordB (decide (x = y))) s

/-- SLT (R79). -/
def execSlt (u : SSlot) (d : SDst) (a b : SSrc) (s : State) : Out := sBin u d a b (fun x y => wordB (x.slt y)) s

/-- SLTI (R79, R80). -/
def execSlti (u : SSlot) (d : SDst) (a : SSrc) (i : BitVec 13) (s : State) : Out :=
  sUn u d a (fun x => wordB (x.slt (immS i))) s

/-- SLTN (R79). -/
def execSltn (u : SSlot) (d : SDst) (a b : SSrc) (s : State) : Out := sBin u d a b (fun x y => wordB (x.ult y)) s

/-- MIN (R79). -/
def execMin (u : SSlot) (d : SDst) (a b : SSrc) (s : State) : Out := sBin u d a b (fun x y => if x.slt y then x else y) s

/-- MAX (R79). -/
def execMax (u : SSlot) (d : SDst) (a b : SSrc) (s : State) : Out := sBin u d a b (fun x y => if x.slt y then y else x) s

/-- MAXI (R79, R80). -/
def execMaxi (u : SSlot) (d : SDst) (a : SSrc) (i : BitVec 13) (s : State) : Out :=
  sUn u d a (fun x => if x.slt (immS i) then immS i else x) s

/-- SEL (R79). -/
def execSel (u : SSlot) (d : SDst) (a b c : SSrc) (s : State) : Out :=
  .next (withSrcs s (sSlot u) [a, b, c] fun v s => sendS s (sSlot u) 1 d (if v c ≠ 0 then v a else v b))

/-- MOVI (R83). -/
def execMovi (u : SSlot) (d : SDst) (i : BitVec 19) (s : State) : Out := .next (sendS s (sSlot u) 1 d (i.signExtend 64))

/-- MOVHI (R83). -/
def execMovhi (u : SSlot) (d : RDst) (i : BitVec 19) (s : State) : Out :=
  .next (sendTo s (sSlot u) 1 (rdstTo d) ((rdstVal (cs s) d <<< 19) ||| i.setWidth 64))

/-- CLZ (R79). -/
def execClz (u : SSlot) (d : SDst) (a : SSrc) (s : State) : Out := sUn u d a (fun x => wordOf (clzNat 64 x.toNat)) s

/-- POPC (R79). -/
def execPopc (u : SSlot) (d : SDst) (a : SSrc) (s : State) : Out := sUn u d a (fun x => wordOf (popNat 64 x.toNat)) s

/-- BFX (R82). -/
def execBfx (u : SSlot) (d : SDst) (a : SSrc) (pos len : BitVec 6) (s : State) : Out :=
  sUn u d a (fun x => bfxVal x pos.toNat (bfLen len)) s

/-- BFI (R82). -/
def execBfi (u : SSlot) (d : RDst) (a : SSrc) (pos len : BitVec 6) (s : State) : Out :=
  .next (withSrcs s (sSlot u) [a] fun v s =>
    sendTo s (sSlot u) 1 (rdstTo d) (bfiVal (rdstVal (cs s) d) (v a) pos.toNat (bfLen len)))

/-- ADDSC (R79). -/
def execAddsc (u : SSlot) (d : SDst) (a b : SSrc) (sh : BitVec 2) (s : State) : Out :=
  sBin u d a b (fun x y => x + (y <<< sh.toNat)) s

/-- GETC (R84). -/
def execGetc (u : SSlot) (d : SDst) (c : BitVec 12) (s : State) : Out :=
  .next (sendS s (sSlot u) 2 d (ctlRead s s.cur (cn s) c.toNat))

/-- Whether a tile geometry is legal (R20); reserved bits are ignored (R85). -/
def tgLegal (v : Word) : Bool :=
  let rows := bits v 7 0
  let cols := bits v 15 8
  let ew := bits v 17 16
  (decide (rows = 0) && decide (cols = 0)) ||
  (decide (1 ≤ rows) && decide (rows ≤ 192) && decide (1 ≤ cols) && decide (cols ≤ 192) && decide (ew ≤ 2) &&
   decide (rows * cols * 2 ^ ew ≤ 36864))

/-- SETC (R85, R86): the value lands 2 cycles later; CLAIM_ABSENT goes before CTL_VALUE, and then nothing is written. -/
def execSetc (u : SSlot) (a : SSrc) (c : BitVec 12) (s : State) : Out :=
  .next (withSrcs s (sSlot u) [a] fun v s =>
    let i := c.toNat
    let tg := decide (0x20 ≤ i) && decide (i ≤ 0x27)
    if tg && !(cs s).hasA then addCause s 2 Cause.claimAbsent (sSlot u) 0 0
    else if (tg && !tgLegal (v a)) || (decide (i = 0x40) && decide (bits (v a) 1 0 = 3)) then
      addCause s 2 ctlValue (sSlot u) 0 0
    else emit s (sSlot u) 2 (.ctl i (v a)))

end Sys2Proof.Machine
end

