-- ==== Sys2Proof/Machine/Dispatch.lean ====
section
/-!
DEFINITION. Dispatch: one arm for each constructor of the instruction set, each a direct call of its meaning.
-/
namespace Sys2Proof.Machine

open Sys2Proof

/-- What an instruction, or a step of the machine, does to a state. -/
def exec (i : Instr) (s : State) : Host.Outcome State Fault Refusal :=
  match i with
  | .add x1 x2 x3 x4 => Sys2Proof.Machine.execAdd x1 x2 x3 x4 s
  | .addi x1 x2 x3 x4 => Sys2Proof.Machine.execAddi x1 x2 x3 x4 s
  | .sub x1 x2 x3 x4 => Sys2Proof.Machine.execSub x1 x2 x3 x4 s
  | .mul x1 x2 x3 x4 => Sys2Proof.Machine.execMul x1 x2 x3 x4 s
  | .muli x1 x2 x3 x4 => Sys2Proof.Machine.execMuli x1 x2 x3 x4 s
  | .mulh x1 x2 x3 x4 => Sys2Proof.Machine.execMulh x1 x2 x3 x4 s
  | .mulhn x1 x2 x3 x4 => Sys2Proof.Machine.execMulhn x1 x2 x3 x4 s
  | .div x1 x2 x3 x4 => Sys2Proof.Machine.execDiv x1 x2 x3 x4 s
  | .divn x1 x2 x3 x4 => Sys2Proof.Machine.execDivn x1 x2 x3 x4 s
  | .rem x1 x2 x3 x4 => Sys2Proof.Machine.execRem x1 x2 x3 x4 s
  | .remn x1 x2 x3 x4 => Sys2Proof.Machine.execRemn x1 x2 x3 x4 s
  | .and x1 x2 x3 x4 => Sys2Proof.Machine.execAnd x1 x2 x3 x4 s
  | .andi x1 x2 x3 x4 => Sys2Proof.Machine.execAndi x1 x2 x3 x4 s
  | .or x1 x2 x3 x4 => Sys2Proof.Machine.execOr x1 x2 x3 x4 s
  | .ori x1 x2 x3 x4 => Sys2Proof.Machine.execOri x1 x2 x3 x4 s
  | .xor x1 x2 x3 x4 => Sys2Proof.Machine.execXor x1 x2 x3 x4 s
  | .xori x1 x2 x3 x4 => Sys2Proof.Machine.execXori x1 x2 x3 x4 s
  | .andn x1 x2 x3 x4 => Sys2Proof.Machine.execAndn x1 x2 x3 x4 s
  | .shl x1 x2 x3 x4 => Sys2Proof.Machine.execShl x1 x2 x3 x4 s
  | .shli x1 x2 x3 x4 => Sys2Proof.Machine.execShli x1 x2 x3 x4 s
  | .shr x1 x2 x3 x4 => Sys2Proof.Machine.execShr x1 x2 x3 x4 s
  | .shri x1 x2 x3 x4 => Sys2Proof.Machine.execShri x1 x2 x3 x4 s
  | .sra x1 x2 x3 x4 => Sys2Proof.Machine.execSra x1 x2 x3 x4 s
  | .srai x1 x2 x3 x4 => Sys2Proof.Machine.execSrai x1 x2 x3 x4 s
  | .seq x1 x2 x3 x4 => Sys2Proof.Machine.execSeq x1 x2 x3 x4 s
  | .slt x1 x2 x3 x4 => Sys2Proof.Machine.execSlt x1 x2 x3 x4 s
  | .slti x1 x2 x3 x4 => Sys2Proof.Machine.execSlti x1 x2 x3 x4 s
  | .sltn x1 x2 x3 x4 => Sys2Proof.Machine.execSltn x1 x2 x3 x4 s
  | .min x1 x2 x3 x4 => Sys2Proof.Machine.execMin x1 x2 x3 x4 s
  | .max x1 x2 x3 x4 => Sys2Proof.Machine.execMax x1 x2 x3 x4 s
  | .maxi x1 x2 x3 x4 => Sys2Proof.Machine.execMaxi x1 x2 x3 x4 s
  | .sel x1 x2 x3 x4 x5 => Sys2Proof.Machine.execSel x1 x2 x3 x4 x5 s
  | .movi x1 x2 x3 => Sys2Proof.Machine.execMovi x1 x2 x3 s
  | .movhi x1 x2 x3 => Sys2Proof.Machine.execMovhi x1 x2 x3 s
  | .clz x1 x2 x3 => Sys2Proof.Machine.execClz x1 x2 x3 s
  | .popc x1 x2 x3 => Sys2Proof.Machine.execPopc x1 x2 x3 s
  | .bfx x1 x2 x3 x4 x5 => Sys2Proof.Machine.execBfx x1 x2 x3 x4 x5 s
  | .bfi x1 x2 x3 x4 x5 => Sys2Proof.Machine.execBfi x1 x2 x3 x4 x5 s
  | .addsc x1 x2 x3 x4 x5 => Sys2Proof.Machine.execAddsc x1 x2 x3 x4 x5 s
  | .getc x1 x2 x3 => Sys2Proof.Machine.execGetc x1 x2 x3 s
  | .setc x1 x2 x3 => Sys2Proof.Machine.execSetc x1 x2 x3 s
  | .br x1 => Sys2Proof.Machine.execBr x1 s
  | .brc x1 x2 x3 => Sys2Proof.Machine.execBrc x1 x2 x3 s
  | .call x1 x2 => Sys2Proof.Machine.execCall x1 x2 s
  | .ret x1 => Sys2Proof.Machine.execRet x1 s
  | .jr x1 x2 x3 => Sys2Proof.Machine.execJr x1 x2 x3 s
  | .loop x1 x2 => Sys2Proof.Machine.execLoop x1 x2 s
  | .run x1 => Sys2Proof.Machine.execRun x1 s
  | .waitf x1 x2 x3 x4 => Sys2Proof.Machine.execWaitf x1 x2 x3 x4 s
  | .step x1 => Sys2Proof.Machine.execStep x1 s
  | .fence x1 x2 => Sys2Proof.Machine.execFence x1 x2 s
  | .trap x1 x2 => Sys2Proof.Machine.execTrap x1 x2 s
  | .halt x1 => Sys2Proof.Machine.execHalt x1 s
  | .ld x1 x2 x3 x4 x5 x6 => Sys2Proof.Machine.execLd x1 x2 x3 x4 x5 x6 s
  | .ldn x1 x2 x3 x4 x5 x6 => Sys2Proof.Machine.execLdn x1 x2 x3 x4 x5 x6 s
  | .st x1 x2 x3 x4 x5 x6 => Sys2Proof.Machine.execSt x1 x2 x3 x4 x5 x6 s
  | .amo x1 x2 x3 x4 x5 x6 => Sys2Proof.Machine.execAmo x1 x2 x3 x4 x5 x6 s
  | .cas x1 x2 x3 x4 x5 => Sys2Proof.Machine.execCas x1 x2 x3 x4 x5 s
  | .lkup x1 x2 x3 => Sys2Proof.Machine.execLkup x1 x2 x3 s
  | .tagset x1 x2 x3 x4 => Sys2Proof.Machine.execTagset x1 x2 x3 x4 s
  | .tagdrop x1 x2 x3 => Sys2Proof.Machine.execTagdrop x1 x2 x3 s
  | .bari x1 x2 x3 => Sys2Proof.Machine.execBari x1 x2 x3 s
  | .bara x1 x2 x3 => Sys2Proof.Machine.execBara x1 x2 x3 s
  | .barw x1 x2 => Sys2Proof.Machine.execBarw x1 x2 s
  | .barx x1 x2 x3 x4 => Sys2Proof.Machine.execBarx x1 x2 x3 x4 s
  | .acq x1 x2 x3 => Sys2Proof.Machine.execAcq x1 x2 x3 s
  | .rel x1 x2 x3 x4 => Sys2Proof.Machine.execRel x1 x2 x3 x4 s
  | .bind x1 x2 x3 x4 x5 => Sys2Proof.Machine.execBind x1 x2 x3 x4 x5 s
  | .rld x1 x2 x3 x4 x5 => Sys2Proof.Machine.execRld x1 x2 x3 x4 x5 s
  | .rst x1 x2 x3 x4 x5 x6 x7 x8 => Sys2Proof.Machine.execRst x1 x2 x3 x4 x5 x6 x7 x8 s
  | .ramo x1 x2 x3 x4 x5 x6 x7 x8 => Sys2Proof.Machine.execRamo x1 x2 x3 x4 x5 x6 x7 x8 s
  | .pinset x1 x2 x3 => Sys2Proof.Machine.execPinset x1 x2 x3 s
  | .pindrop x1 x2 => Sys2Proof.Machine.execPindrop x1 x2 s
  | .vadd x1 x2 x3 x4 x5 x6 x7 => Sys2Proof.Machine.execVadd x1 x2 x3 x4 x5 x6 x7 s
  | .vaddi x1 x2 x3 x4 x5 x6 => Sys2Proof.Machine.execVaddi x1 x2 x3 x4 x5 x6 s
  | .vsub x1 x2 x3 x4 x5 x6 x7 => Sys2Proof.Machine.execVsub x1 x2 x3 x4 x5 x6 x7 s
  | .vmul x1 x2 x3 x4 x5 x6 x7 => Sys2Proof.Machine.execVmul x1 x2 x3 x4 x5 x6 x7 s
  | .vmuli x1 x2 x3 x4 x5 x6 => Sys2Proof.Machine.execVmuli x1 x2 x3 x4 x5 x6 s
  | .vfma x1 x2 x3 x4 x5 x6 x7 => Sys2Proof.Machine.execVfma x1 x2 x3 x4 x5 x6 x7 s
  | .vmin x1 x2 x3 x4 x5 x6 => Sys2Proof.Machine.execVmin x1 x2 x3 x4 x5 x6 s
  | .vmax x1 x2 x3 x4 x5 x6 => Sys2Proof.Machine.execVmax x1 x2 x3 x4 x5 x6 s
  | .vcmp x1 x2 x3 x4 x5 x6 x7 x8 => Sys2Proof.Machine.execVcmp x1 x2 x3 x4 x5 x6 x7 x8 s
  | .vsel x1 x2 x3 x4 x5 x6 => Sys2Proof.Machine.execVsel x1 x2 x3 x4 x5 x6 s
  | .vand x1 x2 x3 x4 x5 x6 => Sys2Proof.Machine.execVand x1 x2 x3 x4 x5 x6 s
  | .vor x1 x2 x3 x4 x5 x6 => Sys2Proof.Machine.execVor x1 x2 x3 x4 x5 x6 s
  | .vxor x1 x2 x3 x4 x5 x6 => Sys2Proof.Machine.execVxor x1 x2 x3 x4 x5 x6 s
  | .vshl x1 x2 x3 x4 x5 x6 => Sys2Proof.Machine.execVshl x1 x2 x3 x4 x5 x6 s
  | .vshli x1 x2 x3 x4 x5 x6 => Sys2Proof.Machine.execVshli x1 x2 x3 x4 x5 x6 s
  | .vshr x1 x2 x3 x4 x5 x6 => Sys2Proof.Machine.execVshr x1 x2 x3 x4 x5 x6 s
  | .vshri x1 x2 x3 x4 x5 x6 => Sys2Proof.Machine.execVshri x1 x2 x3 x4 x5 x6 s
  | .vcvt x1 x2 x3 x4 x5 x6 x7 x8 => Sys2Proof.Machine.execVcvt x1 x2 x3 x4 x5 x6 x7 x8 s
  | .vrcp x1 x2 x3 x4 => Sys2Proof.Machine.execVrcp x1 x2 x3 x4 s
  | .vrsq x1 x2 x3 x4 => Sys2Proof.Machine.execVrsq x1 x2 x3 x4 s
  | .vexp2 x1 x2 x3 x4 => Sys2Proof.Machine.execVexp2 x1 x2 x3 x4 s
  | .vlog2 x1 x2 x3 x4 => Sys2Proof.Machine.execVlog2 x1 x2 x3 x4 s
  | .vwel x1 x2 x3 x4 => Sys2Proof.Machine.execVwel x1 x2 x3 x4 s
  | .vwmg x1 x2 x3 x4 => Sys2Proof.Machine.execVwmg x1 x2 x3 x4 s
  | .vred x1 x2 x3 x4 x5 x6 => Sys2Proof.Machine.execVred x1 x2 x3 x4 x5 x6 s
  | .vperm x1 x2 x3 x4 x5 => Sys2Proof.Machine.execVperm x1 x2 x3 x4 x5 s
  | .vbcst x1 x2 x3 x4 x5 => Sys2Proof.Machine.execVbcst x1 x2 x3 x4 x5 s
  | .viota x1 x2 x3 x4 x5 => Sys2Proof.Machine.execViota x1 x2 x3 x4 x5 s
  | .vpset x1 x2 x3 x4 x5 x6 => Sys2Proof.Machine.execVpset x1 x2 x3 x4 x5 x6 s
  | .vld x1 x2 x3 x4 x5 x6 => Sys2Proof.Machine.execVld x1 x2 x3 x4 x5 x6 s
  | .vst x1 x2 x3 x4 x5 x6 => Sys2Proof.Machine.execVst x1 x2 x3 x4 x5 x6 s
  | .vgth x1 x2 x3 x4 x5 x6 => Sys2Proof.Machine.execVgth x1 x2 x3 x4 x5 x6 s
  | .vsct x1 x2 x3 x4 x5 x6 => Sys2Proof.Machine.execVsct x1 x2 x3 x4 x5 x6 s
  | .xcp x1 x2 x3 x4 x5 => Sys2Proof.Machine.execXcp x1 x2 x3 x4 x5 s
  | .vmovs x1 x2 x3 => Sys2Proof.Machine.execVmovs x1 x2 x3 s
  | .vtld x1 x2 x3 x4 x5 x6 => Sys2Proof.Machine.execVtld x1 x2 x3 x4 x5 x6 s
  | .vtst x1 x2 x3 x4 x5 x6 => Sys2Proof.Machine.execVtst x1 x2 x3 x4 x5 x6 s
  | .wpush x1 x2 x3 x4 => Sys2Proof.Machine.execWpush x1 x2 x3 x4 s
  | .apush x1 x2 x3 x4 x5 => Sys2Proof.Machine.execApush x1 x2 x3 x4 x5 s
  | .acc x1 x2 x3 x4 x5 => Sys2Proof.Machine.execAcc x1 x2 x3 x4 x5 s
  | .drain x1 x2 x3 x4 => Sys2Proof.Machine.execDrain x1 x2 x3 x4 s
  | .wswap => Sys2Proof.Machine.execWswap s
  | .mclr x1 => Sys2Proof.Machine.execMclr x1 s
  | .trw x1 x2 x3 x4 x5 => Sys2Proof.Machine.execTrw x1 x2 x3 x4 x5 s
  | .tldr x1 x2 x3 x4 => Sys2Proof.Machine.execTldr x1 x2 x3 x4 s
  | .tstr x1 x2 x3 x4 => Sys2Proof.Machine.execTstr x1 x2 x3 x4 s
  | .scw x1 x2 x3 x4 => Sys2Proof.Machine.execScw x1 x2 x3 x4 s
  | .sca x1 x2 x3 x4 => Sys2Proof.Machine.execSca x1 x2 x3 x4 s
  | .qrf x1 x2 x3 x4 x5 x6 => Sys2Proof.Machine.execQrf x1 x2 x3 x4 x5 x6 s
  | .qapp x1 x2 x3 x4 x5 => Sys2Proof.Machine.execQapp x1 x2 x3 x4 x5 s
  | .qrot x1 x2 x3 x4 => Sys2Proof.Machine.execQrot x1 x2 x3 x4 s
  | .qsolv x1 x2 x3 x4 x5 => Sys2Proof.Machine.execQsolv x1 x2 x3 x4 x5 s
  | .qget x1 x2 x3 x4 x5 => Sys2Proof.Machine.execQget x1 x2 x3 x4 x5 s
  | .qput x1 x2 x3 => Sys2Proof.Machine.execQput x1 x2 x3 s
  | .qclr x1 => Sys2Proof.Machine.execQclr x1 s
  | .eset x1 x2 x3 => Sys2Proof.Machine.execEset x1 x2 x3 s
  | .eget x1 x2 x3 => Sys2Proof.Machine.execEget x1 x2 x3 s
  | .cpy x1 x2 x3 x4 x5 => Sys2Proof.Machine.execCpy x1 x2 x3 x4 x5 s
  | .cdrn x1 x2 => Sys2Proof.Machine.execCdrn x1 x2 s
  | .tierStart x1 x2 => Sys2Proof.Machine.execTierStart x1 x2 s
  | .tierAck x1 x2 x3 => Sys2Proof.Machine.execTierAck x1 x2 x3 s
  | .tierPoll x1 x2 x3 => Sys2Proof.Machine.execTierPoll x1 x2 x3 s
  | .tierStop x1 x2 => Sys2Proof.Machine.execTierStop x1 x2 s
  | .kvlk x1 x2 x3 => Sys2Proof.Machine.execKvlk x1 x2 x3 s
  | .kvap x1 x2 x3 x4 => Sys2Proof.Machine.execKvap x1 x2 x3 x4 s
  | .kvfk x1 x2 x3 => Sys2Proof.Machine.execKvfk x1 x2 x3 s
  | .kvrl x1 x2 => Sys2Proof.Machine.execKvrl x1 x2 s
  | .kvjnOpen x1 x2 => Sys2Proof.Machine.execKvjnOpen x1 x2 s
  | .kvjnCommit x1 x2 => Sys2Proof.Machine.execKvjnCommit x1 x2 s
  | .kvjnReject x1 x2 => Sys2Proof.Machine.execKvjnReject x1 x2 s
  | .topk x1 x2 x3 => Sys2Proof.Machine.execTopk x1 x2 x3 s
  | .gthrWalk x1 x2 x3 => Sys2Proof.Machine.execGthrWalk x1 x2 x3 s
  | .gthrPlan x1 x2 x3 => Sys2Proof.Machine.execGthrPlan x1 x2 x3 s
  | .gthrList x1 x2 x3 => Sys2Proof.Machine.execGthrList x1 x2 x3 s
  | .nsnd x1 x2 x3 => Sys2Proof.Machine.execNsnd x1 x2 x3 s
  | .nrcv x1 x2 x3 => Sys2Proof.Machine.execNrcv x1 x2 x3 s
  | .collSum x1 x2 x3 => Sys2Proof.Machine.execCollSum x1 x2 x3 s
  | .collMax x1 x2 x3 => Sys2Proof.Machine.execCollMax x1 x2 x3 s
  | .collGather x1 x2 x3 => Sys2Proof.Machine.execCollGather x1 x2 x3 s
  | .collScatter x1 x2 x3 => Sys2Proof.Machine.execCollScatter x1 x2 x3 s
  | .collBcast x1 x2 x3 => Sys2Proof.Machine.execCollBcast x1 x2 x3 s
  | .collBarrier x1 x2 x3 => Sys2Proof.Machine.execCollBarrier x1 x2 x3 s
  | .btake x1 x2 x3 => Sys2Proof.Machine.execBtake x1 x2 x3 s
  | .issueGroup x1 => Sys2Proof.Machine.execIssueGroup x1 s
  | .resultLand x1 => Sys2Proof.Machine.execResultLand x1 s
  | .storeCommit x1 => Sys2Proof.Machine.execStoreCommit x1 s
  | .arbiterChoice x1 => Sys2Proof.Machine.execArbiterChoice x1 s
  | .runOverrun x1 => Sys2Proof.Machine.execRunOverrun x1 s
  | .freezeLong x1 => Sys2Proof.Machine.execFreezeLong x1 s
  | .fiDeliver x1 x2 => Sys2Proof.Machine.execFiDeliver x1 x2 s
  | .requestLeaveFo x1 x2 x3 => Sys2Proof.Machine.execRequestLeaveFo x1 x2 x3 s
  | .stepComplete x1 x2 => Sys2Proof.Machine.execStepComplete x1 x2 s
  | .claimRelease x1 => Sys2Proof.Machine.execClaimRelease x1 s
  | .beatLand x1 => Sys2Proof.Machine.execBeatLand x1 s
  | .rotatorRow x1 => Sys2Proof.Machine.execRotatorRow x1 s
  | .taskCompletionSignal x1 x2 => Sys2Proof.Machine.execTaskCompletionSignal x1 x2 s
  | .channelCommandStart x1 x2 => Sys2Proof.Machine.execChannelCommandStart x1 x2 s
  | .channelRead x1 x2 x3 x4 => Sys2Proof.Machine.execChannelRead x1 x2 x3 x4 s
  | .channelWrite x1 x2 x3 => Sys2Proof.Machine.execChannelWrite x1 x2 x3 s
  | .sideLogReplay x1 x2 => Sys2Proof.Machine.execSideLogReplay x1 x2 s
  | .streamQueuePush x1 x2 => Sys2Proof.Machine.execStreamQueuePush x1 x2 s
  | .streamQueuePop x1 x2 => Sys2Proof.Machine.execStreamQueuePop x1 x2 s
  | .cpyComplete x1 x2 => Sys2Proof.Machine.execCpyComplete x1 x2 s
  | .cdrnRelease x1 => Sys2Proof.Machine.execCdrnRelease x1 s
  | .messageSend x1 x2 x3 x4 => Sys2Proof.Machine.execMessageSend x1 x2 x3 x4 s
  | .data x1 => Sys2Proof.Machine.execData x1 s
  | .red x1 => Sys2Proof.Machine.execRed x1 s
  | .crd x1 => Sys2Proof.Machine.execCrd x1 s
  | .crdr x1 => Sys2Proof.Machine.execCrdr x1 s
  | .fin x1 => Sys2Proof.Machine.execFin x1 s
  | .singleRequest x1 => Sys2Proof.Machine.execSingleRequest x1 s
  | .rep x1 => Sys2Proof.Machine.execRep x1 s
  | .ack x1 => Sys2Proof.Machine.execAck x1 s
  | .nack x1 => Sys2Proof.Machine.execNack x1 s
  | .messageResend x1 x2 x3 x4 => Sys2Proof.Machine.execMessageResend x1 x2 x3 x4 s
  | .pqry x1 => Sys2Proof.Machine.execPqry x1 s
  | .prep x1 => Sys2Proof.Machine.execPrep x1 s
  | .pdrop x1 => Sys2Proof.Machine.execPdrop x1 s
  | .pinExpire x1 => Sys2Proof.Machine.execPinExpire x1 s
  | .engd x1 => Sys2Proof.Machine.execEngd x1 s
  | .linkReplay x1 x2 => Sys2Proof.Machine.execLinkReplay x1 x2 s
  | .portRetrain x1 x2 => Sys2Proof.Machine.execPortRetrain x1 x2 s
  | .linkDown x1 => Sys2Proof.Machine.execLinkDown x1 s
  | .vcTimeout x1 x2 => Sys2Proof.Machine.execVcTimeout x1 x2 s
  | .completionCacheExpire x1 => Sys2Proof.Machine.execCompletionCacheExpire x1 s
  | .mcastAckTimeout x1 x2 x3 => Sys2Proof.Machine.execMcastAckTimeout x1 x2 x3 s
  | .kvCommandPerform x1 => Sys2Proof.Machine.execKvCommandPerform x1 s
  | .topkComplete x1 => Sys2Proof.Machine.execTopkComplete x1 s
  | .gatherCommandPerform x1 => Sys2Proof.Machine.execGatherCommandPerform x1 s
  | .collComplete x1 x2 => Sys2Proof.Machine.execCollComplete x1 x2 s
  | .collTimeout x1 => Sys2Proof.Machine.execCollTimeout x1 s
  | .demandWalk x1 x2 => Sys2Proof.Machine.execDemandWalk x1 x2 s
  | .itineraryRead x1 => Sys2Proof.Machine.execItineraryRead x1 s
  | .hopStart x1 x2 => Sys2Proof.Machine.execHopStart x1 x2 s
  | .hopLand x1 x2 x3 => Sys2Proof.Machine.execHopLand x1 x2 x3 s
  | .memberAck x1 x2 x3 => Sys2Proof.Machine.execMemberAck x1 x2 x3 s
  | .paceHalve => Sys2Proof.Machine.execPaceHalve s
  | .weightReplace x1 => Sys2Proof.Machine.execWeightReplace x1 s
  | .replaceDrainDone => Sys2Proof.Machine.execReplaceDrainDone s
  | .replaceGateTimeout => Sys2Proof.Machine.execReplaceGateTimeout s
  | .replaceCopyDone => Sys2Proof.Machine.execReplaceCopyDone s
  | .hbmThermalDrop x1 x2 => Sys2Proof.Machine.execHbmThermalDrop x1 x2 s
  | .hbmThermalRestore x1 x2 => Sys2Proof.Machine.execHbmThermalRestore x1 x2 s
  | .hbmLaneFault x1 => Sys2Proof.Machine.execHbmLaneFault x1 s
  | .tamperTrip x1 => Sys2Proof.Machine.execTamperTrip x1 s
  | .widthTransitionEnd x1 => Sys2Proof.Machine.execWidthTransitionEnd x1 s
  | .cxlTimeout x1 => Sys2Proof.Machine.execCxlTimeout x1 s
  | .cxlLinkLoss x1 => Sys2Proof.Machine.execCxlLinkLoss x1 s
  | .requestRecord x1 x2 => Sys2Proof.Machine.execRequestRecord x1 x2 s
  | .batchDeadline x1 => Sys2Proof.Machine.execBatchDeadline x1 s
  | .netRecordStart => Sys2Proof.Machine.execNetRecordStart s
  | .packetSend x1 x2 x3 => Sys2Proof.Machine.execPacketSend x1 x2 x3 s
  | .packetArrive x1 => Sys2Proof.Machine.execPacketArrive x1 s
  | .uetAck x1 => Sys2Proof.Machine.execUetAck x1 s
  | .rtoExpire x1 x2 => Sys2Proof.Machine.execRtoExpire x1 x2 s
  | .launchDeliver x1 => Sys2Proof.Machine.execLaunchDeliver x1 s
  | .pdcClose x1 => Sys2Proof.Machine.execPdcClose x1 s
  | .netPortDown x1 => Sys2Proof.Machine.execNetPortDown x1 s
  | .swapImageWrite x1 x2 => Sys2Proof.Machine.execSwapImageWrite x1 x2 s
  | .rollback x1 x2 x3 => Sys2Proof.Machine.execRollback x1 x2 x3 s
  | .faultRecordWrite x1 => Sys2Proof.Machine.execFaultRecordWrite x1 s
  | .launchRecordConsume x1 => Sys2Proof.Machine.execLaunchRecordConsume x1 s
  | .dependencyRelease x1 => Sys2Proof.Machine.execDependencyRelease x1 s
  | .dispatchDomain => Sys2Proof.Machine.execDispatchDomain s
  | .launchComplete x1 => Sys2Proof.Machine.execLaunchComplete x1 s
  | .qretry x1 => Sys2Proof.Machine.execQretry x1 s
  | .teardown x1 => Sys2Proof.Machine.execTeardown x1 s
  | .teardownRecord x1 => Sys2Proof.Machine.execTeardownRecord x1 s
  | .reset x1 => Sys2Proof.Machine.execReset x1 s
  | .resetStopTimeout x1 => Sys2Proof.Machine.execResetStopTimeout x1 s
  | .resetComplete x1 => Sys2Proof.Machine.execResetComplete x1 s
  | .restart x1 => Sys2Proof.Machine.execRestart x1 s
  | .qfheadWrite x1 x2 => Sys2Proof.Machine.execQfheadWrite x1 x2 s
  | .resume x1 x2 => Sys2Proof.Machine.execResume x1 x2 s
  | .resumeAtSpc x1 x2 => Sys2Proof.Machine.execResumeAtSpc x1 x2 s
  | .stop x1 x2 => Sys2Proof.Machine.execStop x1 x2 s
  | .swapout x1 x2 => Sys2Proof.Machine.execSwapout x1 x2 s
  | .swapIn x1 => Sys2Proof.Machine.execSwapIn x1 s
  | .kill x1 x2 => Sys2Proof.Machine.execKill x1 x2 s
  | .revoke x1 => Sys2Proof.Machine.execRevoke x1 s
  | .guardAck => Sys2Proof.Machine.execGuardAck s
  | .refresh x1 => Sys2Proof.Machine.execRefresh x1 s
  | .abandon x1 => Sys2Proof.Machine.execAbandon x1 s
  | .qrbkGo x1 => Sys2Proof.Machine.execQrbkGo x1 s
  | .boot x1 => Sys2Proof.Machine.execBoot x1 s
  | .mrExtend x1 => Sys2Proof.Machine.execMrExtend x1 s
  | .quote => Sys2Proof.Machine.execQuote s
  | .quoteComplete => Sys2Proof.Machine.execQuoteComplete s
  | .powerTransition x1 => Sys2Proof.Machine.execPowerTransition x1 s
  | .powerTransitionDone => Sys2Proof.Machine.execPowerTransitionDone s
  | .dieThermalLimit x1 x2 => Sys2Proof.Machine.execDieThermalLimit x1 x2 s
  | .checkpoint x1 => Sys2Proof.Machine.execCheckpoint x1 s
  | .checkpointDone => Sys2Proof.Machine.execCheckpointDone s
  | .checkpointResume => Sys2Proof.Machine.execCheckpointResume s
  | .restore x1 => Sys2Proof.Machine.execRestore x1 s
  | .kvpfmtWrite x1 x2 => Sys2Proof.Machine.execKvpfmtWrite x1 x2 s
  | .mgmtRegisterWrite x1 x2 => Sys2Proof.Machine.execMgmtRegisterWrite x1 x2 s
  | .flitForward x1 => Sys2Proof.Machine.execFlitForward x1 s
  | .fabricPortUp x1 x2 x3 => Sys2Proof.Machine.execFabricPortUp x1 x2 x3 s
  | .netPortUp x1 => Sys2Proof.Machine.execNetPortUp x1 s
  | .packageReset => Sys2Proof.Machine.execPackageReset s
  | .orderingPointArrival x1 => Sys2Proof.Machine.execOrderingPointArrival x1 s
  | .hartMemoryAccess x1 => Sys2Proof.Machine.execHartMemoryAccess x1 s
  | .poolHostAccess x1 x2 => Sys2Proof.Machine.execPoolHostAccess x1 x2 s
  | .checkpointQuiesceTimeout => Sys2Proof.Machine.execCheckpointQuiesceTimeout s
  | .cxlCapacityEvent x1 => Sys2Proof.Machine.execCxlCapacityEvent x1 s

end Sys2Proof.Machine
end

