-- ==== Sys2Proof/Machine/Perform.lean ====
section
/-!
DEFINITION. One step performed: ISSUE_GROUP goes on with the syllables of the group it opened, one after another in slot order, and
then closes the group (R15, R60, R87), and arriving messages take the banks the core leaves free (R111, R307); any other step is its meaning alone, and what a
hart does waits for the boot (R410).
-/
namespace Sys2Proof.Machine

open Sys2Proof

/-- Perform a syllable of the group that core `c` has opened: its bundle's address and version, its slot, its instruction. -/
def performSyl (c : Nat) (p : Nat × Nat × Nat × Instr) (s : State) : Out :=
  let s := modCore s c fun k => { k with grp := { k.grp with bpc := p.1, ver := p.2.1, slot := p.2.2.1 } }
  exec p.2.2.2 { s with cur := c }

/-- Perform syllables in order, as long as there is a next state: bundle by bundle, and by slot within a bundle.  Where syllables of both
bundles name `fi`, those of the first bundle take the older words (R15, R16; DEDUCED, log 18). -/
def performSyls (c : Nat) : List (Nat × Nat × Nat × Instr) → State → Out
  | [], s => .next s
  | p :: t, s =>
    match performSyl c p s with
    | .next s => performSyls c t s
    | .fault f => .fault f
    | .refused r => .refused r

/-- Whether a core issues a group in the cycle it is looked at. -/
def issues (s : State) (c : Nat) : Bool := match viewOf s c with | .go _ _ => true | _ => false

/-- Perform a group that core `c` has just opened, and close it. -/
def performGroup (c : Nat) (s : State) : Out :=
  match performSyls c (coreAt s c).grp.todo s with
  | .next s => .next (closeGroup s c)
  | .fault f => .fault f
  | .refused r => .refused r

/-- A core's cycle ends for its syllables: the banks they leave free serve the receive buffer (R111, R307). -/
def serveRest (c : Nat) : Out → Out
  | .next s => .next (rxServe s c)
  | o => o

/-- Whether a step is an act of the control complex's harts: an access, or an operation that a write of a management register starts. -/
def hartAct : Instr → Bool
  | .hartMemoryAccess _ | .mgmtRegisterWrite _ _ | .weightReplace _ | .qretry _ | .teardown _ | .reset _ | .restart _ | .qfheadWrite _ _
  | .resume _ _ | .resumeAtSpc _ _ | .stop _ _ | .swapout _ _ | .kill _ _ | .revoke _ | .refresh _ | .abandon _ | .qrbkGo _ | .mrExtend _
  | .quote | .powerTransition _ | .checkpoint _ | .checkpointResume | .restore _ | .kvpfmtWrite _ _ | .requestRecord _ _ => true
  | _ => false

/-- Perform a step: ISSUE_GROUP that opens a group goes on through it; harts act only when the boot ROM has released them (R410). -/
def perform (i : Instr) (s : State) : Out :=
  match i with
  | .issueGroup c =>
    match exec (.issueGroup c) s with
    | .next s' => serveRest c.val (if issues s c.val then performGroup c.val s' else .next s')
    | .fault f => .fault f
    | .refused r => .refused r
  | i => if hartAct i && !booted s then .next s else exec i s

end Sys2Proof.Machine
end

