-- ==== Sys2Proof/Machine/Program.lean ====
section
/-!
DEFINITION. What stands outside the machine's own steps: choosing the next entry of the agenda (log 5), and placing one instruction word
where a core fetches next (log 6).
-/
namespace Sys2Proof.Machine

open Sys2Proof

/-- The first entry of an agenda whose cycle has come, and the rest. -/
def takeDue (now : Nat) : List (Nat × Instr) → Option (Instr × List (Nat × Instr))
  | [] => none
  | p :: t =>
    if p.1 ≤ now then some (p.2, t)
    else match takeDue now t with
      | some (i, r) => some (i, p :: r)
      | none => none

/-- Whether a B-class word may stand only in a bundle that yields (R64 item 6): WAITF and STEP. -/
def needsYield (slot w : Nat) : Bool := decide (slot = 2) && (decide (w / 2 ^ 26 = 0x09) || decide (w / 2 ^ 26 = 0x0A))

/-- The bundle that holds one syllable: its header, the syllable, and a run word if the bundle yields (R57, R62). -/
def bundleBytes (slot w : Nat) : List Byte :=
  let y := needsYield slot w
  let h : Header := { gap := 0, ver := 0, yld := y, stop := true, mask := BitVec.ofNat 26 (2 ^ slot) }
  natBytes 4 (encHeader h).toNat ++ natBytes 4 w ++ (if y then natBytes 4 0 else [])

/-- Seat 0 as it stands when its task is about to issue its first group from a code image of `n` bytes at the start of tier 5. -/
def fetchSeat (t : Seat) (n : Nat) : Seat :=
  { t with st := .ready, pc := 0, codeTier := 5, codeBase := 0, codeLen := n, run := 4096, used := 0, fresh := true, run0 := false,
           wait := none, retire := none, stop := none, swapReq := false }

/-- Core 0 with seat 0 issuing and nothing that holds its next group back. -/
def fetchCore (k : Core) (n : Nat) : Core :=
  let t := fetchSeat (seatOf k 0) n
  let k := putSeat k 0 t
  { k with cur := some 0, last := 0, choose := false, gap := 0, hold := 0, waits := [],
           parity := k.parity.filter fun p => !(decide (p.1 = 5) && decide (p.2 < n)) }

/-- Place an instruction word of 32 bits, with the bundle header it needs, at the start of tier 5, and let seat 0 of core 0 be the one that
issues next: what a launch brings about (log 6). -/
def placeWord (s : State) (nbits w : Nat) : State :=
  let v := w % 2 ^ (min nbits 32)
  let slot := match bareWord v with | some (n, _) => n | none => 0
  let bs := bundleBytes slot v
  let n := bs.length
  let s := setTier s 5 (cellsPut 0 bs s.t5)
  let s := setCore s 0 (fetchCore (coreAt s 0) n)
  { s with wbuf := s.wbuf.filter (fun b => !(decide (b.tier = 5) && meets 0 n b.addr b.bytes.length)),
           dieEn := 0xF, bad := none, turn := [.issueGroup 0] }

end Sys2Proof.Machine
end

