-- ==== Sys2Proof/Machine/Step.lean ====
section
/-!
DEFINITION. One step of the package: the next step of the present cycle, else the next input or step of open time whose cycle has come,
else the next cycle (log 5).
-/
namespace Sys2Proof.Machine

open Sys2Proof

/-- ONE STEP. -/
def step (s : State) : Host.Outcome State Fault Refusal :=
  match s.bad with
  | some f => .fault f
  | none =>
    match s.turn with
    | i :: t => perform i { s with turn := t }
    | [] =>
      match takeDue s.cyc s.agenda with
      | some (i, r) => perform i { s with agenda := r }
      | none => .next (tick s)

/-- The state `s` with the instruction word `w` where core 0 fetches in the next step (log 6). -/
def State.withFetchWord (s : State) (nbits w : Nat) : State := placeWord s nbits w

end Sys2Proof.Machine
end

