-- ==== Sys2Proof/Safety.lean ====
section
/-!
DEFINITION. What a safe run is, and the terms in which statements say what a step does: the canonical form of the memories, the values a
syllable reads, what a syllable's issue leaves as it was, the effects it puts in flight, and the result of a rounding.
-/
namespace Sys2Proof.Safety

open Sys2Proof Sys2Proof.Machine

/-! ### Safe runs -/

/-- A step goes on: no fault, no refusal. -/
def goesOn (s : State) : Prop := ∃ t, step s = .next t

/-- The states that steps reach from a state. -/
inductive Reach (s : State) : State → Prop where
  | refl : Reach s s
  | step {t u : State} (h : Reach s t) (n : step t = .next u) : Reach s u

/-- A run from a state is safe when every state it reaches goes on. -/
def safeRun (s : State) : Prop := ∀ t, Reach s t → goesOn t

/-- Tiers 2 to 5 are in canonical form: places rise strictly and no zero byte is listed (log 1). -/
abbrev memoryWf (s : State) : Prop := ∀ i, Memory.wf (tierMem s i) = true

/-- Management space lists each register that is not at its reset value once, in rising order of the keys. -/
abbrev regsSorted (s : State) : Prop := (s.mgmt.map (·.1)).Pairwise (· < ·)

/-- The stores that hold bytes of tiers are in canonical form: the tiers, and tier 2 as checkpoint images hold it (log 1). -/
abbrev storesWf (s : State) : Prop := memoryWf s ∧ ∀ i ∈ s.ckptImage, Memory.wf i.t2 = true

/-- Bytes `bs` stand in tier `i` from place `a` on, and every other byte of the tiers is as it was. -/
def Wrote (s t : State) (i a : Nat) (bs : List Byte) : Prop :=
  (∀ k < bs.length, cellAt (tierMem t i) (a + k) = lget 0 bs k) ∧
  ∀ j p, (j ≠ i ∨ p < a ∨ a + bs.length ≤ p) → cellAt (tierMem t j) p = cellAt (tierMem s j) p

/-- No byte of the tiers has changed. -/
def SameTiers (s t : State) : Prop := ∀ i a, cellAt (tierMem t i) a = cellAt (tierMem s i) a

/-! ### What a syllable reads -/

/-- Every field that names `fi` finds a word there that is no error entry (R76, R126, R129). -/
def Readable (s : State) (l : List SSrc) : Prop := anyFi l = true → ∃ e r, (cs s).fi = e :: r ∧ e.err = false

/-- The value of a scalar source: a0 is zero, a register, a latch, or the oldest word of `fi` (R12, R65, R76). -/
def srcAt (s : State) : SSrc → Word
  | .reg n => if n.val = 0 then 0 else tget 0 (cs s).a n.val
  | .latch n => tget 0 (cc s).latch n.val
  | .fi => match (cs s).fi with | [] => 0 | e :: _ => e.w

/-- The seat after a syllable's sources have been read: one word of `fi` is gone if a field names it (R76). -/
def popped (s : State) (l : List SSrc) : Seat := if anyFi l then { cs s with fi := (cs s).fi.tail } else cs s

/-- The same seat once the entry of `fo` that a result will take has been reserved (R77). -/
def reserved (x : Seat) (d : SDst) : Seat := if d = .fo then { x with foRes := x.foRes + 1 } else x

/-! ### What a syllable's issue changes -/

/-- The issue of a syllable: of the package nothing changes but the core being performed; of that core nothing but the seat that issues,
which becomes `x`, the effects in flight, to which `es` are added, and the record of the group being performed, which becomes `g`.  Every
memory, every control register and every other seat is as it was. -/
structure Issued (s t : State) (x : Seat) (es : List Eff) (g : Grp) : Prop where
  package : t = { s with cores := t.cores }
  cores : ∀ d, d ≠ s.cur → coreAt t d = coreAt s d
  core : coreAt t s.cur = { cc s with seats := (coreAt t s.cur).seats, effs := (cc s).effs ++ es, grp := g }
  seats : ∀ m, m ≠ cn s → seatAt t s.cur m = seatAt s s.cur m
  seat : seatAt t s.cur (cn s) = x

/-- An effect without flags that lands `lat` counted cycles after issue (R13). -/
def lands (s : State) (slot lat : Nat) (l : Land) : Eff :=
  { due := (cc s).ct + lat, seat := cn s, sw := (cc s).sw, grp := (cc s).grp.addr, slot := slot, land := l, flags := 0,
    en := trapEnables (cs s).fpc, info1 := 0, iss := (cc s).ct, bun := bundleNo s, dead := false }

/-- A scalar result on its way to its destination and its slot's latch (R12, R77). -/
def sends (s : State) (slot lat : Nat) (d : SDst) (v : Word) : Eff := lands s slot lat (.sca (dstTo d) (latchOf slot) v)

/-- A cause that stops the task at the boundary after the group (R86, R105, R242). -/
def causes (s : State) (x : Seat) (rank cause slot : Nat) (info0 info1 : Word) : Seat :=
  { x with causes := x.causes ++ [⟨rank, cause, slot, (cc s).grp.addr, info0, info1⟩] }

/-- An instruction answers a next state, which is its issue (the seat `x`, the effects `es`, the record `g`) and nothing else. -/
def Does (i : Instr) (s : State) (x : Seat) (es : List Eff) (g : Grp) : Prop := ∃ t, exec i s = .next t ∧ Issued s t x es g

/-- A scalar syllable reads its sources `l` and puts the value `v` on its way to `d`, `lat` cycles later; nothing else happens. -/
def Results (i : Instr) (s : State) (l : List SSrc) (slot lat : Nat) (d : SDst) (v : Word) : Prop :=
  Does i s (reserved (popped s l) d) [sends s slot lat d v] (cc s).grp

/-- The freezes that a compatibility latency asks of the group (R63): the native latency lies `n` cycles above it. -/
def slower (g : Grp) (n : Nat) : Grp := if g.ver = 1 then { g with v1hold := max g.v1hold n } else g

/-- The latency of a bundle's version (R63). -/
def latencyOf (s : State) (native compatible : Nat) : Nat := if (cc s).grp.ver = 1 then compatible else native

/-- The value of a destination that is also read (R77): W = 1 reads a0. -/
def oldOf (s : State) : RDst → Word
  | .reg n => srcAt s (.reg n)
  | .latch => 0

/-- The destination that such a field names. -/
def destOf : RDst → SDst
  | .reg n => .reg n
  | .latch => .latch

/-- The record of the group after accesses to some scratchpad places (R24): one for each bank word. -/
def banked (g : Grp) (ps : List Nat) : Grp := { g with banks := g.banks ++ (bankWords ps).map fun p => p / 16 % 64 }

/-- The record of the group after a taken branch (R87). -/
def jumps (g : Grp) (t : Word) : Grp := { g with branch := some t.toNat, taken := true }

/-- The target that an encoded offset names (R87): signed words from the header of the bundle that holds the branch. -/
def targetOf (s : State) {n : Nat} (o : BitVec n) : Word := BitVec.ofNat 64 (cc s).grp.bpc + (o.signExtend 64 <<< 2)

/-- An access of `n` bytes of the scratchpad through extent `e` passes every check (R105, R109). -/
def Accessible (s : State) (e : BitVec 4) (rd wr : Bool) (align off n : Nat) : Prop :=
  extCheck (extOf (cs s) e.toNat) [0] rd wr align off n = none ∧
  (rd = true → spadErr (cc s) 0 (spadPlaces (extOf (cs s) e.toNat) off n) = none)

/-- The scratchpad places of such an access. -/
def placesOf (s : State) (e : BitVec 4) (off n : Nat) : List Nat := spadPlaces (extOf (cs s) e.toNat) off n

/-- Nothing of the package changes but core `c`. -/
structure OnlyCore (c : Nat) (s t : State) : Prop where
  package : t = { s with cores := t.cores }
  cores : ∀ d, d ≠ c → coreAt t d = coreAt s d

/-- An instruction notes one cause of rank 2, which stops its task at the boundary after the group, and does nothing else (R86, R105, R159):
`x` is the seat after its sources have been read. -/
def Stops (i : Instr) (s : State) (x : Seat) (cause slot : Nat) (info0 info1 : Word) : Prop :=
  Does i s (causes s x 2 cause slot info0 info1) [] (cc s).grp

/-- An access of `n` bytes that fails a check of its extent stops its task with the cause of that check, the offset and the extent, and does
nothing else (R105). -/
def FailsCheck (i : Instr) (s : State) (x : Seat) (slot : Nat) (e : BitVec 4) (tiers : List Nat) (rd wr : Bool) (align off n : Nat) : Prop :=
  ∀ c, extCheck (extOf (cs s) e.toNat) tiers rd wr align off n = some c →
    Stops i s x c slot (BitVec.ofNat 64 off) (BitVec.ofNat 64 e.toNat)

/-- The same of an access to the scratchpad, and what one that passes them but reads a byte with an uncorrectable error does: it names that byte
and has used its banks (R24, R109). -/
def FailsAccess (i : Instr) (s : State) (x : Seat) (slot : Nat) (e : BitVec 4) (rd wr : Bool) (align off n : Nat) : Prop :=
  FailsCheck i s x slot e [0] rd wr align off n ∧
  (rd = true → extCheck (extOf (cs s) e.toNat) [0] rd wr align off n = none → ∀ j, spadErr (cc s) 0 (placesOf s e off n) = some j →
    Does i s (causes s x 2 Cause.spadUe slot (BitVec.ofNat 64 (off + j)) (BitVec.ofNat 64 e.toNat)) [] (banked (cc s).grp (placesOf s e off n)))

/-! ### Issues that also change what the core holds -/

/-- An instruction answers a next state, which is its issue on a state that already holds its other effects. -/
def DoesOn (i : Instr) (s s' : State) (x : Seat) (es : List Eff) (g : Grp) : Prop := ∃ t, exec i s = .next t ∧ Issued s' t x es g

/-- The core being performed holds another tag table (R112). -/
def withTags (s : State) (l : List TagEnt) : State := onCore s fun k => { k with tags := l }

/-- The core being performed has begun a beat in this cycle; `h` says that it meets a pair beat and freezes once more (R167). -/
def withBeat (s : State) (h : Bool) : State := onCore s fun k => { k with beatNow := true, hold := k.hold + (if h then 1 else 0) }

/-- Row `r` of the accumulators of the core being performed holds other values. -/
def withAcc (s : State) (r : Nat) (ws : List W32) : State := onCore s fun k => { k with acc := accPut r 0 ws k.acc }

/-- The rotator of the core being performed has a sequenced instruction (R175). -/
def withSeqr (s : State) (q : Seqr) : State := onCore s fun k => { k with seqr := some q }

/-! ### Vector syllables -/

/-- The seat after a syllable of cluster `k` has popped the queues its sources name (R19). -/
def vpopped (s : State) (k : Nat) (l : List VSrc) : Seat := popQueues (cs s) k l

/-- The value of a vector source at issue (R66). -/
def vsrcAt (s : State) (k : Nat) (a : VSrc) : Vec := vsrcVal (cc s) (cs s) k a

/-- The same seat once the entry of the cluster's outbound queue that a result will fill has been reserved (R134). -/
def vreserved (x : Seat) (k : Nat) (d : VDst) : Seat :=
  if d = .qo then { x with resvNext := x.resvNext + 1, qo := tput k (qoOf x k ++ [⟨x.resvNext, 0, 0⟩]) x.qo } else x

/-- The landing code of a vector destination: a register, 63 for none, 1000 + its number for a reserved entry. -/
def vcode (x : Seat) : VDst → Nat
  | .reg n => n.val
  | .none => 63
  | .qo => 1000 + x.resvNext

/-- An effect that lands `lat` counted cycles after issue and has raised flags (R13, R45). -/
def raises (s : State) (slot lat : Nat) (l : Land) (f : Flags) : Eff := { lands s slot lat l with flags := f }

/-- A vector syllable pops its queues and puts `data` on its way to `d` under the active mask `m`, with the flags it raised; nothing else
happens. `x` is the seat after its sources have been read. -/
def VResults (i : Instr) (s : State) (x : Seat) (k : Fin 8) (slot lat : Nat) (d : VDst) (m : BitVec 16) (data : Vec) (f : Flags)
    (lb : Bool) (g : Grp) : Prop :=
  Does i s (vreserved x k d) [raises s slot lat (.vec k (vcode x d) m data lb) f] g

/-- The active mask of a vector syllable. -/
def activeAt (s : State) (k p : Fin 8) : BitVec 16 := pReg (cs s) k p

/-- The vector whose active lanes are what `f` gives, its other lanes zero; and the flags of its active lanes. -/
def lanesAre (v : Vec) (fl : Flags) (m : BitVec 16) (f : Nat → W32 × Flags) : Prop :=
  (∀ i < 16, lane v i = if m.getLsbD i then (f i).1 else 0) ∧
  ∀ b : Fin 6, fl.getLsbD b = true ↔ ∃ i < 16, m.getLsbD i = true ∧ (f i).2.getLsbD b = true

/-- A relation between the elements of a result lane and those of two lanes (R132). -/
def eachElement (t : Ty) (z x y : W32) (r : Nat → Nat → Nat → Prop) : Prop :=
  if t.is32 then r z.toNat x.toNat y.toNat
  else r (z.toNat % 2 ^ 16) (x.toNat % 2 ^ 16) (y.toNat % 2 ^ 16) ∧ r (z.toNat / 2 ^ 16) (x.toNat / 2 ^ 16) (y.toNat / 2 ^ 16)

/-- A lane of VFMA (R139): each element is formed by `fmaElem`. -/
def fmaLane (o : BitVec 2) (t : Ty) (x y z : W32) : W32 × Flags :=
  if t.is32 then
    let r := fmaElem o t x.toNat y.toNat z.toNat
    (BitVec.ofNat 32 r.1, r.2)
  else
    let lo := fmaElem o t (x.toNat % 2 ^ 16) (y.toNat % 2 ^ 16) (z.toNat % 2 ^ 16)
    let hi := fmaElem o t (x.toNat / 2 ^ 16) (y.toNat / 2 ^ 16) (z.toNat / 2 ^ 16)
    (BitVec.ofNat 32 (lo.1 + 2 ^ 16 * hi.1), lo.2 ||| hi.2)

/-! ### Rounding -/

/-- The number that a finite operand is: m × 2^e with its sign (R31, R34). -/
def fvRat : FV → Rat
  | .fin n m e => (if n then -1 else 1) * (m : Rat) * 2 ^ e
  | _ => 0

/-- The magnitude of a number. -/
def ratMag (x : Rat) : Rat := if x < 0 then -x else x

/-- The numbers of `p` significant bits whose last place is not below 2^q, where `q` is given (R31, R34, R42). -/
def onGrid (p : Nat) (q : Option Int) (y : Rat) : Prop :=
  ∃ (m : Nat) (e : Int), m < 2 ^ p ∧ (∀ i, q = some i → i ≤ e) ∧ ratMag y = (m : Rat) * 2 ^ e

/-- `y` is the number of a grid to which a mode rounds `x` (R38): the last one toward zero, or the nearest one, and of two equally near the even
multiple of the distance between them. -/
def roundsTo (m : RMode) (p : Nat) (q : Option Int) (x y : Rat) : Prop :=
  onGrid p q y ∧ ∀ z, onGrid p q z → match m with
    | .rtz => ratMag y ≤ ratMag x ∧ 0 ≤ x * y ∧ (ratMag z ≤ ratMag x → ratMag z ≤ ratMag y)
    | _ => ratMag (y - x) ≤ ratMag (z - x) ∧ (ratMag (y - x) = ratMag (z - x) → z ≠ y →
        ∃ k g : Int, ratMag (y - z) = 2 ^ g ∧ y = 2 * (k : Rat) * 2 ^ g)

/-- `r` is the number `y`; a zero has the sign `neg`. -/
def isNumber (r : FV) (y : Rat) (neg : Bool) : Prop := r.isNan = false ∧ r.isInf = false ∧ fvRat r = y ∧ (y = 0 → r.neg? = neg)

/-- `r` and its flags are what an exact number `x` becomes in a target (R31, R33, R39, Table 2-5): rounded once by the mode; beyond the largest
finite number the outcome of the mode; a result that is not exact raises NX, with UF when it is tiny. -/
def rounded (t : Target) (m : RMode) (x : Rat) (neg : Bool) (r : FV) (fl : Flags) : Prop :=
  ∃ y u : Rat, roundsTo m t.p (some t.q) x y ∧ roundsTo m t.p none x u ∧
    let top := fvRat (.fin false t.max.1 t.max.2)
    let most := isNumber r (if x < 0 then -top else top) neg
    if top < ratMag y then
      match m with
      | .rne => r = (if t.ext then .inf (decide (x < 0)) else .qnan) ∧ fl = fOF ||| fNX
      | .rtz => most ∧ fl = fOF ||| fNX
      | .srne => most ∧ fl = fSAT ||| fNX
    else isNumber r y neg ∧ fl = if y = x then 0 else if ratMag u < 2 ^ t.emin then fUF ||| fNX else fNX

/-- `k` is the integer to which a mode rounds `x` (R41). -/
def roundsInt (m : RMode) (x : Rat) (k : Int) : Prop :=
  match m with
  | .rtz => ratMag (k : Rat) ≤ ratMag x ∧ ratMag x < ratMag (k : Rat) + 1 ∧ 0 ≤ (k : Rat) * x
  | _ => 2 * ratMag ((k : Rat) - x) ≤ 1 ∧ (2 * ratMag ((k : Rat) - x) = 1 → k % 2 = 0)

/-- NV where one of some operands is a signalling NaN (R32). -/
def sigFlags (l : List FV) : Flags := if l.contains (.nan true) then fNV else 0

/-- The format of a floating-point element type. -/
def elemFmt : Ty → Fmt
  | .bf16 => fmtBf
  | .f16 => fmt16
  | _ => fmt32

/-- Its canonical NaN (R32). -/
def elemNan : Ty → Nat
  | .bf16 => 0x7FC0
  | .f16 => 0x7E00
  | _ => 0x7FC00000

/-- The element `r` and its flags are the sum of two operands in the format of a type, rounded once (R31, R32, Table 6-1): ∞ − ∞ is invalid, and
an exact zero is negative only when both operands are. -/
def isSum (t : Ty) (a b : FV) (r : Nat × Flags) : Prop :=
  let z := elemVal t r.1
  (a.isNan = true ∨ b.isNan = true → r = (elemNan t, sigFlags [a, b])) ∧
  (a.isNan = false → b.isNan = false →
    (∀ n, a = .inf n → b = .inf (!n) → r = (elemNan t, fNV)) ∧
    (∀ n, (a = .inf n ∧ b ≠ .inf (!n)) ∨ (b = .inf n ∧ a ≠ .inf (!n)) → z = .inf n ∧ r.2 = 0) ∧
    (a.isInf = false → b.isInf = false →
      let x := fvRat a + fvRat b
      rounded (elemFmt t).target .rne x (if x = 0 then a.neg? && b.neg? else decide (x < 0)) z r.2))

/-- The element `r` and its flags are the product of two operands: 0 × ∞ is invalid. -/
def isProduct (t : Ty) (a b : FV) (r : Nat × Flags) : Prop :=
  let z := elemVal t r.1
  (a.isNan = true ∨ b.isNan = true → r = (elemNan t, sigFlags [a, b])) ∧
  (a.isNan = false → b.isNan = false →
    ((a.isInf = true ∧ b.isZero = true) ∨ (a.isZero = true ∧ b.isInf = true) → r = (elemNan t, fNV)) ∧
    ((a.isInf = true ∧ b.isZero = false) ∨ (a.isZero = false ∧ b.isInf = true) → z = .inf (a.neg? != b.neg?) ∧ r.2 = 0) ∧
    (a.isInf = false → b.isInf = false → rounded (elemFmt t).target .rne (fvRat a * fvRat b) (a.neg? != b.neg?) z r.2))

/-- The order of VMIN and VMAX (R137): −0 lies below +0. -/
def fvBelow (a b : FV) : Prop :=
  match a, b with
  | .inf n, b => n = true ∧ b ≠ .inf true
  | _, .inf k => k = false
  | a, b => fvRat a < fvRat b ∨ (fvRat a = 0 ∧ fvRat b = 0 ∧ a.neg? = true ∧ b.neg? = false)

/-- The target of a result of `b` significant bits (R42): the coarser of their grid and that of FP32. -/
def bitsTarget (b : Nat) : Target := ⟨b, fmt32.qmin, fmt32.maxFin, true, fmt32.emin⟩

/-! ### Commands of the engines -/

/-- An engine accepts a command: the seat's counter is its number, the status word on its way has code zero (R188, R190). `s'` is the
state with the engine's part done, `x` the seat after its sources have been read. -/
def Accepted (i : Instr) (s s' : State) (x : Seat) (d : SDst) (eng val : Nat) (lim : Bool) : Prop :=
  DoesOn i s s'
    (reserved { x with cnt := tput eng (nextSeq (cs s) eng) x.cnt,
                       outst := if lim then tmod 0 eng (· + 1) x.outst else x.outst } d)
    [sends s 25 2 d (statusWord 0 eng false (nextSeq (cs s) eng) val)] (cc s).grp

/-- An engine refuses a command: only the status word with the code and no number is on its way (R188, R189). -/
def Refused (i : Instr) (s : State) (x : Seat) (d : SDst) (eng code : Nat) : Prop :=
  Does i s (reserved x d) [sends s 25 2 d (statusWord code eng false 0 0)] (cc s).grp

/-! ### Events -/

/-- A step answers a next state for which something holds. -/
def Gives (i : Instr) (s : State) (p : State → Prop) : Prop := ∃ t, exec i s = .next t ∧ p t

/-- No write to the units of some bytes waits in a buffer (R280). -/
def Unbuffered (s : State) (t a n : Nat) : Prop := ∀ w ∈ s.wbuf, w.tier = t → unitsMeet w.addr w.bytes.length a n = false

/-- The value that an effect in flight sends to register `n` of seat `m`, if it is a scalar result for it (R12). -/
def sentTo (m n : Nat) (e : Eff) : Option Word :=
  match e.land with
  | .sca d _ v => if e.seat = m ∧ d = n then some v else none
  | _ => none

/-- The bytes of a store in flight, each with its place (R107). -/
def storedBy (e : Eff) : List (Nat × Byte) :=
  match e.land with
  | .store bs => bs
  | _ => []

/-- What a beat in flight brings to column `j` of row `r`: whether it is added, and the value (R165). -/
def beatAt (r j : Nat) (e : Eff) : Option (Bool × W32) :=
  match e.land with
  | .beat i acc cs => if i = r then some (acc, cs.getD j 0) else none
  | _ => none

/-- The causes of one boundary in the order of Table 11-1: those noted, and that of the trap that lands first, unless a trap that has landed
stands among those noted (R45, R46, R242). -/
def ranked (k : Core) (n : Nat) (own : List PCause) : List PCause :=
  own.foldl (fun l p => byRank p l) (((if own.any fun p => decide (p.rank ≤ 1) then [] else pendingTraps k n).take 1).map trapOf)

/-- What a task's seat keeps when a result of it traps (R45): everything but its state, its pc, its flags, the stop it takes, and what the result
had reserved: an entry of `fo`, or one of its cluster's outbound queue. -/
def Unwritten (x y : Seat) (l : Land) : Prop :=
  y = { x with st := y.st, pc := y.pc, flg := y.flg, causes := y.causes, retire := y.retire, stop := y.stop, foRes := y.foRes, qo := y.qo } ∧
  y.foRes = (match l with | .sca 62 _ _ => x.foRes - 1 | _ => x.foRes) ∧
  ∀ k, qoOf y k = match l with | .vec b d _ _ _ => if b = k ∧ 1000 ≤ d then (qoOf x k).filter (fun q => q.id ≠ d - 1000) else qoOf x k | _ => qoOf x k

/-- The registers of the core's units hold what they held: the scratchpad, the tiles, the accumulators, the planes, the scales, the d registers,
the tile shapes, the tag table and the latches. -/
def UnitsKept (k k' : Core) : Prop :=
  k' = { k with seats := k'.seats, effs := k'.effs, cur := k'.cur, last := k'.last, choose := k'.choose, idle := k'.idle, gap := k'.gap,
                waits := k'.waits, frz := k'.frz, latch := k'.latch, vlatch := k'.vlatch, sw := k'.sw, seqr := k'.seqr } ∧
  (k'.latch = k.latch ∨ k'.latch = []) ∧ (k'.vlatch = k.vlatch ∨ k'.vlatch = [])

/-! ### The KV engine -/

/-- Two ranges of bytes of the tiers, each a tier, a place and a length, have no byte in common. -/
def Apart (a b : Nat × Nat × Nat) : Prop := a.1 ≠ b.1 ∨ a.2.1 + a.2.2 ≤ b.2.1 ∨ b.2.1 + b.2.2 ≤ a.2.1

/-- The handle table, the map words, the pages, the summaries and the journal of die `d` (R365). -/
def kvRegions (s : State) (d : Nat) : List (Nat × Nat × Nat) :=
  let f := kvFmtOf s d
  let npg := bits (mreg s (.kvpool d)) 63 40
  let j := mreg s (.kvjrn d)
  [((kvEntry s d 0).1, (kvEntry s d 0).2, 256 * bits (mreg s (.kvht d)) 58 40),
   ((mapPlace s d 0 0 0).1, (mapPlace s d 0 0 0).2, 4 * bits (mreg s (.kvht d)) 58 40 * f.nl * f.maxp),
   (2, pageOff s d 0, npg * (32 * f.ktok)),
   ((sumPlace s d 0).1, (sumPlace s d 0).2.1, npg * (sumPlace s d 0).2.2),
   (bits j 63 61, bits j 39 0, 64 * bits j 59 40)]

/-- These regions lie in their tiers and apart from each other, and every map word names a page of the pool or none. -/
def KvLaid (s : State) (d : Nat) : Prop :=
  let f := kvFmtOf s d
  f.ktok ≠ 0 ∧ (kvRegions s d).Pairwise Apart ∧
  (∀ r ∈ kvRegions s d, 2 ≤ r.1 ∧ r.1 ≤ 5 ∧ r.2.1 + r.2.2 ≤ tierSize r.1) ∧
  ∀ e < bits (mreg s (.kvht d)) 58 40, ∀ q ∈ allPlaces f f.maxp, ∀ g, mapAt s d e q.1 q.2 = some g → g < bits (mreg s (.kvpool d)) 63 40

/-- Word 0 of a live entry (R366): its tenant and its generation number are `w`'s, and V, JO and RP are `v`, its bound `b`. -/
def Entry0 (s : State) (d e v b : Nat) (w : Word) : Prop :=
  bits (entWord s d e 0) 63 61 = v ∧ entBound s d e = b ∧ bits (entWord s d e 0) 55 32 = bits w 55 32

/-- The bytes that the agents of die `d` read at a place (R280). -/
def seenAt (s : State) (d t a n : Nat) : List Byte := (countUp a n).map (obsByte s (some d) t)

/-- A seat has been stopped with a record: the seat is stopped at `pc` and off its core, and the record is on its way to the fault ring
of its queue (R241, R243). -/
def StoppedWith (s t : State) (c n : Nat) (pc : Nat) (r : StopRec) : Prop :=
  (seatAt t c n).st = .stopped ∧ (seatAt t c n).pc = BitVec.ofNat 64 pc ∧ (seatAt t c n).stop = some (r, false) ∧
  (coreAt t c).cur ≠ some n ∧
  (queueAt t (taskQueue (seatAt s c n).task)).recs =
    (queueAt s (taskQueue (seatAt s c n).task)).recs ++ [(some (4 * c + n), r)]

/-- A seat has been stopped for causes of one boundary: the record names the first by rank, and the next as CAUSE2 (R241 to R243). -/
def StoppedFor (s t : State) (c n : Nat) (own : List PCause) (pc : Nat) : Prop :=
  let l := ranked (coreAt s c) n own
  ∃ p r, l.head? = some p ∧ StoppedWith s t c n (((seatAt s c n).retire.map (·.raddr)).getD pc) r ∧ r.nt = false ∧ r.cause = p.cause ∧
    r.cause2 = (l[1]?).map (·.cause) ∧ r.slot = p.slot ∧ r.faddr = p.faddr ∧ r.info0 = p.info0 ∧ r.info1 = p.info1

end Sys2Proof.Safety
end

