-- ==== Sys2Proof/Certificates/Slice0/Obligations.lean ====
section
/-!
DEFINITION. The statements made for the provers, in the order of the spec's chapters.
-/
open Sys2Proof Sys2Proof.Machine Sys2Proof.Safety

/-! ### Encodings -/

/-- R57, R64 to R69: the word of a well-formed syllable is read back, in the slot the syllable stands in, as that syllable, every operand at
every value its field admits. -/
def Obligations.WordsOfSyllablesAreReadBack : Prop :=
  ∀ i : Instr, i.wf = true → ∀ (s : Nat) (w : W32), slotOf i = some s → encode i = some w → decSyl 0 s w = .ok i

/-- R64 to R69: a word that a slot reads as a syllable is that syllable's word and no other, and the syllable is well formed and stands in
that slot: no bit of a word is dropped, in either version of a bundle. -/
def Obligations.AWordHasOneReading : Prop :=
  ∀ (v s : Nat) (w : W32) (i : Instr), s < 26 → decSyl v s w = .ok i → i.wf = true ∧ slotOf i = some s ∧ encode i = some w

/-- The words of the spec's own examples, each in its slot (R69 and the examples of the chapters). -/
def Obligations.WordsOfTheExamples : Prop :=
  let r := fun (n : Nat) => SSrc.reg (Fin.ofNat 56 n)
  let d := fun (n : Nat) => SDst.reg (Fin.ofNat 56 n)
  decSyl 0 0 0x0060A280 = .ok (.add .s0 (d 6) (r 5) (r 5)) ∧ decSyl 0 0 0x5850000F = .ok (.movi .s0 (d 5) 15) ∧
  decSyl 0 0 0x5C57F800 = .ok (.movhi .s0 (.reg 5) 0x7F800) ∧ decSyl 0 2 0x3C000000 = .ok (.halt (r 0)) ∧
  decSyl 0 2 0x14400000 = .ok (.loop 4 0) ∧ decSyl 0 3 0x00500182 = .ok (.ld .m0 (d 5) 0 (r 0) 3 2) ∧
  decSyl 0 3 0x08600183 = .ok (.st .m0 (r 6) 0 (r 0) 3 3) ∧ decSyl 0 3 0x55788480 = .ok (.rst .m0 5 3 true (r 4) (r 9) 0 false) ∧
  decSyl 0 7 0x02488160 = .ok (.vadd 2 .qo .qa (.reg 1) 3 .f32 false) ∧ decSyl 0 5 0x4C010000 = .ok (.vwmg 0 0 1 0) ∧
  decSyl 0 21 0x10000000 = .ok .wswap ∧ decSyl 0 24 0x10210001 = .ok (.qget 0 2 (r 4) false true) ∧
  decSyl 0 25 0x00004500 = .ok (.eset 0 1 (r 5)) ∧ decSyl 0 25 0x24908002 = .ok (.kvjnReject (d 9) (r 4))

/-! ### The machine as a whole -/

/-- Management space lists its registers in order in every state that a step reaches from one where it does: the form in which a register is
read after it is written (R6). -/
def Obligations.StepsKeepManagementSpaceInOrder : Prop :=
  ∀ s t : State, regsSorted s → step s = .next t → regsSorted t

/-- The memory of tiers 2 to 5, and tier 2 as checkpoint images hold it, keep their canonical form in every step (R276; the form and the
value of an unlisted byte are the model's, log 1). -/
def Obligations.StepsKeepTheStoresInForm : Prop :=
  ∀ s t : State, storesWf s → step s = .next t → storesWf t

/-- Every instruction and every step of the part completes: none faults and none is refused, in any state.  A run ends only where `bad` has
been noted, and a read, a buffered write and a strong write of a tier note it exactly where that tier has not all of their bytes (R276; that
the next step is then a fault is the model's, log 3). -/
def Obligations.EveryInstructionCompletes : Prop :=
  (∀ (i : Instr) (s : State), ∃ t, exec i s = .next t) ∧ (∀ s : State, s.bad = none → goesOn s) ∧
  (∀ (s : State) (f : Fault), s.bad = some f → step s = .fault f) ∧
  ∀ (s : State) (i a : Nat), s.bad = none → 2 ≤ i → i ≤ 5 →
    let noted := fun (n : Nat) => if a + n ≤ tierSize i then none else some (Fault.noSuchAddress i a)
    (∀ n, (touch s i a n).bad = noted n) ∧ (∀ d n, (memRead s d i a n).1.bad = noted n) ∧
    (∀ bs, (memStrong s i a bs).bad = noted bs.length) ∧ ∀ w : BufWr, w.tier = i → w.addr = a → (memEnqueue s w).bad = noted w.bytes.length

/-- R6, R26, R43, R112, R220, R241, R341, R345: the values the spec gives package reset, and that the model's own forms of its tables hold
then (what the spec gives no reset value for is log 2's and is not said here). -/
def Obligations.ResetLeavesTheValuesOfTheTables : Prop :=
  let s := State.reset
  s.cyc = 0 ∧ mreg s .hbmhot = 380 ∧ mreg s .hbmcool = 340 ∧ mreg s .cxlto = 0x01000000 ∧
  (∀ k, bits (mreg s (.hbmst k)) 1 0 = 2) ∧ (∀ q, mreg s (.qcfg q) = 0 ∧ mreg s (.lpst q) = 0 ∧ mreg s (.rt q) = 0 ∧ mreg s (.grant q) = 0 ∧
    mreg s (.mcast q) = 0 ∧ mreg s (.pst q) = 0 ∧ mreg s (.gqcfg q) = 0 ∧ mreg s (.nept q) = 0) ∧
  mreg s .fabcfg = 0 ∧ mreg s .netcfg = 0 ∧ mreg s .xrctl = 0 ∧ mreg s .wrctl = 0 ∧ mreg s .cerate = 0 ∧
  (∀ c : CoreId, (coreAt s c).tags = [] ∧ (coreAt s c).ofrz = 0 ∧ (coreAt s c).gfrz = 0 ∧
    ∀ n, (seatAt s c n).st = .empty ∧ (seatAt s c n).fpc = 0 ∧ (seatAt s c n).flg = 0 ∧ (seatAt s c n).task = 0 ∧ (seatAt s c n).dmem = 0) ∧
  regsSorted s ∧ storesWf s ∧ s.bad = none

/-- R6, R12, R17, R18, R276: what a write leaves to be read: a general register (a0 reads zero always), a predicate (c.p0 reads 0xFFFF
always), a management register, a byte of a tier, a byte of a scratchpad (the last write of one place wins); and nothing else is read
differently. -/
def Obligations.WhatIsWrittenIsReadBack : Prop :=
  (∀ (x : Seat) (n m : Nat) (v : Word), aReg (aSet x n v) m = if m = n ∧ n ≠ 0 then v else aReg x m) ∧
  (∀ x : Seat, aReg x 0 = 0 ∧ ∀ k, pReg x k 0 = 0xFFFF) ∧
  (∀ (x : Seat) (k j n m : Nat) (v : BitVec 16), n < 8 → m < 8 →
    pReg (pSet x k n v) j m = if j = k ∧ m = n ∧ n ≠ 0 then v else pReg x j m) ∧
  (∀ (s : State) (r q : MReg) (v : Word),
    mreg (setMreg s r v) r = v ∧ (regsSorted s → regsSorted (setMreg s r v)) ∧ (regKey q ≠ regKey r → mreg (setMreg s r v) q = mreg s q)) ∧
  (∀ (s : State) (i a : Nat) (bs : List Byte), 2 ≤ i → i ≤ 5 →
    Wrote s (rawWrite s i a bs) i a bs ∧ (memoryWf s → memoryWf (rawWrite s i a bs))) ∧
  ∀ (k : Core) (ws : List (Nat × Byte)),
    (Memory.wf k.spad = true → Memory.wf (spadPut k ws).spad = true) ∧
    ∀ p, cellAt (spadPut k ws).spad p = match (ws.filter fun w => w.1 = p).getLast? with | some w => w.2 | none => cellAt k.spad p

/-! ### The S class -/

/-- Results of the S class with latency 1, with two sources or an immediate, and their frame. -/
def Obligations.ScalarResults : Prop :=
  -- R78, R79 and Table 4-1: every two-source form with latency 1 sends the table's value, and nothing else changes.
  (∀ (s : State) (u : SSlot) (d : SDst) (a b : SSrc), Readable s [a, b] →
    let x := srcAt s a
    let y := srcAt s b
    let R := fun (i : Instr) (v : Word) => Results i s [a, b] (sSlot u) 1 d v
    R (.add u d a b) (x + y) ∧ R (.sub u d a b) (x - y) ∧
    R (.and u d a b) (x &&& y) ∧ R (.or u d a b) (x ||| y) ∧ R (.xor u d a b) (x ^^^ y) ∧ R (.andn u d a b) (x &&& ~~~ y) ∧
    R (.shl u d a b) (x <<< (y.toNat % 64)) ∧ R (.shr u d a b) (x >>> (y.toNat % 64)) ∧
    R (.sra u d a b) (x.sshiftRight (y.toNat % 64)) ∧
    R (.seq u d a b) (if x = y then 1 else 0) ∧ R (.slt u d a b) (if x.toInt < y.toInt then 1 else 0) ∧
    R (.sltn u d a b) (if x.toNat < y.toNat then 1 else 0) ∧
    R (.min u d a b) (if x.toInt ≤ y.toInt then x else y) ∧ R (.max u d a b) (if x.toInt ≤ y.toInt then y else x) ∧
    (∀ sh : BitVec 2, R (.addsc u d a b sh) (x + (y <<< sh.toNat))) ∧
    ∀ c : SSrc, Readable s [a, b, c] →
      Results (.sel u d a b c) s [a, b, c] (sSlot u) 1 d (if srcAt s c ≠ 0 then x else y)) ∧
  -- R79, R80, R83: the immediate forms with latency 1, the constants, and the two counts.
  (∀ (s : State) (u : SSlot) (d : SDst) (a : SSrc) (i : BitVec 13), Readable s [a] →
    let x := srcAt s a
    let y : Word := i.signExtend 64
    let R := fun (j : Instr) (v : Word) => Results j s [a] (sSlot u) 1 d v
    R (.addi u d a i) (x + y) ∧ R (.andi u d a i) (x &&& y) ∧ R (.ori u d a i) (x ||| y) ∧ R (.xori u d a i) (x ^^^ y) ∧
    R (.slti u d a i) (if x.toInt < y.toInt then 1 else 0) ∧ R (.maxi u d a i) (if x.toInt ≤ y.toInt then y else x) ∧
    ((i.toNat ≤ 63) →
      R (.shli u d a i) (x <<< i.toNat) ∧ R (.shri u d a i) (x >>> i.toNat) ∧ R (.srai u d a i) (x.sshiftRight i.toNat)) ∧
    R (.clz u d a) (if x = 0 then 64 else BitVec.ofNat 64 (63 - Nat.log2 x.toNat)) ∧
    R (.popc u d a) (BitVec.ofNat 64 ((List.range 64).countP fun k => x.getLsbD k)))

/-- R83: MOVI and MOVHI use S.L; MOVI writes its sign-extended immediate; MOVHI shifts the register it names, read at issue, left by 19 and
puts its immediate below; MOVI and three MOVHI build any constant, and the bits of MOVI above bit 6 leave the register. -/
def Obligations.ConstantsAreBuilt : Prop :=
  (∀ (s : State) (u : SSlot) (i : BitVec 19),
    (∀ d : SDst, Results (.movi u d i) s [] (sSlot u) 1 d (i.signExtend 64) ∧
      decSyl 0 (sSlot u) (BitVec.ofNat 32 (0x16 * 2 ^ 26 + dstCode d * 2 ^ 20 + dstW d * 2 ^ 19 + i.toNat)) = .ok (.movi u d i)) ∧
    ∀ d : RDst, Results (.movhi u d i) s [] (sSlot u) 1 (destOf d) ((oldOf s d <<< 19) ||| i.zeroExtend 64) ∧
      decSyl 0 (sSlot u) (BitVec.ofNat 32 (0x17 * 2 ^ 26 + rdstCode d * 2 ^ 20 + rdstW d * 2 ^ 19 + i.toNat)) = .ok (.movhi u d i)) ∧
  (let h := fun (x : Word) (i : BitVec 19) => (x <<< 19) ||| i.zeroExtend 64;
    (∀ v : Word, ∃ i j k l : BitVec 19, h (h (h (i.signExtend 64) j) k) l = v) ∧
    ∀ i i' j k l : BitVec 19, i.toNat % 128 = i'.toNat % 128 →
      h (h (h (i.signExtend 64) j) k) l = h (h (h (i'.signExtend 64) j) k) l)

/-- R82: BFX and BFI use S.R with the position in the B field and the length in the C field (0 for 64); a pair past bit 63 raises IMM_ILL;
their effects, bit by bit. -/
def Obligations.BitFieldsAreMoved : Prop :=
  ∀ (s : State) (u : SSlot) (a : SSrc) (pos len : BitVec 6),
    let n := if len = 0 then 64 else len.toNat
    let w := fun (op d wb : Nat) =>
      BitVec.ofNat 32 (op * 2 ^ 26 + d * 2 ^ 20 + wb * 2 ^ 19 + srcCode a * 2 ^ 13 + pos.toNat * 2 ^ 7 + len.toNat * 2)
    (∀ d : SDst, decSyl 0 (sSlot u) (w 0x1A (dstCode d) (dstW d)) = if pos.toNat + n ≤ 64 then .ok (.bfx u d a pos len) else .error 0x18) ∧
    (∀ d : RDst, decSyl 0 (sSlot u) (w 0x1B (rdstCode d) (rdstW d)) = if pos.toNat + n ≤ 64 then .ok (.bfi u d a pos len) else .error 0x18) ∧
    (Readable s [a] → pos.toNat + n ≤ 64 →
      (∀ d : SDst, ∃ v : Word, Results (.bfx u d a pos len) s [a] (sSlot u) 1 d v ∧
        ∀ k < 64, v.getLsbD k = (decide (k < n) && (srcAt s a).getLsbD (pos.toNat + k))) ∧
      ∀ d : RDst, ∃ v : Word, Results (.bfi u d a pos len) s [a] (sSlot u) 1 (destOf d) v ∧
        ∀ k < 64, v.getLsbD k =
          if pos.toNat ≤ k ∧ k < pos.toNat + n then (srcAt s a).getLsbD (k - pos.toNat) else (oldOf s d).getLsbD k)

/-- R79, R81, R63: products and quotients, with the latencies of both versions; no operand faults. -/
def Obligations.ProductsAndQuotients : Prop :=
  ∀ (s : State) (u : SSlot) (d : SDst) (a b : SSrc), Readable s [a, b] →
    let x := srcAt s a
    let y := srcAt s b
    let R := fun (i : Instr) (l : List SSrc) (ln lc : Nat) (v : Word) =>
      Does i s (reserved (popped s l) d) [sends s (sSlot u) (latencyOf s ln lc) d v] (slower (cc s).grp (ln - lc))
    R (.mul u d a b) [a, b] 3 2 (x * y) ∧
    R (.mulh u d a b) [a, b] 3 2 (BitVec.ofInt 64 (x.toInt * y.toInt / 2 ^ 64)) ∧
    R (.mulhn u d a b) [a, b] 3 2 (BitVec.ofNat 64 (x.toNat * y.toNat / 2 ^ 64)) ∧
    R (.div u d a b) [a, b] 18 20 (if y = 0 then BitVec.allOnes 64 else x.sdiv y) ∧
    R (.divn u d a b) [a, b] 18 20 (if y = 0 then BitVec.allOnes 64 else BitVec.ofNat 64 (x.toNat / y.toNat)) ∧
    R (.rem u d a b) [a, b] 18 20 (if y = 0 then x else x.srem y) ∧
    R (.remn u d a b) [a, b] 18 20 (if y = 0 then x else BitVec.ofNat 64 (x.toNat % y.toNat)) ∧
    ∀ i : BitVec 13, Readable s [a] → R (.muli u d a i) [a] 3 2 (x * i.signExtend 64)

/-- GETC and SETC; RUN, WAITF, STEP, FENCE, TRAP and HALT at issue. -/
def Obligations.ControlRegistersWaitsAndHalts : Prop :=
  -- R84 to R86: GETC sends the register as it stands at issue; SETC sends its value to the register, unless it is one of the two cases of
  -- R86 detected at execution, and then it notes the cause and writes nothing.
  (∀ (s : State) (u : SSlot) (a : SSrc) (c : BitVec 12),
    (ctlDefined c = true → ∀ d : SDst, Results (.getc u d c) s [] (sSlot u) 2 d (ctlRead s s.cur (cn s) c.toNat)) ∧
    (ctlDefined c = true → ctlWritable c = true → Readable s [a] →
      let i := c.toNat
      let v := srcAt s a
      let x := popped s [a]
      let tg := 0x20 ≤ i ∧ i ≤ 0x27
      if tg ∧ (cs s).hasA = false then Does (.setc u a c) s (causes s x 2 Cause.claimAbsent (sSlot u) 0 0) [] (cc s).grp
      else if (tg ∧ tgLegal v = false) ∨ (i = 0x40 ∧ bits v 1 0 = 3) then
        Does (.setc u a c) s (causes s x 2 ctlValue (sSlot u) 0 0) [] (cc s).grp
      else Does (.setc u a c) s x [lands s (sSlot u) 2 (.ctl i v)] (cc s).grp)) ∧
  -- R92, R93, R96, R98, R102, R103, R105, R109: what the other B-class syllables note; each acts once the group has issued.
  (∀ (s : State) (a b : SSrc),
    let g := (cc s).grp
    let x := srcAt s a
    (Readable s [a] → Does (.run a) s { popped s [a] with runExt := some x.toNat } [] g) ∧
    (Readable s [a, b] → ∀ (e : BitVec 4) (c : WCnd), Accessible s e true false 8 x.toNat 8 →
      let ps := placesOf s e x.toNat 8
      let y := srcAt s b
      let v : Word := BitVec.ofNat 64 (leNat (spadGet (cc s) ps))
      let holds : Prop := match c with | .eq => v = y | .ne => v ≠ y | .geu => y.toNat ≤ v.toNat | .any => v &&& y ≠ 0
      (holds → Does (.waitf a b e c) s (popped s [a, b]) [] (banked g ps)) ∧
      (¬ holds → Does (.waitf a b e c) s (popped s [a, b]) [] { banked g ps with park := some (.word ps y c) })) ∧
    (Readable s [a, b] → ∀ (e : BitVec 4) (c : WCnd), FailsAccess (.waitf a b e c) s (popped s [a, b]) 2 e true false 8 x.toNat 8) ∧
    (∀ l : Fin 5, (l.val ≤ bits (cs s).dmem 34 32 → Does (.step l) s (cs s) [] { g with park := some (.step l.val (cc s).ct) }) ∧
      (bits (cs s).dmem 34 32 < l.val → Does (.step l) s (causes s (cs s) 2 Cause.stepLevel 2 0 0) [] g)) ∧
    (∀ (xp : Bool) (l : Fin 5), Does (.fence xp l) s (cs s) [] { g with waits := g.waits ++ [.fence xp l.val] }) ∧
    (Readable s [a] → ∀ n : BitVec 4, Does (.trap a n) s (causes s (popped s [a]) 2 (0x30 + n.toNat) 2 x 0) [] g) ∧
    (Readable s [a] → Does (.halt a) s (popped s [a]) [] { g with halt := some (x.setWidth 32) }))

/-! ### The B class -/

/-- Branches, calls and LOOP: the target, the link, and where and when the seat goes on. -/
def Obligations.BranchesGoToTheirTarget : Prop :=
  -- R87, R88, R90: where the branches of Table 4-2 and LOOP go, and what they write.
  (∀ (s : State) (a b : SSrc),
    let g := (cc s).grp
    (∀ o : BitVec 26, Does (.br o) s (cs s) [] (jumps g (targetOf s o))) ∧
    (Readable s [a] → ∀ o : BitVec 18,
      let x := srcAt s a
      let B := fun (c : BCnd) (p : Prop) => (p → Does (.brc a c o) s (popped s [a]) [] (jumps g (targetOf s o))) ∧
        (¬ p → Does (.brc a c o) s (popped s [a]) [] g)
      B .eqz (x = 0) ∧ B .nez (x ≠ 0) ∧ B .ltz (x.toInt < 0) ∧ B .gez (0 ≤ x.toInt)) ∧
    (∀ (d : Fin 56) (o : BitVec 20),
      Does (.call d o) s (cs s) [sends s 2 1 (.reg d) (BitVec.ofNat 64 g.next)] (jumps g (targetOf s o))) ∧
    (Readable s [a] → Does (.ret a) s (popped s [a]) [] (jumps g (srcAt s a))) ∧
    (Readable s [a, b] → ∀ i : BitVec 14,
      Does (.jr a b i) s (popped s [a, b]) [] (jumps g (srcAt s a + srcAt s b + (i.signExtend 64 <<< 2)))) ∧
    (∀ (r : Fin 56) (o : BitVec 20), r.val ≠ 0 →
      let n := tget 0 (cs s).a r.val - 1
      Does (.loop r o) s (cs s) [sends s 2 1 (.reg r) n]
        (if n ≠ 0 then { g with branch := some (targetOf s o).toNat } else g)) ∧
    ∀ (r : BitVec 6) (o : BitVec 20),
      let w := BitVec.ofNat 32 (0x05 * 2 ^ 26 + r.toNat * 2 ^ 20 + o.toNat)
      if h : 1 ≤ r.toNat ∧ r.toNat < 56 then decSyl 0 2 w = .ok (.loop ⟨r.toNat, h.2⟩ o) else ∃ c, decSyl 0 2 w = .error c) ∧
  -- R24, R60, R61, R63, R87, R92: closing a group that meets no cause, no halt and no yield: the seat goes on at the target of its branch
  -- or behind the group, after the group's gap (two cycles at least for a taken branch) and its bank and version freezes.
  (∀ (s : State) (c n : Nat),
    let k := coreAt s c
    let g := k.grp
    let t := seatOf k n
    k.cur = some n → t.causes = [] → g.halt = none → g.yield = none →
    let s' := closeGroup s c
    let k' := coreAt s' c
    OnlyCore c s s' ∧ k'.cur = some n ∧ (seatOf k' n).pc = BitVec.ofNat 64 (g.branch.getD g.next) ∧
    k'.gap = (if g.taken then max 2 g.gap else g.gap) ∧ k'.hold = k.hold + bankExcess g.banks + g.v1hold ∧ k'.waits = g.waits ∧
    k'.choose = false ∧ (∀ m, m ≠ n → seatOf k' m = seatOf k m) ∧ k'.effs = k.effs ∧
    seatOf k' n = { t with pc := BitVec.ofNat 64 (g.branch.getD g.next), lastGrp := g.addr })

/-! ### The M class -/

/-- LD, LDN and ST: bytes read and written; the extent checks in order, and what a failed one does. -/
def Obligations.LoadsAndStores : Prop :=
  -- R106 to R108, R63: LD and LDN send the bytes at their offset, low byte first, extended; ST puts its bytes in flight, which commit at
  -- issue + 4 (3 under V = 1).
  (∀ (s : State) (u : MSlot) (e : BitVec 4) (a b : SSrc) (z : BitVec 2) (i : BitVec 7),
    let n := 2 ^ z.toNat
    let off := (srcAt s b + i.signExtend 64 * BitVec.ofNat 64 n).toNat
    let ps := placesOf s e off n
    let v := leNat (spadGet (cc s) ps)
    let g := slower (banked (cc s).grp ps) 1
    (Readable s [b] → Accessible s e true false n off n → ∀ d : SDst,
      Does (.ld u d e b z i) s (reserved (popped s [b]) d)
        [sends s (mSlot u) (latencyOf s 4 3) d ((BitVec.ofNat (8 * n) v).signExtend 64)] g ∧
      Does (.ldn u d e b z i) s (reserved (popped s [b]) d) [sends s (mSlot u) (latencyOf s 4 3) d (BitVec.ofNat 64 v)] g) ∧
    (Readable s [a, b] → Accessible s e false true n off n →
      Does (.st u a e b z i) s (popped s [a, b])
        [lands s (mSlot u) (latencyOf s 4 3) (.store (ps.zip (natBytes n (srcAt s a).toNat)))] g)) ∧
  -- R105, R109: a load or a store that fails the extent check notes the cause with its offset and extent, and moves nothing; so does a load
  -- of a byte that holds an uncorrectable error.
  (∀ (s : State) (u : MSlot) (e : BitVec 4) (a b : SSrc) (z : BitVec 2) (i : BitVec 7) (d : SDst),
    let n := 2 ^ z.toNat
    let off := (srcAt s b + i.signExtend 64 * BitVec.ofNat 64 n).toNat
    (Readable s [b] → FailsAccess (.ld u d e b z i) s (popped s [b]) (mSlot u) e true false n off n ∧
      FailsAccess (.ldn u d e b z i) s (popped s [b]) (mSlot u) e true false n off n) ∧
    (Readable s [a, b] → FailsAccess (.st u a e b z i) s (popped s [a, b]) (mSlot u) e false true n off n)) ∧
  -- Table 5-1: the order of the extent checks and what each one finds.
  (∀ (x : Ext) (tiers : List Nat) (rd wr : Bool) (align off n : Nat),
    let r := extCheck x tiers rd wr align off n
    (x.v = false → r = some 0x40) ∧
    (x.v = true → x.tier ∉ tiers → r = some 0x44) ∧
    (x.v = true → x.tier ∈ tiers → x.rv = true → r = some 0x45) ∧
    (x.v = true → x.tier ∈ tiers → x.rv = false → x.dm = true → r = some 0x46) ∧
    (x.v = true → x.tier ∈ tiers → x.rv = false → x.dm = false →
      (rd = true → x.rd = false → r = some 0x42) ∧
      ((rd = false ∨ x.rd = true) → wr = true → x.w = false → r = some 0x43) ∧
      ((rd = false ∨ x.rd = true) → (wr = false ∨ x.w = true) →
        (off % align ≠ 0 → r = some 0x47) ∧
        (off % align = 0 → x.len * 64 < off + n → r = some 0x41) ∧
        (off % align = 0 → off + n ≤ x.len * 64 → r = none))))

/-- AMO and CAS: what they put in flight, where a failed check stops them, and the new word of each operation. -/
def Obligations.Atomics : Prop :=
  -- R110, R111: AMO and CAS put one read-modify-write in flight, at issue + 4, whose old value lands at issue + 12.
  (∀ (s : State) (u : MSlot) (e : BitVec 4) (a b : SSrc), Readable s [b, a] →
    let off := (srcAt s b).toNat
    Accessible s e true true 8 off 8 →
    let ps := placesOf s e off 8
    let g := banked (cc s).grp ps
    (∀ (d : SDst) (o : AOp), Does (.amo u d e b a o) s (reserved (popped s [b, a]) d)
      [lands s (mSlot u) 4 (.atomic ps (aopCode o) (srcAt s a) 0 (dstTo d) (latchOf (mSlot u)))] g) ∧
    ∀ d : RDst, Does (.cas u d e b a) s (popped s [b, a])
      [lands s (mSlot u) 4 (.atomic ps 8 (srcAt s a) (oldOf s d) (dstTo (destOf d)) (latchOf (mSlot u)))] g) ∧
  -- R105, R109: one whose extent fails a check, or whose word holds an uncorrectable error, notes that cause and does nothing (that the error is
  -- looked for at issue is log 30).
  (∀ (s : State) (u : MSlot) (e : BitVec 4) (a b : SSrc), Readable s [b, a] →
    (∀ (d : SDst) (o : AOp), FailsAccess (.amo u d e b a o) s (popped s [b, a]) (mSlot u) e true true 8 (srcAt s b).toNat 8) ∧
    ∀ d : RDst, FailsAccess (.cas u d e b a) s (popped s [b, a]) (mSlot u) e true true 8 (srcAt s b).toNat 8) ∧
  -- R110: the new word of each atomic operation on 64 bits; 8 is CAS.
  (∀ x y z : Word,
    let f := fun (op : Nat) => BitVec.ofNat 64 (atomicNew 8 op x.toNat y.toNat z.toNat)
    f (aopCode .add) = x + y ∧ f (aopCode .and) = x &&& y ∧ f (aopCode .or) = x ||| y ∧ f (aopCode .xor) = x ^^^ y ∧
    f (aopCode .swap) = y ∧ f (aopCode .min) = (if y.toInt < x.toInt then y else x) ∧
    f (aopCode .max) = (if x.toInt < y.toInt then y else x) ∧ f (aopCode .maxn) = (if x.toNat < y.toNat then y else x) ∧
    f 8 = (if x = z then y else x))

/-- The tag table, the transaction barriers and the binding slots. -/
def Obligations.TagsBarriersAndBindings : Prop :=
  -- R112, R113: LKUP finds the entry of the task's tenant with its key; TAGSET writes it, TAGDROP removes it, both at issue.
  (∀ (s : State) (u : MSlot) (d : SDst) (a b : SSrc),
    let key := srcAt s a
    let tags := (cc s).tags
    let mine := fun (t : TagEnt) => t.tenant = taskTenant (cs s).task ∧ t.key = key
    let found : Word := match tags.find? fun t => decide (mine t) with | some t => t.val.setWidth 64 | none => 0x8000000000000000
    let x := fun l => reserved (popped s l) d
    (Readable s [a] → Does (.lkup u d a) s (x [a]) [sends s (mSlot u) 6 d found] (cc s).grp) ∧
    (Readable s [a] → DoesOn (.tagdrop u d a) s (withTags s (tags.filter fun t => ¬ mine t)) (x [a])
      [sends s (mSlot u) 4 d found] (cc s).grp) ∧
    (Readable s [a, b] →
      let v := (srcAt s b).setWidth 63
      let put := fun (l : List TagEnt) (r : Word) =>
        DoesOn (.tagset u d a b) s (withTags s l) (x [a, b]) [sends s (mSlot u) 4 d r] (cc s).grp
      ((∃ t ∈ tags, mine t) → put (tags.map fun t => if mine t then { t with val := v } else t) 1) ∧
      ((∀ t ∈ tags, ¬ mine t) → tags.length < 256 → put (tags ++ [⟨taskTenant (cs s).task, key, v⟩]) 0) ∧
      ((∀ t ∈ tags, ¬ mine t) → 256 ≤ tags.length → put tags 2))) ∧
  -- R114, R115: what BARI, BARA and BARX make of a barrier; BARW asks for a freeze and changes nothing.
  (∀ (s : State) (u : MSlot) (b : SSrc) (n : Fin 8),
    let o := barOf (cs s) n.val
    let v := (srcAt s b).toNat
    let x := popped s [b]
    let top := 2 ^ 40 - 1
    let g := (cc s).grp
    (Readable s [b] → Does (.bari u b n) s (barPut x n.val ⟨min v top, 0⟩) [] g) ∧
    (Readable s [b] → Does (.bara u b n) s (barPut x n.val ⟨min (o.expect + v) top, o.count⟩) [] g) ∧
    Does (.barw u n) s (cs s) [] { g with waits := g.waits ++ [.barw n.val] } ∧
    (Readable s [b] → ∀ d : SDst, ∃ (x' : Seat) (w : Word), Does (.barx u d b n) s (reserved x' d) [sends s (mSlot u) 1 d w] g ∧
      (o.count < 2 ^ 40 → bits w 39 0 = o.count) ∧
      (o.expect ≤ o.count → x' = barPut x n.val ⟨min v top, o.count - o.expect⟩ ∧ (o.count < 2 ^ 40 → bits w 63 40 = 2 ^ 23)) ∧
      (o.count < o.expect → x' = x ∧ (o.count < 2 ^ 40 → bits w 63 40 = 0)))) ∧
  -- R117: BIND checks its range, then adds a binding, leaves a held one, or with length zero removes those of the object.
  (∀ (s : State) (u : MSlot) (e : BitVec 4) (a b : SSrc) (o : BitVec 4), Readable s [a, b] →
    let x := popped s [a, b]
    let q := extOf (cs s) e.toNat
    let off := (srcAt s a).toNat
    let len := (srcAt s b).toNat
    let new : Bind := ⟨e.toNat, off, len, o.toNat⟩
    let D := fun (y : Seat) => Does (.bind u e a b o) s y [] (cc s).grp
    let no := fun (c : Nat) => D (causes s x 2 c (mSlot u) (BitVec.ofNat 64 off) (BitVec.ofNat 64 e.toNat))
    (q.v = false → no 0x40) ∧ (q.v = true → q.rv = true → no 0x45) ∧
    (q.v = true → q.rv = false → q.dm = true → no 0x46) ∧
    (q.v = true → q.rv = false → q.dm = false →
      (¬ (64 ∣ off ∧ 64 ∣ len) → no 0x47) ∧
      (64 ∣ off → 64 ∣ len → q.len * 64 < off + len → no 0x41) ∧
      (64 ∣ off → 64 ∣ len → off + len ≤ q.len * 64 →
        (len = 0 → D { x with binds := x.binds.filter fun y => ¬ (y.ext = e.toNat ∧ y.obj = o.toNat) }) ∧
        (len ≠ 0 → new ∈ x.binds → D x) ∧
        (len ≠ 0 → new ∉ x.binds → x.binds.length < 16 → D { x with binds := x.binds ++ [new] }) ∧
        (len ≠ 0 → new ∉ x.binds → 16 ≤ x.binds.length → no Cause.bindFull))))

/-- ACQ and REL; RLD, RST and RAMO compose their requests; PINSET and PINDROP. -/
def Obligations.AcquiresRemoteRequestsAndPins : Prop :=
  -- R118, R119, R120: ACQ and REL of a defined object whose sync word they may reach ask for a freeze; an undefined object and a failed
  -- check stop the task.
  (∀ (s : State) (u : MSlot) (o : BitVec 4),
    let g := (cc s).grp
    -- R24: an access of a sync word in the task's own scratchpad counts for its banks.
    let rec_ := fun (y : SyncObj) => if (extOf (cs s) y.ext).tier = 0 then banked g (spadPlaces (extOf (cs s) y.ext) y.off 8) else g
    let all := [0, 1, 2, 3, 4, 5]
    (∀ d : SDst,
      let D := fun x g => Does (.acq u d o) s x [] g
      (tfind (cs s).objs o.toNat = none → D (causes s (cs s) 2 Cause.syncUndef (mSlot u) 0 0) g) ∧
      ∀ y, tfind (cs s).objs o.toNat = some y →
        (extCheck (extOf (cs s) y.ext) all true false 8 y.off 8 = none →
          D (reserved (cs s) d)
            { rec_ y with waits := g.waits ++ [.acq o.toNat (dstTo d) (latchOf (mSlot u)) (mSlot u) (bundleNo s) none] }) ∧
        ∀ c, extCheck (extOf (cs s) y.ext) all true false 8 y.off 8 = some c →
          D (causes s (cs s) 2 c (mSlot u) (BitVec.ofNat 64 y.off) (BitVec.ofNat 64 y.ext)) g) ∧
    ∀ (b : SSrc) (add : Bool), Readable s [b] →
      let x := popped s [b]
      let D := fun x g => Does (.rel u b add o) s x [] g
      (tfind (cs s).objs o.toNat = none → D (causes s x 2 Cause.syncUndef (mSlot u) 0 0) g) ∧
      ∀ y, tfind (cs s).objs o.toNat = some y →
        (extCheck (extOf (cs s) y.ext) all add true 8 y.off 8 = none →
          D x { rec_ y with waits := g.waits ++ [.rel o.toNat add (srcAt s b) (mSlot u) g.binds none] }) ∧
        ∀ c, extCheck (extOf (cs s) y.ext) all add true 8 y.off 8 = some c →
          D (causes s x 2 c (mSlot u) (BitVec.ofNat 64 y.off) (BitVec.ofNat 64 y.ext)) g) ∧
  -- R121, R122, R131 and Table 5-4: RLD, RST and RAMO whose extent admits them reserve an entry of `fi` (a plain store's entry holds no
  -- value) and push their words to `fo`; the header holds what the instruction names.
  (∀ (s : State) (u : MSlot) (e : BitVec 4) (a b : SSrc) (cp : BitVec 2) (hint : Bool),
    let off := (srcAt s a).toNat
    let id := (cs s).resvNext
    let carry : Word := (if cp.getLsbD 1 then (cs s).carry1 else 0) ++ (if cp.getLsbD 0 then (cs s).carry0 else 0)
    let pins := if cp = 0 then [] else [carry]
    let pushed := fun (i : Instr) (l : List SSrc) (quiet : Bool) (h : Word) (r : List Word) =>
      Does i s { popped s l with resvNext := id + 1, fiRes := (cs s).fiRes ++ [⟨id, quiet, none⟩],
                                 foRes := (cs s).foRes + (1 + r.length) }
        [lands s (mSlot u) 1 (.fo (⟨id, true, h, 0⟩ :: r.map fun w => ⟨0, false, w, 0⟩))] (cc s).grp
    let head := fun (h : Word) (kind sz : Nat) (pq : Bool) (cp : Nat) (op : Nat) =>
      bits h 63 60 = kind ∧ bits h 59 56 = e.toNat ∧ bits h 55 54 = sz ∧ bitAt h 53 = pq ∧ bits h 52 51 = cp ∧ bitAt h 50 = hint ∧
      bits h 49 46 = op ∧ bits h 45 40 = 0 ∧ bits h 39 0 = off % 2 ^ 40
    let ok := fun (tiers : List Nat) (rd wr : Bool) (n : Nat) => extCheck (extOf (cs s) e.toNat) tiers rd wr n off n = none
    (∀ sz : BitVec 2, Readable s [a] → ok [1, 2, 3, 4, 5] true false (2 ^ sz.toNat) →
      ∃ h, head h 0 sz.toNat false 0 0 ∧ pushed (.rld u e sz a hint) [a] false h []) ∧
    (∀ (sz : BitVec 2) (q : Bool), Readable s [a, b] → ok [1, 2, 3, 4, 5] false true (2 ^ sz.toNat) →
      ∃ h, head h 1 sz.toNat q cp.toNat 0 ∧ pushed (.rst u e sz q a b cp hint) [a, b] (!q) h (pins ++ [srcAt s b])) ∧
    ∀ (dbl : Bool) (o : AOp), Readable s [a, b] → ok [1, 2, 3] true true (if dbl then 8 else 4) →
      ∃ h, head h 2 (if dbl then 3 else 2) false cp.toNat (aopCode o) ∧
        pushed (.ramo u e dbl a b cp hint o) [a, b] false h (pins ++ [srcAt s b])) ∧
  -- R105, R122: one whose extent fails a check reserves nothing, pushes nothing, and notes the cause.
  (∀ (s : State) (u : MSlot) (e : BitVec 4) (a b : SSrc) (cp : BitVec 2) (hint : Bool),
    let off := (srcAt s a).toNat
    (Readable s [a] → ∀ z : BitVec 2,
      FailsCheck (.rld u e z a hint) s (popped s [a]) (mSlot u) e [1, 2, 3, 4, 5] true false (2 ^ z.toNat) off (2 ^ z.toNat)) ∧
    (Readable s [a, b] → ∀ (z : BitVec 2) (q : Bool),
      FailsCheck (.rst u e z q a b cp hint) s (popped s [a, b]) (mSlot u) e [1, 2, 3, 4, 5] false true (2 ^ z.toNat) off (2 ^ z.toNat)) ∧
    (Readable s [a, b] → ∀ (w : Bool) (o : AOp),
      let n := if w then 8 else 4
      FailsCheck (.ramo u e w a b cp hint o) s (popped s [a, b]) (mSlot u) e [1, 2, 3] true true n off n)) ∧
  -- R131: PINSET sends the low half of its source to a carry slot; PINDROP pushes a drop request, and no entry of `fi`.
  (∀ (s : State) (u : MSlot) (a : SSrc), Readable s [a] →
    (∀ k : Bool, Does (.pinset u a k) s (popped s [a]) [lands s (mSlot u) 1 (.carry k ((srcAt s a).setWidth 32))] (cc s).grp) ∧
    ∃ h, bits h 63 60 = 3 ∧ bits h 59 32 = 0 ∧ bits h 31 0 = bits (srcAt s a) 31 0 ∧
      Does (.pindrop u a) s { popped s [a] with foRes := (cs s).foRes + 1 } [lands s (mSlot u) 1 (.fo [⟨0, true, h, 0⟩])] (cc s).grp)

/-! ### The V and VM classes -/

/-- R132 to R140, R147: the lane-by-lane instructions read their sources, work on each active lane, and deliver the result after their
latency; what each does with a lane is `laneOp` of its element operation. -/
def Obligations.VectorInstructionsWorkLaneByLane : Prop :=
  ∀ (s : State) (k p : Fin 8) (d : VDst) (a b : VSrc) (t : Ty) (i : BitVec 8),
    let m := activeAt s k p
    let va := fun j => lane (vsrcAt s k a) j
    let vb := fun j => lane (vsrcAt s k b) j
    let R := fun (j : Instr) (l : List VSrc) (lat : Nat) (g : Grp) (f : Nat → W32 × Flags) =>
      ∃ data fl, lanesAre data fl m f ∧ VResults j s (vpopped s k l) k (vaSlot k) lat d m data fl false g
    let two := fun (j : Instr) (lat : Nat) (f : W32 → W32 → W32 × Flags) => R j [a, b] lat (cc s).grp fun n => f (va n) (vb n)
    let imm := fun (j : Instr) (lat e : Nat) (f : ElemOp) => R j [a] lat (cc s).grp fun n => laneOp f t (va n) (splat t e)
    (∀ q, two (.vadd k d a b p t q) 2 (laneOp (addElem q) t) ∧ two (.vsub k d a b p t q) 2 (laneOp (subElem q) t)) ∧
    (∀ q, two (.vmul k d a b p t q) 3 (laneOp (mulElem q) t)) ∧
    two (.vmin k d a b p t) 2 (laneOp minElem t) ∧ two (.vmax k d a b p t) 2 (laneOp maxElem t) ∧
    two (.vand k d a b p t) 2 (fun x y => (x &&& y, 0)) ∧ two (.vor k d a b p t) 2 (fun x y => (x ||| y, 0)) ∧
    two (.vxor k d a b p t) 2 (fun x y => (x ^^^ y, 0)) ∧
    two (.vshl k d a b p t) 2 (laneOp shlElem t) ∧ two (.vshr k d a b p t) 2 (laneOp shrElem t) ∧
    imm (.vaddi k d a p t i) 2 (immElem t i) (addElem false) ∧ imm (.vmuli k d a p t i) 3 (immElem t i) (mulElem .lo) ∧
    imm (.vshli k d a p t i) 2 i.toNat shlElem ∧ imm (.vshri k d a p t i) 2 i.toNat shrElem ∧
    R (.vrcp k d a p) [a] (latencyOf s 6 5) (slower (cc s).grp 1) (fun n => vrcp32 (va n)) ∧
    R (.vrsq k d a p) [a] (latencyOf s 6 5) (slower (cc s).grp 1) (fun n => vrsq32 (va n)) ∧
    R (.vexp2 k d a p) [a] 8 (cc s).grp (fun n => vexp232 (va n)) ∧ R (.vlog2 k d a p) [a] 8 (cc s).grp (fun n => vlog232 (va n))

/-- The elements of the lane-by-lane instructions. -/
def Obligations.ElementsOfALane : Prop :=
  -- R132, R137, R138, Table 6-1: integer elements; SAT is raised exactly where a value is clamped.
  (∀ (t : Ty) (x y : W32), t.isFloat = false →
    let n := t.bits
    let v := elemInt t
    let r := elemRange t
    let is := fun (f : ElemOp) (q : Nat → Nat → Nat → Prop) => eachElement t (laneOp f t x y).1 x y q
    let quiet := fun (f : ElemOp) => (laneOp f t x y).2 = 0
    let clamp := fun (i : Int) => max r.1 (min r.2 i)
    let clamped := fun (f : ElemOp) (o : Int → Int → Int) =>
      is f (fun c a b => v c = clamp (o (v a) (v b))) ∧
      ((laneOp f t x y).2 = 0 ∨ (laneOp f t x y).2 = fSAT) ∧
      ((laneOp f t x y).2 = 0 ↔ is f fun c a b => v c = o (v a) (v b))
    (is (addElem false) (fun c a b => c = (a + b) % 2 ^ n) ∧ quiet (addElem false)) ∧
    (is (subElem false) (fun c a b => c = (a + (2 ^ n - b)) % 2 ^ n) ∧ quiet (subElem false)) ∧
    (is (mulElem .lo) (fun c a b => c = a * b % 2 ^ n) ∧ quiet (mulElem .lo)) ∧
    (is (mulElem .hi) (fun c a b => v c = v a * v b / 2 ^ n) ∧ quiet (mulElem .hi)) ∧
    clamped (addElem true) (· + ·) ∧ clamped (subElem true) (· - ·) ∧ clamped (mulElem .sat) (· * ·) ∧
    (is minElem (fun c a b => v c = min (v a) (v b)) ∧ quiet minElem) ∧
    (is maxElem (fun c a b => v c = max (v a) (v b)) ∧ quiet maxElem) ∧
    (is shlElem (fun c a b => c = a * 2 ^ (b % n) % 2 ^ n) ∧ quiet shlElem) ∧
    (is shrElem (fun c a b => v c = v a / 2 ^ (b % n)) ∧ quiet shrElem)) ∧
  -- R31 to R33, R136, R137, R139: floating-point elements: the exact result rounded once to the element's format, every NaN canonical, with the
  -- flags of IEEE 754; VMIN and VMAX give one of their operands.
  (∀ (t : Ty) (a b c : Nat) (o : BitVec 2), t.isFloat = true → a < 2 ^ t.bits → b < 2 ^ t.bits → c < 2 ^ t.bits →
    let A := elemVal t a
    let B := elemVal t b
    let least := fun (r : Nat × Flags) (pick : Prop) =>
      (A.isNan = true → B.isNan = true → r = (elemNan t, sigFlags [A, B])) ∧ (A.isNan = true → B.isNan = false → r = (b, sigFlags [A])) ∧
      (A.isNan = false → B.isNan = true → r = (a, sigFlags [B])) ∧
      (A.isNan = false → B.isNan = false → r.2 = 0 ∧ (pick → r.1 = b) ∧ (¬ pick → r.1 = a))
    isSum t A B (addElem false t a b) ∧ isSum t A B.negate (subElem false t a b) ∧ isProduct t A B (mulElem .lo t a b) ∧
    least (minElem t a b) (fvBelow B A) ∧ least (maxElem t a b) (fvBelow A B) ∧
    let D := if o.getLsbD 0 then (elemVal t c).negate else elemVal t c
    let pn := (A.neg? != B.neg?) != o.getLsbD 1
    let r := fmaElem o t a b c
    let bad := (A.isInf = true ∧ B.isZero = true) ∨ (A.isZero = true ∧ B.isInf = true)
    let nans := A.isNan = true ∨ B.isNan = true ∨ D.isNan = true
    (bad → r = (elemNan t, fNV)) ∧ (¬ bad → nans → r = (elemNan t, sigFlags [A, B, D])) ∧
    (¬ bad → ¬ nans →
      (A.isInf = true ∨ B.isInf = true → isSum t (.inf pn) D r) ∧
      (A.isInf = false → B.isInf = false → D.isInf = true → elemVal t r.1 = D ∧ r.2 = 0) ∧
      (A.isInf = false → B.isInf = false → D.isInf = false →
        let x := (if o.getLsbD 1 then -1 else 1) * (fvRat A * fvRat B) + fvRat D
        rounded (elemFmt t).target .rne x (if x = 0 then pn && D.neg? else decide (x < 0)) (elemVal t r.1) r.2))) ∧
  -- R132: a lane of a 32-bit type is one element; a packed one is its two elements, and its flags are those of both.
  (∀ (f : ElemOp) (t : Ty) (x y : W32), t.is32 = true → let r := f t x.toNat y.toNat; laneOp f t x y = (BitVec.ofNat 32 r.1, r.2)) ∧
  (∀ (f : ElemOp) (t : Ty) (x y : W32), t.is32 = false →
    let lo := f t (x.toNat % 2 ^ 16) (y.toNat % 2 ^ 16)
    let hi := f t (x.toNat / 2 ^ 16) (y.toNat / 2 ^ 16)
    lo.1 < 2 ^ 16 → hi.1 < 2 ^ 16 →
    (laneOp f t x y).2 = lo.2 ||| hi.2 ∧ (laneOp f t x y).1.toNat % 2 ^ 16 = lo.1 ∧ (laneOp f t x y).1.toNat / 2 ^ 16 = hi.1)

/-- VFMA, VSEL, VRED, VPERM, VBCST, VIOTA; VCMP and VPSET; VCVT, the approximations, VWEL and VWMG.  That a signalling binary16 or BF16 NaN raises NV
when it is widened, and that a tie between the two numbers of a format with one significant bit goes to the greater, are log 20. -/
def Obligations.SelectsPredicatesAndConversions : Prop :=
  -- R139, R143, R150, R151: VFMA, VSEL, VRED, VPERM, VBCST and VIOTA, lane by lane; VSEL writes every lane, VRED gives every active lane
  -- one value.
  (∀ (s : State) (k p : Fin 8) (d : VDst) (a b : VSrc) (t : Ty),
    let m := activeAt s k p
    let va := fun j => lane (vsrcAt s k a) j
    let vb := fun j => lane (vsrcAt s k b) j
    let R := fun (j : Instr) (l : List VSrc) (d : VDst) (lat : Nat) (g : Grp) (m' : BitVec 16) (f : Nat → W32 × Flags) =>
      ∃ data fl, lanesAre data fl m' f ∧ VResults j s (vpopped s k l) k (vaSlot k) lat d m' data fl false g
    R (.vsel k d a b p t) [a, b] d 2 (cc s).grp 0xFFFF (fun n => (if m.getLsbD n then va n else vb n, 0)) ∧
    R (.vperm k d a b p) [a, b] d 3 (cc s).grp m (fun n => (va ((vb n).toNat % 16), 0)) ∧
    (∀ l : BitVec 4, R (.vbcst k d a l p) [a] d 2 (cc s).grp m fun _ => (va l.toNat, 0)) ∧
    (∀ c, R (.viota k d p t c) [] d 2 (cc s).grp m fun n =>
      (BitVec.ofNat 32 (if c then (List.range n).countP fun j => m.getLsbD j else n), 0)) ∧
    (∀ (r : Fin 32) (o : BitVec 2), R (.vfma k r a b p t o) [a, b] (.reg r) (latencyOf s 4 5) (slower (cc s).grp 0) m
      fun n => fmaLane o t (va n) (vb n) (lane (vReg (cs s) k r) n)) ∧
    ∀ o : ROp, ∃ (w : W32) (fl : Flags),
      VResults (.vred k d a p t o) s (vpopped s k [a]) k (vaSlot k) 6 d m (ofLanes (List.replicate 16 w)) fl false (cc s).grp ∧
      let e := fun n => if m.getLsbD n then va n else redId o t
      let f := laneOp (redElem o) t
      let j := fun (x y : W32) => (f x y).1
      let q := fun n => j (j (e n) (e (n + 1))) (j (e (n + 2)) (e (n + 3)))
      w = j (j (q 0) (q 4)) (j (q 8) (q 12))) ∧
  -- R141, R142: VCMP writes the active lanes of its predicate (every lane with MOD 1, inactive ones zero); VPSET combines predicates.
  (∀ (s : State) (k d p : Fin 8) (a b : VSrc) (t : Ty) (x y : Fin 8),
    let m := activeAt s k p
    (∀ (c : VCnd) (z : Bool), ∃ (v : BitVec 16) (fl : Flags),
      Does (.vcmp k d c a b p t z) s (vpopped s k [a, b]) [raises s (vaSlot k) 2 (.pred k d (if z then 0xFFFF else m) v) fl] (cc s).grp ∧
      let f := fun n => cmpElem c t (lane (vsrcAt s k a) n) (lane (vsrcAt s k b) n)
      (∀ n < 16, v.getLsbD n = (m.getLsbD n && (f n).1)) ∧
      ∀ j : Fin 6, fl.getLsbD j = true ↔ ∃ n < 16, m.getLsbD n = true ∧ (f n).2.getLsbD j = true) ∧
    let px := pReg (cs s) k x
    let py := pReg (cs s) k y
    let S := fun (o : POp) (v : BitVec 16) => Does (.vpset k d o x y p) s (cs s) [lands s (vaSlot k) 2 (.pred k d m v)] (cc s).grp
    S .and (px &&& py) ∧ S .or (px ||| py) ∧ S .xor (px ^^^ py) ∧ S .andn (px &&& ~~~ py) ∧ S .not (~~~ px) ∧ S .set 0xFFFF ∧
    S .clear 0 ∧ ∃ v, S .first v ∧ ∀ n < 16, v.getLsbD n = (px.getLsbD n && decide (∀ j < n, px.getLsbD j = false))) ∧
  -- R144 to R146, R148, R149: VCVT widens lanes of a part of its source or narrows into the part of its destination that Q names; VWEL and
  -- VWMG send the three registers of a triple.
  (∀ (s : State) (k p : Fin 8) (a : VSrc),
    let m := activeAt s k p
    let v := vsrcAt s k a
    (∀ (d : VDst) (f : BitVec 6) (n q : BitVec 2),
      let w := cvtBytes f
      let r := rndMode (cs s).fpc n
      (∃ data fl, lanesAre data fl m (fun i => widen f r (vfield v (w * (16 * q.toNat + i)) w)) ∧
        VResults (.vcvt k d a f true n p q) s (vpopped s k [a]) k (vaSlot k) 3 d m data fl false (cc s).grp) ∧
      (w = 4 → ∃ data fl, lanesAre data fl m (fun i => let e := narrow f r (lane v i); (BitVec.ofNat 32 e.1, e.2)) ∧
        VResults (.vcvt k d a f false n p q) s (vpopped s k [a]) k (vaSlot k) 3 d m data fl false (cc s).grp) ∧
      (w ≠ 4 → w * (16 * q.toNat + 16) ≤ 64 → ∀ x : Fin 32, d = .reg x → ∃ (bm : BitVec 64) (data : Vec) (fl : Flags),
        Does (.vcvt k d a f false n p q) s (vpopped s k [a])
          [raises s (vaSlot k) 3 (.vbytes k x bm data (some (mergeBytes bm (vReg (vpopped s k [a]) k x) data)) false) fl] (cc s).grp ∧
        (∀ j < 64, bm.getLsbD j = (decide (w * (16 * q.toNat) ≤ j ∧ j < w * (16 * q.toNat + 16)) &&
          m.getLsbD (j / w - 16 * q.toNat))) ∧
        ∀ i < 16, m.getLsbD i = true → vfield data (w * (16 * q.toNat + i)) w = (narrow f r (lane v i)).1 % 2 ^ (8 * w))) ∧
    ∀ (d b : Fin 8),
      let r := fun (n i : Nat) => lane (vReg (cs s) k n) i
      let T := fun (i : Instr) (x : Seat) (lat : Nat) (f : Nat → (W32 × W32 × W32) × Flags) => ∃ (c mean q : Vec) (fl : Flags),
        Does i s x [raises s (vaSlot k) lat (.triple k (4 * d.val) m c mean q mean) fl] (cc s).grp ∧
        (∀ i < 16, lane c i = if m.getLsbD i then (f i).1.1 else 0) ∧
        (∀ i < 16, lane q i = if m.getLsbD i then (f i).1.2.2 else 0) ∧ lanesAre mean fl m fun i => ((f i).1.2.1, (f i).2)
      let n := 4 * d.val
      T (.vwel k d a p) (vpopped s k [a]) 14 (fun i => welLane (lane v i) (r n i) (r (n + 1) i) (r (n + 2) i)) ∧
      T (.vwmg k d b p) (cs s) 16 fun i =>
        wmgLane (r n i) (r (n + 1) i) (r (n + 2) i) (r (4 * b.val) i) (r (4 * b.val + 1) i) (r (4 * b.val + 2) i)) ∧
  -- R31, R34, R35: the number that a code of a format stands for.
  (∀ (t : Ty) (n : Nat), t.isFloat = true → n < 2 ^ t.bits →
    let f := elemFmt t
    let h := f.p - 1
    let e := n / 2 ^ h % (f.emax + 2)
    let fr := n % 2 ^ h
    let neg := n.testBit (t.bits - 1)
    let s : Rat := if neg then -1 else 1
    (e = f.emax + 1 → elemVal t n = if fr = 0 then .inf neg else .nan (decide (fr < 2 ^ (h - 1)))) ∧
    (0 < e → e ≤ f.emax → isNumber (elemVal t n) (s * 2 ^ ((e : Int) - f.bias) * (1 + (fr : Rat) / 2 ^ h)) neg) ∧
    (e = 0 → isNumber (elemVal t n) (s * 2 ^ (1 - (f.bias : Int)) * ((fr : Rat) / 2 ^ h)) neg)) ∧
  (∀ (f : BitVec 6) (b : Byte), isBinary8 f = true →
    let u := b8Uns f
    let t := b8P f - 1
    let k := if u then b.toNat else b.toNat % 128
    let s : Rat := if !u && b.msb then -1 else 1
    let e := k / 2 ^ t
    let fr : Rat := (k % 2 ^ t : Nat) / 2 ^ t
    let nan := if u then b = 0xFF else b = 0x80
    let top := if u then b8Ext f = true ∧ b = 0xFE else b8Ext f = true ∧ (b = 0x7F ∨ b = 0xFF)
    (nan → val8 f b = .qnan) ∧ (¬ nan → top → val8 f b = .inf (!u && b.msb)) ∧
    (¬ nan → ¬ top → isNumber (val8 f b) (if e = 0 then s * 2 ^ (1 - b8Bias f) * fr else s * 2 ^ ((e : Int) - b8Bias f) * (1 + fr)) false)) ∧
  -- R36, R38 to R41: the element into which VCVT narrows a lane, and the lane into which it widens an element.
  (∀ (f : BitVec 6) (m : RMode) (x : W32),
    let X := val32 x
    let r := narrow f m x
    let neg := match X with | .inf n => n | .fin n k _ => n && decide (k ≠ 0) | .nan _ => false
    let into := fun (t : Target) (z : FV) (nan : Nat) (sign : Bool) =>
      (X.isNan = true → r = (nan, sigFlags [X])) ∧
      (∀ n, X = .inf n → match m with
        | .srne => isNumber z (let v := fvRat (.fin false t.max.1 t.max.2); if n then -v else v) false ∧ r.2 = fSAT ||| fNX
        | _ => if t.ext then z = .inf n ∧ r.2 = 0 else r = (nan, fNV)) ∧
      (X.isNan = false → X.isInf = false → rounded t m (fvRat X) sign z r.2)
    (f = 0x20 → into fmtBf.target (valBf (BitVec.ofNat 16 r.1)) 0x7FC0 X.neg?) ∧
    (f = 0x21 → into fmt16.target (val16 (BitVec.ofNat 16 r.1)) 0x7E00 X.neg?) ∧
    (isBinary8 f = true → (b8Uns f = false ∨ neg = false) →
      into (b8Target f) (val8 f (BitVec.ofNat 8 r.1)) (if b8Uns f then 0xFF else 0x80) false) ∧
    (isBinary8 f = true → b8Uns f = true → neg = true → r = match m with | .srne => (0, fSAT ||| fNX) | _ => (0xFF, fNV)) ∧
    (f.toNat ∈ [0x24, 0x25, 0x26, 0x2C, 0x2D, 0x2E] →
      let lo := (intRange f).1
      let hi := (intRange f).2
      let is := fun (k : Int) (fl : Flags) => r = ((k % (2 ^ (8 * cvtBytes f) : Nat)).toNat, fl)
      let out := match m with | .srne => fSAT ||| fNX | _ => fNV
      (X.isNan = true → is 0 fNV) ∧ (∀ n, X = .inf n → is (if n then lo else hi) out) ∧
      (X.isNan = false → X.isInf = false → ∃ k, roundsInt m (fvRat X) k ∧
        if k < lo then is lo out else if hi < k then is hi out else is k (if (k : Rat) = fvRat X then 0 else fNX)))) ∧
  (∀ (f : BitVec 6) (m : RMode) (n : Nat), n < 2 ^ (8 * cvtBytes f) →
    let r := widen f m n
    let from_ := fun (v : FV) => (v.isNan = true → r = (nan32, sigFlags [v])) ∧ (∀ k, v = .inf k → val32 r.1 = .inf k ∧ r.2 = 0) ∧
      (v.isNan = false → v.isInf = false → isNumber (val32 r.1) (fvRat v) v.neg? ∧ r.2 = 0)
    (isBinary8 f = true → from_ (val8 f (BitVec.ofNat 8 n))) ∧ (f = 0x20 → from_ (valBf (BitVec.ofNat 16 n))) ∧
    (f = 0x21 → from_ (val16 (BitVec.ofNat 16 n))) ∧
    (f.toNat ∈ [0x24, 0x25, 0x26, 0x2C, 0x2D, 0x2E] →
      let i : Int := if (intRange f).1 < 0 ∧ (intRange f).2 < n then (n : Int) - (2 ^ (8 * cvtBytes f) : Nat) else n
      rounded fmt32.target m (i : Rat) (decide (i < 0)) (val32 r.1) r.2)) ∧
  -- R42, R147, Table 6-3: VRCP and VRSQ to 12 bits: the reciprocal rounded, and of a root the grid number on whose side of every other one's
  -- midpoint it lies; VEXP2 and VLOG2 where the result is exact; the special inputs of each.
  (∀ (x : W32),
    let X := val32 x
    let neg := decide (X.neg? = true)
    let all := fun (f : W32 → W32 × Flags) => (X.isNan = true → f x = (nan32, sigFlags [X]))
    let is := fun (f : W32 → W32 × Flags) (w : W32) (fl : Flags) => f x = (w, fl)
    all vrcp32 ∧ all vrsq32 ∧ all vexp232 ∧ all vlog232 ∧
    (X.isZero = true → is vrcp32 (if neg then ninf32 else inf32) fDZ ∧ is vrsq32 (if neg then ninf32 else inf32) fDZ ∧
      is vexp232 one32 0 ∧ is vlog232 ninf32 fDZ) ∧
    (X = .inf false → is vrcp32 0 0 ∧ is vrsq32 0 0 ∧ is vexp232 inf32 0 ∧ is vlog232 inf32 0) ∧
    (X = .inf true → is vrcp32 0x80000000 0 ∧ is vrsq32 nan32 fNV ∧ is vexp232 0 0 ∧ is vlog232 nan32 fNV) ∧
    (X.isNan = false → X.isInf = false → X.isZero = false →
      rounded (bitsTarget 12) .rne (1 / fvRat X) neg (val32 (vrcp32 x).1) (vrcp32 x).2 ∧
      (neg = true → is vrsq32 nan32 fNV ∧ is vlog232 nan32 fNV) ∧
      (neg = false → let y := fvRat (val32 (vrsq32 x).1)
        isNumber (val32 (vrsq32 x).1) y false ∧ 0 < y ∧ onGrid 12 (some fmt32.qmin) y ∧
        (∀ z, onGrid 12 (some fmt32.qmin) z → 0 ≤ z → (z < y → (y + z) * (y + z) * fvRat X < 4) ∧ (y < z → 4 < (y + z) * (y + z) * fvRat X)) ∧
        (vrsq32 x).2 = if y * y * fvRat X = 1 then 0 else fNX) ∧
      ∀ k : Int, (fvRat X = k → rounded (bitsTarget 16) .rne (2 ^ k) false (val32 (vexp232 x).1) (vexp232 x).2) ∧
        (fvRat X = 2 ^ k → isNumber (val32 (vlog232 x).1) (k : Rat) false ∧ (vlog232 x).2 = 0))) ∧
  -- R148, R149: the rounding steps of a lane of VWEL and VWMG, one after another; each raises its own flags.
  (∀ (x y : W32),
    let w := fun (r : W32 × Flags) => (r.1.toNat, r.2)
    let X := val32 x
    let Y := val32 y
    let q := div32 x y
    isSum .f32 X Y (w (add32 x y)) ∧ isSum .f32 X Y.negate (w (sub32 x y)) ∧ isProduct .f32 X Y (w (mul32 x y)) ∧
    (X.isNan = true ∨ Y.isNan = true → q = (nan32, sigFlags [X, Y])) ∧
    ((X.isInf = true ∧ Y.isInf = true) ∨ (X.isZero = true ∧ Y.isZero = true) → q = (nan32, fNV)) ∧
    (X.isNan = false → Y.isNan = false →
      (X.isInf = true → Y.isInf = false → val32 q.1 = .inf (X.neg? != Y.neg?) ∧ q.2 = 0) ∧
      (X.isInf = false → Y.isInf = true → isNumber (val32 q.1) 0 (X.neg? != Y.neg?) ∧ q.2 = 0) ∧
      (X.isInf = false → X.isZero = false → Y.isZero = true → val32 q.1 = .inf (X.neg? != Y.neg?) ∧ q.2 = fDZ) ∧
      (X.isInf = false → Y.isInf = false → Y.isZero = false →
        rounded fmt32.target .rne (fvRat X / fvRat Y) (X.neg? != Y.neg?) (val32 q.1) q.2))) ∧
  (∀ x c m q : W32,
    let cnt := add32 c one32
    let delta := sub32 x m
    let step := div32 delta.1 cnt.1
    let mean := add32 m step.1
    let diff := sub32 x mean.1
    let prod := mul32 delta.1 diff.1
    let m2 := add32 q prod.1
    (welLane x c m q).1 = (cnt.1, mean.1, m2.1) ∧ ∀ b : Fin 6, (welLane x c m q).2.getLsbD b = true ↔
      ∃ r ∈ [cnt, delta, step, mean, diff, prod, m2], r.2.getLsbD b = true) ∧
  (∀ na ma qa nb mb qb : W32,
    let n := add32 na nb
    let delta := sub32 mb ma
    let f := div32 nb n.1
    let step := mul32 delta.1 f.1
    let mean := add32 ma step.1
    let sq := mul32 delta.1 delta.1
    let sqn := mul32 sq.1 na
    let t := mul32 sqn.1 f.1
    let q := add32 qa qb
    let m2 := add32 q.1 t.1
    let r := wmgLane na ma qa nb mb qb
    ((val32 n.1).isZero = true → r = ((0, 0, 0), 0)) ∧
    ((val32 n.1).isZero = false → r.1 = (n.1, mean.1, m2.1) ∧ ∀ b : Fin 6, r.2.getLsbD b = true ↔
      ∃ y ∈ [n, delta, f, step, mean, sq, sqn, t, q, m2], y.2.getLsbD b = true))

/-- VLD, VST, VGTH and VSCT; XCP and VMOVS. -/
def Obligations.VectorMemoryAndMoves : Prop :=
  -- R154, R134: VLD sends the 64 bytes at its offset; VST puts the bytes of its active lanes in flight, which commit at issue + 5.
  (∀ (s : State) (k p : Fin 8) (e : BitVec 4) (b : SSrc) (i : BitVec 7), Readable s [b] →
    let off := (srcAt s b + i.signExtend 64 * 64).toNat
    let ps := placesOf s e off 64
    let m := activeAt s k p
    (Accessible s e true false 64 off 64 → ∀ d : VDst, ∃ data : Vec,
      VResults (.vld k d e b p i) s (popped s [b]) k (vbSlot k) 5 d m data 0 true (banked (cc s).grp ps) ∧
      ∀ j < 64, vbyte data j = cellAt (cc s).spad (ps.getD j 0)) ∧
    (Accessible s e false true 64 off 64 → ∀ a : VSrc, ∃ bs : List (Nat × Byte),
      let x := { vpopped s k [a] with fi := (popped s [b]).fi }
      Does (.vst k a e b p i) s x [lands s (vbSlot k) 5 (.store bs)] (banked (cc s).grp (activePlaces m 4 ps)) ∧
      bs = ((List.range 64).filter fun j => m.getLsbD (j / 4)).map fun j => (ps.getD j 0, vbyte (vsrcAt s k a) j))) ∧
  -- R105, R109: a failed check, and an error in what VLD reads, stop the task.
  (∀ (s : State) (k p : Fin 8) (e : BitVec 4) (b : SSrc) (i : BitVec 7), Readable s [b] →
    let off := (srcAt s b + i.signExtend 64 * 64).toNat
    (∀ d : VDst, FailsAccess (.vld k d e b p i) s (popped s [b]) (vbSlot k) e true false 64 off 64) ∧
    ∀ a : VSrc, FailsCheck (.vst k a e b p i) s { vpopped s k [a] with fi := (popped s [b]).fi } (vbSlot k) e [0] false true 64 off 64) ∧
  -- R155: VGTH reads one element for each active lane whose access passes; VSCT stores them, the higher lane last. The first active lane
  -- that fails its check stops the task, and where none does, for VGTH the first whose element holds an uncorrectable error.
  (∀ (s : State) (k p : Fin 8) (e : BitVec 4) (a w : VSrc) (z : Fin 3),
    let n := 2 ^ z.val
    let x := extOf (cs s) e.toNat
    let m := activeAt s k p
    let act := (List.range 16).filter fun i => m.getLsbD i
    let g := fun (v : Vec) => { (cc s).grp with
      banks := (cc s).grp.banks ++ ((act.map fun i => bankWords (spadPlaces x (lane v i).toNat n)).flatten).map fun q => q / 16 % 64 }
    let check := fun (v : Vec) (rd : Bool) (i : Nat) => extCheck x [0] rd (!rd) n (lane v i).toNat n
    let stop := fun (j : Instr) (l : List VSrc) (v : Vec) (rd : Bool) => ∀ i ∈ act, ∀ c, check v rd i = some c →
      (∀ h ∈ act, h < i → check v rd h = none) →
      Does j s (causes s (vpopped s k l) 2 c (vbSlot k) (BitVec.ofNat 64 (lane v i).toNat) (BitVec.ofNat 64 e.toNat)) [] (cc s).grp
    let v := vsrcAt s k a
    let y := vsrcAt s k w
    (∀ d : VDst, stop (.vgth k d e a p z) [a] v true ∧
      ((∀ i ∈ act, check v true i = none) → ∀ i ∈ act, spadErr (cc s) 0 (spadPlaces x (lane v i).toNat n) ≠ none →
        (∀ h ∈ act, h < i → spadErr (cc s) 0 (spadPlaces x (lane v h).toNat n) = none) →
        Does (.vgth k d e a p z) s (causes s (vpopped s k [a]) 2 Cause.spadUe (vbSlot k) (BitVec.ofNat 64 (lane v i).toNat)
          (BitVec.ofNat 64 e.toNat)) [] (g v)) ∧
      ((∀ i ∈ act, check v true i = none ∧ spadErr (cc s) 0 (spadPlaces x (lane v i).toNat n) = none) → ∃ data : Vec,
        VResults (.vgth k d e a p z) s (vpopped s k [a]) k (vbSlot k) 8 d m data 0 true (g v) ∧
        ∀ i < 16, lane data i = if m.getLsbD i then BitVec.ofNat 32 (leNat (spadGet (cc s) (spadPlaces x (lane v i).toNat n))) else 0)) ∧
    stop (.vsct k a e w p z) [a, w] y false ∧
    ((∀ i ∈ act, check y false i = none) →
      Does (.vsct k a e w p z) s (vpopped s k [a, w]) [lands s (vbSlot k) 8 (.store ((act.map fun i =>
        (spadPlaces x (lane y i).toNat n).zip (natBytes n (lane v i).toNat)).flatten))] (g y))) ∧
  -- R152, R153: XCP copies a register of another cluster; VMOVS moves one lane from or to a scalar.
  (∀ (s : State) (k x p : Fin 8) (l : BitVec 4),
    (∀ (d : VDst) (a : Fin 32), VResults (.xcp k d a x p) s (cs s) k (vbSlot k) (latencyOf s 4 3) d (activeAt s k p)
      (vReg (cs s) x a) 0 true (slower (cc s).grp 1)) ∧
    (∀ (r : Fin 32) (a : SSrc), Readable s [a] → ∃ data : Vec,
      Does (.vmovs k (.inn r a) l) s (popped s [a])
        [lands s (vbSlot k) 2 (.vbytes k r (15 <<< (4 * l.toNat)) data none true)] (cc s).grp ∧
      lane data l.toNat = (srcAt s a).setWidth 32) ∧
    ∀ a : VSrc,
      let v : Word := (lane (vsrcAt s k a) l.toNat).setWidth 64
      (∀ d : Fin 56, Does (.vmovs k (.outReg a d) l) s (vpopped s k [a]) [sends s (vbSlot k) 2 (.reg d) v] (cc s).grp) ∧
      Does (.vmovs k (.outFo a) l) s (reserved (vpopped s k [a]) .fo) [sends s (vbSlot k) 2 .fo v] (cc s).grp)

/-! ### The array, the tiles and the rotator -/

/-- VTLD and VTST; WPUSH, WSWAP, MCLR, SCW and SCA. -/
def Obligations.TilesPlanesAndScales : Prop :=
  -- R156: VTLD reads 64 bytes of a tile, zero beyond its size; VTST writes the bytes of active lanes within it.
  (∀ (s : State) (k t p : Fin 8) (b : SSrc) (i : BitVec 7) (r c w : Nat), Readable s [b] → (cs s).hasA = true →
    tgShape (tget 0 (cc s).tg t.val) = some (r, c, w) →
    let off := (srcAt s b + i.signExtend 64 * 64).toNat
    let size := r * c * w
    let m := activeAt s k p
    64 ∣ off → off < size →
    (∀ d : VDst, ∃ data : Vec, VResults (.vtld k d t b p i) s (popped s [b]) k (vbSlot k) 4 d m data 0 true (cc s).grp ∧
      ∀ j < 64, vbyte data j = if off + j < size then cellAt (cc s).tile (36864 * t + (off + j)) else 0) ∧
    ∀ a : VSrc,
      Does (.vtst k a t b p i) s { vpopped s k [a] with fi := (popped s [b]).fi }
        [lands s (vbSlot k) 4 (.tile t (((List.range 64).filter fun j => m.getLsbD (j / 4) && decide (off + j < size)).map
          fun j => (off + j, vbyte (vsrcAt s k a) j)))] (cc s).grp) ∧
  -- R10, R156: the checks of the two in their order: the array claim, a shape, the alignment, the tile's size.
  (∀ (s : State) (k t p : Fin 8) (a : VSrc) (b : SSrc) (i : BitVec 7) (d : VDst), Readable s [b] →
    let off := (srcAt s b + i.signExtend 64 * 64).toNat
    let both := fun (c : Nat) (x y : Nat) => Stops (.vtld k d t b p i) s (popped s [b]) c (vbSlot k) (BitVec.ofNat 64 x) (BitVec.ofNat 64 y) ∧
      Stops (.vtst k a t b p i) s { vpopped s k [a] with fi := (popped s [b]).fi } c (vbSlot k) (BitVec.ofNat 64 x) (BitVec.ofNat 64 y)
    ((cs s).hasA = false → both Cause.claimAbsent 0 0) ∧
    ((cs s).hasA = true → tgShape (tget 0 (cc s).tg t.val) = none → both ctlValue 0 0) ∧
    ∀ r c w, (cs s).hasA = true → tgShape (tget 0 (cc s).tg t.val) = some (r, c, w) →
      (¬ 64 ∣ off → both Cause.memAlign off t.val) ∧ (64 ∣ off → r * c * w ≤ off → both Cause.tileBound off t.val)) ∧
  -- R10, R20, R159, R161 to R164: what loads the planes, the scales and the mode of the array, when the task holds its claim.
  (∀ (s : State), (cs s).hasA = true →
    let g := (cc s).grp
    (∀ (t : Fin 8) (r w : BitVec 8) (f : BitVec 6) (rows c : Nat),
      tgShape (tget 0 (cc s).tg t.val) = some (rows, c, if f = 0x20 then 2 else 1) → r.toNat < rows →
      let n := c * (if f = 0x20 then 2 else 1)
      Does (.wpush t r w f) s (cs s) [lands s 21 1 (.wrow w.toNat ((List.range 192).map fun j =>
        if j < n then cellAt (cc s).tile (36864 * t + r.toNat * n + j) else 0) f.toNat)] g) ∧
    Does .wswap s (cs s) [lands s 21 1 .wswap] g ∧
    (∀ m : BitVec 3, Does (.mclr m) s (cs s) [lands s 21 1 (.mclr m)] g) ∧
    ∀ (e : BitVec 4) (b : SSrc) (i : BitVec 8), Readable s [b] →
      let off := (srcAt s b).toNat
      let val := fun (ps : List Nat) (j : Nat) =>
        BitVec.ofNat 16 ((cellAt (cc s).spad (ps.getD (2 * j) 0)).toNat + 256 * (cellAt (cc s).spad (ps.getD (2 * j + 1) 0)).toNat)
      let D := fun (j : Instr) (l : Land) (n : Nat) => Does j s (popped s [b]) [lands s 23 2 l] (banked g (placesOf s e off n))
      (Accessible s e true false 64 off 64 →
        let vs := (List.range 32).map (val (placesOf s e off 64))
        D (.scw e b i false) (.scales false i.toNat vs) 64 ∧ D (.sca e b i false) (.scales true i.toNat vs) 64) ∧
      (Accessible s e true false 2 off 2 →
        let vs := List.replicate 192 (val (placesOf s e off 2) 0)
        D (.scw e b i true) (.scales false 0 vs) 2 ∧ D (.sca e b i true) (.scales true 0 vs) 2)) ∧
  -- R10, R105, R109, R159, R161 to R163: their checks: the claim, then for WPUSH a shape, the width that its format asks for and the row, and for
  -- SCW and SCA the access.
  (∀ (s : State) (t : Fin 8) (r w : BitVec 8) (f : BitVec 6) (m : BitVec 3),
    let W := Instr.wpush t r w f
    ((cs s).hasA = false → Stops W s (cs s) Cause.claimAbsent 21 0 0 ∧ Stops .wswap s (cs s) Cause.claimAbsent 21 0 0 ∧
      Stops (.mclr m) s (cs s) Cause.claimAbsent 21 0 0) ∧
    ((cs s).hasA = true → tgShape (tget 0 (cc s).tg t.val) = none → Stops W s (cs s) ctlValue 21 0 0) ∧
    ∀ rows c el, (cs s).hasA = true → tgShape (tget 0 (cc s).tg t.val) = some (rows, c, el) →
      (el ≠ (if f = 0x20 then 2 else 1) → Stops W s (cs s) Cause.arrayMode 21 0 0) ∧
      (el = (if f = 0x20 then 2 else 1) → rows ≤ r.toNat →
        Stops W s (cs s) Cause.tileBound 21 (BitVec.ofNat 64 (r.toNat * (c * el))) (BitVec.ofNat 64 t.val))) ∧
  (∀ (s : State) (e : BitVec 4) (b : SSrc) (i : BitVec 8) (one : Bool), Readable s [b] →
    let n := if one then 2 else 64
    ∀ j, j = Instr.scw e b i one ∨ j = Instr.sca e b i one →
      ((cs s).hasA = false → Stops j s (popped s [b]) Cause.claimAbsent 23 0 0) ∧
      ((cs s).hasA = true → FailsAccess j s (popped s [b]) 23 e true false n (srcAt s b).toNat n))

/-- APUSH and ACC enter a beat; DRAIN, TRW, TLDR and TSTR move rows. -/
def Obligations.BeatsAndRows : Prop :=
  -- R165: APUSH and ACC put one beat in flight, which lands 196 cycles after issue with the row that the tile row gives through plane W0; a
  -- pair beat also enters the partner's array with the row through the partner's plane.
  (∀ (s : State) (t : Fin 8) (r a : BitVec 8) (f : BitVec 6) (acc : Bool) (rows c : Nat), (cs s).hasA = true →
    let el := if f = 0x20 then 2 else 1
    let n := if f = 0x20 then 96 else 192
    let k := cc s
    let p := partnerOf s.cur
    let pk := coreAt s p
    tgShape (tget 0 k.tg t.val) = some (rows, c, el) → r.toNat < rows → k.tag0 ≠ 0 → (k.tag0 = 0x20 ↔ f = 0x20) →
    let row := tileRow k t r.toNat c el
    let as := (List.range n).map fun j => if j < c then elemOf f.toNat row j else .zero
    let sa := tget 0 k.sa a.toNat
    let own := beatRow k as n sa
    let oth := beatRow pk as n sa
    let i := fun pr => if acc then Instr.acc t r a pr f else Instr.apush t r a pr f
    let e := fun (fl : Flags) => { raises s 21 196 (.beat a.toNat acc own.1) fl with info1 := BitVec.ofNat 64 a.toNat }
    DoesOn (i false) s (withBeat s (pairNow s k)) (cs s) [e own.2] k.grp ∧
    (pairReady s (cs s) f.toNat = false → Does (i true) s (causes s (cs s) 2 Cause.pairAbsent 21 0 0) [] k.grp) ∧
    (pairReady s (cs s) f.toNat = true → ∃ t', exec (i true) s = .next t' ∧
      (∀ d, d ≠ s.cur → d ≠ p → coreAt t' d = coreAt s d) ∧
      (coreAt t' s.cur).effs = k.effs ++ [{ e (own.2 ||| oth.2) with pair := true }] ∧ (coreAt t' s.cur).acc = k.acc ∧
      (∃ x ∈ (coreAt t' p).effs, x.due = pk.ct + 196 ∧ x.land = .beat a.toNat acc oth.1) ∧ (coreAt t' p).acc = pk.acc)) ∧
  -- R169, R172, R173: DRAIN reads a row of the accumulators (and clears it with Z); TRW, TLDR and TSTR move rows of tiles.
  (∀ (s : State) (t : Fin 8) (r : BitVec 8) (rows c w : Nat), (cs s).hasA = true →
    tgShape (tget 0 (cc s).tg t.val) = some (rows, c, w) → r.toNat < rows →
    let g := (cc s).grp
    let at_ := fun (bs : List Byte) => (List.range (c * w)).map fun j => (r.toNat * (c * w) + j, bs.getD j 0)
    (∀ (a : BitVec 8) (z : Bool), w = 2 ∨ w = 4 →
      let row := accRow (cc s) a.toNat
      let es := (List.range c).map fun j => row.getD j 0
      let bs := if w = 4 then (es.map fun x => natBytes 4 x.toNat).flatten else (es.map fun x => natBytes 2 (rneBf (val32 x)).1.toNat).flatten
      let fl := if w = 4 then 0 else orFlags (es.map fun x => (val32 x).sig ||| (rneBf (val32 x)).2)
      DoesOn (.drain t r a z) s (if z then withAcc s a.toNat (List.replicate 192 0) else s) (cs s)
        [{ raises s 21 4 (.tile t (at_ bs)) fl with info1 := BitVec.ofNat 64 a.toNat }] g) ∧
    (∀ (e : BitVec 4) (b : SSrc), Readable s [b] →
      let off := (srcAt s b).toNat
      let ps := placesOf s e off (c * w)
      (Accessible s e true false 16 off (c * w) →
        Does (.tldr t r e b) s (popped s [b]) [lands s 22 4 (.tile t (at_ (spadGet (cc s) ps)))] (banked g ps)) ∧
      (Accessible s e false true 16 off (c * w) →
        Does (.tstr t r e b) s (popped s [b]) [lands s 22 4 (.store (ps.zip (tileRow (cc s) t r.toNat c w)))] (banked g ps))) ∧
    ∀ (q : Fin 8) (b : SSrc) (m : Bool) (rows' c' : Nat), Readable s [b] → tgShape (tget 0 (cc s).tg q.val) = some (rows', c', w) →
      let n := (srcAt s b).toNat
      n < (if m then rows' else c') →
      let byte := fun (j : Nat) =>
        let i := j / w
        if m then (if i < c' then cellAt (cc s).tile (36864 * q + (n * c' + i) * w + j % w) else 0)
        else if i < rows' then cellAt (cc s).tile (36864 * q + (i * c' + n) * w + j % w) else 0
      Does (.trw t r q b m) s (popped s [b]) [lands s 22 2 (.tile t (at_ ((List.range (c * w)).map byte)))] g) ∧
  -- R10, R105, R109, R159, R165, R169, R172, R173: their checks, in the order claim, shapes, mode, row: a beat needs a tagged plane of its kind and
  -- elements of its width, DRAIN elements of 2 or 4 bytes, TRW two tiles of one width; TRW also checks its index, TLDR and TSTR their access.
  (∀ (s : State) (t : Fin 8) (r a : BitVec 8) (f : BitVec 6) (pr z : Bool),
    let bound := fun (i : Instr) (slot rows c w : Nat) (x : Seat) => rows ≤ r.toNat →
      Stops i s x Cause.tileBound slot (BitVec.ofNat 64 (r.toNat * (c * w))) (BitVec.ofNat 64 t.val)
    let shape := tgShape (tget 0 (cc s).tg t.val)
    (∀ i, i = Instr.apush t r a pr f ∨ i = Instr.acc t r a pr f ∨ i = Instr.drain t r a z →
      ((cs s).hasA = false → Stops i s (cs s) Cause.claimAbsent 21 0 0) ∧
      ((cs s).hasA = true → shape = none → Stops i s (cs s) ctlValue 21 0 0)) ∧
    (∀ rows c w, (cs s).hasA = true → shape = some (rows, c, w) →
      (let mode := (cc s).tag0 ≠ 0 ∧ ((cc s).tag0 = 0x20 ↔ f = 0x20) ∧ w = (if f = 0x20 then 2 else 1)
       ∀ i, i = Instr.apush t r a pr f ∨ i = Instr.acc t r a pr f →
        (¬ mode → Stops i s (cs s) Cause.arrayMode 21 0 0) ∧ (mode → bound i 21 rows c w (cs s))) ∧
      (w = 1 → Stops (.drain t r a z) s (cs s) Cause.arrayMode 21 0 0) ∧ (w ≠ 1 → bound (.drain t r a z) 21 rows c w (cs s))) ∧
    ∀ (e : BitVec 4) (b : SSrc), Readable s [b] →
      (∀ i, i = Instr.tldr t r e b ∨ i = Instr.tstr t r e b →
        ((cs s).hasA = false → Stops i s (popped s [b]) Cause.claimAbsent 22 0 0) ∧
        ((cs s).hasA = true → shape = none → Stops i s (popped s [b]) ctlValue 22 0 0) ∧
        ∀ rows c w, (cs s).hasA = true → shape = some (rows, c, w) → bound i 22 rows c w (popped s [b]) ∧ (r.toNat < rows →
          FailsAccess i s (popped s [b]) 22 e (i = .tldr t r e b) (i = .tstr t r e b) 16 (srcAt s b).toNat (c * w))) ∧
      ∀ (q : Fin 8) (m : Bool),
        let T := Instr.trw t r q b m
        let n := (srcAt s b).toNat
        let from_ := tgShape (tget 0 (cc s).tg q.val)
        ((cs s).hasA = false → Stops T s (popped s [b]) Cause.claimAbsent 22 0 0) ∧
        ((cs s).hasA = true → shape = none ∨ from_ = none → Stops T s (popped s [b]) ctlValue 22 0 0) ∧
        ∀ rows c w rows' c' w', (cs s).hasA = true → shape = some (rows, c, w) → from_ = some (rows', c', w') →
          (w ≠ w' → Stops T s (popped s [b]) Cause.arrayMode 22 0 0) ∧
          (w = w' → bound T 22 rows c w (popped s [b])) ∧
          (w = w' → r.toNat < rows → (if m then rows' else c') ≤ n → Stops T s (popped s [b]) Cause.tileBound 22
            (BitVec.ofNat 64 ((if m then n * c' else n) * w')) (BitVec.ofNat 64 q.val)))

/-- R48: a column of a beat adds the products in order, rounding each sum to the chain format, then rounds to FP32 and multiplies by the two
scales. -/
def Obligations.AColumnIsAChainOfRoundedSums : Prop :=
  ∀ (ws as : List FV) (sw sa : BitVec 16), ws.length = as.length →
    let chain := (ws.zip as).foldl (fun (x : FV × Flags) q =>
      let p := fvMul q.1 q.2
      let y := fvAdd x.1 p.1
      let r := rneC y.1
      (r.1, x.2 ||| p.2 ||| y.2 ||| r.2)) (.zero, 0)
    let x := rne32 chain.1
    let y := mul32 x.1 (BitVec.ofNat 32 (sw.toNat * 2 ^ 16))
    let z := mul32 y.1 (BitVec.ofNat 32 (sa.toNat * 2 ^ 16))
    beatElem ws as sw sa = (z.1, chain.2 ||| x.2 ||| y.2 ||| z.2)

/-- QRF, QAPP, QROT and QSOLV start; QGET, QPUT and QCLR move d registers. -/
def Obligations.TheRotator : Prop :=
  -- R175, R177: a sequenced instruction whose checks pass starts the rotator, which reads its first row 64 counted cycles later.
  (∀ (s : State) (d : Fin 4) (t : Fin 8) (r n : BitVec 8) (rows c : Nat) (x y : Bool), (cs s).hasQ = true →
    tgShape (tget 0 (cc s).tg t.val) = some (rows, c, 4) → r.toNat + n.toNat ≤ rows →
    let bit := fun (b : Bool) (i : Nat) => if b then 2 ^ i else 0
    let S := fun (i : Instr) (op dr opt : Nat) => DoesOn i s
      (withSeqr s { op := op, dr := dr, tile := t, row0 := r.toNat, rows := n.toNat, opt := opt, next := 0, due := (cc s).ct + 64,
                    row := none, seat := cn s, grp := (cc s).grp.addr, en := trapEnables (cs s).fpc, run := true, iss := (cc s).ct }) (cs s) []
      (cc s).grp
    ((if x then 64 else 1) ≤ c → S (.qrf d t r n x y) 0 d (bit y 0 + bit x 1)) ∧
    (64 ≤ c → S (.qapp d t r n x) 1 d (bit x 0)) ∧ (64 ≤ c → S (.qrot t r n x) 2 0 (bit x 2)) ∧
    (32 ≤ c → S (.qsolv d t r n x) 3 d (bit x 3))) ∧
  -- R10, R159, R177: its checks: the claim, a shape, elements of 4 bytes, its rows and the columns it needs.
  (∀ (s : State) (d : Fin 4) (t : Fin 8) (r n : BitVec 8) (x y : Bool) (i : Instr) (least : Nat),
    (i, least) = (.qrf d t r n x y, if x then 64 else 1) ∨ (i, least) = (.qapp d t r n x, 64) ∨ (i, least) = (.qrot t r n x, 64) ∨
      (i, least) = (.qsolv d t r n x, 32) →
    let shape := tgShape (tget 0 (cc s).tg t.val)
    ((cs s).hasQ = false → Stops i s (cs s) Cause.claimAbsent 24 0 0) ∧
    ((cs s).hasQ = true → shape = none → Stops i s (cs s) ctlValue 24 0 0) ∧
    ∀ rows c w, (cs s).hasQ = true → shape = some (rows, c, w) →
      (w ≠ 4 → Stops i s (cs s) Cause.arrayMode 24 0 0) ∧
      (w = 4 → (rows < r.toNat + n.toNat ∨ c < least) →
        Stops i s (cs s) Cause.tileBound 24 (BitVec.ofNat 64 (r.toNat * (c * 4))) (BitVec.ofNat 64 t.val))) ∧
  -- R10, R105, R109: those of the three that move and clear d registers.
  (∀ (s : State) (d : Fin 4),
    ((cs s).hasQ = false → Stops (.qclr d) s (cs s) Cause.claimAbsent 24 0 0) ∧
    ∀ (e : BitVec 4) (b : SSrc) (nb ga : Bool), Readable s [b] →
      ((cs s).hasQ = false → Stops (.qput d e b) s (popped s [b]) Cause.claimAbsent 24 0 0 ∧
        Stops (.qget d e b nb ga) s (popped s [b]) Cause.claimAbsent 24 0 0) ∧
      ((cs s).hasQ = true → FailsAccess (.qput d e b) s (popped s [b]) 24 e true false 64 (srcAt s b).toNat 2240 ∧
        FailsAccess (.qget d e b nb ga) s (popped s [b]) 24 e false true 64 (srcAt s b).toNat 2240)) ∧
  -- R183, R184: QGET stores the 2,240 bytes of a d register, with its gains applied when asked; QPUT loads them; QCLR makes the triangle
  -- zero and the gains one.
  (∀ (s : State) (d : Fin 4), (cs s).hasQ = true →
    let g := (cc s).grp
    Does (.qclr d) s (cs s) [lands s 24 1 (.dreg d (List.replicate 528 0 ++ List.replicate 32 0x3F800000))] g ∧
    ∀ (e : BitVec 4) (b : SSrc), Readable s [b] →
      let off := (srcAt s b).toNat
      let ps := placesOf s e off 2240
      (Accessible s e true false 64 off 2240 → ∃ ws : List W32,
        Does (.qput d e b) s (popped s [b]) [lands s 24 8 (.dreg d ws)] (banked g ps) ∧ ws.length = 560 ∧
        ∀ j < 560, ws.getD j 0 = BitVec.ofNat 32 (leNat ((ps.drop (4 * j)).take 4 |>.map (cellAt (cc s).spad)))) ∧
      (Accessible s e false true 64 off 2240 → ∀ nb ga : Bool,
        let r := if ga then dScaled (cc s) d else (dImage (cc s) d, 0)
        Does (.qget d e b nb ga) s (popped s [b])
          (raises s 24 8 (.store (ps.zip (r.1.map fun w => natBytes 4 w.toNat).flatten)) r.2 ::
            if nb then [raises s 24 8 (.dreg d r.1) r.2] else []) (banked g ps)))

/-! ### The E class -/

/-- ESET and EGET; the fields of an engine status word. -/
def Obligations.StagingAndStatusWords : Prop :=
  -- R186, R187: ESET sends the defined bits of its source to a staging register; EGET sends a register of the engine as it stands at issue.
  (∀ (s : State) (n : BitVec 4) (i : BitVec 8),
    (∀ a : SSrc, Readable s [a] → Does (.eset n i a) s (popped s [a])
      [lands s 25 1 (.stg (128 * n.toNat + i.toNat) (srcAt s a &&& stgMask n.toNat i.toNat))] (cc s).grp) ∧
    ∀ d : SDst,
      Results (.eget d n i) s [] 25 3 d (engRead s s.cur (cn s) n.toNat i.toNat) ∧
      (i.toNat < 128 → engRead s s.cur (cn s) n.toNat i.toNat = tget 0 (cs s).stg (128 * n.toNat + i.toNat))) ∧
  -- Table 8-1: the fields of an engine status word.
  (∀ (code eng : Nat) (dn : Bool) (seq val : Nat),
    let w := statusWord code eng dn seq val
    bits w 63 56 = code % 256 ∧ bits w 55 52 = eng % 16 ∧ bitAt w 51 = dn ∧ bits w 50 48 = 0 ∧ bits w 47 32 = seq % 65536 ∧
    bits w 31 0 = val % 2 ^ 32)

/-- CPY, CDRN and the commands of the tier port at issue. -/
def Obligations.CopiesAndStreamsAtIssue : Prop :=
  -- R188, R193, R201: CPY joins its channel's queue when its checks pass and is refused otherwise; CDRN waits for the commands that the
  -- named channels have accepted.
  (∀ (s : State) (d : SDst),
    (∀ (a b : SSrc) (chain : Bool) (h : Fin 4), Readable s [a, b] →
      let m := cpyOf s h chain (srcAt s a).toNat (srcAt s b).toNat
      let i := Instr.cpy d a b chain h
      (cpyCheck m = none → Accepted i s (onCore (modChan s s.cur h fun x => { x with cmds := x.cmds ++ [m], acc := x.acc + 1 }) fun k =>
        { k with accNo := k.accNo + 1 }) (popped s [a, b]) d h 0 true) ∧ m.ord = (cc s).accNo ∧
      ∀ c, cpyCheck m = some c → Refused i s (popped s [a, b]) d h c) ∧
    ∀ m : BitVec 4,
      let upto := ([0, 1, 2, 3].filter fun i => m.getLsbD i).map fun i => (i, (tget {} (cc s).ch i).acc)
      Does (.cdrn d m) s (reserved (cs s) d) []
        { (cc s).grp with waits := (cc s).grp.waits ++ [.cdrn m.toNat (dstTo d) 5 (bundleNo s) upto] }) ∧
  -- R202: what the tier port's commands do at issue: start opens a stream, ack notes a consumed shard, poll answers with the last hop, stop
  -- ends a stream; a stream of another tenant or none is refused.
  (∀ (s : State) (d : SDst) (a b : SSrc),
    let n := (srcAt s a).toNat
    let i := (srcAt s b).toNat
    (Readable s [a] → ∀ c, tierCheck s = some c → Refused (.tierStart d a) s (popped s [a]) d 4 c) ∧
    (Readable s [a] → tierCheck s = none → ∃ s' x, Accepted (.tierStart d a) s s' (popped s [a]) d 4 0 false ∧
      s' = { s with streams := tput (bits (stgOf (cs s) 4 0) 3 0) x s.streams } ∧
      x.st = 1 ∧ x.tenant = taskTenant (cs s).task ∧ x.core = s.cur ∧ x.origin = srcAt s a ∧ x.n = (stgOf (cs s) 4 2).toNat ∧
      x.next = 0 ∧ x.ents = []) ∧
    (Readable s [a, b] → streamOpen s n = false →
      Refused (.tierAck d a b) s (popped s [a, b]) d 4 Cause.tierStream ∧ Refused (.tierPoll d a b) s (popped s [a, b]) d 4 Cause.tierStream) ∧
    (Readable s [a] → streamOpen s n = false → Refused (.tierStop d a) s (popped s [a]) d 4 Cause.tierStream) ∧
    (Readable s [a, b] → streamOpen s n = true →
      Accepted (.tierPoll d a b) s s (popped s [a, b]) d 4 (lastHop (strAt s n) i s.cur) false ∧
      ((strAt s n).n ≤ i → Refused (.tierAck d a b) s (popped s [a, b]) d 4 Cause.engGeom) ∧
      (i < (strAt s n).n → ∃ s', Accepted (.tierAck d a b) s s' (popped s [a, b]) d 4 0 false ∧ (i, s.cur) ∈ (strAt s' n).cack ∧
        s' = { s with queues := s'.queues, streams := s'.streams } ∧ ∀ m, m ≠ n → strAt s' m = strAt s m)) ∧
    (Readable s [a] → streamOpen s n = true → (strAt s n).st = 1 → ∃ t, exec (.tierStop d a) s = .next t ∧ (strAt t n).st ≠ 1))

/-- KV, TOPK and GTHR commands join the queue of their engine or are refused. -/
def Obligations.EngineCommandsAreQueued : Prop :=
  -- R189, R203, R205: the KV commands join the queue of the engine of their die (the issuing core's for KVLK, the handle's otherwise) when their
  -- checks pass, with their operation, operands and staging registers; the first check that fails, of the numbers, the extents and the result
  -- record in this order, refuses them.
  (∀ (s : State) (d : SDst) (a b : SSrc),
    let x := srcAt s a
    let y := srcAt s b
    let q := fun (die op sub : Nat) (v w : Word) (cap : Bool) =>
      let m := engCmdOf s 5 op sub v w [0, 1, 2, 3, 4] (if op = 5 ∨ op = 6 then [bits (stgOf (cs s) 5 0) 3 0] else [])
      modDie (if cap then s else loseCap s m.task) die fun z => { z with kv := z.kv ++ [m] }
    let n := y.toNat
    let k := (stgOf (cs s) 5 2).toNat
    let e := kextOf (cs s)
    let r := resCheck (resOf (cs s) 5)
    (Readable s [a, b] → 1 ≤ n → n ≤ 65536 → engCheck e [0] true false 4 x.toNat (4 * n) = none → r = none →
      Accepted (.kvlk d a b) s (q (s.cur / 96) 5 0 x y true) (popped s [a, b]) d 5 0 true) ∧
    (Readable s [a, b] → ∀ c, firstFail [failIf (decide (n = 0) || decide (65536 < n)) Cause.engGeom,
        engCheck e [0] true false 4 x.toNat (4 * n), r] = some c → Refused (.kvlk d a b) s (popped s [a, b]) d 5 c) ∧
    (Readable s [a, b] → ∀ adv : Bool,
      (64 ≤ k → k ≤ 16384 → 64 ∣ k → engCheck e [0] true false 64 y.toNat k = none → r = none →
        Accepted (.kvap d a b adv) s (q (handleDie x) 6 (if adv then 1 else 0) x y false) (popped s [a, b]) d 5 0 true) ∧
      ∀ c, firstFail [failIf (decide (k < 64) || decide (16384 < k) || decide (k % 64 ≠ 0)) Cause.engGeom,
        engCheck e [0] true false 64 y.toNat k, r] = some c → Refused (.kvap d a b adv) s (popped s [a, b]) d 5 c) ∧
    (Readable s [a, b] → r = none → Accepted (.kvfk d a b) s (q (handleDie x) 7 0 x y false) (popped s [a, b]) d 5 0 true) ∧
    (Readable s [a] → r = none →
      let h := fun (i : Instr) (op sub : Nat) => Accepted i s (q (handleDie x) op sub x 0 false) (popped s [a]) d 5 0 true
      h (.kvrl d a) 8 0 ∧ h (.kvjnOpen d a) 9 0 ∧ h (.kvjnCommit d a) 9 1 ∧ h (.kvjnReject d a) 9 2) ∧
    ∀ c, r = some c → (Readable s [a, b] → Refused (.kvfk d a b) s (popped s [a, b]) d 5 c) ∧
      (Readable s [a] → ∀ i ∈ [Instr.kvrl d a, .kvjnOpen d a, .kvjnCommit d a, .kvjnReject d a], Refused i s (popped s [a]) d 5 c)) ∧
  -- R189, R206, R207: TOPK and GTHR join the queue of their engine of the issuing core's die when their checks pass, and the first check that
  -- fails refuses them.
  (∀ (s : State) (d : SDst) (a b : SSrc), Readable s [a, b] →
    let x := srcAt s a
    let y := srcAt s b
    let n := y.toNat
    let die := s.cur / 96
    let all := [0, 1, 2, 3, 4, 5]
    let p := popped s [a, b]
    let g := stgOf (cs s) 6
    let k := bits (g 0) 24 16
    let src := extOf (cs s) (bits (g 0) 3 0)
    let dst := extOf (cs s) (bits (g 0) 7 4)
    let q := stgOf (cs s) 7
    let le := extOf (cs s) (bits (q 0) 3 0)
    let de := extOf (cs s) (bits (q 0) 7 4)
    let first := bits (q 3) 15 0
    let len := bits (q 3) 31 16
    let gth := fun (i : Instr) (sub : Nat) => Accepted i s
      (modDie s die fun z => { z with gthr := z.gthr ++ [engCmdOf s 7 0x0B sub x y [0, 1, 2, 3, 4, 5] [bits (q 0) 3 0, bits (q 0) 7 4]] }) p d 7 0 true
    (1 ≤ k → k ≤ n → k ≤ 256 → n ≤ 65536 → engCheck src all true false 4 x.toNat (4 * n) = none →
      engCheck dst all false true 8 (g 1).toNat (8 * k) = none → resCheck (resOf (cs s) 6) = none →
      Accepted (.topk d a b) s
        (modDie s die fun z => { z with topk := z.topk ++ [engCmdOf s 6 0x0A 0 x y [0, 1] [bits (g 0) 3 0, bits (g 0) 7 4]] }) p d 6 0 true) ∧
    (1 ≤ n → n ≤ 256 → 4 ∣ len → 1 ≤ len → resCheck (resOf (cs s) 7) = none →
      (first + len ≤ (kvFmtOf s (handleDie (q 1))).ktok → engCheck le all true false 8 x.toNat (8 * n) = none →
        (engCheck de all false true 1 (q 5).toNat (32 * len * n) = none → gth (.gthrWalk d a b) 0) ∧
        (engCheck le all false true 16 (q 4).toNat (16 * n) = none → gth (.gthrPlan d a b) 1)) ∧
      (first + len ≤ (kvFmtOf s die).ktok → engCheck le all true false 16 x.toNat (16 * n) = none → gth (.gthrList d a b) 2)) ∧
    (let bad := fun (i : Instr) (eng : Nat) (l : List (Option Nat)) => ∀ c, firstFail (l ++ [resCheck (resOf (cs s) eng)]) = some c → Refused i s p d eng c
     let geom := fun (k : Nat) => failIf (decide (n = 0) || decide (256 < n) || decide (len = 0) || decide (len % 4 ≠ 0) || decide (k < first + len))
       Cause.engGeom
     let ktok := (kvFmtOf s (handleDie (q 1))).ktok
     bad (.topk d a b) 6 [failIf (decide (n = 0) || decide (65536 < n) || decide (k = 0) || decide (256 < k) || decide (n < k)) Cause.engGeom,
       engCheck src all true false 4 x.toNat (4 * n), engCheck dst all false true 8 (g 1).toNat (8 * k)] ∧
     bad (.gthrWalk d a b) 7 [geom ktok, engCheck le all true false 8 x.toNat (8 * n), engCheck de all false true 1 (q 5).toNat (32 * len * n)] ∧
     bad (.gthrPlan d a b) 7 [geom ktok, engCheck le all true false 8 x.toNat (8 * n), engCheck le all false true 16 (q 4).toNat (16 * n)] ∧
     bad (.gthrList d a b) 7 [geom (kvFmtOf s die).ktok, engCheck le all true false 16 x.toNat (16 * n)]))

/-- NSND and NRCV, the collectives, and BTAKE.  That a collective barrier is accepted without a check of its extents is log 16, and the layout of the
groups that COLLGRP holds is log 15. -/
def Obligations.NetworkAndCollectiveCommands : Prop :=
  -- R208, R400: NSND and NRCV take one slot for each record when their checks pass: the records join the network engine's, in order.
  (∀ (s : State) (d : SDst) (a b : SSrc) (send : Bool), Readable s [a, b] →
    let n := (srcAt s b).toNat
    let off := (srcAt s a).toNat
    let i := if send then Instr.nsnd d a b else Instr.nrcv d a b
    let p := popped s [a, b]
    let e := extOf (cs s) (bits (stgOf (cs s) 8 0) 3 0)
    (¬ (1 ≤ n ∧ n ≤ 64) → Refused i s p d 8 Cause.engGeom) ∧
    (1 ≤ n → n ≤ 64 → engCheck e [0, 2, 3] true false 64 off (64 * n) = none →
      (netSlots s (taskTenant (cs s).task) send < n → Refused i s p d 8 Cause.netNoslot) ∧
      (n ≤ netSlots s (taskTenant (cs s).task) send → ∃ (t : State) (rs : List NetRec), exec i s = .next t ∧
        t.netRecs = s.netRecs ++ rs ∧ rs.length = n ∧ t.nextMsg = s.nextMsg + n ∧
        (∀ j < n, ∃ r, rs[j]? = some r ∧ r.key = s.nextMsg + j ∧ r.send = send ∧ r.off = off + 64 * j ∧
          r.tenant = taskTenant (cs s).task ∧ r.seq = nextSeq (cs s) 8) ∧
        (coreAt t s.cur).effs = (cc s).effs ++ [sends s 25 2 d (statusWord 0 8 false (nextSeq (cs s) 8) 0)]))) ∧
  -- R209, R210: a collective whose checks pass waits for the other members, and its deadline is 2^26 cycles away; one that names no group
  -- of the package, or a format it does not take, is refused.
  (∀ (s : State) (d : SDst) (a b : SSrc) (op : Fin 6), Readable s [a, b] →
    let i : Instr := match op.val with
      | 0 => .collSum d a b | 1 => .collMax d a b | 2 => .collGather d a b | 3 => .collScatter d a b | 4 => .collBcast d a b
      | _ => .collBarrier d a b
    let x := srcAt s a
    let y := srcAt s b
    let cfg := stgOf (cs s) 9 0
    let cnt := (stgOf (cs s) 9 1).toNat
    let g := bits cfg 7 0
    let es := collElt (bits cfg 13 8)
    let n := collSize s g
    let sz := collBytes op n cnt es
    (es = 0 → Refused i s (popped s [a, b]) d 9 fmtRsvd) ∧
    (es ≠ 0 → 1 ≤ cnt → cnt ≤ 2 ^ 32 →
      (op.val = 5 ∨ (engCheck (extOf (cs s) (bits cfg 19 16)) [0, 2, 3] true false 1 x.toNat sz.1 = none ∧
        engCheck (extOf (cs s) (bits cfg 23 20)) [0, 2, 3] false true 1 y.toNat sz.2 = none)) → resCheck (resOf (cs s) 9) = none →
      ((collRank s g = none ∨ n ≤ bits cfg 31 24) → Refused i s (popped s [a, b]) d 9 Cause.collGroup) ∧
      (collRank s g ≠ none → bits cfg 31 24 < n → ∃ t, exec i s = .next t ∧
        t.colls = s.colls ++ [{ gid := g, cmd := engCmdOf s 9 0x0E op x y [0, 1] [bits cfg 19 16, bits cfg 23 20] }] ∧
        t.timers = s.timers ++ [(s.gts + 2 ^ 26, .collTimeout (BitVec.ofNat 8 g))] ∧
        (coreAt t s.cur).effs = (cc s).effs ++ [sends s 25 2 d (statusWord 0 9 false (nextSeq (cs s) 9) 0)]))) ∧
  -- R211, R358: BTAKE frees the seat's earlier slot of the queue and takes the oldest batch that closed before this cycle: its slot's
  -- offset; zero when there is none; a word with bit 63 and the cause for a queue or an extent it may not name.
  (∀ (s : State) (d : SDst) (a : SSrc) (n : BitVec 4), Readable s [a] →
    let q := (srcAt s a).toNat
    let e := extOf (cs s) n.toNat
    let mine := q ≤ 15 ∧ gqTenant s q = taskTenant (cs s).task
    let fits := e.v = true ∧ e.tier = gqTier s q ∧ e.base = gqBase s q ∧ gqAreaLen s q ≤ 64 * e.len
    let gives := fun (t : State) (w : Word) => exec (.btake d a n) s = .next t ∧ (coreAt t s.cur).effs = (cc s).effs ++ [sends s 25 6 d w]
    -- whatever it returns, the slot that the seat held of the queue is free, and no batch is taken
    let only := fun (t : State) => (gqAt t q).closed = (gqAt s q).closed ∧ (∀ j, (q, j) ∉ (seatAt t s.cur (cn s)).slots) ∧
      (∀ j, (q, j) ∈ (cs s).slots → j ∉ (gqAt t q).taken) ∧ ∀ p, p ≠ q → gqAt t p = gqAt s p
    (¬ mine → ∃ t, gives t (0x8000000000000000 ||| BitVec.ofNat 64 Cause.gatherQueue) ∧ only t) ∧
    (mine → ¬ fits → ∃ t, gives t (0x8000000000000000 ||| BitVec.ofNat 64 Cause.gatherExt) ∧ only t) ∧
    (mine → fits → ((gqAt s q).closed = [] ∨ ∃ k g r, (gqAt s q).closed = (k, g) :: r ∧ s.gts ≤ g) → ∃ t, gives t 0 ∧ only t) ∧
    (mine → fits → ∀ k g r, (gqAt s q).closed = (k, g) :: r → g < s.gts → ∃ t, gives t (BitVec.ofNat 64 (gqSlotOff s q k)) ∧
      (gqAt t q).closed = r ∧ k ∈ (gqAt t q).taken ∧ (q, k) ∈ (seatAt t s.cur (cn s)).slots ∧
      ∀ j, (q, j) ∈ (seatAt t s.cur (cn s)).slots → j = k))

/-! ### The cycle of a core -/

/-- R60, R87: a step whose turn is ISSUE_GROUP of a core that may issue performs each syllable of the group by `exec`, in slot order, and
then closes the group; the banks that the core leaves free then serve what has arrived for its scratchpad (R111, R307), as they do when the
core issues nothing.  Any other step, of the turn or of the inputs whose cycle has come, is its own meaning; an act of the harts waits for the
boot (R410); a cycle of which nothing is left gives way to the next (log 5). -/
def Obligations.AStepRunsTheDecodedInstruction : Prop :=
  (∀ (s : State) (i : Instr) (r : List (Nat × Instr)), s.bad = none → s.turn = [] → takeDue s.cyc s.agenda = some (i, r) →
    (∀ c, i ≠ .issueGroup c) →
    step s = if hartAct i = true ∧ booted s = false then .next { s with agenda := r } else exec i { s with agenda := r }) ∧
  (∀ s : State, s.bad = none → s.turn = [] → takeDue s.cyc s.agenda = none → ∃ t, step s = .next t ∧ t.cyc = s.cyc + 1 ∧ t.gts = s.gts + 1) ∧
  ∀ (s : State) (i : Instr) (rest : List Instr), s.bad = none → s.turn = i :: rest →
    let s0 := { s with turn := rest }
    ((∀ c, i ≠ .issueGroup c) → step s = if hartAct i = true ∧ booted s = false then .next s0 else exec i s0) ∧
    (∀ (c : CoreId) (t : State), i = .issueGroup c → (∀ n g, viewOf s0 c.val ≠ .go n g) → exec i s0 = .next t →
      step s = .next (rxServe t c)) ∧
    ∀ (c : CoreId) (n : Nat) (g : Img), i = .issueGroup c → viewOf s0 c.val = .go n g →
      ∃ s1 : State, exec i s0 = .next s1 ∧ (coreAt s1 c).grp.todo = g.syls ∧
        step s = match g.syls.foldl (fun (o : Host.Outcome State Fault Refusal) p => match o with
            | .next t =>
              exec p.2.2.2 { modCore t c fun k => { k with grp := { k.grp with bpc := p.1, ver := p.2.1, slot := p.2.2.1 } } with cur := c }
            | o => o) (.next s1) with
          | .next t => .next (rxServe (closeGroup t c) c) | .fault f => .fault f | .refused r => .refused r

/-- R57 to R60: the group a core issues is what the words at its program counter decode to: one bundle whose header has S = 1, or a bundle
with S = 0 and the one behind it, one syllable for each set bit of a mask in slot order; the next address is behind the group. Two bundles
that break a rule of a group have its cause. -/
def Obligations.AGroupIsWhatItsWordsDecodeTo : Prop :=
  ∀ (s : State) (c : Nat) (t : Seat) (off : Nat),
    let hd := fun (o : Nat) => decHeader (codeWord s c t o)
    let sl := fun (o : Nat) => slotsOf (hd o).mask
    let holds := fun (o : Nat) (l : List (Nat × Nat × Nat × Instr)) => l.length = (sl o).length ∧
      ∀ (j : Nat) (p : Nat × Nat × Nat × Instr), l[j]? = some p → p.1 = o ∧ p.2.1 = (hd o).ver ∧ (sl o)[j]? = some p.2.2.1 ∧
        decSyl (hd o).ver p.2.2.1 (codeWord s c t (o + 4 * (1 + j))) = .ok p.2.2.2
    let behind := fun (o : Nat) => o + 4 * (1 + (sl o).length + (if (hd o).yld then 1 else 0))
    (∀ g : Img, fetchGroup s c t off = .ok g → off % 4 = 0 ∧ g.addr = off ∧ g.next ≤ t.codeLen ∧ (hd off).ver < 2 ∧
      ((hd off).stop = true → holds off g.syls ∧ g.next = behind off ∧ g.gap = (hd off).gap) ∧
      ((hd off).stop = false →
        let o2 := behind off
        (hd off).yld = false ∧ (hd off).gap = 0 ∧ (hd o2).stop = true ∧ (hd o2).ver = (hd off).ver ∧ (hd off).mask &&& (hd o2).mask = 0 ∧
        g.next = behind o2 ∧ g.gap = (hd o2).gap ∧
        ∃ l1 l2 : List (Nat × Nat × Nat × Instr), g.syls = l1 ++ l2 ∧ holds off l1 ∧ holds o2 l2)) ∧
    ∀ a b : Bun, fetchBun s c t off = .ok a → a.hdr.stop = false → fetchBun s c t (off + a.len) = .ok b →
      let raises := fun (n : Nat) => ∃ es, fetchGroup s c t off = .error es ∧ n ∈ es
      (b.hdr.stop = false → raises 0x0C) ∧ (a.hdr.mask &&& b.hdr.mask ≠ 0 → raises 0x0B) ∧ (a.hdr.ver ≠ b.hdr.ver → raises 0x0F) ∧
      (a.hdr.yld = true → raises 0x0D) ∧ (a.hdr.gap ≠ 0 → raises 0x0E)

/-- R14, R60, R61, R236: a cycle of a core: an issue counts for the run and the slice and opens the group; a hold freeze does not count for
results in flight; the other freezes and a gap cycle do. -/
def Obligations.ACycleIssuesOrFreezes : Prop :=
  ∀ (s : State) (c : CoreId),
    let k := coreAt s c
    let v := viewOf s c
    let G := fun (p : Core → Prop) => Gives (.issueGroup c) s fun t => OnlyCore c { s with cur := c } t ∧ p (coreAt t c) ∧
      (coreAt t c).spad = k.spad ∧ (coreAt t c).tile = k.tile ∧ (coreAt t c).acc = k.acc
    (∀ n g, v = .go n g → G fun k' => k'.slice = k.slice + 1 ∧ k'.counts = true ∧ k'.grp.todo = g.syls ∧ k'.grp.addr = g.addr ∧
      k'.grp.next = g.next ∧ k'.grp.gap = g.gap ∧ (seatOf k' n).used = nextNo (seatOf k n) ∧ (seatOf k' n).a = (seatOf k n).a) ∧
    (v = .hold → G fun k' => k'.hold = k.hold - 1 ∧ k'.counts = false ∧
      (alsoGoverned s c = true → k'.gfrz = k.gfrz + 1 ∧ k'.ofrz = k.ofrz) ∧
      (alsoGoverned s c = false → k'.ofrz = k.ofrz + 1 ∧ k'.gfrz = k.gfrz)) ∧
    (v = .waiting → alsoGoverned s c = false → G fun k' => k'.waits = k.waits ∧ k'.counts = true ∧ k'.ofrz = k.ofrz + 1 ∧
      k'.frz = if k.frzWhy = waitsCode k.waits then k.frz + 1 else 1) ∧
    (∀ n w, v = .frozen n w → G fun k' => k'.counts = true ∧ k'.ofrz = k.ofrz + 1 ∧ k'.frz = if k.frzWhy = w then k.frz + 1 else 1) ∧
    (v = .governed → G fun k' => k'.counts = false ∧ k'.gfrz = k.gfrz + 1 ∧ k'.ofrz = k.ofrz) ∧
    (∀ o, v = .gap o → G fun k' => k'.counts = true ∧ k'.gap = k.gap - 1 ∧ k'.slice = k.slice + 1)

/-- R11 to R13, R15, R18, R44, R77, R85, R131, R134: what the results that are due and do not trap write when they land. -/
def Obligations.AResultLands : Prop :=
  -- R13, R15, R44: whatever is in flight, if nothing that is due traps: of several results for one register the last in order of issue is
  -- kept, every flag of a result that lands stands in FLG, and what is not due stays in flight.
  (∀ (s : State) (c : CoreId),
    let k := coreAt s c
    (∀ e ∈ k.effs, e.due ≤ k.ct → e.traps = false) →
    Gives (.resultLand c) s fun t => OnlyCore c s t ∧
      let k' := coreAt t c
      k'.effs = k.effs.filter (fun e => decide (k.ct < e.due) || (isStore e.land && !e.dead)) ∧ k'.spad = k.spad ∧
      (∀ m n, 1 ≤ n → n < 56 → aReg (seatOf k' m) n =
        (((inOrder k.effs).filter fun e => decide (e.due ≤ k.ct) && !e.dead).filterMap (sentTo m n)).getLast?.getD (aReg (seatOf k m) n)) ∧
      ∀ e ∈ k.effs, e.due ≤ k.ct → isStore e.land = false → ∀ b : Fin 6, e.flags.getLsbD b = true →
        (seatOf k' e.seat).flg.getLsbD b = true) ∧
  -- R11 to R13, R15, R18, R20, R22, R77, R85, R121, R131, R134, R148, R156, R161 to R164, R183: one result that is due and does not trap writes its
  -- register (a0 and p0 discard), its latch unless the core has switched seats, its entries of `fo` or of its cluster's queue, or what it is for of
  -- the control registers, the carry slots, the staging registers, the planes, the scales, the accumulators, the tiles and the d registers.
  (∀ (s : State) (c : CoreId) (e : Eff),
    let k := coreAt s c
    k.effs = [e] → e.due ≤ k.ct → e.traps = false → e.flags = 0 → e.dead = false → isStore e.land = false →
    Gives (.resultLand c) s fun t => OnlyCore c s t ∧
      let k' := coreAt t c
      let x := seatOf k e.seat
      let y := seatOf k' e.seat
      k'.effs = [] ∧ k'.spad = k.spad ∧ (∀ m, m ≠ e.seat → seatOf k' m = seatOf k m) ∧
      (∀ d l v, e.land = .sca d l v →
        (d < 56 → ∀ n, aReg y n = if n = d ∧ n ≠ 0 then v else aReg x n) ∧
        (d = 62 → y.fo = x.fo ++ [⟨0, false, v, e.iss⟩] ∧ y.foRes = x.foRes - 1 ∧ y.a = x.a) ∧
        (l < 6 → e.sw = k.sw → ∀ m, tget 0 k'.latch m = if m = l then v else tget 0 k.latch m) ∧ (e.sw ≠ k.sw → k'.latch = k.latch)) ∧
      (∀ v, e.land = .ctl 0x40 v → y = { x with fpc := fpcOf v }) ∧
      (∀ v, e.land = .ctl 0x41 v → y = { x with flg := clearFlags x.flg v }) ∧
      (∀ i v, e.land = .ctl i v → 0x20 ≤ i → i ≤ 0x27 → k' = { k with effs := [], tg := k'.tg, seqr := k'.seqr, seats := k'.seats } ∧ y = x ∧
        ∀ j, tget 0 k'.tg j = if j = i - 0x20 then v &&& 0x3FFFF else tget 0 k.tg j) ∧
      (∀ ws, e.land = .fo ws → y = { x with fo := x.fo ++ ws.map (fun w => { w with iss := e.iss }), foRes := x.foRes - ws.length }) ∧
      (∀ b d m data lb, e.land = .vec b d m data lb →
        (d < 32 → ∀ i < 16, lane (vReg y b d) i = if m.getLsbD i then lane data i else lane (vReg x b d) i) ∧
        -- a queue's entry and the vector latch hold the active lanes, the others zero
        ∃ out : Vec, (∀ i < 16, lane out i = if m.getLsbD i then lane data i else 0) ∧
          (1000 ≤ d → qoOf y b = (qoOf x b).map fun q => if q.id = d - 1000 then ⟨0, out, m⟩ else q) ∧
          (e.sw = k.sw → tget 0 k'.vlatch (if lb then 8 + b else b) = out)) ∧
      (∀ b n bm data latch lb, e.land = .vbytes b n bm data latch lb →
        (∀ i < 64, vbyte (vReg y b n) i = if bm.getLsbD i then vbyte data i else vbyte (vReg x b n) i) ∧
        (e.sw = k.sw → tget 0 k'.vlatch (if lb then 8 + b else b) = latch.getD (vReg y b n))) ∧
      (∀ b n m p q r latch, e.land = .triple b n m p q r latch →
        (∀ i < 16, lane (vReg y b n) i = (if m.getLsbD i then lane p i else lane (vReg x b n) i) ∧
          lane (vReg y b (n + 1)) i = (if m.getLsbD i then lane q i else lane (vReg x b (n + 1)) i) ∧
          lane (vReg y b (n + 2)) i = (if m.getLsbD i then lane r i else lane (vReg x b (n + 2)) i)) ∧
        (e.sw = k.sw → tget 0 k'.vlatch b = latch)) ∧
      (∀ b n m v, e.land = .pred b n m v → n < 8 →
        ∀ i < 16, (pReg y b n).getLsbD i = if n = 0 then true else if m.getLsbD i then v.getLsbD i else (pReg x b n).getLsbD i) ∧
      (∀ b v, e.land = .carry b v → y = if b then { x with carry1 := v } else { x with carry0 := v }) ∧
      (∀ q v, e.land = .stg q v → ∀ n, tget 0 y.stg n = if n = q then v else tget 0 x.stg n) ∧
      (e.land = .wswap → k'.w0 = k.w1 ∧ k'.w1 = k.w0 ∧ k'.sw0 = k.sw1 ∧ k'.sw1 = k.sw0 ∧ k'.tag0 = k.tag1 ∧ k'.tag1 = k.tag0) ∧
      -- the units of the core: of what a landing names, the new values; everything else of the core as it was
      (let K := fun (l : Core) => k' = { l with effs := [], seqr := k'.seqr, seats := k'.seats } ∧ y = x
       let put := fun (at_ n j : Nat) => at_ ≤ j ∧ j < at_ + n
       (∀ r bs g, e.land = .wrow r bs g → K { k with w1 := k'.w1, tag1 := g } ∧
         ∀ j, cellAt k'.w1 j = if put (192 * r) bs.length j then lget 0 bs (j - 192 * r) else cellAt k.w1 j) ∧
       (∀ a lo vs, e.land = .scales a lo vs → (K (if a then { k with sa := k'.sa } else { k with sw1 := k'.sw1 })) ∧
         ∀ j, tget 0 (if a then k'.sa else k'.sw1) j = if put lo vs.length j then lget 0 vs (j - lo) else tget 0 (if a then k.sa else k.sw1) j) ∧
       (∀ m, e.land = .mclr m →
         let zero := fun (b : Bool) (l : Core) => if b then { l with w1 := [], sw1 := [], tag1 := 0 } else l
         let l := zero (m.getLsbD 1) k
         K { l with acc := if m.getLsbD 0 then [] else k.acc, sa := if m.getLsbD 2 then [] else k.sa }) ∧
       (∀ n ws, e.land = .dreg n ws → K { k with d := k'.d } ∧
         ∀ j, tget 0 k'.d j = if put (560 * n) ws.length j then lget 0 ws (j - 560 * n) else tget 0 k.d j) ∧
       ∀ n bs, e.land = .tile n bs → K { k with tile := k'.tile } ∧
         ∀ j, cellAt k'.tile j = (((bs.filter fun w => decide (36864 * n + w.1 = j)).getLast?).map (·.2)).getD (cellAt k.tile j)))

/-- Results whose flags are enabled, of every kind: vectors, predicates, triples, bytes of a register, tile rows, stores, d registers, beats and
rows of the rotator. -/
def Obligations.AnEnabledFlagTraps : Prop :=
  -- R44 to R46, R135, R166, R169, R176, R183, R242, Table 11-3: a result that is due and whose flag is enabled traps, whatever it would have
  -- written: nothing of it is written, what it had reserved is free, its flags enter FLG, and the task stops with the first enabled cause of SAT,
  -- NV, DZ, OF, UF, NX (ROT_ANGLE of a row of the rotator), the flags raised in INFO0 and the row in INFO1.
  (∀ (s : State) (c : CoreId) (e : Eff),
    let k := coreAt s c
    let x := seatOf k e.seat
    k.effs = [e] → e.due ≤ k.ct → e.traps = true → x.causes = [] → x.retire = none → (x.st = .ready ∨ x.st = .parked) →
    -- a trap that lands in a completion freeze waits for its end, since the groups that have issued complete (log 22)
    (inFreeze k e.seat = true → Gives (.resultLand c) s fun t => OnlyCore c s t ∧
      let y := seatOf (coreAt t c) e.seat
      Unwritten x y e.land ∧ UnitsKept k (coreAt t c) ∧ y.st = x.st ∧ y.flg = raiseFlags x.flg e.flags ∧ (coreAt t c).cur = k.cur ∧
      (coreAt t c).waits = k.waits ∧ (coreAt t c).effs = [] ∧ y.causes.head? = some (trapOf e) ∧ ∀ m, m ≠ e.seat → seatAt t c m = seatOf k m) ∧
    (inFreeze k e.seat = false → Gives (.resultLand c) s fun t =>
      let y := seatOf (coreAt t c) e.seat
      Unwritten x y e.land ∧ UnitsKept k (coreAt t c) ∧ y.st = .stopped ∧ y.flg = raiseFlags x.flg e.flags ∧ (coreAt t c).cur ≠ some e.seat ∧
      (coreAt t c).effs = [] ∧ SameTiers s t ∧ (∀ m, m ≠ e.seat → seatAt t c m = seatOf k m) ∧
      ∃ r, y.stop = some (r, false) ∧ r.cause = (if e.land = .angle then 0x26 else trapCause (e.flags &&& e.en)) ∧ r.faddr = e.grp ∧
        r.slot = e.slot ∧ r.nt = false ∧ r.sp = 2 ∧ r.info0 = BitVec.ofNat 64 e.flags.toNat ∧ r.info1 = e.info1 ∧ r.flgs = y.flg)) ∧
  -- R45, R46: whatever else is in flight, of a seat's traps the one whose result lands first is reported, of one cycle the earlier group's, within
  -- a group the lower slot's; the other results that are due land.
  (∀ (s : State) (c : CoreId) (n : Nat) (e : Eff) (r : List Eff),
    let k := coreAt s c
    let x := seatOf k n
    pendingTraps k n = e :: r → e.due ≤ k.ct → x.causes = [] → (x.st = .ready ∨ x.st = .parked) → inFreeze k n = false →
    (∀ f ∈ k.effs, f.seat = n → f.traps = true → e.due < f.due ∨ (e.due = f.due ∧ (e.iss < f.iss ∨ (e.iss = f.iss ∧ e.slot ≤ f.slot)))) ∧
    Gives (.resultLand c) s fun t => ∃ q, (seatAt t c n).stop = some (q, false) ∧ (seatAt t c n).st = .stopped ∧ q.cause = (trapOf e).cause ∧
      q.slot = e.slot ∧ q.faddr = e.grp ∧ q.info0 = BitVec.ofNat 64 e.flags.toNat ∧ q.info1 = e.info1 ∧
      ∀ m, 1 ≤ m → m < 56 → aReg (seatAt t c n) m = (((inOrder k.effs).filter fun f => decide (f.due ≤ k.ct) && !f.dead && !f.traps).filterMap
        (sentTo n m)).getLast?.getD (aReg x m)) ∧
  -- R45, R166, R167: a beat that is due raises the flags of its additions too; if one of all those is enabled, it writes its row in neither array and
  -- stays in flight for the trap.
  (∀ (s : State) (c : CoreId) (e : Eff) (r : Nat) (acc : Bool) (cs : List W32),
    let k := coreAt s c
    let pk := coreAt s (partnerOf c)
    k.effs = [e] → e.due ≤ k.ct → e.dead = false → e.seat < 4 → e.land = .beat r acc cs →
    (let f := e.flags ||| beatFlags k e
     pk.effs = [] → f &&& e.en ≠ 0 → Gives (.beatLand c) s fun t => (coreAt t c).acc = k.acc ∧ (coreAt t c).effs = [{ e with flags := f }] ∧
       ∀ d, d ≠ c.val → coreAt t d = coreAt s d) ∧
    ∀ (x : Eff) (cs' : List W32), pk.effs = [x] → x.seat = 4 + e.seat → x.sw = e.due → x.land = .beat r acc cs' → x.dead = false →
      let f := e.flags ||| beatFlags k e ||| beatFlags pk x
      f &&& e.en ≠ 0 → Gives (.beatLand c) s fun t => (coreAt t c).acc = k.acc ∧ (coreAt t c).effs = [{ e with flags := f }] ∧
        (coreAt t (partnerOf c)).acc = pk.acc ∧ (coreAt t (partnerOf c)).effs = [{ x with dead := true }]) ∧
  -- R45, R241: a trap that has waited is taken when the freeze ends.
  ∀ (s : State) (c : CoreId) (n : Nat) (a q : Bool),
    let k := coreAt s c
    let x := seatOf k n
    k.cur = some n → k.hold = 0 → k.waits = [.claim a q] → ¬ (a = true ∧ arrayBusy s c n = true) → ¬ (q = true ∧ rotBusy k n = true) →
    x.causes ≠ [] → Gives (.claimRelease c) s fun t => StoppedFor s t c n x.causes x.pc.toNat

/-- Stores and atomics commit, beats land in the accumulators, rotator rows complete. -/
def Obligations.StoresBeatsAndRotatorRowsLand : Prop :=
  -- R15, R107, R110: whatever is in flight, the stores and atomics that are due and do not trap commit in order of issue: no byte that none
  -- of them names changes, every other effect stays in flight, the old value of an atomic is on its way; stores alone leave the last byte
  -- that one of them writes to a place.
  (∀ (s : State) (c : CoreId),
    let k := coreAt s c
    let now := inOrder (k.effs.filter (commitNow k))
    Gives (.storeCommit c) s fun t => OnlyCore c s t ∧
      let k' := coreAt t c
      (∀ m, seatOf k' m = { seatOf k m with st := (seatOf k' m).st, wait := (seatOf k' m).wait }) ∧
      (∀ p, (∀ e ∈ now, p ∉ storePlaces e.land) → cellAt k'.spad p = cellAt k.spad p) ∧
      (∀ e ∈ k.effs, commitNow k e = false → e ∈ k'.effs) ∧
      (∀ e ∈ now, ∀ ps op x y d l, e.land = .atomic ps op x y d l → ∃ w, { e with due := e.due + 8, land := .sca d l w } ∈ k'.effs) ∧
      ((∀ e ∈ now, ∃ bs, e.land = .store bs) → ∀ p, cellAt k'.spad p =
        (((now.map storedBy).flatten.filter fun w => decide (w.1 = p)).getLast?.map (·.2)).getD (cellAt k.spad p))) ∧
  -- R107, R110: a store that is due writes its bytes, the last of one place winning, and no other byte; an atomic writes its word and its
  -- old value lands 8 cycles later.
  (∀ (s : State) (c : CoreId) (e : Eff),
    let k := coreAt s c
    k.effs = [e] → e.due ≤ k.ct → e.flags = 0 → e.dead = false →
    (∀ bs, e.land = .store bs → Gives (.storeCommit c) s fun t => OnlyCore c s t ∧ (coreAt t c).effs = [] ∧
      (∀ m, seatAt t c m = { seatOf k m with st := (seatAt t c m).st, wait := (seatAt t c m).wait }) ∧
      (∀ p, (∀ b, (p, b) ∉ bs) → cellAt (coreAt t c).spad p = cellAt k.spad p) ∧
      ∀ l p b r, bs = l ++ (p, b) :: r → (∀ q, (p, q) ∉ r) → cellAt (coreAt t c).spad p = b) ∧
    ∀ ps op x y d l, e.land = .atomic ps op x y d l → ps.Nodup → ps.length = 8 → Gives (.storeCommit c) s fun t => OnlyCore c s t ∧
      let old := leNat (spadGet k ps)
      (coreAt t c).effs = [{ e with due := e.due + 8, land := .sca d l (BitVec.ofNat 64 old) }] ∧
      leNat (spadGet (coreAt t c) ps) = atomicNew 8 op old x.toNat y.toNat ∧
      ∀ p, p ∉ ps → cellAt (coreAt t c).spad p = cellAt k.spad p) ∧
  -- R48, R165 to R167: whatever beats the array holds, with no trap enabled those that are due update their rows in the order in which they
  -- entered; nothing else of the core changes but its effects.
  (∀ (s : State) (c : CoreId),
    let k := coreAt s c
    let now := k.effs.filter fun e => isBeat e && decide (e.due ≤ k.ct)
    (∀ e ∈ k.effs, e.en = 0) → (∀ e ∈ (coreAt s (partnerOf c)).effs, e.en = 0) → (∀ e ∈ now, e.dead = false) →
    (∀ e ∈ now, ∀ r acc cs, e.land = .beat r acc cs → cs.length = 192) →
    Gives (.beatLand c) s fun t =>
      (∀ r j, j < 192 → tget 0 (coreAt t c).acc (192 * r + j) =
        (now.filterMap (beatAt r j)).foldl (fun a p => if p.1 then (add32 a p.2).1 else p.2) (tget 0 (coreAt s c).acc (192 * r + j))) ∧
      (∀ d, d ≠ c.val → { coreAt t d with effs := (coreAt s d).effs } = coreAt s d) ∧
      { coreAt t c with effs := k.effs, acc := k.acc } = k ∧ t = { s with cores := t.cores }) ∧
  -- R48, R165, R166: a beat that is due and does not trap adds its columns to its accumulator row, or overwrites it; the other rows keep
  -- their values.
  (∀ (s : State) (c : CoreId) (e : Eff) (r : Nat) (acc : Bool) (cs : List W32),
    let k := coreAt s c
    k.effs = [e] → e.due ≤ k.ct → e.en = 0 → e.dead = false → e.seat < 4 → e.land = .beat r acc cs → cs.length = 192 →
    (coreAt s (partnerOf c)).effs = [] →
    Gives (.beatLand c) s fun t =>
      let k' := coreAt t c
      (∀ j < 192, tget 0 k'.acc (192 * r + j) =
        if acc then (add32 (tget 0 k.acc (192 * r + j)) (cs.getD j 0)).1 else cs.getD j 0) ∧
      (∀ i, i < 192 * r ∨ 192 * r + 192 ≤ i → tget 0 k'.acc i = tget 0 k.acc i) ∧
      (∀ d, d ≠ c.val → coreAt t d = coreAt s d) ∧ k'.spad = k.spad ∧ k'.seats = k.seats) ∧
  -- R175, R176: the rotator takes up its next tile row with the results of the cycle in which it reads it, and a row that completes without
  -- a trap writes what it computes and leaves the next row to be read; after the last row it is free.  A row that traps writes nothing.
  (∀ (s : State) (c : CoreId),
    let k := coreAt s c
    (k.seqr = none → Gives (.rotatorRow c) s fun t => t = s) ∧
    ∀ q : Seqr, k.seqr = some q →
      (q.row = none → q.run = true → q.due ≤ k.ct → k.effs = [] → Gives (.resultLand c) s fun t => OnlyCore c s t ∧ (coreAt t c).d = k.d ∧
        (coreAt t c).tile = k.tile ∧ (coreAt t c).seqr = some { q with row := some (seqRow k q.tile (q.row0 + q.next)), due := k.ct + 4 }) ∧
      (q.row = none ∨ k.ct < q.due → Gives (.rotatorRow c) s fun t => t = s) ∧
      ∀ row, q.row = some row → q.due ≤ k.ct →
        let r := seqStep k q row
        (r.2.2 = false → r.2.1 &&& q.en = 0 → Gives (.rotatorRow c) s fun t => OnlyCore c s t ∧ (coreAt t c).d = r.1.d ∧
          (coreAt t c).tile = r.1.tile ∧ (r.2.1 = 0 → (coreAt t c).effs = k.effs) ∧
          (∃ es, (coreAt t c).effs = k.effs ++ es ∧ ∀ e ∈ es, e.flags = r.2.1 ∧ e.seat = q.seat ∧ e.due = k.ct) ∧
          (coreAt t c).seqr = if q.rows ≤ q.next + 1 ∨ q.drop = true then none
            else some { q with next := q.next + 1, row := none, due := max k.ct q.fill }) ∧
        (r.2.2 = true ∨ r.2.1 &&& q.en ≠ 0 → Gives (.rotatorRow c) s fun t => OnlyCore c s t ∧ (coreAt t c).d = k.d ∧
          (coreAt t c).tile = k.tile ∧ ∃ e, (coreAt t c).effs = k.effs ++ [e] ∧ e.flags = r.2.1 ∧ e.seat = q.seat ∧ e.due = k.ct ∧ e.traps = true ∧
          e.slot = 24 ∧ e.grp = q.grp ∧ e.info1 = BitVec.ofNat 64 (q.row0 + q.next) ∧ (e.land = .angle ↔ r.2.2 = true)))

/-- R240 to R243: a stop for one cause leaves the seat stopped where it would go on, writes the record the spec describes and changes no
memory; of two causes the one of the lower rank is CAUSE and the other CAUSE2. -/
def Obligations.TakingAStop : Prop :=
  ∀ (s : State) (c n pc : Nat) (p : PCause),
    let k := coreAt s c
    let x := seatOf k n
    let rec_ := fun (p : PCause) (c2 : Option Nat) =>
      (⟨false, if p.rank ≤ 1 then 2 else if p.rank = 2 ∨ p.rank = 3 ∨ p.rank = 6 then 1 else 0, p.cause, c2, p.slot, bits x.task 31 0,
        recWord1 s x.task x.tco c n, p.faddr, pc, p.info0, p.info1, s.gts, x.flg⟩ : StopRec)
    pendingTraps k n = [] → x.retire = none →
    StoppedWith s (takeStop s c n [p] pc) c n pc (rec_ p none) ∧
    (∀ d, d ≠ c → coreAt (takeStop s c n [p] pc) d = coreAt s d) ∧
    (∀ m, m ≠ n → seatAt (takeStop s c n [p] pc) c m = seatAt s c m) ∧
    (∀ i, tierMem (takeStop s c n [p] pc) i = tierMem s i) ∧ (coreAt (takeStop s c n [p] pc) c).spad = k.spad ∧
    ∀ q : PCause, p.rank < q.rank →
      StoppedWith s (takeStop s c n [p, q] pc) c n pc (rec_ p (some q.cause)) ∧
      StoppedWith s (takeStop s c n [q, p] pc) c n pc (rec_ p (some q.cause))

/-- R64, R130, R234: a group that does not decode stops the task before it; a run that is over stops it with the run and the cycle; a freeze
of 2^20 cycles stops it with the freeze's code. -/
def Obligations.EncodingRunAndFreezeStops : Prop :=
  ∀ (s : State) (c : CoreId) (n : Nat),
    let k := coreAt s c
    let x := seatOf k n
    let stops := fun (i : Instr) (pc : Nat) (p : StopRec → Prop) => Gives i s fun t => ∃ r, StoppedWith s t c n pc r ∧ p r
    let late := viewOf s c = .overrun n ∨ (viewOf s c = .gap true ∧ k.cur = some n)
    let long := k.cur = some n ∧ 2 ^ 20 ≤ k.frz ∧ k.frzWhy ≠ 15
    -- in every state: the causes of the boundary, beside those of a trap that lands there
    (∀ e es, viewOf s c = .encoding n (e :: es) → Gives (.issueGroup c) s fun t =>
      StoppedFor s t c n (nextCauses s c n x.pc.toNat (nextNo x)) x.pc.toNat) ∧
    (late → Gives (.runOverrun c) s fun t => StoppedFor s t c n [lateCause x x.pc.toNat] x.pc.toNat) ∧
    (long → viewOf s c = .frozen n k.frzWhy → Gives (.freezeLong c) s fun t =>
      StoppedFor s t c n [⟨4, 0x67, 63, x.pc.toNat, BitVec.ofNat 64 k.frzWhy, 0⟩] x.pc.toNat) ∧
    (long → viewOf s c = .waiting → waitsCode k.waits = k.frzWhy → Gives (.freezeLong c) s fun t =>
      StoppedFor s t c n (x.causes ++ [⟨6, 0x67, 63, k.grp.addr, BitVec.ofNat 64 k.frzWhy, 0⟩])
        (if x.causes = [] then k.grp.addr else x.pc.toNat)) ∧
    -- where nothing else has happened there: what the record holds
    (pendingTraps k n = [] → x.retire = none →
      (∀ e es, viewOf s c = .encoding n (e :: es) → stops (.issueGroup c) x.pc.toNat fun r =>
        r.cause = e ∧ r.slot = 63 ∧ r.faddr = x.pc.toNat ∧ r.info0 = 0 ∧ r.info1 = 0) ∧
      (late → stops (.runOverrun c) x.pc.toNat fun r =>
        r.cause = 0xB5 ∧ r.cause2 = none ∧ r.faddr = x.pc.toNat ∧ r.info0 = BitVec.ofNat 64 x.run ∧ r.info1 = BitVec.ofNat 64 (x.run + 1)) ∧
      (long → viewOf s c = .frozen n k.frzWhy → stops (.freezeLong c) x.pc.toNat fun r =>
        r.cause = 0x67 ∧ r.faddr = x.pc.toNat ∧ r.info0 = BitVec.ofNat 64 k.frzWhy) ∧
      (long → viewOf s c = .waiting → waitsCode k.waits = k.frzWhy → x.causes = [] →
        stops (.freezeLong c) k.grp.addr fun r => r.cause = 0x67 ∧ r.faddr = k.grp.addr ∧ r.info0 = BitVec.ofNat 64 k.frzWhy))

/-- The arbiter's choice; steps, claims and CDRN end; a task retires. -/
def Obligations.SeatsAreChosenWaitAndRetire : Prop :=
  -- R231, R232: a core without a running seat starts a ready seat of the highest rank, in turn after the last one; with no ready seat it
  -- stays idle, for this cycle whatever becomes ready in it; a running seat that has not yielded goes on.
  (∀ (s : State) (c : CoreId),
    let k := coreAt s c
    let ready := fun n => n < 4 ∧ (seatOf k n).st = .ready ∧ (seatOf k n).retire = none
    k.hold = 0 → k.waits = [] →
    (k.idle = true → Gives (.arbiterChoice c) s fun t => coreAt t c = k ∧ OnlyCore c s t) ∧
    (k.cur = none → k.idle = false → k.last < 4 → (∃ n, ready n) → Gives (.arbiterChoice c) s fun t => OnlyCore c s t ∧ ∃ n, (coreAt t c).cur = some n ∧
      ready n ∧ (coreAt t c).last = n ∧ (coreAt t c).slice = 0 ∧ (∀ m, ready m → (seatOf k m).qrank ≤ (seatOf k n).qrank) ∧
      (∀ m, ready m → (seatOf k m).qrank = (seatOf k n).qrank → (n + 3 - k.last) % 4 ≤ (m + 3 - k.last) % 4) ∧
      (n ≠ k.last → (coreAt t c).latch = [] ∧ (coreAt t c).vlatch = [])) ∧
    (k.cur = none → k.idle = false → k.last < 4 → (∀ n, ¬ ready n) →
      Gives (.arbiterChoice c) s fun t => coreAt t c = { k with idle := true } ∧ OnlyCore c s t) ∧
    (k.cur.isSome = true → k.choose = false → Gives (.arbiterChoice c) s fun t => coreAt t c = k ∧ OnlyCore c s t)) ∧
  -- R96, R97, R168, R170, R201: a step whose members have all arrived, each with the stores before its STEP visible and its pair beats done, lets
  -- them go on, and not before (a member whose HALT is not wholly done has neither arrived nor retired, log 22); a yield's claims go once nothing
  -- of theirs is in flight; a CDRN goes on once every command it waits for is complete and its writes are visible.
  (∀ (s : State) (c : CoreId) (n : Fin 4),
    let k := coreAt s c
    let x := seatOf k n
    (∀ l a, (seatAt s c n).wait = some (.step l a) →
      let ms := stepMembers s c x l
      let scope := if l = 0 then 0 else if l ≤ 3 then 1 else 2
      let arrived := memberAway s x = false ∧ ∀ m ∈ ms, ∃ b, m.2.2.wait = some (.step l b) ∧ stepVisible s m.1 m.2.1 b scope = true ∧
        (l = 0 ∨ beatOut s m.1 m.2.1 b = false)
      (arrived → Gives (.stepComplete c n) s fun t => ∀ m ∈ ms, (seatAt t m.1 m.2.1).wait = none ∧ (seatAt t m.1 m.2.1).st ≠ .parked) ∧
      (¬ arrived → Gives (.stepComplete c n) s fun t => t = s)) ∧
    (∀ a q v w, k.cur = some n.val → k.hold = 0 → k.waits = v ++ .claim a q :: w → (∀ i ∈ v, ∀ a q, i ≠ .claim a q) →
      ¬ (a = true ∧ arrayBusy s c n = true) → ¬ (q = true ∧ rotBusy k n = true) →
      (x.causes = [] → x.retire = none → Gives (.claimRelease c) s fun t => OnlyCore c s t ∧ (coreAt t c).waits = v ++ w ∧
        seatAt t c n = { x with hasA := x.hasA && !a, hasQ := x.hasQ && !q }) ∧
      (x.causes = [] → x.retire.isSome = true → v ++ w = [] → Gives (.claimRelease c) s fun t => OnlyCore c s t ∧
        seatAt t c n = x ∧ (coreAt t c).cur = none ∧ (coreAt t c).waits = [])) ∧
    ∀ mask d latch bun upto v w, k.cur = some n.val → k.waits = v ++ .cdrn mask d latch bun upto :: w →
      (∀ i ∈ v, ∀ m d l b u, i ≠ .cdrn m d l b u) → x.causes = [] → x.retire = none → drainedTo s c upto = true →
      Gives (.cdrnRelease c) s fun t => OnlyCore c s t ∧ (coreAt t c).waits = v ++ w ∧ seatAt t c n = x ∧
        ∃ y : Drained, (coreAt t c).drained = k.drained ++ [y] ∧ y.seat = n.val ∧ y.dst = d ∧ y.latch = latch ∧ y.cycles = 0 ∧
          y.grp = k.grp.addr ∧ y.iss = k.grp.iss ∧ y.bun = bun) ∧
  -- R29, R103, R104, R224, R237, R266: a retiring task of which nothing is left in flight enters its exit code into the tally of its launch and
  -- leaves its seat empty; the registers keep what it left until the next dispatch.  The add to the signal word of a launch that can still be
  -- rolled back waits, so that a dependant is not released before the successful run (log 25).
  (∀ (s : State) (c : CoreId) (n : Fin 4) (r : Retire) (l : Launch),
    let x := seatAt s c n
    let q := taskQueue x.task
    let s1 := cancelStreams s c n x.task
    x.retire = some r → landedAll s c n = true → (coreAt s c).cur ≠ some n.val →
    drainedTo s1 c r.upto = true → copiesDone s1 c n = true → storesAcked s1 c n = true → published s1 c n = true →
    launchAt s q (taskLseq x.task) = some l →
    Gives (.taskCompletionSignal c n) s fun t =>
      (seatAt t c n).st = .empty ∧ (seatAt t c n).allocs = [] ∧ (seatAt t c n).hasA = false ∧ (seatAt t c n).hasQ = false ∧
      (seatAt t c n).a = x.a ∧ (seatAt t c n).v = x.v ∧ (seatAt t c n).flg = x.flg ∧
      ∃ l', launchAt t q (taskLseq x.task) = some l' ∧ l'.comp = l.comp + 1 ∧ l'.bad = l.bad + (if r.exit = 0 then 0 else 1) ∧
        l'.codes = l.codes ||| r.exit ∧
        (lrSig l ≠ 0 → (queueAt s q).st ≠ 2 → l.cap = true → l.comp + 1 < lrNtask l → l'.sigHeld = l.sigHeld + 1 ∧ SameTiers s1 t))

/-- Outcomes enter fi, errors among them; requests leave fo, those of instructions and those that a task has composed word by word. -/
def Obligations.RequestsAndOutcomesOfASeat : Prop :=
  -- R125: the oldest reserved entry of `fi` is delivered once its outcome is known: a word enters `fi`, a silent success leaves nothing.
  (∀ (s : State) (c : CoreId) (n : Fin 4),
    let x := seatAt s c n
    let G := fun (y : Seat) => Gives (.fiDeliver c n) s fun t => OnlyCore c s t ∧ seatAt t c n = y ∧
      (∀ m, m ≠ n.val → seatAt t c m = seatAt s c m) ∧ (coreAt t c).spad = (coreAt s c).spad
    (∀ id q e r, x.fiRes = ⟨id, q, some (some e)⟩ :: r → G { x with fiRes := r, fi := x.fi ++ [e] }) ∧
    (∀ id q r, x.fiRes = ⟨id, q, some none⟩ :: r → G { x with fiRes := r }) ∧
    (∀ id q r, x.fiRes = ⟨id, q, none⟩ :: r → G x) ∧ (x.fiRes = [] → G x)) ∧
  -- R126, R129: a syllable of any class that pops an error entry of `fi` reads nothing else, does nothing of its own, and stops its task with the
  -- entry's cause, the entry in INFO0; the cluster queues that its sources name are popped.
  (∀ (s : State) (i : Instr) (u : Nat) (e : FiEnt) (r : List FiEnt), slotOf i = some u → anyFi (srcsOf i) = true →
    (cs s).fi = e :: r → e.err = true →
    Stops i s { (match vsrcsOf i with | some (k, l) => popQueues (cs s) k l | none => cs s) with fi := r } (bits e.w 63 56) u e.w 0) ∧
  -- R122 to R126, R131, R320: the request at the head of `fo` leaves once its words are there: a drop of a pin becomes a message to its package's
  -- pin table and is nothing elsewhere; a request to a peer of the package becomes a message to its core.  The header of a request that a task has
  -- composed is checked now: a malformed one, and one whose extent refuses it, take an error entry; one that takes an entry waits while `fi` has none.
  (∀ (s : State) (c : CoreId) (n0 : Fin 4) (occ : List Nat) (e : FoEnt) (r : List FoEnt),
    let x := seatAt s c n0
    let k := coreAt s c
    let h := e.w
    let nw := reqWords h
    x.fo = e :: r →
    (leaveOf s c n0 = .wait → Gives (.requestLeaveFo c n0 occ) s fun t => t = s) ∧
    let room := x.fi.length + x.fiRes.length < 32
    let malformed := 4 ≤ bits h 63 60 ∨ bits h 45 40 ≠ 0 ∨
      (bits h 63 60 = 0 ∧ (bitAt h 53 = true ∨ bits h 52 51 ≠ 0 ∨ bits h 49 46 ≠ 0)) ∨ (bits h 63 60 = 1 ∧ bits h 49 46 ≠ 0) ∨
      (bits h 63 60 = 2 ∧ (bitAt h 53 = true ∨ 8 ≤ bits h 49 46 ∨ bits h 55 54 < 2))
    let access := fun (m : Nat) => extCheck (extOf x (bits h 59 56)) (if bits h 63 60 = 2 then [1, 2, 3] else [1, 2, 3, 4, 5])
      (decide (bits h 63 60 ≠ 1)) (decide (bits h 63 60 ≠ 0)) m (bits h 39 0) m
    let n := 2 ^ bits h 55 54
    let passes := e.chk = true ∨ (¬ malformed ∧ (bits h 63 60 = 3 ∨ (access n = none ∧ room)))
    let fails := fun (c' : Nat) => Gives (.requestLeaveFo c n0 occ) s fun t => (seatAt t c n0).fo = x.fo.drop nw ∧
      (seatAt t c n0).foUntil = s.cyc + nw ∧ (seatAt t c n0).resvNext = x.resvNext + 1 ∧ (seatAt t c n0).fi = x.fi ∧ t.net = s.net ∧
      ∃ z ∈ (seatAt t c n0).fiRes, z.id = x.resvNext ∧ ∃ w, z.done = some (some ⟨true, w⟩) ∧ bits w 63 56 = c' ∧
        bits w 55 52 = bits h 63 60 ∧ bits w 51 48 = bits h 59 56 ∧ bits w 39 0 = bits h 39 0
    -- the last request has left wholly, and the words of this one are all there
    (e.chk = false → (bits h 63 60 ≠ 3 ∨ malformed) → ¬ room → Gives (.requestLeaveFo c n0 occ) s fun t => t = s) ∧
    (e.chk = false → nw ≤ x.fo.length → x.foUntil ≤ s.cyc → room → (∀ z ∈ x.fiRes, z.id ≠ x.resvNext) →
      (malformed → fails Cause.foHdr) ∧ (¬ malformed → bits h 63 60 ≠ 3 → ∀ c', access n = some c' → fails c')) ∧
    (passes → nw ≤ x.fo.length → x.foUntil ≤ s.cyc →
      (bits h 63 60 = 3 → bits h 31 22 ≠ chipNo s → Gives (.requestLeaveFo c n0 occ) s fun t => OnlyCore c s t ∧
        seatAt t c n0 = { x with fo := x.fo.drop nw, foUntil := s.cyc + nw }) ∧
      (bits h 63 60 = 3 → bits h 31 22 = chipNo s → idFree s k n0 = true → Gives (.requestLeaveFo c n0 occ) s fun t =>
        seatAt t c n0 = { x with fo := x.fo.drop nw, foUntil := s.cyc + nw } ∧
        ∃ m, t.net = s.net ++ [m] ∧ m.kind = 13 ∧ m.schip = chipNo s ∧ m.dchip = chipNo s ∧ m.tenant = taskTenant x.task) ∧
      ∀ kind, kind ≤ 2 → bits h 63 60 = kind →
        let y := extOf x (bits h 59 56)
        let pinned := kind = 1 ∧ bitAt h 53 = true
        y.rv = false → y.dm = false → y.tier = 1 → y.base / 2 ^ 42 % 1024 = chipNo s → idFree s k n0 = true →
        (∀ z ∈ k.sent, z.agent ≠ n0.val) → (pinned → (freePin s).1.isSome = true) →
        Gives (.requestLeaveFo c n0 occ) s fun t => (seatAt t c n0).fo = x.fo.drop nw ∧ (seatAt t c n0).foUntil = s.cyc + nw ∧
          (∀ i, pinned → (freePin s).1 = some i → (pinAt t i).st = 1 ∧ (pinAt t i).gen = nextGen (pinAt s i).gen) ∧
          ∃ m, t.net = s.net ++ [m] ∧ m.kind = 5 + kind ∧ m.score = c.val % 96 ∧ m.sag = n0.val ∧ m.dchip = chipNo s ∧
            m.ddie = y.base / 2 ^ 40 % 4 ∧ m.dcore = y.base / 2 ^ 33 % 128 ∧ msgOk m = true ∧
            payloadOf m = bytesOf [h, (if bits h 52 51 ≠ 0 then (lget 0 (x.fo.map (·.w)) 1) else 0),
              (if kind = 0 then 0 else lget 0 (x.fo.map (·.w)) (nw - 1)), 0, 0, 0, 0, 0]))

/-! ### Channels and fabric -/

/-- Copy channels start, read, write, replay and complete commands; stream commands move entries. -/
def Obligations.ChannelsMoveBytes : Prop :=
  -- R195, R268, R302, R306: the oldest command starts with its seed, or its predecessor's check value when it is chained; a read lists the
  -- source bytes it has brought and reads on behind them.
  (∀ (s : State) (c : CoreId) (h : Fin 4) (m : CpyCmd) (rest : List CpyCmd),
    let x := chanOf s c h
    x.cmds = m :: rest →
    (m.started = false → (m.chained = false ∨ ∀ p, tfind x.pred m.seat = some p → p = (none, 0)) → Gives (.channelCommandStart c h) s fun t => OnlyCore c s t ∧
      (chanOf t c h).cmds.head? = some { m with started := true } ∧ (coreAt t c).spad = (coreAt s c).spad) ∧
    (∀ v, m.started = false → m.chained = true → tfind x.pred m.seat = some (some v, 0) → Gives (.channelCommandStart c h) s fun t =>
      OnlyCore c s t ∧ (chanOf t c h).cmds.head? = some { m with started := true, seed := v }) ∧
    ∀ s' src fill rd, mayRead s c h m = true → bitAt (mreg s (.cinj c)) 63 = false →
      readUnit s c h m = (s', .got src fill rd) → Gives (.channelRead c h false 0) s fun t => (m.src.tier = 0 → OnlyCore c s t) ∧
        (chanOf t c h).cmds.head? = some { m with rd := rd, nextAt := s.cyc + 1, pend := addPend s.cyc (src ++ fill) m.pend } ∧
        (coreAt t c).spad = (coreAt s c).spad) ∧
  -- R193: what a read brings: the bytes of the valid source rows at their offsets, and for the places outside of them the bytes of FILL, by column.
  (∀ (s : State) (c : CoreId) (h : Fin 4) (m : CpyCmd), m.len ≠ 0 →
    let r := nextSpan m
    (∀ p ∈ r.2.1, ∀ j < p.2.length, cpySrc m (p.1 + j) = none ∧
      lget 0 p.2 j = BitVec.ofNat 8 (m.fill.toNat / 2 ^ (8 * ((p.1 + j) % m.len % 4)))) ∧
    (∀ p ∈ r.1, ∀ j < p.2.2, cpySrc m (p.1 + j) = some (p.2.1 + j)) ∧
    (m.src.rv = false → m.src.dm = false → m.src.tier = 0 → r.1 ≠ [] → chanFree s c h (srcPlaces m r.1) = true →
      spadErr (coreAt s c) 0 (srcPlaces m r.1) = none → (coreAt s c).prior = [] → ∃ s', readUnit s c h m =
        (s', .got (r.1.map fun p => (p.1, (spadPlaces m.src p.2.1 p.2.2).map (cellAt (coreAt s c).spad))) r.2.1 r.2.2))) ∧
  -- R193, R197 to R200, R268, R277, R307: a unit whose bytes were read two cycles ago is written into the scratchpad once its banks serve the
  -- channel, and so is all that the log holds of a unit whose destination has been refreshed; a command that is complete leaves its channel.
  (∀ (s : State) (c : CoreId) (h : Fin 4) (m : CpyCmd),
    let x := chanOf s c h
    let k := coreAt s c
    -- bytes of a unit, row by row
    let put := fun (l : List (Nat × List Byte)) => cellsPutAll (l.flatMap fun u =>
      (rowPieces m 65 u.1 u.2).flatMap fun p => (spadPlaces m.dst (cpyDst m p.1) p.2.length).zip p.2) k.spad
    (m.mode < 3 → m.bar = none → m.dst.tier = 0 →
      (∀ pos cyc bs, x.cmds = [m] → writable s c h = [(m, (pos, cyc, bs))] → m.code = 0 → extFree m.dst = true → x.slog = [] →
        cyc + 2 ≤ s.cyc → chanFree s c h (dstPlaces m (rowPieces m 65 pos bs)) = true → Gives (.channelWrite c h 0) s fun t =>
          (m.acks = [] → OnlyCore c s t) ∧ (coreAt t c).spad = put [(pos, bs)]) ∧
      ∀ i u, replayable x = some (i, u, m) →
        let l := logGroup x m u
        chanFree s c h (dstPlaces m (l.map fun v => (v.pos, v.bytes))) = true →
        Gives (.sideLogReplay c h) s fun t => (m.acks = [] → OnlyCore c s t) ∧ (chanOf t c h).slog = x.slog.filter (fun v => !l.contains v) ∧
          (coreAt t c).spad = put (l.map fun v => (v.pos, v.bytes))) ∧
    ∀ rest, x.cmds = m :: rest → s.engBad = [] → cpyDone s c h m = true → chanFree s c h (resPlaces m.res) = true → Gives (.cpyComplete c h) s fun t =>
      (chanOf t c h).cmds = rest ∧ (chanOf t c h).comp = x.comp + 1 ∧
      (let code := if m.code = 0 ∧ m.cm = true ∧ cmdChk m ≠ m.exp then Cause.chkMismatch else m.code
       tget [] (chanOf t c h).fin m.seat = tget [] x.fin m.seat ++ [(m.ord, code)] ∧
       tfind (chanOf t c h).pred m.seat = some (if m.mode = 1 ∨ m.mode = 2 then some (cmdChk m) else none, code)) ∧
      (m.code = 0 → m.cm = false → m.res = none → (coreAt t c).spad = k.spad)) ∧
  -- R114, R194, R197, R198: of a unit within one row: the bytes that have passed with their check value (the sum of their words, their CRC-32C), the
  -- elements of a reduction, added or compared with what stands there, and the credit of the command's barrier, one for each byte.
  (∀ (s : State) (c : CoreId) (h : Fin 4) (m : CpyCmd) (pos cyc : Nat) (bs : List Byte),
    let x := chanOf s c h
    let k := coreAt s c
    let ps := spadPlaces m.dst (cpyDst m pos) bs.length
    x.cmds = [m] → writable s c h = [(m, (pos, cyc, bs))] → m.code = 0 → extFree m.dst = true → x.slog = [] → m.acks = [] → bs ≠ [] →
    rowPieces m 65 pos bs = [(pos, bs)] → m.dst.tier = 0 → cyc + 2 ≤ s.cyc → unitTurn x m pos = true → chanFree s c h ps = true →
    (m.mode = 3 → spadErr k 0 ps = none) →
    let chk : W32 := if m.mode = 1 then sumWords bs else if m.mode = 2 then crc32c 0 bs else 0
    Gives (.channelWrite c h 0) s fun t => OnlyCore c s t ∧
      (chanOf t c h).cmds = [{ m with pend := cutRange m.pend pos bs.length, done := joinDone m.mode (tput pos (bs.length, chk) m.done) }] ∧
      (coreAt t c).spad = (if m.mode = 3 then (reduceSpad m.rop ps bs k).spad else cellsPutAll (ps.zip bs) k.spad) ∧
      ∀ b, m.bar = some b → (seatAt s c m.seat).task = m.task →
        barOf (seatAt t c m.seat) b = { barOf (seatAt s c m.seat) b with
          count := min ((barOf (seatAt s c m.seat) b).count + bs.length) (2 ^ 40 - 1) }) ∧
  (∀ (d x : W32), reduceOp 0 d x = (add32 d x).1 ∧ reduceOp 1 d x = d + x ∧ reduceOp 2 d x = (rne32 (fvMax (val32 d) (val32 x)).1).1 ∧
    reduceOp 3 d x = (rne32 (fvMin (val32 d) (val32 x)).1).1) ∧
  -- R193, R280: a unit of a tier of the package goes into the write buffer of the core's die, in the name of its command.
  (∀ (s : State) (c : CoreId) (h : Fin 4) (m : CpyCmd) (pos cyc : Nat) (bs : List Byte),
    let x := chanOf s c h
    let a := m.dst.base + cpyDst m pos
    x.cmds = [m] → writable s c h = [(m, (pos, cyc, bs))] → m.code = 0 → extFree m.dst = true → x.slog = [] → m.mode < 3 →
    rowPieces m 65 pos bs = [(pos, bs)] → 2 ≤ m.dst.tier → m.dst.tier ≤ 5 → a + bs.length ≤ tierSize m.dst.tier →
    accessRefusal s m.dst.tier a bs.length = none →
    Gives (.channelWrite c h 1) s fun t => ∃ w : BufWr, t.wbuf = s.wbuf ++ [w] ∧ w.buf = c / 96 ∧ w.tier = m.dst.tier ∧ w.addr = a ∧
      w.bytes = bs ∧ w.owner = some (4 * c + m.seat) ∧ w.path = engPath h m.seq ∧ (coreAt t c).spad = (coreAt s c).spad ∧
      -- R262: to tier 4 or 5, or with a valid word for a launch ring, it costs its launch the rollback capability
      (m.dst.tier = 4 ∨ m.dst.tier = 5 ∨ ringValid s m.dst.tier a bs = true →
        ∀ l ∈ (queueAt t (taskQueue m.task)).launches, l.lseq = taskLseq m.task → l.cap = false) ∧
      (¬ (m.dst.tier = 4 ∨ m.dst.tier = 5 ∨ ringValid s m.dst.tier a bs = true) → t.queues = s.queues)) ∧
  -- R134, R196: a stream command pushes its next 64 bytes into its cluster's queue, or pops the next filled entry of c.qo.
  (∀ (s : State) (c : CoreId) (h : Fin 4) (m : CpyCmd),
    let t0 := seatAt s c m.seat
    let q := streamCluster m m.units
    (chanOf s c h).cmds = [m] → m.started = true → m.code = 0 → t0.task = m.task →
    (∀ cyc bs, gather 65 m.pend (64 * m.units) 64 = some (cyc, bs) →
      (m.mode = 4 → (qaOf t0 q).length < 8 → Gives (.streamQueuePush c h) s fun t => (m.acks = [] → OnlyCore c s t) ∧
        qaOf (seatAt t c m.seat) q = qaOf t0 q ++ [⟨0, BitVec.ofNat 512 (leNat bs), 0xFFFF⟩] ∧
        (chanOf t c h).cmds.map (·.units) = [m.units + 1]) ∧
      (m.mode = 5 → (qbOf t0 q).length < 8 → Gives (.streamQueuePush c h) s fun t => (m.acks = [] → OnlyCore c s t) ∧
        qbOf (seatAt t c m.seat) q = qbOf t0 q ++ [⟨0, BitVec.ofNat 512 (leNat bs), 0xFFFF⟩] ∧
        (chanOf t c h).cmds.map (·.units) = [m.units + 1])) ∧
    (∀ e r, m.mode = 6 → qoOf t0 q = e :: r → e.id = 0 → 64 * m.units < cpyTotal m → extFree m.dst = true → m.dst.tier = 0 →
      (chanOf s c h).slog = [] → chanFree s c h (spadPlaces m.dst (cpyDst m (64 * m.units)) 64) = true → Gives (.streamQueuePop c h) s fun t =>
        qoOf (seatAt t c m.seat) q = r ∧ (chanOf t c h).cmds.map (·.units) = [m.units + 1]))

/-- R307, R308, R312, R313, R318, R326, R328: what DATA, RED, CRD and FIN do at a core whose grant table admits them, from whatever package
they come: they take their place in the receive buffer, whose banks then write their bytes (before the tag of a DATA is looked at), reduce
them or increment the flag word, and answer; a CRD is answered with the source bytes.  That the banks serve a message from the cycle after it
has come on, and that the answer leaves behind the cycle (`late`), is the model's choice (log 5). -/
def Obligations.ChannelMessagesArrive : Prop :=
  (∀ (s : State) (m : Msg),
    let c := msgCore m
    let k := coreAt s c
    let off : Nat := (m.flits.head?.map (·.off)).getD 0
    let joins := fun (i : Instr) (e : RxEnt) => Gives i s fun t => coreAt t c = { k with rx := k.rx ++ [e] } ∧
      (∀ d, d ≠ c → coreAt t d = coreAt s d) ∧ t = { takeMsg s m with cores := t.cores }
    arrived s m = true → m.dunit = 0 → m.dchip = chipNo s → m.dcore < 96 →
    (∀ i, m.kind = 0 → grantCheck s c m 1 (flitRanges m.flits) true = .ok i → joins (.data m) ⟨m, i, msgPieces m⟩) ∧
    (msgOk m = true → cached k m = none → rxHas k m = false →
      (∀ i : Nat, m.kind = 2 → rxFlits k ≤ 48 → grantCheck s c m 2 (flitRanges m.flits.tail) (decide (off % 4 = 0)) = .ok i →
        spadErr k 0 ((msgPieces m).map piecePlaces).flatten = none → joins (.red m) ⟨m, i, msgPieces m⟩) ∧
      ∀ i : Nat, m.kind = 1 → coreDown s c = false →
        k.flagEnt.find? (fun e => decide (e.1 = srcNo m) && decide (e.2.1 = m.sag) && decide (e.2.2.1 = off)) = some (srcNo m, m.sag, off, i) →
        let w0 := grantWord s c i 0
        let w1 := grantWord s c i 1
        grantFrom w0 m = true → bits w0 58 43 = m.tenant → bitAt w1 63 = true → grantCovers s c i [(bits w1 44 23, 8)] = true →
        bitAt w0 60 = true → joins (.fin m) ⟨m, i, []⟩) ∧
    (∀ i n, msgOk m = true → m.kind = 3 → (payWord m 0).toNat = n → n ≤ 1024 → grantCheck s c m 0 [(off, n)] true = .ok i →
      spadErr k 0 ((countUp off n).map (· % 2 ^ 22)) = none → Gives (.crd m) s fun t => (coreAt t c).spad = k.spad ∧
        ∃ y ∈ (coreAt t c).replies, y.msg.kind = 4 ∧ y.msg.msgid = m.msgid ∧ y.msg.dchip = m.schip ∧
          (y.msg.flits.map (·.data)).flatten = spadGet k ((countUp off n).map (· % 2 ^ 22)))) ∧
  -- (what the banks do for the oldest message of the buffer, in a cycle in which its own are free)
  (∀ (s : State) (c : Nat) (e : RxEnt),
    let k := coreAt s c
    let m := e.msg
    let k' := coreAt (rxServe s c) c
    let answers := fun (kind : Nat) (p : Msg → Prop) => k'.rx = [] ∧ ∃ r, (rxServe s c).late = s.late ++ [r] ∧ r.kind = kind ∧ r.sag = m.sag ∧
      r.msgid = m.msgid ∧ r.dchip = m.schip ∧ r.ddie = m.sdie ∧ r.dcore = m.score ∧ p r
    k.rx = [e] → k.adds = [] →
    (banksFree k (e.left.map piecePlaces).flatten = true → (e.left.flatMap fun p => ((piecePlaces p).map bankOf).eraseDups).Nodup →
      (m.kind = 0 → k'.spad = cellsPutAll (e.left.flatMap fun p => (piecePlaces p).zip p.2) k.spad ∧
        answers (if msgOk m then 9 else 10) fun _ => True) ∧
      (m.kind = 2 → k'.spad = (e.left.foldl (fun k p => reduceSpad (redOp m) (piecePlaces p) p.2 k) k).spad ∧ answers 9 fun _ => True)) ∧
    (m.kind = 0 ∨ m.kind = 2 → e.left ≠ [] → (∀ p ∈ e.left, banksFree k (piecePlaces p) = false) → k'.rx = [e] ∧ k'.spad = k.spad) ∧
    (m.kind = 1 → banksFree k (flagPlaces s c e.ent) = true →
      leNat (spadGet k' (flagPlaces s c e.ent)) = (leNat (spadGet k (flagPlaces s c e.ent)) + 1) % 2 ^ 64 ∧ answers 9 fun _ => True) ∧
    -- R110, R111, R319 to R321: single requests
    (msgCore m = c → banksFree k (reqPlaces m) = true →
      let h := payWord m 0
      let n := 2 ^ bits h 55 54
      let old := leNat (spadGet k (reqPlaces m))
      (m.kind = 5 → bits h 63 60 = 0 → spadErr k 0 (reqPlaces m) = none → k'.spad = k.spad ∧
        answers 8 fun r => payWord r 0 = BitVec.ofNat 64 old) ∧
      (m.kind = 6 → bits h 63 60 = 1 → k'.spad = cellsPutAll ((reqPlaces m).zip (natBytes n (payWord m 16).toNat)) k.spad ∧
        answers 9 fun _ => True) ∧
      (m.kind = 7 → bits h 63 60 = 2 → spadErr k 0 (reqPlaces m) = none →
        leNat (spadGet k' (reqPlaces m)) = atomicNew n (bits h 49 46) old ((payWord m 16).toNat % 2 ^ (8 * n)) 0 % 2 ^ (8 * n) ∧
        answers 8 fun r => payWord r 0 = BitVec.ofNat 64 old))) ∧
  -- R391, R402: the counters of network records are incremented behind the arriving messages, when their banks are free.
  ∀ (s : State) (c n : Nat) (ps : List Nat),
    let k := coreAt s c
    let k' := coreAt (rxServe s c) c
    k.rx = [] → k.adds = [(n, ps)] → ps.Nodup → ps.length = 8 →
    (banksFree k ps = true → leNat (spadGet k' ps) = (leNat (spadGet k ps) + 1) % 2 ^ 64 ∧ k'.adds = [] ∧
      ∀ p, p ∉ ps → cellAt k'.spad p = cellAt k.spad p) ∧
    (banksFree k ps = false → k'.adds = [(n, ps)] ∧ k'.spad = k.spad)

/-- Single requests are performed, answers reach their source, messages are sent and resent.  Byte 24 of an answer, which says what it answers, and
the places of the check values in an ACK are the model's (log 12); so is `late`, from where an answer leaves behind the cycle (log 5). -/
def Obligations.RequestsAnswersAndMessages : Prop :=
  -- R293, R313, R315, R319 to R321: a single request without pins that its core admits takes its place in the receive buffer.
  (∀ (s : State) (m : Msg) (i : Nat),
    let c := msgCore m
    let k := coreAt s c
    let n := 2 ^ bits (payWord m 0) 55 54
    let off : Nat := (m.flits.head?.map (·.off)).getD 0
    arrived s m = true → m.dunit < 16 → m.dchip = chipNo s → m.dcore < 96 → (m.kind = 5 ∨ m.kind = 6 ∨ m.kind = 7) → rxFlits k < 64 →
    msgOk m = true → cached k m = none → rxHas k m = false → (∀ h ∈ s.hold, sameMsg h.msg m = false ∧ sameUnit h.msg m = false) →
    msgPins m = [] → grantCheck s c m (m.kind - 5) [(off, n)] (decide (m.kind ≠ 7) || decide (off % n = 0)) = .ok i →
    Gives (.singleRequest m) s fun t => coreAt t c = { k with rx := k.rx ++ [⟨m, 0, []⟩] } ∧ (∀ d, d ≠ c → coreAt t d = coreAt s d) ∧
      t = { takeMsg s m with cores := t.cores }) ∧
  -- R125, R198, R312, R314, R320: what the answers do at their source: REP and ACK end the request they answer, an acknowledged piece of a
  -- copy counts as passed, a read reply's bytes join their command, and a refusal sets the back-off after which the message is resent.
  (∀ (s : State) (m : Msg) (x : Sent),
    let c := msgCore m
    let k := coreAt s c
    arrived s m = true → m.dchip = chipNo s → m.dcore < 96 → msgOk m = true → findSent k m.sag m.msgid = some x →
    (m.kind = 8 → respFail m = none → x.agent < 4 → x.seq ≠ 1 → x.msg.kind ≠ 6 → Gives (.rep m) s fun t =>
      (coreAt t c).sent = k.sent.erase x ∧ (coreAt t c).spad = k.spad ∧ (seatAt t c x.agent).fiRes = (seatAt s c x.agent).fiRes.map fun r =>
        if r.id = x.resv ∧ r.done = none then { r with done := some (some ⟨false, payWord m 0⟩) } else r) ∧
    (m.kind = 9 → forReply m = false → respFail m = none → x.agent < 4 → x.seq ≠ 1 → x.msg.kind = 6 → x.len ≠ 1 → Gives (.ack m) s fun t =>
      (coreAt t c).sent = k.sent.erase x ∧ (seatAt t c x.agent).fiRes = (seatAt s c x.agent).fiRes.filter fun r => r.id ≠ x.resv) ∧
    (∀ y, m.kind = 9 → forReply m = false → respFail m = none → 4 ≤ x.agent → (chanOf s c (x.agent - 4)).cmds = [y] →
      y.seat = x.seat → y.seq = x.seq → Gives (.ack m) s fun t => (coreAt t c).sent = k.sent.erase x ∧
        (x.msg.kind = 1 → (chanOf t c (x.agent - 4)).cmds.map (·.finDone) = [true]) ∧
        (x.msg.kind ≠ 1 → y.code = 0 → x.len ≠ 0 →
          let v := BitVec.ofNat 32 (if y.mode = 1 then bits (payWord m 0) 31 0 else if y.mode = 2 then bits (payWord m 0) 63 32 else 0)
          (chanOf t c (x.agent - 4)).cmds.map (·.done) = [joinDone y.mode (tput x.first (x.len, v) y.done)])) ∧
    (∀ y, m.kind = 4 → x.len = ((m.flits.map (·.data)).flatten).length → (chanOf s c (x.agent - 4)).cmds = [y] → y.seat = x.seat →
      y.seq = x.seq → y.code = 0 → bitAt (mreg s (.cinj c)) 63 = false → Gives (.crdr m) s fun t => (coreAt t c).sent = k.sent.erase x ∧
        let bs := (m.flits.map (·.data)).flatten
        let ack := mkResp s 9 m (answerBytes m (ackBytes bs))
        let on := y.dst.tier = 1 ∧ y.mode < 4
        (chanOf t c (x.agent - 4)).cmds = [{ y with pend := addPend s.cyc [(x.first, bs)] y.pend,
                                                    acks := if on then y.acks else y.acks ++ [(x.first, bs.length, ack)] }] ∧
        t.late = if on then s.late ++ [ack] else s.late) ∧
    (m.kind = 10 → bits (payWord m 24) 7 0 = 0 → bits (payWord m 0) 7 0 ≠ 3 → x.refusals < 15 → Gives (.nack m) s fun t =>
      let at_ := s.gts + min (32 * 2 ^ x.refusals) 4096
      t.timers = s.timers ++ [(at_, .messageResend (Fin.ofNat 384 c) (Fin.ofNat 8 x.agent) x.id [])] ∧
      ∀ z ∈ (coreAt t c).sent, z.agent = x.agent → z.id = x.id → z.refusals ≠ 0 ∧ z.resendAt = some at_)) ∧
  -- R309, R311, R314, R323: a channel sends the next bytes of a command to a peer of the package as a DATA message that verifies; a message
  -- whose back-off is over goes out again.
  (∀ (s : State) (c : CoreId) (occ : List Nat),
    (∀ (h : Fin 4) (m : CpyCmd), idFree s (coreAt s c) (4 + h) = true → sendsNow s c h = true → peerReplay (coreAt s c) h = none →
      (chanOf s c h).cmds = [m] → m.started = true → m.code = 0 → m.dst.base / 2 ^ 42 % 1024 = chipNo s →
      let sends := fun (kind : Nat) (p : State → Msg → Prop) => Gives (.messageSend c h false occ) s fun t => ∃ msg,
        t.net = s.net ++ [msg] ∧ msg.kind = kind ∧ msgOk msg = true ∧ msg.dchip = chipNo s ∧ msg.ddie = m.dst.base / 2 ^ 40 % 4 ∧
        msg.dcore = m.dst.base / 2 ^ 33 % 128 ∧ msg.tenant = taskTenant m.task ∧ (coreAt t c).sendTurn = h.val ∧ p t msg
      (∀ p bs, sendOf s c h m = .data p bs → bs ≠ [] → bs.length ≤ 1024 → sends (if m.mode = 3 then 2 else 0) fun t msg =>
        msgBytes msg = bs ∧ (m.mode = 3 → redOp msg = m.rop % 4) ∧ (chanOf t c h).cmds.map (·.sent) = [p + bs.length]) ∧
      (sendOf s c h m = .fin → sends 1 fun t _ => (chanOf t c h).cmds.map (·.finSent) = [true])) ∧
    -- R199: a logged unit whose destination has been refreshed goes first, and stays in the log until it is acknowledged
    (∀ (h : Fin 4) (m : CpyCmd) (i : Nat) (u : LogUnit), idFree s (coreAt s c) (4 + h) = true → sendsNow s c h = true →
      peerReplay (coreAt s c) h = some (i, u, m) → m.mode < 3 → m.dst.base / 2 ^ 42 % 1024 = chipNo s → u.bytes.length ≤ 64 →
      Gives (.messageSend c h false occ) s fun t => ∃ msg, t.net = s.net ++ [msg] ∧ msg.kind = 0 ∧ msgOk msg = true ∧ msgBytes msg = u.bytes ∧
        (chanOf t c h).slog = lset (chanOf s c h).slog i { u with out := true }) ∧
    ∀ (a : Fin 8) (x : Sent), ((coreAt s c).sent.find? fun y => decide (y.agent = a.val) && decide (y.id = x.id) && dueBy y.resendAt s.gts) =
        some x → x.msg.dunit < 16 → x.msg.dchip = chipNo s → (∀ y ∈ (coreAt s c).replies, dueBy y.resendAt s.gts = false) →
      (∀ y ∈ s.engSent, y.agent ≠ a.val) → Gives (.messageResend c a x.id occ) s fun t => t.net = s.net ++ [x.msg] ∧
        ∀ y ∈ (coreAt t c).sent, y.agent = a.val → y.id = x.id → y.resendAt = none)

/-- Pin entries and completion caches age; what happens at a fabric port.  A notice about a port stands in the management fault log, which is the
model's (log 13). -/
def Obligations.PinsCachesAndPorts : Prop :=
  -- R127, R131, R271, R298, R315, R330: queries register with a pending pin, a landed pin's report frees what waited for it, drops and age
  -- return an entry to free, and answers older than their time leave the completion cache.
  (∀ (s : State) (m : Msg) (i : Fin 16384),
    let w := payWord m 0
    let j := bits w 21 8
    let p := pinAt s j
    (arrived s m = true → m.kind = 11 → m.dchip = chipNo s → msgOk m = true → p.st = 1 → p.gen = bits w 7 0 → p.tenant = m.tenant →
        Gives (.pqry m) s fun t =>
      pinAt t j = { p with wait := p.wait ++ [(bits (payWord m 8) 9 0 + 1024 * m.msgid, w)] } ∧ t.hold = s.hold ∧ t.cores = s.cores) ∧
    -- a report that a pin has landed strikes it out of every request of its tenant that is held
    (arrived s m = true → m.kind = 12 → m.dchip = chipNo s → msgOk m = true → bits (payWord m 8) 1 0 = 2 → Gives (.prep m) s fun t =>
      ∀ h ∈ t.hold, h.msg.tenant = m.tenant → BitVec.ofNat 32 w.toNat ∉ h.pins) ∧
    (∀ h q, arrived s m = true → m.kind = 12 → m.dchip = chipNo s → msgOk m = true → bits (payWord m 8) 1 0 = 2 → s.hold = [h] →
      h.pins = [BitVec.ofNat 32 w.toNat, q] → q ≠ BitVec.ofNat 32 w.toNat → h.msg.tenant = m.tenant → Gives (.prep m) s fun t =>
        t.hold = [{ h with pins := [q] }] ∧ t.cores = s.cores ∧
        ∀ x, s.engSent.find? (fun x => decide (x.agent = agPin) && decide (x.id = m.msgid)) = some x → t.engSent = s.engSent.erase x) ∧
    -- a drop, or age, leaves an entry free whatever waits for it
    (arrived s m = true → m.kind = 13 → m.dchip = chipNo s → m.schip = chipNo s → msgOk m = true → p.st ≠ 0 → p.gen = bits w 7 0 →
      bits w 7 0 ≠ 0 → p.tenant = m.tenant → Gives (.pdrop m) s fun t => (pinAt t j).st = 0) ∧
    ((pinAt s i).st = 2 ∨ (pinAt s i).st = 3 → (pinAt s i).at_ + 65536 ≤ s.gts → Gives (.pinExpire i) s fun t => (pinAt t i).st = 0) ∧
    (arrived s m = true → m.kind = 13 → m.dchip = chipNo s → m.schip = chipNo s → msgOk m = true → p.st ≠ 0 → p.gen = bits w 7 0 →
      bits w 7 0 ≠ 0 → p.tenant = m.tenant → p.wait = [] → s.hold = [] → Gives (.pdrop m) s fun t =>
        pinAt t j = { p with st := 0, wait := [] } ∧ t.cores = s.cores) ∧
    ((pinAt s i).st = 2 ∨ (pinAt s i).st = 3 → (pinAt s i).at_ + 65536 ≤ s.gts → s.hold = [] → Gives (.pinExpire i) s fun t =>
      pinAt t i = { pinAt s i with st := 0 } ∧ t.cores = s.cores) ∧
    ∀ c : CoreId, Gives (.completionCacheExpire c) s fun t => OnlyCore c s t ∧
      coreAt t c = { coreAt s c with cache := (coreAt s c).cache.filter fun e => decide (s.gts < e.until_) }) ∧
  -- R298, R315, R317, R410: what happens at a fabric port: replays are counted, and too many reported; training sets UP and the width once the
  -- package has booted; a failed port loses UP and is reported, and what waited for it is returned with reason 3.
  (∀ (s : State) (p : Fin 32) (two : Bool),
    let w := mreg s (.pst p)
    let wid := if two then 1 else 2
    (∀ n, Gives (.linkReplay p n) s fun t => mreg t (.pst p) = setBits w 63 32 (bits w 63 32 + n) ∧ t.cores = s.cores ∧
      (s.replays = [] → let lim := bits (mreg s .fabcfg) 43 32
        t.mlog = if lim ≠ 0 ∧ lim < n then s.mlog ++ [(Cause.linkReplay, BitVec.ofNat 64 p)] else s.mlog)) ∧
    (booted s = true → Gives (.portRetrain p two) s (fun t => bits (mreg t (.pst p)) 2 0 = 2 * wid + 1 ∧ t.cores = s.cores) ∧
      ∀ n < 1024, Gives (.fabricPortUp p n two) s fun t => bits (mreg t (.pst p)) 2 0 = 2 * wid + 1 ∧ bits (mreg t (.pst p)) 25 16 = n ∧
        t.cores = s.cores) ∧
    (booted s = false → Gives (.portRetrain p two) s (fun t => t = s) ∧ ∀ n, Gives (.fabricPortUp p n two) s fun t => t = s) ∧
    (Gives (.linkDown p) s fun t => bitAt (mreg t (.pst p)) 0 = false ∧ (∀ x ∈ t.out, x.1 ≠ p.val) ∧ (∀ v ∈ t.vcs, v.1 / 8 ≠ p.val) ∧
      (Cause.linkDown, BitVec.ofNat 64 p.val) ∈ t.mlog) ∧
    (s.out = [] → s.hold = [] → (∀ v ∈ s.vcs, v.1 / 8 ≠ p.val) → Gives (.linkDown p) s fun t => bitAt (mreg t (.pst p)) 0 = false ∧
      t.cores = s.cores ∧ t.net = s.net ∧ t.mlog = s.mlog ++ [(Cause.linkDown, BitVec.ofNat 64 p)]) ∧
    ∀ (r : Bool) (v : Fin 4) (x : Transit), s.vcs = [(vcKey p r v, { credits := 0, wait := [x] })] → s.out = [] → s.hold = [] →
      kindResp x.msg.kind = false → x.msg.schip = chipNo s → Gives (.linkDown p) s fun t => t.cores = s.cores ∧ t.vcs = [] ∧
        ∃ m, t.net = s.net ++ [m] ∧ m.kind = 10 ∧ m.msgid = x.msg.msgid ∧ m.ddie = x.msg.sdie ∧ m.dcore = x.msg.score ∧ m.sag = x.msg.sag ∧
          bits (payWord m 0) 7 0 = 3) ∧
  -- R324: credits that come back let the flits that wait for them leave in order; a channel that has had none for 2^20 cy posts VC_TIMEOUT, whose
  -- information words are zero, for each queue whose traffic waits on it, and no other; its flits keep waiting.
  (∀ (s : State) (p : Fin 32) (r : Bool) (v : Fin 4),
    let x := vcAt s p r v
    let V := fun (n : Nat) (f : State → Prop) => Gives (.vcTimeout ⟨p, r, v⟩ n) s fun t => t.cores = s.cores ∧ f t
    ((x.dry = none ∨ ∃ g, x.dry = some g ∧ s.gts < g + 2 ^ 20) → V 0 fun t => t = s) ∧
    (∀ g, x.dry = some g → g + 2 ^ 20 ≤ s.gts → V 0 fun t => vcAt t p r v = { x with dry := none } ∧ t.out = s.out ∧
      ∀ q, (queueAt t q).recs.map (fun y => (y.1, y.2.cause, y.2.info0, y.2.info1)) =
        (queueAt s q).recs.map (fun y => (y.1, y.2.cause, y.2.info0, y.2.info1)) ++
          if (∃ y ∈ x.wait, trafficOf s y.msg = some q) then [(none, Cause.vcTimeout, 0, 0)] else []) ∧
    (∀ n, n ≠ 0 → x.wait = [] → V n fun t => vcAt t p r v = { x with credits := min 32 (x.credits + n), dry := none } ∧ t.out = s.out) ∧
    ∀ n y, n ≠ 0 → x.wait = [y] → 0 < x.credits + n → y.msg.flits.length - x.left ≤ min 32 (x.credits + n) → V n fun t => t.out = s.out ++ [(p.val, y)] ∧
      (vcAt t p r v).wait = [] ∧ (vcAt t p r v).credits = min 32 (x.credits + n) - (y.msg.flits.length - x.left)) ∧
  -- R323, R324, R332: a message of another package is delivered, or goes on through the channel of the links it has crossed: at once, or when that
  -- has credits again.
  ∀ (s : State) (x : Transit), x.msg.kind < 15 →
    let ph := x.ph || decide (x.mchip = chipNo s)
    let port := bits (rtOf s (if ph then x.dchip else x.mchip)) 62 58
    let y := { x with ph := ph, crossed := x.crossed + 1 }
    let v := vcAt s port x.resp x.crossed
    (∀ i, ph = true → x.dchip = chipNo s → arrivalOf x.msg = some i → Gives (.flitForward x) s fun t =>
      t = { s with turn := s.turn ++ [i] }) ∧
    (¬(ph = true ∧ x.dchip = chipNo s) → x.crossed < 4 → portUp s port = true →
      (v.wait = [] → v.left = 0 → x.msg.flits.length ≤ v.credits → Gives (.flitForward x) s fun t => t.out = s.out ++ [(port, y)] ∧
        t.cores = s.cores ∧ (vcAt t port x.resp x.crossed).credits = v.credits - x.msg.flits.length) ∧
      (v.wait = [] → v.left = 0 → v.credits = 0 → x.msg.flits ≠ [] → Gives (.flitForward x) s fun t => t.out = s.out ∧
        t.cores = s.cores ∧ (vcAt t port x.resp x.crossed).wait = [y]))

/-! ### Memories and streams -/

/-- Writes reach their ordering points; harts and hosts; channel widths; the pool's failures.  What belongs to no queue stands in the management
fault log (log 13); the harts' accesses, and the capacity event as an entry of that log, are the model's (log 40), and so is the input that says a
read of the pool gets no completion (log 35). -/
def Obligations.MemoriesAndTheirAgents : Prop :=
  -- R276, R277, R278, R280, R415: a buffered write to tiers 2 and 3 takes its place at its ordering point; one to tier 4 passes from its die's
  -- buffer to the port buffer first; a write that meets an earlier one of its buffer keeps behind it; the writes of one command to a unit move
  -- together, and what another agent has written there between them keeps its place in the order.
  (∀ (s : State) (w : BufWr) (rest : List BufWr), memoryWf s → s.wbuf = w :: rest →
    ((∀ x ∈ rest, sameMove w x = false) →
      (w.tier = 4 → w.buf ≠ 4 → Gives (.orderingPointArrival 0) s fun t =>
        t = { s with wbuf := rest ++ [{ w with buf := 4, at_ := s.gts }] }) ∧
      ((w.tier = 2 ∨ w.tier = 3 ∨ w.tier = 4 ∧ w.buf = 4) → w.launch = none → w.owner = none → w.pin = none →
        Gives (.orderingPointArrival 0) s fun t => t.wbuf = rest ∧ t.cores = s.cores ∧
          (stageOff s w.tier = false → Wrote s t w.tier w.addr w.bytes) ∧ (stageOff s w.tier = true → SameTiers s t))) ∧
    (∀ y z, rest = [y, z] → sameMove w z = true → meetsUnit w y = true → w.bytes ≠ [] → z.bytes ≠ [] → (w.tier = 2 ∨ w.tier = 3) →
      stageOff s w.tier = false → (∀ x ∈ s.wbuf, x.launch = none ∧ x.pin = none ∧ x.resv = 0) → Gives (.orderingPointArrival 0) s fun t =>
        t.wbuf = [] ∧ t.cores = s.cores ∧ ∀ i a, cellAt (tierMem t i) a = if i = w.tier then
          cellAt (cellsPut z.addr z.bytes (cellsPut y.addr y.bytes (cellsPut w.addr w.bytes (tierMem s i)))) a else cellAt (tierMem s i) a) ∧
    ∀ x r, rest = x :: r → x.buf = w.buf → x.tier = w.tier → x.addr = w.addr → x.bytes ≠ [] → w.bytes ≠ [] →
      Gives (.orderingPointArrival 1) s fun t => t = s) ∧
  -- R274, R280, R285, R408: a hart's load brings bytes as they stand at their ordering points, its store enters the package's buffers and
  -- changes no tier yet, its fence brings that store to its ordering point; another host of the pool writes tier 4 at once.
  (∀ (s : State) (a : Nat) (bs : List Byte), memoryWf s →
    (∀ i n, 2 ≤ i → i ≤ 5 → s.wbuf = [] → tierHas i a n = true → readRefusal s i a n = none → widthWait s i a n = false →
      firstPoison s i (unitsOf a n) = none → Gives (.hartMemoryAccess (.load i a n)) s fun t =>
        t.hartReads = s.hartReads ++ [cellsAt (tierMem s i) a n] ∧ SameTiers s t ∧ t.cores = s.cores ∧
        (s.soft = [] → t = { s with hartReads := t.hartReads })) ∧
    (∀ i, 2 ≤ i → i ≤ 5 → tierHas i a bs.length = true → accessRefusal s i a bs.length = none → Gives (.hartMemoryAccess (.store i a bs)) s fun t =>
      SameTiers s t ∧ t.cores = s.cores ∧
      ∃ w, t.wbuf = s.wbuf ++ [w] ∧ w.tier = i ∧ w.addr = a ∧ w.bytes = bs ∧ w.owner = none ∧ isHart w = true) ∧
    (Gives (.hartMemoryAccess .fence) s fun t => ∀ w ∈ t.wbuf, isHart w = true → w.tier = 4) ∧
    (∀ (c : CoreId) (tn : Nat) (key : Word), Gives (.hartMemoryAccess (.clearTag c tn key)) s fun t => OnlyCore c s t ∧
      coreAt t c = { coreAt s c with tags := (coreAt s c).tags.filter fun e => !(decide (e.tenant = tn) && decide (e.key = key)) }) ∧
    (∀ w, s.wbuf = [w] → isHart w = true → w.tier = 3 → w.launch = none → w.pin = none → Gives (.hartMemoryAccess .fence) s fun t =>
      t.wbuf = [] ∧ Wrote s t 3 w.addr w.bytes ∧ t.cores = s.cores) ∧
    (tierHas 4 a bs.length = true → Gives (.poolHostAccess a (some bs)) s fun t => Wrote s t 4 a bs ∧ t.cores = s.cores ∧ t.mgmt = s.mgmt) ∧
    Gives (.poolHostAccess a none) s fun t => t = s) ∧
  -- R338, Tables 17-1, 17-2a: a stack hotter than HBMHOT runs its channels at half width, one that has stayed below HBMCOOL at full width
  -- again unless a lane has failed; a channel that changes its width issues nothing for at most 2^14 cy.
  (∀ (s : State) (st : Fin 4) (ch : Fin 128) (temp : BitVec 16), regsSorted s →
    let reg := fun (t : State) => mreg t (.hbmst ch.val)
    let stack := ch.val / 32 = st.val
    let moved := fun (t : State) (w : Nat) => bits (reg s) 1 0 ≠ w → ch.val ∈ t.widthBusy ∧
      (s.gts + 2 ^ 14, .widthTransitionEnd ch) ∈ t.timers
    (bits (mreg s .hbmhot) 15 0 < temp.toNat → stack → Gives (.hbmThermalDrop st temp) s fun t =>
      bitAt (reg t) 2 = true ∧ bits (reg t) 1 0 = 1 ∧ bitAt (reg t) 3 = bitAt (reg s) 3 ∧ moved t 1 ∧ t.cores = s.cores ∧ SameTiers s t) ∧
    (temp.toNat < hbmCool s → tget 0 s.hotAt st.val + 2 ^ 20 ≤ s.gts → stack → bitAt (reg s) 3 = false → Gives (.hbmThermalRestore st temp) s fun t =>
      bitAt (reg t) 2 = false ∧ bits (reg t) 1 0 = 2 ∧ moved t 2 ∧ t.cores = s.cores ∧ SameTiers s t) ∧
    (Gives (.hbmLaneFault ch) s fun t => bitAt (reg t) 3 = true ∧ bits (reg t) 1 0 = 1 ∧ moved t 1 ∧ t.cores = s.cores ∧
      ∀ k : Fin 128, k ≠ ch → mreg t (.hbmst k.val) = mreg s (.hbmst k.val)) ∧
    Gives (.widthTransitionEnd ch) s fun t => (∀ k, k ∈ t.widthBusy ↔ k ∈ s.widthBusy ∧ k ≠ ch.val) ∧ t.mgmt = s.mgmt) ∧
  -- R343, R344: a pool write without completion in time is reported to its issuer; a read that gets no completion ends with CXL_TIMEOUT, once; a
  -- root port that has lost its link is reported once, and every access through it then ends with CXL_TIMEOUT; capacity events reach the
  -- control complex.
  (∀ (s : State) (p : Fin 8) (info : Word),
    (∀ k w, lget none (s.wbuf.map some) k = some w → cxlLate s w = true → Gives (.cxlTimeout (.write k)) s fun t => t.wbuf = ldel s.wbuf k ∧
      (t.t4 = s.t4 ∨ t.t4 = cellsPut w.addr w.bytes s.t4) ∧
      (w.owner = none → t.cores = s.cores ∧ t.mlog = s.mlog ++ [(Cause.cxlTimeout, wordOf w.addr)]) ∧
      (∀ o, w.owner = some o → w.path = 0 → ∀ r ∈ (seatAt t (o / 4) (o % 4)).fiRes, r.id = w.resv → r.done ≠ none)) ∧
    (s.wbuf = [] → p.val ∉ s.cxlDown → Gives (.cxlLinkLoss p) s fun t => t.mlog = s.mlog ++ [(Cause.cxlLink, wordOf p.val)] ∧
      t.cores = s.cores ∧ SameTiers s t ∧ ∀ a n, (∀ b ∈ cxlPieces a n, (cxlPortAt s b).isSome = true) →
        (∃ b ∈ cxlPieces a n, cxlPortAt s b = some p.val) → accessRefusal t 4 a n = some Cause.cxlTimeout) ∧
    (p.val ∈ s.cxlDown → Gives (.cxlLinkLoss p) s fun t => t = s) ∧
    (Gives (.cxlTimeout (.read p)) s fun t => t = { s with cxlLost := s.cxlLost ++ [p.val] } ∧
      ∀ d a n, tierHas 4 a n = true → accessRefusal s 4 a n = none → (∃ b ∈ cxlPieces a n, cxlPortAt s b = some p.val) →
        (memRead t d 4 a n).2.1 = some Cause.cxlTimeout ∧ p.val ∉ (memRead t d 4 a n).1.cxlLost ∧ SameTiers s (memRead t d 4 a n).1) ∧
    Gives (.cxlCapacityEvent info) s fun t => t = { s with mlog := s.mlog ++ [(0, info)] })

/-- Itinerary entries are read; hops start and land. -/
def Obligations.StreamsAndHops : Prop :=
  -- R346, R347: the next entry of an itinerary is read and kept, or the stream ends with the cause of the first check the entry fails.
  (∀ (s : State) (t : Fin 16) (bs : List Byte),
    let x := strAt s t
    s.widthBusy = [] → x.st = 1 → x.next < x.n → (∀ e ∈ x.ents, shardDone s x e = false → x.next < e.1 + 64) → x.itin.rv = false →
    x.itin.dm = false →
    (∀ s', engFetch s none x.core x.tenant x.itin (x.ioff + 32 * x.next) 32 = (s', none, bs) → entCheck (wordsOf bs) = none →
      Gives (.itineraryRead t) s fun u => u = { s' with streams := u.streams } ∧
        strAt u t = { strAt s' t with ents := (strAt s' t).ents ++ [((strAt s' t).next, wordsOf bs)], next := (strAt s' t).next + 1 } ∧
        ∀ k, k ≠ t.val → strAt u k = strAt s' k) ∧
    ∀ c, x.ents = [] → x.res = none → engFetch s none x.core x.tenant x.itin (x.ioff + 32 * x.next) 32 = (s, none, bs) →
      entCheck (wordsOf bs) = some c → Gives (.itineraryRead t) s fun u => (strAt u t).st = 0 ∧ (strAt u t).ents = [] ∧
      u.cores = s.cores ∧ (∀ k, k ≠ t.val → strAt u k = strAt s k) ∧
      (queueAt u (taskQueue x.task)).recs.length = (queueAt s (taskQueue x.task)).recs.length + 1) ∧
  -- R334, R347 to R351: H0 and H1 of the next shard start when the hop before has landed, the strait has room and both addresses translate:
  -- the source is read, its writes are in the buffers and no tier has changed; H2 starts by reading the shard.
  (∀ (s : State) (t : Fin 16) (h : Fin 3) (i : Nat) (w : List Word),
    let x := strAt s t
    let n := shardLen w
    let src := hopSrcOf w h
    let dt := if h.val = 0 then 3 else 2
    s.widthBusy = [] → nextShard x h = some (i, w) → x.noted.contains (i, h.val) = false → (∀ p, hopBefore w h = some p → hopSt x i p = 2) →
    strait s x h n = true → (h.val = 0 → leads s x = true ∧ x.live = true) →
    ∀ s1 ps, virtPlaces x.tenant true false (n / 65536 + 2) s src.1 n = (s1, .ok ps) → (∀ p ∈ ps, p.1 = src.2) →
      (∀ s2 s3 qs bs, h.val < 2 → (h.val = 0 → archOf x = none) →
        virtPlaces x.tenant false true (n / 65536 + 2) s1 (shardVa w (h + 1)) n = (s2, .ok qs) → (∀ q ∈ qs, q.1 = dt) →
        readPlaces ps s2 = (s3, none, bs) → (h.val = 1 → s3.hbmPower = 0) →
        Gives (.hopStart t h) s fun u => hopSt (strAt u t) i h = 1 ∧ SameTiers s3 u ∧ u.cores = s3.cores ∧
          ∃ ws, u.wbuf = s3.wbuf ++ ws ∧ (∀ y ∈ ws, y.tier = dt ∧ y.owner = none ∧ y.path = hopPath t h i) ∧
            ∀ b, qs = [(dt, b, n)] → bs.length = n → tierHas dt b n = true →
              (ws.map (·.bytes)).flatten = bs ∧ ∀ y ∈ ws, b ≤ y.addr ∧ y.addr < b + n) ∧
      (∀ s2 bs, h.val = 2 → readPlaces ps s1 = (s2, none, bs) → Gives (.hopStart t h) s fun u => hopSt (strAt u t) i 2 = 1 ∧
        (strAt u t).h2data = (strAt s2 t).h2data ++ [(i, bs)] ∧ SameTiers s2 u ∧ u.cores = s2.cores)) ∧
  -- R202, R334, R347: the step that names no shard ends a stream whose work is over, with a notice if it has failed and none if it was stopped, and
  -- leaves every other stream as it is (that this end is a step of its own is the model's, log 32).
  (∀ (s : State) (t : Fin 16) (h : Fin 3) (i : Nat),
    let x := strAt s t
    let recs := fun (u : State) => (queueAt u (taskQueue x.task)).recs.length
    entOf x i = none → (4, t.val) ∉ s.engBad →
    ((x.st = 0 ∨ streamOver s x = false) → Gives (.hopLand t h i) s fun u => u = s) ∧
    (x.st ≠ 0 → streamOver s x = true → x.res = none → Gives (.hopLand t h i) s fun u => (strAt u t).st = 0 ∧ u.cores = s.cores ∧ SameTiers s u ∧
      (∀ k, k ≠ t.val → strAt u k = strAt s k) ∧
      recs u = recs s + if x.st = 1 ∨ x.endCode = 0 ∨ x.endCode = Cause.tierStopped then 0 else 1)) ∧
  -- R334, R348, R349, R351: a hop whose writes are at their ordering points has landed, and its lateness is added; H2 brings the shard's bytes
  -- to its consumers, and lands when each has it or has given it up.
  ∀ (s : State) (t : Fin 16) (i : Nat) (w : List Word),
    let x := strAt s t
    let n := shardLen w
    let out := fun (h : Nat) => ∃ b ∈ s.wbuf, b.owner = none ∧ b.path = hopPath t h i
    entOf x i = some w → x.st ≠ 0 →
    (hopSt x i 0 = 1 → ¬ out 0 → Gives (.hopLand t 0 i) s fun u => hopSt (strAt u t) i 0 = 2 ∧
      (strAt u t).late0 = satAdd x.late0 (s.gts - dueOf x w 0) ∧ (x.res = none → SameTiers s u ∧ u.cores = s.cores)) ∧
    (hopSt x i 1 = 1 → ¬ out 1 → Gives (.hopLand t 1 i) s fun u => hopSt (strAt u t) i 1 = 2 ∧
      (strAt u t).late1 = satAdd x.late1 (s.gts - dueOf x w 1) ∧ (x.res = none → SameTiers s u ∧ u.cores = s.cores)) ∧
    (hopSt x i 0 = 1 → out 0 → Gives (.hopLand t 0 i) s fun u => u = s) ∧ (hopSt x i 1 = 1 → out 1 → Gives (.hopLand t 1 i) s fun u => u = s) ∧
    (hopSt x i 2 = 1 → (∀ c ∈ consumers w, h2Over x i c n = true) → (∀ p ∈ x.gone, p.1 ≠ i) → Gives (.hopLand t 2 i) s fun u =>
      hopSt (strAt u t) i 2 = 2 ∧ (strAt u t).late2 = satAdd x.late2 (s.gts - dueOf x w 2) ∧
      (x.res = none → SameTiers s u ∧ u.cores = s.cores)) ∧
    ∀ c k data, hopSt x i 2 = 1 → x.res = none → ((consumers w).filter fun c => !h2Over x i c n && (consumerSeat s x c).isSome) = [c] →
      consumerSeat s x c = some k → x.h2data.find? (fun p => decide (p.1 = i)) = some (i, data) → data.length = n →
      let e := extOf (seatAt s c k) (entBits w 3 31 28)
      let off := entBits w 3 27 15 * 512
      let got := h2Got x i c
      got ≤ n → engCheck e [0] false true 1 0 (off + n) = none → extFree e = true → Gives (.hopLand t 2 i) s fun u =>
        ∃ m, m ≤ n - got ∧ (got < n → 0 < m) ∧ h2Got (strAt u t) i c = got + m ∧ SameTiers s u ∧
          (coreAt u c).spad = cellsPutAll ((spadPlaces e (off + got) m).zip ((data.drop got).take m)) (coreAt s c).spad

/-- Archipelago members, pacing, and the replacement of weights.  What the first flit of an ENGD message of a shard holds, its group, its number and
its bytes, and that the member's later acknowledgement repeats the MSGID of the last one, is the model's (log 12). -/
def Obligations.PacingAndWeightReplacement : Prop :=
  -- R329, R334, R351: a member's tier engine keeps a shard that has reached it, the leader counts a member's acknowledgement, and one that
  -- does not come in time is reported; at every GTS that is a multiple of 4,096 the pace lateness of each running stream is halved.
  (∀ (s : State) (t : Fin 16) (i member : Nat),
    let x := strAt s t
    (∀ m, arrived s m = true → m.kind = kEngd → m.dchip = chipNo s → msgOk m = true → m.dunit = 3 → (payWord m 8).toNat = i →
      memberStream s (payWord m 0).toNat m.tenant = some t →
      let bs := (m.flits.tail.map (·.data)).flatten
      let off := (m.flits.head?.map (·.off)).getD 0
      (Gives (.engd m) s fun u => strAt u t = joinShard x i (payWord m 16).toNat off bs m.msgid ∧ u.cores = s.cores ∧ u.wbuf = s.wbuf) ∧
      -- the shard has arrived with the message that brings the last of its bytes
      ((∀ d ∈ x.engd, d.1 ≠ i) → hopSt x i 0 = 0 → (∀ p ∈ x.parts, p.1 / 2 ^ 22 ≠ i) → off < 2 ^ 22 → bs.length = (payWord m 16).toNat →
        Gives (.engd m) s fun u => (strAt u t).engd = x.engd ++ [(i, bs)] ∧ tget 0 (strAt u t).engdId i = m.msgid)) ∧
    (x.st ≠ 0 → member ∈ membersOf s x → (i, member) ∉ x.mack → (hopSt x i 0 ≠ 0 ∨ ∃ p ∈ x.sentAt, p.1 / 1024 = i) →
      Gives (.memberAck t i member) s fun u => (strAt u t).mack = x.mack ++ [(i, member)] ∧ (x.res = none → u.cores = s.cores) ∧
      ∀ y ∈ u.engSent, y ∈ s.engSent ∧ ¬(y.agent = agTier ∧ y.seat = t.val ∧ y.first = i ∧ y.seq = member)) ∧
    (∀ g g0, archOf x = some g → tfind x.sentAt (1024 * i + member) = some g0 →
      let lim := 64 * bits (mreg s (.mcast (4 * g + 3))) 19 0
      x.st ≠ 0 → lim ≠ 0 → g0 + lim ≤ s.gts → (i, member) ∉ x.mack → Gives (.mcastAckTimeout t i member) s fun u =>
        strAt u t = x ∧ (queueAt u (taskQueue x.task)).recs = (queueAt s (taskQueue x.task)).recs ++
          [(none, noticeOf s (taskLseq x.task) (recWord1 s x.task x.tco x.core x.seat) Cause.mcastAck none 0 0)]) ∧
    (s.gts % 4096 ≠ 0 → Gives .paceHalve s fun u => u = s) ∧
    (s.gts % 4096 = 0 → (tkeys s.streams).Nodup → t.val ∈ tkeys s.streams → x.st ≠ 0 → Gives .paceHalve s fun u =>
      (strAt u t).pl = x.pl / 2 ∧ (strAt u t).late0 = x.late0 ∧ u.cores = s.cores ∧ SameTiers s u)) ∧
  -- R353, R354: a write of WRCTL reads and checks its descriptor and gates its queues; when they have drained STEP is 2; a gate that lasts
  -- too long opens and nothing is written; else the new weights replace the old ones and the gate opens.
  (∀ (s : State) (v : Word) (r : Replace),
    let step := fun (t : State) => bits (mreg t .wrstat) 1 0
    let code := fun (t : State) => bits (mreg t .wrstat) 63 56
    let w := fun (i : Nat) => lget 0 r.words i
    (∀ i, bitAt v 0 = true → ckBusy s = false → bitAt (mreg s .wrctl) 1 = false → bits v 63 61 = i → (i = 2 ∨ i = 3 ∨ i = 5) →
      tierHas i (bits v 45 6 * 64) 64 = true → readRefusal s i (bits v 45 6 * 64) 64 = none →
      firstPoison s i (unitsOf (bits v 45 6 * 64) 64) = none →
      let ws := wordsOf ((countUp (bits v 45 6 * 64) 64).map (obsByte s none i))
      (wrCheck ws = none → Gives (.weightReplace v) s fun t => (∃ o, t.repl = some { step := 1, words := ws, at_ := s.gts, old := o } ∧
        (s.repl = none → o = 0)) ∧ step t = 1 ∧ code t = code s ∧ bitAt (mreg t .wrctl) 1 = true ∧ t.cores = s.cores ∧ SameTiers s t) ∧
      ∀ c, wrCheck ws = some c → s.repl = none → Gives (.weightReplace v) s fun t => t.repl = none ∧ code t = c ∧ step t = 0 ∧ SameTiers s t) ∧
    (s.repl = some r → r.step = 1 →
      ((residents s fun x => bitAt (w 4) (taskQueue x)) = [] → (∀ k < 16, bitAt (w 5) k = true → (strAt s k).st = 0) →
        Gives .replaceDrainDone s fun t => t.repl = some { r with step := 2 } ∧ step t = 2 ∧ t.cores = s.cores ∧ SameTiers s t) ∧
      (r.at_ + bits (w 5) 47 16 * 1024 ≤ s.gts → Gives .replaceGateTimeout s fun t => t.repl = none ∧ code t = Cause.tierGate ∧
        step t = 0 ∧ t.cores = s.cores ∧ SameTiers s t)) ∧
    (s.repl = some r → r.step = 2 → s.widthBusy ≠ [] → Gives .replaceCopyDone s fun t => t = s) ∧
    (∀ i j, s.widthBusy = [] → s.repl = some r → r.step = 2 → bits (w 0) 63 61 = i → bits (w 1) 63 61 = j → i ≠ j → 2 ≤ i → i ≤ 5 → 2 ≤ j → j ≤ 4 →
      (w 3).toNat % 64 = 0 → s.wbuf = [] → tierHas i (bits (w 0) 45 0) (w 3).toNat = true → tierHas j (bits (w 1) 45 0) (w 3).toNat = true →
      readRefusal s i (bits (w 0) 45 0) (w 3).toNat = none → accessRefusal s j (bits (w 1) 45 0) (w 3).toNat = none →
      firstPoison s i (unitsOf (bits (w 0) 45 0) (w 3).toNat) = none →
      Gives .replaceCopyDone s fun t => t.repl = none ∧ code t = 0 ∧ step t = 0 ∧ t.cores = s.cores ∧
        Wrote s t j (bits (w 1) 45 0) (cellsAt (tierMem s i) (bits (w 0) 45 0) (w 3).toNat)))

/-! ### Engines -/

/-- The KV, top-k and gather engines perform their commands, unless a channel of the HBM4 stage changes its width.  Which free entry, page or journal
unit a command takes is a free value (log 4), and so is the order of a lone append and a release of one cycle (log 38). -/
def Obligations.KvTopkAndGatherArePerformed : Prop :=
  -- R190, R203, R370, R371, R383: the KV engine of a die performs its next command and notes what came of it, or ends a backward replay; a
  -- command whose effects its issuer sees leaves the engine, and counts no longer toward its task's limit.
  (∀ (s : State) (d : Fin 4) (m : EngCmd), engBroken s d 5 = none → s.widthBusy = [] →
    let kv := (dieAt s d).kv
    let seen := fun (y : EngCmd) => decide (y.prog = 2) && resFree y.res && (decide (y.core / 96 = d.val) || pathClear s y.core y.seat (engPath 5 y.seq))
    let done := fun (l : List EngCmd) (o : KvEnd) => l.map fun y =>
      if y = m then { m with prog := 2, code := o.code, val := o.val, ent := o.ent, phys := o.phys } else y
    (kv.find? seen = some m → Gives (.kvCommandPerform d) s fun t => (dieAt t d).kv = kv.erase m ∧
      (m.res = none → m.code = 0 → SameTiers s t ∧ (∀ q, (queueAt t q).recs = (queueAt s q).recs) ∧
        let x := seatAt s m.core m.seat
        (x.st ≠ .empty → x.task = m.task → x.tco = m.tco →
          seatAt t m.core m.seat = { x with outst := tmod 0 5 (· - 1) x.outst })) ∧
      -- the record's second word is the handle as it stands at completion
      (∀ e off, m.res = some (e, off) → e.tier = 0 → m.code = 0 → (coreAt t m.core).spad = cellsPutAll ((spadPlaces e off 16).zip
        (natBytes 8 (statusWord 0 5 true m.seq m.val).toNat ++ natBytes 8 (match m.ent with | some k => handleWord s d k | none => m.word1).toNat))
        (coreAt s m.core).spad)) ∧
    (kv.find? seen = none → (∀ y ∈ kv, y.prog = 2 → y.res = none) →
      let s0 := kvOrder s d
      let l := (dieAt s0 d).kv
      ((∀ y ∈ l, y.prog ≠ 1) → (l.find? fun y => y.ord && decide (y.prog = 0)) = some m → (∀ e ∈ m.exts, e.2.rv = false ∧ e.2.dm = false) →
        (∀ s' o, kvDo s0 d m = (s', some o) → Gives (.kvCommandPerform d) s fun t => t = { s' with dies := t.dies } ∧
          (dieAt t d).kv = done (dieAt s' d).kv o) ∧
        ∀ s', kvDo s0 d m = (s', none) → Gives (.kvCommandPerform d) s fun t => t = { s' with dies := t.dies } ∧
          (dieAt t d).kv = (dieAt s' d).kv.map fun y => if y = m then { m with prog := 1 } else y) ∧
      ((l.find? fun y => decide (y.prog = 1)) = some m → (l.find? fun y => y.ord && decide (y.prog = 0)) = none →
        ∀ s' o, kvReplay (drawWord s0).2 d m = (s', o) → o.code = 0 ∧ o.val = (tget [] (dieAt s0 d).jrn (handleEnt m.a)).length - 1 ∧
          Gives (.kvCommandPerform d) s fun t => t = { s' with dies := t.dies } ∧ (dieAt t d).kv = done (dieAt s' d).kv o))) ∧
  -- R203, R262, R371, R373, R380, R381, R383: what the commands do, each checked in the order of R371, on a die whose tables lie apart: a lookup
  -- walks the tree as far as it matches and makes a handle of the pages it has found; a fork makes one of the pages below its bound; a release
  -- lets its pages go; a journal opens with HEAD and is closed by a commit.  The page counts follow exactly.
  (∀ (s : State) (d : Nat) (m : EngCmd), KvLaid s d →
    let f := kvFmtOf s d
    let tenant := taskTenant m.task
    let e := handleEnt m.a
    let w0 := entWord s d e 0
    let tn := entTnode s d e
    let b := m.b.toNat
    let fails := fun (c : Nat) => kvDo s d m = (s, some { code := c })
    let ok := kvTableUe s d e [] = none ∧ handleCheck s d tenant m.a = none
    let whole := kvTableUe s d e (allPlaces f f.maxp) = none
    let pages := (mappedBelow s d e f.maxp).map (·.2.2)
    (m.op = 5 → ∀ bs, engFetch s (some d) m.core tenant ((m.exts.head?.map (·.2)).getD {}) m.a.toNat (4 * b) = (s, none, bs) →
      let ids := w32s bs
      let ns := treeWalk s d tenant f.maxp 0 ids
      let n := ns.length
      let got := (ns.map (·.pages)).flatten
      let nodeNo := fun (i : Nat) => if i = 0 then 0 else ((ns[i - 1]?).map (·.id)).getD 0
      let child := fun (i : Nat) => childOf s d tenant (nodeNo i) ((ids.drop (32 * i)).take 32)
      (n ≤ f.maxp ∧ 32 * n ≤ ids.length ∧ (∀ i < n, child i = ns[i]?) ∧ (n < f.maxp → 32 * (n + 1) ≤ ids.length → child n = none)) ∧
      ((∃ g ∈ got, 65535 ≤ cntOf s d g) → fails Cause.kvRefmax) ∧
      ∀ x s2, (∀ g ∈ got, cntOf s d g < 65535) → findEnt s d = (x, s2) →
        (x = none → kvDo s d m = (s2, some { code := Cause.kvHtfull })) ∧
        ∀ k, x = some k → kvTableUe s d k [] = none → (∀ y ∈ ns, y.pages.length = f.nl) → (∀ g ∈ got, g < noPage) → ∃ t,
          kvDo s d m = (t, some { code := 0, val := 32 * n, ent := some k }) ∧ (∀ g, cntOf t d g = cntOf s d g + got.count g) ∧
          Entry0 t d k 4 (32 * n) (pack [(bits (entWord s d k 0) 55 48, 48), (tenant, 32)]) ∧ entLb t d k = 0 ∧
          entWin t d k = bits (tget 0 m.stg 3) 19 0 ∧ entTnode t d k = nodeNo n % 2 ^ 32 ∧
          (dieAt t d).nodes = (dieAt s d).nodes.map (fun y => if ns.any (fun z => decide (z.id = y.id)) then { y with last := s.gts } else y) ∧
          ∀ l < f.nl, ∀ p < f.maxp, mapAt t d k l p = (ns[p]?).map fun y => lget noPage y.pages l) ∧
    (m.op = 7 → ok →
      let np := (b + 31) / 32
      let got := (mappedBelow s d e np).map (·.2.2)
      let path := nodePath s d ((dieAt s d).nodes.length + 1) tn
      (entBound s d e < b → fails Cause.handleBound) ∧
      (b ≤ entBound s d e → (b < entLb s d e → fails Cause.kvWindow) ∧
        (entLb s d e ≤ b → (bitAt w0 61 = true → fails Cause.kvBusy) ∧
          (bitAt w0 61 = false → ((∃ g ∈ got, 65535 ≤ cntOf s d g) → fails Cause.kvRefmax) ∧
            ∀ k s2, (∀ g ∈ got, cntOf s d g < 65535) → findEnt s d = (some k, s2) → kvTableUe s d k [] = none →
              kvTableUe s d e (allPlaces f (min np f.maxp)) = none → ∃ t, kvDo s d m = (t, some { code := 0, ent := some k }) ∧
              (∀ g, cntOf t d g = cntOf s d g + got.count g) ∧
              Entry0 t d k 4 b (pack [(bits (entWord s d k 0) 55 48, 48), (tenant, 32)]) ∧
              entLb t d k = entLb s d e ∧ entWin t d k = entWin s d e ∧
              -- on the tree only where the parent's node is, at least as deep as the bound's whole pages
              entTnode t d k = (if tn = offTree ∨ (tn ≠ 0 ∧ nodeAt s d tn = none) ∨ path.length < b / 32 then offTree
                else if b / 32 = 0 then 0 else lget offTree path (b / 32 - 1) % 2 ^ 32) ∧
              (∀ l < f.nl, ∀ p < f.maxp, mapAt t d k l p = if 32 * p < b then mapAt s d e l p else none) ∧
              seenAt t d (kvEntry s d k).1 ((kvEntry s d k).2 + 128) (4 * (b % 32)) =
                seenAt s d (kvEntry s d e).1 ((kvEntry s d e).2 + 128) (4 * (b % 32)))))) ∧
    (m.op = 8 → ok → (bitAt w0 61 = true → fails Cause.kvBusy) ∧
      (bitAt w0 61 = false → whole → ∃ t, kvDo s d m =
          (t, some { code := 0, val := kvUsed (dieAt s d) - kvUsed (dieAt t d), ent := some e }) ∧
        (∀ g, cntOf t d g = cntOf s d g - pages.count g) ∧ tget [] (dieAt t d).jrn e = [] ∧ tget [] (dieAt t d).junits e = [] ∧
        bits (entWord t d e 0) 63 61 = 0 ∧ bits (entWord t d e 0) 55 48 = (bits w0 55 48 + 1) % 256)) ∧
    (m.op = 9 → ok → (bitAt w0 61 = true → fails Cause.kvBusy) ∧
      (bitAt w0 61 = false →
        let jo := entJo s d e
        let js := tget [] (dieAt s d).jrn e
        (m.sub = 0 → (jo = true → fails Cause.journalState) ∧ (jo = false → (kvJfree s d = 0 → fails Cause.journalFull) ∧
          (kvJfree s d ≠ 0 → ∃ t, kvDo s d m = (t, some { code := 0 }) ∧ Entry0 t d e 6 (entBound s d e) w0 ∧
            tget [] (dieAt t d).jrn e = js ++ [.head (entBound s d e) (entLb s d e) tn] ∧ ∀ g, cntOf t d g = cntOf s d g))) ∧
        (m.sub ≠ 0 → jo = false → fails Cause.journalState) ∧
        (m.sub = 1 → jo = true → kvTableUe s d e (allPlaces f (min (entLb s d e / 32) f.maxp)) = none → ∃ t,
          kvDo s d m = (t, some { code := 0, val := js.length }) ∧ Entry0 t d e 4 (entBound s d e) w0 ∧
          tget [] (dieAt t d).jrn e = [] ∧ tget [] (dieAt t d).junits e = [] ∧
          ∀ g, cntOf t d g = cntOf s d g - ((mappedBelow s d e (entLb s d e / 32)).map (·.2.2)).count g) ∧
        (m.sub = 2 → jo = true → ∃ t, kvDo s d m = (t, none) ∧ Entry0 t d e 7 (entBound s d e) w0 ∧ ∀ g, cntOf t d g = cntOf s d g))) ∧
    -- the end of a backward replay, of HEAD and of one allocation or copy
    (∀ bd lb t0 l p g n t o, l < f.nl → p < f.maxp → e < bits (mreg s (.kvht d)) 58 40 → g < bits (mreg s (.kvpool d)) 63 40 →
      n < bits (mreg s (.kvpool d)) 63 40 → n ≠ g → bd < 2 ^ 20 → lb < 2 ^ 20 → t0 < 2 ^ 32 → kvReplay s d m = (t, o) →
      let js := tget [] (dieAt s d).jrn e
      let back := Entry0 t d e 4 bd w0 ∧ entLb t d e = lb ∧ entTnode t d e = t0 ∧ tget [] (dieAt t d).jrn e = []
      bitAt w0 63 = true → (js = [.head bd lb t0] → back ∧ o.val = 0) ∧
      (js = [.head bd lb t0, .alloc l p n] → back ∧ o.val = 1 ∧ mapAt t d e l p = none ∧
        ∀ x, cntOf t d x = if x = n then cntOf s d n - 1 else cntOf s d x) ∧
      (js = [.head bd lb t0, .copy l p g n] → back ∧ o.val = 1 ∧ mapAt t d e l p = some g ∧
        ∀ x, cntOf t d x = if x = n then cntOf s d n - 1 else if x = g then cntOf s d g + 1 else cntOf s d x))) ∧
  -- R204, R371, R374, R377, R378: an append, checked in order; it goes into the page its map word names, into a copy of it if another holds it too,
  -- or into a new page, and the summary follows; the journal, when it is open, keeps what it replaces; an advance moves the bound and the window.
  (∀ (s : State) (d : Nat) (m : EngCmd), KvLaid s d → m.op = 6 →
    let f := kvFmtOf s d
    let e := handleEnt m.a
    let w0 := entWord s d e 0
    let l := bits (tget 0 m.stg 1) 15 0
    let b := entBound s d e
    let p := b / 32
    let sl := b % 32 * f.ktok
    let at_ := mapAt s d e l p
    let fresh : Bool := match at_ with | none => true | some g => decide (1 < cntOf s d g)
    let jo := entJo s d e
    let fails := fun (c : Nat) => kvDo s d m = (s, some { code := c })
    kvTableUe s d e [] = none → handleCheck s d (taskTenant m.task) m.a = none →
    (∀ c, firstFail [failIf (decide (b = 32 * f.maxp)) Cause.handleBound, failIf (bitAt w0 61) Cause.kvBusy, failIf (decide (f.nl ≤ l)) Cause.kvLayer,
        failIf (decide ((tget 0 m.stg 2).toNat ≠ f.ktok)) Cause.kvKtok,
        failIf (decide (jo = true ∧ kvJfree s d < 1 + f.ktok / 64 + (if fresh then 1 else 0))) Cause.journalFull,
        failIf (fresh && !quotaRoom s d (taskTenant m.task)) Cause.kvQuota,
        failIf (fresh && (findFree s d).1.isNone && (victim s d 0).isNone) Cause.kvNopage] = some c → fails c) ∧
    (∀ src, bitAt w0 61 = false → b < 32 * f.maxp → l < f.nl → (tget 0 m.stg 2).toNat = f.ktok →
      (jo = true → 1 + f.ktok / 64 + (if fresh then 1 else 0) ≤ kvJfree s d) → (fresh = true → quotaRoom s d (taskTenant m.task) = true) →
      kvTableUe s d e ((l, p) :: (if m.sub = 1 then advancePlaces s d e b else [])) = none →
      engFetch s (some d) m.core (taskTenant m.task) ((m.exts.head?.map (·.2)).getD {}) m.b.toNat f.ktok = (s, none, src) →
      (∀ g, at_ = some g → kvBadAt s d 2 (pageOff s d g) (32 * f.ktok) = none ∧
        kvBadAt s d (sumPlace s d g).1 (sumPlace s d g).2.1 (sumPlace s d g).2.2 = none) →
      let done := fun (t : State) (n : Nat) (old : List Byte) (j : List JEnt) =>
        (m.sub ≠ 1 → kvDo s d m = (t, some { code := 0, val := b, ent := some e })) ∧
        (m.sub = 1 → kvDo s d m = ((advance t d m e b).1, some { code := (advance t d m e b).2, val := b, ent := some e })) ∧
        mapAt t d e l p = some n ∧ seenAt t d 2 (pageOff s d n + sl) f.ktok = src ∧
        seenAt t d (sumPlace s d n).1 (sumPlace s d n).2.1 (sumPlace s d n).2.2 = sumNext f old (keysOf f src) ∧
        tget [] (dieAt t d).jrn e = tget [] (dieAt s d).jrn e ++ (if jo then j else []) ∧ Entry0 t d e (bits w0 63 61) b w0
      let summary := fun (g : Nat) => seenAt s d (sumPlace s d g).1 (sumPlace s d g).2.1 (sumPlace s d g).2.2
      let slot := fun (g : Nat) => seenAt s d 2 (pageOff s d g + sl) f.ktok
      (∀ g, at_ = some g → cntOf s d g ≤ 1 → ∃ t, done t g (summary g) [.slot l p (b % 32) (slot g)] ∧ ∀ x, cntOf t d x = cntOf s d x) ∧
      ∀ n s2, findFree s d = (some n, s2) →
        (∀ g, at_ = some g → 1 < cntOf s d g → ∃ t, done t n (summary g) [.copy l p g n, .slot l p (b % 32) (slot g)] ∧
          (∀ x, cntOf t d x = if x = n then 1 else if x = g then cntOf s d g - 1 else cntOf s d x) ∧
          ∀ i < 32, i ≠ b % 32 → seenAt t d 2 (pageOff s d n + i * f.ktok) f.ktok = seenAt s d 2 (pageOff s d g + i * f.ktok) f.ktok) ∧
        (at_ = none → ∃ t, done t n (sumFill f (sumPlace s d n).2.2 (.inf false) (.inf true)) [.alloc l p n, .slot l p (b % 32) (slot n)] ∧
          ∀ x, cntOf t d x = if x = n then 1 else cntOf s d x)) ∧
    -- the advance that follows the append
    (let a := advance s d m e b
     let lb := if entWin s d e ≠ 0 ∧ entWin s d e < b + 1 then max (entLb s d e) (b + 1 - entWin s d e) else entLb s d e
     let drops := if jo then [] else (mappedBelow s d e (lb / 32)).map (·.2.2)
     b < 32 * f.maxp → ((b + 1) % 32 ≠ 0 ∨ entTnode s d e = offTree) → a.2 = 0 ∧ Entry0 a.1 d e (bits w0 63 61) (b + 1) w0 ∧
      (lb < 2 ^ 20 → entLb a.1 d e = lb) ∧ (∀ g, cntOf a.1 d g = cntOf s d g - drops.count g) ∧
      seenAt a.1 d (kvEntry s d e).1 ((kvEntry s d e).2 + 128 + 4 * (b % 32)) 4 = natBytes 4 (tget 0 m.stg 4).toNat)) ∧
  -- R374: a whole page is offered to the tree: a child that holds its ids is taken, or a node is made of it; what cannot be offered leaves the tree.
  (∀ (s : State) (d : Nat) (m : EngCmd) (e : Nat), KvLaid s d → e < bits (mreg s (.kvht d)) 58 40 →
    let f := kvFmtOf s d
    let tn := entTnode s d e
    let p := entBound s d e / 32 - 1
    let ids := w32s (seenAt s d (kvEntry s d e).1 ((kvEntry s d e).2 + 128) 128)
    let pgs := (countUp 0 f.nl).map fun l => mapAt s d e l p
    let got := pgs.filterMap id
    let who := bits (entWord s d e 0) 47 32
    let child := childOf s d who tn ids
    let node : TNode := { id := (dieAt s d).nextNode, tenant := who, parent := tn, ids := ids, pages := got, last := s.gts }
    let at_ := fun (c node : Nat) => (offer s d m e).2 = c ∧ entTnode (offer s d m e).1 d e = node % 2 ^ 32
    let kept := (dieAt (offer s d m e).1 d).nodes = (dieAt s d).nodes ∧ ∀ g, cntOf (offer s d m e).1 d g = cntOf s d g
    let full := bits (mreg s (.kvtree d)) 31 0 ≤ (dieAt s d).nodes.length
    (tn = 0 ∨ nodeAt s d tn ≠ none) →
    ((∃ g ∈ got, 65535 ≤ cntOf s d g) → at_ Cause.kvRefmax offTree ∧ kept) ∧
    ((∀ g ∈ got, cntOf s d g < 65535) →
      (∀ c, child = some c → at_ 0 c.id ∧ kept) ∧
      (child = none → none ∈ pgs → at_ 0 offTree ∧ kept) ∧
      (child = none → none ∉ pgs → full → victim s d tn = none → at_ Cause.kvTreefull offTree ∧ kept) ∧
      (child = none → none ∉ pgs → ¬ full → at_ 0 (dieAt s d).nextNode ∧ (∀ g, cntOf (offer s d m e).1 d g = cntOf s d g + got.count g) ∧
        (dieAt (offer s d m e).1 d).nodes = (dieAt s d).nodes ++ [node]))) ∧
  -- R206, R207, R384, R385: the top-k engine writes the best entries of a score list, the gather engine the gather commands of a plan or
  -- the bytes of a page, into the scratchpad at the place that their staging registers name; after its last write a command leaves the engine.
  (∀ (s s1 : State) (d : Fin 4) (m : EngCmd), engBroken s d 6 = none → engBroken s d 7 = none → s.widthBusy = [] → m.out = [] → m.code = 0 →
    m.res = none → engSeen s m = true → m.slog = [] → (∀ y ∈ (dieAt s d).topk ++ (dieAt s d).gthr, y.slog = []) →
    let cfg := tget 0 m.stg 0
    let src := extIn m (bits cfg 3 0)
    let dst := extIn m (bits cfg 7 4)
    let n := m.b.toNat
    let put := fun (e : Ext) (off : Nat) (bs : List Byte) => cellsPutAll ((spadPlaces e off bs.length).zip bs) (coreAt s m.core).spad
    let after := fun (l : List EngCmd) (v : Nat) =>
      let m' : EngCmd := { m with prog := m.prog + 1, val := v }
      let l' := (dieAt s d).gthr.map fun y => if y = m then m' else y
      l = if n ≤ m.prog + 1 then l'.erase m' else l'
    extFree src = true →
    (∀ bs rest, (dieAt s d).topk = m :: rest → m ∉ rest → m.prog = 0 → dst.tier = 0 → extFree dst = true →
      engFetch s (some d) m.core (taskTenant m.task) src m.a.toNat (4 * n) = (s, none, bs) → Gives (.topkComplete d) s fun t =>
        (dieAt t d).topk = rest ∧ SameTiers s t ∧ (coreAt t m.core).spad = put dst (tget 0 m.stg 1).toNat
          ((topOf (bits cfg 24 16) (w32s bs)).map fun p => natBytes 4 p.1 ++ natBytes 4 p.2.toNat).flatten) ∧
    (∀ h w1, pickGather s d = (some m, s1) → m.prog < n →
      (m.sub ≠ 2 → m.prog = 0 → handleCheck s1 (handleDie (tget 0 m.stg 1)) (taskTenant m.task) (tget 0 m.stg 1) = none) →
      nextGather s1 d m = (s1, .ok (h, w1)) →
      let at_ := if m.sub = 0 then (tget 0 m.stg 5).toNat + 32 * m.prog * (gSlice (tget 0 m.stg 3)).2 else bits w1 31 0
      (m.sub = 1 → src.tier = 0 → Gives (.gatherCommandPerform d) s fun t => after (dieAt t d).gthr 0 ∧ SameTiers s t ∧
        (coreAt t m.core).spad = put src ((tget 0 m.stg 4).toNat + 16 * m.prog) (bytesOf [h, w1])) ∧
      ∀ off bs, m.sub ≠ 1 → dst.tier = 0 → extFree dst = true → gatherOne s1 m h w1 at_ = (s1, .got off bs) →
        Gives (.gatherCommandPerform d) s fun t => after (dieAt t d).gthr (m.val + 1) ∧ SameTiers s t ∧
          (coreAt t m.core).spad = put dst off bs))

/-- Collectives end; request records and batches; demand walks. -/
def Obligations.CollectivesRecordsAndDemandWalks : Prop :=
  -- R209, R210, R363: a collective whose members have all arrived puts its result into the destination and ends, in the cycle in which they
  -- arrive or later; members that differ in operation, format or count end it, and so do 2^26 cycles without them; KVPFMT takes a value only
  -- while the die has no handle and no page in use.
  (∀ (s : State) (x : Coll) (peers : List CollPart) (r : Nat),
    let m := x.cmd
    let cfg := tget 0 m.stg 0
    let f := bits cfg 13 8
    let cnt := (tget 0 m.stg 1).toNat
    let n := collSize s x.gid
    let sz := collBytes m.sub n cnt (collElt f)
    let se := tget {} m.exts (bits cfg 19 16)
    let de := tget {} m.exts (bits cfg 23 20)
    let fails := fun (l : List Coll) (t : State) => t.colls = l ∧ SameTiers s t ∧ (coreAt t m.core).spad = (coreAt s m.core).spad ∧
      (queueAt t (taskQueue m.task)).recs.length = (queueAt s (taskQueue m.task)).recs.length + 1
    let first := s.colls.find? fun y => decide (y.gid = x.gid)
    let open_ := s.colls.find? fun y => decide (y.gid = x.gid) && !y.came
    let came : Coll := { x with came := true, peers := peers }
    -- `ps` are the parts of the other members, `inp` what the event brings, `l` the commands that stay.
    let ends := fun (ps inp : List CollPart) (l : List Coll) =>
      let s1 := collArrive s x.gid inp
      (∀ bs, (∀ p ∈ ps, p.op = m.sub ∧ p.fmt = f ∧ p.cnt = cnt) → m.sub ≠ copBarrier → extFree se = true → extFree de = true → de.tier = 0 →
        s.widthBusy = [] → (9, 0) ∉ s.engBad → collStoresOut s1 m se sz.1 = false → sz.1 ≠ 0 →
        engFetch s1 none m.core (taskTenant m.task) se m.a.toNat sz.1 = (s1, none, bs) →
        let out := collResult m.sub f (collElt f) cnt (bits cfg 31 24) r
          ((ps.map (·.bytes)).take r ++ [bs] ++ (ps.map (·.bytes)).drop r)
        Gives (.collComplete (BitVec.ofNat 8 x.gid) inp) s fun t => t.colls = l ∧ SameTiers s t ∧
          (coreAt t m.core).spad = cellsPutAll ((spadPlaces de m.b.toNat out.length).zip out) (coreAt s m.core).spad) ∧
      ((∃ p ∈ ps, p.op ≠ m.sub ∨ p.fmt ≠ f ∨ p.cnt ≠ cnt) → Gives (.collComplete (BitVec.ofNat 8 x.gid) inp) s (fails l))
    x.gid < 256 → m.res = none →
    (collRank s x.gid = some r →
      (first = some x → x.came = false → peers.length + 1 = n →
        ((∃ p ∈ peers, p.op ≠ m.sub ∨ p.fmt ≠ f ∨ p.cnt ≠ cnt) ∨ ∀ p ∈ peers, p.bytes.length = sz.1) → s.colls.count x = 1 → came ∉ s.colls →
        ends peers peers (s.colls.erase x)) ∧
      (first = some x → x.came = true → n ≠ 1 → ends x.peers [] (s.colls.erase x))) ∧
    (open_ = some x → m.cyc + 2 ^ 26 ≤ s.cyc → Gives (.collTimeout (BitVec.ofNat 8 x.gid)) s (fails (s.colls.erase x))) ∧
    ∀ (d : Fin 4) (v : Word), regsSorted s →
      (kvLive s d = 0 → kvUsed (dieAt s d) = 0 → Gives (.kvpfmtWrite d v) s fun t => t = { s with mgmt := t.mgmt } ∧
        mreg t (.kvpfmt d) = setBits (setBits v 28 20 (kvKtoku v)) 19 15 0) ∧
      (kvLive s d ≠ 0 ∨ kvUsed (dieAt s d) ≠ 0 → Gives (.kvpfmtWrite d v) s fun t => t = s)) ∧
  -- R246, R258, R355 to R357: a demand walk puts the extent it finds in the place of the old one, or posts DEMAND_MISS (behind PAGE_SPLIT where the
  -- leaves differ) and the command waits; a request record waits for the end of its cycle, when records are taken by their places; it is stored with its time in the open batch or
  -- dropped and counted; a batch closes at its deadline, at the end of that cycle.
  (∀ (s : State) (q : Fin 16) (rec : List Byte) (n : Fin 12) (c : CoreId) (u : ExtUse),
    let w := wordOf (leNat (rec.take 8))
    let causes := fun (s : State) (q : Nat) => (queueAt s q).recs.map (·.2.cause)
    Gives (.requestRecord q rec) s (fun t => t = { s with gqIn := s.gqIn ++ [(4, q.val, rec)] }) ∧
    (∀ a b, s.gqIn = [a, b] →
      let s0 : State := { s with gqIn := [] }
      let x := if b.1 < a.1 then b else a
      let y := if b.1 < a.1 then a else b
      gqTake s = gqRecord (gqRecord s0 x.2.1 x.2.2) y.2.1 y.2.2) ∧
    (regsSorted s → gqOn s q = false → gqRecord s q rec = { s with mgmt := (gqRecord s q rec).mgmt } ∧
      mreg (gqRecord s q rec) (.gdrop q) = mreg s (.gdrop q) + 1) ∧
    (regsSorted s → gqOn s q = true → stageOff s (gqTier s q) = false → (rec.length ≠ 64 ∨ bitAt w 63 = false ∨ bits w 62 48 ≠ 0 ∨ bits w 47 32 ≠ gqTenant s q) →
      mreg (gqRecord s q rec) (.gdrop q) = mreg s (.gdrop q) + 1 ∧ SameTiers s (gqRecord s q rec) ∧
      causes (gqRecord s q rec) (gqNq s q) = causes s (gqNq s q) ++ [Cause.gatherRec]) ∧
    (∀ k, memoryWf s → gqOn s q = true → stageOff s (gqTier s q) = false → rec.length = 64 → (gqAt s q).open_ = none → gqFree s q = some k → 2 ≤ gqN s q →
      bitAt w 63 = true → bits w 62 48 = 0 → bits w 47 32 = gqTenant s q →
      tierHas (gqTier s q) (gqBase s q + gqSlotOff s q k + 64) 64 = true →
      let t := gqRecord s q rec
      (gqAt t q).open_ = some (k, 1, s.gts) ∧ t.cores = s.cores ∧
        Wrote s t (gqTier s q) (gqBase s q + gqSlotOff s q k + 64) (rec.take 8 ++ natBytes 8 s.gts ++ rec.drop 16)) ∧
    (∀ k cnt first, memoryWf s → (gqAt s q).open_ = some (k, cnt, first) → gqD s q ≠ 0 →
      s.gts = first + gqD s q + 1 → 2 ≤ gqTier s q → gqTier s q ≤ 5 → stageOff s (gqTier s q) = false →
      tierHas (gqTier s q) (gqBase s q + gqSlotOff s q k) 64 = true → Gives (.batchDeadline q) s fun t =>
        gqAt t q = { gqAt s q with open_ := none, closed := (gqAt s q).closed ++ [(k, first + gqD s q)], bseq := (gqAt s q).bseq + 1 } ∧
        t.cores = s.cores ∧ Wrote s t (gqTier s q) (gqBase s q + gqSlotOff s q k) (bytesOf
          [pack [((gqAt s q).bseq % 2 ^ 32, 32), (q.val, 16), (1, 8), (cnt, 0)], wordOf first, wordOf (first + gqD s q), 0, 0, 0, 0, 0])) ∧
    -- before the end of that cycle the batch stays open, and so does one that has been opened since
    (∀ k cnt first, (gqAt s q).open_ = some (k, cnt, first) → s.gts ≠ first + gqD s q + 1 → Gives (.batchDeadline q) s fun t => t = s) ∧
    (demandUses s n c = [u] → u.e.virtual = true →
      (∀ s' e, translateExt s u.tenant u.e = (s', .ok e) → s'.netRecs = [] → Gives (.demandWalk n c) s fun t =>
        t = mapExts (fun k w x => if k = u.core ∧ w = u.task ∧ x = u.e then e else x) s') ∧
      ∀ f, translateExt s u.tenant u.e = (s, .error f) → s.netRecs = [] → Gives (.demandWalk n c) s fun t =>
        causes t (taskQueue u.task) = causes s (taskQueue u.task) ++ (if f.cause = Cause.pageSplit then [f.cause] else []) ++
          [Cause.demandMiss] ∧ SameTiers s t ∧
        (n.val < 4 → (tget {} (coreAt t u.core).ch n.val).cmds = (tget {} (coreAt s u.core).ch n.val).cmds.map fun m =>
          if m.task = u.task ∧ (cpyExts m).contains u.e then { m with miss := true } else m) ∧
        (4 < n.val → n.val < 8 → ∀ d, (dieAt t d).gthr = (dieAt s d).gthr.map fun m =>
          if m.task = u.task ∧ m.core = u.core ∧ (engExts m).contains u.e then { m with miss := true } else m)))

/-- Network records start; packets are sent, acknowledged, and sent again.  That VAL counts the acknowledged bytes less those of refused packets is
the model's (log 28). -/
def Obligations.NetworkMessagesLeave : Prop :=
  -- R389, R390, R394, R398: a receive record that passes its checks is posted in order; a send record takes consecutive PSNs on the PDC of
  -- its peer, one for each packet of its message; a record that fails a check ends with that cause and a notice.
  (∀ (s s1 : State) (r : NetRec) (bs : List Byte) (p : Pdc),
    let r' := { r with words := wordsOf bs }
    let recs := fun (g : NetRec → NetRec) => s.netRecs.map fun x => if x.key = r.key then g { x with words := wordsOf bs } else x
    let entry := fun (c : Nat) => natBytes 8 (statusWord c 8 true r.seq 0).toNat ++ natBytes 8 (recW r' 5).toNat
    firstRec [] s.netRecs = some r → netRec s r.key = some r → extFree r.ext = true → s.widthBusy = [] → (8, 0) ∉ s.engBad → r.cancel = false →
    engFetch s none r.core r.tenant r.ext r.off 64 = (s, none, bs) →
    (recCheck s r' = none → r.send = false → Gives .netRecordStart s fun t =>
      t = { s with netRecs := recs fun x => { x with started := true, order := s.nextMsg }, nextMsg := s.nextMsg + 1 }) ∧
    (recCheck s r' = none → r.send = true → pdcFor s r.tenant (recPeer r') (recRod r') = (some p, s1) → Gives .netRecordStart s fun t =>
      t.cores = s.cores ∧ SameTiers s t ∧ t.netRecs = recs (fun x => { x with started := true, pdc := p.id, msg := s.nextMsg, lost := 0 }) ∧
      (s.pdcs = [] → p.id = s.nextPdc ∧ p.tenant = r.tenant ∧ p.peer = recPeer r' ∧ p.rod = recRod r' ∧ p.nextPsn = 0) ∧
      ∃ ps : List OutPkt, ps.length = (recLen r' + netPsz s - 1) / netPsz s ∧
        (∀ j o, ps[j]? = some o → o.psn = p.nextPsn + j ∧ o.msg = s.nextMsg ∧ o.off = netPsz s * j ∧ o.len = min (netPsz s) (recLen r' - o.off) ∧
          o.sentAt = none) ∧
        t.pdcs.map (fun x => (x.id, x.nextPsn, x.out)) = s1.pdcs.map fun x =>
          if x.id = p.id then (x.id, x.nextPsn + ps.length, x.out ++ ps) else (x.id, x.nextPsn, x.out)) ∧
    ∀ c, recCheck s r' = some c → r.matched = none → r.got = 0 → (∀ x ∈ s.netRecs, x.ends = 0 ∧ (x.key = r.key → x = r)) →
      -- its entry holds the status word and USER, then its counter is incremented: by the core's atomic unit, or at its ordering point
      let ce := recPlace r' (recW r' 3) 8
      let ee := recPlace r' (recW r' 4) 16
      (ee = none → ce = none → Gives .netRecordStart s fun t => t.netRecs = s.netRecs.filter (fun x => x.key ≠ r.key) ∧ t.pdcs = s.pdcs ∧
        SameTiers s t ∧ ∃ n : StopRec, n.cause = c ∧ n.nt = true ∧
          (queueAt t (taskQueue r.task)).recs = (queueAt s (taskQueue r.task)).recs ++ [(none, n)]) ∧
      (∀ e off, ee = some (e, off) → ce = none → extFree e = true → e.tier = 0 → Gives .netRecordStart s fun t =>
        t.netRecs = s.netRecs.filter (fun x => x.key ≠ r.key) ∧
        (coreAt t r.core).spad = cellsPutAll ((spadPlaces e off 16).zip (entry c)) (coreAt s r.core).spad) ∧
      (∀ e off, ee = none → ce = some (e, off) → extFree e = true → e.tier = 0 → spadErr (coreAt s r.core) 0 (spadPlaces e off 8) = none →
        Gives .netRecordStart s fun t => (coreAt t r.core).adds = (coreAt s r.core).adds ++ [(r.key, spadPlaces e off 8)] ∧
          (coreAt t r.core).spad = (coreAt s r.core).spad ∧
          (netRec t r.key).map (fun x => (x.ends, x.code)) = some (3, c)) ∧
      ∀ e off bs, ee = none → ce = some (e, off) → extFree e = true → 2 ≤ e.tier → e.tier ≤ 3 → Unbuffered s e.tier (e.base + off) 8 →
        memRead s none e.tier (e.base + off) 8 = (s, none, bs) → Gives .netRecordStart s fun t =>
          t.netRecs = s.netRecs.filter (fun x => x.key ≠ r.key) ∧
          cellsAt (tierMem t e.tier) (e.base + off) 8 = natBytes 8 (leNat bs + 1)) ∧
  -- R402: a record whose counter the atomic unit has incremented is complete.
  (∀ (s : State) (r : NetRec), s.netRecs = [r] → r.ends = 3 → r.code = 0 → (∀ c ∈ s.cores, ∀ a ∈ c.2.adds, a.1 ≠ r.key) →
    (netSettle s).netRecs = [] ∧ ∀ q, (queueAt (netSettle s) q).recs = (queueAt s q).recs) ∧
  -- R390, R391, R395 to R397, R399, R401: a packet leaves by its port, in RUD the ports that are up in turn by PSN, with the bytes of its source;
  -- an acknowledgement counts only from the peer's own process, a marked one fails its message, and after it no packet that was sent stays below
  -- its CACK; a message whose last packet it acknowledges ends.  A packet behind which NRT later ones have been acknowledged, and one not
  -- acknowledged in time, is sent again; in ROD every packet from the lost one on.  After eight times the message fails.
  (∀ (s : State) (p : Pdc) (o : OutPkt) (r : NetRec), pdcAt s p.id = some p → netOn s = true →
    let b := recBuf r
    let outs := fun (t : State) => (pdcAt t p.id).map (·.out)
    let again := fun (x : OutPkt) => { x with sentAt := none, resends := x.resends + 1 }
    let each := fun (g : OutPkt → OutPkt) => some (p.out.map fun x => if x.psn = o.psn then g x else x)
    let mine := s.netRecs.find? fun r => r.send && r.started && decide (r.pdc = p.id) && decide (r.msg = o.msg) && decide (r.ends = 0)
    let plain := recPlace r (recW r 3) 8 = none ∧ recPlace r (recW r 4) 16 = none
    let causes := fun (t : State) => (queueAt t (taskQueue r.task)).recs.map (·.2.cause)
    let up := (netPorts s p.peer).filter (netUp s)
    (∀ (port : Fin 4) (bs : List Byte), (if p.rod then portFor s p o.psn = some port.val else up ≠ [] ∧ port.val = lget 4 up (o.psn % up.length)) →
      inFlight p < bits (mreg s .netcfg) 52 41 → (p.out.find? fun x => decide (x.psn = o.psn) && x.sentAt.isNone && !x.sacked) = some o →
      (p.rod = true → ∀ x ∈ p.out, x.psn < o.psn → x.sentAt.isSome = true ∨ x.sacked = true) → mine = some r →
      extFree b.1 = true → s.widthBusy = [] →
      engFetch s none r.core r.tenant b.1 (b.2 + o.off) o.len = (s, none, bs) → Gives (.packetSend p.id o.psn port) s fun t =>
        t.cores = s.cores ∧ t.netRecs = s.netRecs ∧ outs t = each (fun x => { x with sentAt := some s.gts }) ∧
        ∃ k, t.pkts = s.pkts ++ [k] ∧ k.psn = o.psn ∧ k.msg = o.msg ∧ k.port = port.val ∧ k.data = bs ∧ k.off = o.off ∧ k.len = recLen r ∧
          k.rod = p.rod ∧ k.op = recOp r ∧ k.rpid = p.tenant) ∧
    (∀ port : Fin 4, portFor s p o.psn ≠ some port.val → Gives (.packetSend p.id o.psn port) s fun t => t = s) ∧
    (∀ a : UAck, a.pdc = p.id → a.port < 4 →
      (srcOf s a.addrLo a.addrHi a.rpid a.job = none → Gives (.uetAck a) s fun t => t = { s with mgmt := t.mgmt } ∧
        bits (mreg t (.npst a.port)) 63 32 = (bits (mreg s (.npst a.port)) 63 32 + 1) % 2 ^ 32) ∧
      (∀ e, srcOf s a.addrLo a.addrHi a.rpid a.job = some e → e ≠ p.peer → Gives (.uetAck a) s fun t => t = s) ∧
      (srcOf s a.addrLo a.addrHi a.rpid a.job = some p.peer →
        (∀ n, a.nack = some n → Gives (.uetAck a) s fun t => t.netRecs = s.netRecs ∧ t.cores = s.cores ∧
          outs t = some (p.out.map fun x => if x.psn = n then { x with lastNack := true } else x)) ∧
        (a.nack = none → Gives (.uetAck a) s fun t => ∀ q, pdcAt t p.id = some q → ∀ x ∈ q.out, a.cack ≤ x.psn ∨ (x.sentAt = none ∧ x.resends = 0)) ∧
        (a.nack = none → s.netRecs = [r] → mine = some r → p.out = [o] → o.sentAt.isSome = true → o.psn < a.cack → r.code = 0 → plain →
          (a.errs = [] → Gives (.uetAck a) s fun t => t.netRecs = [] ∧ outs t = some [] ∧ SameTiers s t ∧
            ∀ q, (queueAt t q).recs = (queueAt s q).recs) ∧
          (a.errs = [o.psn] → o.bad = false → Gives (.uetAck a) s fun t => t.netRecs = [] ∧ outs t = some [] ∧ SameTiers s t ∧
            causes t = causes s ++ [Cause.netRemote])) ∧
        (let above := ((countUp 0 64).filter fun j => bitAt a.sack j && decide (o.psn < a.cack + j)).length
         a.nack = none → a.errs = [] → (p.out.map (·.psn)).Nodup → o ∈ p.out → o.sentAt.isSome = true → o.sacked = false → a.cack ≤ o.psn →
          (o.psn < a.cack + 64 → bitAt a.sack (o.psn - a.cack) = false) → (∀ x ∈ p.out, x.resends < 8) → p.rod = false →
          (o.selDone = false → netNrt s ≤ above → Gives (.uetAck a) s fun t => ∃ l, outs t = some l ∧ { again o with selDone := true } ∈ l) ∧
          (o.selDone = true ∨ above < netNrt s → Gives (.uetAck a) s fun t => ∃ l, outs t = some l ∧ o ∈ l)) ∧
        (a.nack = none → a.errs = [] → a.sack = 0 → p.rod = true → p.lastCack = some a.cack → (p.out.map (·.psn)).Nodup →
          (∀ x ∈ p.out, a.cack ≤ x.psn ∧ x.sacked = false ∧ x.resends < 8) →
          (∀ x ∈ s.netRecs, x.send = true → x.started = true → x.pdc = p.id → ∃ y ∈ p.out, y.msg = x.msg) → Gives (.uetAck a) s fun t =>
            outs t = some (if p.sameCack + 1 = netNrt s then p.out.map (fun x => if x.sentAt.isSome then again x else x) else p.out)))) ∧
    ∀ g, (p.out.find? fun x => decide (x.psn = o.psn) && !x.sacked) = some o → o.sentAt = some g →
      (p.rod = false → g + netRto s ≤ s.gts →
        .rtoExpire p.id o.psn ∈ rtoDue s ∧
        (o.resends < 8 → Gives (.rtoExpire p.id o.psn) s fun t => t.netRecs = s.netRecs ∧ t.cores = s.cores ∧ outs t = each again) ∧
        (8 ≤ o.resends → mine = some r → netRec s r.key = some r → plain → (∀ x ∈ s.netRecs, x.ends = 0 ∧ (x.key = r.key → x = r)) →
          Gives (.rtoExpire p.id o.psn) s fun t => t.netRecs = s.netRecs.filter (fun x => x.key ≠ r.key) ∧
            causes t = causes s ++ [if o.lastNack then Cause.netRecv else Cause.netTimeout])) ∧
      (p.rod = true → (p.out.map (·.psn)).Nodup → (∀ x ∈ p.out, x.resends < 8) → p.prog + netRto s ≤ s.gts → Gives (.rtoExpire p.id o.psn) s fun t =>
        outs t = some (p.out.map fun x => if x.sentAt.isSome ∧ x.sacked = false then again x else x)))

/-- Packets arrive and are answered; bound messages launch; ports and PDCs.  That every later answer repeats the marks of refused packets, and what
becomes of a message of which a closing PDC holds a part, is the model's (log 28), and so is where QRSV is mapped (log 24). -/
def Obligations.NetworkMessagesArrive : Prop :=
  -- R390, R391, R394 to R396, R399, R401, R402, R404 to R406: a frame from no known source, or of a service that the engine lacks, is dropped and
  -- counted; what has arrived before, and in ROD what does not come next, is only answered; a send or tagged send that no receive matches is
  -- answered so; a matched one's bytes enter the receive's buffer, as far as it is long; a region's write its region, and its counter is
  -- incremented; a bound message's records their gather queue; each is acknowledged, and a refused one with a mark, which every later answer of
  -- the PDC carries.
  (∀ (s : State) (k : Packet), netOn s = true → k.port < 4 → s.ckpt = none → k.ecn = false →
    (regsSorted s → (srcEntry s k = none ∨ k.absent = true) → Gives (.packetArrive k) s fun t => t = { s with mgmt := t.mgmt } ∧
      bits (mreg t (.npst k.port)) 63 32 = (bits (mreg s (.npst k.port)) 63 32 + 1) % 2 ^ 32) ∧
    ∀ e p s1, k.absent = false → srcEntry s k = some e → bitAt (nept s e 0) (if k.rod then 46 else 45) = true → k.op < 3 →
      pdcFor s (bits (nept s e 0) 62 47) e k.rod = (some p, s1) → pdcAt s1 p.id = some p →
      let i := bits k.tag 63 56
      let a := bits (nrgn s i 1) 39 0 + bits k.tag 39 0
      let w := nrgn s i 0
      let core := bits w 43 42 * 96 + bits w 41 35
      let answers := fun (t : State) (cack : Nat) (nack : Option Nat) (errs : List Nat) (f : UAck → Prop) => ∃ a : UAck, t.uacks = s.uacks ++ [a] ∧
        a.pdc = p.id ∧ a.cack = cack ∧ a.nack = nack ∧ a.errs = errs ∧ a.rpid = p.tenant ∧ a.port = k.port ∧ f a
      let G := fun (f : State → Prop) => Gives (.packetArrive k) s f
      let kept := fun (t : State) => t.cores = s.cores ∧ SameTiers s t ∧ t.netRecs = s.netRecs ∧ t.rma = s.rma ∧ t.bound = s.bound ∧ t.gqIn = s.gqIn
      -- received: CACK moves over it, or SACK shows it above CACK
      let took := fun (t : State) (bad : Bool) => answers t (if k.psn = p.cack then p.cack + 1 else p.cack) none (if bad then k.psn :: p.refused else p.refused)
        fun a => p.cack < k.psn → k.psn < p.cack + 64 → p.rod = false → bitAt a.sack (k.psn - p.cack) = true
      ((k.psn < p.cack ∨ k.psn ∈ p.seen ∨ (p.rod = true ∧ k.psn ≠ p.cack)) → G fun t => kept t ∧ answers t p.cack none p.refused fun _ => True) ∧
      (p.seen = [] → p.cack ≤ k.psn → (p.rod = true → k.psn = p.cack) →
        (k.op ≤ 1 → bindingOf s p.tenant k = none → (∀ x ∈ p.rx, x.1 ≠ k.msg) →
          (matchRecv s p.tenant p.peer k = none → G fun t => kept t ∧ answers t p.cack (some k.psn) p.refused fun _ => True) ∧
          ∀ r, matchRecv s p.tenant p.peer k = some r → netRec s r.key = some r → (∀ x ∈ s.netRecs, x.ends = 0 ∧ x.matched = none) →
            recPlace r (recW r 3) 8 = none → recPlace r (recW r 4) 16 = none → r.got = 0 → k.off = 0 → k.len = k.data.length → 0 < recLen r →
            (recBuf r).1.tier = 0 → extFree (recBuf r).1 = true → G fun t =>
              took t (decide (recLen r < k.len)) ∧ t.netRecs = s.netRecs.filter (fun x => x.key ≠ r.key) ∧ SameTiers s t ∧
              (coreAt t r.core).spad = cellsPutAll ((spadPlaces (recBuf r).1 (recBuf r).2 (min (recLen r) k.len)).zip (k.data.take (recLen r)))
                (coreAt s r.core).spad ∧
              (queueAt t (taskQueue r.task)).recs.map (·.2.cause) = (queueAt s (taskQueue r.task)).recs.map (·.2.cause) ++
                if recLen r < k.len then [Cause.netTrunc] else []) ∧
        (k.op = 2 → (∀ x ∈ s.rma, x.pdc ≠ p.id ∨ x.msg ≠ k.msg) → k.off = 0 → k.len = k.data.length →
          (rmaRefused s p.tenant k = true → G fun t => kept t ∧ took t true) ∧
          (rmaRefused s p.tenant k = false →
            (∀ j, bits w 46 44 = j → j ≠ 0 → Unbuffered s j a k.len → tierHas j a k.len = true →
              (bitAt w 34 = false → G fun t => took t false ∧ Wrote s t j a k.data ∧ t.cores = s.cores ∧ t.rma = s.rma) ∧
              (let b := bits (nrgn s i 3) 39 0
               bitAt w 34 = true → Unbuffered s j b 8 → tierHas j b 8 = true → G fun t => took t false ∧ t.cores = s.cores ∧ ∀ x,
                let m := cellsPut a k.data (tierMem s j)
                cellAt (tierMem t j) x = cellAt (cellsPut b (natBytes 8 (leNat (cellsAt m b 8) + 1)) m) x)) ∧
            (bits w 46 44 = 0 → G fun t => took t false ∧ SameTiers s t ∧ t.rma = s.rma ∧
              (coreAt t core).spad = cellsPutAll (((countUp a k.len).map (· % 2 ^ 22)).zip k.data) (coreAt s core).spad ∧
              (coreAt t core).adds = (coreAt s core).adds ++
                if bitAt w 34 then [(0, (countUp (bits (nrgn s i 3) 39 0) 8).map (· % 2 ^ 22))] else []))) ∧
        ∀ nb, bindingOf s p.tenant k = some nb →
          let q := bits (nbnd s nb 0) 45 40
          let n := k.len / 64
          ((k.len = 0 ∨ k.len % 64 ≠ 0 ∨ 4096 < k.len) → G fun t => kept t ∧ took t true) ∧
          (n * 64 = k.len → 1 ≤ n → n ≤ 64 → k.off = 0 → k.data.length = k.len → (∀ x ∈ s.bound, x.pdc ≠ p.id ∨ x.msg ≠ k.msg) →
            (bitAt (nbnd s nb 0) 46 = true → G fun t => took t false ∧ t.bound = s.bound ∧ t.cores = s.cores ∧ SameTiers s t ∧
              t.gqIn = s.gqIn ++ (List.range n).map fun j => (k.port, q, (k.data.drop (64 * j)).take 64)) ∧
            (bitAt (nbnd s nb 0) 46 = false → queueTakes s q p.tenant = false → G fun t => took t true ∧ t.bound = s.bound ∧
              (queueAt t q).recs.map (·.2.cause) = (queueAt s q).recs.map (·.2.cause) ++ [Cause.netLaunch]) ∧
            -- a launch record waits for its delivery, and the ACK of its last packet with it; without room nothing has arrived
            (bitAt (nbnd s nb 0) 46 = false → queueTakes s q p.tenant = true →
              let used := (bits (qrsvOf s q) 31 0 + 2 ^ 32 - bits (mreg s (.qcons q)) 31 0) % 2 ^ 32 + boundSlots s q + n
              G fun t => t.uacks = s.uacks ∧ t.cores = s.cores ∧ SameTiers s t ∧ t.bound = s.bound ++
                if used ≤ ringSize s q then
                  [{ pdc := p.id, msg := k.msg, nb := nb, total := k.len, got := [(0, k.data)], last := some (k.port, k.psn) }] else [])))) ∧
  -- R221, R394, R397, R405, R410: the launch records of a bound message enter their ring and QRSV, a memory word where it is mapped to one, counts
  -- them; a PDC without traffic for 2^26 cy closes; a port that loses its link is shown down and every queue that used it is told; a port that
  -- has one is shown up once the package has booted.
  (∀ (s : State) (p : Pdc) (port : Fin 4), regsSorted s → pdcAt s p.id = some p →
    (∀ i b o psn, lget none (s.bound.map some) i = some b → b.pdc = p.id → b.last = some (o, psn) → s.ckpt = none →
      let q := bits (nbnd s b.nb 0) 45 40
      let old := (qrsvOf s q).toNat
      let ring := ringOf (mreg s (.qring q))
      let a := ring.2 + 64 * (old % ringSize s q)
      stageOff s ring.1 = false →
      (qrsvWord q = none → Gives (.launchDeliver i) s (fun t => t.bound = s.bound.erase b ∧ t.uacks.length = s.uacks.length + 1 ∧
        mreg t (.qrsv q) = wordOf (old + (recordsOf (b.total / 64 + 1) (joinParts (b.got.length + 1) 0 b.got)).length))) ∧
      ∀ rec, b.total = 64 → b.got = [(0, rec)] → rec.length = 64 → (ring.1 = 2 ∨ ring.1 = 3 ∨ ring.1 = 5) → Unbuffered s ring.1 a 64 →
        tierHas ring.1 a 64 = true →
        (qrsvWord q = none → Gives (.launchDeliver i) s fun t => t.cores = s.cores ∧ mreg t (.qrsv q) = wordOf (old + 1) ∧ Wrote s t ring.1 a rec) ∧
        ∀ j x, qrsvWord q = some (j, x) → stageOff s j = false → Apart (j, x, 8) (ring.1, a, 64) → Gives (.launchDeliver i) s fun t =>
          qrsvOf t q = wordOf (old + 1) ∧ cellsAt (tierMem t ring.1) a 64 = rec) ∧
    (p.lastUse + 2 ^ 26 ≤ s.gts → (∀ r ∈ s.netRecs, r.send = true → r.started = true → r.pdc = p.id → r.ends ≠ 0) →
      Gives (.pdcClose p.id) s fun t =>
        let rs := s.netRecs.map fun r => if r.ends = 0 ∧ r.matched.map (·.1) = some p.id then { r with matched := none, got := 0, total := 0 } else r
        let s0 : State := { s with rma := s.rma.filter (fun x => x.pdc ≠ p.id), bound := s.bound.filter (fun x => x.pdc ≠ p.id), netRecs := rs }
        t = { s0 with pdcs := s.pdcs.filter (fun x => x.id ≠ p.id) }) ∧
    (s.gts < p.lastUse + 2 ^ 26 → Gives (.pdcClose p.id) s fun t =>
      t = { s with timers := s.timers ++ [(p.lastUse + 2 ^ 26, .pdcClose p.id)] }) ∧
    (netUp s port = true → Gives (.netPortDown port) s fun t => netUp t port = false ∧ t.cores = s.cores ∧ SameTiers s t ∧
      ∀ q, (queueAt t q).recs.map (·.2.cause) = (queueAt s q).recs.map (·.2.cause) ++
        if s.pdcs.any (fun x => x.ports.contains port.val && x.queues.contains q) then [Cause.netLink] else []) ∧
    (booted s = false → Gives (.netPortUp port) s fun t => t = s) ∧
    (booted s = true → Gives (.netPortUp port) s fun t => netUp t port = true ∧ t = { s with mgmt := t.mgmt } ∧
      ∀ p' : Fin 4, p' ≠ port → mreg t (.npst p'.val) = mreg s (.npst p'.val)))

/-- Launch records are consumed, released, dispatched and completed.  That what the wait word has said is kept while SER holds the launch, and that
the signal's adds wait for the end of the launch's rollback capability, is the model's (log 25). -/
def Obligations.LaunchesAreDispatched : Prop :=
  -- R221, R223: a slot whose word 0 shows V is consumed: the word becomes zero, QCONS counts it, and the launch of its number joins the
  -- queue; one with a reserved field fails with LREC_RSVD.
  (∀ (s : State) (q : Fin 64) (bs : List Byte),
    let cfg := mreg s (.qcfg q)
    let n := (mreg s (.qcons q)).toNat
    let ring := ringOf (mreg s (.qring q))
    let a := ring.2 + 64 * (n % ringSize s q)
    let ws := wordsOf bs
    bitAt cfg 43 = true → (queueAt s q).st = 1 → bits cfg 35 32 < 12 → (ring.1 = 2 ∨ ring.1 = 3 ∨ ring.1 = 5) →
    memRead s none ring.1 a 64 = (s, none, bs) →
    (bitAt (lget 0 ws 0) 63 = false → Gives (.launchRecordConsume q) s fun t => t = s) ∧
    (bitAt (lget 0 ws 0) 63 = true → n + 1 < 2 ^ 32 → (∀ l ∈ (queueAt s q).launches, l.lseq ≠ n) → Unbuffered s ring.1 a 8 →
      Gives (.launchRecordConsume q) s fun t => t.cores = s.cores ∧ (mreg t (.qcons q)).toNat = n + 1 ∧ Wrote s t ring.1 a (natBytes 8 0) ∧
        (queueAt t q).launches.map (fun l => (l.lseq, l.recd)) = (queueAt s q).launches.map (fun l => (l.lseq, l.recd)) ++ [(n, ws)] ∧
        (lrecRsvd (newLaunch n ws) = true → (queueAt t q).launches =
          (queueAt s q).launches ++ [{ newLaunch n ws with checked := true, fail := Cause.lrecRsvd }]))) ∧
  -- R223 to R225, R266: the head launch is released when its wait word has reached WVAL or is in error, which with ERRP ends it, with SER behind
  -- the launch before it; a launch whose tasks have all completed leaves the queue with an entry in the completion ring; QRETRY ends a stall.
  (∀ (s : State) (q : Fin 64) (l : Launch), (queueAt s q).st = 1 →
    let each := fun (s : State) (g : Launch → Launch) => (queueAt s q).launches.map fun x => if x.lseq = l.lseq then g x else x
    (headLaunch s q = some l → l.released = false → l.stall = false →
      let behind := bitAt (lrW l 0) 56 = true ∧ ∃ x ∈ (queueAt s q).launches, (x.lseq + 1) % 2 ^ 32 = l.lseq
      let go := fun (err : Bool) (x : Launch) => if err ∧ bitAt (lrW l 0) 62 then { x with released := true, fail := Cause.depError }
        else { x with released := true }
      -- a launch that waits for no word, or whose word has been seen to let it go
      (∀ e, (lrWait l = 0 ∧ l.waited = none ∧ e = false) ∨ l.waited = some e → launchAt s q l.lseq = some l →
        Gives (.dependencyRelease q) s fun t => t.cores = s.cores ∧ SameTiers s t ∧
          (behind → t = s) ∧ (¬ behind → (queueAt t q).launches = each s (go e))) ∧
      ∀ s1 s2 leaf w, lrWait l ≠ 0 → l.waited = none → walk s (qTenant s q) (lrWait l) none true false = (s1, .ok leaf) →
        readSync s1 (leafPlace leaf (lrWait l)).1 (leafPlace leaf (lrWait l)).2 = (s2, some w) → launchAt s2 q l.lseq = some l →
        (queueAt s2 q).launches = (queueAt s q).launches → Gives (.dependencyRelease q) s fun t =>
          let seen := fun (x : Launch) => { x with waited := some (bitAt w 63) }
          t = { s2 with queues := t.queues } ∧
          (¬ (bitAt w 63 ∨ bits (lrW l 5) 62 0 ≤ bits w 62 0) → (queueAt t q).launches = (queueAt s2 q).launches) ∧
          (bitAt w 63 ∨ bits (lrW l 5) 62 0 ≤ bits w 62 0 → (behind → (queueAt t q).launches = each s2 seen) ∧
            (¬ behind → (queueAt t q).launches = each s2 fun x => go (bitAt w 63) (seen x)))) ∧
    -- R266: the adds of a launch that can still be rolled back wait; they are made when it no longer can
    ((queueAt s q).launches = [l] → l.checked = true → l.fail = 0 → l.comp < lrNtask l → l.sigHeld ≠ 0 →
      (l.cap = true → Gives (.launchComplete q) s fun t => t = s) ∧
      ∀ leaf bs, let p := leafPlace leaf (lrSig l)
        l.cap = false → l.sigHeld = 1 → l.sigWait = 0 → walk s (qTenant s q) (lrSig l) none false true = (s, .ok leaf) →
        (p.1 = 2 ∨ p.1 = 3 ∨ p.1 = 5) → Unbuffered s p.1 p.2 8 → memRead s none p.1 p.2 8 = (s, none, bs) →
        Gives (.launchComplete q) s fun t => (queueAt t q).launches = [{ l with sigHeld := 0 }] ∧ t.cores = s.cores ∧
          Wrote s t p.1 p.2 (natBytes 8 (wordOf (leNat bs) + 1).toNat)) ∧
    (let r := ringOf (mreg s (.qcring q))
     let n := (mreg s (.qcseq q)).toNat
     let a := r.2 + 16 * (n % ringSize s q)
     (∀ x ∈ (queueAt s q).launches, x.sigHeld = 0) → stageOff s r.1 = false →
     (queueAt s q).launches.find? (launchDone s q) = some l → l.fail = 0 → (r.1 = 2 ∨ r.1 = 3 ∨ r.1 = 5) → tierHas r.1 a 16 = true →
      Unbuffered s r.1 a 16 → n + 1 < 2 ^ 32 →
      Gives (.launchComplete q) s fun t => (queueAt t q).launches = (queueAt s q).launches.filter (fun x => x.lseq ≠ l.lseq) ∧
        t.cores = s.cores ∧ (mreg t (.qcseq q)).toNat = n + 1 ∧
        Wrote s t r.1 a (bytesOf [wordOf l.lseq, pack [(l.bad, 32), (l.codes.toNat, 0)]])) ∧
    ((∀ x ∈ (queueAt s q).launches, x.checked = true ∧ x.sigWait = 0) → Gives (.qretry q) s fun t =>
      (queueAt t q).launches = (queueAt s q).launches.map (fun x => { x with stall := false }) ∧ t.cores = s.cores ∧ SameTiers s t)) ∧
  -- R29, R228 to R230: of the queue served first, the next domain of its head launch is loaded into the seats found for it, as dispatch
  -- loads a seat; with no queue ready nothing happens.
  (∀ (s : State), (queueOrder s (queueReady s) = [] → Gives .dispatchDomain s fun t => t = s) ∧
    ∀ (q : Nat) (rest : List Nat) (l : Launch) (r : List (Nat × Nat)) (es : List (Nat × Ext)) (code : Nat × Nat) (sp : List Spot)
        (s0 s1 s2 : State),
      let d := needOf s q l l.disp
      queueOrder s (queueReady s) = q :: rest → swapReady s q = none → headLaunch s q = some l →
      headReady l = true → findUnit s d (lrLvl l) (lrDsize l) (countUp 0 (384 / unitCores (lrLvl l))) = some r →
      virtExts l d.tenant l.exts s = (s0, .ok es) →
      ((r.filter fun x => decide (x.2 ≠ 0)).all fun x => syncReach s0 l (some (x.1 / 96)) es) = true →
      walkCode d.tenant 300 s0 (bits (hdW l 1) 56 0) (bits (hdW l 2) 31 0) none = (s1, .ok code) → spotsOf s1 d r = (sp, s2) →
      (∀ o ∈ sp, o.core < 384) → Gives .dispatchDomain s fun t => t.lastQ = q ∧
        (queueAt t q).launches = (queueAt s1 q).launches.map (fun x => if x.lseq = l.lseq then { x with disp := x.disp + 1 } else x) ∧
        (∀ y ∈ t.reserved, ¬(y.q = q ∧ y.lseq = l.lseq ∧ y.dom = l.disp)) ∧
        SameTiers s1 t ∧ ∀ i own, lget none (sp.map some) i = some own →
          (∀ j o, j ≠ i → lget none (sp.map some) j = some o → o.core ≠ own.core ∨ o.seat ≠ own.seat) →
          let x := seatAt t own.core own.seat
          let k := l.disp * lrDsize l + i
          x.st = .ready ∧ x.pc = 0 ∧ x.task = taskWord (qTenant s q) q l.lseq ∧ x.tco = tcoWord l k ∧
          x.dmem = dmemWord l k ∧ x.run = bits (hdW l 0) 55 32 ∧ x.a = argRegs l ∧ (x.codeTier, x.codeBase) = code ∧
          x.ext = memberExts s1 l es own (peerSpot sp i) false ∧ x.fi = [] ∧ x.fo = [] ∧ x.flg = 0 ∧ x.allocs = own.allocs)

/-- R237, R238, R416: TEARDOWN stops dispatch and ends the waits for a word; RESET stops the tasks, at the latest after 65,536 cycles;
when none is left the writes of the launches that can be rolled back are restored, the tasks of the others are reported, one record is written
and the queue has stopped; RESTART lets it run; while a checkpoint runs the commands wait.  That a ready task which has reached its wait stops at
once (log 26), and the LSEQ and word 1 of the Q_RESET record (log 25), are the model's. -/
def Obligations.QueuesAreTornDownResetAndRestarted : Prop :=
  ∀ (s : State) (q : Fin 64) (c n : Nat) (x : Seat),
    let z := queueAt s q
    let r := ringOf (mreg s (.qcring q))
    let k := (mreg s (.qcseq q)).toNat
    let a := r.2 + 16 * (k % ringSize s q)
    let sum := tallyOf s q z.torn
    let ended := fun (t : State) (cause : Nat) => (queueAt t q).st = 0 ∧ (mreg t (.qcseq q)).toNat = k + 1 ∧
      Wrote s t r.1 a (bytesOf [pack [(cause, 56), (z.torn.1, 0)], pack [(sum.1, 32), (sum.2.toNat, 0)]]) ∧
      ∀ d, (coreAt t d).spad = (coreAt s d).spad
    let resident := (c, n, x) ∈ queueSeats s q ∧ seatAt s c n = x ∧ ((queueSeats s q).map fun y => (y.1, y.2.1)).Nodup
    let idleNet := ∀ y ∈ s.netRecs, y.queue ≠ q.val
    let quietSigs := ∀ l ∈ z.launches, lrSig l = 0 ∧ l.stall = false
    (ckBusy s = true → Gives (.teardown q) s (fun t => t = { s with ckptWait := s.ckptWait ++ [(.qcfg q, 1)] }) ∧
      Gives (.reset q) s (fun t => t = { s with ckptWait := s.ckptWait ++ [(.qcfg q, 2)] }) ∧
      Gives (.restart q) s (fun t => t = { s with ckptWait := s.ckptWait ++ [(.qcfg q, 3)] })) ∧
    (ckBusy s = false → z.st = 0 → Gives (.restart q) s fun t => queueAt t q = { z with st := 1 } ∧ t.cores = s.cores ∧ t.mgmt = s.mgmt) ∧
    (ckBusy s = false → z.st = 1 → idleNet →
      (Gives (.teardown q) s fun t => (queueAt t q).st = 2 ∧ (queueAt t q).torn = oldestLaunch s q ∧ SameTiers s t ∧
        (resident → ∀ a b cnd, x.wait = some (.word a b cnd) → (seatAt t c n).wait = none ∧ (x.st = .parked → (seatAt t c n).st = .ready))) ∧
      (Gives (.reset q) s fun t => (queueAt t q).st = 3 ∧ (queueAt t q).torn = oldestLaunch s q ∧ SameTiers s t ∧
        (s.gts + 65536, .resetStopTimeout q) ∈ t.timers ∧
        (resident → (x.st = .parked ∨ (x.st = .ready ∧ x.wait.isSome = true ∧ inFreeze (coreAt s c) n = false) →
            (seatAt t c n).st = .stopped ∧ (seatAt t c n).stop = none) ∧
          (x.st = .ready → (x.wait = none ∨ inFreeze (coreAt s c) n = true) → (seatAt t c n).stopReq = some 1)))) ∧
    (z.st = 3 → z.resetAt + 65536 ≤ s.gts → Gives (.resetStopTimeout q) s fun t => SameTiers s t ∧
      (resident → x.st = .ready ∨ x.st = .parked → (seatAt t c n).st = .stopped ∧ (seatAt t c n).stop = none ∧ (coreAt t c).cur ≠ some n)) ∧
    (queueSeats s q = [] → (r.1 = 2 ∨ r.1 = 3 ∨ r.1 = 5) → tierHas r.1 a 16 = true → stageOff s r.1 = false → Unbuffered s r.1 a 16 →
      k + 1 < 2 ^ 32 → quietSigs →
      (z.st = 2 → Gives (.teardownRecord q) s fun t => ended t Cause.qTorn) ∧
      (z.st = 3 → z.killed = none → (∀ l ∈ z.launches, l.cap = false) → (∀ w ∈ s.wbuf, ∀ l, w.launch ≠ some (q.val, l)) →
        Gives (.resetComplete q) s fun t => ended t Cause.qReset)) ∧
    -- R238, R261: when the tasks have stopped and their writes have settled, a launch that can be rolled back gets the unit it has logged back;
    -- the resident tasks of one that cannot are reported with RESET_UNREC; the seats are free and the record is written
    (z.st = 3 → z.killed = none → allStopped s q = true → workSettled (dropWork s fun w => decide (taskQueue w = q.val)) q (fun _ => true) = true →
      (r.1 = 2 ∨ r.1 = 3 ∨ r.1 = 5) → tierHas r.1 a 16 = true → stageOff s r.1 = false → Unbuffered s r.1 a 16 → k + 1 < 2 ^ 32 → quietSigs →
      ((s.cores.map (·.1)).Pairwise (· < ·) ∧ ∀ y ∈ s.cores, (y.2.seats.map (·.1)).Pairwise (· < ·)) → ∀ l, z.launches = [l] →
        (∀ j u bs, l.cap = true →
          ((s.dies.map fun d => d.2.wlog).flatten.filter fun e => decide (e.2.2.1 = q.val) && decide (e.2.2.2.1 = l.lseq)) =
            [(j, u, q.val, l.lseq, bs)] → (j = 2 ∨ j = 3) → tierHas j (64 * u) bs.length = true → stageOff s j = false →
          Unbuffered s j (64 * u) bs.length → Apart (j, 64 * u, bs.length) (r.1, a, 16) → Gives (.resetComplete q) s fun t =>
            (queueAt t q).st = 0 ∧ queueSeats t q = [] ∧ (mreg t (.qcseq q)).toNat = k + 1 ∧ z.recs.length = (queueAt t q).recs.length ∧
            (∀ i < bs.length, cellAt (tierMem t j) (64 * u + i) = lget 0 bs i) ∧
            (∀ i < 16, cellAt (tierMem t r.1) (a + i) =
              lget 0 (bytesOf [pack [(Cause.qReset, 56), (z.torn.1, 0)], pack [(sum.1, 32), (sum.2.toNat, 0)]]) i) ∧
            ∀ i p, ¬(i = j ∧ 64 * u ≤ p ∧ p < 64 * u + bs.length) → ¬(i = r.1 ∧ a ≤ p ∧ p < a + 16) →
              cellAt (tierMem t i) p = cellAt (tierMem s i) p) ∧
        (l.cap = false → Gives (.resetComplete q) s fun t => ended t Cause.qReset ∧ queueSeats t q = [] ∧
          (queueAt t q).recs.map (·.2.cause) = z.recs.map (·.2.cause) ++ (launchSeats s q l.lseq).map fun _ => Cause.resetUnrec))

/-- Fault records are written in order; the first write of a launch to a unit is logged; struck launches are rolled back or killed.  Where in the
log area an entry stands, and where its words stand in it, is open (log 40): the statement speaks of the entries. -/
def Obligations.FaultRecordsAndRollback : Prop :=
  -- R243, R245: the oldest record goes into the fault ring and QFSEQ counts it, and the seat of a stop record knows; in a full ring a stop
  -- record waits and a notice is dropped and counted; RING_OVER reports the dropped ones first; QFHEAD takes what software writes; the queue's
  -- interrupt is asserted while QFSEQ differs from QFHEAD.
  (∀ (s : State) (q : Fin 64) (who : Option Nat) (r : StopRec) (rest : List (Option Nat × StopRec)),
    let z := queueAt s q
    let n := (mreg s (.qfseq q)).toNat
    let ring := ringOf (mreg s (.qfring q))
    let a := ring.2 + 64 * (n % ringSize s q)
    (z.recs = (who, r) :: rest →
      (ringFull s q = false → z.stops = [] → (ring.1 = 2 ∨ ring.1 = 3 ∨ ring.1 = 5) → tierHas ring.1 a 64 = true → stageOff s ring.1 = false →
        Unbuffered s ring.1 a 64 → n + 1 < 2 ^ 32 →
        (z.dropped = 0 → Gives (.faultRecordWrite q) s fun t => (queueAt t q).recs = rest ∧ (mreg t (.qfseq q)).toNat = n + 1 ∧
          Wrote s t ring.1 a (bytesOf (recWords r n)) ∧ (who = none → t.cores = s.cores) ∧
          ∀ k, who = some k → (seatAt s (k / 4) (k % 4)).stop = some (r, false) → (seatAt t (k / 4) (k % 4)).stop = some (r, true)) ∧
        (z.dropped ≠ 0 → Gives (.faultRecordWrite q) s fun t => queueAt t q = { z with dropped := 0 } ∧ t.cores = s.cores ∧
          (mreg t (.qfseq q)).toNat = n + 1 ∧ ∃ r' : StopRec, r'.nt = true ∧ r'.cause = Cause.ringOver ∧ r'.info0 = wordOf z.dropped ∧
            Wrote s t ring.1 a (bytesOf (recWords r' n)))) ∧
      (ringFull s q = true → who = none → (mreg s (.qflost q)).toNat + 1 < 2 ^ 32 → Gives (.faultRecordWrite q) s fun t =>
        queueAt t q = { z with recs := rest, dropped := z.dropped + 1 } ∧ (mreg t (.qflost q)).toNat = (mreg s (.qflost q)).toNat + 1 ∧
        SameTiers s t ∧ t.cores = s.cores) ∧
      (∀ k, ringFull s q = true → who = some k → Gives (.faultRecordWrite q) s fun t =>
        queueAt t q = { z with recs := rest, stops := z.stops ++ [(k, r)] } ∧ SameTiers s t ∧ t.cores = s.cores)) ∧
    ∀ v : W32, Gives (.qfheadWrite q v) s fun t => t = { s with mgmt := t.mgmt } ∧ mreg t (.qfhead q) = v.setWidth 64 ∧
      faultIrq t q = decide (mreg s (.qfseq q) ≠ v.setWidth 64)) ∧
  -- R261, R262: when the first write of a launch to a unit of tier 2 or 3 reaches its ordering point, the log of its core's die takes the unit's
  -- old bytes; a later write to the unit is not logged; a log that is full costs the launch its capability and posts WLOG_FULL.
  (∀ (s : State) (w : BufWr) (q : Fin 64) (l u : Nat),
    let d := match w.owner with | some k => k / 4 / 96 | none => w.die
    let mine := fun (e : Nat × Nat × Nat × Nat × List Byte) => e.1 = w.tier ∧ e.2.1 = u ∧ e.2.2.1 = q.val ∧ e.2.2.2.1 = l
    let held := ∃ x ∈ s.dies, ∃ e ∈ x.2.wlog, mine e
    let room := 128 * (dieAt s d).wlog.length < (mreg s (.wlsize d)).toNat
    let moves := fun (p : State → Prop) => Gives (.orderingPointArrival 0) s fun t =>
      (∀ i < w.bytes.length, cellAt (tierMem t w.tier) (w.addr + i) = lget 0 w.bytes i) ∧ p t
    let same := fun (t : State) => ∀ j, (dieAt t j).wlog = (dieAt s j).wlog
    s.wbuf = [w] → w.launch = some (q.val, l) → (w.tier = 2 ∨ w.tier = 3) → unitsOf w.addr w.bytes.length = [u] → w.pin = none →
    stageOff s w.tier = false → (∃ x ∈ (queueAt s q).launches, x.lseq = l) → l < 2 ^ 32 →
    (¬ held → room → moves fun t => t.queues = s.queues ∧ ∀ j, (dieAt t j).wlog = (dieAt s j).wlog ++
      if j = d then [(w.tier, u, q.val, l, cellsAt (tierMem s w.tier) (64 * u) 64)] else []) ∧
    (held → moves fun t => same t ∧ t.queues = s.queues) ∧
    (¬ held → ¬ room → hasCap s q l = true → moves fun t => same t ∧
      (queueAt t q).launches = (queueAt s q).launches.map (fun x => if x.lseq = l then { x with cap := false } else x) ∧
      (queueAt t q).recs.map (·.2.cause) = (queueAt s q).recs.map (·.2.cause) ++ [Cause.wlogFull])) ∧
  -- R262: what costs a launch its capability as its task issues it: TIER.ack, TIER.stop, BTAKE, NSND, the collectives, any KV command but KVLK.
  (∀ (s : State) (d : SDst) (a b : SSrc) (n : BitVec 4) (adv : Bool),
    let w := (cs s).task
    let e := extOf (cs s) (bits (stgOf (cs s) 8 0) 3 0)
    let x := (srcAt s a).toNat
    let y := (srcAt s b).toNat
    let costs := fun (i : Instr) => Gives i s fun t => ∀ l ∈ (queueAt t (taskQueue w)).launches, l.lseq = taskLseq w → l.cap = false
    (Readable s [a, b] →
      (streamOpen s x = true → y < (strAt s x).n → costs (.tierAck d a b)) ∧
      (1 ≤ y → y ≤ 64 → engCheck e [0, 2, 3] true false 64 x (64 * y) = none → y ≤ netSlots s (taskTenant w) true → costs (.nsnd d a b)) ∧
      (let cfg := stgOf (cs s) 9 0
       let cnt := (stgOf (cs s) 9 1).toNat
       let g := bits cfg 7 0
       collElt (bits cfg 13 8) ≠ 0 → 1 ≤ cnt → cnt ≤ 2 ^ 32 → resCheck (resOf (cs s) 9) = none → collRank s g ≠ none →
        bits cfg 31 24 < collSize s g → costs (.collBarrier d a b)) ∧
      (resCheck (resOf (cs s) 5) = none → costs (.kvfk d a b) ∧
        (let k := (stgOf (cs s) 5 2).toNat
         64 ≤ k → k ≤ 16384 → 64 ∣ k → engCheck (kextOf (cs s)) [0] true false 64 y k = none → costs (.kvap d a b adv)))) ∧
    (Readable s [a] → costs (.btake d a n) ∧ (streamOpen s x = true → costs (.tierStop d a)) ∧
      (resCheck (resOf (cs s) 5) = none →
        costs (.kvrl d a) ∧ costs (.kvjnOpen d a) ∧ costs (.kvjnCommit d a) ∧ costs (.kvjnReject d a)))) ∧
  -- R263 to R265: a struck launch that can be rolled back gets its logged units back and waits at the head of its queue; another kills its
  -- queue; GO releases what waits.
  (∀ (s : State) (q : Fin 64) (l : Launch) (tier addr : Nat),
    let z := queueAt s q
    let causes := fun (s : State) => (queueAt s q).recs.map (·.2.cause)
    ((z.struck.find? fun y => decide (y.2.1 = tier) && decide (y.2.2 = addr)) = some (l.lseq, tier, addr) → launchAt s q l.lseq = some l →
      (z.st = 1 ∨ z.st = 2) → queueSeats s q = [] → (∀ y ∈ s.netRecs, y.queue ≠ q.val) →
      (∀ j u bs, l.cap = true → l.rolls < bits (mreg s (.qrbk q)) 7 4 → z.resume = [] →
        (∀ w ∈ s.wbuf, w.launch ≠ some (q.val, l.lseq)) →
        ((s.dies.map fun d => d.2.wlog).flatten.filter fun e => decide (e.2.2.1 = q.val) && decide (e.2.2.2.1 = l.lseq)) =
          [(j, u, q.val, l.lseq, bs)] → (j = 2 ∨ j = 3) → tierHas j (64 * u) bs.length = true → stageOff s j = false →
        Unbuffered s j (64 * u) bs.length → Gives (.rollback q tier addr) s fun t =>
          Wrote s t j (64 * u) bs ∧ (queueAt t q).struck = z.struck.filter (fun y => y.1 ≠ l.lseq) ∧
          causes t = causes s ++ [Cause.rollbackDone] ∧ (queueAt t q).st = z.st ∧
          (queueAt t q).launches = z.launches.map fun x => if x.lseq = l.lseq then
            { x with disp := 0, comp := 0, bad := 0, codes := 0, sigWait := 0, sigHeld := 0, rolls := x.rolls + 1, cap := true,
                     waitGo := !bitAt (mreg s (.qrbk q)) 1, stall := false } else x) ∧
      (l.cap = false → Gives (.rollback q tier addr) s fun t => (queueAt t q).st = 3 ∧ (queueAt t q).killed = some (l.lseq, tier, addr) ∧
        SameTiers s t ∧ causes t = causes s ++ [Cause.rollbackUnrec])) ∧
    Gives (.qrbkGo q) s fun t => queueAt t q = { z with launches := z.launches.map fun l => { l with waitGo := false } } ∧
      t.cores = s.cores ∧ t.mgmt = s.mgmt)

/-- R241, R248: RESUME is the return from a stop: the seat is ready again at RADDR, or at SPC, with the run its RUNV gives, everything else
of it as the stop left it; before its record is written the command only posts RESUME_BAD. -/
def Obligations.ResumeReturnsFromAStop : Prop :=
  ∀ (s : State) (c : CoreId) (n : Fin 4) (r : StopRec),
    let x := seatAt s c n
    x.st = .stopped → x.retire = none → x.swapReq = false →
    (x.stop = some (r, true) →
      let at_ := fun (i : Instr) (pc : Word) => Gives i s fun t => OnlyCore c s t ∧ (coreAt t c).spad = (coreAt s c).spad ∧
        seatAt t c n = { x with st := if x.wait.isSome then .parked else .ready, pc := pc, run := runV s c n, used := 0, fresh := true,
                                run0 := false, stop := none } ∧ ∀ m, m ≠ n.val → seatAt t c m = seatAt s c m
      at_ (.resume c n) x.pc ∧ at_ (.resumeAtSpc c n) (BitVec.ofNat 64 (bits (mreg s (.spc (4 * c + n))) 23 0))) ∧
    (x.stop = some (r, false) →
      let bad := fun (i : Instr) => Gives i s fun t => t.cores = s.cores ∧ SameTiers s t ∧
        (queueAt t (taskQueue x.task)).recs.map (·.2.cause) = (queueAt s (taskQueue x.task)).recs.map (·.2.cause) ++ [Cause.resumeBad]
      bad (.resume c n) ∧ bad (.resumeAtSpc c n))

/-- STOP, KILL and SWAPOUT of a task, and its return from its image.  The body of an image has Shosol's own format: what it holds is kept in State,
from which the seat that comes back takes it, whatever the body's bytes have become (DESIGN CHOICE, log 29). -/
def Obligations.TasksAreStoppedKilledAndSwapped : Prop :=
  -- R248: STOP lets a ready task go on to its next yield and stops a waiting one at once with TASK_STOP; KILL retires a stopped task with
  -- exit code 2^31 + CAUSE.
  (∀ (s : State) (c : CoreId) (n : Fin 4),
    let x := seatAt s c n
    x.retire = none →
    (x.st = .ready → x.wait = none → Gives (.stop c n) s fun t => OnlyCore c s t ∧ seatAt t c n = { x with stopReq := some 0 } ∧
      (coreAt t c).cur = (coreAt s c).cur ∧ (coreAt t c).spad = (coreAt s c).spad) ∧
    (x.st = .parked ∨ (x.st = .ready ∧ x.wait.isSome = true) → pendingTraps (coreAt s c) n = [] → Gives (.stop c n) s fun t =>
      (∀ d, d ≠ c.val → coreAt t d = coreAt s d) ∧
      SameTiers s t ∧ ∃ r : StopRec, StoppedWith s t c n x.pc.toNat r ∧ r.cause = Cause.taskStop ∧ r.faddr = x.lastGrp ∧ r.nt = false ∧
        r.raddr = x.pc.toNat ∧ r.slot = 63) ∧
    ∀ r w, x.st = .stopped → x.stop = some (r, w) → Gives (.kill c n) s fun t => OnlyCore c s t ∧ ∃ e, (seatAt t c n).retire = some e ∧
      e.exit = BitVec.ofNat 32 (2 ^ 31 + r.cause) ∧ (seatAt t c n).st = .stopped ∧ (coreAt t c).spad = (coreAt s c).spad) ∧
  -- R249, R250: SWAPOUT marks the members of a stopped task's domain; when they have stopped they pass to STATE 4 unless a save area is
  -- unusable, and once quiet the image of each stands in its save area and its seat is empty; a domain whose images are unharmed comes back on
  -- a new place; others are killed or held.
  (∀ (s : State) (c : CoreId) (n : Fin 4) (q : Fin 64),
    let x := seatAt s c n
    let area := saveArea (mreg s (.ssave (4 * c + n)))
    let ok := fun (y : Nat × Nat × Seat) => saveOk (mreg s (.ssave (4 * y.1 + y.2.1)))
    let causes := fun (s : State) (q : Nat) => (queueAt s q).recs.map (·.2.cause)
    let gang := (gangOf s x).filter fun y => y.2.2.swapReq
    (x.st = .stopped → x.retire = none → x.swapReq = false → x.stop ≠ none →
      (Gives (.swapout c n) s fun t => SameTiers s t ∧ ∀ y ∈ gangOf s x, (seatAt t y.1 y.2.1).swapReq = true) ∧
      (gangOf s x = [(c.val, n.val, x)] → Gives (.swapout c n) s fun t => seatAt t c n = { x with swapReq := true } ∧ OnlyCore c s t)) ∧
    (x.st = .stopped → x.retire = none → x.swapReq = true → (∀ y ∈ gang, y.2.2.st = .stopped ∧ y.2.2.retire = none) →
      (gang.all ok = true → Gives (.swapImageWrite c n) s fun t => SameTiers s t ∧ ∀ y ∈ gang, (seatAt t y.1 y.2.1).st = .swapping) ∧
      (gang.all ok = false → Gives (.swapImageWrite c n) s fun t => SameTiers s t ∧ (∀ y ∈ gang, (seatAt t y.1 y.2.1).swapReq = false) ∧
        (gang = [(c.val, n.val, x)] → (seatAt t c n).st = .stopped ∧
          causes t (taskQueue x.task) = causes s (taskQueue x.task) ++ [Cause.swapFail]))) ∧
    (x.st = .swapping → quiet s c n = true → saveOk (mreg s (.ssave (4 * c + n))) = true → Unbuffered s area.1 area.2 (2 ^ 23) →
      Gives (.swapImageWrite c n) s fun t => (seatAt t c n).st = .empty ∧
      (∀ k < 64, cellAt (tierMem t area.1) (area.2 + k) = lget 0 (bytesOf (imageHead s c n)) k) ∧
      (∀ j p, (j ≠ area.1 ∨ p < area.2 ∨ area.2 + 2 ^ 23 ≤ p) → cellAt (tierMem t j) p = cellAt (tierMem s j) p) ∧
      (queueAt t (taskQueue x.task)).resume.map (fun y => (y.seat.task, y.seat.a, y.seat.pc)) =
        (queueAt s (taskQueue x.task)).resume.map (fun y => (y.seat.task, y.seat.a, y.seat.pc)) ++ [(x.task, x.a, x.pc)]) ∧
    ∀ y, swapGangs s q = [[y]] → gangGo s [y] = true →
      (gangUe s [y] = true → y.seat.slots = [] → (∀ l ∈ (queueAt s q).launches, lrSig l = 0) → Gives (.swapIn q) s fun t =>
        y ∉ (queueAt t q).resume ∧ causes t (taskQueue y.seat.task) = causes s (taskQueue y.seat.task) ++ [Cause.seatUe] ∧ SameTiers s t ∧
        t.cores = s.cores) ∧
      (gangUe s [y] = false → gangBad s [y] = [y] → Gives (.swapIn q) s fun t => (queueAt t q).resume = (queueAt s q).resume ∧
        causes t (taskQueue y.seat.task) = causes s (taskQueue y.seat.task) ++ [Cause.resumeBad] ∧ SameTiers s t ∧ t.cores = s.cores) ∧
      ∀ rest l r es code sp s0 s1 s2, gangUe s [y] = false → gangBad s [y] = [] → queueOrder s (queueReady s) = q.val :: rest →
        launchAt s q (taskLseq y.seat.task) = some l → l.stall = false → (needOf s q l (taskDom y.seat)).peers = [] →
        findUnit s (needOf s q l (taskDom y.seat)) (lrLvl l) 1 (countUp 0 (384 / unitCores (lrLvl l))) = some r →
        virtExts l (needOf s q l (taskDom y.seat)).tenant l.exts s = (s0, .ok es) →
        walkCode (needOf s q l (taskDom y.seat)).tenant 300 s0 (bits (hdW l 1) 56 0) (bits (hdW l 2) 31 0) none = (s1, .ok code) →
        spotsOf s1 (needOf s q l (taskDom y.seat)) r = ([sp], s2) → Gives (.swapIn q) s fun t => y ∉ (queueAt t q).resume ∧ SameTiers s1 t ∧
          let z := seatAt t sp.core sp.seat
          z.st = (if y.seat.wait.isSome then .parked else .ready) ∧ z.task = y.seat.task ∧ z.pc = y.seat.pc ∧ z.a = y.seat.a ∧
          z.flg = y.seat.flg ∧ z.stop = none ∧ z.allocs = sp.allocs)

/-- R255 to R258, R260, R420: REVOKE marks every covered extent of every seat and leaves BUSY until the guards acknowledge; REFRESH puts
what a new walk finds in the place of a revoked extent and leaves the others; ABANDON leaves every extent as it is and ends a command that
holds on the range with EXT_ABANDON. -/
def Obligations.ExtentsAreRevokedAndRefreshed : Prop :=
  ∀ (s : State) (v : Word),
    let op := xrOp s v
    let go := bitAt v 0 = true ∧ ckBusy s = false ∧ bitAt (mreg s .xrctl) 1 = false ∧ bits v 63 61 < 6
    (go → bits v 7 4 = 1 → Gives (.revoke v) s fun t => t.xr = some op ∧ bitAt (mreg t .xrctl) 1 = true ∧ SameTiers s t ∧
      ∀ c n i, let e := extOf (seatAt s c n) i
        extOf (seatAt t c n) i = if covers s op c (taskTenant (seatAt s c n).task) e then { e with rv := true } else e) ∧
    (∀ w, s.xr = some w → underWay s w = false → Gives .guardAck s fun t => t.xr = none ∧ bitAt (mreg t .xrctl) 1 = false ∧
      t.cores = s.cores ∧ SameTiers s t) ∧
    (∀ w, s.xr = some w → underWay s w = true → Gives .guardAck s fun t => t.xr = s.xr ∧ mreg t .xrctl = mreg s .xrctl ∧ t.cores = s.cores ∧
      SameTiers s t) ∧
    (go → bits v 7 4 = 2 → s.netRecs = [] →
      ((∀ x ∈ s.streams, x.2.tenant = taskTenant x.2.task) → Gives (.refresh v) s fun t => ∀ c n i, let e := extOf (seatAt s c n) i
        (e.rv = false ∨ covers s op c (taskTenant (seatAt s c n).task) e = false) → extOf (seatAt t c n) i = e) ∧
      ∀ u e i, ((allUses s).filter fun u => u.e.rv && covers s op u.core u.tenant u.e).eraseDups = [u] → u.e.virtual = true →
        (let s1 := setMreg s .xrctl (setBits (setBits (setBits v 0 0 0) 34 8 0) 1 1 0)
         translateExt s1 u.tenant u.e = (s1, .ok e)) →
        (seatAt s u.core u.seat).task = u.task → extOf (seatAt s u.core u.seat) i = u.e →
        Gives (.refresh v) s fun t => extOf (seatAt t u.core u.seat) i = e ∧ SameTiers s t ∧ (coreAt t u.core).spad = (coreAt s u.core).spad) ∧
    (go → bits v 7 4 = 3 →
      (Gives (.abandon v) s fun t => t.xr = s.xr ∧ ∀ c n i, extOf (seatAt t c n) i = extOf (seatAt s c n) i) ∧
      ∀ c k m p, s.cores = [(c, k)] → (tget {} k.ch 0).cmds = [m] → (∀ h, h ≠ 0 → (tget {} k.ch h).cmds = []) →
        allEng s = [] → s.streams = [] → s.netRecs = [] → m.code = 0 → m.acks = [] → cpyAbandon s op c 0 m = some p →
        Gives (.abandon v) s fun t =>
          (tget {} (coreAt t c).ch 0).cmds = [{ m with code := Cause.extAbandon, detail := none, phys := some p, pend := [] }] ∧
          (coreAt t c).spad = k.spad ∧ SameTiers s t)

/-! ### The package -/

/-- Boot, measurement, quotes and the tamper alarm.  The hashes and signatures are uninterpreted (log 7); BOOTST.B = 1 when both manifests fail, the
places of BUSY and ERR in ATCTL, and the 2 ms that a write of EPOCH and TLATCH takes at most are log 27; sealing and unsealing as accesses of a
hart are log 37. -/
def Obligations.ThePackageBootsAndIsMeasured : Prop :=
  -- R409 to R412: the boot ROM runs once; with no accepted manifest, images that do not agree, or no accepted configuration record every die, stack
  -- and port stays off, the ROM halts and BOOTST shows why; else BOOTST shows DONE, the dies of the record are on, the measurement registers and
  -- the keys are derived, and the harts are released at image 0.
  (∀ (s : State), regsSorted s →
    let tl := if s.tlatch then 1 else 0
    let secret := digestBytes Config.deviceSecret
    let s1 := { s with tlatch := false, rpaKey := Config.sha3_256 (secret ++ textBytes [0x72, 0x70, 0x61]) }
    let off := fun (t : State) (b code : Nat) => t.dieEn = 0 ∧ t.hbmEn = false ∧ t.boot = .halted ∧
      mreg t .bootst = pack [(tl, 62), (b, 61), (code, 0)] ∧ t.cores = s.cores ∧
      (∀ p < 32, bits (mreg t (.pst p)) 2 0 = 0) ∧ ∀ p < 4, bits (mreg t (.npst p)) 0 0 = 0
    (s.boot ≠ .rom → Gives (.boot false) s fun t => t = s) ∧
    (s.boot = .rom → maniOk s 0 = false → maniOk s 0x01000000 = false → Gives (.boot false) s fun t => off t 1 1 ∧ SameTiers s t) ∧
    ∀ (m b : Nat), s.boot = .rom →
      ((m = 0 ∧ b = 0 ∧ maniOk s 0 = true) ∨ (m = 0x01000000 ∧ b = 1 ∧ maniOk s 0 = false ∧ maniOk s m = true)) →
      (∀ s2, loadImages m (List.range (flashNat s (m + 12) 4)) s1 = (s2, false) → Gives (.boot false) s fun t => off t b 2 ∧ SameTiers s2 t) ∧
      ∀ s2, loadImages m (List.range (flashNat s (m + 12) 4)) s1 = (s2, true) →
        let c := flashNat s2 (m + 16) 8
        let len := flashNat s2 (m + 24) 8
        (configOk s2 c len = false → Gives (.boot false) s fun t => off t b 3 ∧ SameTiers s2 t) ∧
        (configOk s2 c len = true → Gives (.boot false) s fun t => mreg t .bootst = pack [(1, 63), (tl, 62), (b, 61)] ∧
          t.boot = .run (flashNat s2 (m + 40) 8) ∧ t.dieEn = BitVec.ofNat 4 (flashNat s2 (c + 8) 1) ∧
          t.hbmEn = decide (flashNat s2 (c + 9) 1 = 15) ∧ t.dbg = BitVec.ofNat 2 (flashNat s2 (c + 10) 1) ∧ t.keysUp = true ∧
          t.svnc = max s2.svnc (flashNat s2 (m + 8) 4) ∧ t.owndig.toNat = flashNat s2 (c + 16) 32 ∧
          mreg t .alcfg = wordOf (flashNat s2 (c + 12) 4 % 64) ∧ SameTiers s2 t ∧
          mrBytes t 0 = digestBytes (Config.sha3_256 (cellsAt s2.flash m (maniLen s2 m + 3732))) ∧
          mrBytes t 1 = digestBytes (Config.sha3_256 (cellsAt s2.flash c len)) ∧ (∀ k < 8, 2 ≤ k → mrBytes t k = natBytes 32 0) ∧
          t.sealKey = Config.sha3_256 (secret ++ natBytes 4 s2.epoch.toNat ++ mrBytes t 0 ++ textBytes [0x73, 0x65, 0x61, 0x6C]) ∧
          t.attSeed = Config.sha3_256 (secret ++ natBytes 4 s2.epoch.toNat ++ mrBytes t 0 ++ mrBytes t 1 ++
            textBytes [0x61, 0x74, 0x74, 0x65, 0x73, 0x74]))) ∧
  -- R413, R414: only registers 2 to 7 are extended, an extension during a quote waits for its end; a quote signs the registers, the nonce,
  -- the package number and the epoch; after a trip it ends in error, and an unseal ends with CODE 1; an enabled input that trips destroys every
  -- key, and with ERASE begins the write of TLATCH and EPOCH, behind which RST resets the package.
  (∀ (s : State) (v : BitVec 256) (inputs : BitVec 4), regsSorted s →
    let n := bits (mreg s .mrsel) 2 0
    let ext := fun (n : Nat) => digestBytes (Config.sha3_256 (mrBytes s n ++ digestBytes v))
    let at_ := fun (t : State) (busy err : Bool) => bitAt (mreg t .atctl) 2 = busy ∧ bitAt (mreg t .atctl) 1 = err
    let hit := inputs.toNat &&& bits (mreg s .alcfg) 3 0
    (quoteBusy s = false → Gives (.mrExtend v) s fun t => t = { s with mgmt := t.mgmt } ∧
      ∀ k < 8, mrBytes t k = if k = n ∧ 2 ≤ k then ext k else mrBytes s k) ∧
    (quoteBusy s = true → Gives (.mrExtend v) s fun t => t = { s with pendExt := s.pendExt ++ [(n, v)] }) ∧
    (quoteBusy s = false → s.tripped = false → s.keysUp = true → Gives .quote s fun t => at_ t true false ∧ t.cores = s.cores ∧
      t.quoteMsg = digestBytes (Config.sha3_256 (((List.range 8).map (mrBytes s)).flatten ++ regBytes s .atnonce 0 4 ++
        natBytes 8 (chipNo s) ++ natBytes 4 s.epoch.toNat))) ∧
    (quoteBusy s = false → s.tripped = true → Gives .quote s fun t => at_ t false true ∧ t.quoteMsg = s.quoteMsg) ∧
    (quoteBusy s = true → s.tripped = false → (∀ k, s.pendExt = [(k, v)] → Gives .quoteComplete s fun t => at_ t false false ∧ t.pendExt = [] ∧
      ∀ j < 8, mrBytes t j = if j = k ∧ 2 ≤ j then ext j else mrBytes s j)) ∧
    (quoteBusy s = true → s.tripped = true → Gives .quoteComplete s fun t => at_ t false true) ∧
    (∀ bs, (Gives (.hartMemoryAccess (.seal bs)) s fun t => t = { s with sealOut := some (0, Config.sealOf s.sealKey bs) }) ∧
      (s.tripped = true → Gives (.hartMemoryAccess (.unseal bs)) s fun t => t = { s with sealOut := some (1, []) }) ∧
      (s.tripped = false → s.keysUp = true → Gives (.hartMemoryAccess (.unseal bs)) s fun t =>
        t = { s with sealOut := some (Config.unsealOf s.sealKey bs) })) ∧
    (hit = 0 → inputs ≠ 0 → Gives (.tamperTrip inputs) s fun t => t = s) ∧
    (let erase := bitAt (mreg s .alcfg) 4
     let rst := bitAt (mreg s .alcfg) 5
     (hit ≠ 0 → (erase = true ∨ rst = false) → Gives (.tamperTrip inputs) s fun t => t.sealKey = 0 ∧ t.attSeed = 0 ∧ t.rpaKey = 0 ∧
      t.keysUp = false ∧ t.tripped = true ∧ (∀ k < 303, mreg t (.atsig k) = 0) ∧ t.cores = s.cores ∧ SameTiers s t ∧ t.epoch = s.epoch ∧
      (∀ b < 4, hit.testBit b = true → bitAt (mreg t .alst) b = true) ∧
      t.rpaWrite = (if erase then some (rst || s.rpaWrite = some true) else s.rpaWrite) ∧
      t.timers = s.timers ++ if erase && s.rpaWrite.isNone then [(s.gts + rpaTime, .tamperTrip 0)] else []) ∧
     (hit ≠ 0 → erase = false → rst = true → Gives (.tamperTrip inputs) s fun t => t.cores = [] ∧ t.keysUp = false ∧ t.boot = .rom ∧
      t.epoch = s.epoch ∧ mreg t .bootst = 0)) ∧
    (s.rpaWrite = none → Gives (.tamperTrip 0) s fun t => t = s) ∧
    (s.rpaWrite = some false → Gives (.tamperTrip 0) s fun t => t = { s with tlatch := true, epoch := s.epoch + 1, rpaWrite := none }) ∧
    (s.rpaWrite = some true → Gives (.tamperTrip 0) s fun t => t.cores = [] ∧ t.keysUp = false ∧ t.boot = .rom ∧ t.tlatch = true ∧
      t.epoch = s.epoch + 1))

/-- Power states, limits of heat, and checkpoints.  The code of a refused command and tier 2 reading zero once its stage has lost its data are log 27;
that a ready task which has reached its wait stops at once is log 26; what a checkpoint holds is kept in State, in log 29. -/
def Obligations.PowerAndCheckpoints : Prop :=
  -- R415: a command that takes a unit out of D0 while it is in use is refused with a code; else the unit changes its state, and a die that
  -- is powered off loses its cores' state and the HBM4 stage its data; a die's temperature sets its limit and may trip the alarm.
  (∀ (s : State) (v : Word) (d : Fin 4) (temp : BitVec 16), regsSorted s →
    let u := bits v 7 5
    let st := bits v 4 3
    (bitAt v 0 = true → ckBusy s = false → s.powerBusy = none → u < 5 → (st = 1 ∨ st = 2) →
      (powerRefused s u = true → Gives (.powerTransition v) s fun t => t.powerBusy = none ∧ bits (mreg t .pwst) 63 56 ≠ 0 ∧ t.cores = s.cores ∧
        SameTiers s t) ∧
      (powerRefused s u = false → st = 2 → Gives (.powerTransition v) s fun t => t.powerBusy = some (u, 2) ∧ bits (mreg t .pwst) 63 56 = 0 ∧
        bitAt (mreg t .pwctl) 1 = true ∧ t.cores = s.cores ∧ SameTiers s t)) ∧
    (s.powerBusy = some (d.val, 2) → Gives .powerTransitionDone s fun t => t.powerBusy = none ∧ (dieAt t d).power = 2 ∧
      (∀ c, coreAt t c = if c / 96 = d.val then {} else coreAt s c) ∧ SameTiers s t ∧ bitAt (mreg t .pwctl) 1 = false) ∧
    (s.powerBusy = some (4, 2) → Gives .powerTransitionDone s fun t => t.powerBusy = none ∧ t.hbmPower = 2 ∧ t.t2 = [] ∧ t.t3 = s.t3 ∧
      t.cores = s.cores) ∧
    (Gives (.dieThermalLimit d temp) s fun t => (bits (mreg s .ttrip) 15 0 < temp.toNat → bitAt (mreg s .alcfg) 3 = true →
        bitAt (mreg s .alcfg) 5 = false → t.keysUp = false ∧ t.tripped = true) ∧
      (temp.toNat ≤ bits (mreg s .ttrip) 15 0 → t = { s with dies := t.dies } ∧ (dieAt t d).temp = temp.toNat ∧
        ((dieAt t d).hot = true ↔ bits (mreg s .tlim) 15 0 < temp.toNat)))) ∧
  -- R416: a checkpoint gates the package and stops its tasks; when every seat is quiet the image is written and DONE is set; RESUME ends
  -- the gate and the tasks go on; RESTORE reads an unharmed image back.
  (∀ (s : State) (v : Word) (c n : Nat), regsSorted s →
    let x := seatAt s c n
    let off := fun (w : Word) => bits w 60 16 * 2 ^ 16
    (bitAt v 0 = true → ckBusy s = false → bits v 3 2 = 0 → s.streams = [] → allSeats s = [(c, n, x)] → Gives (.checkpoint v) s fun t =>
      t.ckpt = some (0, s.gts) ∧ ckBusy t = true ∧ (s.gts + 65536, .checkpointQuiesceTimeout) ∈ t.timers ∧ SameTiers s t ∧
      t.ckOff = off v ∧ (x.st = .parked ∨ (x.st = .ready ∧ x.retire = none ∧ x.wait.isSome = true ∧ inFreeze (coreAt s c) n = false) →
        (seatAt t c n).st = .stopped ∧ (seatAt t c n).stop = none) ∧
      (x.st = .ready → x.retire = none → (x.wait = none ∨ inFreeze (coreAt s c) n = true) → seatAt t c n = { x with stopReq := some 1 })) ∧
    (∀ g, s.ckpt = some (0, g) → g + 65536 ≤ s.gts → allSeats s = [(c, n, x)] → x.st = .ready → Gives .checkpointQuiesceTimeout s fun t =>
      (seatAt t c n).st = .stopped ∧ (seatAt t c n).stop = none ∧ (seatAt t c n).a = x.a ∧ SameTiers s t) ∧
    (∀ g, s.ckpt = some (0, g) → ckptQuiet s = true → s.wbuf = [] → s.ckptWait = [] → Gives .checkpointDone s fun t =>
      t.ckpt = some (2, s.gts) ∧ ckBusy t = false ∧ bitAt (mreg t .ckstat) 63 = true ∧ t.dirty = [] ∧ t.t2 = s.t2 ∧ t.t3 = s.t3 ∧
      t.cores = s.cores ∧ ∃ i ∈ t.ckptImage, i.off = s.ckOff ∧ i.t2 = s.t2 ∧ i.units = dirtyUnits s) ∧
    (∀ g, s.ckpt = some (2, g) → ckBusy s = false → allSeats s = [(c, n, x)] → x.st = .stopped → x.stop = none → x.retire = none →
      Gives .checkpointResume s fun t => t.ckpt = none ∧ SameTiers s t ∧
        (seatAt t c n).st = (if x.wait.isSome then .parked else .ready) ∧ (seatAt t c n).pc = x.pc ∧ (seatAt t c n).a = x.a ∧
        (seatAt t c n).run = runV s c n) ∧
    (∀ i, bitAt v 0 = true → ckBusy s = false → bits v 3 2 = 2 → (∀ q ∈ s.queues, q.2.st = 0) →
      s.ckptImage.find? (fun i => decide (i.off = off v)) = some i → (countUp (off v) i.bytes.length).map (obsByte s none 4) = i.bytes →
      firstPoison s 4 (unitsOf (off v) i.bytes.length) = none → Gives (.restore v) s fun t => t.t2 = i.t2 ∧ t.ckpt = some (2, s.gts) ∧
        bitAt (mreg t .ckstat) 63 = true ∧ t.t4 = s.t4 ∧ t.t5 = s.t5))

/-- R5, R6, R408, R417: a write sets the bits of a register that a write sets and no others; a register that does not exist takes nothing; a
write of a register that starts a command stores its bits and carries the command out as it is by itself (QCFG, QRBK, SCTL, MREXT, KVPFMT, WRCTL,
PWCTL, XRCTL, CKCTL, ATCTL), one of NTQ, KVQT or ALST keeps what the fields in use show, and QRSV is the word it is mapped to, where it is mapped to one
(log 24); a package reset leaves every register at its reset value, no core with any state, and the memories as they are, and a failure of the power
loses what tiers 2, 3 and 5 hold before a cold boot (log 31). -/
def Obligations.ManagementWritesAndPackageReset : Prop :=
  ∀ (s : State) (r : MReg) (v : Word), regsSorted s →
    let starts := match r with
      | .qcfg _ | .qrsv _ | .qrbk _ | .sctl _ | .xrctl | .wrctl | .kvpfmt _ | .ntq _ | .kvqt _ | .mrext _ | .atctl | .alst | .pwctl | .ckctl
      | .fabcfg | .rt _ => True
      | _ => False
    (regExists r = false → Gives (.mgmtRegisterWrite r v) s fun t => t = s) ∧
    (regExists r = true → ¬starts → Gives (.mgmtRegisterWrite r v) s fun t => t = { s with mgmt := t.mgmt } ∧
      (∀ b < 64, (mreg t r).getLsbD b = if (regMask r).getLsbD b then v.getLsbD b else (mreg s r).getLsbD b) ∧
      ∀ r', regExists r' = true → r' ≠ r → mreg t r' = mreg s r') ∧
    -- in a package that carries no message, FABCFG and RT set their bits alone
    (r = .fabcfg ∨ (∃ d, r = .rt d) → regExists r = true → fabricBusy s = false → Gives (.mgmtRegisterWrite r v) s fun t =>
      t = { s with mgmt := t.mgmt } ∧
      ∀ b < 64, (mreg t r).getLsbD b = if (regMask r).getLsbD b then v.getLsbD b else (mreg s r).getLsbD b) ∧
    -- the registers whose writes start a command: the bits are stored first, then the command is carried out as it is by itself
    (let then_ := fun (r : MReg) (p : State → State → Prop) => Gives (.mgmtRegisterWrite r v) s fun t => ∃ s1, s1 = { s with mgmt := s1.mgmt } ∧
       (∀ b < 64, (mreg s1 r).getLsbD b = if (regMask r).getLsbD b then v.getLsbD b else (mreg s r).getLsbD b) ∧
       (∀ r', regExists r' = true → r' ≠ r → mreg s1 r' = mreg s r') ∧ p s1 t
     let runs := fun (i : Instr) (s t : State) => exec i s = .next t
     let as_ := fun (r : MReg) (i : Instr) => exec (.mgmtRegisterWrite r v) s = exec i s
     let cmd := bits v 7 0
     let go := bitAt v 0
     (∀ q : Fin 64,
       (then_ (.qcfg q) fun s1 t => if cmd = 1 then runs (.teardown q) s1 t else if cmd = 2 then runs (.reset q) s1 t
         else if cmd = 3 then runs (.restart q) s1 t else t = s1) ∧
       (then_ (.qrbk q) fun s1 t => if go then runs (.qrbkGo q) s1 t else t = s1)) ∧
     (∀ (c : CoreId) (n : Fin 4), then_ (.sctl (4 * c + n)) fun s1 t => if cmd = 1 then runs (.resume c n) s1 t
       else if cmd = 2 then runs (.resumeAtSpc c n) s1 t else if cmd = 3 then runs (.stop c n) s1 t
       else if cmd = 4 then runs (.swapout c n) s1 t else if cmd = 5 then runs (.kill c n) s1 t else t = s1) ∧
     (∀ k : Fin 4, then_ (.mrext k) fun s1 t =>
       if k.val = 3 then runs (.mrExtend (BitVec.ofNat 256 (leNat (regBytes s1 .mrext 0 4)))) s1 t else t = s1) ∧
     (∀ d : Fin 4, as_ (.kvpfmt d) (.kvpfmtWrite d v)) ∧ as_ .wrctl (.weightReplace v) ∧ as_ .pwctl (.powerTransition v) ∧
     (bits v 7 4 = 1 → as_ .xrctl (.revoke v)) ∧ (bits v 7 4 = 2 → as_ .xrctl (.refresh v)) ∧ (bits v 7 4 = 3 → as_ .xrctl (.abandon v)) ∧
     (bits v 3 2 = 0 → as_ .ckctl (.checkpoint v)) ∧ (bits v 3 2 = 2 → as_ .ckctl (.restore v)) ∧
     (go = true → as_ .atctl .quote) ∧
     -- without GO the command's fields are stored, and BUSY is as it was
     (go = false → let sets := fun (r : MReg) (w : Word) => Gives (.mgmtRegisterWrite r v) s fun t => t = { s with mgmt := t.mgmt } ∧ mreg t r = w ∧
         ∀ r', regExists r' = true → r' ≠ r → mreg t r' = mreg s r'
       sets .pwctl (pack [(bits v 7 5, 5), (bits v 4 3, 3), (if s.powerBusy.isSome then 1 else 0, 1)]) ∧
       sets .ckctl (pack [(bits v 60 16, 16), (bits v 3 2, 2), (if ckBusy s then 1 else 0, 1)]) ∧ sets .atctl (mreg s .atctl) ∧
       (Gives (.mgmtRegisterWrite .xrctl v) s fun t => t = { s with mgmt := t.mgmt } ∧ ∀ b < 64, (mreg t .xrctl).getLsbD b =
         if b = 1 then (mreg s .xrctl).getLsbD 1 else decide (35 ≤ b ∨ b < 8) && decide (b ≠ 0) && v.getLsbD b)) ∧
     -- QRSV is the memory word that it is mapped to, where it is mapped to one
     (∀ q : Fin 64, (qrsvWord q = none → then_ (.qrsv q) fun s1 t => t = s1) ∧
       ∀ j x, qrsvWord q = some (j, x) → stageOff s j = false → Gives (.mgmtRegisterWrite (.qrsv q) v) s fun t => qrsvOf t q = v) ∧
     -- the tables of quotas keep what the fields in use show of themselves; a one written to a bit of ALST clears it, unless its input has tripped
     -- in this cycle
     (∀ k : Fin 16, then_ (.ntq k) fun s1 t => t = { s1 with mgmt := t.mgmt } ∧ bits (mreg t (.ntq k)) 63 24 = bits v 63 24 ∧
       ((s.netRecs.filter fun x => takesSlot x && decide (x.tenant = bits v 63 48) && x.send).length < 4096 →
         bits (mreg t (.ntq k)) 23 12 = (s.netRecs.filter fun x => takesSlot x && decide (x.tenant = bits v 63 48) && x.send).length) ∧
       ((s.netRecs.filter fun x => takesSlot x && decide (x.tenant = bits v 63 48) && !x.send).length < 4096 →
         bits (mreg t (.ntq k)) 11 0 = (s.netRecs.filter fun x => takesSlot x && decide (x.tenant = bits v 63 48) && !x.send).length)) ∧
     (∀ k : Fin 64, then_ (.kvqt k) fun s1 t => t = { s1 with mgmt := t.mgmt } ∧ bits (mreg t (.kvqt k)) 63 24 = bits v 63 24) ∧
     Gives (.mgmtRegisterWrite .alst v) s fun t => t = { s with mgmt := t.mgmt } ∧
       (∀ b < 64, (mreg t .alst).getLsbD b = ((mreg s .alst).getLsbD b && !(decide (b < 4) && v.getLsbD b && !(tripsNow s).testBit b))) ∧
       ∀ r', regExists r' = true → r' ≠ .alst → mreg t r' = mreg s r') ∧
    -- a reset of the package completes a write of EPOCH and TLATCH that runs; a failure of its power loses it, and what tiers 2, 3 and 5 hold
    let afresh := fun (power : Bool) (t : State) => t.cores = [] ∧ t.dies = [] ∧ t.queues = [] ∧ t.streams = [] ∧ t.turn = [] ∧
      (∀ a, cellAt t.t4 a = cellAt s.t4 a) ∧ (power = false → SameTiers s t) ∧ (power = true → t.t2 = [] ∧ t.t3 = [] ∧ t.t5 = []) ∧
      t.flash = s.flash ∧ t.svnc = s.svnc ∧ t.owndig = s.owndig ∧ t.boot = .rom ∧ t.rpaWrite = none ∧
      (t.epoch, t.tlatch) = (if power = false ∧ s.rpaWrite.isSome = true then (s.epoch + 1, true) else (s.epoch, s.tlatch)) ∧ t.keysUp = false ∧
      mreg t .alcfg = wordOf (s.alDef.toNat % 64) ∧ ∀ r', regExists r' = true → r' ≠ .alcfg → mreg t r' = regReset r'
    Gives .packageReset s (afresh false) ∧ ∃ t, afresh true t ∧ exec (.boot true) s = exec (.boot false) t
end

