-- ==== Sys2Proof/Laws/Encoding.lean ====
section
/-!
SUPPORT. Encodings: the slot a syllable stands in gives its decoder, codes of operands are read back as the operands, and lie within
their fields.
-/
namespace Sys2Proof.Laws

open Sys2Proof

/-! ### Slots -/

theorem decSlot_s (u : SSlot) (w : W32) : decSlot (match u with | .s0 => 0 | .s1 => 1) w = decS u w := by cases u <;> rfl

theorem decSlot_b (w : W32) : decSlot 2 w = decB w := rfl

theorem decSlot_m (u : MSlot) (w : W32) : decSlot (match u with | .m0 => 3 | .m1 => 4) w = decM u w := by cases u <;> rfl

theorem decSlot_v (k : Fin 8) (w : W32) : decSlot (5 + k.val) w = decV k w := by
  obtain ⟨k, hk⟩ := k
  have : k = 0 ∨ k = 1 ∨ k = 2 ∨ k = 3 ∨ k = 4 ∨ k = 5 ∨ k = 6 ∨ k = 7 := by omega
  rcases this with rfl | rfl | rfl | rfl | rfl | rfl | rfl | rfl <;> rfl

theorem decSlot_vm (k : Fin 8) (w : W32) : decSlot (13 + k.val) w = decVM k w := by
  obtain ⟨k, hk⟩ := k
  have : k = 0 ∨ k = 1 ∨ k = 2 ∨ k = 3 ∨ k = 4 ∨ k = 5 ∨ k = 6 ∨ k = 7 := by omega
  rcases this with rfl | rfl | rfl | rfl | rfl | rfl | rfl | rfl <;> rfl

theorem decSlot_x (w : W32) : decSlot 21 w = decX w := rfl

theorem decSlot_t (w : W32) : decSlot 22 w = decT w := rfl

theorem decSlot_c (w : W32) : decSlot 23 w = decC w := rfl

theorem decSlot_q (w : W32) : decSlot 24 w = decQ w := rfl

theorem decSlot_e (w : W32) : decSlot 25 w = decE w := rfl

/-- A syllable of a bundle of version 0 reads as its slot reads it. -/
theorem decSyl_zero {s : Nat} {w : W32} {i : Instr} (h : decSlot s w = .ok i) : decSyl 0 s w = .ok i := by
  simp [decSyl, h]

/-! ### Codes read back -/

theorem srcCode_lt (a : SSrc) : srcCode a < 63 := by
  cases a with
  | reg n => exact Nat.lt_of_lt_of_le n.isLt (by decide)
  | latch n => have := n.isLt; simp only [srcCode]; omega
  | fi => decide

@[simp] theorem srcBad_srcCode (a : SSrc) : srcBad (srcCode a) = false := by
  have := srcCode_lt a
  simp only [srcBad, decide_eq_false_iff_not]; omega

@[simp] theorem srcOf_srcCode (a : SSrc) : srcOf (srcCode a) = a := by
  cases a with
  | reg n => simp [srcOf, srcCode]
  | latch n => have := n.isLt; simp [srcOf, srcCode]
  | fi => rfl

theorem dstCode_lt (d : SDst) : dstCode d < 63 := by
  cases d with
  | reg n => exact Nat.lt_of_lt_of_le n.isLt (by decide)
  | fo => decide
  | latch => decide

theorem dstW_lt (d : SDst) : dstW d < 2 := by cases d <;> simp [dstW]

@[simp] theorem dstBad_dstCode (d : SDst) : dstBad (dstCode d) (dstW d) = false := by
  cases d with
  | reg n =>
    have := n.isLt
    show (if (0 : Nat) = 1 then decide (n.val ≠ 0) else decide (56 ≤ n.val ∧ n.val ≠ 62)) = false
    rw [if_neg (by decide), decide_eq_false_iff_not]; omega
  | fo => rfl
  | latch => rfl

@[simp] theorem dstOf_dstCode (d : SDst) : dstOf (dstCode d) (dstW d) = d := by
  cases d with
  | reg n => simp [dstOf, dstCode, dstW]
  | fo => rfl
  | latch => rfl

theorem rdstCode_lt (d : RDst) : rdstCode d < 56 := by
  cases d with
  | reg n => exact n.isLt
  | latch => decide

theorem rdstCode_ne (d : RDst) : rdstCode d ≠ 62 := by have := rdstCode_lt d; omega

theorem rdstW_lt (d : RDst) : rdstW d < 2 := by cases d <;> simp [rdstW]

@[simp] theorem dstBad_rdstCode (d : RDst) : dstBad (rdstCode d) (rdstW d) = false := by
  cases d with
  | reg n =>
    have := n.isLt
    show (if (0 : Nat) = 1 then decide (n.val ≠ 0) else decide (56 ≤ n.val ∧ n.val ≠ 62)) = false
    rw [if_neg (by decide), decide_eq_false_iff_not]; omega
  | latch => rfl

@[simp] theorem rdstOf_rdstCode (d : RDst) : rdstOf (rdstCode d) (rdstW d) = d := by
  cases d with
  | reg n => simp [rdstOf, rdstCode, rdstW]
  | latch => rfl

theorem vsrcCode_lt (a : VSrc) : vsrcCode a < 36 := by
  cases a with
  | reg n => exact Nat.lt_of_lt_of_le n.isLt (by decide)
  | la => decide
  | lb => decide
  | qa => decide
  | qb => decide

@[simp] theorem vsrcBad_vsrcCode (a : VSrc) : vsrcBad (vsrcCode a) = false := by
  have := vsrcCode_lt a
  simp only [vsrcBad, decide_eq_false_iff_not]; omega

@[simp] theorem vsrcOf_vsrcCode (a : VSrc) : vsrcOf (vsrcCode a) = a := by
  cases a with
  | reg n => simp [vsrcOf, vsrcCode]
  | la => rfl
  | lb => rfl
  | qa => rfl
  | qb => rfl

theorem vdstCode_lt (d : VDst) : vdstCode d < 64 := by
  cases d with
  | reg n => exact Nat.lt_of_lt_of_le n.isLt (by decide)
  | qo => decide
  | none => decide

@[simp] theorem vdstBad_vdstCode (d : VDst) : vdstBad (vdstCode d) = false := by
  cases d with
  | reg n =>
    have := n.isLt
    show decide (32 ≤ n.val ∧ n.val ≠ 36 ∧ n.val ≠ 63) = false
    rw [decide_eq_false_iff_not]; omega
  | qo => rfl
  | none => rfl

@[simp] theorem vdstOf_vdstCode (d : VDst) : vdstOf (vdstCode d) = d := by
  cases d with
  | reg n => simp [vdstOf, vdstCode]
  | qo => rfl
  | none => rfl

theorem tyCode_lt (t : Ty) : tyCode t < 7 := by cases t <;> decide
theorem tyCode_ne (t : Ty) : tyCode t ≠ 7 := by cases t <;> decide
@[simp] theorem tyOf_tyCode (t : Ty) : tyOf (tyCode t) = t := by cases t <;> rfl
theorem bcndCode_lt (c : BCnd) : bcndCode c < 4 := by cases c <;> decide
@[simp] theorem bcndOf_bcndCode (c : BCnd) : bcndOf (bcndCode c) = c := by cases c <;> rfl
theorem wcndCode_lt (c : WCnd) : wcndCode c < 4 := by cases c <;> decide
@[simp] theorem wcndOf_wcndCode (c : WCnd) : wcndOf (wcndCode c) = c := by cases c <;> rfl
theorem vcndCode_lt (c : VCnd) : vcndCode c < 8 := by cases c <;> decide
@[simp] theorem vcndOf_vcndCode (c : VCnd) : vcndOf (vcndCode c) = c := by cases c <;> rfl
theorem popCode_lt (c : POp) : popCode c < 8 := by cases c <;> decide
@[simp] theorem popOf_popCode (c : POp) : popOf (popCode c) = c := by cases c <;> rfl
theorem aopCode_lt (c : AOp) : aopCode c < 8 := by cases c <;> decide
@[simp] theorem aopOf_aopCode (c : AOp) : aopOf (aopCode c) = c := by cases c <;> rfl
theorem mulModCode_lt (c : MulMod) : mulModCode c < 3 := by cases c <;> decide
@[simp] theorem mulModOf_mulModCode (c : MulMod) : mulModOf (mulModCode c) = c := by cases c <;> rfl
theorem ropCode_lt (c : ROp) : ropCode c < 3 := by cases c <;> decide
@[simp] theorem ropOf_ropCode (c : ROp) : ropOf (ropCode c) = c := by cases c <;> rfl
theorem bitCode_lt (b : Bool) : bitCode b < 2 := by cases b <;> decide
@[simp] theorem bitOf_bitCode (b : Bool) : bitOf (bitCode b) = b := by cases b <;> rfl
@[simp] theorem bitOf_zero : bitOf 0 = false := rfl

@[simp] theorem finOf_val (n : Nat) [NeZero n] (k : Fin n) : finOf n k.val = k := by
  ext; simp [finOf]

@[simp] theorem ofNat_toNat_same {n : Nat} (x : BitVec n) : BitVec.ofNat n x.toNat = x := by simp

/-! ### Fields of the shared formats -/

/-- A field that lies within a field from bit 0 on. -/
theorem fld_low (m : Nat) {w : W32} {lo n : Nat} (h : lo + n ≤ m) : fld w lo n = fld w 0 m / 2 ^ lo % 2 ^ n := by
  apply Nat.eq_of_testBit_eq
  intro i
  simp only [fld, Nat.pow_zero, Nat.div_one, Nat.testBit_mod_two_pow, Nat.testBit_div_two_pow]
  by_cases hi : i < n
  · have : i + lo < m := by omega
    simp [hi, this]
  · simp [hi]

theorem encDAB_fields {op x : Nat} {d : SDst} {a b : SSrc} {w : W32} (h : encDAB op d a b x = w) (ho : op < 64) (hx : x < 128) :
    fld w 26 6 = op ∧ fld w 20 6 = dstCode d ∧ fld w 19 1 = dstW d ∧ fld w 13 6 = srcCode a ∧ fld w 7 6 = srcCode b ∧
    fld w 0 7 = x := by
  have := dstCode_lt d
  have := dstW_lt d
  have := srcCode_lt a
  have := srcCode_lt b
  subst h
  simp only [fld, encDAB, encW, encFields, BitVec.toNat_ofNat]
  refine ⟨?_, ?_, ?_, ?_, ?_, ?_⟩ <;> omega

theorem encDA_fields {op x : Nat} {d : SDst} {a : SSrc} {w : W32} (h : encDA op d a x = w) (ho : op < 64) (hx : x < 8192) :
    fld w 26 6 = op ∧ fld w 20 6 = dstCode d ∧ fld w 19 1 = dstW d ∧ fld w 13 6 = srcCode a ∧ fld w 0 13 = x := by
  have := dstCode_lt d
  have := dstW_lt d
  have := srcCode_lt a
  subst h
  simp only [fld, encDA, encW, encFields, BitVec.toNat_ofNat]
  refine ⟨?_, ?_, ?_, ?_, ?_⟩ <;> omega

theorem encDAI_fields {op : Nat} {d : SDst} {a : SSrc} {i : BitVec 13} {w : W32} (h : encDAI op d a i = w) (ho : op < 64) :
    fld w 26 6 = op ∧ fld w 20 6 = dstCode d ∧ fld w 19 1 = dstW d ∧ fld w 13 6 = srcCode a ∧ fld w 0 13 = i.toNat := by
  have := dstCode_lt d
  have := dstW_lt d
  have := srcCode_lt a
  have := i.isLt
  subst h
  simp only [fld, encDAI, encW, encFields, BitVec.toNat_ofNat]
  refine ⟨?_, ?_, ?_, ?_, ?_⟩ <;> omega

theorem encVR_fields {op t m : Nat} {d : VDst} {a b : VSrc} {p : Fin 8} {w : W32} (h : encVR op d a b p t m = w) (ho : op < 64)
    (ht : t < 8) (hm : m < 4) :
    fld w 26 6 = op ∧ fld w 20 6 = vdstCode d ∧ fld w 14 6 = vsrcCode a ∧ fld w 8 6 = vsrcCode b ∧ fld w 5 3 = p.val ∧
    fld w 2 3 = t ∧ fld w 0 2 = m ∧ fld w 0 5 = 4 * t + m := by
  have := vdstCode_lt d
  have := vsrcCode_lt a
  have := vsrcCode_lt b
  have := p.isLt
  subst h
  simp only [fld, encVR, encW, encFields, BitVec.toNat_ofNat]
  refine ⟨?_, ?_, ?_, ?_, ?_, ?_, ?_, ?_⟩ <;> omega

theorem encVA_fields {op t m : Nat} {d : VDst} {a : VSrc} {p : Fin 8} {w : W32} (h : encVA op d a p t m = w) (ho : op < 64)
    (ht : t < 8) (hm : m < 4) :
    fld w 26 6 = op ∧ fld w 20 6 = vdstCode d ∧ fld w 14 6 = vsrcCode a ∧ fld w 8 6 = 0 ∧ fld w 5 3 = p.val ∧
    fld w 2 3 = t ∧ fld w 0 2 = m ∧ fld w 0 5 = 4 * t + m := by
  have := vdstCode_lt d
  have := vsrcCode_lt a
  have := p.isLt
  subst h
  simp only [fld, encVA, encW, encFields, BitVec.toNat_ofNat]
  refine ⟨?_, ?_, ?_, ?_, ?_, ?_, ?_, ?_⟩ <;> omega

theorem encVI_fields {op : Nat} {d : VDst} {a : VSrc} {p : Fin 8} {t : Ty} {i : BitVec 8} {w : W32}
    (h : encVI op d a p t i = w) (ho : op < 64) :
    fld w 26 6 = op ∧ fld w 20 6 = vdstCode d ∧ fld w 14 6 = vsrcCode a ∧ fld w 11 3 = p.val ∧ fld w 8 3 = tyCode t ∧
    fld w 0 8 = i.toNat := by
  have := vdstCode_lt d
  have := vsrcCode_lt a
  have := p.isLt
  have := tyCode_lt t
  have := i.isLt
  subst h
  simp only [fld, encVI, encW, encFields, BitVec.toNat_ofNat]
  refine ⟨?_, ?_, ?_, ?_, ?_, ?_⟩ <;> omega

theorem encQ_fields {op d t m : Nat} {r n : BitVec 8} {w : W32} (h : encQ op d t r n m = w) (ho : op < 64) (hd : d < 4)
    (ht : t < 8) (hm : m < 32) :
    fld w 26 6 = op ∧ fld w 24 2 = d ∧ fld w 21 3 = t ∧ fld w 13 8 = r.toNat ∧ fld w 5 8 = n.toNat ∧ fld w 0 5 = m := by
  have := r.isLt
  have := n.isLt
  subst h
  simp only [fld, encQ, encW, encFields, BitVec.toNat_ofNat]
  refine ⟨?_, ?_, ?_, ?_, ?_, ?_⟩ <;> omega

theorem encX_fields {op m : Nat} {t : Fin 8} {r a : BitVec 8} {w : W32} (h : encX op t r a m = w) (ho : op < 64)
    (hm : m < 128) :
    fld w 26 6 = op ∧ fld w 23 3 = t.val ∧ fld w 15 8 = r.toNat ∧ fld w 7 8 = a.toNat ∧ fld w 0 7 = m := by
  have := t.isLt
  have := r.isLt
  have := a.isLt
  subst h
  simp only [fld, encX, encW, encFields, BitVec.toNat_ofNat]
  refine ⟨?_, ?_, ?_, ?_, ?_⟩ <;> omega

end Sys2Proof.Laws
end

