-- ==== Sys2Proof/Laws/Table.lean ====
section
/-!
SUPPORT. Tables: a read after a write, and the canonical form, which every operation on a table keeps.
-/
namespace Sys2Proof.Laws

open Sys2Proof Sys2Proof.Machine

variable {α : Type}

@[simp] theorem tfind_nil (k : Nat) : tfind ([] : Tbl α) k = none := rfl

@[simp] theorem tget_nil (d : α) (k : Nat) : tget d [] k = d := rfl

/-- A read of the key just written. -/
@[simp] theorem tfind_tput_same (k : Nat) (v : α) (t : Tbl α) : tfind (tput k v t) k = some v := by
  induction t with
  | nil => simp [tput, tfind]
  | cons p t ih =>
    obtain ⟨a, w⟩ := p
    unfold tput
    by_cases h1 : k < a
    · simp [h1, tfind]
    · by_cases h2 : k = a
      · simp [h2, tfind]
      · simp [h1, h2, tfind, ih]

/-- A read of another key. -/
theorem tfind_tput_ne {k j : Nat} (h : j ≠ k) (v : α) (t : Tbl α) : tfind (tput k v t) j = tfind t j := by
  induction t with
  | nil => simp [tput, tfind, h]
  | cons p t ih =>
    obtain ⟨a, w⟩ := p
    unfold tput
    by_cases h1 : k < a
    · simp [h1, tfind, h]
    · by_cases h2 : k = a
      · subst h2; simp [tfind, h]
      · simp [h1, h2, tfind, ih]

@[simp] theorem tget_tput_same (d : α) (k : Nat) (v : α) (t : Tbl α) : tget d (tput k v t) k = v := by
  simp [tget]

theorem tget_tput_ne {k j : Nat} (h : j ≠ k) (d v : α) (t : Tbl α) : tget d (tput k v t) j = tget d t j := by
  simp [tget, tfind_tput_ne h]

theorem tfind_tdel_ne {k j : Nat} (h : j ≠ k) (t : Tbl α) : tfind (tdel k t) j = tfind t j := by
  induction t with
  | nil => rfl
  | cons p t ih =>
    obtain ⟨a, w⟩ := p
    unfold tdel
    by_cases h2 : k = a
    · subst h2; simp [tfind, h, ih]
    · simp [h2, tfind, ih]

/-- A removed key is not listed. -/
theorem tfind_tdel_same (k : Nat) (t : Tbl α) : tfind (tdel k t) k = none := by
  induction t with
  | nil => rfl
  | cons p t ih =>
    obtain ⟨a, w⟩ := p
    unfold tdel
    by_cases h2 : k = a
    · simp [h2] at ih ⊢; exact ih
    · simp [h2, tfind, ih]

section form
variable [DecidableEq α] {d : α}

theorem twfFrom_cons {lo : Option Nat} {a : Nat} {v : α} {t : Tbl α} :
    twfFrom d lo ((a, v) :: t) = true ↔ (∀ l, lo = some l → l < a) ∧ v ≠ d ∧ twfFrom d (some a) t = true := by
  cases lo <;> simp [twfFrom, and_assoc]

/-- A looser lower bound keeps the form. -/
theorem twfFrom_weaken {lo lo' : Option Nat} {t : Tbl α} (h : twfFrom d lo t = true)
    (hl : ∀ l', lo' = some l' → ∃ l, lo = some l ∧ l' ≤ l) : twfFrom d lo' t = true := by
  cases t with
  | nil => rfl
  | cons p t =>
    obtain ⟨a, v⟩ := p
    rw [twfFrom_cons] at h ⊢
    refine ⟨fun l' e => ?_, h.2⟩
    obtain ⟨l, e1, hle⟩ := hl l' e
    exact Nat.lt_of_le_of_lt hle (h.1 l e1)

theorem twfFrom_none {lo : Option Nat} {t : Tbl α} (h : twfFrom d lo t = true) : twf d t = true :=
  twfFrom_weaken h (by simp)

/-- A key below the bound is not listed. -/
theorem tfind_of_twfFrom {k l : Nat} {t : Tbl α} (h : twfFrom d (some l) t = true) (hk : k ≤ l) : tfind t k = none := by
  induction t generalizing l with
  | nil => rfl
  | cons p t ih =>
    obtain ⟨a, v⟩ := p
    rw [twfFrom_cons] at h
    have := h.1 l rfl
    have hne : k ≠ a := by omega
    simp only [tfind, if_neg hne]
    exact ih h.2.2 (by omega)

theorem twfFrom_tput {lo : Option Nat} {k : Nat} {v : α} {t : Tbl α} (hv : v ≠ d) (hk : ∀ l, lo = some l → l < k)
    (h : twfFrom d lo t = true) : twfFrom d lo (tput k v t) = true := by
  induction t generalizing lo with
  | nil => simp only [tput]; rw [twfFrom_cons]; exact ⟨hk, hv, rfl⟩
  | cons p t ih =>
    obtain ⟨a, w⟩ := p
    unfold tput
    have h' := h
    rw [twfFrom_cons] at h
    by_cases h1 : k < a
    · rw [if_pos h1, twfFrom_cons]
      exact ⟨hk, hv, twfFrom_cons.mpr ⟨fun l e => by cases e; exact h1, h.2⟩⟩
    · by_cases h2 : k = a
      · subst h2
        rw [if_neg h1, if_pos rfl, twfFrom_cons]
        exact ⟨hk, hv, h.2.2⟩
      · rw [if_neg h1, if_neg h2, twfFrom_cons]
        exact ⟨h.1, h.2.1, ih (fun l e => by cases e; omega) h.2.2⟩

theorem twfFrom_tdel {lo : Option Nat} {k : Nat} {t : Tbl α} (h : twfFrom d lo t = true) : twfFrom d lo (tdel k t) = true := by
  induction t generalizing lo with
  | nil => rfl
  | cons p t ih =>
    obtain ⟨a, w⟩ := p
    rw [twfFrom_cons] at h
    unfold tdel
    by_cases h2 : k = a
    · rw [if_pos h2]
      exact ih (twfFrom_weaken h.2.2 (fun l e => ⟨a, rfl, Nat.le_of_lt (h.1 l e)⟩))
    · rw [if_neg h2, twfFrom_cons]
      exact ⟨h.1, h.2.1, ih h.2.2⟩

theorem twf_tdel {k : Nat} {t : Tbl α} (h : twf d t = true) : twf d (tdel k t) = true := twfFrom_tdel h

/-- A write keeps the canonical form. -/
theorem twf_tset {k : Nat} {v : α} {t : Tbl α} (h : twf d t = true) : twf d (tset d k v t) = true := by
  unfold tset
  split
  · exact twf_tdel h
  · exact twfFrom_tput (by assumption) (by simp) h

/-- A read after a write to the same key. -/
theorem tget_tset_same {k : Nat} {v : α} {t : Tbl α} : tget d (tset d k v t) k = v := by
  unfold tset
  split
  · simp [tget, tfind_tdel_same, *]
  · simp

/-- A read after a write to another key. -/
theorem tget_tset_ne {k j : Nat} (hj : j ≠ k) {v : α} {t : Tbl α} : tget d (tset d k v t) j = tget d t j := by
  unfold tset
  split
  · simp [tget, tfind_tdel_ne hj]
  · exact tget_tput_ne hj d v t

/-- Writing the value that an unlisted key stands for lists nothing under it. -/
theorem tfind_tset_default {k : Nat} {t : Tbl α} : tfind (tset d k d t) k = none := by
  simp [tset, tfind_tdel_same]

end form

/-! ### Lists read and replaced by position -/

theorem lget_lset_same (d v : α) (l : List α) (i : Nat) (h : i < l.length) : lget d (lset l i v) i = v := by
  induction l generalizing i with
  | nil => simp at h
  | cons a t ih =>
    cases i with
    | zero => rfl
    | succ i => simpa [lset, lget] using ih i (by simpa using h)

theorem lget_lset_ne (d v : α) (l : List α) {i j : Nat} (h : j ≠ i) : lget d (lset l i v) j = lget d l j := by
  induction l generalizing i j with
  | nil => rfl
  | cons a t ih =>
    cases i with
    | zero => cases j with
      | zero => exact absurd rfl h
      | succ j => rfl
    | succ i => cases j with
      | zero => rfl
      | succ j => simpa [lset, lget] using ih (by omega)

@[simp] theorem countUp_length (a n : Nat) : (countUp a n).length = n := by
  induction n generalizing a with
  | zero => rfl
  | succ n ih => simp [countUp, ih]

theorem mem_countUp {a n x : Nat} : x ∈ countUp a n ↔ a ≤ x ∧ x < a + n := by
  induction n generalizing a with
  | zero => simp [countUp]
  | succ n ih => simp [countUp, ih]; omega

end Sys2Proof.Laws
end

