-- ==== Sys2Proof/Laws/Memory.lean ====
section
/-!
SUPPORT. Memory: every operation keeps the canonical form (log 1), and what a read gives after a write.
-/
namespace Sys2Proof.Laws

open Sys2Proof Sys2Proof.Machine

/-! ### Stores of bytes -/

theorem wf_nil : Memory.wf [] = true := rfl

theorem wf_cellPut {a : Nat} {b : Byte} {m : List Host.Cell} (h : Memory.wf m = true) : Memory.wf (cellPut a b m) = true :=
  twf_tset h

theorem cellAt_cellPut_same {a : Nat} {b : Byte} {m : List Host.Cell} : cellAt (cellPut a b m) a = b := tget_tset_same

theorem cellAt_cellPut_ne {a c : Nat} {b : Byte} {m : List Host.Cell} (h : c ≠ a) :
    cellAt (cellPut a b m) c = cellAt m c := tget_tset_ne h

theorem wf_cellsPut {a : Nat} {bs : List Byte} {m : List Host.Cell} (h : Memory.wf m = true) :
    Memory.wf (cellsPut a bs m) = true := by
  induction bs generalizing a m with
  | nil => exact h
  | cons b t ih => exact ih (wf_cellPut h)

theorem wf_cellsPutAll {ws : List (Nat × Byte)} {m : List Host.Cell} (h : Memory.wf m = true) :
    Memory.wf (cellsPutAll ws m) = true := by
  induction ws generalizing m with
  | nil => exact h
  | cons p t ih => exact ih (wf_cellPut h)

/-- A byte outside the bytes written. -/
theorem cellAt_cellsPut_out {a c : Nat} {bs : List Byte} {m : List Host.Cell} (h : c < a ∨ a + bs.length ≤ c) :
    cellAt (cellsPut a bs m) c = cellAt m c := by
  induction bs generalizing a m with
  | nil => rfl
  | cons b t ih =>
    simp only [List.length_cons] at h
    rw [cellsPut, ih (by omega), cellAt_cellPut_ne (by omega)]

/-- A byte among the bytes written. -/
theorem cellAt_cellsPut_in {a i : Nat} {bs : List Byte} {m : List Host.Cell} (h : i < bs.length) :
    cellAt (cellsPut a bs m) (a + i) = lget 0 bs i := by
  induction bs generalizing a i m with
  | nil => simp at h
  | cons b t ih =>
    cases i with
    | zero => rw [cellsPut, cellAt_cellsPut_out (by omega), Nat.add_zero, cellAt_cellPut_same]; rfl
    | succ i =>
      simp only [List.length_cons] at h
      rw [cellsPut, show a + (i + 1) = a + 1 + i by omega, ih (by omega)]; rfl

/-- A byte at none of the places written. -/
theorem cellAt_cellsPutAll_out {c : Nat} {ws : List (Nat × Byte)} {m : List Host.Cell} (h : ∀ p ∈ ws, p.1 ≠ c) :
    cellAt (cellsPutAll ws m) c = cellAt m c := by
  induction ws generalizing m with
  | nil => rfl
  | cons p t ih =>
    rw [cellsPutAll, ih fun q hq => h q (List.mem_cons_of_mem _ hq), cellAt_cellPut_ne (Ne.symm (h p (List.mem_cons_self ..)))]

/-! ### Tiers -/

/-- Replacing a tier by a store in canonical form keeps the tiers in it. -/
theorem setTier_wf {s : State} {t : Nat} {m : List Host.Cell} (hm : Memory.wf m = true)
    (h : ∀ i, Memory.wf (tierMem s i) = true) (i : Nat) : Memory.wf (tierMem (setTier s t m) i) = true := by
  have := h i
  unfold setTier
  split <;> (unfold tierMem at this ⊢; split <;> simp_all)

/-- Writing another tier leaves a tier as it is. -/
theorem tierMem_setTier_ne {s : State} {t i : Nat} {m : List Host.Cell} (h : i ≠ t) :
    tierMem (setTier s t m) i = tierMem s i := by
  unfold setTier
  split <;> (unfold tierMem; split <;> first | rfl | (exact absurd rfl h))

/-- A tier that exists reads as it was replaced. -/
theorem tierMem_setTier_same {s : State} {t : Nat} {m : List Host.Cell} (h2 : 2 ≤ t) (h5 : t ≤ 5) :
    tierMem (setTier s t m) t = m := by
  have : t = 2 ∨ t = 3 ∨ t = 4 ∨ t = 5 := by omega
  rcases this with rfl | rfl | rfl | rfl <;> rfl

/-- The tiers of a state depend on its four memories alone. -/
theorem tierMem_eq {s u : State} (h2 : s.t2 = u.t2) (h3 : s.t3 = u.t3) (h4 : s.t4 = u.t4) (h5 : s.t5 = u.t5) (i : Nat) :
    tierMem s i = tierMem u i := by
  unfold tierMem; split <;> first | assumption | rfl

/-- Counting an atom's error leaves the tiers as they are. -/
@[simp] theorem tierMem_modStatus (s : State) (t u i : Nat) (f : Word → Word) : tierMem (modStatus s t u f) i = tierMem s i := by
  unfold modStatus modMreg
  by_cases h : t = 2
  · simp only [h, if_true]; exact tierMem_eq rfl rfl rfl rfl i
  · by_cases g : t = 3
    · simp only [g, if_true]; exact tierMem_eq rfl rfl rfl rfl i
    · simp only [h, g, if_false]

@[simp] theorem tierMem_countCe (s : State) (t u i : Nat) : tierMem (countCe s t u) i = tierMem s i := by
  rw [← tierMem_modStatus s t u i fun w => setBits w 23 8 (bits w 23 8 + 1)]
  unfold countCe
  generalize modStatus s t u (fun w => setBits w 23 8 (bits w 23 8 + 1)) = v
  dsimp only
  split <;> exact tierMem_eq rfl rfl rfl rfl i

/-- The controller's reading of some atoms leaves the tiers as they are (R340). -/
@[simp] theorem tierMem_readAtoms (t i : Nat) : ∀ (us : List Nat) (s : State), tierMem (readAtoms t us s) i = tierMem s i
  | [], _ => rfl
  | u :: r, s => by
    unfold readAtoms
    rw [tierMem_readAtoms t i r]
    repeat' split
    · exact tierMem_modStatus ..
    · rw [tierMem_countCe]; exact tierMem_eq rfl rfl rfl rfl i
    · rfl

/-- Replacing a tier depends on the tiers alone. -/
theorem tierMem_setTier_congr {s u : State} (h : ∀ i, tierMem s i = tierMem u i) (t i : Nat) (m : List Host.Cell) :
    tierMem (setTier s t m) i = tierMem (setTier u t m) i := by
  have h2 := h 2; have h3 := h 3; have h4 := h 4; have h5 := h 5
  unfold setTier
  split <;> (unfold tierMem at *; split <;> simp_all)

@[simp] theorem tierMem_rawWrite (s : State) (t a i : Nat) (bs : List Byte) :
    tierMem (rawWrite s t a bs) i = tierMem (setTier s t (cellsPut a bs (tierMem s t))) i := by
  unfold rawWrite
  dsimp only
  rw [← tierMem_setTier_congr (tierMem_readAtoms t · (mergedUnits a bs.length) s), tierMem_readAtoms]
  split <;> exact tierMem_eq rfl rfl rfl rfl i

theorem tierMem_touch (s : State) (t a n i : Nat) : tierMem (touch s t a n) i = tierMem s i := by
  unfold touch
  split
  · rfl
  · split
    · rfl
    · unfold tierMem; split <;> rfl

/-- A write at an ordering point keeps the canonical form. -/
theorem rawWrite_wf {s : State} {t a : Nat} {bs : List Byte} (h : ∀ i, Memory.wf (tierMem s i) = true) (i : Nat) :
    Memory.wf (tierMem (rawWrite s t a bs) i) = true := by
  rw [tierMem_rawWrite]; exact setTier_wf (wf_cellsPut (h t)) h i

theorem memStrong_wf {s : State} {t a : Nat} {bs : List Byte} (h : ∀ i, Memory.wf (tierMem s i) = true) (i : Nat) :
    Memory.wf (tierMem (memStrong s t a bs) i) = true := by
  unfold memStrong
  dsimp only
  have ht : ∀ i, Memory.wf (tierMem (touch s t a bs.length) i) = true := fun i => by rw [tierMem_touch]; exact h i
  split
  · exact rawWrite_wf ht i
  · exact ht i

/-- A write that enters a buffer has not reached its ordering point. -/
theorem tierMem_memEnqueue (s : State) (w : BufWr) (i : Nat) : tierMem (memEnqueue s w) i = tierMem s i := by
  unfold memEnqueue
  dsimp only
  split
  · rw [← tierMem_touch s w.tier w.addr w.bytes.length i]; unfold tierMem; split <;> rfl
  · exact tierMem_touch ..

/-- A write at an ordering point leaves every byte outside it as it was. -/
theorem cellAt_rawWrite_out {s : State} {t a i c : Nat} {bs : List Byte} (h : i ≠ t ∨ c < a ∨ a + bs.length ≤ c) :
    cellAt (tierMem (rawWrite s t a bs) i) c = cellAt (tierMem s i) c := by
  rw [tierMem_rawWrite]
  by_cases hi : i = t
  · subst hi
    have hc : c < a ∨ a + bs.length ≤ c := by simpa using h
    by_cases h2 : 2 ≤ i ∧ i ≤ 5
    · rw [tierMem_setTier_same h2.1 h2.2, cellAt_cellsPut_out hc]
    · have : tierMem (setTier s i (cellsPut a bs (tierMem s i))) i = tierMem s i := by
        unfold setTier
        split <;> first | omega | rfl
      rw [this]
  · rw [tierMem_setTier_ne hi]

/-! ### Scratchpads -/

/-- A write to a scratchpad keeps its canonical form. -/
theorem spadPut_wf {k : Core} {ws : List (Nat × Byte)} (h : Memory.wf k.spad = true) : Memory.wf (spadPut k ws).spad = true :=
  wf_cellsPutAll (m := k.spad) h

/-- A write to a scratchpad leaves every byte it does not name as it was. -/
theorem cellAt_spadPut_out {k : Core} {ws : List (Nat × Byte)} {c : Nat} (h : ∀ p ∈ ws, p.1 ≠ c) :
    cellAt (spadPut k ws).spad c = cellAt k.spad c := cellAt_cellsPutAll_out (m := k.spad) h

/-! ### Little-endian numbers -/

theorem natBytes_length (n v : Nat) : (natBytes n v).length = n := by
  induction n generalizing v with
  | zero => rfl
  | succ n ih => simp [natBytes, ih]

theorem leNat_natBytes (n v : Nat) : leNat (natBytes n v) = v % 256 ^ n := by
  induction n generalizing v with
  | zero => simp [natBytes, leNat, Nat.mod_one]
  | succ n ih =>
    simp only [natBytes, leNat, ih, BitVec.toNat_ofNat]
    rw [show (2 : Nat) ^ 8 = 256 from rfl, Nat.pow_succ, Nat.mul_comm (256 ^ n) 256, Nat.mod_mul]

end Sys2Proof.Laws
end

