-- ==== Sys2Proof/Laws/State.lean ====
section
/-!
SUPPORT. The named updates of the state, field by field: what each leaves as it was, true by computation, so that no proof unfolds a
record update; and what a read gives after an update.
-/
namespace Sys2Proof.Laws

open Sys2Proof Sys2Proof.Machine


/-! ### A core replaced or changed -/

@[simp] theorem setCore_cyc (s : State) (c : Nat) (k : Core) : (setCore s c k).cyc = s.cyc := rfl
@[simp] theorem setCore_gts (s : State) (c : Nat) (k : Core) : (setCore s c k).gts = s.gts := rfl
@[simp] theorem setCore_dies (s : State) (c : Nat) (k : Core) : (setCore s c k).dies = s.dies := rfl
@[simp] theorem setCore_t2 (s : State) (c : Nat) (k : Core) : (setCore s c k).t2 = s.t2 := rfl
@[simp] theorem setCore_t3 (s : State) (c : Nat) (k : Core) : (setCore s c k).t3 = s.t3 := rfl
@[simp] theorem setCore_t4 (s : State) (c : Nat) (k : Core) : (setCore s c k).t4 = s.t4 := rfl
@[simp] theorem setCore_t5 (s : State) (c : Nat) (k : Core) : (setCore s c k).t5 = s.t5 := rfl
@[simp] theorem setCore_poison (s : State) (c : Nat) (k : Core) : (setCore s c k).poison = s.poison := rfl
@[simp] theorem setCore_soft (s : State) (c : Nat) (k : Core) : (setCore s c k).soft = s.soft := rfl
@[simp] theorem setCore_cerr (s : State) (c : Nat) (k : Core) : (setCore s c k).cerr = s.cerr := rfl
@[simp] theorem setCore_dirty (s : State) (c : Nat) (k : Core) : (setCore s c k).dirty = s.dirty := rfl
@[simp] theorem setCore_wbuf (s : State) (c : Nat) (k : Core) : (setCore s c k).wbuf = s.wbuf := rfl
@[simp] theorem setCore_mgmt (s : State) (c : Nat) (k : Core) : (setCore s c k).mgmt = s.mgmt := rfl
@[simp] theorem setCore_pins (s : State) (c : Nat) (k : Core) : (setCore s c k).pins = s.pins := rfl
@[simp] theorem setCore_hold (s : State) (c : Nat) (k : Core) : (setCore s c k).hold = s.hold := rfl
@[simp] theorem setCore_net (s : State) (c : Nat) (k : Core) : (setCore s c k).net = s.net := rfl
@[simp] theorem setCore_out (s : State) (c : Nat) (k : Core) : (setCore s c k).out = s.out := rfl
@[simp] theorem setCore_vcs (s : State) (c : Nat) (k : Core) : (setCore s c k).vcs = s.vcs := rfl
@[simp] theorem setCore_late (s : State) (c : Nat) (k : Core) : (setCore s c k).late = s.late := rfl
@[simp] theorem setCore_queues (s : State) (c : Nat) (k : Core) : (setCore s c k).queues = s.queues := rfl
@[simp] theorem setCore_lastQ (s : State) (c : Nat) (k : Core) : (setCore s c k).lastQ = s.lastQ := rfl
@[simp] theorem setCore_reserved (s : State) (c : Nat) (k : Core) : (setCore s c k).reserved = s.reserved := rfl
@[simp] theorem setCore_streams (s : State) (c : Nat) (k : Core) : (setCore s c k).streams = s.streams := rfl
@[simp] theorem setCore_engSent (s : State) (c : Nat) (k : Core) : (setCore s c k).engSent = s.engSent := rfl
@[simp] theorem setCore_engId (s : State) (c : Nat) (k : Core) : (setCore s c k).engId = s.engId := rfl
@[simp] theorem setCore_engUse (s : State) (c : Nat) (k : Core) : (setCore s c k).engUse = s.engUse := rfl
@[simp] theorem setCore_repl (s : State) (c : Nat) (k : Core) : (setCore s c k).repl = s.repl := rfl
@[simp] theorem setCore_gq (s : State) (c : Nat) (k : Core) : (setCore s c k).gq = s.gq := rfl
@[simp] theorem setCore_gqIn (s : State) (c : Nat) (k : Core) : (setCore s c k).gqIn = s.gqIn := rfl
@[simp] theorem setCore_netRecs (s : State) (c : Nat) (k : Core) : (setCore s c k).netRecs = s.netRecs := rfl
@[simp] theorem setCore_pdcs (s : State) (c : Nat) (k : Core) : (setCore s c k).pdcs = s.pdcs := rfl
@[simp] theorem setCore_bound (s : State) (c : Nat) (k : Core) : (setCore s c k).bound = s.bound := rfl
@[simp] theorem setCore_rma (s : State) (c : Nat) (k : Core) : (setCore s c k).rma = s.rma := rfl
@[simp] theorem setCore_pkts (s : State) (c : Nat) (k : Core) : (setCore s c k).pkts = s.pkts := rfl
@[simp] theorem setCore_uacks (s : State) (c : Nat) (k : Core) : (setCore s c k).uacks = s.uacks := rfl
@[simp] theorem setCore_nextPdc (s : State) (c : Nat) (k : Core) : (setCore s c k).nextPdc = s.nextPdc := rfl
@[simp] theorem setCore_nextMsg (s : State) (c : Nat) (k : Core) : (setCore s c k).nextMsg = s.nextMsg := rfl
@[simp] theorem setCore_colls (s : State) (c : Nat) (k : Core) : (setCore s c k).colls = s.colls := rfl
@[simp] theorem setCore_xr (s : State) (c : Nat) (k : Core) : (setCore s c k).xr = s.xr := rfl
@[simp] theorem setCore_freeing (s : State) (c : Nat) (k : Core) : (setCore s c k).freeing = s.freeing := rfl
@[simp] theorem setCore_flash (s : State) (c : Nat) (k : Core) : (setCore s c k).flash = s.flash := rfl
@[simp] theorem setCore_svnc (s : State) (c : Nat) (k : Core) : (setCore s c k).svnc = s.svnc := rfl
@[simp] theorem setCore_owndig (s : State) (c : Nat) (k : Core) : (setCore s c k).owndig = s.owndig := rfl
@[simp] theorem setCore_epoch (s : State) (c : Nat) (k : Core) : (setCore s c k).epoch = s.epoch := rfl
@[simp] theorem setCore_tlatch (s : State) (c : Nat) (k : Core) : (setCore s c k).tlatch = s.tlatch := rfl
@[simp] theorem setCore_sealKey (s : State) (c : Nat) (k : Core) : (setCore s c k).sealKey = s.sealKey := rfl
@[simp] theorem setCore_attSeed (s : State) (c : Nat) (k : Core) : (setCore s c k).attSeed = s.attSeed := rfl
@[simp] theorem setCore_rpaKey (s : State) (c : Nat) (k : Core) : (setCore s c k).rpaKey = s.rpaKey := rfl
@[simp] theorem setCore_keysUp (s : State) (c : Nat) (k : Core) : (setCore s c k).keysUp = s.keysUp := rfl
@[simp] theorem setCore_tripped (s : State) (c : Nat) (k : Core) : (setCore s c k).tripped = s.tripped := rfl
@[simp] theorem setCore_alDef (s : State) (c : Nat) (k : Core) : (setCore s c k).alDef = s.alDef := rfl
@[simp] theorem setCore_alNew (s : State) (c : Nat) (k : Core) : (setCore s c k).alNew = s.alNew := rfl
@[simp] theorem setCore_dieEn (s : State) (c : Nat) (k : Core) : (setCore s c k).dieEn = s.dieEn := rfl
@[simp] theorem setCore_hbmEn (s : State) (c : Nat) (k : Core) : (setCore s c k).hbmEn = s.hbmEn := rfl
@[simp] theorem setCore_pendExt (s : State) (c : Nat) (k : Core) : (setCore s c k).pendExt = s.pendExt := rfl
@[simp] theorem setCore_boot (s : State) (c : Nat) (k : Core) : (setCore s c k).boot = s.boot := rfl
@[simp] theorem setCore_dbg (s : State) (c : Nat) (k : Core) : (setCore s c k).dbg = s.dbg := rfl
@[simp] theorem setCore_sealOut (s : State) (c : Nat) (k : Core) : (setCore s c k).sealOut = s.sealOut := rfl
@[simp] theorem setCore_rpaWrite (s : State) (c : Nat) (k : Core) : (setCore s c k).rpaWrite = s.rpaWrite := rfl
@[simp] theorem setCore_powerBusy (s : State) (c : Nat) (k : Core) : (setCore s c k).powerBusy = s.powerBusy := rfl
@[simp] theorem setCore_hbmPower (s : State) (c : Nat) (k : Core) : (setCore s c k).hbmPower = s.hbmPower := rfl
@[simp] theorem setCore_ckpt (s : State) (c : Nat) (k : Core) : (setCore s c k).ckpt = s.ckpt := rfl
@[simp] theorem setCore_ckOff (s : State) (c : Nat) (k : Core) : (setCore s c k).ckOff = s.ckOff := rfl
@[simp] theorem setCore_ckptWait (s : State) (c : Nat) (k : Core) : (setCore s c k).ckptWait = s.ckptWait := rfl
@[simp] theorem setCore_ckptImage (s : State) (c : Nat) (k : Core) : (setCore s c k).ckptImage = s.ckptImage := rfl
@[simp] theorem setCore_quoteMsg (s : State) (c : Nat) (k : Core) : (setCore s c k).quoteMsg = s.quoteMsg := rfl
@[simp] theorem setCore_widthBusy (s : State) (c : Nat) (k : Core) : (setCore s c k).widthBusy = s.widthBusy := rfl
@[simp] theorem setCore_hotAt (s : State) (c : Nat) (k : Core) : (setCore s c k).hotAt = s.hotAt := rfl
@[simp] theorem setCore_cxlDown (s : State) (c : Nat) (k : Core) : (setCore s c k).cxlDown = s.cxlDown := rfl
@[simp] theorem setCore_cxlLost (s : State) (c : Nat) (k : Core) : (setCore s c k).cxlLost = s.cxlLost := rfl
@[simp] theorem setCore_engBad (s : State) (c : Nat) (k : Core) : (setCore s c k).engBad = s.engBad := rfl
@[simp] theorem setCore_mlog (s : State) (c : Nat) (k : Core) : (setCore s c k).mlog = s.mlog := rfl
@[simp] theorem setCore_hartReads (s : State) (c : Nat) (k : Core) : (setCore s c k).hartReads = s.hartReads := rfl
@[simp] theorem setCore_replays (s : State) (c : Nat) (k : Core) : (setCore s c k).replays = s.replays := rfl
@[simp] theorem setCore_timers (s : State) (c : Nat) (k : Core) : (setCore s c k).timers = s.timers := rfl
@[simp] theorem setCore_turn (s : State) (c : Nat) (k : Core) : (setCore s c k).turn = s.turn := rfl
@[simp] theorem setCore_agenda (s : State) (c : Nat) (k : Core) : (setCore s c k).agenda = s.agenda := rfl
@[simp] theorem setCore_cur (s : State) (c : Nat) (k : Core) : (setCore s c k).cur = s.cur := rfl
@[simp] theorem setCore_fresh (s : State) (c : Nat) (k : Core) : (setCore s c k).fresh = s.fresh := rfl
@[simp] theorem setCore_bad (s : State) (c : Nat) (k : Core) : (setCore s c k).bad = s.bad := rfl
@[simp] theorem modCore_cyc (s : State) (c : Nat) (f : Core → Core) : (modCore s c f).cyc = s.cyc := rfl
@[simp] theorem modCore_gts (s : State) (c : Nat) (f : Core → Core) : (modCore s c f).gts = s.gts := rfl
@[simp] theorem modCore_dies (s : State) (c : Nat) (f : Core → Core) : (modCore s c f).dies = s.dies := rfl
@[simp] theorem modCore_t2 (s : State) (c : Nat) (f : Core → Core) : (modCore s c f).t2 = s.t2 := rfl
@[simp] theorem modCore_t3 (s : State) (c : Nat) (f : Core → Core) : (modCore s c f).t3 = s.t3 := rfl
@[simp] theorem modCore_t4 (s : State) (c : Nat) (f : Core → Core) : (modCore s c f).t4 = s.t4 := rfl
@[simp] theorem modCore_t5 (s : State) (c : Nat) (f : Core → Core) : (modCore s c f).t5 = s.t5 := rfl
@[simp] theorem modCore_poison (s : State) (c : Nat) (f : Core → Core) : (modCore s c f).poison = s.poison := rfl
@[simp] theorem modCore_soft (s : State) (c : Nat) (f : Core → Core) : (modCore s c f).soft = s.soft := rfl
@[simp] theorem modCore_cerr (s : State) (c : Nat) (f : Core → Core) : (modCore s c f).cerr = s.cerr := rfl
@[simp] theorem modCore_dirty (s : State) (c : Nat) (f : Core → Core) : (modCore s c f).dirty = s.dirty := rfl
@[simp] theorem modCore_wbuf (s : State) (c : Nat) (f : Core → Core) : (modCore s c f).wbuf = s.wbuf := rfl
@[simp] theorem modCore_mgmt (s : State) (c : Nat) (f : Core → Core) : (modCore s c f).mgmt = s.mgmt := rfl
@[simp] theorem modCore_pins (s : State) (c : Nat) (f : Core → Core) : (modCore s c f).pins = s.pins := rfl
@[simp] theorem modCore_hold (s : State) (c : Nat) (f : Core → Core) : (modCore s c f).hold = s.hold := rfl
@[simp] theorem modCore_net (s : State) (c : Nat) (f : Core → Core) : (modCore s c f).net = s.net := rfl
@[simp] theorem modCore_out (s : State) (c : Nat) (f : Core → Core) : (modCore s c f).out = s.out := rfl
@[simp] theorem modCore_vcs (s : State) (c : Nat) (f : Core → Core) : (modCore s c f).vcs = s.vcs := rfl
@[simp] theorem modCore_late (s : State) (c : Nat) (f : Core → Core) : (modCore s c f).late = s.late := rfl
@[simp] theorem modCore_queues (s : State) (c : Nat) (f : Core → Core) : (modCore s c f).queues = s.queues := rfl
@[simp] theorem modCore_lastQ (s : State) (c : Nat) (f : Core → Core) : (modCore s c f).lastQ = s.lastQ := rfl
@[simp] theorem modCore_reserved (s : State) (c : Nat) (f : Core → Core) : (modCore s c f).reserved = s.reserved := rfl
@[simp] theorem modCore_streams (s : State) (c : Nat) (f : Core → Core) : (modCore s c f).streams = s.streams := rfl
@[simp] theorem modCore_engSent (s : State) (c : Nat) (f : Core → Core) : (modCore s c f).engSent = s.engSent := rfl
@[simp] theorem modCore_engId (s : State) (c : Nat) (f : Core → Core) : (modCore s c f).engId = s.engId := rfl
@[simp] theorem modCore_engUse (s : State) (c : Nat) (f : Core → Core) : (modCore s c f).engUse = s.engUse := rfl
@[simp] theorem modCore_repl (s : State) (c : Nat) (f : Core → Core) : (modCore s c f).repl = s.repl := rfl
@[simp] theorem modCore_gq (s : State) (c : Nat) (f : Core → Core) : (modCore s c f).gq = s.gq := rfl
@[simp] theorem modCore_gqIn (s : State) (c : Nat) (f : Core → Core) : (modCore s c f).gqIn = s.gqIn := rfl
@[simp] theorem modCore_netRecs (s : State) (c : Nat) (f : Core → Core) : (modCore s c f).netRecs = s.netRecs := rfl
@[simp] theorem modCore_pdcs (s : State) (c : Nat) (f : Core → Core) : (modCore s c f).pdcs = s.pdcs := rfl
@[simp] theorem modCore_bound (s : State) (c : Nat) (f : Core → Core) : (modCore s c f).bound = s.bound := rfl
@[simp] theorem modCore_rma (s : State) (c : Nat) (f : Core → Core) : (modCore s c f).rma = s.rma := rfl
@[simp] theorem modCore_pkts (s : State) (c : Nat) (f : Core → Core) : (modCore s c f).pkts = s.pkts := rfl
@[simp] theorem modCore_uacks (s : State) (c : Nat) (f : Core → Core) : (modCore s c f).uacks = s.uacks := rfl
@[simp] theorem modCore_nextPdc (s : State) (c : Nat) (f : Core → Core) : (modCore s c f).nextPdc = s.nextPdc := rfl
@[simp] theorem modCore_nextMsg (s : State) (c : Nat) (f : Core → Core) : (modCore s c f).nextMsg = s.nextMsg := rfl
@[simp] theorem modCore_colls (s : State) (c : Nat) (f : Core → Core) : (modCore s c f).colls = s.colls := rfl
@[simp] theorem modCore_xr (s : State) (c : Nat) (f : Core → Core) : (modCore s c f).xr = s.xr := rfl
@[simp] theorem modCore_freeing (s : State) (c : Nat) (f : Core → Core) : (modCore s c f).freeing = s.freeing := rfl
@[simp] theorem modCore_flash (s : State) (c : Nat) (f : Core → Core) : (modCore s c f).flash = s.flash := rfl
@[simp] theorem modCore_svnc (s : State) (c : Nat) (f : Core → Core) : (modCore s c f).svnc = s.svnc := rfl
@[simp] theorem modCore_owndig (s : State) (c : Nat) (f : Core → Core) : (modCore s c f).owndig = s.owndig := rfl
@[simp] theorem modCore_epoch (s : State) (c : Nat) (f : Core → Core) : (modCore s c f).epoch = s.epoch := rfl
@[simp] theorem modCore_tlatch (s : State) (c : Nat) (f : Core → Core) : (modCore s c f).tlatch = s.tlatch := rfl
@[simp] theorem modCore_sealKey (s : State) (c : Nat) (f : Core → Core) : (modCore s c f).sealKey = s.sealKey := rfl
@[simp] theorem modCore_attSeed (s : State) (c : Nat) (f : Core → Core) : (modCore s c f).attSeed = s.attSeed := rfl
@[simp] theorem modCore_rpaKey (s : State) (c : Nat) (f : Core → Core) : (modCore s c f).rpaKey = s.rpaKey := rfl
@[simp] theorem modCore_keysUp (s : State) (c : Nat) (f : Core → Core) : (modCore s c f).keysUp = s.keysUp := rfl
@[simp] theorem modCore_tripped (s : State) (c : Nat) (f : Core → Core) : (modCore s c f).tripped = s.tripped := rfl
@[simp] theorem modCore_alDef (s : State) (c : Nat) (f : Core → Core) : (modCore s c f).alDef = s.alDef := rfl
@[simp] theorem modCore_alNew (s : State) (c : Nat) (f : Core → Core) : (modCore s c f).alNew = s.alNew := rfl
@[simp] theorem modCore_dieEn (s : State) (c : Nat) (f : Core → Core) : (modCore s c f).dieEn = s.dieEn := rfl
@[simp] theorem modCore_hbmEn (s : State) (c : Nat) (f : Core → Core) : (modCore s c f).hbmEn = s.hbmEn := rfl
@[simp] theorem modCore_pendExt (s : State) (c : Nat) (f : Core → Core) : (modCore s c f).pendExt = s.pendExt := rfl
@[simp] theorem modCore_boot (s : State) (c : Nat) (f : Core → Core) : (modCore s c f).boot = s.boot := rfl
@[simp] theorem modCore_dbg (s : State) (c : Nat) (f : Core → Core) : (modCore s c f).dbg = s.dbg := rfl
@[simp] theorem modCore_sealOut (s : State) (c : Nat) (f : Core → Core) : (modCore s c f).sealOut = s.sealOut := rfl
@[simp] theorem modCore_rpaWrite (s : State) (c : Nat) (f : Core → Core) : (modCore s c f).rpaWrite = s.rpaWrite := rfl
@[simp] theorem modCore_powerBusy (s : State) (c : Nat) (f : Core → Core) : (modCore s c f).powerBusy = s.powerBusy := rfl
@[simp] theorem modCore_hbmPower (s : State) (c : Nat) (f : Core → Core) : (modCore s c f).hbmPower = s.hbmPower := rfl
@[simp] theorem modCore_ckpt (s : State) (c : Nat) (f : Core → Core) : (modCore s c f).ckpt = s.ckpt := rfl
@[simp] theorem modCore_ckOff (s : State) (c : Nat) (f : Core → Core) : (modCore s c f).ckOff = s.ckOff := rfl
@[simp] theorem modCore_ckptWait (s : State) (c : Nat) (f : Core → Core) : (modCore s c f).ckptWait = s.ckptWait := rfl
@[simp] theorem modCore_ckptImage (s : State) (c : Nat) (f : Core → Core) : (modCore s c f).ckptImage = s.ckptImage := rfl
@[simp] theorem modCore_quoteMsg (s : State) (c : Nat) (f : Core → Core) : (modCore s c f).quoteMsg = s.quoteMsg := rfl
@[simp] theorem modCore_widthBusy (s : State) (c : Nat) (f : Core → Core) : (modCore s c f).widthBusy = s.widthBusy := rfl
@[simp] theorem modCore_hotAt (s : State) (c : Nat) (f : Core → Core) : (modCore s c f).hotAt = s.hotAt := rfl
@[simp] theorem modCore_cxlDown (s : State) (c : Nat) (f : Core → Core) : (modCore s c f).cxlDown = s.cxlDown := rfl
@[simp] theorem modCore_cxlLost (s : State) (c : Nat) (f : Core → Core) : (modCore s c f).cxlLost = s.cxlLost := rfl
@[simp] theorem modCore_engBad (s : State) (c : Nat) (f : Core → Core) : (modCore s c f).engBad = s.engBad := rfl
@[simp] theorem modCore_mlog (s : State) (c : Nat) (f : Core → Core) : (modCore s c f).mlog = s.mlog := rfl
@[simp] theorem modCore_hartReads (s : State) (c : Nat) (f : Core → Core) : (modCore s c f).hartReads = s.hartReads := rfl
@[simp] theorem modCore_replays (s : State) (c : Nat) (f : Core → Core) : (modCore s c f).replays = s.replays := rfl
@[simp] theorem modCore_timers (s : State) (c : Nat) (f : Core → Core) : (modCore s c f).timers = s.timers := rfl
@[simp] theorem modCore_turn (s : State) (c : Nat) (f : Core → Core) : (modCore s c f).turn = s.turn := rfl
@[simp] theorem modCore_agenda (s : State) (c : Nat) (f : Core → Core) : (modCore s c f).agenda = s.agenda := rfl
@[simp] theorem modCore_cur (s : State) (c : Nat) (f : Core → Core) : (modCore s c f).cur = s.cur := rfl
@[simp] theorem modCore_fresh (s : State) (c : Nat) (f : Core → Core) : (modCore s c f).fresh = s.fresh := rfl
@[simp] theorem modCore_bad (s : State) (c : Nat) (f : Core → Core) : (modCore s c f).bad = s.bad := rfl
@[simp] theorem modSeat_cyc (s : State) (c n : Nat) (f : Seat → Seat) : (modSeat s c n f).cyc = s.cyc := rfl
@[simp] theorem modSeat_gts (s : State) (c n : Nat) (f : Seat → Seat) : (modSeat s c n f).gts = s.gts := rfl
@[simp] theorem modSeat_dies (s : State) (c n : Nat) (f : Seat → Seat) : (modSeat s c n f).dies = s.dies := rfl
@[simp] theorem modSeat_t2 (s : State) (c n : Nat) (f : Seat → Seat) : (modSeat s c n f).t2 = s.t2 := rfl
@[simp] theorem modSeat_t3 (s : State) (c n : Nat) (f : Seat → Seat) : (modSeat s c n f).t3 = s.t3 := rfl
@[simp] theorem modSeat_t4 (s : State) (c n : Nat) (f : Seat → Seat) : (modSeat s c n f).t4 = s.t4 := rfl
@[simp] theorem modSeat_t5 (s : State) (c n : Nat) (f : Seat → Seat) : (modSeat s c n f).t5 = s.t5 := rfl
@[simp] theorem modSeat_poison (s : State) (c n : Nat) (f : Seat → Seat) : (modSeat s c n f).poison = s.poison := rfl
@[simp] theorem modSeat_soft (s : State) (c n : Nat) (f : Seat → Seat) : (modSeat s c n f).soft = s.soft := rfl
@[simp] theorem modSeat_cerr (s : State) (c n : Nat) (f : Seat → Seat) : (modSeat s c n f).cerr = s.cerr := rfl
@[simp] theorem modSeat_dirty (s : State) (c n : Nat) (f : Seat → Seat) : (modSeat s c n f).dirty = s.dirty := rfl
@[simp] theorem modSeat_wbuf (s : State) (c n : Nat) (f : Seat → Seat) : (modSeat s c n f).wbuf = s.wbuf := rfl
@[simp] theorem modSeat_mgmt (s : State) (c n : Nat) (f : Seat → Seat) : (modSeat s c n f).mgmt = s.mgmt := rfl
@[simp] theorem modSeat_pins (s : State) (c n : Nat) (f : Seat → Seat) : (modSeat s c n f).pins = s.pins := rfl
@[simp] theorem modSeat_hold (s : State) (c n : Nat) (f : Seat → Seat) : (modSeat s c n f).hold = s.hold := rfl
@[simp] theorem modSeat_net (s : State) (c n : Nat) (f : Seat → Seat) : (modSeat s c n f).net = s.net := rfl
@[simp] theorem modSeat_out (s : State) (c n : Nat) (f : Seat → Seat) : (modSeat s c n f).out = s.out := rfl
@[simp] theorem modSeat_vcs (s : State) (c n : Nat) (f : Seat → Seat) : (modSeat s c n f).vcs = s.vcs := rfl
@[simp] theorem modSeat_late (s : State) (c n : Nat) (f : Seat → Seat) : (modSeat s c n f).late = s.late := rfl
@[simp] theorem modSeat_queues (s : State) (c n : Nat) (f : Seat → Seat) : (modSeat s c n f).queues = s.queues := rfl
@[simp] theorem modSeat_lastQ (s : State) (c n : Nat) (f : Seat → Seat) : (modSeat s c n f).lastQ = s.lastQ := rfl
@[simp] theorem modSeat_reserved (s : State) (c n : Nat) (f : Seat → Seat) : (modSeat s c n f).reserved = s.reserved := rfl
@[simp] theorem modSeat_streams (s : State) (c n : Nat) (f : Seat → Seat) : (modSeat s c n f).streams = s.streams := rfl
@[simp] theorem modSeat_engSent (s : State) (c n : Nat) (f : Seat → Seat) : (modSeat s c n f).engSent = s.engSent := rfl
@[simp] theorem modSeat_engId (s : State) (c n : Nat) (f : Seat → Seat) : (modSeat s c n f).engId = s.engId := rfl
@[simp] theorem modSeat_engUse (s : State) (c n : Nat) (f : Seat → Seat) : (modSeat s c n f).engUse = s.engUse := rfl
@[simp] theorem modSeat_repl (s : State) (c n : Nat) (f : Seat → Seat) : (modSeat s c n f).repl = s.repl := rfl
@[simp] theorem modSeat_gq (s : State) (c n : Nat) (f : Seat → Seat) : (modSeat s c n f).gq = s.gq := rfl
@[simp] theorem modSeat_gqIn (s : State) (c n : Nat) (f : Seat → Seat) : (modSeat s c n f).gqIn = s.gqIn := rfl
@[simp] theorem modSeat_netRecs (s : State) (c n : Nat) (f : Seat → Seat) : (modSeat s c n f).netRecs = s.netRecs := rfl
@[simp] theorem modSeat_pdcs (s : State) (c n : Nat) (f : Seat → Seat) : (modSeat s c n f).pdcs = s.pdcs := rfl
@[simp] theorem modSeat_bound (s : State) (c n : Nat) (f : Seat → Seat) : (modSeat s c n f).bound = s.bound := rfl
@[simp] theorem modSeat_rma (s : State) (c n : Nat) (f : Seat → Seat) : (modSeat s c n f).rma = s.rma := rfl
@[simp] theorem modSeat_pkts (s : State) (c n : Nat) (f : Seat → Seat) : (modSeat s c n f).pkts = s.pkts := rfl
@[simp] theorem modSeat_uacks (s : State) (c n : Nat) (f : Seat → Seat) : (modSeat s c n f).uacks = s.uacks := rfl
@[simp] theorem modSeat_nextPdc (s : State) (c n : Nat) (f : Seat → Seat) : (modSeat s c n f).nextPdc = s.nextPdc := rfl
@[simp] theorem modSeat_nextMsg (s : State) (c n : Nat) (f : Seat → Seat) : (modSeat s c n f).nextMsg = s.nextMsg := rfl
@[simp] theorem modSeat_colls (s : State) (c n : Nat) (f : Seat → Seat) : (modSeat s c n f).colls = s.colls := rfl
@[simp] theorem modSeat_xr (s : State) (c n : Nat) (f : Seat → Seat) : (modSeat s c n f).xr = s.xr := rfl
@[simp] theorem modSeat_freeing (s : State) (c n : Nat) (f : Seat → Seat) : (modSeat s c n f).freeing = s.freeing := rfl
@[simp] theorem modSeat_flash (s : State) (c n : Nat) (f : Seat → Seat) : (modSeat s c n f).flash = s.flash := rfl
@[simp] theorem modSeat_svnc (s : State) (c n : Nat) (f : Seat → Seat) : (modSeat s c n f).svnc = s.svnc := rfl
@[simp] theorem modSeat_owndig (s : State) (c n : Nat) (f : Seat → Seat) : (modSeat s c n f).owndig = s.owndig := rfl
@[simp] theorem modSeat_epoch (s : State) (c n : Nat) (f : Seat → Seat) : (modSeat s c n f).epoch = s.epoch := rfl
@[simp] theorem modSeat_tlatch (s : State) (c n : Nat) (f : Seat → Seat) : (modSeat s c n f).tlatch = s.tlatch := rfl
@[simp] theorem modSeat_sealKey (s : State) (c n : Nat) (f : Seat → Seat) : (modSeat s c n f).sealKey = s.sealKey := rfl
@[simp] theorem modSeat_attSeed (s : State) (c n : Nat) (f : Seat → Seat) : (modSeat s c n f).attSeed = s.attSeed := rfl
@[simp] theorem modSeat_rpaKey (s : State) (c n : Nat) (f : Seat → Seat) : (modSeat s c n f).rpaKey = s.rpaKey := rfl
@[simp] theorem modSeat_keysUp (s : State) (c n : Nat) (f : Seat → Seat) : (modSeat s c n f).keysUp = s.keysUp := rfl
@[simp] theorem modSeat_tripped (s : State) (c n : Nat) (f : Seat → Seat) : (modSeat s c n f).tripped = s.tripped := rfl
@[simp] theorem modSeat_alDef (s : State) (c n : Nat) (f : Seat → Seat) : (modSeat s c n f).alDef = s.alDef := rfl
@[simp] theorem modSeat_alNew (s : State) (c n : Nat) (f : Seat → Seat) : (modSeat s c n f).alNew = s.alNew := rfl
@[simp] theorem modSeat_dieEn (s : State) (c n : Nat) (f : Seat → Seat) : (modSeat s c n f).dieEn = s.dieEn := rfl
@[simp] theorem modSeat_hbmEn (s : State) (c n : Nat) (f : Seat → Seat) : (modSeat s c n f).hbmEn = s.hbmEn := rfl
@[simp] theorem modSeat_pendExt (s : State) (c n : Nat) (f : Seat → Seat) : (modSeat s c n f).pendExt = s.pendExt := rfl
@[simp] theorem modSeat_boot (s : State) (c n : Nat) (f : Seat → Seat) : (modSeat s c n f).boot = s.boot := rfl
@[simp] theorem modSeat_dbg (s : State) (c n : Nat) (f : Seat → Seat) : (modSeat s c n f).dbg = s.dbg := rfl
@[simp] theorem modSeat_sealOut (s : State) (c n : Nat) (f : Seat → Seat) : (modSeat s c n f).sealOut = s.sealOut := rfl
@[simp] theorem modSeat_rpaWrite (s : State) (c n : Nat) (f : Seat → Seat) : (modSeat s c n f).rpaWrite = s.rpaWrite := rfl
@[simp] theorem modSeat_powerBusy (s : State) (c n : Nat) (f : Seat → Seat) : (modSeat s c n f).powerBusy = s.powerBusy := rfl
@[simp] theorem modSeat_hbmPower (s : State) (c n : Nat) (f : Seat → Seat) : (modSeat s c n f).hbmPower = s.hbmPower := rfl
@[simp] theorem modSeat_ckpt (s : State) (c n : Nat) (f : Seat → Seat) : (modSeat s c n f).ckpt = s.ckpt := rfl
@[simp] theorem modSeat_ckOff (s : State) (c n : Nat) (f : Seat → Seat) : (modSeat s c n f).ckOff = s.ckOff := rfl
@[simp] theorem modSeat_ckptWait (s : State) (c n : Nat) (f : Seat → Seat) : (modSeat s c n f).ckptWait = s.ckptWait := rfl
@[simp] theorem modSeat_ckptImage (s : State) (c n : Nat) (f : Seat → Seat) : (modSeat s c n f).ckptImage = s.ckptImage := rfl
@[simp] theorem modSeat_quoteMsg (s : State) (c n : Nat) (f : Seat → Seat) : (modSeat s c n f).quoteMsg = s.quoteMsg := rfl
@[simp] theorem modSeat_widthBusy (s : State) (c n : Nat) (f : Seat → Seat) : (modSeat s c n f).widthBusy = s.widthBusy := rfl
@[simp] theorem modSeat_hotAt (s : State) (c n : Nat) (f : Seat → Seat) : (modSeat s c n f).hotAt = s.hotAt := rfl
@[simp] theorem modSeat_cxlDown (s : State) (c n : Nat) (f : Seat → Seat) : (modSeat s c n f).cxlDown = s.cxlDown := rfl
@[simp] theorem modSeat_cxlLost (s : State) (c n : Nat) (f : Seat → Seat) : (modSeat s c n f).cxlLost = s.cxlLost := rfl
@[simp] theorem modSeat_engBad (s : State) (c n : Nat) (f : Seat → Seat) : (modSeat s c n f).engBad = s.engBad := rfl
@[simp] theorem modSeat_mlog (s : State) (c n : Nat) (f : Seat → Seat) : (modSeat s c n f).mlog = s.mlog := rfl
@[simp] theorem modSeat_hartReads (s : State) (c n : Nat) (f : Seat → Seat) : (modSeat s c n f).hartReads = s.hartReads := rfl
@[simp] theorem modSeat_replays (s : State) (c n : Nat) (f : Seat → Seat) : (modSeat s c n f).replays = s.replays := rfl
@[simp] theorem modSeat_timers (s : State) (c n : Nat) (f : Seat → Seat) : (modSeat s c n f).timers = s.timers := rfl
@[simp] theorem modSeat_turn (s : State) (c n : Nat) (f : Seat → Seat) : (modSeat s c n f).turn = s.turn := rfl
@[simp] theorem modSeat_agenda (s : State) (c n : Nat) (f : Seat → Seat) : (modSeat s c n f).agenda = s.agenda := rfl
@[simp] theorem modSeat_cur (s : State) (c n : Nat) (f : Seat → Seat) : (modSeat s c n f).cur = s.cur := rfl
@[simp] theorem modSeat_fresh (s : State) (c n : Nat) (f : Seat → Seat) : (modSeat s c n f).fresh = s.fresh := rfl
@[simp] theorem modSeat_bad (s : State) (c n : Nat) (f : Seat → Seat) : (modSeat s c n f).bad = s.bad := rfl

/-! ### A die, a queue, a management register changed -/

@[simp] theorem modDie_cyc (s : State) (d : Nat) (f : Die → Die) : (modDie s d f).cyc = s.cyc := rfl
@[simp] theorem modDie_gts (s : State) (d : Nat) (f : Die → Die) : (modDie s d f).gts = s.gts := rfl
@[simp] theorem modDie_cores (s : State) (d : Nat) (f : Die → Die) : (modDie s d f).cores = s.cores := rfl
@[simp] theorem modDie_t2 (s : State) (d : Nat) (f : Die → Die) : (modDie s d f).t2 = s.t2 := rfl
@[simp] theorem modDie_t3 (s : State) (d : Nat) (f : Die → Die) : (modDie s d f).t3 = s.t3 := rfl
@[simp] theorem modDie_t4 (s : State) (d : Nat) (f : Die → Die) : (modDie s d f).t4 = s.t4 := rfl
@[simp] theorem modDie_t5 (s : State) (d : Nat) (f : Die → Die) : (modDie s d f).t5 = s.t5 := rfl
@[simp] theorem modDie_poison (s : State) (d : Nat) (f : Die → Die) : (modDie s d f).poison = s.poison := rfl
@[simp] theorem modDie_soft (s : State) (d : Nat) (f : Die → Die) : (modDie s d f).soft = s.soft := rfl
@[simp] theorem modDie_cerr (s : State) (d : Nat) (f : Die → Die) : (modDie s d f).cerr = s.cerr := rfl
@[simp] theorem modDie_dirty (s : State) (d : Nat) (f : Die → Die) : (modDie s d f).dirty = s.dirty := rfl
@[simp] theorem modDie_wbuf (s : State) (d : Nat) (f : Die → Die) : (modDie s d f).wbuf = s.wbuf := rfl
@[simp] theorem modDie_mgmt (s : State) (d : Nat) (f : Die → Die) : (modDie s d f).mgmt = s.mgmt := rfl
@[simp] theorem modDie_pins (s : State) (d : Nat) (f : Die → Die) : (modDie s d f).pins = s.pins := rfl
@[simp] theorem modDie_hold (s : State) (d : Nat) (f : Die → Die) : (modDie s d f).hold = s.hold := rfl
@[simp] theorem modDie_net (s : State) (d : Nat) (f : Die → Die) : (modDie s d f).net = s.net := rfl
@[simp] theorem modDie_out (s : State) (d : Nat) (f : Die → Die) : (modDie s d f).out = s.out := rfl
@[simp] theorem modDie_vcs (s : State) (d : Nat) (f : Die → Die) : (modDie s d f).vcs = s.vcs := rfl
@[simp] theorem modDie_late (s : State) (d : Nat) (f : Die → Die) : (modDie s d f).late = s.late := rfl
@[simp] theorem modDie_queues (s : State) (d : Nat) (f : Die → Die) : (modDie s d f).queues = s.queues := rfl
@[simp] theorem modDie_lastQ (s : State) (d : Nat) (f : Die → Die) : (modDie s d f).lastQ = s.lastQ := rfl
@[simp] theorem modDie_reserved (s : State) (d : Nat) (f : Die → Die) : (modDie s d f).reserved = s.reserved := rfl
@[simp] theorem modDie_streams (s : State) (d : Nat) (f : Die → Die) : (modDie s d f).streams = s.streams := rfl
@[simp] theorem modDie_engSent (s : State) (d : Nat) (f : Die → Die) : (modDie s d f).engSent = s.engSent := rfl
@[simp] theorem modDie_engId (s : State) (d : Nat) (f : Die → Die) : (modDie s d f).engId = s.engId := rfl
@[simp] theorem modDie_engUse (s : State) (d : Nat) (f : Die → Die) : (modDie s d f).engUse = s.engUse := rfl
@[simp] theorem modDie_repl (s : State) (d : Nat) (f : Die → Die) : (modDie s d f).repl = s.repl := rfl
@[simp] theorem modDie_gq (s : State) (d : Nat) (f : Die → Die) : (modDie s d f).gq = s.gq := rfl
@[simp] theorem modDie_gqIn (s : State) (d : Nat) (f : Die → Die) : (modDie s d f).gqIn = s.gqIn := rfl
@[simp] theorem modDie_netRecs (s : State) (d : Nat) (f : Die → Die) : (modDie s d f).netRecs = s.netRecs := rfl
@[simp] theorem modDie_pdcs (s : State) (d : Nat) (f : Die → Die) : (modDie s d f).pdcs = s.pdcs := rfl
@[simp] theorem modDie_bound (s : State) (d : Nat) (f : Die → Die) : (modDie s d f).bound = s.bound := rfl
@[simp] theorem modDie_rma (s : State) (d : Nat) (f : Die → Die) : (modDie s d f).rma = s.rma := rfl
@[simp] theorem modDie_pkts (s : State) (d : Nat) (f : Die → Die) : (modDie s d f).pkts = s.pkts := rfl
@[simp] theorem modDie_uacks (s : State) (d : Nat) (f : Die → Die) : (modDie s d f).uacks = s.uacks := rfl
@[simp] theorem modDie_nextPdc (s : State) (d : Nat) (f : Die → Die) : (modDie s d f).nextPdc = s.nextPdc := rfl
@[simp] theorem modDie_nextMsg (s : State) (d : Nat) (f : Die → Die) : (modDie s d f).nextMsg = s.nextMsg := rfl
@[simp] theorem modDie_colls (s : State) (d : Nat) (f : Die → Die) : (modDie s d f).colls = s.colls := rfl
@[simp] theorem modDie_xr (s : State) (d : Nat) (f : Die → Die) : (modDie s d f).xr = s.xr := rfl
@[simp] theorem modDie_freeing (s : State) (d : Nat) (f : Die → Die) : (modDie s d f).freeing = s.freeing := rfl
@[simp] theorem modDie_flash (s : State) (d : Nat) (f : Die → Die) : (modDie s d f).flash = s.flash := rfl
@[simp] theorem modDie_svnc (s : State) (d : Nat) (f : Die → Die) : (modDie s d f).svnc = s.svnc := rfl
@[simp] theorem modDie_owndig (s : State) (d : Nat) (f : Die → Die) : (modDie s d f).owndig = s.owndig := rfl
@[simp] theorem modDie_epoch (s : State) (d : Nat) (f : Die → Die) : (modDie s d f).epoch = s.epoch := rfl
@[simp] theorem modDie_tlatch (s : State) (d : Nat) (f : Die → Die) : (modDie s d f).tlatch = s.tlatch := rfl
@[simp] theorem modDie_sealKey (s : State) (d : Nat) (f : Die → Die) : (modDie s d f).sealKey = s.sealKey := rfl
@[simp] theorem modDie_attSeed (s : State) (d : Nat) (f : Die → Die) : (modDie s d f).attSeed = s.attSeed := rfl
@[simp] theorem modDie_rpaKey (s : State) (d : Nat) (f : Die → Die) : (modDie s d f).rpaKey = s.rpaKey := rfl
@[simp] theorem modDie_keysUp (s : State) (d : Nat) (f : Die → Die) : (modDie s d f).keysUp = s.keysUp := rfl
@[simp] theorem modDie_tripped (s : State) (d : Nat) (f : Die → Die) : (modDie s d f).tripped = s.tripped := rfl
@[simp] theorem modDie_alDef (s : State) (d : Nat) (f : Die → Die) : (modDie s d f).alDef = s.alDef := rfl
@[simp] theorem modDie_alNew (s : State) (d : Nat) (f : Die → Die) : (modDie s d f).alNew = s.alNew := rfl
@[simp] theorem modDie_dieEn (s : State) (d : Nat) (f : Die → Die) : (modDie s d f).dieEn = s.dieEn := rfl
@[simp] theorem modDie_hbmEn (s : State) (d : Nat) (f : Die → Die) : (modDie s d f).hbmEn = s.hbmEn := rfl
@[simp] theorem modDie_pendExt (s : State) (d : Nat) (f : Die → Die) : (modDie s d f).pendExt = s.pendExt := rfl
@[simp] theorem modDie_boot (s : State) (d : Nat) (f : Die → Die) : (modDie s d f).boot = s.boot := rfl
@[simp] theorem modDie_dbg (s : State) (d : Nat) (f : Die → Die) : (modDie s d f).dbg = s.dbg := rfl
@[simp] theorem modDie_sealOut (s : State) (d : Nat) (f : Die → Die) : (modDie s d f).sealOut = s.sealOut := rfl
@[simp] theorem modDie_rpaWrite (s : State) (d : Nat) (f : Die → Die) : (modDie s d f).rpaWrite = s.rpaWrite := rfl
@[simp] theorem modDie_powerBusy (s : State) (d : Nat) (f : Die → Die) : (modDie s d f).powerBusy = s.powerBusy := rfl
@[simp] theorem modDie_hbmPower (s : State) (d : Nat) (f : Die → Die) : (modDie s d f).hbmPower = s.hbmPower := rfl
@[simp] theorem modDie_ckpt (s : State) (d : Nat) (f : Die → Die) : (modDie s d f).ckpt = s.ckpt := rfl
@[simp] theorem modDie_ckOff (s : State) (d : Nat) (f : Die → Die) : (modDie s d f).ckOff = s.ckOff := rfl
@[simp] theorem modDie_ckptWait (s : State) (d : Nat) (f : Die → Die) : (modDie s d f).ckptWait = s.ckptWait := rfl
@[simp] theorem modDie_ckptImage (s : State) (d : Nat) (f : Die → Die) : (modDie s d f).ckptImage = s.ckptImage := rfl
@[simp] theorem modDie_quoteMsg (s : State) (d : Nat) (f : Die → Die) : (modDie s d f).quoteMsg = s.quoteMsg := rfl
@[simp] theorem modDie_widthBusy (s : State) (d : Nat) (f : Die → Die) : (modDie s d f).widthBusy = s.widthBusy := rfl
@[simp] theorem modDie_hotAt (s : State) (d : Nat) (f : Die → Die) : (modDie s d f).hotAt = s.hotAt := rfl
@[simp] theorem modDie_cxlDown (s : State) (d : Nat) (f : Die → Die) : (modDie s d f).cxlDown = s.cxlDown := rfl
@[simp] theorem modDie_cxlLost (s : State) (d : Nat) (f : Die → Die) : (modDie s d f).cxlLost = s.cxlLost := rfl
@[simp] theorem modDie_engBad (s : State) (d : Nat) (f : Die → Die) : (modDie s d f).engBad = s.engBad := rfl
@[simp] theorem modDie_mlog (s : State) (d : Nat) (f : Die → Die) : (modDie s d f).mlog = s.mlog := rfl
@[simp] theorem modDie_hartReads (s : State) (d : Nat) (f : Die → Die) : (modDie s d f).hartReads = s.hartReads := rfl
@[simp] theorem modDie_replays (s : State) (d : Nat) (f : Die → Die) : (modDie s d f).replays = s.replays := rfl
@[simp] theorem modDie_timers (s : State) (d : Nat) (f : Die → Die) : (modDie s d f).timers = s.timers := rfl
@[simp] theorem modDie_turn (s : State) (d : Nat) (f : Die → Die) : (modDie s d f).turn = s.turn := rfl
@[simp] theorem modDie_agenda (s : State) (d : Nat) (f : Die → Die) : (modDie s d f).agenda = s.agenda := rfl
@[simp] theorem modDie_cur (s : State) (d : Nat) (f : Die → Die) : (modDie s d f).cur = s.cur := rfl
@[simp] theorem modDie_fresh (s : State) (d : Nat) (f : Die → Die) : (modDie s d f).fresh = s.fresh := rfl
@[simp] theorem modDie_bad (s : State) (d : Nat) (f : Die → Die) : (modDie s d f).bad = s.bad := rfl
@[simp] theorem modQueue_cyc (s : State) (q : Nat) (f : Queue → Queue) : (modQueue s q f).cyc = s.cyc := rfl
@[simp] theorem modQueue_gts (s : State) (q : Nat) (f : Queue → Queue) : (modQueue s q f).gts = s.gts := rfl
@[simp] theorem modQueue_cores (s : State) (q : Nat) (f : Queue → Queue) : (modQueue s q f).cores = s.cores := rfl
@[simp] theorem modQueue_dies (s : State) (q : Nat) (f : Queue → Queue) : (modQueue s q f).dies = s.dies := rfl
@[simp] theorem modQueue_t2 (s : State) (q : Nat) (f : Queue → Queue) : (modQueue s q f).t2 = s.t2 := rfl
@[simp] theorem modQueue_t3 (s : State) (q : Nat) (f : Queue → Queue) : (modQueue s q f).t3 = s.t3 := rfl
@[simp] theorem modQueue_t4 (s : State) (q : Nat) (f : Queue → Queue) : (modQueue s q f).t4 = s.t4 := rfl
@[simp] theorem modQueue_t5 (s : State) (q : Nat) (f : Queue → Queue) : (modQueue s q f).t5 = s.t5 := rfl
@[simp] theorem modQueue_poison (s : State) (q : Nat) (f : Queue → Queue) : (modQueue s q f).poison = s.poison := rfl
@[simp] theorem modQueue_soft (s : State) (q : Nat) (f : Queue → Queue) : (modQueue s q f).soft = s.soft := rfl
@[simp] theorem modQueue_cerr (s : State) (q : Nat) (f : Queue → Queue) : (modQueue s q f).cerr = s.cerr := rfl
@[simp] theorem modQueue_dirty (s : State) (q : Nat) (f : Queue → Queue) : (modQueue s q f).dirty = s.dirty := rfl
@[simp] theorem modQueue_wbuf (s : State) (q : Nat) (f : Queue → Queue) : (modQueue s q f).wbuf = s.wbuf := rfl
@[simp] theorem modQueue_mgmt (s : State) (q : Nat) (f : Queue → Queue) : (modQueue s q f).mgmt = s.mgmt := rfl
@[simp] theorem modQueue_pins (s : State) (q : Nat) (f : Queue → Queue) : (modQueue s q f).pins = s.pins := rfl
@[simp] theorem modQueue_hold (s : State) (q : Nat) (f : Queue → Queue) : (modQueue s q f).hold = s.hold := rfl
@[simp] theorem modQueue_net (s : State) (q : Nat) (f : Queue → Queue) : (modQueue s q f).net = s.net := rfl
@[simp] theorem modQueue_out (s : State) (q : Nat) (f : Queue → Queue) : (modQueue s q f).out = s.out := rfl
@[simp] theorem modQueue_vcs (s : State) (q : Nat) (f : Queue → Queue) : (modQueue s q f).vcs = s.vcs := rfl
@[simp] theorem modQueue_late (s : State) (q : Nat) (f : Queue → Queue) : (modQueue s q f).late = s.late := rfl
@[simp] theorem modQueue_lastQ (s : State) (q : Nat) (f : Queue → Queue) : (modQueue s q f).lastQ = s.lastQ := rfl
@[simp] theorem modQueue_reserved (s : State) (q : Nat) (f : Queue → Queue) : (modQueue s q f).reserved = s.reserved := rfl
@[simp] theorem modQueue_streams (s : State) (q : Nat) (f : Queue → Queue) : (modQueue s q f).streams = s.streams := rfl
@[simp] theorem modQueue_engSent (s : State) (q : Nat) (f : Queue → Queue) : (modQueue s q f).engSent = s.engSent := rfl
@[simp] theorem modQueue_engId (s : State) (q : Nat) (f : Queue → Queue) : (modQueue s q f).engId = s.engId := rfl
@[simp] theorem modQueue_engUse (s : State) (q : Nat) (f : Queue → Queue) : (modQueue s q f).engUse = s.engUse := rfl
@[simp] theorem modQueue_repl (s : State) (q : Nat) (f : Queue → Queue) : (modQueue s q f).repl = s.repl := rfl
@[simp] theorem modQueue_gq (s : State) (q : Nat) (f : Queue → Queue) : (modQueue s q f).gq = s.gq := rfl
@[simp] theorem modQueue_gqIn (s : State) (q : Nat) (f : Queue → Queue) : (modQueue s q f).gqIn = s.gqIn := rfl
@[simp] theorem modQueue_netRecs (s : State) (q : Nat) (f : Queue → Queue) : (modQueue s q f).netRecs = s.netRecs := rfl
@[simp] theorem modQueue_pdcs (s : State) (q : Nat) (f : Queue → Queue) : (modQueue s q f).pdcs = s.pdcs := rfl
@[simp] theorem modQueue_bound (s : State) (q : Nat) (f : Queue → Queue) : (modQueue s q f).bound = s.bound := rfl
@[simp] theorem modQueue_rma (s : State) (q : Nat) (f : Queue → Queue) : (modQueue s q f).rma = s.rma := rfl
@[simp] theorem modQueue_pkts (s : State) (q : Nat) (f : Queue → Queue) : (modQueue s q f).pkts = s.pkts := rfl
@[simp] theorem modQueue_uacks (s : State) (q : Nat) (f : Queue → Queue) : (modQueue s q f).uacks = s.uacks := rfl
@[simp] theorem modQueue_nextPdc (s : State) (q : Nat) (f : Queue → Queue) : (modQueue s q f).nextPdc = s.nextPdc := rfl
@[simp] theorem modQueue_nextMsg (s : State) (q : Nat) (f : Queue → Queue) : (modQueue s q f).nextMsg = s.nextMsg := rfl
@[simp] theorem modQueue_colls (s : State) (q : Nat) (f : Queue → Queue) : (modQueue s q f).colls = s.colls := rfl
@[simp] theorem modQueue_xr (s : State) (q : Nat) (f : Queue → Queue) : (modQueue s q f).xr = s.xr := rfl
@[simp] theorem modQueue_freeing (s : State) (q : Nat) (f : Queue → Queue) : (modQueue s q f).freeing = s.freeing := rfl
@[simp] theorem modQueue_flash (s : State) (q : Nat) (f : Queue → Queue) : (modQueue s q f).flash = s.flash := rfl
@[simp] theorem modQueue_svnc (s : State) (q : Nat) (f : Queue → Queue) : (modQueue s q f).svnc = s.svnc := rfl
@[simp] theorem modQueue_owndig (s : State) (q : Nat) (f : Queue → Queue) : (modQueue s q f).owndig = s.owndig := rfl
@[simp] theorem modQueue_epoch (s : State) (q : Nat) (f : Queue → Queue) : (modQueue s q f).epoch = s.epoch := rfl
@[simp] theorem modQueue_tlatch (s : State) (q : Nat) (f : Queue → Queue) : (modQueue s q f).tlatch = s.tlatch := rfl
@[simp] theorem modQueue_sealKey (s : State) (q : Nat) (f : Queue → Queue) : (modQueue s q f).sealKey = s.sealKey := rfl
@[simp] theorem modQueue_attSeed (s : State) (q : Nat) (f : Queue → Queue) : (modQueue s q f).attSeed = s.attSeed := rfl
@[simp] theorem modQueue_rpaKey (s : State) (q : Nat) (f : Queue → Queue) : (modQueue s q f).rpaKey = s.rpaKey := rfl
@[simp] theorem modQueue_keysUp (s : State) (q : Nat) (f : Queue → Queue) : (modQueue s q f).keysUp = s.keysUp := rfl
@[simp] theorem modQueue_tripped (s : State) (q : Nat) (f : Queue → Queue) : (modQueue s q f).tripped = s.tripped := rfl
@[simp] theorem modQueue_alDef (s : State) (q : Nat) (f : Queue → Queue) : (modQueue s q f).alDef = s.alDef := rfl
@[simp] theorem modQueue_alNew (s : State) (q : Nat) (f : Queue → Queue) : (modQueue s q f).alNew = s.alNew := rfl
@[simp] theorem modQueue_dieEn (s : State) (q : Nat) (f : Queue → Queue) : (modQueue s q f).dieEn = s.dieEn := rfl
@[simp] theorem modQueue_hbmEn (s : State) (q : Nat) (f : Queue → Queue) : (modQueue s q f).hbmEn = s.hbmEn := rfl
@[simp] theorem modQueue_pendExt (s : State) (q : Nat) (f : Queue → Queue) : (modQueue s q f).pendExt = s.pendExt := rfl
@[simp] theorem modQueue_boot (s : State) (q : Nat) (f : Queue → Queue) : (modQueue s q f).boot = s.boot := rfl
@[simp] theorem modQueue_dbg (s : State) (q : Nat) (f : Queue → Queue) : (modQueue s q f).dbg = s.dbg := rfl
@[simp] theorem modQueue_sealOut (s : State) (q : Nat) (f : Queue → Queue) : (modQueue s q f).sealOut = s.sealOut := rfl
@[simp] theorem modQueue_rpaWrite (s : State) (q : Nat) (f : Queue → Queue) : (modQueue s q f).rpaWrite = s.rpaWrite := rfl
@[simp] theorem modQueue_powerBusy (s : State) (q : Nat) (f : Queue → Queue) : (modQueue s q f).powerBusy = s.powerBusy := rfl
@[simp] theorem modQueue_hbmPower (s : State) (q : Nat) (f : Queue → Queue) : (modQueue s q f).hbmPower = s.hbmPower := rfl
@[simp] theorem modQueue_ckpt (s : State) (q : Nat) (f : Queue → Queue) : (modQueue s q f).ckpt = s.ckpt := rfl
@[simp] theorem modQueue_ckOff (s : State) (q : Nat) (f : Queue → Queue) : (modQueue s q f).ckOff = s.ckOff := rfl
@[simp] theorem modQueue_ckptWait (s : State) (q : Nat) (f : Queue → Queue) : (modQueue s q f).ckptWait = s.ckptWait := rfl
@[simp] theorem modQueue_ckptImage (s : State) (q : Nat) (f : Queue → Queue) : (modQueue s q f).ckptImage = s.ckptImage := rfl
@[simp] theorem modQueue_quoteMsg (s : State) (q : Nat) (f : Queue → Queue) : (modQueue s q f).quoteMsg = s.quoteMsg := rfl
@[simp] theorem modQueue_widthBusy (s : State) (q : Nat) (f : Queue → Queue) : (modQueue s q f).widthBusy = s.widthBusy := rfl
@[simp] theorem modQueue_hotAt (s : State) (q : Nat) (f : Queue → Queue) : (modQueue s q f).hotAt = s.hotAt := rfl
@[simp] theorem modQueue_cxlDown (s : State) (q : Nat) (f : Queue → Queue) : (modQueue s q f).cxlDown = s.cxlDown := rfl
@[simp] theorem modQueue_cxlLost (s : State) (q : Nat) (f : Queue → Queue) : (modQueue s q f).cxlLost = s.cxlLost := rfl
@[simp] theorem modQueue_engBad (s : State) (q : Nat) (f : Queue → Queue) : (modQueue s q f).engBad = s.engBad := rfl
@[simp] theorem modQueue_mlog (s : State) (q : Nat) (f : Queue → Queue) : (modQueue s q f).mlog = s.mlog := rfl
@[simp] theorem modQueue_hartReads (s : State) (q : Nat) (f : Queue → Queue) : (modQueue s q f).hartReads = s.hartReads := rfl
@[simp] theorem modQueue_replays (s : State) (q : Nat) (f : Queue → Queue) : (modQueue s q f).replays = s.replays := rfl
@[simp] theorem modQueue_timers (s : State) (q : Nat) (f : Queue → Queue) : (modQueue s q f).timers = s.timers := rfl
@[simp] theorem modQueue_turn (s : State) (q : Nat) (f : Queue → Queue) : (modQueue s q f).turn = s.turn := rfl
@[simp] theorem modQueue_agenda (s : State) (q : Nat) (f : Queue → Queue) : (modQueue s q f).agenda = s.agenda := rfl
@[simp] theorem modQueue_cur (s : State) (q : Nat) (f : Queue → Queue) : (modQueue s q f).cur = s.cur := rfl
@[simp] theorem modQueue_fresh (s : State) (q : Nat) (f : Queue → Queue) : (modQueue s q f).fresh = s.fresh := rfl
@[simp] theorem modQueue_bad (s : State) (q : Nat) (f : Queue → Queue) : (modQueue s q f).bad = s.bad := rfl
@[simp] theorem setMreg_cyc (s : State) (r : MReg) (v : Word) : (setMreg s r v).cyc = s.cyc := rfl
@[simp] theorem setMreg_gts (s : State) (r : MReg) (v : Word) : (setMreg s r v).gts = s.gts := rfl
@[simp] theorem setMreg_cores (s : State) (r : MReg) (v : Word) : (setMreg s r v).cores = s.cores := rfl
@[simp] theorem setMreg_dies (s : State) (r : MReg) (v : Word) : (setMreg s r v).dies = s.dies := rfl
@[simp] theorem setMreg_t2 (s : State) (r : MReg) (v : Word) : (setMreg s r v).t2 = s.t2 := rfl
@[simp] theorem setMreg_t3 (s : State) (r : MReg) (v : Word) : (setMreg s r v).t3 = s.t3 := rfl
@[simp] theorem setMreg_t4 (s : State) (r : MReg) (v : Word) : (setMreg s r v).t4 = s.t4 := rfl
@[simp] theorem setMreg_t5 (s : State) (r : MReg) (v : Word) : (setMreg s r v).t5 = s.t5 := rfl
@[simp] theorem setMreg_poison (s : State) (r : MReg) (v : Word) : (setMreg s r v).poison = s.poison := rfl
@[simp] theorem setMreg_soft (s : State) (r : MReg) (v : Word) : (setMreg s r v).soft = s.soft := rfl
@[simp] theorem setMreg_cerr (s : State) (r : MReg) (v : Word) : (setMreg s r v).cerr = s.cerr := rfl
@[simp] theorem setMreg_dirty (s : State) (r : MReg) (v : Word) : (setMreg s r v).dirty = s.dirty := rfl
@[simp] theorem setMreg_wbuf (s : State) (r : MReg) (v : Word) : (setMreg s r v).wbuf = s.wbuf := rfl
@[simp] theorem setMreg_pins (s : State) (r : MReg) (v : Word) : (setMreg s r v).pins = s.pins := rfl
@[simp] theorem setMreg_hold (s : State) (r : MReg) (v : Word) : (setMreg s r v).hold = s.hold := rfl
@[simp] theorem setMreg_net (s : State) (r : MReg) (v : Word) : (setMreg s r v).net = s.net := rfl
@[simp] theorem setMreg_out (s : State) (r : MReg) (v : Word) : (setMreg s r v).out = s.out := rfl
@[simp] theorem setMreg_vcs (s : State) (r : MReg) (v : Word) : (setMreg s r v).vcs = s.vcs := rfl
@[simp] theorem setMreg_late (s : State) (r : MReg) (v : Word) : (setMreg s r v).late = s.late := rfl
@[simp] theorem setMreg_queues (s : State) (r : MReg) (v : Word) : (setMreg s r v).queues = s.queues := rfl
@[simp] theorem setMreg_lastQ (s : State) (r : MReg) (v : Word) : (setMreg s r v).lastQ = s.lastQ := rfl
@[simp] theorem setMreg_reserved (s : State) (r : MReg) (v : Word) : (setMreg s r v).reserved = s.reserved := rfl
@[simp] theorem setMreg_streams (s : State) (r : MReg) (v : Word) : (setMreg s r v).streams = s.streams := rfl
@[simp] theorem setMreg_engSent (s : State) (r : MReg) (v : Word) : (setMreg s r v).engSent = s.engSent := rfl
@[simp] theorem setMreg_engId (s : State) (r : MReg) (v : Word) : (setMreg s r v).engId = s.engId := rfl
@[simp] theorem setMreg_engUse (s : State) (r : MReg) (v : Word) : (setMreg s r v).engUse = s.engUse := rfl
@[simp] theorem setMreg_repl (s : State) (r : MReg) (v : Word) : (setMreg s r v).repl = s.repl := rfl
@[simp] theorem setMreg_gq (s : State) (r : MReg) (v : Word) : (setMreg s r v).gq = s.gq := rfl
@[simp] theorem setMreg_gqIn (s : State) (r : MReg) (v : Word) : (setMreg s r v).gqIn = s.gqIn := rfl
@[simp] theorem setMreg_netRecs (s : State) (r : MReg) (v : Word) : (setMreg s r v).netRecs = s.netRecs := rfl
@[simp] theorem setMreg_pdcs (s : State) (r : MReg) (v : Word) : (setMreg s r v).pdcs = s.pdcs := rfl
@[simp] theorem setMreg_bound (s : State) (r : MReg) (v : Word) : (setMreg s r v).bound = s.bound := rfl
@[simp] theorem setMreg_rma (s : State) (r : MReg) (v : Word) : (setMreg s r v).rma = s.rma := rfl
@[simp] theorem setMreg_pkts (s : State) (r : MReg) (v : Word) : (setMreg s r v).pkts = s.pkts := rfl
@[simp] theorem setMreg_uacks (s : State) (r : MReg) (v : Word) : (setMreg s r v).uacks = s.uacks := rfl
@[simp] theorem setMreg_nextPdc (s : State) (r : MReg) (v : Word) : (setMreg s r v).nextPdc = s.nextPdc := rfl
@[simp] theorem setMreg_nextMsg (s : State) (r : MReg) (v : Word) : (setMreg s r v).nextMsg = s.nextMsg := rfl
@[simp] theorem setMreg_colls (s : State) (r : MReg) (v : Word) : (setMreg s r v).colls = s.colls := rfl
@[simp] theorem setMreg_xr (s : State) (r : MReg) (v : Word) : (setMreg s r v).xr = s.xr := rfl
@[simp] theorem setMreg_freeing (s : State) (r : MReg) (v : Word) : (setMreg s r v).freeing = s.freeing := rfl
@[simp] theorem setMreg_flash (s : State) (r : MReg) (v : Word) : (setMreg s r v).flash = s.flash := rfl
@[simp] theorem setMreg_svnc (s : State) (r : MReg) (v : Word) : (setMreg s r v).svnc = s.svnc := rfl
@[simp] theorem setMreg_owndig (s : State) (r : MReg) (v : Word) : (setMreg s r v).owndig = s.owndig := rfl
@[simp] theorem setMreg_epoch (s : State) (r : MReg) (v : Word) : (setMreg s r v).epoch = s.epoch := rfl
@[simp] theorem setMreg_tlatch (s : State) (r : MReg) (v : Word) : (setMreg s r v).tlatch = s.tlatch := rfl
@[simp] theorem setMreg_sealKey (s : State) (r : MReg) (v : Word) : (setMreg s r v).sealKey = s.sealKey := rfl
@[simp] theorem setMreg_attSeed (s : State) (r : MReg) (v : Word) : (setMreg s r v).attSeed = s.attSeed := rfl
@[simp] theorem setMreg_rpaKey (s : State) (r : MReg) (v : Word) : (setMreg s r v).rpaKey = s.rpaKey := rfl
@[simp] theorem setMreg_keysUp (s : State) (r : MReg) (v : Word) : (setMreg s r v).keysUp = s.keysUp := rfl
@[simp] theorem setMreg_tripped (s : State) (r : MReg) (v : Word) : (setMreg s r v).tripped = s.tripped := rfl
@[simp] theorem setMreg_alDef (s : State) (r : MReg) (v : Word) : (setMreg s r v).alDef = s.alDef := rfl
@[simp] theorem setMreg_alNew (s : State) (r : MReg) (v : Word) : (setMreg s r v).alNew = s.alNew := rfl
@[simp] theorem setMreg_dieEn (s : State) (r : MReg) (v : Word) : (setMreg s r v).dieEn = s.dieEn := rfl
@[simp] theorem setMreg_hbmEn (s : State) (r : MReg) (v : Word) : (setMreg s r v).hbmEn = s.hbmEn := rfl
@[simp] theorem setMreg_pendExt (s : State) (r : MReg) (v : Word) : (setMreg s r v).pendExt = s.pendExt := rfl
@[simp] theorem setMreg_boot (s : State) (r : MReg) (v : Word) : (setMreg s r v).boot = s.boot := rfl
@[simp] theorem setMreg_dbg (s : State) (r : MReg) (v : Word) : (setMreg s r v).dbg = s.dbg := rfl
@[simp] theorem setMreg_sealOut (s : State) (r : MReg) (v : Word) : (setMreg s r v).sealOut = s.sealOut := rfl
@[simp] theorem setMreg_rpaWrite (s : State) (r : MReg) (v : Word) : (setMreg s r v).rpaWrite = s.rpaWrite := rfl
@[simp] theorem setMreg_powerBusy (s : State) (r : MReg) (v : Word) : (setMreg s r v).powerBusy = s.powerBusy := rfl
@[simp] theorem setMreg_hbmPower (s : State) (r : MReg) (v : Word) : (setMreg s r v).hbmPower = s.hbmPower := rfl
@[simp] theorem setMreg_ckpt (s : State) (r : MReg) (v : Word) : (setMreg s r v).ckpt = s.ckpt := rfl
@[simp] theorem setMreg_ckOff (s : State) (r : MReg) (v : Word) : (setMreg s r v).ckOff = s.ckOff := rfl
@[simp] theorem setMreg_ckptWait (s : State) (r : MReg) (v : Word) : (setMreg s r v).ckptWait = s.ckptWait := rfl
@[simp] theorem setMreg_ckptImage (s : State) (r : MReg) (v : Word) : (setMreg s r v).ckptImage = s.ckptImage := rfl
@[simp] theorem setMreg_quoteMsg (s : State) (r : MReg) (v : Word) : (setMreg s r v).quoteMsg = s.quoteMsg := rfl
@[simp] theorem setMreg_widthBusy (s : State) (r : MReg) (v : Word) : (setMreg s r v).widthBusy = s.widthBusy := rfl
@[simp] theorem setMreg_hotAt (s : State) (r : MReg) (v : Word) : (setMreg s r v).hotAt = s.hotAt := rfl
@[simp] theorem setMreg_cxlDown (s : State) (r : MReg) (v : Word) : (setMreg s r v).cxlDown = s.cxlDown := rfl
@[simp] theorem setMreg_cxlLost (s : State) (r : MReg) (v : Word) : (setMreg s r v).cxlLost = s.cxlLost := rfl
@[simp] theorem setMreg_engBad (s : State) (r : MReg) (v : Word) : (setMreg s r v).engBad = s.engBad := rfl
@[simp] theorem setMreg_mlog (s : State) (r : MReg) (v : Word) : (setMreg s r v).mlog = s.mlog := rfl
@[simp] theorem setMreg_hartReads (s : State) (r : MReg) (v : Word) : (setMreg s r v).hartReads = s.hartReads := rfl
@[simp] theorem setMreg_replays (s : State) (r : MReg) (v : Word) : (setMreg s r v).replays = s.replays := rfl
@[simp] theorem setMreg_timers (s : State) (r : MReg) (v : Word) : (setMreg s r v).timers = s.timers := rfl
@[simp] theorem setMreg_turn (s : State) (r : MReg) (v : Word) : (setMreg s r v).turn = s.turn := rfl
@[simp] theorem setMreg_agenda (s : State) (r : MReg) (v : Word) : (setMreg s r v).agenda = s.agenda := rfl
@[simp] theorem setMreg_cur (s : State) (r : MReg) (v : Word) : (setMreg s r v).cur = s.cur := rfl
@[simp] theorem setMreg_fresh (s : State) (r : MReg) (v : Word) : (setMreg s r v).fresh = s.fresh := rfl
@[simp] theorem setMreg_bad (s : State) (r : MReg) (v : Word) : (setMreg s r v).bad = s.bad := rfl

/-! ### A seat of a core replaced -/

@[simp] theorem putSeat_cur (k : Core) (n : Nat) (t : Seat) : (putSeat k n t).cur = k.cur := rfl
@[simp] theorem putSeat_last (k : Core) (n : Nat) (t : Seat) : (putSeat k n t).last = k.last := rfl
@[simp] theorem putSeat_latch (k : Core) (n : Nat) (t : Seat) : (putSeat k n t).latch = k.latch := rfl
@[simp] theorem putSeat_vlatch (k : Core) (n : Nat) (t : Seat) : (putSeat k n t).vlatch = k.vlatch := rfl
@[simp] theorem putSeat_tile (k : Core) (n : Nat) (t : Seat) : (putSeat k n t).tile = k.tile := rfl
@[simp] theorem putSeat_tg (k : Core) (n : Nat) (t : Seat) : (putSeat k n t).tg = k.tg := rfl
@[simp] theorem putSeat_acc (k : Core) (n : Nat) (t : Seat) : (putSeat k n t).acc = k.acc := rfl
@[simp] theorem putSeat_w0 (k : Core) (n : Nat) (t : Seat) : (putSeat k n t).w0 = k.w0 := rfl
@[simp] theorem putSeat_w1 (k : Core) (n : Nat) (t : Seat) : (putSeat k n t).w1 = k.w1 := rfl
@[simp] theorem putSeat_sw0 (k : Core) (n : Nat) (t : Seat) : (putSeat k n t).sw0 = k.sw0 := rfl
@[simp] theorem putSeat_sw1 (k : Core) (n : Nat) (t : Seat) : (putSeat k n t).sw1 = k.sw1 := rfl
@[simp] theorem putSeat_tag0 (k : Core) (n : Nat) (t : Seat) : (putSeat k n t).tag0 = k.tag0 := rfl
@[simp] theorem putSeat_tag1 (k : Core) (n : Nat) (t : Seat) : (putSeat k n t).tag1 = k.tag1 := rfl
@[simp] theorem putSeat_sa (k : Core) (n : Nat) (t : Seat) : (putSeat k n t).sa = k.sa := rfl
@[simp] theorem putSeat_d (k : Core) (n : Nat) (t : Seat) : (putSeat k n t).d = k.d := rfl
@[simp] theorem putSeat_seqr (k : Core) (n : Nat) (t : Seat) : (putSeat k n t).seqr = k.seqr := rfl
@[simp] theorem putSeat_spad (k : Core) (n : Nat) (t : Seat) : (putSeat k n t).spad = k.spad := rfl
@[simp] theorem putSeat_spadUe (k : Core) (n : Nat) (t : Seat) : (putSeat k n t).spadUe = k.spadUe := rfl
@[simp] theorem putSeat_parity (k : Core) (n : Nat) (t : Seat) : (putSeat k n t).parity = k.parity := rfl
@[simp] theorem putSeat_ch (k : Core) (n : Nat) (t : Seat) : (putSeat k n t).ch = k.ch := rfl
@[simp] theorem putSeat_tags (k : Core) (n : Nat) (t : Seat) : (putSeat k n t).tags = k.tags := rfl
@[simp] theorem putSeat_ofrz (k : Core) (n : Nat) (t : Seat) : (putSeat k n t).ofrz = k.ofrz := rfl
@[simp] theorem putSeat_gfrz (k : Core) (n : Nat) (t : Seat) : (putSeat k n t).gfrz = k.gfrz := rfl
@[simp] theorem putSeat_ct (k : Core) (n : Nat) (t : Seat) : (putSeat k n t).ct = k.ct := rfl
@[simp] theorem putSeat_counts (k : Core) (n : Nat) (t : Seat) : (putSeat k n t).counts = k.counts := rfl
@[simp] theorem putSeat_slice (k : Core) (n : Nat) (t : Seat) : (putSeat k n t).slice = k.slice := rfl
@[simp] theorem putSeat_gap (k : Core) (n : Nat) (t : Seat) : (putSeat k n t).gap = k.gap := rfl
@[simp] theorem putSeat_hold (k : Core) (n : Nat) (t : Seat) : (putSeat k n t).hold = k.hold := rfl
@[simp] theorem putSeat_waits (k : Core) (n : Nat) (t : Seat) : (putSeat k n t).waits = k.waits := rfl
@[simp] theorem putSeat_frz (k : Core) (n : Nat) (t : Seat) : (putSeat k n t).frz = k.frz := rfl
@[simp] theorem putSeat_frzWhy (k : Core) (n : Nat) (t : Seat) : (putSeat k n t).frzWhy = k.frzWhy := rfl
@[simp] theorem putSeat_choose (k : Core) (n : Nat) (t : Seat) : (putSeat k n t).choose = k.choose := rfl
@[simp] theorem putSeat_sw (k : Core) (n : Nat) (t : Seat) : (putSeat k n t).sw = k.sw := rfl
@[simp] theorem putSeat_win (k : Core) (n : Nat) (t : Seat) : (putSeat k n t).win = k.win := rfl
@[simp] theorem putSeat_grp (k : Core) (n : Nat) (t : Seat) : (putSeat k n t).grp = k.grp := rfl
@[simp] theorem putSeat_effs (k : Core) (n : Nat) (t : Seat) : (putSeat k n t).effs = k.effs := rfl
@[simp] theorem putSeat_sent (k : Core) (n : Nat) (t : Seat) : (putSeat k n t).sent = k.sent := rfl
@[simp] theorem putSeat_msgid (k : Core) (n : Nat) (t : Seat) : (putSeat k n t).msgid = k.msgid := rfl
@[simp] theorem putSeat_syncRes (k : Core) (n : Nat) (t : Seat) : (putSeat k n t).syncRes = k.syncRes := rfl
@[simp] theorem putSeat_cache (k : Core) (n : Nat) (t : Seat) : (putSeat k n t).cache = k.cache := rfl
@[simp] theorem putSeat_adds (k : Core) (n : Nat) (t : Seat) : (putSeat k n t).adds = k.adds := rfl
@[simp] theorem putSeat_msgUse (k : Core) (n : Nat) (t : Seat) : (putSeat k n t).msgUse = k.msgUse := rfl
@[simp] theorem putSeat_replies (k : Core) (n : Nat) (t : Seat) : (putSeat k n t).replies = k.replies := rfl
@[simp] theorem putSeat_flagEnt (k : Core) (n : Nat) (t : Seat) : (putSeat k n t).flagEnt = k.flagEnt := rfl
@[simp] theorem putSeat_drained (k : Core) (n : Nat) (t : Seat) : (putSeat k n t).drained = k.drained := rfl
@[simp] theorem putSeat_prior (k : Core) (n : Nat) (t : Seat) : (putSeat k n t).prior = k.prior := rfl
@[simp] theorem putSeat_beatNow (k : Core) (n : Nat) (t : Seat) : (putSeat k n t).beatNow = k.beatNow := rfl
@[simp] theorem putSeat_rx (k : Core) (n : Nat) (t : Seat) : (putSeat k n t).rx = k.rx := rfl
@[simp] theorem putSeat_served (k : Core) (n : Nat) (t : Seat) : (putSeat k n t).served = k.served := rfl
@[simp] theorem putSeat_bankTurn (k : Core) (n : Nat) (t : Seat) : (putSeat k n t).bankTurn = k.bankTurn := rfl
@[simp] theorem putSeat_sendTurn (k : Core) (n : Nat) (t : Seat) : (putSeat k n t).sendTurn = k.sendTurn := rfl
@[simp] theorem putSeat_accNo (k : Core) (n : Nat) (t : Seat) : (putSeat k n t).accNo = k.accNo := rfl
@[simp] theorem putSeat_idle (k : Core) (n : Nat) (t : Seat) : (putSeat k n t).idle = k.idle := rfl
@[simp] theorem putSeat_pairIn (k : Core) (n : Nat) (t : Seat) : (putSeat k n t).pairIn = k.pairIn := rfl

/-! ### Reads after updates -/

@[simp] theorem coreAt_setCore_same (s : State) (c : Nat) (k : Core) : coreAt (setCore s c k) c = k := by
  simp [coreAt, setCore]

theorem coreAt_setCore_ne (s : State) {c d : Nat} (k : Core) (h : d ≠ c) : coreAt (setCore s c k) d = coreAt s d := by
  simp [coreAt, setCore, tget_tput_ne h]

@[simp] theorem coreAt_modCore_same (s : State) (c : Nat) (f : Core → Core) : coreAt (modCore s c f) c = f (coreAt s c) := by
  simp [modCore]

theorem coreAt_modCore_ne (s : State) {c d : Nat} (f : Core → Core) (h : d ≠ c) : coreAt (modCore s c f) d = coreAt s d :=
  coreAt_setCore_ne s _ h

@[simp] theorem seatOf_putSeat_same (k : Core) (n : Nat) (t : Seat) : seatOf (putSeat k n t) n = t := by
  simp [seatOf, putSeat]

theorem seatOf_putSeat_ne (k : Core) {n m : Nat} (t : Seat) (h : m ≠ n) : seatOf (putSeat k n t) m = seatOf k m := by
  simp [seatOf, putSeat, tget_tput_ne h]

@[simp] theorem seatAt_modSeat_same (s : State) (c n : Nat) (f : Seat → Seat) :
    seatAt (modSeat s c n f) c n = f (seatAt s c n) := by simp [seatAt, modSeat]

theorem seatAt_modSeat_ne (s : State) {c n d m : Nat} (f : Seat → Seat) (h : d ≠ c ∨ m ≠ n) :
    seatAt (modSeat s c n f) d m = seatAt s d m := by
  by_cases hd : d = c
  · subst hd
    simp [seatAt, modSeat, seatOf_putSeat_ne _ _ (h.resolve_left (fun e => e rfl))]
  · simp [seatAt, modSeat, coreAt_modCore_ne _ _ hd]

@[simp] theorem queueAt_modQueue_same (s : State) (q : Nat) (f : Queue → Queue) :
    queueAt (modQueue s q f) q = f (queueAt s q) := by simp [queueAt, modQueue]

theorem queueAt_modQueue_ne (s : State) {q r : Nat} (f : Queue → Queue) (h : r ≠ q) :
    queueAt (modQueue s q f) r = queueAt s r := by simp [queueAt, modQueue, tget_tput_ne h]

@[simp] theorem dieAt_modDie_same (s : State) (d : Nat) (f : Die → Die) : dieAt (modDie s d f) d = f (dieAt s d) := by
  simp [dieAt, modDie]

theorem dieAt_modDie_ne (s : State) {d e : Nat} (f : Die → Die) (h : e ≠ d) : dieAt (modDie s d f) e = dieAt s e := by
  simp [dieAt, modDie, tget_tput_ne h]

/-- Another management register keeps its value. -/
theorem mreg_setMreg_ne (s : State) {r q : MReg} (v : Word) (h : regKey q ≠ regKey r) : mreg (setMreg s r v) q = mreg s q := by
  unfold mreg setMreg tset
  dsimp only
  split
  · simp [tget, tfind_tdel_ne h]
  · exact tget_tput_ne h _ _ _

/-! ### The updates of the core being performed, as updates of a numbered core -/

theorem onCore_eq (s : State) (f : Core → Core) : onCore s f = modCore s s.cur f := rfl

theorem onSeat_eq (s : State) (f : Seat → Seat) : onSeat s f = modSeat s s.cur (cn s) f := rfl

theorem onGrp_eq (s : State) (f : Grp → Grp) : onGrp s f = modCore s s.cur fun k => { k with grp := f k.grp } := rfl

theorem emitEff_eq (s : State) (e : Eff) : emitEff s e = modCore s s.cur fun k => { k with effs := k.effs ++ [e] } := rfl

theorem postRec_eq (s : State) (q : Nat) (w : Option Nat) (r : StopRec) :
    postRec s q w r = modQueue s q fun x => { x with recs := x.recs ++ [(w, r)] } := rfl

@[simp] theorem cc_modCore (s : State) (f : Core → Core) : cc (modCore s s.cur f) = f (cc s) := by simp [cc]

@[simp] theorem cn_modSeat (s : State) (n : Nat) (f : Seat → Seat) : cn (modSeat s s.cur n f) = cn s := by
  simp [cn, cc, modSeat]

@[simp] theorem cs_modSeat (s : State) (f : Seat → Seat) : cs (modSeat s s.cur (cn s) f) = f (cs s) := by
  unfold cs
  rw [cn_modSeat]
  simp [cc, modSeat]

end Sys2Proof.Laws
end

