-- ==== Sys2Proof/Laws/Ops.lean ====
section
/-!
SUPPORT. The shared operations of a syllable's issue, each with one lemma that says everything it does: reading sources, sending a result,
noting a cause.
-/
namespace Sys2Proof.Laws

open Sys2Proof Sys2Proof.Machine Sys2Proof.Safety

/-- The state after a syllable's sources have been read. -/
def readSrcs (s : State) (l : List SSrc) : State :=
  if anyFi l then onSeat s fun t => { t with fi := (cs s).fi.tail } else s

theorem srcVal_zero {s : State} {a : SSrc} (h : isFi a = false) : srcVal (cc s) (cs s) 0 a = srcAt s a := by
  cases a with
  | reg n => rfl
  | latch n => rfl
  | fi => cases h

theorem srcVal_head {s : State} {e : FiEnt} {r : List FiEnt} (h : (cs s).fi = e :: r) (a : SSrc) :
    srcVal (cc s) (cs s) e.w a = srcAt s a := by
  cases a with
  | reg n => rfl
  | latch n => rfl
  | fi => simp [srcVal, srcAt, h]

theorem isFi_of_anyFi {l : List SSrc} (h : anyFi l = false) {a : SSrc} (ha : a ∈ l) : isFi a = false := by
  simp only [anyFi, List.any_eq_false] at h
  simpa using h a ha

/-- Reading the sources of a syllable (R76): its fields read their values, and one word of `fi` is gone if a field names it. -/
theorem withSrcs_read {s : State} {slot : Nat} {l : List SSrc} {f : (SSrc → Word) → State → State} (h : Readable s l)
    (hf : ∀ v w : SSrc → Word, (∀ a ∈ l, v a = w a) → f v = f w) :
    withSrcs s slot l f = f (srcAt s) (readSrcs s l) := by
  unfold withSrcs readSrcs
  by_cases hl : anyFi l = true
  · obtain ⟨e, r, hr, he⟩ := h hl
    simp only [hl, if_true, hr, he, List.tail_cons]
    rw [hf _ (srcAt s) fun a _ => srcVal_head hr a]
    rfl
  · have hl' : anyFi l = false := by simpa using hl
    simp only [hl', Bool.false_eq_true, if_false]
    rw [hf _ (srcAt s) fun a ha => srcVal_zero (isFi_of_anyFi hl' ha)]

/-- One source. -/
theorem withSrcs_one {s : State} {slot : Nat} {a : SSrc} {f : Word → State → State} (h : Readable s [a]) :
    withSrcs s slot [a] (fun v s => f (v a) s) = f (srcAt s a) (readSrcs s [a]) :=
  withSrcs_read h fun v w hv => by funext; rw [hv a (by simp)]

/-- Two sources. -/
theorem withSrcs_two {s : State} {slot : Nat} {a b : SSrc} {f : Word → Word → State → State} (h : Readable s [a, b]) :
    withSrcs s slot [a, b] (fun v s => f (v a) (v b) s) = f (srcAt s a) (srcAt s b) (readSrcs s [a, b]) :=
  withSrcs_read h fun v w hv => by funext; rw [hv a (by simp), hv b (by simp)]

/-- Three sources. -/
theorem withSrcs_three {s : State} {slot : Nat} {a b c : SSrc} {f : Word → Word → Word → State → State}
    (h : Readable s [a, b, c]) :
    withSrcs s slot [a, b, c] (fun v s => f (v a) (v b) (v c) s) =
      f (srcAt s a) (srcAt s b) (srcAt s c) (readSrcs s [a, b, c]) :=
  withSrcs_read h fun v w hv => by funext; rw [hv a (by simp), hv b (by simp), hv c (by simp)]

/-! ### Issues, put together from what the meanings do -/

/-- Nothing done yet. -/
theorem issued_refl (s : State) : Issued s s (cs s) [] (cc s).grp where
  package := rfl
  cores _ _ := rfl
  core := by simp; rfl
  seats _ _ := rfl
  seat := rfl

theorem issued_cur {s t : State} {x : Seat} {es : List Eff} {g : Grp} (h : Issued s t x es g) : t.cur = s.cur := by
  rw [h.package]

theorem issued_cn {s t : State} {x : Seat} {es : List Eff} {g : Grp} (h : Issued s t x es g) : cn t = cn s := by
  unfold cn cc; rw [(issued_cur h), h.core]; rfl

theorem issued_cs {s t : State} {x : Seat} {es : List Eff} {g : Grp} (h : Issued s t x es g) : cs t = x := by
  have := h.seat
  unfold cs cc; rw [(issued_cn h), (issued_cur h)]; exact this

/-- The seat that issues changes. -/
theorem issued_onSeat {s t : State} {x : Seat} {es : List Eff} {g : Grp} (h : Issued s t x es g) (f : Seat → Seat) :
    Issued s (onSeat t f) (f x) es g := by
  have hc := (issued_cur h)
  have hn := (issued_cn h)
  refine ⟨?_, ?_, ?_, ?_, ?_⟩
  · rw [onSeat_eq]
    have := h.package
    rw [this]; rfl
  · intro d hd
    rw [onSeat_eq, ← h.cores d hd, hc, hn]
    exact coreAt_modCore_ne _ _ hd
  · rw [onSeat_eq, hc, hn]
    have := h.core
    unfold modSeat
    rw [coreAt_modCore_same]
    unfold putSeat
    rw [this]
  · intro m hm
    rw [onSeat_eq, hc, hn, seatAt_modSeat_ne _ _ (Or.inr hm)]
    exact h.seats m hm
  · rw [onSeat_eq, hc, hn, seatAt_modSeat_same, h.seat]

/-- An effect is put in flight. -/
theorem issued_emitEff {s t : State} {x : Seat} {es : List Eff} {g : Grp} (h : Issued s t x es g) (e : Eff) :
    Issued s (emitEff t e) x (es ++ [e]) g := by
  have hc := (issued_cur h)
  refine ⟨?_, ?_, ?_, ?_, ?_⟩
  · rw [emitEff_eq]
    have := h.package
    rw [this]; rfl
  · intro d hd
    rw [emitEff_eq, ← h.cores d hd, hc]
    exact coreAt_modCore_ne _ _ hd
  · rw [emitEff_eq, hc, coreAt_modCore_same]
    have := h.core
    rw [this, List.append_assoc]
  · intro m hm
    rw [emitEff_eq, hc]
    unfold seatAt
    rw [coreAt_modCore_same]
    exact h.seats m hm
  · rw [emitEff_eq, hc]
    unfold seatAt
    rw [coreAt_modCore_same]
    exact h.seat

/-- The record of the group changes. -/
theorem issued_onGrp {s t : State} {x : Seat} {es : List Eff} {g : Grp} (h : Issued s t x es g) (f : Grp → Grp) :
    Issued s (onGrp t f) x es (f g) := by
  have hc := (issued_cur h)
  refine ⟨?_, ?_, ?_, ?_, ?_⟩
  · rw [onGrp_eq]
    have := h.package
    rw [this]; rfl
  · intro d hd
    rw [onGrp_eq, ← h.cores d hd, hc]
    exact coreAt_modCore_ne _ _ hd
  · rw [onGrp_eq, hc, coreAt_modCore_same]
    have := h.core
    rw [this]
  · intro m hm
    rw [onGrp_eq, hc]
    unfold seatAt
    rw [coreAt_modCore_same]
    exact h.seats m hm
  · rw [onGrp_eq, hc]
    unfold seatAt
    rw [coreAt_modCore_same]
    exact h.seat

/-- Reading sources. -/
theorem issued_readSrcs (s : State) (l : List SSrc) : Issued s (readSrcs s l) (popped s l) [] (cc s).grp := by
  unfold readSrcs popped
  split
  · exact issued_onSeat (issued_refl s) _
  · exact issued_refl s

theorem issued_grp {s t : State} {x : Seat} {es : List Eff} {g : Grp} (h : Issued s t x es g) : (cc t).grp = g := by
  unfold cc; rw [(issued_cur h), h.core]

/-- An effect issued later in the same syllable is the one issued at its start, when the record's address and the trap enables are. -/
theorem issued_effOf {s t : State} {x : Seat} {es : List Eff} {g : Grp} (h : Issued s t x es g) (hg : (g.addr, g.bpc) = ((cc s).grp.addr, (cc s).grp.bpc))
    (hx : x.fpc = (cs s).fpc) (slot lat : Nat) (l : Land) : effOf t slot lat l 0 0 = lands s slot lat l := by
  obtain ⟨ha, hb⟩ := Prod.mk.inj hg
  unfold effOf lands bundleNo
  rw [(issued_cs h), (issued_cn h), (issued_grp h), ha, hb, hx]
  have : cc t = { cc s with seats := (coreAt t s.cur).seats, effs := (cc s).effs ++ es, grp := g } := by
    rw [← h.core, ← (issued_cur h)]; rfl
  rw [this]

/-- An effect put in flight at its native latency (R13). -/
theorem issued_emit {s t : State} {x : Seat} {es : List Eff} {g : Grp} (h : Issued s t x es g) (hg : (g.addr, g.bpc) = ((cc s).grp.addr, (cc s).grp.bpc))
    (hx : x.fpc = (cs s).fpc) (slot lat : Nat) (l : Land) :
    Issued s (emit t slot lat l) x (es ++ [lands s slot lat l]) g := by
  unfold emit
  rw [issued_effOf h hg hx]
  exact issued_emitEff h _

@[simp] theorem popped_fpc (s : State) (l : List SSrc) : (popped s l).fpc = (cs s).fpc := by unfold popped; split <;> rfl

@[simp] theorem reserved_fpc (x : Seat) (d : SDst) : (reserved x d).fpc = x.fpc := by unfold reserved; split <;> rfl

/-- A scalar result sent once sources have been read (R12, R77). -/
theorem issued_sendS {s t : State} {x : Seat} {es : List Eff} {g : Grp} (h : Issued s t x es g) (hg : (g.addr, g.bpc) = ((cc s).grp.addr, (cc s).grp.bpc))
    (hx : x.fpc = (cs s).fpc) (slot lat : Nat) (d : SDst) (v : Word) :
    Issued s (sendS t slot lat d v) (reserved x d) (es ++ [sends s slot lat d v]) g := by
  have key : ∀ (u : State) (y : Seat), Issued s u y es g → y.fpc = (cs s).fpc →
      Issued s (emit u slot lat (.sca (dstTo d) (latchOf slot) v)) y (es ++ [sends s slot lat d v]) g :=
    fun u y hu hy => issued_emit hu hg hy slot lat _
  unfold sendS sendTo reserved
  cases d with
  | reg n =>
    have hn : ¬ dstTo (SDst.reg n) = 62 := by have := n.isLt; simp only [dstTo]; omega
    have hf : ¬ SDst.reg n = SDst.fo := by simp
    simp only [hn, if_false, hf]
    exact key t x h hx
  | fo =>
    have hn : dstTo SDst.fo = 62 := rfl
    simp only [hn, if_true]
    exact key _ _ (issued_onSeat h fun y => { y with foRes := y.foRes + 1 }) hx
  | latch =>
    have hn : ¬ dstTo SDst.latch = 62 := by decide
    have hf : ¬ SDst.latch = SDst.fo := by simp
    simp only [hn, if_false, hf]
    exact key t x h hx

/-- A cause noted for the boundary after the group (R242). -/
theorem issued_addCause {s t : State} {x : Seat} {es : List Eff} {g : Grp} (h : Issued s t x es g) (hg : (g.addr, g.bpc) = ((cc s).grp.addr, (cc s).grp.bpc))
    (rank cause slot : Nat) (i0 i1 : Word) : Issued s (addCause t rank cause slot i0 i1) (causes s x rank cause slot i0 i1) es g := by
  have := issued_onSeat h fun t => { t with causes := t.causes ++ [⟨rank, cause, slot, (cc s).grp.addr, i0, i1⟩] }
  unfold addCause
  rw [(issued_grp h), (Prod.mk.inj hg).1]
  exact this

/-- A meaning that reads its sources and sends a result does that and nothing else. -/
theorem results_send {i : Instr} {s : State} {l : List SSrc} {slot lat : Nat} {d : SDst} {v : Word}
    (h : exec i s = .next (sendS (readSrcs s l) slot lat d v)) : Results i s l slot lat d v :=
  ⟨_, h, by simpa using issued_sendS (issued_readSrcs s l) rfl (by simp) slot lat d v⟩

/-- A meaning without sources that sends a result does that and nothing else. -/
theorem results_send_nil {i : Instr} {s : State} {slot lat : Nat} {d : SDst} {v : Word}
    (h : exec i s = .next (sendS s slot lat d v)) : Results i s [] slot lat d v :=
  ⟨_, h, by simpa [popped, anyFi] using issued_sendS (issued_refl s) rfl rfl slot lat d v⟩

/-! ### From a meaning to what it does -/

/-- A meaning without scalar sources. -/
theorem does_nil {i : Instr} {s : State} {f : State → State} {x : Seat} {es : List Eff} {g : Grp} (hi : exec i s = .next (f s))
    (k : ∀ t, Issued s t (cs s) [] (cc s).grp → Issued s (f t) x es g) : Does i s x es g :=
  ⟨_, hi, k s (issued_refl s)⟩

/-- A meaning that reads one source. -/
theorem does_one {i : Instr} {s : State} {slot : Nat} {a : SSrc} {f : Word → State → State} {x : Seat} {es : List Eff} {g : Grp}
    (h : Readable s [a]) (hi : exec i s = .next (withSrcs s slot [a] fun v s => f (v a) s))
    (k : ∀ t, Issued s t (popped s [a]) [] (cc s).grp → Issued s (f (srcAt s a) t) x es g) : Does i s x es g :=
  ⟨_, by rw [hi, withSrcs_one h], k _ (issued_readSrcs s [a])⟩

/-- A meaning that reads two sources. -/
theorem does_two {i : Instr} {s : State} {slot : Nat} {a b : SSrc} {f : Word → Word → State → State} {x : Seat} {es : List Eff}
    {g : Grp} (h : Readable s [a, b]) (hi : exec i s = .next (withSrcs s slot [a, b] fun v s => f (v a) (v b) s))
    (k : ∀ t, Issued s t (popped s [a, b]) [] (cc s).grp → Issued s (f (srcAt s a) (srcAt s b) t) x es g) : Does i s x es g :=
  ⟨_, by rw [hi, withSrcs_two h], k _ (issued_readSrcs s [a, b])⟩

/-- A meaning that reads three sources. -/
theorem does_three {i : Instr} {s : State} {slot : Nat} {a b c : SSrc} {f : Word → Word → Word → State → State} {x : Seat}
    {es : List Eff} {g : Grp} (h : Readable s [a, b, c])
    (hi : exec i s = .next (withSrcs s slot [a, b, c] fun v s => f (v a) (v b) (v c) s))
    (k : ∀ t, Issued s t (popped s [a, b, c]) [] (cc s).grp →
      Issued s (f (srcAt s a) (srcAt s b) (srcAt s c) t) x es g) : Does i s x es g :=
  ⟨_, by rw [hi, withSrcs_three h], k _ (issued_readSrcs s [a, b, c])⟩

/-- The latency of the bundle's version, and the freezes it asks for (R63). -/
theorem issued_compat {s t : State} {x : Seat} {es : List Eff} (h : Issued s t x es (cc s).grp) (ln lc : Nat) :
    (compat t ln lc).1 = latencyOf s ln lc ∧ Issued s (compat t ln lc).2 x es (slower (cc s).grp (ln - lc)) := by
  unfold compat latencyOf slower
  rw [issued_grp h]
  split
  · exact ⟨rfl, issued_onGrp h fun g => { g with v1hold := max g.v1hold (ln - lc) }⟩
  · exact ⟨rfl, h⟩

@[simp] theorem slower_addr (g : Grp) (n : Nat) : (slower g n).addr = g.addr := by unfold slower; split <;> rfl

@[simp] theorem slower_bpc (g : Grp) (n : Nat) : (slower g n).bpc = g.bpc := by unfold slower; split <;> rfl

/-- The seat after its sources have been read differs in `fi` alone. -/
theorem popped_eq (s : State) (l : List SSrc) : popped s l = { cs s with fi := (popped s l).fi } := by
  unfold popped; split <;> rfl

theorem rdstTo_eq (d : RDst) : rdstTo d = dstTo (destOf d) := by cases d <;> rfl

theorem rdstVal_popped (s : State) (l : List SSrc) (d : RDst) : rdstVal (popped s l) d = oldOf s d := by
  rw [popped_eq]
  cases d with
  | reg n => rfl
  | latch => rfl

end Sys2Proof.Laws
end

