-- ==== Sys2Proof/Laws/PerInstr.lean ====
section
/-!
SUPPORT. Statements made for every instruction, with one lemma for each constructor.  ROUND TRIP: the word that the encoder gives a
well-formed syllable is read back, in the slot the syllable stands in, as that syllable (R57, R64 to R69).
-/
set_option linter.unusedSimpArgs false

namespace Sys2Proof.Laws

open Sys2Proof

/-- The word of a well-formed syllable reads as that syllable in its slot (a step without an encoding has no word). -/
def RoundTrip.Statement (i : Instr) : Prop :=
  i.wf = true → ∀ s w, slotOf i = some s → encode i = some w → decSyl 0 s w = .ok i

theorem RoundTrip.add (u : SSlot) (d : SDst) (a : SSrc) (b : SSrc) : RoundTrip.Statement (.add u d a b) := by
  intro hwf sl wd hs hw
  replace hw : encDAB 0x00 d a b 0 = wd := Option.some.inj hw
  have hd : decSlot sl wd = decS u wd := by
    cases u with
    | s0 => obtain rfl : 0 = sl := Option.some.inj hs; rfl
    | s1 => obtain rfl : 1 = sl := Option.some.inj hs; rfl
  refine decSyl_zero (hd.trans ?_)
  have b0 := dstCode_lt d
  have b1 := dstW_lt d
  have b2 := srcCode_lt a
  have b3 := srcCode_lt b
  obtain ⟨f5, f4, f3, f2, f1, f0⟩ := encDAB_fields hw (by decide) (by omega)
  unfold decS
  rw [f5]
  show (decSR wd (.add u) : Except Nat Instr) = _
  simp [decSR, f0, f1, f2, f3, f4, f5, fldB, guarded]

theorem RoundTrip.addi (u : SSlot) (d : SDst) (a : SSrc) (i : BitVec 13) : RoundTrip.Statement (.addi u d a i) := by
  intro hwf sl wd hs hw
  replace hw : encDAI 0x20 d a i = wd := Option.some.inj hw
  have hd : decSlot sl wd = decS u wd := by
    cases u with
    | s0 => obtain rfl : 0 = sl := Option.some.inj hs; rfl
    | s1 => obtain rfl : 1 = sl := Option.some.inj hs; rfl
  refine decSyl_zero (hd.trans ?_)
  have b0 := dstCode_lt d
  have b1 := dstW_lt d
  have b2 := srcCode_lt a
  have b3 := i.isLt
  obtain ⟨f4, f3, f2, f1, f0⟩ := encDAI_fields hw (by decide)
  unfold decS
  rw [f4]
  show (decSI wd (.addi u) : Except Nat Instr) = _
  simp [decSI, f0, f1, f2, f3, f4, fldB, guarded]

theorem RoundTrip.sub (u : SSlot) (d : SDst) (a : SSrc) (b : SSrc) : RoundTrip.Statement (.sub u d a b) := by
  intro hwf sl wd hs hw
  replace hw : encDAB 0x01 d a b 0 = wd := Option.some.inj hw
  have hd : decSlot sl wd = decS u wd := by
    cases u with
    | s0 => obtain rfl : 0 = sl := Option.some.inj hs; rfl
    | s1 => obtain rfl : 1 = sl := Option.some.inj hs; rfl
  refine decSyl_zero (hd.trans ?_)
  have b0 := dstCode_lt d
  have b1 := dstW_lt d
  have b2 := srcCode_lt a
  have b3 := srcCode_lt b
  obtain ⟨f5, f4, f3, f2, f1, f0⟩ := encDAB_fields hw (by decide) (by omega)
  unfold decS
  rw [f5]
  show (decSR wd (.sub u) : Except Nat Instr) = _
  simp [decSR, f0, f1, f2, f3, f4, f5, fldB, guarded]

theorem RoundTrip.mul (u : SSlot) (d : SDst) (a : SSrc) (b : SSrc) : RoundTrip.Statement (.mul u d a b) := by
  intro hwf sl wd hs hw
  replace hw : encDAB 0x02 d a b 0 = wd := Option.some.inj hw
  have hd : decSlot sl wd = decS u wd := by
    cases u with
    | s0 => obtain rfl : 0 = sl := Option.some.inj hs; rfl
    | s1 => obtain rfl : 1 = sl := Option.some.inj hs; rfl
  refine decSyl_zero (hd.trans ?_)
  have b0 := dstCode_lt d
  have b1 := dstW_lt d
  have b2 := srcCode_lt a
  have b3 := srcCode_lt b
  obtain ⟨f5, f4, f3, f2, f1, f0⟩ := encDAB_fields hw (by decide) (by omega)
  unfold decS
  rw [f5]
  show (decSR wd (.mul u) : Except Nat Instr) = _
  simp [decSR, f0, f1, f2, f3, f4, f5, fldB, guarded]

theorem RoundTrip.muli (u : SSlot) (d : SDst) (a : SSrc) (i : BitVec 13) : RoundTrip.Statement (.muli u d a i) := by
  intro hwf sl wd hs hw
  replace hw : encDAI 0x22 d a i = wd := Option.some.inj hw
  have hd : decSlot sl wd = decS u wd := by
    cases u with
    | s0 => obtain rfl : 0 = sl := Option.some.inj hs; rfl
    | s1 => obtain rfl : 1 = sl := Option.some.inj hs; rfl
  refine decSyl_zero (hd.trans ?_)
  have b0 := dstCode_lt d
  have b1 := dstW_lt d
  have b2 := srcCode_lt a
  have b3 := i.isLt
  obtain ⟨f4, f3, f2, f1, f0⟩ := encDAI_fields hw (by decide)
  unfold decS
  rw [f4]
  show (decSI wd (.muli u) : Except Nat Instr) = _
  simp [decSI, f0, f1, f2, f3, f4, fldB, guarded]

theorem RoundTrip.mulh (u : SSlot) (d : SDst) (a : SSrc) (b : SSrc) : RoundTrip.Statement (.mulh u d a b) := by
  intro hwf sl wd hs hw
  replace hw : encDAB 0x03 d a b 0 = wd := Option.some.inj hw
  have hd : decSlot sl wd = decS u wd := by
    cases u with
    | s0 => obtain rfl : 0 = sl := Option.some.inj hs; rfl
    | s1 => obtain rfl : 1 = sl := Option.some.inj hs; rfl
  refine decSyl_zero (hd.trans ?_)
  have b0 := dstCode_lt d
  have b1 := dstW_lt d
  have b2 := srcCode_lt a
  have b3 := srcCode_lt b
  obtain ⟨f5, f4, f3, f2, f1, f0⟩ := encDAB_fields hw (by decide) (by omega)
  unfold decS
  rw [f5]
  show (decSR wd (.mulh u) : Except Nat Instr) = _
  simp [decSR, f0, f1, f2, f3, f4, f5, fldB, guarded]

theorem RoundTrip.mulhn (u : SSlot) (d : SDst) (a : SSrc) (b : SSrc) : RoundTrip.Statement (.mulhn u d a b) := by
  intro hwf sl wd hs hw
  replace hw : encDAB 0x04 d a b 0 = wd := Option.some.inj hw
  have hd : decSlot sl wd = decS u wd := by
    cases u with
    | s0 => obtain rfl : 0 = sl := Option.some.inj hs; rfl
    | s1 => obtain rfl : 1 = sl := Option.some.inj hs; rfl
  refine decSyl_zero (hd.trans ?_)
  have b0 := dstCode_lt d
  have b1 := dstW_lt d
  have b2 := srcCode_lt a
  have b3 := srcCode_lt b
  obtain ⟨f5, f4, f3, f2, f1, f0⟩ := encDAB_fields hw (by decide) (by omega)
  unfold decS
  rw [f5]
  show (decSR wd (.mulhn u) : Except Nat Instr) = _
  simp [decSR, f0, f1, f2, f3, f4, f5, fldB, guarded]

theorem RoundTrip.div (u : SSlot) (d : SDst) (a : SSrc) (b : SSrc) : RoundTrip.Statement (.div u d a b) := by
  intro hwf sl wd hs hw
  replace hw : encDAB 0x05 d a b 0 = wd := Option.some.inj hw
  have hd : decSlot sl wd = decS u wd := by
    cases u with
    | s0 => obtain rfl : 0 = sl := Option.some.inj hs; rfl
    | s1 => obtain rfl : 1 = sl := Option.some.inj hs; rfl
  refine decSyl_zero (hd.trans ?_)
  have b0 := dstCode_lt d
  have b1 := dstW_lt d
  have b2 := srcCode_lt a
  have b3 := srcCode_lt b
  obtain ⟨f5, f4, f3, f2, f1, f0⟩ := encDAB_fields hw (by decide) (by omega)
  unfold decS
  rw [f5]
  show (decSR wd (.div u) : Except Nat Instr) = _
  simp [decSR, f0, f1, f2, f3, f4, f5, fldB, guarded]

theorem RoundTrip.divn (u : SSlot) (d : SDst) (a : SSrc) (b : SSrc) : RoundTrip.Statement (.divn u d a b) := by
  intro hwf sl wd hs hw
  replace hw : encDAB 0x06 d a b 0 = wd := Option.some.inj hw
  have hd : decSlot sl wd = decS u wd := by
    cases u with
    | s0 => obtain rfl : 0 = sl := Option.some.inj hs; rfl
    | s1 => obtain rfl : 1 = sl := Option.some.inj hs; rfl
  refine decSyl_zero (hd.trans ?_)
  have b0 := dstCode_lt d
  have b1 := dstW_lt d
  have b2 := srcCode_lt a
  have b3 := srcCode_lt b
  obtain ⟨f5, f4, f3, f2, f1, f0⟩ := encDAB_fields hw (by decide) (by omega)
  unfold decS
  rw [f5]
  show (decSR wd (.divn u) : Except Nat Instr) = _
  simp [decSR, f0, f1, f2, f3, f4, f5, fldB, guarded]

theorem RoundTrip.rem (u : SSlot) (d : SDst) (a : SSrc) (b : SSrc) : RoundTrip.Statement (.rem u d a b) := by
  intro hwf sl wd hs hw
  replace hw : encDAB 0x07 d a b 0 = wd := Option.some.inj hw
  have hd : decSlot sl wd = decS u wd := by
    cases u with
    | s0 => obtain rfl : 0 = sl := Option.some.inj hs; rfl
    | s1 => obtain rfl : 1 = sl := Option.some.inj hs; rfl
  refine decSyl_zero (hd.trans ?_)
  have b0 := dstCode_lt d
  have b1 := dstW_lt d
  have b2 := srcCode_lt a
  have b3 := srcCode_lt b
  obtain ⟨f5, f4, f3, f2, f1, f0⟩ := encDAB_fields hw (by decide) (by omega)
  unfold decS
  rw [f5]
  show (decSR wd (.rem u) : Except Nat Instr) = _
  simp [decSR, f0, f1, f2, f3, f4, f5, fldB, guarded]

theorem RoundTrip.remn (u : SSlot) (d : SDst) (a : SSrc) (b : SSrc) : RoundTrip.Statement (.remn u d a b) := by
  intro hwf sl wd hs hw
  replace hw : encDAB 0x08 d a b 0 = wd := Option.some.inj hw
  have hd : decSlot sl wd = decS u wd := by
    cases u with
    | s0 => obtain rfl : 0 = sl := Option.some.inj hs; rfl
    | s1 => obtain rfl : 1 = sl := Option.some.inj hs; rfl
  refine decSyl_zero (hd.trans ?_)
  have b0 := dstCode_lt d
  have b1 := dstW_lt d
  have b2 := srcCode_lt a
  have b3 := srcCode_lt b
  obtain ⟨f5, f4, f3, f2, f1, f0⟩ := encDAB_fields hw (by decide) (by omega)
  unfold decS
  rw [f5]
  show (decSR wd (.remn u) : Except Nat Instr) = _
  simp [decSR, f0, f1, f2, f3, f4, f5, fldB, guarded]

theorem RoundTrip.and (u : SSlot) (d : SDst) (a : SSrc) (b : SSrc) : RoundTrip.Statement (.and u d a b) := by
  intro hwf sl wd hs hw
  replace hw : encDAB 0x09 d a b 0 = wd := Option.some.inj hw
  have hd : decSlot sl wd = decS u wd := by
    cases u with
    | s0 => obtain rfl : 0 = sl := Option.some.inj hs; rfl
    | s1 => obtain rfl : 1 = sl := Option.some.inj hs; rfl
  refine decSyl_zero (hd.trans ?_)
  have b0 := dstCode_lt d
  have b1 := dstW_lt d
  have b2 := srcCode_lt a
  have b3 := srcCode_lt b
  obtain ⟨f5, f4, f3, f2, f1, f0⟩ := encDAB_fields hw (by decide) (by omega)
  unfold decS
  rw [f5]
  show (decSR wd (.and u) : Except Nat Instr) = _
  simp [decSR, f0, f1, f2, f3, f4, f5, fldB, guarded]

theorem RoundTrip.andi (u : SSlot) (d : SDst) (a : SSrc) (i : BitVec 13) : RoundTrip.Statement (.andi u d a i) := by
  intro hwf sl wd hs hw
  replace hw : encDAI 0x29 d a i = wd := Option.some.inj hw
  have hd : decSlot sl wd = decS u wd := by
    cases u with
    | s0 => obtain rfl : 0 = sl := Option.some.inj hs; rfl
    | s1 => obtain rfl : 1 = sl := Option.some.inj hs; rfl
  refine decSyl_zero (hd.trans ?_)
  have b0 := dstCode_lt d
  have b1 := dstW_lt d
  have b2 := srcCode_lt a
  have b3 := i.isLt
  obtain ⟨f4, f3, f2, f1, f0⟩ := encDAI_fields hw (by decide)
  unfold decS
  rw [f4]
  show (decSI wd (.andi u) : Except Nat Instr) = _
  simp [decSI, f0, f1, f2, f3, f4, fldB, guarded]

theorem RoundTrip.or (u : SSlot) (d : SDst) (a : SSrc) (b : SSrc) : RoundTrip.Statement (.or u d a b) := by
  intro hwf sl wd hs hw
  replace hw : encDAB 0x0A d a b 0 = wd := Option.some.inj hw
  have hd : decSlot sl wd = decS u wd := by
    cases u with
    | s0 => obtain rfl : 0 = sl := Option.some.inj hs; rfl
    | s1 => obtain rfl : 1 = sl := Option.some.inj hs; rfl
  refine decSyl_zero (hd.trans ?_)
  have b0 := dstCode_lt d
  have b1 := dstW_lt d
  have b2 := srcCode_lt a
  have b3 := srcCode_lt b
  obtain ⟨f5, f4, f3, f2, f1, f0⟩ := encDAB_fields hw (by decide) (by omega)
  unfold decS
  rw [f5]
  show (decSR wd (.or u) : Except Nat Instr) = _
  simp [decSR, f0, f1, f2, f3, f4, f5, fldB, guarded]

theorem RoundTrip.ori (u : SSlot) (d : SDst) (a : SSrc) (i : BitVec 13) : RoundTrip.Statement (.ori u d a i) := by
  intro hwf sl wd hs hw
  replace hw : encDAI 0x2A d a i = wd := Option.some.inj hw
  have hd : decSlot sl wd = decS u wd := by
    cases u with
    | s0 => obtain rfl : 0 = sl := Option.some.inj hs; rfl
    | s1 => obtain rfl : 1 = sl := Option.some.inj hs; rfl
  refine decSyl_zero (hd.trans ?_)
  have b0 := dstCode_lt d
  have b1 := dstW_lt d
  have b2 := srcCode_lt a
  have b3 := i.isLt
  obtain ⟨f4, f3, f2, f1, f0⟩ := encDAI_fields hw (by decide)
  unfold decS
  rw [f4]
  show (decSI wd (.ori u) : Except Nat Instr) = _
  simp [decSI, f0, f1, f2, f3, f4, fldB, guarded]

theorem RoundTrip.xor (u : SSlot) (d : SDst) (a : SSrc) (b : SSrc) : RoundTrip.Statement (.xor u d a b) := by
  intro hwf sl wd hs hw
  replace hw : encDAB 0x0B d a b 0 = wd := Option.some.inj hw
  have hd : decSlot sl wd = decS u wd := by
    cases u with
    | s0 => obtain rfl : 0 = sl := Option.some.inj hs; rfl
    | s1 => obtain rfl : 1 = sl := Option.some.inj hs; rfl
  refine decSyl_zero (hd.trans ?_)
  have b0 := dstCode_lt d
  have b1 := dstW_lt d
  have b2 := srcCode_lt a
  have b3 := srcCode_lt b
  obtain ⟨f5, f4, f3, f2, f1, f0⟩ := encDAB_fields hw (by decide) (by omega)
  unfold decS
  rw [f5]
  show (decSR wd (.xor u) : Except Nat Instr) = _
  simp [decSR, f0, f1, f2, f3, f4, f5, fldB, guarded]

theorem RoundTrip.xori (u : SSlot) (d : SDst) (a : SSrc) (i : BitVec 13) : RoundTrip.Statement (.xori u d a i) := by
  intro hwf sl wd hs hw
  replace hw : encDAI 0x2B d a i = wd := Option.some.inj hw
  have hd : decSlot sl wd = decS u wd := by
    cases u with
    | s0 => obtain rfl : 0 = sl := Option.some.inj hs; rfl
    | s1 => obtain rfl : 1 = sl := Option.some.inj hs; rfl
  refine decSyl_zero (hd.trans ?_)
  have b0 := dstCode_lt d
  have b1 := dstW_lt d
  have b2 := srcCode_lt a
  have b3 := i.isLt
  obtain ⟨f4, f3, f2, f1, f0⟩ := encDAI_fields hw (by decide)
  unfold decS
  rw [f4]
  show (decSI wd (.xori u) : Except Nat Instr) = _
  simp [decSI, f0, f1, f2, f3, f4, fldB, guarded]

theorem RoundTrip.andn (u : SSlot) (d : SDst) (a : SSrc) (b : SSrc) : RoundTrip.Statement (.andn u d a b) := by
  intro hwf sl wd hs hw
  replace hw : encDAB 0x0C d a b 0 = wd := Option.some.inj hw
  have hd : decSlot sl wd = decS u wd := by
    cases u with
    | s0 => obtain rfl : 0 = sl := Option.some.inj hs; rfl
    | s1 => obtain rfl : 1 = sl := Option.some.inj hs; rfl
  refine decSyl_zero (hd.trans ?_)
  have b0 := dstCode_lt d
  have b1 := dstW_lt d
  have b2 := srcCode_lt a
  have b3 := srcCode_lt b
  obtain ⟨f5, f4, f3, f2, f1, f0⟩ := encDAB_fields hw (by decide) (by omega)
  unfold decS
  rw [f5]
  show (decSR wd (.andn u) : Except Nat Instr) = _
  simp [decSR, f0, f1, f2, f3, f4, f5, fldB, guarded]

theorem RoundTrip.shl (u : SSlot) (d : SDst) (a : SSrc) (b : SSrc) : RoundTrip.Statement (.shl u d a b) := by
  intro hwf sl wd hs hw
  replace hw : encDAB 0x0D d a b 0 = wd := Option.some.inj hw
  have hd : decSlot sl wd = decS u wd := by
    cases u with
    | s0 => obtain rfl : 0 = sl := Option.some.inj hs; rfl
    | s1 => obtain rfl : 1 = sl := Option.some.inj hs; rfl
  refine decSyl_zero (hd.trans ?_)
  have b0 := dstCode_lt d
  have b1 := dstW_lt d
  have b2 := srcCode_lt a
  have b3 := srcCode_lt b
  obtain ⟨f5, f4, f3, f2, f1, f0⟩ := encDAB_fields hw (by decide) (by omega)
  unfold decS
  rw [f5]
  show (decSR wd (.shl u) : Except Nat Instr) = _
  simp [decSR, f0, f1, f2, f3, f4, f5, fldB, guarded]

theorem RoundTrip.shli (u : SSlot) (d : SDst) (a : SSrc) (i : BitVec 13) : RoundTrip.Statement (.shli u d a i) := by
  intro hwf sl wd hs hw
  replace hw : encDAI 0x2D d a i = wd := Option.some.inj hw
  have hd : decSlot sl wd = decS u wd := by
    cases u with
    | s0 => obtain rfl : 0 = sl := Option.some.inj hs; rfl
    | s1 => obtain rfl : 1 = sl := Option.some.inj hs; rfl
  refine decSyl_zero (hd.trans ?_)
  have b0 := dstCode_lt d
  have b1 := dstW_lt d
  have b2 := srcCode_lt a
  have b3 := i.isLt
  obtain ⟨f4, f3, f2, f1, f0⟩ := encDAI_fields hw (by decide)
  replace hwf : (decide (i.toNat ≤ 63)) = true := hwf
  try simp only [decide_eq_true_eq, Bool.and_eq_true, Bool.or_eq_true, Bool.not_eq_true', seqFields] at hwf
  unfold decS
  rw [f4]
  show (decSSh wd (.shli u) : Except Nat Instr) = _
  simp [decSSh, f0, f1, f2, f3, f4, fldB, guarded, hwf]

theorem RoundTrip.shr (u : SSlot) (d : SDst) (a : SSrc) (b : SSrc) : RoundTrip.Statement (.shr u d a b) := by
  intro hwf sl wd hs hw
  replace hw : encDAB 0x0E d a b 0 = wd := Option.some.inj hw
  have hd : decSlot sl wd = decS u wd := by
    cases u with
    | s0 => obtain rfl : 0 = sl := Option.some.inj hs; rfl
    | s1 => obtain rfl : 1 = sl := Option.some.inj hs; rfl
  refine decSyl_zero (hd.trans ?_)
  have b0 := dstCode_lt d
  have b1 := dstW_lt d
  have b2 := srcCode_lt a
  have b3 := srcCode_lt b
  obtain ⟨f5, f4, f3, f2, f1, f0⟩ := encDAB_fields hw (by decide) (by omega)
  unfold decS
  rw [f5]
  show (decSR wd (.shr u) : Except Nat Instr) = _
  simp [decSR, f0, f1, f2, f3, f4, f5, fldB, guarded]

theorem RoundTrip.shri (u : SSlot) (d : SDst) (a : SSrc) (i : BitVec 13) : RoundTrip.Statement (.shri u d a i) := by
  intro hwf sl wd hs hw
  replace hw : encDAI 0x2E d a i = wd := Option.some.inj hw
  have hd : decSlot sl wd = decS u wd := by
    cases u with
    | s0 => obtain rfl : 0 = sl := Option.some.inj hs; rfl
    | s1 => obtain rfl : 1 = sl := Option.some.inj hs; rfl
  refine decSyl_zero (hd.trans ?_)
  have b0 := dstCode_lt d
  have b1 := dstW_lt d
  have b2 := srcCode_lt a
  have b3 := i.isLt
  obtain ⟨f4, f3, f2, f1, f0⟩ := encDAI_fields hw (by decide)
  replace hwf : (decide (i.toNat ≤ 63)) = true := hwf
  try simp only [decide_eq_true_eq, Bool.and_eq_true, Bool.or_eq_true, Bool.not_eq_true', seqFields] at hwf
  unfold decS
  rw [f4]
  show (decSSh wd (.shri u) : Except Nat Instr) = _
  simp [decSSh, f0, f1, f2, f3, f4, fldB, guarded, hwf]

theorem RoundTrip.sra (u : SSlot) (d : SDst) (a : SSrc) (b : SSrc) : RoundTrip.Statement (.sra u d a b) := by
  intro hwf sl wd hs hw
  replace hw : encDAB 0x0F d a b 0 = wd := Option.some.inj hw
  have hd : decSlot sl wd = decS u wd := by
    cases u with
    | s0 => obtain rfl : 0 = sl := Option.some.inj hs; rfl
    | s1 => obtain rfl : 1 = sl := Option.some.inj hs; rfl
  refine decSyl_zero (hd.trans ?_)
  have b0 := dstCode_lt d
  have b1 := dstW_lt d
  have b2 := srcCode_lt a
  have b3 := srcCode_lt b
  obtain ⟨f5, f4, f3, f2, f1, f0⟩ := encDAB_fields hw (by decide) (by omega)
  unfold decS
  rw [f5]
  show (decSR wd (.sra u) : Except Nat Instr) = _
  simp [decSR, f0, f1, f2, f3, f4, f5, fldB, guarded]

theorem RoundTrip.srai (u : SSlot) (d : SDst) (a : SSrc) (i : BitVec 13) : RoundTrip.Statement (.srai u d a i) := by
  intro hwf sl wd hs hw
  replace hw : encDAI 0x2F d a i = wd := Option.some.inj hw
  have hd : decSlot sl wd = decS u wd := by
    cases u with
    | s0 => obtain rfl : 0 = sl := Option.some.inj hs; rfl
    | s1 => obtain rfl : 1 = sl := Option.some.inj hs; rfl
  refine decSyl_zero (hd.trans ?_)
  have b0 := dstCode_lt d
  have b1 := dstW_lt d
  have b2 := srcCode_lt a
  have b3 := i.isLt
  obtain ⟨f4, f3, f2, f1, f0⟩ := encDAI_fields hw (by decide)
  replace hwf : (decide (i.toNat ≤ 63)) = true := hwf
  try simp only [decide_eq_true_eq, Bool.and_eq_true, Bool.or_eq_true, Bool.not_eq_true', seqFields] at hwf
  unfold decS
  rw [f4]
  show (decSSh wd (.srai u) : Except Nat Instr) = _
  simp [decSSh, f0, f1, f2, f3, f4, fldB, guarded, hwf]

theorem RoundTrip.seq (u : SSlot) (d : SDst) (a : SSrc) (b : SSrc) : RoundTrip.Statement (.seq u d a b) := by
  intro hwf sl wd hs hw
  replace hw : encDAB 0x10 d a b 0 = wd := Option.some.inj hw
  have hd : decSlot sl wd = decS u wd := by
    cases u with
    | s0 => obtain rfl : 0 = sl := Option.some.inj hs; rfl
    | s1 => obtain rfl : 1 = sl := Option.some.inj hs; rfl
  refine decSyl_zero (hd.trans ?_)
  have b0 := dstCode_lt d
  have b1 := dstW_lt d
  have b2 := srcCode_lt a
  have b3 := srcCode_lt b
  obtain ⟨f5, f4, f3, f2, f1, f0⟩ := encDAB_fields hw (by decide) (by omega)
  unfold decS
  rw [f5]
  show (decSR wd (.seq u) : Except Nat Instr) = _
  simp [decSR, f0, f1, f2, f3, f4, f5, fldB, guarded]

theorem RoundTrip.slt (u : SSlot) (d : SDst) (a : SSrc) (b : SSrc) : RoundTrip.Statement (.slt u d a b) := by
  intro hwf sl wd hs hw
  replace hw : encDAB 0x11 d a b 0 = wd := Option.some.inj hw
  have hd : decSlot sl wd = decS u wd := by
    cases u with
    | s0 => obtain rfl : 0 = sl := Option.some.inj hs; rfl
    | s1 => obtain rfl : 1 = sl := Option.some.inj hs; rfl
  refine decSyl_zero (hd.trans ?_)
  have b0 := dstCode_lt d
  have b1 := dstW_lt d
  have b2 := srcCode_lt a
  have b3 := srcCode_lt b
  obtain ⟨f5, f4, f3, f2, f1, f0⟩ := encDAB_fields hw (by decide) (by omega)
  unfold decS
  rw [f5]
  show (decSR wd (.slt u) : Except Nat Instr) = _
  simp [decSR, f0, f1, f2, f3, f4, f5, fldB, guarded]

theorem RoundTrip.slti (u : SSlot) (d : SDst) (a : SSrc) (i : BitVec 13) : RoundTrip.Statement (.slti u d a i) := by
  intro hwf sl wd hs hw
  replace hw : encDAI 0x31 d a i = wd := Option.some.inj hw
  have hd : decSlot sl wd = decS u wd := by
    cases u with
    | s0 => obtain rfl : 0 = sl := Option.some.inj hs; rfl
    | s1 => obtain rfl : 1 = sl := Option.some.inj hs; rfl
  refine decSyl_zero (hd.trans ?_)
  have b0 := dstCode_lt d
  have b1 := dstW_lt d
  have b2 := srcCode_lt a
  have b3 := i.isLt
  obtain ⟨f4, f3, f2, f1, f0⟩ := encDAI_fields hw (by decide)
  unfold decS
  rw [f4]
  show (decSI wd (.slti u) : Except Nat Instr) = _
  simp [decSI, f0, f1, f2, f3, f4, fldB, guarded]

theorem RoundTrip.sltn (u : SSlot) (d : SDst) (a : SSrc) (b : SSrc) : RoundTrip.Statement (.sltn u d a b) := by
  intro hwf sl wd hs hw
  replace hw : encDAB 0x12 d a b 0 = wd := Option.some.inj hw
  have hd : decSlot sl wd = decS u wd := by
    cases u with
    | s0 => obtain rfl : 0 = sl := Option.some.inj hs; rfl
    | s1 => obtain rfl : 1 = sl := Option.some.inj hs; rfl
  refine decSyl_zero (hd.trans ?_)
  have b0 := dstCode_lt d
  have b1 := dstW_lt d
  have b2 := srcCode_lt a
  have b3 := srcCode_lt b
  obtain ⟨f5, f4, f3, f2, f1, f0⟩ := encDAB_fields hw (by decide) (by omega)
  unfold decS
  rw [f5]
  show (decSR wd (.sltn u) : Except Nat Instr) = _
  simp [decSR, f0, f1, f2, f3, f4, f5, fldB, guarded]

theorem RoundTrip.min (u : SSlot) (d : SDst) (a : SSrc) (b : SSrc) : RoundTrip.Statement (.min u d a b) := by
  intro hwf sl wd hs hw
  replace hw : encDAB 0x13 d a b 0 = wd := Option.some.inj hw
  have hd : decSlot sl wd = decS u wd := by
    cases u with
    | s0 => obtain rfl : 0 = sl := Option.some.inj hs; rfl
    | s1 => obtain rfl : 1 = sl := Option.some.inj hs; rfl
  refine decSyl_zero (hd.trans ?_)
  have b0 := dstCode_lt d
  have b1 := dstW_lt d
  have b2 := srcCode_lt a
  have b3 := srcCode_lt b
  obtain ⟨f5, f4, f3, f2, f1, f0⟩ := encDAB_fields hw (by decide) (by omega)
  unfold decS
  rw [f5]
  show (decSR wd (.min u) : Except Nat Instr) = _
  simp [decSR, f0, f1, f2, f3, f4, f5, fldB, guarded]

theorem RoundTrip.max (u : SSlot) (d : SDst) (a : SSrc) (b : SSrc) : RoundTrip.Statement (.max u d a b) := by
  intro hwf sl wd hs hw
  replace hw : encDAB 0x14 d a b 0 = wd := Option.some.inj hw
  have hd : decSlot sl wd = decS u wd := by
    cases u with
    | s0 => obtain rfl : 0 = sl := Option.some.inj hs; rfl
    | s1 => obtain rfl : 1 = sl := Option.some.inj hs; rfl
  refine decSyl_zero (hd.trans ?_)
  have b0 := dstCode_lt d
  have b1 := dstW_lt d
  have b2 := srcCode_lt a
  have b3 := srcCode_lt b
  obtain ⟨f5, f4, f3, f2, f1, f0⟩ := encDAB_fields hw (by decide) (by omega)
  unfold decS
  rw [f5]
  show (decSR wd (.max u) : Except Nat Instr) = _
  simp [decSR, f0, f1, f2, f3, f4, f5, fldB, guarded]

theorem RoundTrip.maxi (u : SSlot) (d : SDst) (a : SSrc) (i : BitVec 13) : RoundTrip.Statement (.maxi u d a i) := by
  intro hwf sl wd hs hw
  replace hw : encDAI 0x34 d a i = wd := Option.some.inj hw
  have hd : decSlot sl wd = decS u wd := by
    cases u with
    | s0 => obtain rfl : 0 = sl := Option.some.inj hs; rfl
    | s1 => obtain rfl : 1 = sl := Option.some.inj hs; rfl
  refine decSyl_zero (hd.trans ?_)
  have b0 := dstCode_lt d
  have b1 := dstW_lt d
  have b2 := srcCode_lt a
  have b3 := i.isLt
  obtain ⟨f4, f3, f2, f1, f0⟩ := encDAI_fields hw (by decide)
  unfold decS
  rw [f4]
  show (decSI wd (.maxi u) : Except Nat Instr) = _
  simp [decSI, f0, f1, f2, f3, f4, fldB, guarded]

theorem RoundTrip.sel (u : SSlot) (d : SDst) (a : SSrc) (b : SSrc) (c : SSrc) : RoundTrip.Statement (.sel u d a b c) := by
  intro hwf sl wd hs hw
  replace hw : encDAB 0x15 d a b (srcCode c * 2) = wd := Option.some.inj hw
  have hd : decSlot sl wd = decS u wd := by
    cases u with
    | s0 => obtain rfl : 0 = sl := Option.some.inj hs; rfl
    | s1 => obtain rfl : 1 = sl := Option.some.inj hs; rfl
  refine decSyl_zero (hd.trans ?_)
  have b0 := dstCode_lt d
  have b1 := dstW_lt d
  have b2 := srcCode_lt a
  have b3 := srcCode_lt b
  have b4 := srcCode_lt c
  obtain ⟨f6, f5, f4, f3, f2, lf⟩ := encDAB_fields hw (by decide) (by omega)
  have f0 : fld wd 0 1 = 0 := by rw [fld_low 7 (by decide), lf] <;> omega
  have f1 : fld wd 1 6 = srcCode c := by rw [fld_low 7 (by decide), lf] <;> omega
  unfold decS
  rw [f6]
  show (guarded (.sel u (dstOf (fld wd 20 6) (fld wd 19 1)) (srcOf (fld wd 13 6)) (srcOf (fld wd 7 6)) (srcOf (fld wd 1 6))) [(fldRsvd, bitOf (fld wd 0 1)), (srcIll, srcBad (fld wd 13 6) || srcBad (fld wd 7 6) || srcBad (fld wd 1 6)), (dstIll, dstBad (fld wd 20 6) (fld wd 19 1))] : Except Nat Instr) = _
  simp [f0, f1, f2, f3, f4, f5, f6, fldB, guarded]

theorem RoundTrip.movi (u : SSlot) (d : SDst) (i : BitVec 19) : RoundTrip.Statement (.movi u d i) := by
  intro hwf sl wd hs hw
  replace hw : encW 0x16 [(20, dstCode d), (19, dstW d), (0, i.toNat)] = wd := Option.some.inj hw
  have hd : decSlot sl wd = decS u wd := by
    cases u with
    | s0 => obtain rfl : 0 = sl := Option.some.inj hs; rfl
    | s1 => obtain rfl : 1 = sl := Option.some.inj hs; rfl
  refine decSyl_zero (hd.trans ?_)
  have b0 := dstCode_lt d
  have b1 := dstW_lt d
  have b2 := i.isLt
  obtain ⟨f0, f1, f2, f3⟩ :
      fld wd 0 19 = i.toNat ∧ fld wd 19 1 = dstW d ∧ fld wd 20 6 = dstCode d ∧
      fld wd 26 6 = 0x16 := by
    subst hw; simp only [fld, encW, encFields, BitVec.toNat_ofNat]
    refine ⟨?_, ?_, ?_, ?_⟩ <;> omega
  unfold decS
  rw [f3]
  show (guarded (.movi u (dstOf (fld wd 20 6) (fld wd 19 1)) (fldB wd 0 19)) [(dstIll, dstBad (fld wd 20 6) (fld wd 19 1))] : Except Nat Instr) = _
  simp [f0, f1, f2, f3, fldB, guarded]

theorem RoundTrip.movhi (u : SSlot) (d : RDst) (i : BitVec 19) : RoundTrip.Statement (.movhi u d i) := by
  intro hwf sl wd hs hw
  replace hw : encW 0x17 [(20, rdstCode d), (19, rdstW d), (0, i.toNat)] = wd := Option.some.inj hw
  have hd : decSlot sl wd = decS u wd := by
    cases u with
    | s0 => obtain rfl : 0 = sl := Option.some.inj hs; rfl
    | s1 => obtain rfl : 1 = sl := Option.some.inj hs; rfl
  refine decSyl_zero (hd.trans ?_)
  have b0 := rdstCode_lt d
  have b1 := rdstW_lt d
  have b2 := i.isLt
  obtain ⟨f0, f1, f2, f3⟩ :
      fld wd 0 19 = i.toNat ∧ fld wd 19 1 = rdstW d ∧ fld wd 20 6 = rdstCode d ∧
      fld wd 26 6 = 0x17 := by
    subst hw; simp only [fld, encW, encFields, BitVec.toNat_ofNat]
    refine ⟨?_, ?_, ?_, ?_⟩ <;> omega
  unfold decS
  rw [f3]
  show (guarded (.movhi u (rdstOf (fld wd 20 6) (fld wd 19 1)) (fldB wd 0 19)) [(dstIll, dstBad (fld wd 20 6) (fld wd 19 1)), (immIll, decide (fld wd 20 6 = 62))] : Except Nat Instr) = _
  simp [f0, f1, f2, f3, fldB, guarded]
  exact rdstCode_ne d

theorem RoundTrip.clz (u : SSlot) (d : SDst) (a : SSrc) : RoundTrip.Statement (.clz u d a) := by
  intro hwf sl wd hs hw
  replace hw : encDA 0x18 d a 0 = wd := Option.some.inj hw
  have hd : decSlot sl wd = decS u wd := by
    cases u with
    | s0 => obtain rfl : 0 = sl := Option.some.inj hs; rfl
    | s1 => obtain rfl : 1 = sl := Option.some.inj hs; rfl
  refine decSyl_zero (hd.trans ?_)
  have b0 := dstCode_lt d
  have b1 := dstW_lt d
  have b2 := srcCode_lt a
  obtain ⟨f4, f3, f2, f1, f0⟩ := encDA_fields hw (by decide) (by omega)
  unfold decS
  rw [f4]
  show (decSA wd (.clz u) : Except Nat Instr) = _
  simp [decSA, f0, f1, f2, f3, f4, fldB, guarded]

theorem RoundTrip.popc (u : SSlot) (d : SDst) (a : SSrc) : RoundTrip.Statement (.popc u d a) := by
  intro hwf sl wd hs hw
  replace hw : encDA 0x19 d a 0 = wd := Option.some.inj hw
  have hd : decSlot sl wd = decS u wd := by
    cases u with
    | s0 => obtain rfl : 0 = sl := Option.some.inj hs; rfl
    | s1 => obtain rfl : 1 = sl := Option.some.inj hs; rfl
  refine decSyl_zero (hd.trans ?_)
  have b0 := dstCode_lt d
  have b1 := dstW_lt d
  have b2 := srcCode_lt a
  obtain ⟨f4, f3, f2, f1, f0⟩ := encDA_fields hw (by decide) (by omega)
  unfold decS
  rw [f4]
  show (decSA wd (.popc u) : Except Nat Instr) = _
  simp [decSA, f0, f1, f2, f3, f4, fldB, guarded]

theorem RoundTrip.bfx (u : SSlot) (d : SDst) (a : SSrc) (pos : BitVec 6) (len : BitVec 6) : RoundTrip.Statement (.bfx u d a pos len) := by
  intro hwf sl wd hs hw
  replace hw : encW 0x1A [(20, dstCode d), (19, dstW d), (13, srcCode a), (7, pos.toNat), (1, len.toNat)] = wd := Option.some.inj hw
  have hd : decSlot sl wd = decS u wd := by
    cases u with
    | s0 => obtain rfl : 0 = sl := Option.some.inj hs; rfl
    | s1 => obtain rfl : 1 = sl := Option.some.inj hs; rfl
  refine decSyl_zero (hd.trans ?_)
  have b0 := dstCode_lt d
  have b1 := dstW_lt d
  have b2 := srcCode_lt a
  have b3 := pos.isLt
  have b4 := len.isLt
  obtain ⟨f0, f1, f2, f3, f4, f5, f6⟩ :
      fld wd 0 1 = 0 ∧ fld wd 1 6 = len.toNat ∧ fld wd 7 6 = pos.toNat ∧
      fld wd 13 6 = srcCode a ∧ fld wd 19 1 = dstW d ∧ fld wd 20 6 = dstCode d ∧
      fld wd 26 6 = 0x1A := by
    subst hw; simp only [fld, encW, encFields, BitVec.toNat_ofNat]
    refine ⟨?_, ?_, ?_, ?_, ?_, ?_, ?_⟩ <;> omega
  replace hwf : (decide (pos.toNat + bfLen len ≤ 64)) = true := hwf
  try simp only [decide_eq_true_eq, Bool.and_eq_true, Bool.or_eq_true, Bool.not_eq_true', seqFields] at hwf
  unfold decS
  rw [f6]
  show (guarded (.bfx u (dstOf (fld wd 20 6) (fld wd 19 1)) (srcOf (fld wd 13 6)) (fldB wd 7 6) (fldB wd 1 6)) [(fldRsvd, bitOf (fld wd 0 1)), (srcIll, srcBad (fld wd 13 6)), (dstIll, dstBad (fld wd 20 6) (fld wd 19 1)), (immIll, decide (64 < fld wd 7 6 + bfLen (fldB wd 1 6)))] : Except Nat Instr) = _
  simp [f0, f1, f2, f3, f4, f5, f6, fldB, guarded, hwf]

theorem RoundTrip.bfi (u : SSlot) (d : RDst) (a : SSrc) (pos : BitVec 6) (len : BitVec 6) : RoundTrip.Statement (.bfi u d a pos len) := by
  intro hwf sl wd hs hw
  replace hw : encW 0x1B [(20, rdstCode d), (19, rdstW d), (13, srcCode a), (7, pos.toNat), (1, len.toNat)] = wd := Option.some.inj hw
  have hd : decSlot sl wd = decS u wd := by
    cases u with
    | s0 => obtain rfl : 0 = sl := Option.some.inj hs; rfl
    | s1 => obtain rfl : 1 = sl := Option.some.inj hs; rfl
  refine decSyl_zero (hd.trans ?_)
  have b0 := rdstCode_lt d
  have b1 := rdstW_lt d
  have b2 := srcCode_lt a
  have b3 := pos.isLt
  have b4 := len.isLt
  obtain ⟨f0, f1, f2, f3, f4, f5, f6⟩ :
      fld wd 0 1 = 0 ∧ fld wd 1 6 = len.toNat ∧ fld wd 7 6 = pos.toNat ∧
      fld wd 13 6 = srcCode a ∧ fld wd 19 1 = rdstW d ∧ fld wd 20 6 = rdstCode d ∧
      fld wd 26 6 = 0x1B := by
    subst hw; simp only [fld, encW, encFields, BitVec.toNat_ofNat]
    refine ⟨?_, ?_, ?_, ?_, ?_, ?_, ?_⟩ <;> omega
  replace hwf : (decide (pos.toNat + bfLen len ≤ 64)) = true := hwf
  try simp only [decide_eq_true_eq, Bool.and_eq_true, Bool.or_eq_true, Bool.not_eq_true', seqFields] at hwf
  unfold decS
  rw [f6]
  show (guarded (.bfi u (rdstOf (fld wd 20 6) (fld wd 19 1)) (srcOf (fld wd 13 6)) (fldB wd 7 6) (fldB wd 1 6)) [(fldRsvd, bitOf (fld wd 0 1)), (srcIll, srcBad (fld wd 13 6)), (dstIll, dstBad (fld wd 20 6) (fld wd 19 1)), (immIll, decide (fld wd 20 6 = 62) || decide (64 < fld wd 7 6 + bfLen (fldB wd 1 6)))] : Except Nat Instr) = _
  simp [f0, f1, f2, f3, f4, f5, f6, fldB, guarded, hwf]
  exact rdstCode_ne d

theorem RoundTrip.addsc (u : SSlot) (d : SDst) (a : SSrc) (b : SSrc) (sh : BitVec 2) : RoundTrip.Statement (.addsc u d a b sh) := by
  intro hwf sl wd hs hw
  replace hw : encDAB 0x1C d a b (sh.toNat * 2) = wd := Option.some.inj hw
  have hd : decSlot sl wd = decS u wd := by
    cases u with
    | s0 => obtain rfl : 0 = sl := Option.some.inj hs; rfl
    | s1 => obtain rfl : 1 = sl := Option.some.inj hs; rfl
  refine decSyl_zero (hd.trans ?_)
  have b0 := dstCode_lt d
  have b1 := dstW_lt d
  have b2 := srcCode_lt a
  have b3 := srcCode_lt b
  have b4 := sh.isLt
  obtain ⟨f7, f6, f5, f4, f3, lf⟩ := encDAB_fields hw (by decide) (by omega)
  have f0 : fld wd 0 1 = 0 := by rw [fld_low 7 (by decide), lf] <;> omega
  have f1 : fld wd 1 2 = sh.toNat := by rw [fld_low 7 (by decide), lf] <;> omega
  have f2 : fld wd 1 6 = (sh.toNat) := by rw [fld_low 7 (by decide), lf] <;> omega
  unfold decS
  rw [f7]
  show (guarded (.addsc u (dstOf (fld wd 20 6) (fld wd 19 1)) (srcOf (fld wd 13 6)) (srcOf (fld wd 7 6)) (fldB wd 1 2)) [(fldRsvd, bitOf (fld wd 0 1)), (srcIll, srcBad (fld wd 13 6) || srcBad (fld wd 7 6)), (dstIll, dstBad (fld wd 20 6) (fld wd 19 1)), (immIll, decide (4 ≤ fld wd 1 6))] : Except Nat Instr) = _
  simp [f0, f1, f2, f3, f4, f5, f6, f7, fldB, guarded]
  omega

theorem RoundTrip.getc (u : SSlot) (d : SDst) (c : BitVec 12) : RoundTrip.Statement (.getc u d c) := by
  intro hwf sl wd hs hw
  replace hw : encW 0x1D [(20, dstCode d), (19, dstW d), (7, c.toNat)] = wd := Option.some.inj hw
  have hd : decSlot sl wd = decS u wd := by
    cases u with
    | s0 => obtain rfl : 0 = sl := Option.some.inj hs; rfl
    | s1 => obtain rfl : 1 = sl := Option.some.inj hs; rfl
  refine decSyl_zero (hd.trans ?_)
  have b0 := dstCode_lt d
  have b1 := dstW_lt d
  have b2 := c.isLt
  obtain ⟨f0, f1, f2, f3, f4⟩ :
      fld wd 0 7 = 0 ∧ fld wd 7 12 = c.toNat ∧ fld wd 19 1 = dstW d ∧
      fld wd 20 6 = dstCode d ∧ fld wd 26 6 = 0x1D := by
    subst hw; simp only [fld, encW, encFields, BitVec.toNat_ofNat]
    refine ⟨?_, ?_, ?_, ?_, ?_⟩ <;> omega
  replace hwf : (ctlDefined c) = true := hwf
  try simp only [decide_eq_true_eq, Bool.and_eq_true, Bool.or_eq_true, Bool.not_eq_true', seqFields] at hwf
  unfold decS
  rw [f4]
  show (guarded (.getc u (dstOf (fld wd 20 6) (fld wd 19 1)) (fldB wd 7 12)) [(fldRsvd, bitOf (fld wd 0 7)), (dstIll, dstBad (fld wd 20 6) (fld wd 19 1)), (ctlUndef, !ctlDefined (fldB wd 7 12))] : Except Nat Instr) = _
  simp [f0, f1, f2, f3, f4, fldB, guarded, hwf]

theorem RoundTrip.setc (u : SSlot) (a : SSrc) (c : BitVec 12) : RoundTrip.Statement (.setc u a c) := by
  intro hwf sl wd hs hw
  replace hw : encW 0x1E [(20, srcCode a), (7, c.toNat)] = wd := Option.some.inj hw
  have hd : decSlot sl wd = decS u wd := by
    cases u with
    | s0 => obtain rfl : 0 = sl := Option.some.inj hs; rfl
    | s1 => obtain rfl : 1 = sl := Option.some.inj hs; rfl
  refine decSyl_zero (hd.trans ?_)
  have b0 := srcCode_lt a
  have b1 := c.isLt
  obtain ⟨f0, f1, f2, f3, f4⟩ :
      fld wd 0 7 = 0 ∧ fld wd 7 12 = c.toNat ∧ fld wd 19 1 = 0 ∧
      fld wd 20 6 = srcCode a ∧ fld wd 26 6 = 0x1E := by
    subst hw; simp only [fld, encW, encFields, BitVec.toNat_ofNat]
    refine ⟨?_, ?_, ?_, ?_, ?_⟩ <;> omega
  replace hwf : (ctlDefined c && ctlWritable c) = true := hwf
  try simp only [decide_eq_true_eq, Bool.and_eq_true, Bool.or_eq_true, Bool.not_eq_true', seqFields] at hwf
  unfold decS
  rw [f4]
  show (guarded (.setc u (srcOf (fld wd 20 6)) (fldB wd 7 12)) [(fldRsvd, bitOf (fld wd 0 7) || bitOf (fld wd 19 1)), (srcIll, srcBad (fld wd 20 6)), (ctlUndef, !ctlDefined (fldB wd 7 12)), (ctlPriv, !ctlWritable (fldB wd 7 12))] : Except Nat Instr) = _
  simp [f0, f1, f2, f3, f4, fldB, guarded, hwf]

theorem RoundTrip.br (o : BitVec 26) : RoundTrip.Statement (.br o) := by
  intro hwf sl wd hs hw
  replace hw : encW 0x00 [(0, o.toNat)] = wd := Option.some.inj hw
  have hd : decSlot sl wd = decB wd := by obtain rfl : 2 = sl := Option.some.inj hs; rfl
  refine decSyl_zero (hd.trans ?_)
  have b0 := o.isLt
  obtain ⟨f0, f1⟩ :
      fld wd 0 26 = o.toNat ∧ fld wd 26 6 = 0x00 := by
    subst hw; simp only [fld, encW, encFields, BitVec.toNat_ofNat]
    refine ⟨?_, ?_⟩ <;> omega
  unfold decB
  rw [f1]
  show (.ok (.br (fldB wd 0 26)) : Except Nat Instr) = _
  simp [f0, f1, fldB, guarded]

theorem RoundTrip.brc (a : SSrc) (c : BCnd) (o : BitVec 18) : RoundTrip.Statement (.brc a c o) := by
  intro hwf sl wd hs hw
  replace hw : encW 0x01 [(20, srcCode a), (18, bcndCode c), (0, o.toNat)] = wd := Option.some.inj hw
  have hd : decSlot sl wd = decB wd := by obtain rfl : 2 = sl := Option.some.inj hs; rfl
  refine decSyl_zero (hd.trans ?_)
  have b0 := srcCode_lt a
  have b1 := bcndCode_lt c
  have b2 := o.isLt
  obtain ⟨f0, f1, f2, f3⟩ :
      fld wd 0 18 = o.toNat ∧ fld wd 18 2 = bcndCode c ∧ fld wd 20 6 = srcCode a ∧
      fld wd 26 6 = 0x01 := by
    subst hw; simp only [fld, encW, encFields, BitVec.toNat_ofNat]
    refine ⟨?_, ?_, ?_, ?_⟩ <;> omega
  unfold decB
  rw [f3]
  show (guarded (.brc (srcOf (fld wd 20 6)) (bcndOf (fld wd 18 2)) (fldB wd 0 18)) [(srcIll, srcBad (fld wd 20 6))] : Except Nat Instr) = _
  simp [f0, f1, f2, f3, fldB, guarded]

theorem RoundTrip.call (d : Fin 56) (o : BitVec 20) : RoundTrip.Statement (.call d o) := by
  intro hwf sl wd hs hw
  replace hw : encW 0x02 [(20, d.val), (0, o.toNat)] = wd := Option.some.inj hw
  have hd : decSlot sl wd = decB wd := by obtain rfl : 2 = sl := Option.some.inj hs; rfl
  refine decSyl_zero (hd.trans ?_)
  have b0 := d.isLt
  have b1 := o.isLt
  obtain ⟨f0, f1, f2⟩ :
      fld wd 0 20 = o.toNat ∧ fld wd 20 6 = d.val ∧ fld wd 26 6 = 0x02 := by
    subst hw; simp only [fld, encW, encFields, BitVec.toNat_ofNat]
    refine ⟨?_, ?_, ?_⟩ <;> omega
  have h1 : ¬ (56 ≤ d.val ∧ d.val ≠ 62) := by omega
  have h2 : d.val ≠ 62 := by omega
  unfold decB
  rw [f2]
  show (guarded (.call (finOf 56 (fld wd 20 6)) (fldB wd 0 20)) [(dstIll, decide (56 ≤ fld wd 20 6 ∧ fld wd 20 6 ≠ 62)), (immIll, decide (fld wd 20 6 = 62))] : Except Nat Instr) = _
  simp [f0, f1, f2, fldB, guarded, h1, h2]

theorem RoundTrip.ret (a : SSrc) : RoundTrip.Statement (.ret a) := by
  intro hwf sl wd hs hw
  replace hw : encW 0x03 [(20, srcCode a)] = wd := Option.some.inj hw
  have hd : decSlot sl wd = decB wd := by obtain rfl : 2 = sl := Option.some.inj hs; rfl
  refine decSyl_zero (hd.trans ?_)
  have b0 := srcCode_lt a
  obtain ⟨f0, f1, f2⟩ :
      fld wd 0 20 = 0 ∧ fld wd 20 6 = srcCode a ∧ fld wd 26 6 = 0x03 := by
    subst hw; simp only [fld, encW, encFields, BitVec.toNat_ofNat]
    refine ⟨?_, ?_, ?_⟩ <;> omega
  unfold decB
  rw [f2]
  show (guarded (.ret (srcOf (fld wd 20 6))) [(fldRsvd, bitOf (fld wd 0 20)), (srcIll, srcBad (fld wd 20 6))] : Except Nat Instr) = _
  simp [f0, f1, f2, fldB, guarded]

theorem RoundTrip.jr (a : SSrc) (b : SSrc) (i : BitVec 14) : RoundTrip.Statement (.jr a b i) := by
  intro hwf sl wd hs hw
  replace hw : encW 0x04 [(20, srcCode a), (14, srcCode b), (0, i.toNat)] = wd := Option.some.inj hw
  have hd : decSlot sl wd = decB wd := by obtain rfl : 2 = sl := Option.some.inj hs; rfl
  refine decSyl_zero (hd.trans ?_)
  have b0 := srcCode_lt a
  have b1 := srcCode_lt b
  have b2 := i.isLt
  obtain ⟨f0, f1, f2, f3⟩ :
      fld wd 0 14 = i.toNat ∧ fld wd 14 6 = srcCode b ∧ fld wd 20 6 = srcCode a ∧
      fld wd 26 6 = 0x04 := by
    subst hw; simp only [fld, encW, encFields, BitVec.toNat_ofNat]
    refine ⟨?_, ?_, ?_, ?_⟩ <;> omega
  unfold decB
  rw [f3]
  show (guarded (.jr (srcOf (fld wd 20 6)) (srcOf (fld wd 14 6)) (fldB wd 0 14)) [(srcIll, srcBad (fld wd 20 6) || srcBad (fld wd 14 6))] : Except Nat Instr) = _
  simp [f0, f1, f2, f3, fldB, guarded]

theorem RoundTrip.loop (a : Fin 56) (o : BitVec 20) : RoundTrip.Statement (.loop a o) := by
  intro hwf sl wd hs hw
  replace hw : encW 0x05 [(20, a.val), (0, o.toNat)] = wd := Option.some.inj hw
  have hd : decSlot sl wd = decB wd := by obtain rfl : 2 = sl := Option.some.inj hs; rfl
  refine decSyl_zero (hd.trans ?_)
  have b0 := a.isLt
  have b1 := o.isLt
  obtain ⟨f0, f1, f2⟩ :
      fld wd 0 20 = o.toNat ∧ fld wd 20 6 = a.val ∧ fld wd 26 6 = 0x05 := by
    subst hw; simp only [fld, encW, encFields, BitVec.toNat_ofNat]
    refine ⟨?_, ?_, ?_⟩ <;> omega
  replace hwf : (decide (a.val ≠ 0)) = true := hwf
  try simp only [decide_eq_true_eq, Bool.and_eq_true, Bool.or_eq_true, Bool.not_eq_true', seqFields] at hwf
  have h1 : srcBad a.val = false := by simp only [srcBad, decide_eq_false_iff_not]; omega
  have h2 : ¬ 56 ≤ a.val := by omega
  unfold decB
  rw [f2]
  show (guarded (.loop (finOf 56 (fld wd 20 6)) (fldB wd 0 20)) [(srcIll, srcBad (fld wd 20 6)), (immIll, decide (fld wd 20 6 = 0) || decide (56 ≤ fld wd 20 6))] : Except Nat Instr) = _
  simp [f0, f1, f2, fldB, guarded, hwf, h1, h2]

theorem RoundTrip.run (a : SSrc) : RoundTrip.Statement (.run a) := by
  intro hwf sl wd hs hw
  replace hw : encW 0x08 [(20, srcCode a)] = wd := Option.some.inj hw
  have hd : decSlot sl wd = decB wd := by obtain rfl : 2 = sl := Option.some.inj hs; rfl
  refine decSyl_zero (hd.trans ?_)
  have b0 := srcCode_lt a
  obtain ⟨f0, f1, f2⟩ :
      fld wd 0 20 = 0 ∧ fld wd 20 6 = srcCode a ∧ fld wd 26 6 = 0x08 := by
    subst hw; simp only [fld, encW, encFields, BitVec.toNat_ofNat]
    refine ⟨?_, ?_, ?_⟩ <;> omega
  unfold decB
  rw [f2]
  show (guarded (.run (srcOf (fld wd 20 6))) [(fldRsvd, bitOf (fld wd 0 20)), (srcIll, srcBad (fld wd 20 6))] : Except Nat Instr) = _
  simp [f0, f1, f2, fldB, guarded]

theorem RoundTrip.waitf (a : SSrc) (b : SSrc) (e : BitVec 4) (c : WCnd) : RoundTrip.Statement (.waitf a b e c) := by
  intro hwf sl wd hs hw
  replace hw : encW 0x09 [(20, srcCode a), (14, srcCode b), (10, e.toNat), (8, wcndCode c)] = wd := Option.some.inj hw
  have hd : decSlot sl wd = decB wd := by obtain rfl : 2 = sl := Option.some.inj hs; rfl
  refine decSyl_zero (hd.trans ?_)
  have b0 := srcCode_lt a
  have b1 := srcCode_lt b
  have b2 := e.isLt
  have b3 := wcndCode_lt c
  obtain ⟨f0, f1, f2, f3, f4, f5⟩ :
      fld wd 0 8 = 0 ∧ fld wd 8 2 = wcndCode c ∧ fld wd 10 4 = e.toNat ∧
      fld wd 14 6 = srcCode b ∧ fld wd 20 6 = srcCode a ∧ fld wd 26 6 = 0x09 := by
    subst hw; simp only [fld, encW, encFields, BitVec.toNat_ofNat]
    refine ⟨?_, ?_, ?_, ?_, ?_, ?_⟩ <;> omega
  unfold decB
  rw [f5]
  show (guarded (.waitf (srcOf (fld wd 20 6)) (srcOf (fld wd 14 6)) (fldB wd 10 4) (wcndOf (fld wd 8 2))) [(fldRsvd, bitOf (fld wd 0 8)), (srcIll, srcBad (fld wd 20 6) || srcBad (fld wd 14 6))] : Except Nat Instr) = _
  simp [f0, f1, f2, f3, f4, f5, fldB, guarded]

theorem RoundTrip.step (l : Fin 5) : RoundTrip.Statement (.step l) := by
  intro hwf sl wd hs hw
  replace hw : encW 0x0A [(0, l.val)] = wd := Option.some.inj hw
  have hd : decSlot sl wd = decB wd := by obtain rfl : 2 = sl := Option.some.inj hs; rfl
  refine decSyl_zero (hd.trans ?_)
  have b0 := l.isLt
  obtain ⟨f0, f1, f2⟩ :
      fld wd 0 3 = l.val ∧ fld wd 3 23 = 0 ∧ fld wd 26 6 = 0x0A := by
    subst hw; simp only [fld, encW, encFields, BitVec.toNat_ofNat]
    refine ⟨?_, ?_, ?_⟩ <;> omega
  unfold decB
  rw [f2]
  show (guarded (.step (finOf 5 (fld wd 0 3))) [(fldRsvd, bitOf (fld wd 3 23) || decide (5 ≤ fld wd 0 3))] : Except Nat Instr) = _
  simp [f0, f1, f2, fldB, guarded]

theorem RoundTrip.fence (x : Bool) (s : Fin 5) : RoundTrip.Statement (.fence x s) := by
  intro hwf sl wd hs hw
  replace hw : encW 0x0C [(3, bitCode x), (0, s.val)] = wd := Option.some.inj hw
  have hd : decSlot sl wd = decB wd := by obtain rfl : 2 = sl := Option.some.inj hs; rfl
  refine decSyl_zero (hd.trans ?_)
  have b0 := bitCode_lt x
  have b1 := s.isLt
  obtain ⟨f0, f1, f2, f3⟩ :
      fld wd 0 3 = s.val ∧ fld wd 3 1 = bitCode x ∧ fld wd 4 22 = 0 ∧
      fld wd 26 6 = 0x0C := by
    subst hw; simp only [fld, encW, encFields, BitVec.toNat_ofNat]
    refine ⟨?_, ?_, ?_, ?_⟩ <;> omega
  unfold decB
  rw [f3]
  show (guarded (.fence (bitOf (fld wd 3 1)) (finOf 5 (fld wd 0 3))) [(fldRsvd, bitOf (fld wd 4 22) || decide (5 ≤ fld wd 0 3))] : Except Nat Instr) = _
  simp [f0, f1, f2, f3, fldB, guarded]

theorem RoundTrip.trap (a : SSrc) (n : BitVec 4) : RoundTrip.Statement (.trap a n) := by
  intro hwf sl wd hs hw
  replace hw : encW 0x0E [(20, srcCode a), (0, n.toNat)] = wd := Option.some.inj hw
  have hd : decSlot sl wd = decB wd := by obtain rfl : 2 = sl := Option.some.inj hs; rfl
  refine decSyl_zero (hd.trans ?_)
  have b0 := srcCode_lt a
  have b1 := n.isLt
  obtain ⟨f0, f1, f2, f3⟩ :
      fld wd 0 4 = n.toNat ∧ fld wd 4 16 = 0 ∧ fld wd 20 6 = srcCode a ∧
      fld wd 26 6 = 0x0E := by
    subst hw; simp only [fld, encW, encFields, BitVec.toNat_ofNat]
    refine ⟨?_, ?_, ?_, ?_⟩ <;> omega
  unfold decB
  rw [f3]
  show (guarded (.trap (srcOf (fld wd 20 6)) (fldB wd 0 4)) [(fldRsvd, bitOf (fld wd 4 16)), (srcIll, srcBad (fld wd 20 6))] : Except Nat Instr) = _
  simp [f0, f1, f2, f3, fldB, guarded]

theorem RoundTrip.halt (a : SSrc) : RoundTrip.Statement (.halt a) := by
  intro hwf sl wd hs hw
  replace hw : encW 0x0F [(20, srcCode a)] = wd := Option.some.inj hw
  have hd : decSlot sl wd = decB wd := by obtain rfl : 2 = sl := Option.some.inj hs; rfl
  refine decSyl_zero (hd.trans ?_)
  have b0 := srcCode_lt a
  obtain ⟨f0, f1, f2⟩ :
      fld wd 0 20 = 0 ∧ fld wd 20 6 = srcCode a ∧ fld wd 26 6 = 0x0F := by
    subst hw; simp only [fld, encW, encFields, BitVec.toNat_ofNat]
    refine ⟨?_, ?_, ?_⟩ <;> omega
  unfold decB
  rw [f2]
  show (guarded (.halt (srcOf (fld wd 20 6))) [(fldRsvd, bitOf (fld wd 0 20)), (srcIll, srcBad (fld wd 20 6))] : Except Nat Instr) = _
  simp [f0, f1, f2, fldB, guarded]

theorem RoundTrip.ld (u : MSlot) (d : SDst) (e : BitVec 4) (b : SSrc) (s : BitVec 2) (i : BitVec 7) : RoundTrip.Statement (.ld u d e b s i) := by
  intro hwf sl wd hs hw
  replace hw : encLoad 0x00 d e b s i = wd := Option.some.inj hw
  have hd : decSlot sl wd = decM u wd := by
    cases u with
    | m0 => obtain rfl : 3 = sl := Option.some.inj hs; rfl
    | m1 => obtain rfl : 4 = sl := Option.some.inj hs; rfl
  refine decSyl_zero (hd.trans ?_)
  have b0 := dstCode_lt d
  have b1 := dstW_lt d
  have b2 := e.isLt
  have b3 := srcCode_lt b
  have b4 := s.isLt
  have b5 := i.isLt
  obtain ⟨f0, f1, f2, f3, f4, f5, f6⟩ :
      fld wd 0 7 = i.toNat ∧ fld wd 7 2 = s.toNat ∧ fld wd 9 6 = srcCode b ∧
      fld wd 15 4 = e.toNat ∧ fld wd 19 1 = dstW d ∧ fld wd 20 6 = dstCode d ∧
      fld wd 26 6 = 0x00 := by
    subst hw; simp only [fld, encLoad, encW, encFields, BitVec.toNat_ofNat]
    refine ⟨?_, ?_, ?_, ?_, ?_, ?_, ?_⟩ <;> omega
  unfold decM
  rw [f6]
  show (decLoad wd (.ld u) : Except Nat Instr) = _
  simp [decLoad, f0, f1, f2, f3, f4, f5, f6, fldB, guarded]

theorem RoundTrip.ldn (u : MSlot) (d : SDst) (e : BitVec 4) (b : SSrc) (s : BitVec 2) (i : BitVec 7) : RoundTrip.Statement (.ldn u d e b s i) := by
  intro hwf sl wd hs hw
  replace hw : encLoad 0x01 d e b s i = wd := Option.some.inj hw
  have hd : decSlot sl wd = decM u wd := by
    cases u with
    | m0 => obtain rfl : 3 = sl := Option.some.inj hs; rfl
    | m1 => obtain rfl : 4 = sl := Option.some.inj hs; rfl
  refine decSyl_zero (hd.trans ?_)
  have b0 := dstCode_lt d
  have b1 := dstW_lt d
  have b2 := e.isLt
  have b3 := srcCode_lt b
  have b4 := s.isLt
  have b5 := i.isLt
  obtain ⟨f0, f1, f2, f3, f4, f5, f6⟩ :
      fld wd 0 7 = i.toNat ∧ fld wd 7 2 = s.toNat ∧ fld wd 9 6 = srcCode b ∧
      fld wd 15 4 = e.toNat ∧ fld wd 19 1 = dstW d ∧ fld wd 20 6 = dstCode d ∧
      fld wd 26 6 = 0x01 := by
    subst hw; simp only [fld, encLoad, encW, encFields, BitVec.toNat_ofNat]
    refine ⟨?_, ?_, ?_, ?_, ?_, ?_, ?_⟩ <;> omega
  unfold decM
  rw [f6]
  show (decLoad wd (.ldn u) : Except Nat Instr) = _
  simp [decLoad, f0, f1, f2, f3, f4, f5, f6, fldB, guarded]

theorem RoundTrip.st (u : MSlot) (a : SSrc) (e : BitVec 4) (b : SSrc) (s : BitVec 2) (i : BitVec 7) : RoundTrip.Statement (.st u a e b s i) := by
  intro hwf sl wd hs hw
  replace hw : encW 0x02 [(20, srcCode a), (15, e.toNat), (9, srcCode b), (7, s.toNat), (0, i.toNat)] = wd := Option.some.inj hw
  have hd : decSlot sl wd = decM u wd := by
    cases u with
    | m0 => obtain rfl : 3 = sl := Option.some.inj hs; rfl
    | m1 => obtain rfl : 4 = sl := Option.some.inj hs; rfl
  refine decSyl_zero (hd.trans ?_)
  have b0 := srcCode_lt a
  have b1 := e.isLt
  have b2 := srcCode_lt b
  have b3 := s.isLt
  have b4 := i.isLt
  obtain ⟨f0, f1, f2, f3, f4, f5, f6⟩ :
      fld wd 0 7 = i.toNat ∧ fld wd 7 2 = s.toNat ∧ fld wd 9 6 = srcCode b ∧
      fld wd 15 4 = e.toNat ∧ fld wd 19 1 = 0 ∧ fld wd 20 6 = srcCode a ∧
      fld wd 26 6 = 0x02 := by
    subst hw; simp only [fld, encW, encFields, BitVec.toNat_ofNat]
    refine ⟨?_, ?_, ?_, ?_, ?_, ?_, ?_⟩ <;> omega
  unfold decM
  rw [f6]
  show (guarded (.st u (srcOf (fld wd 20 6)) (fldB wd 15 4) (srcOf (fld wd 9 6)) (fldB wd 7 2) (fldB wd 0 7)) [(fldRsvd, bitOf (fld wd 19 1)), (srcIll, srcBad (fld wd 20 6) || srcBad (fld wd 9 6))] : Except Nat Instr) = _
  simp [f0, f1, f2, f3, f4, f5, f6, fldB, guarded]

theorem RoundTrip.amo (u : MSlot) (d : SDst) (e : BitVec 4) (b : SSrc) (a : SSrc) (o : AOp) : RoundTrip.Statement (.amo u d e b a o) := by
  intro hwf sl wd hs hw
  replace hw : encW 0x04 [(20, dstCode d), (19, dstW d), (15, e.toNat), (9, srcCode b), (3, srcCode a), (0, aopCode o)] = wd := Option.some.inj hw
  have hd : decSlot sl wd = decM u wd := by
    cases u with
    | m0 => obtain rfl : 3 = sl := Option.some.inj hs; rfl
    | m1 => obtain rfl : 4 = sl := Option.some.inj hs; rfl
  refine decSyl_zero (hd.trans ?_)
  have b0 := dstCode_lt d
  have b1 := dstW_lt d
  have b2 := e.isLt
  have b3 := srcCode_lt b
  have b4 := srcCode_lt a
  have b5 := aopCode_lt o
  obtain ⟨f0, f1, f2, f3, f4, f5, f6⟩ :
      fld wd 0 3 = aopCode o ∧ fld wd 3 6 = srcCode a ∧ fld wd 9 6 = srcCode b ∧
      fld wd 15 4 = e.toNat ∧ fld wd 19 1 = dstW d ∧ fld wd 20 6 = dstCode d ∧
      fld wd 26 6 = 0x04 := by
    subst hw; simp only [fld, encW, encFields, BitVec.toNat_ofNat]
    refine ⟨?_, ?_, ?_, ?_, ?_, ?_, ?_⟩ <;> omega
  unfold decM
  rw [f6]
  show (guarded (.amo u (dstOf (fld wd 20 6) (fld wd 19 1)) (fldB wd 15 4) (srcOf (fld wd 9 6)) (srcOf (fld wd 3 6)) (aopOf (fld wd 0 3))) [(srcIll, srcBad (fld wd 9 6) || srcBad (fld wd 3 6)), (dstIll, dstBad (fld wd 20 6) (fld wd 19 1))] : Except Nat Instr) = _
  simp [f0, f1, f2, f3, f4, f5, f6, fldB, guarded]

theorem RoundTrip.cas (u : MSlot) (d : RDst) (e : BitVec 4) (b : SSrc) (a : SSrc) : RoundTrip.Statement (.cas u d e b a) := by
  intro hwf sl wd hs hw
  replace hw : encW 0x05 [(20, rdstCode d), (19, rdstW d), (15, e.toNat), (9, srcCode b), (3, srcCode a)] = wd := Option.some.inj hw
  have hd : decSlot sl wd = decM u wd := by
    cases u with
    | m0 => obtain rfl : 3 = sl := Option.some.inj hs; rfl
    | m1 => obtain rfl : 4 = sl := Option.some.inj hs; rfl
  refine decSyl_zero (hd.trans ?_)
  have b0 := rdstCode_lt d
  have b1 := rdstW_lt d
  have b2 := e.isLt
  have b3 := srcCode_lt b
  have b4 := srcCode_lt a
  obtain ⟨f0, f1, f2, f3, f4, f5, f6⟩ :
      fld wd 0 3 = 0 ∧ fld wd 3 6 = srcCode a ∧ fld wd 9 6 = srcCode b ∧
      fld wd 15 4 = e.toNat ∧ fld wd 19 1 = rdstW d ∧ fld wd 20 6 = rdstCode d ∧
      fld wd 26 6 = 0x05 := by
    subst hw; simp only [fld, encW, encFields, BitVec.toNat_ofNat]
    refine ⟨?_, ?_, ?_, ?_, ?_, ?_, ?_⟩ <;> omega
  unfold decM
  rw [f6]
  show (guarded (.cas u (rdstOf (fld wd 20 6) (fld wd 19 1)) (fldB wd 15 4) (srcOf (fld wd 9 6)) (srcOf (fld wd 3 6))) [(fldRsvd, bitOf (fld wd 0 3)), (srcIll, srcBad (fld wd 9 6) || srcBad (fld wd 3 6)), (dstIll, dstBad (fld wd 20 6) (fld wd 19 1)), (immIll, decide (fld wd 20 6 = 62))] : Except Nat Instr) = _
  simp [f0, f1, f2, f3, f4, f5, f6, fldB, guarded]
  exact rdstCode_ne d

theorem RoundTrip.lkup (u : MSlot) (d : SDst) (a : SSrc) : RoundTrip.Statement (.lkup u d a) := by
  intro hwf sl wd hs hw
  replace hw : encDA 0x08 d a 0 = wd := Option.some.inj hw
  have hd : decSlot sl wd = decM u wd := by
    cases u with
    | m0 => obtain rfl : 3 = sl := Option.some.inj hs; rfl
    | m1 => obtain rfl : 4 = sl := Option.some.inj hs; rfl
  refine decSyl_zero (hd.trans ?_)
  have b0 := dstCode_lt d
  have b1 := dstW_lt d
  have b2 := srcCode_lt a
  obtain ⟨f4, f3, f2, f1, f0⟩ := encDA_fields hw (by decide) (by omega)
  unfold decM
  rw [f4]
  show (guarded (.lkup u (dstOf (fld wd 20 6) (fld wd 19 1)) (srcOf (fld wd 13 6))) [(fldRsvd, bitOf (fld wd 0 13)), (srcIll, srcBad (fld wd 13 6)), (dstIll, dstBad (fld wd 20 6) (fld wd 19 1))] : Except Nat Instr) = _
  simp [f0, f1, f2, f3, f4, fldB, guarded]

theorem RoundTrip.tagset (u : MSlot) (d : SDst) (a : SSrc) (b : SSrc) : RoundTrip.Statement (.tagset u d a b) := by
  intro hwf sl wd hs hw
  replace hw : encDAB 0x09 d a b 0 = wd := Option.some.inj hw
  have hd : decSlot sl wd = decM u wd := by
    cases u with
    | m0 => obtain rfl : 3 = sl := Option.some.inj hs; rfl
    | m1 => obtain rfl : 4 = sl := Option.some.inj hs; rfl
  refine decSyl_zero (hd.trans ?_)
  have b0 := dstCode_lt d
  have b1 := dstW_lt d
  have b2 := srcCode_lt a
  have b3 := srcCode_lt b
  obtain ⟨f5, f4, f3, f2, f1, f0⟩ := encDAB_fields hw (by decide) (by omega)
  unfold decM
  rw [f5]
  show (guarded (.tagset u (dstOf (fld wd 20 6) (fld wd 19 1)) (srcOf (fld wd 13 6)) (srcOf (fld wd 7 6))) [(fldRsvd, bitOf (fld wd 0 7)), (srcIll, srcBad (fld wd 13 6) || srcBad (fld wd 7 6)), (dstIll, dstBad (fld wd 20 6) (fld wd 19 1))] : Except Nat Instr) = _
  simp [f0, f1, f2, f3, f4, f5, fldB, guarded]

theorem RoundTrip.tagdrop (u : MSlot) (d : SDst) (a : SSrc) : RoundTrip.Statement (.tagdrop u d a) := by
  intro hwf sl wd hs hw
  replace hw : encDA 0x0A d a 0 = wd := Option.some.inj hw
  have hd : decSlot sl wd = decM u wd := by
    cases u with
    | m0 => obtain rfl : 3 = sl := Option.some.inj hs; rfl
    | m1 => obtain rfl : 4 = sl := Option.some.inj hs; rfl
  refine decSyl_zero (hd.trans ?_)
  have b0 := dstCode_lt d
  have b1 := dstW_lt d
  have b2 := srcCode_lt a
  obtain ⟨f4, f3, f2, f1, f0⟩ := encDA_fields hw (by decide) (by omega)
  unfold decM
  rw [f4]
  show (guarded (.tagdrop u (dstOf (fld wd 20 6) (fld wd 19 1)) (srcOf (fld wd 13 6))) [(fldRsvd, bitOf (fld wd 0 13)), (srcIll, srcBad (fld wd 13 6)), (dstIll, dstBad (fld wd 20 6) (fld wd 19 1))] : Except Nat Instr) = _
  simp [f0, f1, f2, f3, f4, fldB, guarded]

theorem RoundTrip.bari (u : MSlot) (b : SSrc) (n : Fin 8) : RoundTrip.Statement (.bari u b n) := by
  intro hwf sl wd hs hw
  replace hw : encW 0x0C [(7, srcCode b), (0, n.val)] = wd := Option.some.inj hw
  have hd : decSlot sl wd = decM u wd := by
    cases u with
    | m0 => obtain rfl : 3 = sl := Option.some.inj hs; rfl
    | m1 => obtain rfl : 4 = sl := Option.some.inj hs; rfl
  refine decSyl_zero (hd.trans ?_)
  have b0 := srcCode_lt b
  have b1 := n.isLt
  obtain ⟨f0, f1, f2, f3, f4⟩ :
      fld wd 0 3 = n.val ∧ fld wd 3 4 = 0 ∧ fld wd 7 6 = srcCode b ∧
      fld wd 13 13 = 0 ∧ fld wd 26 6 = 0x0C := by
    subst hw; simp only [fld, encW, encFields, BitVec.toNat_ofNat]
    refine ⟨?_, ?_, ?_, ?_, ?_⟩ <;> omega
  unfold decM
  rw [f4]
  show (guarded (.bari u (srcOf (fld wd 7 6)) (finOf 8 (fld wd 0 3))) [(fldRsvd, bitOf (fld wd 13 13) || bitOf (fld wd 3 4)), (srcIll, srcBad (fld wd 7 6))] : Except Nat Instr) = _
  simp [f0, f1, f2, f3, f4, fldB, guarded]

theorem RoundTrip.bara (u : MSlot) (b : SSrc) (n : Fin 8) : RoundTrip.Statement (.bara u b n) := by
  intro hwf sl wd hs hw
  replace hw : encW 0x0D [(7, srcCode b), (0, n.val)] = wd := Option.some.inj hw
  have hd : decSlot sl wd = decM u wd := by
    cases u with
    | m0 => obtain rfl : 3 = sl := Option.some.inj hs; rfl
    | m1 => obtain rfl : 4 = sl := Option.some.inj hs; rfl
  refine decSyl_zero (hd.trans ?_)
  have b0 := srcCode_lt b
  have b1 := n.isLt
  obtain ⟨f0, f1, f2, f3, f4⟩ :
      fld wd 0 3 = n.val ∧ fld wd 3 4 = 0 ∧ fld wd 7 6 = srcCode b ∧
      fld wd 13 13 = 0 ∧ fld wd 26 6 = 0x0D := by
    subst hw; simp only [fld, encW, encFields, BitVec.toNat_ofNat]
    refine ⟨?_, ?_, ?_, ?_, ?_⟩ <;> omega
  unfold decM
  rw [f4]
  show (guarded (.bara u (srcOf (fld wd 7 6)) (finOf 8 (fld wd 0 3))) [(fldRsvd, bitOf (fld wd 13 13) || bitOf (fld wd 3 4)), (srcIll, srcBad (fld wd 7 6))] : Except Nat Instr) = _
  simp [f0, f1, f2, f3, f4, fldB, guarded]

theorem RoundTrip.barw (u : MSlot) (n : Fin 8) : RoundTrip.Statement (.barw u n) := by
  intro hwf sl wd hs hw
  replace hw : encW 0x0E [(0, n.val)] = wd := Option.some.inj hw
  have hd : decSlot sl wd = decM u wd := by
    cases u with
    | m0 => obtain rfl : 3 = sl := Option.some.inj hs; rfl
    | m1 => obtain rfl : 4 = sl := Option.some.inj hs; rfl
  refine decSyl_zero (hd.trans ?_)
  have b0 := n.isLt
  obtain ⟨f0, f1, f2⟩ :
      fld wd 0 3 = n.val ∧ fld wd 3 23 = 0 ∧ fld wd 26 6 = 0x0E := by
    subst hw; simp only [fld, encW, encFields, BitVec.toNat_ofNat]
    refine ⟨?_, ?_, ?_⟩ <;> omega
  unfold decM
  rw [f2]
  show (guarded (.barw u (finOf 8 (fld wd 0 3))) [(fldRsvd, bitOf (fld wd 3 23))] : Except Nat Instr) = _
  simp [f0, f1, f2, fldB, guarded]

theorem RoundTrip.barx (u : MSlot) (d : SDst) (b : SSrc) (n : Fin 8) : RoundTrip.Statement (.barx u d b n) := by
  intro hwf sl wd hs hw
  replace hw : encW 0x0F [(20, dstCode d), (19, dstW d), (7, srcCode b), (0, n.val)] = wd := Option.some.inj hw
  have hd : decSlot sl wd = decM u wd := by
    cases u with
    | m0 => obtain rfl : 3 = sl := Option.some.inj hs; rfl
    | m1 => obtain rfl : 4 = sl := Option.some.inj hs; rfl
  refine decSyl_zero (hd.trans ?_)
  have b0 := dstCode_lt d
  have b1 := dstW_lt d
  have b2 := srcCode_lt b
  have b3 := n.isLt
  obtain ⟨f0, f1, f2, f3, f4, f5, f6⟩ :
      fld wd 0 3 = n.val ∧ fld wd 3 4 = 0 ∧ fld wd 7 6 = srcCode b ∧
      fld wd 13 6 = 0 ∧ fld wd 19 1 = dstW d ∧ fld wd 20 6 = dstCode d ∧
      fld wd 26 6 = 0x0F := by
    subst hw; simp only [fld, encW, encFields, BitVec.toNat_ofNat]
    refine ⟨?_, ?_, ?_, ?_, ?_, ?_, ?_⟩ <;> omega
  unfold decM
  rw [f6]
  show (guarded (.barx u (dstOf (fld wd 20 6) (fld wd 19 1)) (srcOf (fld wd 7 6)) (finOf 8 (fld wd 0 3))) [(fldRsvd, bitOf (fld wd 13 6) || bitOf (fld wd 3 4)), (srcIll, srcBad (fld wd 7 6)), (dstIll, dstBad (fld wd 20 6) (fld wd 19 1))] : Except Nat Instr) = _
  simp [f0, f1, f2, f3, f4, f5, f6, fldB, guarded]

theorem RoundTrip.acq (u : MSlot) (d : SDst) (o : BitVec 4) : RoundTrip.Statement (.acq u d o) := by
  intro hwf sl wd hs hw
  replace hw : encW 0x10 [(20, dstCode d), (19, dstW d), (0, o.toNat)] = wd := Option.some.inj hw
  have hd : decSlot sl wd = decM u wd := by
    cases u with
    | m0 => obtain rfl : 3 = sl := Option.some.inj hs; rfl
    | m1 => obtain rfl : 4 = sl := Option.some.inj hs; rfl
  refine decSyl_zero (hd.trans ?_)
  have b0 := dstCode_lt d
  have b1 := dstW_lt d
  have b2 := o.isLt
  obtain ⟨f0, f1, f2, f3, f4⟩ :
      fld wd 0 4 = o.toNat ∧ fld wd 4 15 = 0 ∧ fld wd 19 1 = dstW d ∧
      fld wd 20 6 = dstCode d ∧ fld wd 26 6 = 0x10 := by
    subst hw; simp only [fld, encW, encFields, BitVec.toNat_ofNat]
    refine ⟨?_, ?_, ?_, ?_, ?_⟩ <;> omega
  unfold decM
  rw [f4]
  show (guarded (.acq u (dstOf (fld wd 20 6) (fld wd 19 1)) (fldB wd 0 4)) [(fldRsvd, bitOf (fld wd 4 15)), (dstIll, dstBad (fld wd 20 6) (fld wd 19 1))] : Except Nat Instr) = _
  simp [f0, f1, f2, f3, f4, fldB, guarded]

theorem RoundTrip.rel (u : MSlot) (b : SSrc) (m : Bool) (o : BitVec 4) : RoundTrip.Statement (.rel u b m o) := by
  intro hwf sl wd hs hw
  replace hw : encW 0x11 [(7, srcCode b), (4, bitCode m), (0, o.toNat)] = wd := Option.some.inj hw
  have hd : decSlot sl wd = decM u wd := by
    cases u with
    | m0 => obtain rfl : 3 = sl := Option.some.inj hs; rfl
    | m1 => obtain rfl : 4 = sl := Option.some.inj hs; rfl
  refine decSyl_zero (hd.trans ?_)
  have b0 := srcCode_lt b
  have b1 := bitCode_lt m
  have b2 := o.isLt
  obtain ⟨f0, f1, f2, f3, f4, f5⟩ :
      fld wd 0 4 = o.toNat ∧ fld wd 4 1 = bitCode m ∧ fld wd 5 2 = 0 ∧
      fld wd 7 6 = srcCode b ∧ fld wd 13 13 = 0 ∧ fld wd 26 6 = 0x11 := by
    subst hw; simp only [fld, encW, encFields, BitVec.toNat_ofNat]
    refine ⟨?_, ?_, ?_, ?_, ?_, ?_⟩ <;> omega
  unfold decM
  rw [f5]
  show (guarded (.rel u (srcOf (fld wd 7 6)) (bitOf (fld wd 4 1)) (fldB wd 0 4)) [(fldRsvd, bitOf (fld wd 13 13) || bitOf (fld wd 5 2)), (srcIll, srcBad (fld wd 7 6))] : Except Nat Instr) = _
  simp [f0, f1, f2, f3, f4, f5, fldB, guarded]

theorem RoundTrip.bind (u : MSlot) (e : BitVec 4) (a : SSrc) (b : SSrc) (o : BitVec 4) : RoundTrip.Statement (.bind u e a b o) := by
  intro hwf sl wd hs hw
  replace hw : encW 0x12 [(22, e.toNat), (13, srcCode a), (7, srcCode b), (0, o.toNat)] = wd := Option.some.inj hw
  have hd : decSlot sl wd = decM u wd := by
    cases u with
    | m0 => obtain rfl : 3 = sl := Option.some.inj hs; rfl
    | m1 => obtain rfl : 4 = sl := Option.some.inj hs; rfl
  refine decSyl_zero (hd.trans ?_)
  have b0 := e.isLt
  have b1 := srcCode_lt a
  have b2 := srcCode_lt b
  have b3 := o.isLt
  obtain ⟨f0, f1, f2, f3, f4, f5, f6⟩ :
      fld wd 0 4 = o.toNat ∧ fld wd 4 3 = 0 ∧ fld wd 7 6 = srcCode b ∧
      fld wd 13 6 = srcCode a ∧ fld wd 19 3 = 0 ∧ fld wd 22 4 = e.toNat ∧
      fld wd 26 6 = 0x12 := by
    subst hw; simp only [fld, encW, encFields, BitVec.toNat_ofNat]
    refine ⟨?_, ?_, ?_, ?_, ?_, ?_, ?_⟩ <;> omega
  unfold decM
  rw [f6]
  show (guarded (.bind u (fldB wd 22 4) (srcOf (fld wd 13 6)) (srcOf (fld wd 7 6)) (fldB wd 0 4)) [(fldRsvd, bitOf (fld wd 19 3) || bitOf (fld wd 4 3)), (srcIll, srcBad (fld wd 13 6) || srcBad (fld wd 7 6))] : Except Nat Instr) = _
  simp [f0, f1, f2, f3, f4, f5, f6, fldB, guarded]

theorem RoundTrip.rld (u : MSlot) (e : BitVec 4) (s : BitVec 2) (a : SSrc) (h : Bool) : RoundTrip.Statement (.rld u e s a h) := by
  intro hwf sl wd hs hw
  replace hw : encW 0x14 [(22, e.toNat), (20, s.toNat), (13, srcCode a), (4, bitCode h)] = wd := Option.some.inj hw
  have hd : decSlot sl wd = decM u wd := by
    cases u with
    | m0 => obtain rfl : 3 = sl := Option.some.inj hs; rfl
    | m1 => obtain rfl : 4 = sl := Option.some.inj hs; rfl
  refine decSyl_zero (hd.trans ?_)
  have b0 := e.isLt
  have b1 := s.isLt
  have b2 := srcCode_lt a
  have b3 := bitCode_lt h
  obtain ⟨f0, f1, f2, f3, f4, f5, f6, f7⟩ :
      fld wd 0 4 = 0 ∧ fld wd 4 1 = bitCode h ∧ fld wd 5 8 = 0 ∧
      fld wd 13 6 = srcCode a ∧ fld wd 19 1 = 0 ∧ fld wd 20 2 = s.toNat ∧
      fld wd 22 4 = e.toNat ∧ fld wd 26 6 = 0x14 := by
    subst hw; simp only [fld, encW, encFields, BitVec.toNat_ofNat]
    refine ⟨?_, ?_, ?_, ?_, ?_, ?_, ?_, ?_⟩ <;> omega
  unfold decM
  rw [f7]
  show (guarded (.rld u (fldB wd 22 4) (fldB wd 20 2) (srcOf (fld wd 13 6)) (bitOf (fld wd 4 1))) [(fldRsvd, bitOf (fld wd 19 1) || bitOf (fld wd 5 8) || bitOf (fld wd 0 4)), (srcIll, srcBad (fld wd 13 6))] : Except Nat Instr) = _
  simp [f0, f1, f2, f3, f4, f5, f6, f7, fldB, guarded]

theorem RoundTrip.rst (u : MSlot) (e : BitVec 4) (s : BitVec 2) (q : Bool) (a : SSrc) (b : SSrc) (c : BitVec 2) (h : Bool) : RoundTrip.Statement (.rst u e s q a b c h) := by
  intro hwf sl wd hs hw
  replace hw : encW 0x15 [(22, e.toNat), (20, s.toNat), (19, bitCode q), (13, srcCode a), (7, srcCode b), (5, c.toNat), (4, bitCode h)] = wd := Option.some.inj hw
  have hd : decSlot sl wd = decM u wd := by
    cases u with
    | m0 => obtain rfl : 3 = sl := Option.some.inj hs; rfl
    | m1 => obtain rfl : 4 = sl := Option.some.inj hs; rfl
  refine decSyl_zero (hd.trans ?_)
  have b0 := e.isLt
  have b1 := s.isLt
  have b2 := bitCode_lt q
  have b3 := srcCode_lt a
  have b4 := srcCode_lt b
  have b5 := c.isLt
  have b6 := bitCode_lt h
  obtain ⟨f0, f1, f2, f3, f4, f5, f6, f7, f8⟩ :
      fld wd 0 4 = 0 ∧ fld wd 4 1 = bitCode h ∧ fld wd 5 2 = c.toNat ∧
      fld wd 7 6 = srcCode b ∧ fld wd 13 6 = srcCode a ∧ fld wd 19 1 = bitCode q ∧
      fld wd 20 2 = s.toNat ∧ fld wd 22 4 = e.toNat ∧ fld wd 26 6 = 0x15 := by
    subst hw; simp only [fld, encW, encFields, BitVec.toNat_ofNat]
    refine ⟨?_, ?_, ?_, ?_, ?_, ?_, ?_, ?_, ?_⟩ <;> omega
  unfold decM
  rw [f8]
  show (guarded (.rst u (fldB wd 22 4) (fldB wd 20 2) (bitOf (fld wd 19 1)) (srcOf (fld wd 13 6)) (srcOf (fld wd 7 6)) (fldB wd 5 2) (bitOf (fld wd 4 1))) [(fldRsvd, bitOf (fld wd 0 4)), (srcIll, srcBad (fld wd 13 6) || srcBad (fld wd 7 6))] : Except Nat Instr) = _
  simp [f0, f1, f2, f3, f4, f5, f6, f7, f8, fldB, guarded]

theorem RoundTrip.ramo (u : MSlot) (e : BitVec 4) (s : Bool) (a : SSrc) (b : SSrc) (c : BitVec 2) (h : Bool) (o : AOp) : RoundTrip.Statement (.ramo u e s a b c h o) := by
  intro hwf sl wd hs hw
  replace hw : encW 0x16 [(22, e.toNat), (21, 1), (20, bitCode s), (13, srcCode a), (7, srcCode b), (5, c.toNat), (4, bitCode h), (0, aopCode o)] = wd := Option.some.inj hw
  have hd : decSlot sl wd = decM u wd := by
    cases u with
    | m0 => obtain rfl : 3 = sl := Option.some.inj hs; rfl
    | m1 => obtain rfl : 4 = sl := Option.some.inj hs; rfl
  refine decSyl_zero (hd.trans ?_)
  have b0 := e.isLt
  have b1 := bitCode_lt s
  have b2 := srcCode_lt a
  have b3 := srcCode_lt b
  have b4 := c.isLt
  have b5 := bitCode_lt h
  have b6 := aopCode_lt o
  obtain ⟨f0, f1, f2, f3, f4, f5, f6, f7, f8, f9, f10⟩ :
      fld wd 0 3 = aopCode o ∧ fld wd 3 1 = 0 ∧ fld wd 4 1 = bitCode h ∧
      fld wd 5 2 = c.toNat ∧ fld wd 7 6 = srcCode b ∧ fld wd 13 6 = srcCode a ∧
      fld wd 19 1 = 0 ∧ fld wd 20 1 = bitCode s ∧ fld wd 21 1 = 1 ∧
      fld wd 22 4 = e.toNat ∧ fld wd 26 6 = 0x16 := by
    subst hw; simp only [fld, encW, encFields, BitVec.toNat_ofNat]
    refine ⟨?_, ?_, ?_, ?_, ?_, ?_, ?_, ?_, ?_, ?_, ?_⟩ <;> omega
  unfold decM
  rw [f10]
  show (guarded (.ramo u (fldB wd 22 4) (bitOf (fld wd 20 1)) (srcOf (fld wd 13 6)) (srcOf (fld wd 7 6)) (fldB wd 5 2) (bitOf (fld wd 4 1)) (aopOf (fld wd 0 3))) [(fldRsvd, !bitOf (fld wd 21 1) || bitOf (fld wd 19 1) || bitOf (fld wd 3 1)), (srcIll, srcBad (fld wd 13 6) || srcBad (fld wd 7 6))] : Except Nat Instr) = _
  simp [f0, f1, f2, f3, f4, f5, f6, f7, f8, f9, f10, fldB, guarded]
  rfl

theorem RoundTrip.pinset (u : MSlot) (a : SSrc) (k : Bool) : RoundTrip.Statement (.pinset u a k) := by
  intro hwf sl wd hs hw
  replace hw : encW 0x18 [(13, srcCode a), (0, bitCode k)] = wd := Option.some.inj hw
  have hd : decSlot sl wd = decM u wd := by
    cases u with
    | m0 => obtain rfl : 3 = sl := Option.some.inj hs; rfl
    | m1 => obtain rfl : 4 = sl := Option.some.inj hs; rfl
  refine decSyl_zero (hd.trans ?_)
  have b0 := srcCode_lt a
  have b1 := bitCode_lt k
  obtain ⟨f0, f1, f2, f3, f4⟩ :
      fld wd 0 1 = bitCode k ∧ fld wd 1 12 = 0 ∧ fld wd 13 6 = srcCode a ∧
      fld wd 19 7 = 0 ∧ fld wd 26 6 = 0x18 := by
    subst hw; simp only [fld, encW, encFields, BitVec.toNat_ofNat]
    refine ⟨?_, ?_, ?_, ?_, ?_⟩ <;> omega
  unfold decM
  rw [f4]
  show (guarded (.pinset u (srcOf (fld wd 13 6)) (bitOf (fld wd 0 1))) [(fldRsvd, bitOf (fld wd 19 7) || bitOf (fld wd 1 12)), (srcIll, srcBad (fld wd 13 6))] : Except Nat Instr) = _
  simp [f0, f1, f2, f3, f4, fldB, guarded]

theorem RoundTrip.pindrop (u : MSlot) (a : SSrc) : RoundTrip.Statement (.pindrop u a) := by
  intro hwf sl wd hs hw
  replace hw : encW 0x19 [(13, srcCode a)] = wd := Option.some.inj hw
  have hd : decSlot sl wd = decM u wd := by
    cases u with
    | m0 => obtain rfl : 3 = sl := Option.some.inj hs; rfl
    | m1 => obtain rfl : 4 = sl := Option.some.inj hs; rfl
  refine decSyl_zero (hd.trans ?_)
  have b0 := srcCode_lt a
  obtain ⟨f0, f1, f2, f3⟩ :
      fld wd 0 13 = 0 ∧ fld wd 13 6 = srcCode a ∧ fld wd 19 7 = 0 ∧
      fld wd 26 6 = 0x19 := by
    subst hw; simp only [fld, encW, encFields, BitVec.toNat_ofNat]
    refine ⟨?_, ?_, ?_, ?_⟩ <;> omega
  unfold decM
  rw [f3]
  show (guarded (.pindrop u (srcOf (fld wd 13 6))) [(fldRsvd, bitOf (fld wd 19 7) || bitOf (fld wd 0 13)), (srcIll, srcBad (fld wd 13 6))] : Except Nat Instr) = _
  simp [f0, f1, f2, f3, fldB, guarded]

theorem RoundTrip.vadd (k : Fin 8) (d : VDst) (a : VSrc) (b : VSrc) (p : Fin 8) (t : Ty) (m : Bool) : RoundTrip.Statement (.vadd k d a b p t m) := by
  intro hwf sl wd hs hw
  replace hw : encVR 0x00 d a b p (tyCode t) (bitCode m) = wd := Option.some.inj hw
  have hd : decSlot sl wd = decV k wd := by obtain rfl : 5 + k.val = sl := Option.some.inj hs; exact decSlot_v k wd
  refine decSyl_zero (hd.trans ?_)
  have b0 := vdstCode_lt d
  have b1 := vsrcCode_lt a
  have b2 := vsrcCode_lt b
  have b3 := p.isLt
  have b4 := tyCode_lt t
  have b5 := bitCode_lt m
  obtain ⟨f6, f5, f4, f3, f2, f1, f0, _⟩ := encVR_fields hw (by decide) (by omega) (by omega)
  replace hwf : (!m || t.isInt) = true := hwf
  try simp only [decide_eq_true_eq, Bool.and_eq_true, Bool.or_eq_true, Bool.not_eq_true', seqFields] at hwf
  unfold decV
  rw [f6]
  show (decVR wd (badAddMod (fld wd 2 3) (fld wd 0 2)) fun d a b p => .vadd k d a b p (tyOf (fld wd 2 3)) (bitOf (fld wd 0 2)) : Except Nat Instr) = _
  simp [decVR, f0, f1, f2, f3, f4, f5, f6, fldB, guarded, hwf, tyCode_ne t, badAddMod]
  cases m <;> simp_all [bitCode]

theorem RoundTrip.vaddi (k : Fin 8) (d : VDst) (a : VSrc) (p : Fin 8) (t : Ty) (i : BitVec 8) : RoundTrip.Statement (.vaddi k d a p t i) := by
  intro hwf sl wd hs hw
  replace hw : encVI 0x20 d a p t i = wd := Option.some.inj hw
  have hd : decSlot sl wd = decV k wd := by obtain rfl : 5 + k.val = sl := Option.some.inj hs; exact decSlot_v k wd
  refine decSyl_zero (hd.trans ?_)
  have b0 := vdstCode_lt d
  have b1 := vsrcCode_lt a
  have b2 := p.isLt
  have b3 := tyCode_lt t
  have b4 := i.isLt
  obtain ⟨f5, f4, f3, f2, f1, f0⟩ := encVI_fields hw (by decide)
  unfold decV
  rw [f5]
  show (decVI wd (decide (fld wd 8 3 = 7)) false (.vaddi k) : Except Nat Instr) = _
  simp [decVI, f0, f1, f2, f3, f4, f5, fldB, guarded, tyCode_ne t]

theorem RoundTrip.vsub (k : Fin 8) (d : VDst) (a : VSrc) (b : VSrc) (p : Fin 8) (t : Ty) (m : Bool) : RoundTrip.Statement (.vsub k d a b p t m) := by
  intro hwf sl wd hs hw
  replace hw : encVR 0x01 d a b p (tyCode t) (bitCode m) = wd := Option.some.inj hw
  have hd : decSlot sl wd = decV k wd := by obtain rfl : 5 + k.val = sl := Option.some.inj hs; exact decSlot_v k wd
  refine decSyl_zero (hd.trans ?_)
  have b0 := vdstCode_lt d
  have b1 := vsrcCode_lt a
  have b2 := vsrcCode_lt b
  have b3 := p.isLt
  have b4 := tyCode_lt t
  have b5 := bitCode_lt m
  obtain ⟨f6, f5, f4, f3, f2, f1, f0, _⟩ := encVR_fields hw (by decide) (by omega) (by omega)
  replace hwf : (!m || t.isInt) = true := hwf
  try simp only [decide_eq_true_eq, Bool.and_eq_true, Bool.or_eq_true, Bool.not_eq_true', seqFields] at hwf
  unfold decV
  rw [f6]
  show (decVR wd (badAddMod (fld wd 2 3) (fld wd 0 2)) fun d a b p => .vsub k d a b p (tyOf (fld wd 2 3)) (bitOf (fld wd 0 2)) : Except Nat Instr) = _
  simp [decVR, f0, f1, f2, f3, f4, f5, f6, fldB, guarded, hwf, tyCode_ne t, badAddMod]
  cases m <;> simp_all [bitCode]

theorem RoundTrip.vmul (k : Fin 8) (d : VDst) (a : VSrc) (b : VSrc) (p : Fin 8) (t : Ty) (m : MulMod) : RoundTrip.Statement (.vmul k d a b p t m) := by
  intro hwf sl wd hs hw
  replace hw : encVR 0x02 d a b p (tyCode t) (mulModCode m) = wd := Option.some.inj hw
  have hd : decSlot sl wd = decV k wd := by obtain rfl : 5 + k.val = sl := Option.some.inj hs; exact decSlot_v k wd
  refine decSyl_zero (hd.trans ?_)
  have b0 := vdstCode_lt d
  have b1 := vsrcCode_lt a
  have b2 := vsrcCode_lt b
  have b3 := p.isLt
  have b4 := tyCode_lt t
  have b5 := mulModCode_lt m
  obtain ⟨f6, f5, f4, f3, f2, f1, f0, _⟩ := encVR_fields hw (by decide) (by omega) (by omega)
  replace hwf : (decide (m = .lo) || t.isInt) = true := hwf
  try simp only [decide_eq_true_eq, Bool.and_eq_true, Bool.or_eq_true, Bool.not_eq_true', seqFields] at hwf
  unfold decV
  rw [f6]
  show (decVR wd (badMulMod (fld wd 2 3) (fld wd 0 2)) fun d a b p => .vmul k d a b p (tyOf (fld wd 2 3)) (mulModOf (fld wd 0 2)) : Except Nat Instr) = _
  simp [decVR, f0, f1, f2, f3, f4, f5, f6, fldB, guarded, hwf, tyCode_ne t, badMulMod]
  cases m <;> simp_all [mulModCode]

theorem RoundTrip.vmuli (k : Fin 8) (d : VDst) (a : VSrc) (p : Fin 8) (t : Ty) (i : BitVec 8) : RoundTrip.Statement (.vmuli k d a p t i) := by
  intro hwf sl wd hs hw
  replace hw : encVI 0x22 d a p t i = wd := Option.some.inj hw
  have hd : decSlot sl wd = decV k wd := by obtain rfl : 5 + k.val = sl := Option.some.inj hs; exact decSlot_v k wd
  refine decSyl_zero (hd.trans ?_)
  have b0 := vdstCode_lt d
  have b1 := vsrcCode_lt a
  have b2 := p.isLt
  have b3 := tyCode_lt t
  have b4 := i.isLt
  obtain ⟨f5, f4, f3, f2, f1, f0⟩ := encVI_fields hw (by decide)
  unfold decV
  rw [f5]
  show (decVI wd (decide (fld wd 8 3 = 7)) false (.vmuli k) : Except Nat Instr) = _
  simp [decVI, f0, f1, f2, f3, f4, f5, fldB, guarded, tyCode_ne t]

theorem RoundTrip.vfma (k : Fin 8) (d : Fin 32) (a : VSrc) (b : VSrc) (p : Fin 8) (t : Ty) (m : BitVec 2) : RoundTrip.Statement (.vfma k d a b p t m) := by
  intro hwf sl wd hs hw
  replace hw : encW 0x03 [(20, d.val), (14, vsrcCode a), (8, vsrcCode b), (5, p.val), (2, tyCode t), (0, m.toNat)] = wd := Option.some.inj hw
  have hd : decSlot sl wd = decV k wd := by obtain rfl : 5 + k.val = sl := Option.some.inj hs; exact decSlot_v k wd
  refine decSyl_zero (hd.trans ?_)
  have b0 := d.isLt
  have b1 := vsrcCode_lt a
  have b2 := vsrcCode_lt b
  have b3 := p.isLt
  have b4 := tyCode_lt t
  have b5 := m.isLt
  obtain ⟨f0, f1, f2, f3, f4, f5, f6⟩ :
      fld wd 0 2 = m.toNat ∧ fld wd 2 3 = tyCode t ∧ fld wd 5 3 = p.val ∧
      fld wd 8 6 = vsrcCode b ∧ fld wd 14 6 = vsrcCode a ∧ fld wd 20 6 = (d.val) ∧
      fld wd 26 6 = 0x03 := by
    subst hw; simp only [fld, encW, encFields, BitVec.toNat_ofNat]
    refine ⟨?_, ?_, ?_, ?_, ?_, ?_, ?_⟩ <;> omega
  replace hwf : (t.isFloat) = true := hwf
  try simp only [decide_eq_true_eq, Bool.and_eq_true, Bool.or_eq_true, Bool.not_eq_true', seqFields] at hwf
  unfold decV
  rw [f6]
  show (guarded (.vfma k (finOf 32 (fld wd 20 6)) (vsrcOf (fld wd 14 6)) (vsrcOf (fld wd 8 6)) (finOf 8 (fld wd 5 3)) (tyOf (fld wd 2 3)) (fldB wd 0 2)) [(fldRsvd, decide (fld wd 2 3 = 7) || !(tyOf (fld wd 2 3)).isFloat), (vopIll, decide (32 ≤ fld wd 20 6) || vsrcBad (fld wd 14 6) || vsrcBad (fld wd 8 6))] : Except Nat Instr) = _
  simp [f0, f1, f2, f3, f4, f5, f6, fldB, guarded, hwf, tyCode_ne t]

theorem RoundTrip.vmin (k : Fin 8) (d : VDst) (a : VSrc) (b : VSrc) (p : Fin 8) (t : Ty) : RoundTrip.Statement (.vmin k d a b p t) := by
  intro hwf sl wd hs hw
  replace hw : encVR 0x04 d a b p (tyCode t) 0 = wd := Option.some.inj hw
  have hd : decSlot sl wd = decV k wd := by obtain rfl : 5 + k.val = sl := Option.some.inj hs; exact decSlot_v k wd
  refine decSyl_zero (hd.trans ?_)
  have b0 := vdstCode_lt d
  have b1 := vsrcCode_lt a
  have b2 := vsrcCode_lt b
  have b3 := p.isLt
  have b4 := tyCode_lt t
  obtain ⟨f6, f5, f4, f3, f2, f1, f0, _⟩ := encVR_fields hw (by decide) (by omega) (by omega)
  unfold decV
  rw [f6]
  show (decVR wd (decide (fld wd 2 3 = 7) || bitOf (fld wd 0 2)) fun d a b p => .vmin k d a b p (tyOf (fld wd 2 3)) : Except Nat Instr) = _
  simp [decVR, f0, f1, f2, f3, f4, f5, f6, fldB, guarded, tyCode_ne t]

theorem RoundTrip.vmax (k : Fin 8) (d : VDst) (a : VSrc) (b : VSrc) (p : Fin 8) (t : Ty) : RoundTrip.Statement (.vmax k d a b p t) := by
  intro hwf sl wd hs hw
  replace hw : encVR 0x05 d a b p (tyCode t) 0 = wd := Option.some.inj hw
  have hd : decSlot sl wd = decV k wd := by obtain rfl : 5 + k.val = sl := Option.some.inj hs; exact decSlot_v k wd
  refine decSyl_zero (hd.trans ?_)
  have b0 := vdstCode_lt d
  have b1 := vsrcCode_lt a
  have b2 := vsrcCode_lt b
  have b3 := p.isLt
  have b4 := tyCode_lt t
  obtain ⟨f6, f5, f4, f3, f2, f1, f0, _⟩ := encVR_fields hw (by decide) (by omega) (by omega)
  unfold decV
  rw [f6]
  show (decVR wd (decide (fld wd 2 3 = 7) || bitOf (fld wd 0 2)) fun d a b p => .vmax k d a b p (tyOf (fld wd 2 3)) : Except Nat Instr) = _
  simp [decVR, f0, f1, f2, f3, f4, f5, f6, fldB, guarded, tyCode_ne t]

theorem RoundTrip.vcmp (k : Fin 8) (d : Fin 8) (c : VCnd) (a : VSrc) (b : VSrc) (p : Fin 8) (t : Ty) (m : Bool) : RoundTrip.Statement (.vcmp k d c a b p t m) := by
  intro hwf sl wd hs hw
  replace hw : encW 0x06 [(23, d.val), (20, vcndCode c), (14, vsrcCode a), (8, vsrcCode b), (5, p.val), (2, tyCode t), (0, bitCode m)] = wd := Option.some.inj hw
  have hd : decSlot sl wd = decV k wd := by obtain rfl : 5 + k.val = sl := Option.some.inj hs; exact decSlot_v k wd
  refine decSyl_zero (hd.trans ?_)
  have b0 := d.isLt
  have b1 := vcndCode_lt c
  have b2 := vsrcCode_lt a
  have b3 := vsrcCode_lt b
  have b4 := p.isLt
  have b5 := tyCode_lt t
  have b6 := bitCode_lt m
  obtain ⟨f0, f1, f2, f3, f4, f5, f6, f7⟩ :
      fld wd 0 2 = (bitCode m) ∧ fld wd 2 3 = tyCode t ∧ fld wd 5 3 = p.val ∧
      fld wd 8 6 = vsrcCode b ∧ fld wd 14 6 = vsrcCode a ∧ fld wd 20 3 = vcndCode c ∧
      fld wd 23 3 = d.val ∧ fld wd 26 6 = 0x06 := by
    subst hw; simp only [fld, encW, encFields, BitVec.toNat_ofNat]
    refine ⟨?_, ?_, ?_, ?_, ?_, ?_, ?_, ?_⟩ <;> omega
  replace hwf : (t.is32 && (decide (t = .f32) || !(decide (c = .uo) || decide (c = .ord)))) = true := hwf
  try simp only [decide_eq_true_eq, Bool.and_eq_true, Bool.or_eq_true, Bool.not_eq_true', seqFields] at hwf
  unfold decV
  rw [f7]
  show (guarded (.vcmp k (finOf 8 (fld wd 23 3)) (vcndOf (fld wd 20 3)) (vsrcOf (fld wd 14 6)) (vsrcOf (fld wd 8 6)) (finOf 8 (fld wd 5 3)) (tyOf (fld wd 2 3)) (bitOf (fld wd 0 2))) [(fldRsvd, decide (3 ≤ fld wd 2 3) || decide (2 ≤ fld wd 0 2) || (decide (6 ≤ fld wd 20 3) && decide (fld wd 2 3 ≠ 0))), (vopIll, vsrcBad (fld wd 14 6) || vsrcBad (fld wd 8 6))] : Except Nat Instr) = _
  simp [f0, f1, f2, f3, f4, f5, f6, f7, fldB, guarded, hwf, tyCode_ne t]
  cases t <;> cases c <;> cases m <;> simp_all [tyCode, bitCode, vcndCode, Ty.is32]

theorem RoundTrip.vsel (k : Fin 8) (d : VDst) (a : VSrc) (b : VSrc) (p : Fin 8) (t : Ty) : RoundTrip.Statement (.vsel k d a b p t) := by
  intro hwf sl wd hs hw
  replace hw : encVR 0x07 d a b p (tyCode t) 0 = wd := Option.some.inj hw
  have hd : decSlot sl wd = decV k wd := by obtain rfl : 5 + k.val = sl := Option.some.inj hs; exact decSlot_v k wd
  refine decSyl_zero (hd.trans ?_)
  have b0 := vdstCode_lt d
  have b1 := vsrcCode_lt a
  have b2 := vsrcCode_lt b
  have b3 := p.isLt
  have b4 := tyCode_lt t
  obtain ⟨f6, f5, f4, f3, f2, f1, f0, _⟩ := encVR_fields hw (by decide) (by omega) (by omega)
  unfold decV
  rw [f6]
  show (decVR wd (decide (fld wd 2 3 = 7) || bitOf (fld wd 0 2)) fun d a b p => .vsel k d a b p (tyOf (fld wd 2 3)) : Except Nat Instr) = _
  simp [decVR, f0, f1, f2, f3, f4, f5, f6, fldB, guarded, tyCode_ne t]

theorem RoundTrip.vand (k : Fin 8) (d : VDst) (a : VSrc) (b : VSrc) (p : Fin 8) (t : Ty) : RoundTrip.Statement (.vand k d a b p t) := by
  intro hwf sl wd hs hw
  replace hw : encVR 0x08 d a b p (tyCode t) 0 = wd := Option.some.inj hw
  have hd : decSlot sl wd = decV k wd := by obtain rfl : 5 + k.val = sl := Option.some.inj hs; exact decSlot_v k wd
  refine decSyl_zero (hd.trans ?_)
  have b0 := vdstCode_lt d
  have b1 := vsrcCode_lt a
  have b2 := vsrcCode_lt b
  have b3 := p.isLt
  have b4 := tyCode_lt t
  obtain ⟨f6, f5, f4, f3, f2, f1, f0, _⟩ := encVR_fields hw (by decide) (by omega) (by omega)
  unfold decV
  rw [f6]
  show (decVR wd (decide (fld wd 2 3 = 7) || bitOf (fld wd 0 2)) fun d a b p => .vand k d a b p (tyOf (fld wd 2 3)) : Except Nat Instr) = _
  simp [decVR, f0, f1, f2, f3, f4, f5, f6, fldB, guarded, tyCode_ne t]

theorem RoundTrip.vor (k : Fin 8) (d : VDst) (a : VSrc) (b : VSrc) (p : Fin 8) (t : Ty) : RoundTrip.Statement (.vor k d a b p t) := by
  intro hwf sl wd hs hw
  replace hw : encVR 0x09 d a b p (tyCode t) 0 = wd := Option.some.inj hw
  have hd : decSlot sl wd = decV k wd := by obtain rfl : 5 + k.val = sl := Option.some.inj hs; exact decSlot_v k wd
  refine decSyl_zero (hd.trans ?_)
  have b0 := vdstCode_lt d
  have b1 := vsrcCode_lt a
  have b2 := vsrcCode_lt b
  have b3 := p.isLt
  have b4 := tyCode_lt t
  obtain ⟨f6, f5, f4, f3, f2, f1, f0, _⟩ := encVR_fields hw (by decide) (by omega) (by omega)
  unfold decV
  rw [f6]
  show (decVR wd (decide (fld wd 2 3 = 7) || bitOf (fld wd 0 2)) fun d a b p => .vor k d a b p (tyOf (fld wd 2 3)) : Except Nat Instr) = _
  simp [decVR, f0, f1, f2, f3, f4, f5, f6, fldB, guarded, tyCode_ne t]

theorem RoundTrip.vxor (k : Fin 8) (d : VDst) (a : VSrc) (b : VSrc) (p : Fin 8) (t : Ty) : RoundTrip.Statement (.vxor k d a b p t) := by
  intro hwf sl wd hs hw
  replace hw : encVR 0x0A d a b p (tyCode t) 0 = wd := Option.some.inj hw
  have hd : decSlot sl wd = decV k wd := by obtain rfl : 5 + k.val = sl := Option.some.inj hs; exact decSlot_v k wd
  refine decSyl_zero (hd.trans ?_)
  have b0 := vdstCode_lt d
  have b1 := vsrcCode_lt a
  have b2 := vsrcCode_lt b
  have b3 := p.isLt
  have b4 := tyCode_lt t
  obtain ⟨f6, f5, f4, f3, f2, f1, f0, _⟩ := encVR_fields hw (by decide) (by omega) (by omega)
  unfold decV
  rw [f6]
  show (decVR wd (decide (fld wd 2 3 = 7) || bitOf (fld wd 0 2)) fun d a b p => .vxor k d a b p (tyOf (fld wd 2 3)) : Except Nat Instr) = _
  simp [decVR, f0, f1, f2, f3, f4, f5, f6, fldB, guarded, tyCode_ne t]

theorem RoundTrip.vshl (k : Fin 8) (d : VDst) (a : VSrc) (b : VSrc) (p : Fin 8) (t : Ty) : RoundTrip.Statement (.vshl k d a b p t) := by
  intro hwf sl wd hs hw
  replace hw : encVR 0x0B d a b p (tyCode t) 0 = wd := Option.some.inj hw
  have hd : decSlot sl wd = decV k wd := by obtain rfl : 5 + k.val = sl := Option.some.inj hs; exact decSlot_v k wd
  refine decSyl_zero (hd.trans ?_)
  have b0 := vdstCode_lt d
  have b1 := vsrcCode_lt a
  have b2 := vsrcCode_lt b
  have b3 := p.isLt
  have b4 := tyCode_lt t
  obtain ⟨f6, f5, f4, f3, f2, f1, f0, _⟩ := encVR_fields hw (by decide) (by omega) (by omega)
  replace hwf : (t.isInt) = true := hwf
  try simp only [decide_eq_true_eq, Bool.and_eq_true, Bool.or_eq_true, Bool.not_eq_true', seqFields] at hwf
  unfold decV
  rw [f6]
  show (decVR wd (badInt (fld wd 2 3) || bitOf (fld wd 0 2)) fun d a b p => .vshl k d a b p (tyOf (fld wd 2 3)) : Except Nat Instr) = _
  simp [decVR, f0, f1, f2, f3, f4, f5, f6, fldB, guarded, hwf, tyCode_ne t, badInt]

theorem RoundTrip.vshli (k : Fin 8) (d : VDst) (a : VSrc) (p : Fin 8) (t : Ty) (i : BitVec 8) : RoundTrip.Statement (.vshli k d a p t i) := by
  intro hwf sl wd hs hw
  replace hw : encVI 0x2B d a p t i = wd := Option.some.inj hw
  have hd : decSlot sl wd = decV k wd := by obtain rfl : 5 + k.val = sl := Option.some.inj hs; exact decSlot_v k wd
  refine decSyl_zero (hd.trans ?_)
  have b0 := vdstCode_lt d
  have b1 := vsrcCode_lt a
  have b2 := p.isLt
  have b3 := tyCode_lt t
  have b4 := i.isLt
  obtain ⟨f5, f4, f3, f2, f1, f0⟩ := encVI_fields hw (by decide)
  replace hwf : (t.isInt && decide (i.toNat < t.bits)) = true := hwf
  try simp only [decide_eq_true_eq, Bool.and_eq_true, Bool.or_eq_true, Bool.not_eq_true', seqFields] at hwf
  unfold decV
  rw [f5]
  show (decVI wd (badInt (fld wd 8 3)) (decide ((tyOf (fld wd 8 3)).bits ≤ fld wd 0 8)) (.vshli k) : Except Nat Instr) = _
  simp [decVI, f0, f1, f2, f3, f4, f5, fldB, guarded, hwf, tyCode_ne t, badInt]

theorem RoundTrip.vshr (k : Fin 8) (d : VDst) (a : VSrc) (b : VSrc) (p : Fin 8) (t : Ty) : RoundTrip.Statement (.vshr k d a b p t) := by
  intro hwf sl wd hs hw
  replace hw : encVR 0x0C d a b p (tyCode t) 0 = wd := Option.some.inj hw
  have hd : decSlot sl wd = decV k wd := by obtain rfl : 5 + k.val = sl := Option.some.inj hs; exact decSlot_v k wd
  refine decSyl_zero (hd.trans ?_)
  have b0 := vdstCode_lt d
  have b1 := vsrcCode_lt a
  have b2 := vsrcCode_lt b
  have b3 := p.isLt
  have b4 := tyCode_lt t
  obtain ⟨f6, f5, f4, f3, f2, f1, f0, _⟩ := encVR_fields hw (by decide) (by omega) (by omega)
  replace hwf : (t.isInt) = true := hwf
  try simp only [decide_eq_true_eq, Bool.and_eq_true, Bool.or_eq_true, Bool.not_eq_true', seqFields] at hwf
  unfold decV
  rw [f6]
  show (decVR wd (badInt (fld wd 2 3) || bitOf (fld wd 0 2)) fun d a b p => .vshr k d a b p (tyOf (fld wd 2 3)) : Except Nat Instr) = _
  simp [decVR, f0, f1, f2, f3, f4, f5, f6, fldB, guarded, hwf, tyCode_ne t, badInt]

theorem RoundTrip.vshri (k : Fin 8) (d : VDst) (a : VSrc) (p : Fin 8) (t : Ty) (i : BitVec 8) : RoundTrip.Statement (.vshri k d a p t i) := by
  intro hwf sl wd hs hw
  replace hw : encVI 0x2C d a p t i = wd := Option.some.inj hw
  have hd : decSlot sl wd = decV k wd := by obtain rfl : 5 + k.val = sl := Option.some.inj hs; exact decSlot_v k wd
  refine decSyl_zero (hd.trans ?_)
  have b0 := vdstCode_lt d
  have b1 := vsrcCode_lt a
  have b2 := p.isLt
  have b3 := tyCode_lt t
  have b4 := i.isLt
  obtain ⟨f5, f4, f3, f2, f1, f0⟩ := encVI_fields hw (by decide)
  replace hwf : (t.isInt && decide (i.toNat < t.bits)) = true := hwf
  try simp only [decide_eq_true_eq, Bool.and_eq_true, Bool.or_eq_true, Bool.not_eq_true', seqFields] at hwf
  unfold decV
  rw [f5]
  show (decVI wd (badInt (fld wd 8 3)) (decide ((tyOf (fld wd 8 3)).bits ≤ fld wd 0 8)) (.vshri k) : Except Nat Instr) = _
  simp [decVI, f0, f1, f2, f3, f4, f5, fldB, guarded, hwf, tyCode_ne t, badInt]

theorem RoundTrip.vcvt (k : Fin 8) (d : VDst) (a : VSrc) (f : BitVec 6) (r : Bool) (n : BitVec 2) (p : Fin 8) (q : BitVec 2) : RoundTrip.Statement (.vcvt k d a f r n p q) := by
  intro hwf sl wd hs hw
  replace hw : encW 0x0D [(20, vdstCode d), (14, vsrcCode a), (8, f.toNat), (7, bitCode r), (5, n.toNat), (2, p.val), (0, q.toNat)] = wd := Option.some.inj hw
  have hd : decSlot sl wd = decV k wd := by obtain rfl : 5 + k.val = sl := Option.some.inj hs; exact decSlot_v k wd
  refine decSyl_zero (hd.trans ?_)
  have b0 := vdstCode_lt d
  have b1 := vsrcCode_lt a
  have b2 := f.isLt
  have b3 := bitCode_lt r
  have b4 := n.isLt
  have b5 := p.isLt
  have b6 := q.isLt
  obtain ⟨f0, f1, f2, f3, f4, f5, f6, f7⟩ :
      fld wd 0 2 = q.toNat ∧ fld wd 2 3 = p.val ∧ fld wd 5 2 = n.toNat ∧
      fld wd 7 1 = bitCode r ∧ fld wd 8 6 = f.toNat ∧ fld wd 14 6 = vsrcCode a ∧
      fld wd 20 6 = vdstCode d ∧ fld wd 26 6 = 0x0D := by
    subst hw; simp only [fld, encW, encFields, BitVec.toNat_ofNat]
    refine ⟨?_, ?_, ?_, ?_, ?_, ?_, ?_, ?_⟩ <;> omega
  replace hwf : (codeCvt f && decide (q.toNat ≤ cvtMaxQ f) && cvtDst d f r && (!r || codeCvt4 f || decide (n = 0))) = true := hwf
  try simp only [decide_eq_true_eq, Bool.and_eq_true, Bool.or_eq_true, Bool.not_eq_true', seqFields] at hwf
  unfold decV
  rw [f7]
  show (let f := fldB wd 8 6; guarded (.vcvt k (vdstOf (fld wd 20 6)) (vsrcOf (fld wd 14 6)) f (bitOf (fld wd 7 1)) (fldB wd 5 2) (finOf 8 (fld wd 2 3)) (fldB wd 0 2)) [(fldRsvd, codeCvt f && (decide (cvtMaxQ f < fld wd 0 2) || (bitOf (fld wd 7 1) && !codeCvt4 f && bitOf (fld wd 5 2)))), (vopIll, vdstBad (fld wd 20 6) || vsrcBad (fld wd 14 6) || (codeCvt f && !cvtDst (vdstOf (fld wd 20 6)) f (bitOf (fld wd 7 1)))), (fmtRsvd, !codeCvt f)] : Except Nat Instr) = _
  simp [f0, f1, f2, f3, f4, f5, f6, f7, fldB, guarded, hwf]
  intro hr h4
  simp_all [bitOf]

theorem RoundTrip.vrcp (k : Fin 8) (d : VDst) (a : VSrc) (p : Fin 8) : RoundTrip.Statement (.vrcp k d a p) := by
  intro hwf sl wd hs hw
  replace hw : encVA 0x0E d a p 0 0 = wd := Option.some.inj hw
  have hd : decSlot sl wd = decV k wd := by obtain rfl : 5 + k.val = sl := Option.some.inj hs; exact decSlot_v k wd
  refine decSyl_zero (hd.trans ?_)
  have b0 := vdstCode_lt d
  have b1 := vsrcCode_lt a
  have b2 := p.isLt
  obtain ⟨f5, f4, f3, f2, f1, _, _, f0⟩ := encVA_fields hw (by decide) (by omega) (by omega)
  unfold decV
  rw [f5]
  show (decVA wd (.vrcp k) : Except Nat Instr) = _
  simp [decVA, f0, f1, f2, f3, f4, f5, fldB, guarded]

theorem RoundTrip.vrsq (k : Fin 8) (d : VDst) (a : VSrc) (p : Fin 8) : RoundTrip.Statement (.vrsq k d a p) := by
  intro hwf sl wd hs hw
  replace hw : encVA 0x0F d a p 0 0 = wd := Option.some.inj hw
  have hd : decSlot sl wd = decV k wd := by obtain rfl : 5 + k.val = sl := Option.some.inj hs; exact decSlot_v k wd
  refine decSyl_zero (hd.trans ?_)
  have b0 := vdstCode_lt d
  have b1 := vsrcCode_lt a
  have b2 := p.isLt
  obtain ⟨f5, f4, f3, f2, f1, _, _, f0⟩ := encVA_fields hw (by decide) (by omega) (by omega)
  unfold decV
  rw [f5]
  show (decVA wd (.vrsq k) : Except Nat Instr) = _
  simp [decVA, f0, f1, f2, f3, f4, f5, fldB, guarded]

theorem RoundTrip.vexp2 (k : Fin 8) (d : VDst) (a : VSrc) (p : Fin 8) : RoundTrip.Statement (.vexp2 k d a p) := by
  intro hwf sl wd hs hw
  replace hw : encVA 0x10 d a p 0 0 = wd := Option.some.inj hw
  have hd : decSlot sl wd = decV k wd := by obtain rfl : 5 + k.val = sl := Option.some.inj hs; exact decSlot_v k wd
  refine decSyl_zero (hd.trans ?_)
  have b0 := vdstCode_lt d
  have b1 := vsrcCode_lt a
  have b2 := p.isLt
  obtain ⟨f5, f4, f3, f2, f1, _, _, f0⟩ := encVA_fields hw (by decide) (by omega) (by omega)
  unfold decV
  rw [f5]
  show (decVA wd (.vexp2 k) : Except Nat Instr) = _
  simp [decVA, f0, f1, f2, f3, f4, f5, fldB, guarded]

theorem RoundTrip.vlog2 (k : Fin 8) (d : VDst) (a : VSrc) (p : Fin 8) : RoundTrip.Statement (.vlog2 k d a p) := by
  intro hwf sl wd hs hw
  replace hw : encVA 0x11 d a p 0 0 = wd := Option.some.inj hw
  have hd : decSlot sl wd = decV k wd := by obtain rfl : 5 + k.val = sl := Option.some.inj hs; exact decSlot_v k wd
  refine decSyl_zero (hd.trans ?_)
  have b0 := vdstCode_lt d
  have b1 := vsrcCode_lt a
  have b2 := p.isLt
  obtain ⟨f5, f4, f3, f2, f1, _, _, f0⟩ := encVA_fields hw (by decide) (by omega) (by omega)
  unfold decV
  rw [f5]
  show (decVA wd (.vlog2 k) : Except Nat Instr) = _
  simp [decVA, f0, f1, f2, f3, f4, f5, fldB, guarded]

theorem RoundTrip.vwel (k : Fin 8) (d : Fin 8) (a : VSrc) (p : Fin 8) : RoundTrip.Statement (.vwel k d a p) := by
  intro hwf sl wd hs hw
  replace hw : encW 0x12 [(20, 4 * d.val), (14, vsrcCode a), (5, p.val)] = wd := Option.some.inj hw
  have hd : decSlot sl wd = decV k wd := by obtain rfl : 5 + k.val = sl := Option.some.inj hs; exact decSlot_v k wd
  refine decSyl_zero (hd.trans ?_)
  have b0 := d.isLt
  have b1 := vsrcCode_lt a
  have b2 := p.isLt
  obtain ⟨f0, f1, f2, f3, f4, f5⟩ :
      fld wd 0 5 = 0 ∧ fld wd 5 3 = p.val ∧ fld wd 8 6 = 0 ∧
      fld wd 14 6 = vsrcCode a ∧ fld wd 20 6 = 4 * d.val ∧ fld wd 26 6 = 0x12 := by
    subst hw; simp only [fld, encW, encFields, BitVec.toNat_ofNat]
    refine ⟨?_, ?_, ?_, ?_, ?_, ?_⟩ <;> omega
  unfold decV
  rw [f5]
  show (guarded (.vwel k (finOf 8 (fld wd 20 6 / 4)) (vsrcOf (fld wd 14 6)) (finOf 8 (fld wd 5 3))) [(fldRsvd, bitOf (fld wd 8 6) || bitOf (fld wd 0 5)), (vopIll, decide (28 < fld wd 20 6) || decide (fld wd 20 6 % 4 ≠ 0) || vsrcBad (fld wd 14 6))] : Except Nat Instr) = _
  simp [f0, f1, f2, f3, f4, f5, fldB, guarded]
  omega

theorem RoundTrip.vwmg (k : Fin 8) (d : Fin 8) (a : Fin 8) (p : Fin 8) : RoundTrip.Statement (.vwmg k d a p) := by
  intro hwf sl wd hs hw
  replace hw : encW 0x13 [(20, 4 * d.val), (14, 4 * a.val), (5, p.val)] = wd := Option.some.inj hw
  have hd : decSlot sl wd = decV k wd := by obtain rfl : 5 + k.val = sl := Option.some.inj hs; exact decSlot_v k wd
  refine decSyl_zero (hd.trans ?_)
  have b0 := d.isLt
  have b1 := a.isLt
  have b2 := p.isLt
  obtain ⟨f0, f1, f2, f3, f4, f5⟩ :
      fld wd 0 5 = 0 ∧ fld wd 5 3 = p.val ∧ fld wd 8 6 = 0 ∧
      fld wd 14 6 = 4 * a.val ∧ fld wd 20 6 = 4 * d.val ∧ fld wd 26 6 = 0x13 := by
    subst hw; simp only [fld, encW, encFields, BitVec.toNat_ofNat]
    refine ⟨?_, ?_, ?_, ?_, ?_, ?_⟩ <;> omega
  unfold decV
  rw [f5]
  show (guarded (.vwmg k (finOf 8 (fld wd 20 6 / 4)) (finOf 8 (fld wd 14 6 / 4)) (finOf 8 (fld wd 5 3))) [(fldRsvd, bitOf (fld wd 8 6) || bitOf (fld wd 0 5)), (vopIll, decide (28 < fld wd 20 6) || decide (fld wd 20 6 % 4 ≠ 0) || decide (28 < fld wd 14 6) || decide (fld wd 14 6 % 4 ≠ 0))] : Except Nat Instr) = _
  simp [f0, f1, f2, f3, f4, f5, fldB, guarded]
  omega

theorem RoundTrip.vred (k : Fin 8) (d : VDst) (a : VSrc) (p : Fin 8) (t : Ty) (m : ROp) : RoundTrip.Statement (.vred k d a p t m) := by
  intro hwf sl wd hs hw
  replace hw : encVA 0x14 d a p (tyCode t) (ropCode m) = wd := Option.some.inj hw
  have hd : decSlot sl wd = decV k wd := by obtain rfl : 5 + k.val = sl := Option.some.inj hs; exact decSlot_v k wd
  refine decSyl_zero (hd.trans ?_)
  have b0 := vdstCode_lt d
  have b1 := vsrcCode_lt a
  have b2 := p.isLt
  have b3 := tyCode_lt t
  have b4 := ropCode_lt m
  obtain ⟨f6, f5, f4, f3, f2, f1, f0, _⟩ := encVA_fields hw (by decide) (by omega) (by omega)
  replace hwf : (t.is32) = true := hwf
  try simp only [decide_eq_true_eq, Bool.and_eq_true, Bool.or_eq_true, Bool.not_eq_true', seqFields] at hwf
  unfold decV
  rw [f6]
  show (guarded (.vred k (vdstOf (fld wd 20 6)) (vsrcOf (fld wd 14 6)) (finOf 8 (fld wd 5 3)) (tyOf (fld wd 2 3)) (ropOf (fld wd 0 2))) [(fldRsvd, bitOf (fld wd 8 6) || decide (3 ≤ fld wd 2 3) || decide (fld wd 0 2 = 3)), (vopIll, vdstBad (fld wd 20 6) || vsrcBad (fld wd 14 6))] : Except Nat Instr) = _
  simp [f0, f1, f2, f3, f4, f5, f6, fldB, guarded, hwf, tyCode_ne t]
  cases t <;> cases m <;> simp_all [tyCode, ropCode, Ty.is32]

theorem RoundTrip.vperm (k : Fin 8) (d : VDst) (a : VSrc) (b : VSrc) (p : Fin 8) : RoundTrip.Statement (.vperm k d a b p) := by
  intro hwf sl wd hs hw
  replace hw : encVR 0x15 d a b p 0 0 = wd := Option.some.inj hw
  have hd : decSlot sl wd = decV k wd := by obtain rfl : 5 + k.val = sl := Option.some.inj hs; exact decSlot_v k wd
  refine decSyl_zero (hd.trans ?_)
  have b0 := vdstCode_lt d
  have b1 := vsrcCode_lt a
  have b2 := vsrcCode_lt b
  have b3 := p.isLt
  obtain ⟨f5, f4, f3, f2, f1, _, _, f0⟩ := encVR_fields hw (by decide) (by omega) (by omega)
  unfold decV
  rw [f5]
  show (decVR wd (bitOf (fld wd 0 5)) fun d a b p => .vperm k d a b p : Except Nat Instr) = _
  simp [decVR, f0, f1, f2, f3, f4, f5, fldB, guarded]

theorem RoundTrip.vbcst (k : Fin 8) (d : VDst) (a : VSrc) (l : BitVec 4) (p : Fin 8) : RoundTrip.Statement (.vbcst k d a l p) := by
  intro hwf sl wd hs hw
  replace hw : encW 0x16 [(20, vdstCode d), (14, vsrcCode a), (8, l.toNat), (5, p.val)] = wd := Option.some.inj hw
  have hd : decSlot sl wd = decV k wd := by obtain rfl : 5 + k.val = sl := Option.some.inj hs; exact decSlot_v k wd
  refine decSyl_zero (hd.trans ?_)
  have b0 := vdstCode_lt d
  have b1 := vsrcCode_lt a
  have b2 := l.isLt
  have b3 := p.isLt
  obtain ⟨f0, f1, f2, f3, f4, f5, f6⟩ :
      fld wd 0 5 = 0 ∧ fld wd 5 3 = p.val ∧ fld wd 8 4 = l.toNat ∧
      fld wd 12 2 = 0 ∧ fld wd 14 6 = vsrcCode a ∧ fld wd 20 6 = vdstCode d ∧
      fld wd 26 6 = 0x16 := by
    subst hw; simp only [fld, encW, encFields, BitVec.toNat_ofNat]
    refine ⟨?_, ?_, ?_, ?_, ?_, ?_, ?_⟩ <;> omega
  unfold decV
  rw [f6]
  show (guarded (.vbcst k (vdstOf (fld wd 20 6)) (vsrcOf (fld wd 14 6)) (fldB wd 8 4) (finOf 8 (fld wd 5 3))) [(fldRsvd, bitOf (fld wd 0 5)), (vopIll, vdstBad (fld wd 20 6) || vsrcBad (fld wd 14 6)), (immIll, bitOf (fld wd 12 2))] : Except Nat Instr) = _
  simp [f0, f1, f2, f3, f4, f5, f6, fldB, guarded]

theorem RoundTrip.viota (k : Fin 8) (d : VDst) (p : Fin 8) (t : Ty) (m : Bool) : RoundTrip.Statement (.viota k d p t m) := by
  intro hwf sl wd hs hw
  replace hw : encW 0x17 [(20, vdstCode d), (5, p.val), (2, tyCode t), (0, bitCode m)] = wd := Option.some.inj hw
  have hd : decSlot sl wd = decV k wd := by obtain rfl : 5 + k.val = sl := Option.some.inj hs; exact decSlot_v k wd
  refine decSyl_zero (hd.trans ?_)
  have b0 := vdstCode_lt d
  have b1 := p.isLt
  have b2 := tyCode_lt t
  have b3 := bitCode_lt m
  obtain ⟨f0, f1, f2, f3, f4, f5⟩ :
      fld wd 0 2 = (bitCode m) ∧ fld wd 2 3 = tyCode t ∧ fld wd 5 3 = p.val ∧
      fld wd 8 12 = 0 ∧ fld wd 20 6 = vdstCode d ∧ fld wd 26 6 = 0x17 := by
    subst hw; simp only [fld, encW, encFields, BitVec.toNat_ofNat]
    refine ⟨?_, ?_, ?_, ?_, ?_, ?_⟩ <;> omega
  replace hwf : (decide (t = .i32) || decide (t = .n32)) = true := hwf
  try simp only [decide_eq_true_eq, Bool.and_eq_true, Bool.or_eq_true, Bool.not_eq_true', seqFields] at hwf
  unfold decV
  rw [f5]
  show (guarded (.viota k (vdstOf (fld wd 20 6)) (finOf 8 (fld wd 5 3)) (tyOf (fld wd 2 3)) (bitOf (fld wd 0 2))) [(fldRsvd, bitOf (fld wd 8 12) || decide (fld wd 2 3 = 0) || decide (3 ≤ fld wd 2 3) || decide (2 ≤ fld wd 0 2)), (vopIll, vdstBad (fld wd 20 6))] : Except Nat Instr) = _
  simp [f0, f1, f2, f3, f4, f5, fldB, guarded, hwf, tyCode_ne t]
  rcases hwf with rfl | rfl <;> cases m <;> simp [tyCode, bitCode]

theorem RoundTrip.vpset (k : Fin 8) (d : Fin 8) (c : POp) (a : Fin 8) (b : Fin 8) (p : Fin 8) :
    RoundTrip.Statement (.vpset k d c a b p) := by
  intro hwf sl wd hs hw
  replace hw : encW 0x18 [(23, d.val), (20, popCode c), (14, a.val), (8, b.val), (5, p.val)] = wd := Option.some.inj hw
  have hd : decSlot sl wd = decV k wd := by obtain rfl : 5 + k.val = sl := Option.some.inj hs; exact decSlot_v k wd
  refine decSyl_zero (hd.trans ?_)
  have b0 := d.isLt
  have b1 := popCode_lt c
  have b2 := a.isLt
  have b3 := b.isLt
  have b4 := p.isLt
  obtain ⟨f0, f1, f2, f3, f4, f5, f6, f7, f8⟩ :
      fld wd 0 5 = 0 ∧ fld wd 5 3 = p.val ∧ fld wd 8 3 = b.val ∧ fld wd 11 3 = 0 ∧ fld wd 14 3 = a.val ∧ fld wd 17 3 = 0 ∧
      fld wd 20 3 = popCode c ∧ fld wd 23 3 = d.val ∧ fld wd 26 6 = 0x18 := by
    subst hw; simp only [fld, encW, encFields, BitVec.toNat_ofNat]
    refine ⟨?_, ?_, ?_, ?_, ?_, ?_, ?_, ?_, ?_⟩ <;> omega
  have hz : ∀ x : Fin 8, decide (x = 0) = true → bitOf x.val = false := by decide
  unfold decV
  rw [f8]
  cases c with
  | and => simp [f0, f1, f2, f3, f4, f5, f6, f7, guarded]
  | or => simp [f0, f1, f2, f3, f4, f5, f6, f7, guarded]
  | xor => simp [f0, f1, f2, f3, f4, f5, f6, f7, guarded]
  | andn => simp [f0, f1, f2, f3, f4, f5, f6, f7, guarded]
  | not => simp [f0, f1, f2, f3, f4, f5, f6, f7, guarded, hz b hwf]
  | first => simp [f0, f1, f2, f3, f4, f5, f6, f7, guarded, hz b hwf]
  | set =>
    have h := (Bool.and_eq_true _ _).mp (show (decide (a = 0) && decide (b = 0)) = true from hwf)
    simp [f0, f1, f2, f3, f4, f5, f6, f7, guarded, hz a h.1, hz b h.2]
  | clear =>
    have h := (Bool.and_eq_true _ _).mp (show (decide (a = 0) && decide (b = 0)) = true from hwf)
    simp [f0, f1, f2, f3, f4, f5, f6, f7, guarded, hz a h.1, hz b h.2]

theorem RoundTrip.vld (k : Fin 8) (d : VDst) (e : BitVec 4) (b : SSrc) (p : Fin 8) (i : BitVec 7) : RoundTrip.Statement (.vld k d e b p i) := by
  intro hwf sl wd hs hw
  replace hw : encW 0x00 [(20, vdstCode d), (16, e.toNat), (10, srcCode b), (7, p.val), (0, i.toNat)] = wd := Option.some.inj hw
  have hd : decSlot sl wd = decVM k wd := by obtain rfl : 13 + k.val = sl := Option.some.inj hs; exact decSlot_vm k wd
  refine decSyl_zero (hd.trans ?_)
  have b0 := vdstCode_lt d
  have b1 := e.isLt
  have b2 := srcCode_lt b
  have b3 := p.isLt
  have b4 := i.isLt
  obtain ⟨f0, f1, f2, f3, f4, f5⟩ :
      fld wd 0 7 = i.toNat ∧ fld wd 7 3 = p.val ∧ fld wd 10 6 = srcCode b ∧
      fld wd 16 4 = e.toNat ∧ fld wd 20 6 = vdstCode d ∧ fld wd 26 6 = 0x00 := by
    subst hw; simp only [fld, encW, encFields, BitVec.toNat_ofNat]
    refine ⟨?_, ?_, ?_, ?_, ?_, ?_⟩ <;> omega
  unfold decVM
  rw [f5]
  show (guarded (.vld k (vdstOf (fld wd 20 6)) (fldB wd 16 4) (srcOf (fld wd 10 6)) (finOf 8 (fld wd 7 3)) (fldB wd 0 7)) [(srcIll, srcBad (fld wd 10 6)), (vopIll, vdstBad (fld wd 20 6))] : Except Nat Instr) = _
  simp [f0, f1, f2, f3, f4, f5, fldB, guarded]

theorem RoundTrip.vst (k : Fin 8) (s : VSrc) (e : BitVec 4) (b : SSrc) (p : Fin 8) (i : BitVec 7) : RoundTrip.Statement (.vst k s e b p i) := by
  intro hwf sl wd hs hw
  replace hw : encW 0x01 [(20, vsrcCode s), (16, e.toNat), (10, srcCode b), (7, p.val), (0, i.toNat)] = wd := Option.some.inj hw
  have hd : decSlot sl wd = decVM k wd := by obtain rfl : 13 + k.val = sl := Option.some.inj hs; exact decSlot_vm k wd
  refine decSyl_zero (hd.trans ?_)
  have b0 := vsrcCode_lt s
  have b1 := e.isLt
  have b2 := srcCode_lt b
  have b3 := p.isLt
  have b4 := i.isLt
  obtain ⟨f0, f1, f2, f3, f4, f5⟩ :
      fld wd 0 7 = i.toNat ∧ fld wd 7 3 = p.val ∧ fld wd 10 6 = srcCode b ∧
      fld wd 16 4 = e.toNat ∧ fld wd 20 6 = vsrcCode s ∧ fld wd 26 6 = 0x01 := by
    subst hw; simp only [fld, encW, encFields, BitVec.toNat_ofNat]
    refine ⟨?_, ?_, ?_, ?_, ?_, ?_⟩ <;> omega
  unfold decVM
  rw [f5]
  show (guarded (.vst k (vsrcOf (fld wd 20 6)) (fldB wd 16 4) (srcOf (fld wd 10 6)) (finOf 8 (fld wd 7 3)) (fldB wd 0 7)) [(srcIll, srcBad (fld wd 10 6)), (vopIll, vsrcBad (fld wd 20 6))] : Except Nat Instr) = _
  simp [f0, f1, f2, f3, f4, f5, fldB, guarded]

theorem RoundTrip.vgth (k : Fin 8) (d : VDst) (e : BitVec 4) (v : VSrc) (p : Fin 8) (z : Fin 3) : RoundTrip.Statement (.vgth k d e v p z) := by
  intro hwf sl wd hs hw
  replace hw : encW 0x02 [(20, vdstCode d), (16, e.toNat), (10, vsrcCode v), (7, p.val), (5, z.val)] = wd := Option.some.inj hw
  have hd : decSlot sl wd = decVM k wd := by obtain rfl : 13 + k.val = sl := Option.some.inj hs; exact decSlot_vm k wd
  refine decSyl_zero (hd.trans ?_)
  have b0 := vdstCode_lt d
  have b1 := e.isLt
  have b2 := vsrcCode_lt v
  have b3 := p.isLt
  have b4 := z.isLt
  obtain ⟨f0, f1, f2, f3, f4, f5, f6⟩ :
      fld wd 0 5 = 0 ∧ fld wd 5 2 = z.val ∧ fld wd 7 3 = p.val ∧
      fld wd 10 6 = vsrcCode v ∧ fld wd 16 4 = e.toNat ∧ fld wd 20 6 = vdstCode d ∧
      fld wd 26 6 = 0x02 := by
    subst hw; simp only [fld, encW, encFields, BitVec.toNat_ofNat]
    refine ⟨?_, ?_, ?_, ?_, ?_, ?_, ?_⟩ <;> omega
  unfold decVM
  rw [f6]
  show (guarded (.vgth k (vdstOf (fld wd 20 6)) (fldB wd 16 4) (vsrcOf (fld wd 10 6)) (finOf 8 (fld wd 7 3)) (finOf 3 (fld wd 5 2))) [(fldRsvd, bitOf (fld wd 0 5) || decide (fld wd 5 2 = 3)), (vopIll, vdstBad (fld wd 20 6) || vsrcBad (fld wd 10 6))] : Except Nat Instr) = _
  simp [f0, f1, f2, f3, f4, f5, f6, fldB, guarded]
  omega

theorem RoundTrip.vsct (k : Fin 8) (s : VSrc) (e : BitVec 4) (v : VSrc) (p : Fin 8) (z : Fin 3) : RoundTrip.Statement (.vsct k s e v p z) := by
  intro hwf sl wd hs hw
  replace hw : encW 0x03 [(20, vsrcCode s), (16, e.toNat), (10, vsrcCode v), (7, p.val), (5, z.val)] = wd := Option.some.inj hw
  have hd : decSlot sl wd = decVM k wd := by obtain rfl : 13 + k.val = sl := Option.some.inj hs; exact decSlot_vm k wd
  refine decSyl_zero (hd.trans ?_)
  have b0 := vsrcCode_lt s
  have b1 := e.isLt
  have b2 := vsrcCode_lt v
  have b3 := p.isLt
  have b4 := z.isLt
  obtain ⟨f0, f1, f2, f3, f4, f5, f6⟩ :
      fld wd 0 5 = 0 ∧ fld wd 5 2 = z.val ∧ fld wd 7 3 = p.val ∧
      fld wd 10 6 = vsrcCode v ∧ fld wd 16 4 = e.toNat ∧ fld wd 20 6 = vsrcCode s ∧
      fld wd 26 6 = 0x03 := by
    subst hw; simp only [fld, encW, encFields, BitVec.toNat_ofNat]
    refine ⟨?_, ?_, ?_, ?_, ?_, ?_, ?_⟩ <;> omega
  unfold decVM
  rw [f6]
  show (guarded (.vsct k (vsrcOf (fld wd 20 6)) (fldB wd 16 4) (vsrcOf (fld wd 10 6)) (finOf 8 (fld wd 7 3)) (finOf 3 (fld wd 5 2))) [(fldRsvd, bitOf (fld wd 0 5) || decide (fld wd 5 2 = 3)), (vopIll, vsrcBad (fld wd 20 6) || vsrcBad (fld wd 10 6))] : Except Nat Instr) = _
  simp [f0, f1, f2, f3, f4, f5, f6, fldB, guarded]
  omega

theorem RoundTrip.xcp (k : Fin 8) (d : VDst) (a : Fin 32) (s : Fin 8) (p : Fin 8) : RoundTrip.Statement (.xcp k d a s p) := by
  intro hwf sl wd hs hw
  replace hw : encW 0x04 [(20, vdstCode d), (14, a.val), (11, s.val), (8, p.val)] = wd := Option.some.inj hw
  have hd : decSlot sl wd = decVM k wd := by obtain rfl : 13 + k.val = sl := Option.some.inj hs; exact decSlot_vm k wd
  refine decSyl_zero (hd.trans ?_)
  have b0 := vdstCode_lt d
  have b1 := a.isLt
  have b2 := s.isLt
  have b3 := p.isLt
  obtain ⟨f0, f1, f2, f3, f4, f5⟩ :
      fld wd 0 8 = 0 ∧ fld wd 8 3 = p.val ∧ fld wd 11 3 = s.val ∧
      fld wd 14 6 = (a.val) ∧ fld wd 20 6 = vdstCode d ∧ fld wd 26 6 = 0x04 := by
    subst hw; simp only [fld, encW, encFields, BitVec.toNat_ofNat]
    refine ⟨?_, ?_, ?_, ?_, ?_, ?_⟩ <;> omega
  unfold decVM
  rw [f5]
  show (guarded (.xcp k (vdstOf (fld wd 20 6)) (finOf 32 (fld wd 14 6)) (finOf 8 (fld wd 11 3)) (finOf 8 (fld wd 8 3))) [(fldRsvd, bitOf (fld wd 0 8)), (vopIll, vdstBad (fld wd 20 6) || decide (32 ≤ fld wd 14 6))] : Except Nat Instr) = _
  simp [f0, f1, f2, f3, f4, f5, fldB, guarded]

theorem RoundTrip.vmovs (k : Fin 8) (o : VMov) (l : BitVec 4) : RoundTrip.Statement (.vmovs k o l) := by
  intro hwf sl wd hs hw
  have hd : decSlot sl wd = decVM k wd := by obtain rfl : 13 + k.val = sl := Option.some.inj hs; exact decSlot_vm k wd
  refine decSyl_zero (hd.trans ?_)
  have b := l.isLt
  cases o with
  | inn v a =>
    replace hw : encW 0x05 [(20, v.val), (14, srcCode a), (10, l.toNat)] = wd := Option.some.inj hw
    have b0 := v.isLt
    have b1 := srcCode_lt a
    obtain ⟨f0, f1, f2, f3, f4, f5⟩ :
        fld wd 0 9 = 0 ∧ fld wd 9 1 = 0 ∧ fld wd 10 4 = l.toNat ∧ fld wd 14 6 = srcCode a ∧ fld wd 20 6 = v.val ∧
        fld wd 26 6 = 0x05 := by
      subst hw; simp only [fld, encW, encFields, BitVec.toNat_ofNat]
      refine ⟨?_, ?_, ?_, ?_, ?_, ?_⟩ <;> omega
    unfold decVM
    rw [f5]
    simp [f0, f1, f2, f3, f4, fldB, guarded]
  | outReg v d =>
    replace hw : encW 0x05 [(20, vsrcCode v), (14, d.val), (10, l.toNat), (9, 1)] = wd := Option.some.inj hw
    have b0 := vsrcCode_lt v
    have b1 := d.isLt
    obtain ⟨f0, f1, f2, f3, f4, f5⟩ :
        fld wd 0 9 = 0 ∧ fld wd 9 1 = 1 ∧ fld wd 10 4 = l.toNat ∧ fld wd 14 6 = d.val ∧ fld wd 20 6 = vsrcCode v ∧
        fld wd 26 6 = 0x05 := by
      subst hw; simp only [fld, encW, encFields, BitVec.toNat_ofNat]
      refine ⟨?_, ?_, ?_, ?_, ?_, ?_⟩ <;> omega
    have h1 : d.val ≠ 62 := by omega
    have h2 : dstBad d.val 0 = false := dstBad_dstCode (.reg d)
    unfold decVM
    rw [f5]
    simp [f0, f1, f2, f3, f4, fldB, guarded, h1, h2]
  | outFo v =>
    replace hw : encW 0x05 [(20, vsrcCode v), (14, 62), (10, l.toNat), (9, 1)] = wd := Option.some.inj hw
    have b0 := vsrcCode_lt v
    obtain ⟨f0, f1, f2, f3, f4, f5⟩ :
        fld wd 0 9 = 0 ∧ fld wd 9 1 = 1 ∧ fld wd 10 4 = l.toNat ∧ fld wd 14 6 = 62 ∧ fld wd 20 6 = vsrcCode v ∧
        fld wd 26 6 = 0x05 := by
      subst hw; simp only [fld, encW, encFields, BitVec.toNat_ofNat]
      refine ⟨?_, ?_, ?_, ?_, ?_, ?_⟩ <;> omega
    have h2 : dstBad 62 0 = false := rfl
    unfold decVM
    rw [f5]
    simp [f0, f1, f2, f3, f4, fldB, guarded, h2]

theorem RoundTrip.vtld (k : Fin 8) (d : VDst) (t : Fin 8) (b : SSrc) (p : Fin 8) (i : BitVec 7) : RoundTrip.Statement (.vtld k d t b p i) := by
  intro hwf sl wd hs hw
  replace hw : encW 0x06 [(20, vdstCode d), (16, t.val), (10, srcCode b), (7, p.val), (0, i.toNat)] = wd := Option.some.inj hw
  have hd : decSlot sl wd = decVM k wd := by obtain rfl : 13 + k.val = sl := Option.some.inj hs; exact decSlot_vm k wd
  refine decSyl_zero (hd.trans ?_)
  have b0 := vdstCode_lt d
  have b1 := t.isLt
  have b2 := srcCode_lt b
  have b3 := p.isLt
  have b4 := i.isLt
  obtain ⟨f0, f1, f2, f3, f4, f5, f6⟩ :
      fld wd 0 7 = i.toNat ∧ fld wd 7 3 = p.val ∧ fld wd 10 6 = srcCode b ∧
      fld wd 16 3 = t.val ∧ fld wd 19 1 = 0 ∧ fld wd 20 6 = vdstCode d ∧
      fld wd 26 6 = 0x06 := by
    subst hw; simp only [fld, encW, encFields, BitVec.toNat_ofNat]
    refine ⟨?_, ?_, ?_, ?_, ?_, ?_, ?_⟩ <;> omega
  unfold decVM
  rw [f6]
  show (guarded (.vtld k (vdstOf (fld wd 20 6)) (finOf 8 (fld wd 16 3)) (srcOf (fld wd 10 6)) (finOf 8 (fld wd 7 3)) (fldB wd 0 7)) [(fldRsvd, bitOf (fld wd 19 1)), (srcIll, srcBad (fld wd 10 6)), (vopIll, vdstBad (fld wd 20 6))] : Except Nat Instr) = _
  simp [f0, f1, f2, f3, f4, f5, f6, fldB, guarded]

theorem RoundTrip.vtst (k : Fin 8) (s : VSrc) (t : Fin 8) (b : SSrc) (p : Fin 8) (i : BitVec 7) : RoundTrip.Statement (.vtst k s t b p i) := by
  intro hwf sl wd hs hw
  replace hw : encW 0x07 [(20, vsrcCode s), (16, t.val), (10, srcCode b), (7, p.val), (0, i.toNat)] = wd := Option.some.inj hw
  have hd : decSlot sl wd = decVM k wd := by obtain rfl : 13 + k.val = sl := Option.some.inj hs; exact decSlot_vm k wd
  refine decSyl_zero (hd.trans ?_)
  have b0 := vsrcCode_lt s
  have b1 := t.isLt
  have b2 := srcCode_lt b
  have b3 := p.isLt
  have b4 := i.isLt
  obtain ⟨f0, f1, f2, f3, f4, f5, f6⟩ :
      fld wd 0 7 = i.toNat ∧ fld wd 7 3 = p.val ∧ fld wd 10 6 = srcCode b ∧
      fld wd 16 3 = t.val ∧ fld wd 19 1 = 0 ∧ fld wd 20 6 = vsrcCode s ∧
      fld wd 26 6 = 0x07 := by
    subst hw; simp only [fld, encW, encFields, BitVec.toNat_ofNat]
    refine ⟨?_, ?_, ?_, ?_, ?_, ?_, ?_⟩ <;> omega
  unfold decVM
  rw [f6]
  show (guarded (.vtst k (vsrcOf (fld wd 20 6)) (finOf 8 (fld wd 16 3)) (srcOf (fld wd 10 6)) (finOf 8 (fld wd 7 3)) (fldB wd 0 7)) [(fldRsvd, bitOf (fld wd 19 1)), (srcIll, srcBad (fld wd 10 6)), (vopIll, vsrcBad (fld wd 20 6))] : Except Nat Instr) = _
  simp [f0, f1, f2, f3, f4, f5, f6, fldB, guarded]

theorem RoundTrip.wpush (t : Fin 8) (r : BitVec 8) (w : BitVec 8) (f : BitVec 6) : RoundTrip.Statement (.wpush t r w f) := by
  intro hwf sl wd hs hw
  replace hw : encX 0x00 t r w f.toNat = wd := Option.some.inj hw
  have hd : decSlot sl wd = decX wd := by obtain rfl : 21 = sl := Option.some.inj hs; rfl
  refine decSyl_zero (hd.trans ?_)
  have b0 := t.isLt
  have b1 := r.isLt
  have b2 := w.isLt
  have b3 := f.isLt
  obtain ⟨f5, f4, f3, f2, lf⟩ := encX_fields hw (by decide) (by omega)
  have f0 : fld wd 0 6 = f.toNat := by rw [fld_low 7 (by decide), lf] <;> omega
  have f1 : fld wd 6 1 = 0 := by rw [fld_low 7 (by decide), lf] <;> omega
  replace hwf : (decide (r.toNat < 192) && decide (w.toNat < arowLimit f) && codeArr f) = true := hwf
  try simp only [decide_eq_true_eq, Bool.and_eq_true, Bool.or_eq_true, Bool.not_eq_true', seqFields] at hwf
  unfold decX
  rw [f5]
  show (guarded (.wpush (finOf 8 (fld wd 23 3)) (fldB wd 15 8) (fldB wd 7 8) (fldB wd 0 6)) [(fldRsvd, bitOf (fld wd 6 1)), (immIll, decide (192 ≤ fld wd 15 8) || decide (arowLimit (fldB wd 0 6) ≤ fld wd 7 8)), (fmtRsvd, !codeArr (fldB wd 0 6))] : Except Nat Instr) = _
  simp [f0, f1, f2, f3, f4, f5, fldB, guarded, hwf]

theorem RoundTrip.apush (t : Fin 8) (r : BitVec 8) (a : BitVec 8) (p : Bool) (f : BitVec 6) : RoundTrip.Statement (.apush t r a p f) := by
  intro hwf sl wd hs hw
  replace hw : encX 0x01 t r a (bitCode p * 64 + f.toNat) = wd := Option.some.inj hw
  have hd : decSlot sl wd = decX wd := by obtain rfl : 21 = sl := Option.some.inj hs; rfl
  refine decSyl_zero (hd.trans ?_)
  have b0 := t.isLt
  have b1 := r.isLt
  have b2 := a.isLt
  have b3 := bitCode_lt p
  have b4 := f.isLt
  obtain ⟨f5, f4, f3, f2, lf⟩ := encX_fields hw (by decide) (by omega)
  have f0 : fld wd 0 6 = f.toNat := by rw [fld_low 7 (by decide), lf] <;> omega
  have f1 : fld wd 6 1 = bitCode p := by rw [fld_low 7 (by decide), lf] <;> omega
  replace hwf : (decide (r.toNat < 192) && decide (a.toNat < arowLimit f) && codeArr f) = true := hwf
  try simp only [decide_eq_true_eq, Bool.and_eq_true, Bool.or_eq_true, Bool.not_eq_true', seqFields] at hwf
  unfold decX
  rw [f5]
  show (guarded (.apush (finOf 8 (fld wd 23 3)) (fldB wd 15 8) (fldB wd 7 8) (bitOf (fld wd 6 1)) (fldB wd 0 6)) [(immIll, decide (192 ≤ fld wd 15 8) || decide (arowLimit (fldB wd 0 6) ≤ fld wd 7 8)), (fmtRsvd, !codeArr (fldB wd 0 6))] : Except Nat Instr) = _
  simp [f0, f1, f2, f3, f4, f5, fldB, guarded, hwf]

theorem RoundTrip.acc (t : Fin 8) (r : BitVec 8) (a : BitVec 8) (p : Bool) (f : BitVec 6) : RoundTrip.Statement (.acc t r a p f) := by
  intro hwf sl wd hs hw
  replace hw : encX 0x02 t r a (bitCode p * 64 + f.toNat) = wd := Option.some.inj hw
  have hd : decSlot sl wd = decX wd := by obtain rfl : 21 = sl := Option.some.inj hs; rfl
  refine decSyl_zero (hd.trans ?_)
  have b0 := t.isLt
  have b1 := r.isLt
  have b2 := a.isLt
  have b3 := bitCode_lt p
  have b4 := f.isLt
  obtain ⟨f5, f4, f3, f2, lf⟩ := encX_fields hw (by decide) (by omega)
  have f0 : fld wd 0 6 = f.toNat := by rw [fld_low 7 (by decide), lf] <;> omega
  have f1 : fld wd 6 1 = bitCode p := by rw [fld_low 7 (by decide), lf] <;> omega
  replace hwf : (decide (r.toNat < 192) && decide (a.toNat < arowLimit f) && codeArr f) = true := hwf
  try simp only [decide_eq_true_eq, Bool.and_eq_true, Bool.or_eq_true, Bool.not_eq_true', seqFields] at hwf
  unfold decX
  rw [f5]
  show (guarded (.acc (finOf 8 (fld wd 23 3)) (fldB wd 15 8) (fldB wd 7 8) (bitOf (fld wd 6 1)) (fldB wd 0 6)) [(immIll, decide (192 ≤ fld wd 15 8) || decide (arowLimit (fldB wd 0 6) ≤ fld wd 7 8)), (fmtRsvd, !codeArr (fldB wd 0 6))] : Except Nat Instr) = _
  simp [f0, f1, f2, f3, f4, f5, fldB, guarded, hwf]

theorem RoundTrip.drain (t : Fin 8) (r : BitVec 8) (a : BitVec 8) (z : Bool) : RoundTrip.Statement (.drain t r a z) := by
  intro hwf sl wd hs hw
  replace hw : encX 0x03 t r a (bitCode z) = wd := Option.some.inj hw
  have hd : decSlot sl wd = decX wd := by obtain rfl : 21 = sl := Option.some.inj hs; rfl
  refine decSyl_zero (hd.trans ?_)
  have b0 := t.isLt
  have b1 := r.isLt
  have b2 := a.isLt
  have b3 := bitCode_lt z
  obtain ⟨f6, f5, f4, f3, lf⟩ := encX_fields hw (by decide) (by omega)
  have f0 : fld wd 0 1 = bitCode z := by rw [fld_low 7 (by decide), lf] <;> omega
  have f1 : fld wd 0 6 = (bitCode z) := by rw [fld_low 7 (by decide), lf] <;> omega
  have f2 : fld wd 1 6 = 0 := by rw [fld_low 7 (by decide), lf] <;> omega
  replace hwf : (decide (r.toNat < 192) && decide (a.toNat < 192)) = true := hwf
  try simp only [decide_eq_true_eq, Bool.and_eq_true, Bool.or_eq_true, Bool.not_eq_true', seqFields] at hwf
  unfold decX
  rw [f6]
  show (guarded (.drain (finOf 8 (fld wd 23 3)) (fldB wd 15 8) (fldB wd 7 8) (bitOf (fld wd 0 1))) [(fldRsvd, bitOf (fld wd 1 6)), (immIll, decide (192 ≤ fld wd 15 8) || decide (192 ≤ fld wd 7 8))] : Except Nat Instr) = _
  simp [f0, f1, f2, f3, f4, f5, f6, fldB, guarded, hwf]

theorem RoundTrip.wswap : RoundTrip.Statement .wswap := by
  intro hwf sl wd hs hw
  obtain rfl := Option.some.inj hw
  obtain rfl := Option.some.inj hs
  rfl

theorem RoundTrip.mclr (m : BitVec 3) : RoundTrip.Statement (.mclr m) := by
  intro hwf sl wd hs hw
  replace hw : encW 0x05 [(0, m.toNat)] = wd := Option.some.inj hw
  have hd : decSlot sl wd = decX wd := by obtain rfl : 21 = sl := Option.some.inj hs; rfl
  refine decSyl_zero (hd.trans ?_)
  have b0 := m.isLt
  obtain ⟨f0, f1, f2, f3⟩ :
      fld wd 0 3 = m.toNat ∧ fld wd 0 6 = (m.toNat) ∧ fld wd 3 23 = 0 ∧
      fld wd 26 6 = 0x05 := by
    subst hw; simp only [fld, encW, encFields, BitVec.toNat_ofNat]
    refine ⟨?_, ?_, ?_, ?_⟩ <;> omega
  replace hwf : (decide (m ≠ 0)) = true := hwf
  try simp only [decide_eq_true_eq, Bool.and_eq_true, Bool.or_eq_true, Bool.not_eq_true', seqFields] at hwf
  unfold decX
  rw [f3]
  show (guarded (.mclr (fldB wd 0 3)) [(fldRsvd, bitOf (fld wd 3 23) || decide (fld wd 0 3 = 0))] : Except Nat Instr) = _
  simp [f0, f1, f2, f3, fldB, guarded, hwf]
  exact fun h => hwf (BitVec.eq_of_toNat_eq h)

theorem RoundTrip.trw (t : Fin 8) (r : BitVec 8) (s : Fin 8) (b : SSrc) (m : Bool) : RoundTrip.Statement (.trw t r s b m) := by
  intro hwf sl wd hs hw
  replace hw : encW 0x00 [(23, t.val), (15, r.toNat), (11, s.val), (5, srcCode b), (0, bitCode m)] = wd := Option.some.inj hw
  have hd : decSlot sl wd = decT wd := by obtain rfl : 22 = sl := Option.some.inj hs; rfl
  refine decSyl_zero (hd.trans ?_)
  have b0 := t.isLt
  have b1 := r.isLt
  have b2 := s.isLt
  have b3 := srcCode_lt b
  have b4 := bitCode_lt m
  obtain ⟨f0, f1, f2, f3, f4, f5, f6, f7⟩ :
      fld wd 0 1 = bitCode m ∧ fld wd 1 4 = 0 ∧ fld wd 5 6 = srcCode b ∧
      fld wd 11 3 = s.val ∧ fld wd 14 1 = 0 ∧ fld wd 15 8 = r.toNat ∧
      fld wd 23 3 = t.val ∧ fld wd 26 6 = 0x00 := by
    subst hw; simp only [fld, encW, encFields, BitVec.toNat_ofNat]
    refine ⟨?_, ?_, ?_, ?_, ?_, ?_, ?_, ?_⟩ <;> omega
  replace hwf : (decide (r.toNat < 192)) = true := hwf
  try simp only [decide_eq_true_eq, Bool.and_eq_true, Bool.or_eq_true, Bool.not_eq_true', seqFields] at hwf
  unfold decT
  rw [f7]
  show (guarded (.trw (finOf 8 (fld wd 23 3)) (fldB wd 15 8) (finOf 8 (fld wd 11 3)) (srcOf (fld wd 5 6)) (bitOf (fld wd 0 1))) [(fldRsvd, bitOf (fld wd 14 1) || bitOf (fld wd 1 4)), (srcIll, srcBad (fld wd 5 6)), (immIll, decide (192 ≤ fld wd 15 8))] : Except Nat Instr) = _
  simp [f0, f1, f2, f3, f4, f5, f6, f7, fldB, guarded, hwf]

theorem RoundTrip.tldr (t : Fin 8) (r : BitVec 8) (e : BitVec 4) (b : SSrc) : RoundTrip.Statement (.tldr t r e b) := by
  intro hwf sl wd hs hw
  replace hw : encW 0x01 [(23, t.val), (15, r.toNat), (11, e.toNat), (5, srcCode b)] = wd := Option.some.inj hw
  have hd : decSlot sl wd = decT wd := by obtain rfl : 22 = sl := Option.some.inj hs; rfl
  refine decSyl_zero (hd.trans ?_)
  have b0 := t.isLt
  have b1 := r.isLt
  have b2 := e.isLt
  have b3 := srcCode_lt b
  obtain ⟨f0, f1, f2, f3, f4, f5⟩ :
      fld wd 0 5 = 0 ∧ fld wd 5 6 = srcCode b ∧ fld wd 11 4 = e.toNat ∧
      fld wd 15 8 = r.toNat ∧ fld wd 23 3 = t.val ∧ fld wd 26 6 = 0x01 := by
    subst hw; simp only [fld, encW, encFields, BitVec.toNat_ofNat]
    refine ⟨?_, ?_, ?_, ?_, ?_, ?_⟩ <;> omega
  replace hwf : (decide (r.toNat < 192)) = true := hwf
  try simp only [decide_eq_true_eq, Bool.and_eq_true, Bool.or_eq_true, Bool.not_eq_true', seqFields] at hwf
  unfold decT
  rw [f5]
  show (guarded (.tldr (finOf 8 (fld wd 23 3)) (fldB wd 15 8) (fldB wd 11 4) (srcOf (fld wd 5 6))) [(fldRsvd, bitOf (fld wd 0 5)), (srcIll, srcBad (fld wd 5 6)), (immIll, decide (192 ≤ fld wd 15 8))] : Except Nat Instr) = _
  simp [f0, f1, f2, f3, f4, f5, fldB, guarded, hwf]

theorem RoundTrip.tstr (t : Fin 8) (r : BitVec 8) (e : BitVec 4) (b : SSrc) : RoundTrip.Statement (.tstr t r e b) := by
  intro hwf sl wd hs hw
  replace hw : encW 0x02 [(23, t.val), (15, r.toNat), (11, e.toNat), (5, srcCode b)] = wd := Option.some.inj hw
  have hd : decSlot sl wd = decT wd := by obtain rfl : 22 = sl := Option.some.inj hs; rfl
  refine decSyl_zero (hd.trans ?_)
  have b0 := t.isLt
  have b1 := r.isLt
  have b2 := e.isLt
  have b3 := srcCode_lt b
  obtain ⟨f0, f1, f2, f3, f4, f5⟩ :
      fld wd 0 5 = 0 ∧ fld wd 5 6 = srcCode b ∧ fld wd 11 4 = e.toNat ∧
      fld wd 15 8 = r.toNat ∧ fld wd 23 3 = t.val ∧ fld wd 26 6 = 0x02 := by
    subst hw; simp only [fld, encW, encFields, BitVec.toNat_ofNat]
    refine ⟨?_, ?_, ?_, ?_, ?_, ?_⟩ <;> omega
  replace hwf : (decide (r.toNat < 192)) = true := hwf
  try simp only [decide_eq_true_eq, Bool.and_eq_true, Bool.or_eq_true, Bool.not_eq_true', seqFields] at hwf
  unfold decT
  rw [f5]
  show (guarded (.tstr (finOf 8 (fld wd 23 3)) (fldB wd 15 8) (fldB wd 11 4) (srcOf (fld wd 5 6))) [(fldRsvd, bitOf (fld wd 0 5)), (srcIll, srcBad (fld wd 5 6)), (immIll, decide (192 ≤ fld wd 15 8))] : Except Nat Instr) = _
  simp [f0, f1, f2, f3, f4, f5, fldB, guarded, hwf]

theorem RoundTrip.scw (e : BitVec 4) (b : SSrc) (i : BitVec 8) (c : Bool) : RoundTrip.Statement (.scw e b i c) := by
  intro hwf sl wd hs hw
  replace hw : encW 0x00 [(22, e.toNat), (16, srcCode b), (8, i.toNat), (0, bitCode c)] = wd := Option.some.inj hw
  have hd : decSlot sl wd = decC wd := by obtain rfl : 23 = sl := Option.some.inj hs; rfl
  refine decSyl_zero (hd.trans ?_)
  have b0 := e.isLt
  have b1 := srcCode_lt b
  have b2 := i.isLt
  have b3 := bitCode_lt c
  obtain ⟨f0, f1, f2, f3, f4, f5⟩ :
      fld wd 0 1 = bitCode c ∧ fld wd 1 7 = 0 ∧ fld wd 8 8 = i.toNat ∧
      fld wd 16 6 = srcCode b ∧ fld wd 22 4 = e.toNat ∧ fld wd 26 6 = 0x00 := by
    subst hw; simp only [fld, encW, encFields, BitVec.toNat_ofNat]
    refine ⟨?_, ?_, ?_, ?_, ?_, ?_⟩ <;> omega
  replace hwf : (if c then decide (i = 0) else decide (i.toNat % 32 = 0) && decide (i.toNat ≤ 160)) = true := hwf
  try simp only [decide_eq_true_eq, Bool.and_eq_true, Bool.or_eq_true, Bool.not_eq_true', seqFields] at hwf
  unfold decC
  rw [f5]
  show (guarded (.scw (fldB wd 22 4) (srcOf (fld wd 16 6)) (fldB wd 8 8) (bitOf (fld wd 0 1))) [(fldRsvd, bitOf (fld wd 1 7)), (srcIll, srcBad (fld wd 16 6)), (immIll, badScIdx wd)] : Except Nat Instr) = _
  simp [badScIdx, f0, f1, f2, f3, f4, f5, fldB, guarded, hwf]
  cases c with
  | true =>
    have hi : i = 0 := of_decide_eq_true hwf
    subst hi; simp [bitCode]
  | false =>
    have hi : i.toNat % 32 = 0 ∧ i.toNat ≤ 160 := by simpa using hwf
    simp only [bitCode]; simp; omega

theorem RoundTrip.sca (e : BitVec 4) (b : SSrc) (i : BitVec 8) (c : Bool) : RoundTrip.Statement (.sca e b i c) := by
  intro hwf sl wd hs hw
  replace hw : encW 0x01 [(22, e.toNat), (16, srcCode b), (8, i.toNat), (0, bitCode c)] = wd := Option.some.inj hw
  have hd : decSlot sl wd = decC wd := by obtain rfl : 23 = sl := Option.some.inj hs; rfl
  refine decSyl_zero (hd.trans ?_)
  have b0 := e.isLt
  have b1 := srcCode_lt b
  have b2 := i.isLt
  have b3 := bitCode_lt c
  obtain ⟨f0, f1, f2, f3, f4, f5⟩ :
      fld wd 0 1 = bitCode c ∧ fld wd 1 7 = 0 ∧ fld wd 8 8 = i.toNat ∧
      fld wd 16 6 = srcCode b ∧ fld wd 22 4 = e.toNat ∧ fld wd 26 6 = 0x01 := by
    subst hw; simp only [fld, encW, encFields, BitVec.toNat_ofNat]
    refine ⟨?_, ?_, ?_, ?_, ?_, ?_⟩ <;> omega
  replace hwf : (if c then decide (i = 0) else decide (i.toNat % 32 = 0) && decide (i.toNat ≤ 160)) = true := hwf
  try simp only [decide_eq_true_eq, Bool.and_eq_true, Bool.or_eq_true, Bool.not_eq_true', seqFields] at hwf
  unfold decC
  rw [f5]
  show (guarded (.sca (fldB wd 22 4) (srcOf (fld wd 16 6)) (fldB wd 8 8) (bitOf (fld wd 0 1))) [(fldRsvd, bitOf (fld wd 1 7)), (srcIll, srcBad (fld wd 16 6)), (immIll, badScIdx wd)] : Except Nat Instr) = _
  simp [badScIdx, f0, f1, f2, f3, f4, f5, fldB, guarded, hwf]
  cases c with
  | true =>
    have hi : i = 0 := of_decide_eq_true hwf
    subst hi; simp [bitCode]
  | false =>
    have hi : i.toNat % 32 = 0 ∧ i.toNat ≤ 160 := by simpa using hwf
    simp only [bitCode]; simp; omega

theorem RoundTrip.qrf (d : Fin 4) (t : Fin 8) (r : BitVec 8) (n : BitVec 8) (w : Bool) (g : Bool) : RoundTrip.Statement (.qrf d t r n w g) := by
  intro hwf sl wd hs hw
  replace hw : encQ 0x00 d.val t.val r n (bitCode w * 2 + bitCode g) = wd := Option.some.inj hw
  have hd : decSlot sl wd = decQ wd := by obtain rfl : 24 = sl := Option.some.inj hs; rfl
  refine decSyl_zero (hd.trans ?_)
  have b0 := d.isLt
  have b1 := t.isLt
  have b2 := r.isLt
  have b3 := n.isLt
  have b4 := bitCode_lt w
  have b5 := bitCode_lt g
  obtain ⟨f7, f6, f5, f4, f3, lf⟩ := encQ_fields hw (by decide) (by omega) (by omega) (by omega)
  have f0 : fld wd 0 1 = bitCode g := by rw [fld_low 5 (by decide), lf] <;> omega
  have f1 : fld wd 1 1 = bitCode w := by rw [fld_low 5 (by decide), lf] <;> omega
  have f2 : fld wd 2 3 = 0 := by rw [fld_low 5 (by decide), lf] <;> omega
  replace hwf : (seqFields r n) = true := hwf
  try simp only [decide_eq_true_eq, Bool.and_eq_true, Bool.or_eq_true, Bool.not_eq_true', seqFields] at hwf
  unfold decQ
  rw [f7]
  show (guarded (.qrf (finOf 4 (fld wd 24 2)) (finOf 8 (fld wd 21 3)) (fldB wd 13 8) (fldB wd 5 8) (bitOf (fld wd 1 1)) (bitOf (fld wd 0 1))) [(fldRsvd, bitOf (fld wd 2 3)), (immIll, badSeq wd)] : Except Nat Instr) = _
  simp [badSeq, f0, f1, f2, f3, f4, f5, f6, f7, fldB, guarded, hwf]
  omega

theorem RoundTrip.qapp (d : Fin 4) (t : Fin 8) (r : BitVec 8) (n : BitVec 8) (g : Bool) : RoundTrip.Statement (.qapp d t r n g) := by
  intro hwf sl wd hs hw
  replace hw : encQ 0x01 d.val t.val r n (bitCode g) = wd := Option.some.inj hw
  have hd : decSlot sl wd = decQ wd := by obtain rfl : 24 = sl := Option.some.inj hs; rfl
  refine decSyl_zero (hd.trans ?_)
  have b0 := d.isLt
  have b1 := t.isLt
  have b2 := r.isLt
  have b3 := n.isLt
  have b4 := bitCode_lt g
  obtain ⟨f6, f5, f4, f3, f2, lf⟩ := encQ_fields hw (by decide) (by omega) (by omega) (by omega)
  have f0 : fld wd 0 1 = bitCode g := by rw [fld_low 5 (by decide), lf] <;> omega
  have f1 : fld wd 1 4 = 0 := by rw [fld_low 5 (by decide), lf] <;> omega
  replace hwf : (seqFields r n) = true := hwf
  try simp only [decide_eq_true_eq, Bool.and_eq_true, Bool.or_eq_true, Bool.not_eq_true', seqFields] at hwf
  unfold decQ
  rw [f6]
  show (guarded (.qapp (finOf 4 (fld wd 24 2)) (finOf 8 (fld wd 21 3)) (fldB wd 13 8) (fldB wd 5 8) (bitOf (fld wd 0 1))) [(fldRsvd, bitOf (fld wd 1 4)), (immIll, badSeq wd)] : Except Nat Instr) = _
  simp [badSeq, f0, f1, f2, f3, f4, f5, f6, fldB, guarded, hwf]
  omega

theorem RoundTrip.qrot (t : Fin 8) (r : BitVec 8) (n : BitVec 8) (w : Bool) : RoundTrip.Statement (.qrot t r n w) := by
  intro hwf sl wd hs hw
  replace hw : encQ 0x02 0 t.val r n (bitCode w * 4) = wd := Option.some.inj hw
  have hd : decSlot sl wd = decQ wd := by obtain rfl : 24 = sl := Option.some.inj hs; rfl
  refine decSyl_zero (hd.trans ?_)
  have b0 := t.isLt
  have b1 := r.isLt
  have b2 := n.isLt
  have b3 := bitCode_lt w
  obtain ⟨f7, f6, f5, f4, f3, lf⟩ := encQ_fields hw (by decide) (by omega) (by omega) (by omega)
  have f0 : fld wd 0 2 = 0 := by rw [fld_low 5 (by decide), lf] <;> omega
  have f1 : fld wd 2 1 = bitCode w := by rw [fld_low 5 (by decide), lf] <;> omega
  have f2 : fld wd 3 2 = 0 := by rw [fld_low 5 (by decide), lf] <;> omega
  replace hwf : (seqFields r n) = true := hwf
  try simp only [decide_eq_true_eq, Bool.and_eq_true, Bool.or_eq_true, Bool.not_eq_true', seqFields] at hwf
  unfold decQ
  rw [f7]
  show (guarded (.qrot (finOf 8 (fld wd 21 3)) (fldB wd 13 8) (fldB wd 5 8) (bitOf (fld wd 2 1))) [(fldRsvd, bitOf (fld wd 24 2) || bitOf (fld wd 3 2) || bitOf (fld wd 0 2)), (immIll, badSeq wd)] : Except Nat Instr) = _
  simp [badSeq, f0, f1, f2, f3, f4, f5, f6, f7, fldB, guarded, hwf]
  omega

theorem RoundTrip.qsolv (d : Fin 4) (t : Fin 8) (r : BitVec 8) (n : BitVec 8) (a : Bool) : RoundTrip.Statement (.qsolv d t r n a) := by
  intro hwf sl wd hs hw
  replace hw : encQ 0x03 d.val t.val r n (bitCode a * 8) = wd := Option.some.inj hw
  have hd : decSlot sl wd = decQ wd := by obtain rfl : 24 = sl := Option.some.inj hs; rfl
  refine decSyl_zero (hd.trans ?_)
  have b0 := d.isLt
  have b1 := t.isLt
  have b2 := r.isLt
  have b3 := n.isLt
  have b4 := bitCode_lt a
  obtain ⟨f7, f6, f5, f4, f3, lf⟩ := encQ_fields hw (by decide) (by omega) (by omega) (by omega)
  have f0 : fld wd 0 3 = 0 := by rw [fld_low 5 (by decide), lf] <;> omega
  have f1 : fld wd 3 1 = bitCode a := by rw [fld_low 5 (by decide), lf] <;> omega
  have f2 : fld wd 4 1 = 0 := by rw [fld_low 5 (by decide), lf] <;> omega
  replace hwf : (seqFields r n) = true := hwf
  try simp only [decide_eq_true_eq, Bool.and_eq_true, Bool.or_eq_true, Bool.not_eq_true', seqFields] at hwf
  unfold decQ
  rw [f7]
  show (guarded (.qsolv (finOf 4 (fld wd 24 2)) (finOf 8 (fld wd 21 3)) (fldB wd 13 8) (fldB wd 5 8) (bitOf (fld wd 3 1))) [(fldRsvd, bitOf (fld wd 4 1) || bitOf (fld wd 0 3)), (immIll, badSeq wd)] : Except Nat Instr) = _
  simp [badSeq, f0, f1, f2, f3, f4, f5, f6, f7, fldB, guarded, hwf]
  omega

theorem RoundTrip.qget (d : Fin 4) (e : BitVec 4) (b : SSrc) (n : Bool) (g : Bool) : RoundTrip.Statement (.qget d e b n g) := by
  intro hwf sl wd hs hw
  replace hw : encW 0x04 [(24, d.val), (20, e.toNat), (14, srcCode b), (1, bitCode n), (0, bitCode g)] = wd := Option.some.inj hw
  have hd : decSlot sl wd = decQ wd := by obtain rfl : 24 = sl := Option.some.inj hs; rfl
  refine decSyl_zero (hd.trans ?_)
  have b0 := d.isLt
  have b1 := e.isLt
  have b2 := srcCode_lt b
  have b3 := bitCode_lt n
  have b4 := bitCode_lt g
  obtain ⟨f0, f1, f2, f3, f4, f5, f6⟩ :
      fld wd 0 1 = bitCode g ∧ fld wd 1 1 = bitCode n ∧ fld wd 2 12 = 0 ∧
      fld wd 14 6 = srcCode b ∧ fld wd 20 4 = e.toNat ∧ fld wd 24 2 = d.val ∧
      fld wd 26 6 = 0x04 := by
    subst hw; simp only [fld, encW, encFields, BitVec.toNat_ofNat]
    refine ⟨?_, ?_, ?_, ?_, ?_, ?_, ?_⟩ <;> omega
  replace hwf : (!n || g) = true := hwf
  try simp only [decide_eq_true_eq, Bool.and_eq_true, Bool.or_eq_true, Bool.not_eq_true', seqFields] at hwf
  unfold decQ
  rw [f6]
  show (guarded (.qget (finOf 4 (fld wd 24 2)) (fldB wd 20 4) (srcOf (fld wd 14 6)) (bitOf (fld wd 1 1)) (bitOf (fld wd 0 1))) [(fldRsvd, bitOf (fld wd 2 12) || (bitOf (fld wd 1 1) && !bitOf (fld wd 0 1))), (srcIll, srcBad (fld wd 14 6))] : Except Nat Instr) = _
  simp [f0, f1, f2, f3, f4, f5, f6, fldB, guarded, hwf]
  cases n <;> simp_all

theorem RoundTrip.qput (d : Fin 4) (e : BitVec 4) (b : SSrc) : RoundTrip.Statement (.qput d e b) := by
  intro hwf sl wd hs hw
  replace hw : encW 0x05 [(24, d.val), (20, e.toNat), (14, srcCode b)] = wd := Option.some.inj hw
  have hd : decSlot sl wd = decQ wd := by obtain rfl : 24 = sl := Option.some.inj hs; rfl
  refine decSyl_zero (hd.trans ?_)
  have b0 := d.isLt
  have b1 := e.isLt
  have b2 := srcCode_lt b
  obtain ⟨f0, f1, f2, f3, f4⟩ :
      fld wd 0 14 = 0 ∧ fld wd 14 6 = srcCode b ∧ fld wd 20 4 = e.toNat ∧
      fld wd 24 2 = d.val ∧ fld wd 26 6 = 0x05 := by
    subst hw; simp only [fld, encW, encFields, BitVec.toNat_ofNat]
    refine ⟨?_, ?_, ?_, ?_, ?_⟩ <;> omega
  unfold decQ
  rw [f4]
  show (guarded (.qput (finOf 4 (fld wd 24 2)) (fldB wd 20 4) (srcOf (fld wd 14 6))) [(fldRsvd, bitOf (fld wd 0 14)), (srcIll, srcBad (fld wd 14 6))] : Except Nat Instr) = _
  simp [f0, f1, f2, f3, f4, fldB, guarded]

theorem RoundTrip.qclr (d : Fin 4) : RoundTrip.Statement (.qclr d) := by
  intro hwf sl wd hs hw
  replace hw : encW 0x06 [(24, d.val)] = wd := Option.some.inj hw
  have hd : decSlot sl wd = decQ wd := by obtain rfl : 24 = sl := Option.some.inj hs; rfl
  refine decSyl_zero (hd.trans ?_)
  have b0 := d.isLt
  obtain ⟨f0, f1, f2⟩ :
      fld wd 0 24 = 0 ∧ fld wd 24 2 = d.val ∧ fld wd 26 6 = 0x06 := by
    subst hw; simp only [fld, encW, encFields, BitVec.toNat_ofNat]
    refine ⟨?_, ?_, ?_⟩ <;> omega
  unfold decQ
  rw [f2]
  show (guarded (.qclr (finOf 4 (fld wd 24 2))) [(fldRsvd, bitOf (fld wd 0 24))] : Except Nat Instr) = _
  simp [f0, f1, f2, fldB, guarded]

theorem RoundTrip.eset (n : BitVec 4) (i : BitVec 8) (a : SSrc) : RoundTrip.Statement (.eset n i a) := by
  intro hwf sl wd hs hw
  replace hw : encW 0x00 [(22, n.toNat), (14, i.toNat), (8, srcCode a)] = wd := Option.some.inj hw
  have hd : decSlot sl wd = decE wd := by obtain rfl : 25 = sl := Option.some.inj hs; rfl
  refine decSyl_zero (hd.trans ?_)
  have b0 := n.isLt
  have b1 := i.isLt
  have b2 := srcCode_lt a
  obtain ⟨f0, f1, f2, f3, f4⟩ :
      fld wd 0 8 = 0 ∧ fld wd 8 6 = srcCode a ∧ fld wd 14 8 = i.toNat ∧
      fld wd 22 4 = n.toNat ∧ fld wd 26 6 = 0x00 := by
    subst hw; simp only [fld, encW, encFields, BitVec.toNat_ofNat]
    refine ⟨?_, ?_, ?_, ?_, ?_⟩ <;> omega
  replace hwf : (stagingDefined n i) = true := hwf
  try simp only [decide_eq_true_eq, Bool.and_eq_true, Bool.or_eq_true, Bool.not_eq_true', seqFields] at hwf
  unfold decE
  rw [f4]
  show (let n := fldB wd 22 4; let i := fldB wd 14 8; guarded (.eset n i (srcOf (fld wd 8 6))) [(fldRsvd, bitOf (fld wd 0 8)), (srcIll, srcBad (fld wd 8 6)), (ctlUndef, !stagingDefined n i && !statusDefined n i), (ctlPriv, !stagingDefined n i)] : Except Nat Instr) = _
  simp [f0, f1, f2, f3, f4, fldB, guarded, hwf]

theorem RoundTrip.eget (d : SDst) (n : BitVec 4) (i : BitVec 8) : RoundTrip.Statement (.eget d n i) := by
  intro hwf sl wd hs hw
  replace hw : encW 0x01 [(20, dstCode d), (19, dstW d), (15, n.toNat), (7, i.toNat)] = wd := Option.some.inj hw
  have hd : decSlot sl wd = decE wd := by obtain rfl : 25 = sl := Option.some.inj hs; rfl
  refine decSyl_zero (hd.trans ?_)
  have b0 := dstCode_lt d
  have b1 := dstW_lt d
  have b2 := n.isLt
  have b3 := i.isLt
  obtain ⟨f0, f1, f2, f3, f4, f5⟩ :
      fld wd 0 7 = 0 ∧ fld wd 7 8 = i.toNat ∧ fld wd 15 4 = n.toNat ∧
      fld wd 19 1 = dstW d ∧ fld wd 20 6 = dstCode d ∧ fld wd 26 6 = 0x01 := by
    subst hw; simp only [fld, encW, encFields, BitVec.toNat_ofNat]
    refine ⟨?_, ?_, ?_, ?_, ?_, ?_⟩ <;> omega
  replace hwf : (stagingDefined n i || statusDefined n i) = true := hwf
  try simp only [decide_eq_true_eq, Bool.and_eq_true, Bool.or_eq_true, Bool.not_eq_true', seqFields] at hwf
  unfold decE
  rw [f5]
  show (let n := fldB wd 15 4; let i := fldB wd 7 8; guarded (.eget (dstOf (fld wd 20 6) (fld wd 19 1)) n i) [(fldRsvd, bitOf (fld wd 0 7)), (dstIll, dstBad (fld wd 20 6) (fld wd 19 1)), (ctlUndef, !stagingDefined n i && !statusDefined n i)] : Except Nat Instr) = _
  simp [f0, f1, f2, f3, f4, f5, fldB, guarded, hwf]
  intro h; simpa [h] using hwf

theorem RoundTrip.cpy (d : SDst) (a : SSrc) (b : SSrc) (c : Bool) (h : Fin 4) : RoundTrip.Statement (.cpy d a b c h) := by
  intro hwf sl wd hs hw
  replace hw : encDAB 0x02 d a b (bitCode c * 4 + h.val) = wd := Option.some.inj hw
  have hd : decSlot sl wd = decE wd := by obtain rfl : 25 = sl := Option.some.inj hs; rfl
  refine decSyl_zero (hd.trans ?_)
  have b0 := dstCode_lt d
  have b1 := dstW_lt d
  have b2 := srcCode_lt a
  have b3 := srcCode_lt b
  have b4 := bitCode_lt c
  have b5 := h.isLt
  obtain ⟨f8, f7, f6, f5, f4, f1⟩ := encDAB_fields hw (by decide) (by omega)
  have f0 : fld wd 0 2 = h.val := by rw [fld_low 7 (by decide), f1] <;> omega
  have f2 : fld wd 2 1 = bitCode c := by rw [fld_low 7 (by decide), f1] <;> omega
  have f3 : fld wd 3 4 = 0 := by rw [fld_low 7 (by decide), f1] <;> omega
  unfold decE
  rw [f8]
  show (guarded (.cpy (dstOf (fld wd 20 6) (fld wd 19 1)) (srcOf (fld wd 13 6)) (srcOf (fld wd 7 6)) (bitOf (fld wd 2 1)) (finOf 4 (fld wd 0 2))) [(fldRsvd, bitOf (fld wd 3 4)), (srcIll, srcBad (fld wd 13 6) || srcBad (fld wd 7 6)), (dstIll, dstBad (fld wd 20 6) (fld wd 19 1))] : Except Nat Instr) = _
  simp [f0, f1, f2, f3, f4, f5, f6, f7, f8, fldB, guarded]

theorem RoundTrip.cdrn (d : SDst) (m : BitVec 4) : RoundTrip.Statement (.cdrn d m) := by
  intro hwf sl wd hs hw
  replace hw : encW 0x03 [(20, dstCode d), (19, dstW d), (0, m.toNat)] = wd := Option.some.inj hw
  have hd : decSlot sl wd = decE wd := by obtain rfl : 25 = sl := Option.some.inj hs; rfl
  refine decSyl_zero (hd.trans ?_)
  have b0 := dstCode_lt d
  have b1 := dstW_lt d
  have b2 := m.isLt
  obtain ⟨f0, f1, f2, f3, f4, f5⟩ :
      fld wd 0 4 = m.toNat ∧ fld wd 0 7 = (m.toNat) ∧ fld wd 4 15 = 0 ∧
      fld wd 19 1 = dstW d ∧ fld wd 20 6 = dstCode d ∧ fld wd 26 6 = 0x03 := by
    subst hw; simp only [fld, encW, encFields, BitVec.toNat_ofNat]
    refine ⟨?_, ?_, ?_, ?_, ?_, ?_⟩ <;> omega
  replace hwf : (decide (m ≠ 0)) = true := hwf
  try simp only [decide_eq_true_eq, Bool.and_eq_true, Bool.or_eq_true, Bool.not_eq_true', seqFields] at hwf
  unfold decE
  rw [f5]
  show (guarded (.cdrn (dstOf (fld wd 20 6) (fld wd 19 1)) (fldB wd 0 4)) [(fldRsvd, bitOf (fld wd 4 15) || decide (fld wd 0 4 = 0)), (dstIll, dstBad (fld wd 20 6) (fld wd 19 1))] : Except Nat Instr) = _
  simp [f0, f1, f2, f3, f4, f5, fldB, guarded, hwf]
  exact fun h => hwf (BitVec.eq_of_toNat_eq h)

theorem RoundTrip.tierStart (d : SDst) (a : SSrc) : RoundTrip.Statement (.tierStart d a) := by
  intro hwf sl wd hs hw
  replace hw : encDA 0x04 d a 0 = wd := Option.some.inj hw
  have hd : decSlot sl wd = decE wd := by obtain rfl : 25 = sl := Option.some.inj hs; rfl
  refine decSyl_zero (hd.trans ?_)
  have b0 := dstCode_lt d
  have b1 := dstW_lt d
  have b2 := srcCode_lt a
  obtain ⟨f5, f4, f3, f2, lf⟩ := encDA_fields hw (by decide) (by omega)
  have f0 : fld wd 0 7 = 0 := by rw [fld_low 13 (by decide), lf] <;> omega
  have f1 : fld wd 7 6 = 0 := by rw [fld_low 13 (by decide), lf] <;> omega
  unfold decE
  rw [f5]
  show (match fld wd 0 7 with | 0 => decEA wd .tierStart | 1 => decEC wd .tierAck | 2 => decEC wd .tierPoll | 3 => decEA wd .tierStop | _ => .error fldRsvd : Except Nat Instr) = _
  simp [decEC, decEA, f0, f1, f2, f3, f4, f5, fldB, guarded]

theorem RoundTrip.tierAck (d : SDst) (a : SSrc) (b : SSrc) : RoundTrip.Statement (.tierAck d a b) := by
  intro hwf sl wd hs hw
  replace hw : encDAB 0x04 d a b 1 = wd := Option.some.inj hw
  have hd : decSlot sl wd = decE wd := by obtain rfl : 25 = sl := Option.some.inj hs; rfl
  refine decSyl_zero (hd.trans ?_)
  have b0 := dstCode_lt d
  have b1 := dstW_lt d
  have b2 := srcCode_lt a
  have b3 := srcCode_lt b
  obtain ⟨f5, f4, f3, f2, f1, f0⟩ := encDAB_fields hw (by decide) (by omega)
  unfold decE
  rw [f5]
  show (match fld wd 0 7 with | 0 => decEA wd .tierStart | 1 => decEC wd .tierAck | 2 => decEC wd .tierPoll | 3 => decEA wd .tierStop | _ => .error fldRsvd : Except Nat Instr) = _
  simp [decEC, decEA, f0, f1, f2, f3, f4, f5, fldB, guarded]

theorem RoundTrip.tierPoll (d : SDst) (a : SSrc) (b : SSrc) : RoundTrip.Statement (.tierPoll d a b) := by
  intro hwf sl wd hs hw
  replace hw : encDAB 0x04 d a b 2 = wd := Option.some.inj hw
  have hd : decSlot sl wd = decE wd := by obtain rfl : 25 = sl := Option.some.inj hs; rfl
  refine decSyl_zero (hd.trans ?_)
  have b0 := dstCode_lt d
  have b1 := dstW_lt d
  have b2 := srcCode_lt a
  have b3 := srcCode_lt b
  obtain ⟨f5, f4, f3, f2, f1, f0⟩ := encDAB_fields hw (by decide) (by omega)
  unfold decE
  rw [f5]
  show (match fld wd 0 7 with | 0 => decEA wd .tierStart | 1 => decEC wd .tierAck | 2 => decEC wd .tierPoll | 3 => decEA wd .tierStop | _ => .error fldRsvd : Except Nat Instr) = _
  simp [decEC, decEA, f0, f1, f2, f3, f4, f5, fldB, guarded]

theorem RoundTrip.tierStop (d : SDst) (a : SSrc) : RoundTrip.Statement (.tierStop d a) := by
  intro hwf sl wd hs hw
  replace hw : encDA 0x04 d a 3 = wd := Option.some.inj hw
  have hd : decSlot sl wd = decE wd := by obtain rfl : 25 = sl := Option.some.inj hs; rfl
  refine decSyl_zero (hd.trans ?_)
  have b0 := dstCode_lt d
  have b1 := dstW_lt d
  have b2 := srcCode_lt a
  obtain ⟨f5, f4, f3, f2, lf⟩ := encDA_fields hw (by decide) (by omega)
  have f0 : fld wd 0 7 = (3) / 1 % 128 := by rw [fld_low 13 (by decide), lf] <;> omega
  have f1 : fld wd 7 6 = (3) / 128 % 64 := by rw [fld_low 13 (by decide), lf] <;> omega
  unfold decE
  rw [f5]
  show (match fld wd 0 7 with | 0 => decEA wd .tierStart | 1 => decEC wd .tierAck | 2 => decEC wd .tierPoll | 3 => decEA wd .tierStop | _ => .error fldRsvd : Except Nat Instr) = _
  simp [decEC, decEA, f0, f1, f2, f3, f4, f5, fldB, guarded]

theorem RoundTrip.kvlk (d : SDst) (a : SSrc) (b : SSrc) : RoundTrip.Statement (.kvlk d a b) := by
  intro hwf sl wd hs hw
  replace hw : encDAB 0x05 d a b 0 = wd := Option.some.inj hw
  have hd : decSlot sl wd = decE wd := by obtain rfl : 25 = sl := Option.some.inj hs; rfl
  refine decSyl_zero (hd.trans ?_)
  have b0 := dstCode_lt d
  have b1 := dstW_lt d
  have b2 := srcCode_lt a
  have b3 := srcCode_lt b
  obtain ⟨f5, f4, f3, f2, f1, f0⟩ := encDAB_fields hw (by decide) (by omega)
  unfold decE
  rw [f5]
  show (if fld wd 0 7 = 0 then decEC wd .kvlk else .error fldRsvd : Except Nat Instr) = _
  simp [decEC, f0, f1, f2, f3, f4, f5, fldB, guarded]

theorem RoundTrip.kvap (d : SDst) (a : SSrc) (b : SSrc) (v : Bool) : RoundTrip.Statement (.kvap d a b v) := by
  intro hwf sl wd hs hw
  replace hw : encDAB 0x06 d a b (bitCode v) = wd := Option.some.inj hw
  have hd : decSlot sl wd = decE wd := by obtain rfl : 25 = sl := Option.some.inj hs; rfl
  refine decSyl_zero (hd.trans ?_)
  have b0 := dstCode_lt d
  have b1 := dstW_lt d
  have b2 := srcCode_lt a
  have b3 := srcCode_lt b
  have b4 := bitCode_lt v
  obtain ⟨f5, f4, f3, f2, f1, f0⟩ := encDAB_fields hw (by decide) (by omega)
  unfold decE
  rw [f5]
  show (match fld wd 0 7 with | 0 => decEC wd fun d a b => .kvap d a b false | 1 => decEC wd fun d a b => .kvap d a b true | _ => .error fldRsvd : Except Nat Instr) = _
  simp [decEC, f0, f1, f2, f3, f4, f5, fldB, guarded]
  cases v <;> rfl

theorem RoundTrip.kvfk (d : SDst) (a : SSrc) (b : SSrc) : RoundTrip.Statement (.kvfk d a b) := by
  intro hwf sl wd hs hw
  replace hw : encDAB 0x07 d a b 0 = wd := Option.some.inj hw
  have hd : decSlot sl wd = decE wd := by obtain rfl : 25 = sl := Option.some.inj hs; rfl
  refine decSyl_zero (hd.trans ?_)
  have b0 := dstCode_lt d
  have b1 := dstW_lt d
  have b2 := srcCode_lt a
  have b3 := srcCode_lt b
  obtain ⟨f5, f4, f3, f2, f1, f0⟩ := encDAB_fields hw (by decide) (by omega)
  unfold decE
  rw [f5]
  show (if fld wd 0 7 = 0 then decEC wd .kvfk else .error fldRsvd : Except Nat Instr) = _
  simp [decEC, f0, f1, f2, f3, f4, f5, fldB, guarded]

theorem RoundTrip.kvrl (d : SDst) (a : SSrc) : RoundTrip.Statement (.kvrl d a) := by
  intro hwf sl wd hs hw
  replace hw : encDA 0x08 d a 0 = wd := Option.some.inj hw
  have hd : decSlot sl wd = decE wd := by obtain rfl : 25 = sl := Option.some.inj hs; rfl
  refine decSyl_zero (hd.trans ?_)
  have b0 := dstCode_lt d
  have b1 := dstW_lt d
  have b2 := srcCode_lt a
  obtain ⟨f5, f4, f3, f2, lf⟩ := encDA_fields hw (by decide) (by omega)
  have f0 : fld wd 0 7 = 0 := by rw [fld_low 13 (by decide), lf] <;> omega
  have f1 : fld wd 7 6 = 0 := by rw [fld_low 13 (by decide), lf] <;> omega
  unfold decE
  rw [f5]
  show (if fld wd 0 7 = 0 then decEA wd .kvrl else .error fldRsvd : Except Nat Instr) = _
  simp [decEA, f0, f1, f2, f3, f4, f5, fldB, guarded]

theorem RoundTrip.kvjnOpen (d : SDst) (a : SSrc) : RoundTrip.Statement (.kvjnOpen d a) := by
  intro hwf sl wd hs hw
  replace hw : encDA 0x09 d a 0 = wd := Option.some.inj hw
  have hd : decSlot sl wd = decE wd := by obtain rfl : 25 = sl := Option.some.inj hs; rfl
  refine decSyl_zero (hd.trans ?_)
  have b0 := dstCode_lt d
  have b1 := dstW_lt d
  have b2 := srcCode_lt a
  obtain ⟨f5, f4, f3, f2, lf⟩ := encDA_fields hw (by decide) (by omega)
  have f0 : fld wd 0 7 = 0 := by rw [fld_low 13 (by decide), lf] <;> omega
  have f1 : fld wd 7 6 = 0 := by rw [fld_low 13 (by decide), lf] <;> omega
  unfold decE
  rw [f5]
  show (match fld wd 0 7 with | 0 => decEA wd .kvjnOpen | 1 => decEA wd .kvjnCommit | 2 => decEA wd .kvjnReject | _ => .error fldRsvd : Except Nat Instr) = _
  simp [decEA, f0, f1, f2, f3, f4, f5, fldB, guarded]

theorem RoundTrip.kvjnCommit (d : SDst) (a : SSrc) : RoundTrip.Statement (.kvjnCommit d a) := by
  intro hwf sl wd hs hw
  replace hw : encDA 0x09 d a 1 = wd := Option.some.inj hw
  have hd : decSlot sl wd = decE wd := by obtain rfl : 25 = sl := Option.some.inj hs; rfl
  refine decSyl_zero (hd.trans ?_)
  have b0 := dstCode_lt d
  have b1 := dstW_lt d
  have b2 := srcCode_lt a
  obtain ⟨f5, f4, f3, f2, lf⟩ := encDA_fields hw (by decide) (by omega)
  have f0 : fld wd 0 7 = (1) / 1 % 128 := by rw [fld_low 13 (by decide), lf] <;> omega
  have f1 : fld wd 7 6 = (1) / 128 % 64 := by rw [fld_low 13 (by decide), lf] <;> omega
  unfold decE
  rw [f5]
  show (match fld wd 0 7 with | 0 => decEA wd .kvjnOpen | 1 => decEA wd .kvjnCommit | 2 => decEA wd .kvjnReject | _ => .error fldRsvd : Except Nat Instr) = _
  simp [decEA, f0, f1, f2, f3, f4, f5, fldB, guarded]

theorem RoundTrip.kvjnReject (d : SDst) (a : SSrc) : RoundTrip.Statement (.kvjnReject d a) := by
  intro hwf sl wd hs hw
  replace hw : encDA 0x09 d a 2 = wd := Option.some.inj hw
  have hd : decSlot sl wd = decE wd := by obtain rfl : 25 = sl := Option.some.inj hs; rfl
  refine decSyl_zero (hd.trans ?_)
  have b0 := dstCode_lt d
  have b1 := dstW_lt d
  have b2 := srcCode_lt a
  obtain ⟨f5, f4, f3, f2, lf⟩ := encDA_fields hw (by decide) (by omega)
  have f0 : fld wd 0 7 = (2) / 1 % 128 := by rw [fld_low 13 (by decide), lf] <;> omega
  have f1 : fld wd 7 6 = (2) / 128 % 64 := by rw [fld_low 13 (by decide), lf] <;> omega
  unfold decE
  rw [f5]
  show (match fld wd 0 7 with | 0 => decEA wd .kvjnOpen | 1 => decEA wd .kvjnCommit | 2 => decEA wd .kvjnReject | _ => .error fldRsvd : Except Nat Instr) = _
  simp [decEA, f0, f1, f2, f3, f4, f5, fldB, guarded]

theorem RoundTrip.topk (d : SDst) (a : SSrc) (b : SSrc) : RoundTrip.Statement (.topk d a b) := by
  intro hwf sl wd hs hw
  replace hw : encDAB 0x0A d a b 0 = wd := Option.some.inj hw
  have hd : decSlot sl wd = decE wd := by obtain rfl : 25 = sl := Option.some.inj hs; rfl
  refine decSyl_zero (hd.trans ?_)
  have b0 := dstCode_lt d
  have b1 := dstW_lt d
  have b2 := srcCode_lt a
  have b3 := srcCode_lt b
  obtain ⟨f5, f4, f3, f2, f1, f0⟩ := encDAB_fields hw (by decide) (by omega)
  unfold decE
  rw [f5]
  show (if fld wd 0 7 = 0 then decEC wd .topk else .error fldRsvd : Except Nat Instr) = _
  simp [decEC, f0, f1, f2, f3, f4, f5, fldB, guarded]

theorem RoundTrip.gthrWalk (d : SDst) (a : SSrc) (b : SSrc) : RoundTrip.Statement (.gthrWalk d a b) := by
  intro hwf sl wd hs hw
  replace hw : encDAB 0x0B d a b 0 = wd := Option.some.inj hw
  have hd : decSlot sl wd = decE wd := by obtain rfl : 25 = sl := Option.some.inj hs; rfl
  refine decSyl_zero (hd.trans ?_)
  have b0 := dstCode_lt d
  have b1 := dstW_lt d
  have b2 := srcCode_lt a
  have b3 := srcCode_lt b
  obtain ⟨f5, f4, f3, f2, f1, f0⟩ := encDAB_fields hw (by decide) (by omega)
  unfold decE
  rw [f5]
  show (match fld wd 0 7 with | 0 => decEC wd .gthrWalk | 1 => decEC wd .gthrPlan | 2 => decEC wd .gthrList | _ => .error fldRsvd : Except Nat Instr) = _
  simp [decEC, f0, f1, f2, f3, f4, f5, fldB, guarded]

theorem RoundTrip.gthrPlan (d : SDst) (a : SSrc) (b : SSrc) : RoundTrip.Statement (.gthrPlan d a b) := by
  intro hwf sl wd hs hw
  replace hw : encDAB 0x0B d a b 1 = wd := Option.some.inj hw
  have hd : decSlot sl wd = decE wd := by obtain rfl : 25 = sl := Option.some.inj hs; rfl
  refine decSyl_zero (hd.trans ?_)
  have b0 := dstCode_lt d
  have b1 := dstW_lt d
  have b2 := srcCode_lt a
  have b3 := srcCode_lt b
  obtain ⟨f5, f4, f3, f2, f1, f0⟩ := encDAB_fields hw (by decide) (by omega)
  unfold decE
  rw [f5]
  show (match fld wd 0 7 with | 0 => decEC wd .gthrWalk | 1 => decEC wd .gthrPlan | 2 => decEC wd .gthrList | _ => .error fldRsvd : Except Nat Instr) = _
  simp [decEC, f0, f1, f2, f3, f4, f5, fldB, guarded]

theorem RoundTrip.gthrList (d : SDst) (a : SSrc) (b : SSrc) : RoundTrip.Statement (.gthrList d a b) := by
  intro hwf sl wd hs hw
  replace hw : encDAB 0x0B d a b 2 = wd := Option.some.inj hw
  have hd : decSlot sl wd = decE wd := by obtain rfl : 25 = sl := Option.some.inj hs; rfl
  refine decSyl_zero (hd.trans ?_)
  have b0 := dstCode_lt d
  have b1 := dstW_lt d
  have b2 := srcCode_lt a
  have b3 := srcCode_lt b
  obtain ⟨f5, f4, f3, f2, f1, f0⟩ := encDAB_fields hw (by decide) (by omega)
  unfold decE
  rw [f5]
  show (match fld wd 0 7 with | 0 => decEC wd .gthrWalk | 1 => decEC wd .gthrPlan | 2 => decEC wd .gthrList | _ => .error fldRsvd : Except Nat Instr) = _
  simp [decEC, f0, f1, f2, f3, f4, f5, fldB, guarded]

theorem RoundTrip.nsnd (d : SDst) (a : SSrc) (b : SSrc) : RoundTrip.Statement (.nsnd d a b) := by
  intro hwf sl wd hs hw
  replace hw : encDAB 0x0C d a b 0 = wd := Option.some.inj hw
  have hd : decSlot sl wd = decE wd := by obtain rfl : 25 = sl := Option.some.inj hs; rfl
  refine decSyl_zero (hd.trans ?_)
  have b0 := dstCode_lt d
  have b1 := dstW_lt d
  have b2 := srcCode_lt a
  have b3 := srcCode_lt b
  obtain ⟨f5, f4, f3, f2, f1, f0⟩ := encDAB_fields hw (by decide) (by omega)
  unfold decE
  rw [f5]
  show (if fld wd 0 7 = 0 then decEC wd .nsnd else .error fldRsvd : Except Nat Instr) = _
  simp [decEC, f0, f1, f2, f3, f4, f5, fldB, guarded]

theorem RoundTrip.nrcv (d : SDst) (a : SSrc) (b : SSrc) : RoundTrip.Statement (.nrcv d a b) := by
  intro hwf sl wd hs hw
  replace hw : encDAB 0x0D d a b 0 = wd := Option.some.inj hw
  have hd : decSlot sl wd = decE wd := by obtain rfl : 25 = sl := Option.some.inj hs; rfl
  refine decSyl_zero (hd.trans ?_)
  have b0 := dstCode_lt d
  have b1 := dstW_lt d
  have b2 := srcCode_lt a
  have b3 := srcCode_lt b
  obtain ⟨f5, f4, f3, f2, f1, f0⟩ := encDAB_fields hw (by decide) (by omega)
  unfold decE
  rw [f5]
  show (if fld wd 0 7 = 0 then decEC wd .nrcv else .error fldRsvd : Except Nat Instr) = _
  simp [decEC, f0, f1, f2, f3, f4, f5, fldB, guarded]

theorem RoundTrip.collSum (d : SDst) (a : SSrc) (b : SSrc) : RoundTrip.Statement (.collSum d a b) := by
  intro hwf sl wd hs hw
  replace hw : encDAB 0x0E d a b 0 = wd := Option.some.inj hw
  have hd : decSlot sl wd = decE wd := by obtain rfl : 25 = sl := Option.some.inj hs; rfl
  refine decSyl_zero (hd.trans ?_)
  have b0 := dstCode_lt d
  have b1 := dstW_lt d
  have b2 := srcCode_lt a
  have b3 := srcCode_lt b
  obtain ⟨f5, f4, f3, f2, f1, f0⟩ := encDAB_fields hw (by decide) (by omega)
  unfold decE
  rw [f5]
  show (match fld wd 0 7 with | 0 => decEC wd .collSum | 1 => decEC wd .collMax | 2 => decEC wd .collGather | 3 => decEC wd .collScatter | 4 => decEC wd .collBcast | 5 => decEC wd .collBarrier | _ => .error fldRsvd : Except Nat Instr) = _
  simp [decEC, f0, f1, f2, f3, f4, f5, fldB, guarded]

theorem RoundTrip.collMax (d : SDst) (a : SSrc) (b : SSrc) : RoundTrip.Statement (.collMax d a b) := by
  intro hwf sl wd hs hw
  replace hw : encDAB 0x0E d a b 1 = wd := Option.some.inj hw
  have hd : decSlot sl wd = decE wd := by obtain rfl : 25 = sl := Option.some.inj hs; rfl
  refine decSyl_zero (hd.trans ?_)
  have b0 := dstCode_lt d
  have b1 := dstW_lt d
  have b2 := srcCode_lt a
  have b3 := srcCode_lt b
  obtain ⟨f5, f4, f3, f2, f1, f0⟩ := encDAB_fields hw (by decide) (by omega)
  unfold decE
  rw [f5]
  show (match fld wd 0 7 with | 0 => decEC wd .collSum | 1 => decEC wd .collMax | 2 => decEC wd .collGather | 3 => decEC wd .collScatter | 4 => decEC wd .collBcast | 5 => decEC wd .collBarrier | _ => .error fldRsvd : Except Nat Instr) = _
  simp [decEC, f0, f1, f2, f3, f4, f5, fldB, guarded]

theorem RoundTrip.collGather (d : SDst) (a : SSrc) (b : SSrc) : RoundTrip.Statement (.collGather d a b) := by
  intro hwf sl wd hs hw
  replace hw : encDAB 0x0E d a b 2 = wd := Option.some.inj hw
  have hd : decSlot sl wd = decE wd := by obtain rfl : 25 = sl := Option.some.inj hs; rfl
  refine decSyl_zero (hd.trans ?_)
  have b0 := dstCode_lt d
  have b1 := dstW_lt d
  have b2 := srcCode_lt a
  have b3 := srcCode_lt b
  obtain ⟨f5, f4, f3, f2, f1, f0⟩ := encDAB_fields hw (by decide) (by omega)
  unfold decE
  rw [f5]
  show (match fld wd 0 7 with | 0 => decEC wd .collSum | 1 => decEC wd .collMax | 2 => decEC wd .collGather | 3 => decEC wd .collScatter | 4 => decEC wd .collBcast | 5 => decEC wd .collBarrier | _ => .error fldRsvd : Except Nat Instr) = _
  simp [decEC, f0, f1, f2, f3, f4, f5, fldB, guarded]

theorem RoundTrip.collScatter (d : SDst) (a : SSrc) (b : SSrc) : RoundTrip.Statement (.collScatter d a b) := by
  intro hwf sl wd hs hw
  replace hw : encDAB 0x0E d a b 3 = wd := Option.some.inj hw
  have hd : decSlot sl wd = decE wd := by obtain rfl : 25 = sl := Option.some.inj hs; rfl
  refine decSyl_zero (hd.trans ?_)
  have b0 := dstCode_lt d
  have b1 := dstW_lt d
  have b2 := srcCode_lt a
  have b3 := srcCode_lt b
  obtain ⟨f5, f4, f3, f2, f1, f0⟩ := encDAB_fields hw (by decide) (by omega)
  unfold decE
  rw [f5]
  show (match fld wd 0 7 with | 0 => decEC wd .collSum | 1 => decEC wd .collMax | 2 => decEC wd .collGather | 3 => decEC wd .collScatter | 4 => decEC wd .collBcast | 5 => decEC wd .collBarrier | _ => .error fldRsvd : Except Nat Instr) = _
  simp [decEC, f0, f1, f2, f3, f4, f5, fldB, guarded]

theorem RoundTrip.collBcast (d : SDst) (a : SSrc) (b : SSrc) : RoundTrip.Statement (.collBcast d a b) := by
  intro hwf sl wd hs hw
  replace hw : encDAB 0x0E d a b 4 = wd := Option.some.inj hw
  have hd : decSlot sl wd = decE wd := by obtain rfl : 25 = sl := Option.some.inj hs; rfl
  refine decSyl_zero (hd.trans ?_)
  have b0 := dstCode_lt d
  have b1 := dstW_lt d
  have b2 := srcCode_lt a
  have b3 := srcCode_lt b
  obtain ⟨f5, f4, f3, f2, f1, f0⟩ := encDAB_fields hw (by decide) (by omega)
  unfold decE
  rw [f5]
  show (match fld wd 0 7 with | 0 => decEC wd .collSum | 1 => decEC wd .collMax | 2 => decEC wd .collGather | 3 => decEC wd .collScatter | 4 => decEC wd .collBcast | 5 => decEC wd .collBarrier | _ => .error fldRsvd : Except Nat Instr) = _
  simp [decEC, f0, f1, f2, f3, f4, f5, fldB, guarded]

theorem RoundTrip.collBarrier (d : SDst) (a : SSrc) (b : SSrc) : RoundTrip.Statement (.collBarrier d a b) := by
  intro hwf sl wd hs hw
  replace hw : encDAB 0x0E d a b 5 = wd := Option.some.inj hw
  have hd : decSlot sl wd = decE wd := by obtain rfl : 25 = sl := Option.some.inj hs; rfl
  refine decSyl_zero (hd.trans ?_)
  have b0 := dstCode_lt d
  have b1 := dstW_lt d
  have b2 := srcCode_lt a
  have b3 := srcCode_lt b
  obtain ⟨f5, f4, f3, f2, f1, f0⟩ := encDAB_fields hw (by decide) (by omega)
  unfold decE
  rw [f5]
  show (match fld wd 0 7 with | 0 => decEC wd .collSum | 1 => decEC wd .collMax | 2 => decEC wd .collGather | 3 => decEC wd .collScatter | 4 => decEC wd .collBcast | 5 => decEC wd .collBarrier | _ => .error fldRsvd : Except Nat Instr) = _
  simp [decEC, f0, f1, f2, f3, f4, f5, fldB, guarded]

theorem RoundTrip.btake (d : SDst) (a : SSrc) (n : BitVec 4) : RoundTrip.Statement (.btake d a n) := by
  intro hwf sl wd hs hw
  replace hw : encDA 0x0F d a n.toNat = wd := Option.some.inj hw
  have hd : decSlot sl wd = decE wd := by obtain rfl : 25 = sl := Option.some.inj hs; rfl
  refine decSyl_zero (hd.trans ?_)
  have b0 := dstCode_lt d
  have b1 := dstW_lt d
  have b2 := srcCode_lt a
  have b3 := n.isLt
  obtain ⟨f6, f5, f4, f3, lf⟩ := encDA_fields hw (by decide) (by omega)
  have f0 : fld wd 0 4 = n.toNat := by rw [fld_low 13 (by decide), lf] <;> omega
  have f1 : fld wd 0 7 = (n.toNat) := by rw [fld_low 13 (by decide), lf] <;> omega
  have f2 : fld wd 4 9 = 0 := by rw [fld_low 13 (by decide), lf] <;> omega
  unfold decE
  rw [f6]
  show (guarded (.btake (dstOf (fld wd 20 6) (fld wd 19 1)) (srcOf (fld wd 13 6)) (fldB wd 0 4)) [(fldRsvd, bitOf (fld wd 4 9)), (srcIll, srcBad (fld wd 13 6)), (dstIll, dstBad (fld wd 20 6) (fld wd 19 1))] : Except Nat Instr) = _
  simp [f0, f1, f2, f3, f4, f5, f6, fldB, guarded]

theorem RoundTrip.issueGroup (c : CoreId) : RoundTrip.Statement (.issueGroup c) :=
  fun _ _ wd _ hw => nomatch (show (none : Option W32) = some wd from hw)

theorem RoundTrip.resultLand (c : CoreId) : RoundTrip.Statement (.resultLand c) :=
  fun _ _ wd _ hw => nomatch (show (none : Option W32) = some wd from hw)

theorem RoundTrip.storeCommit (c : CoreId) : RoundTrip.Statement (.storeCommit c) :=
  fun _ _ wd _ hw => nomatch (show (none : Option W32) = some wd from hw)

theorem RoundTrip.arbiterChoice (c : CoreId) : RoundTrip.Statement (.arbiterChoice c) :=
  fun _ _ wd _ hw => nomatch (show (none : Option W32) = some wd from hw)

theorem RoundTrip.runOverrun (c : CoreId) : RoundTrip.Statement (.runOverrun c) :=
  fun _ _ wd _ hw => nomatch (show (none : Option W32) = some wd from hw)

theorem RoundTrip.freezeLong (c : CoreId) : RoundTrip.Statement (.freezeLong c) :=
  fun _ _ wd _ hw => nomatch (show (none : Option W32) = some wd from hw)

theorem RoundTrip.fiDeliver (c : CoreId) (s : Fin 4) : RoundTrip.Statement (.fiDeliver c s) :=
  fun _ _ wd _ hw => nomatch (show (none : Option W32) = some wd from hw)

theorem RoundTrip.requestLeaveFo (c : CoreId) (s : Fin 4) (occ : List Nat) : RoundTrip.Statement (.requestLeaveFo c s occ) :=
  fun _ _ wd _ hw => nomatch (show (none : Option W32) = some wd from hw)

theorem RoundTrip.stepComplete (c : CoreId) (s : Fin 4) : RoundTrip.Statement (.stepComplete c s) :=
  fun _ _ wd _ hw => nomatch (show (none : Option W32) = some wd from hw)

theorem RoundTrip.claimRelease (c : CoreId) : RoundTrip.Statement (.claimRelease c) :=
  fun _ _ wd _ hw => nomatch (show (none : Option W32) = some wd from hw)

theorem RoundTrip.beatLand (c : CoreId) : RoundTrip.Statement (.beatLand c) :=
  fun _ _ wd _ hw => nomatch (show (none : Option W32) = some wd from hw)

theorem RoundTrip.rotatorRow (c : CoreId) : RoundTrip.Statement (.rotatorRow c) :=
  fun _ _ wd _ hw => nomatch (show (none : Option W32) = some wd from hw)

theorem RoundTrip.taskCompletionSignal (c : CoreId) (s : Fin 4) : RoundTrip.Statement (.taskCompletionSignal c s) :=
  fun _ _ wd _ hw => nomatch (show (none : Option W32) = some wd from hw)

theorem RoundTrip.channelCommandStart (c : CoreId) (h : Fin 4) : RoundTrip.Statement (.channelCommandStart c h) :=
  fun _ _ wd _ hw => nomatch (show (none : Option W32) = some wd from hw)

theorem RoundTrip.channelRead (c : CoreId) (h : Fin 4) (second : Bool) (len : Nat) : RoundTrip.Statement (.channelRead c h second len) :=
  fun _ _ wd _ hw => nomatch (show (none : Option W32) = some wd from hw)

theorem RoundTrip.channelWrite (c : CoreId) (h : Fin 4) (k : Nat) : RoundTrip.Statement (.channelWrite c h k) :=
  fun _ _ wd _ hw => nomatch (show (none : Option W32) = some wd from hw)

theorem RoundTrip.sideLogReplay (c : CoreId) (h : Fin 4) : RoundTrip.Statement (.sideLogReplay c h) :=
  fun _ _ wd _ hw => nomatch (show (none : Option W32) = some wd from hw)

theorem RoundTrip.streamQueuePush (c : CoreId) (h : Fin 4) : RoundTrip.Statement (.streamQueuePush c h) :=
  fun _ _ wd _ hw => nomatch (show (none : Option W32) = some wd from hw)

theorem RoundTrip.streamQueuePop (c : CoreId) (h : Fin 4) : RoundTrip.Statement (.streamQueuePop c h) :=
  fun _ _ wd _ hw => nomatch (show (none : Option W32) = some wd from hw)

theorem RoundTrip.cpyComplete (c : CoreId) (h : Fin 4) : RoundTrip.Statement (.cpyComplete c h) :=
  fun _ _ wd _ hw => nomatch (show (none : Option W32) = some wd from hw)

theorem RoundTrip.cdrnRelease (c : CoreId) : RoundTrip.Statement (.cdrnRelease c) :=
  fun _ _ wd _ hw => nomatch (show (none : Option W32) = some wd from hw)

theorem RoundTrip.messageSend (c : CoreId) (h : Fin 4) (second : Bool) (occ : List Nat) : RoundTrip.Statement (.messageSend c h second occ) :=
  fun _ _ wd _ hw => nomatch (show (none : Option W32) = some wd from hw)

theorem RoundTrip.data (m : Msg) : RoundTrip.Statement (.data m) :=
  fun _ _ wd _ hw => nomatch (show (none : Option W32) = some wd from hw)

theorem RoundTrip.red (m : Msg) : RoundTrip.Statement (.red m) :=
  fun _ _ wd _ hw => nomatch (show (none : Option W32) = some wd from hw)

theorem RoundTrip.crd (m : Msg) : RoundTrip.Statement (.crd m) :=
  fun _ _ wd _ hw => nomatch (show (none : Option W32) = some wd from hw)

theorem RoundTrip.crdr (m : Msg) : RoundTrip.Statement (.crdr m) :=
  fun _ _ wd _ hw => nomatch (show (none : Option W32) = some wd from hw)

theorem RoundTrip.fin (m : Msg) : RoundTrip.Statement (.fin m) :=
  fun _ _ wd _ hw => nomatch (show (none : Option W32) = some wd from hw)

theorem RoundTrip.singleRequest (m : Msg) : RoundTrip.Statement (.singleRequest m) :=
  fun _ _ wd _ hw => nomatch (show (none : Option W32) = some wd from hw)

theorem RoundTrip.rep (m : Msg) : RoundTrip.Statement (.rep m) :=
  fun _ _ wd _ hw => nomatch (show (none : Option W32) = some wd from hw)

theorem RoundTrip.ack (m : Msg) : RoundTrip.Statement (.ack m) :=
  fun _ _ wd _ hw => nomatch (show (none : Option W32) = some wd from hw)

theorem RoundTrip.nack (m : Msg) : RoundTrip.Statement (.nack m) :=
  fun _ _ wd _ hw => nomatch (show (none : Option W32) = some wd from hw)

theorem RoundTrip.messageResend (c : CoreId) (a : Fin 8) (id : Nat) (occ : List Nat) : RoundTrip.Statement (.messageResend c a id occ) :=
  fun _ _ wd _ hw => nomatch (show (none : Option W32) = some wd from hw)

theorem RoundTrip.pqry (m : Msg) : RoundTrip.Statement (.pqry m) :=
  fun _ _ wd _ hw => nomatch (show (none : Option W32) = some wd from hw)

theorem RoundTrip.prep (m : Msg) : RoundTrip.Statement (.prep m) :=
  fun _ _ wd _ hw => nomatch (show (none : Option W32) = some wd from hw)

theorem RoundTrip.pdrop (m : Msg) : RoundTrip.Statement (.pdrop m) :=
  fun _ _ wd _ hw => nomatch (show (none : Option W32) = some wd from hw)

theorem RoundTrip.pinExpire (i : Fin 16384) : RoundTrip.Statement (.pinExpire i) :=
  fun _ _ wd _ hw => nomatch (show (none : Option W32) = some wd from hw)

theorem RoundTrip.engd (m : Msg) : RoundTrip.Statement (.engd m) :=
  fun _ _ wd _ hw => nomatch (show (none : Option W32) = some wd from hw)

theorem RoundTrip.linkReplay (p : Fin 32) (n : Nat) : RoundTrip.Statement (.linkReplay p n) :=
  fun _ _ wd _ hw => nomatch (show (none : Option W32) = some wd from hw)

theorem RoundTrip.portRetrain (p : Fin 32) (two : Bool) : RoundTrip.Statement (.portRetrain p two) :=
  fun _ _ wd _ hw => nomatch (show (none : Option W32) = some wd from hw)

theorem RoundTrip.linkDown (p : Fin 32) : RoundTrip.Statement (.linkDown p) :=
  fun _ _ wd _ hw => nomatch (show (none : Option W32) = some wd from hw)

theorem RoundTrip.vcTimeout (v : VcId) (back : Nat) : RoundTrip.Statement (.vcTimeout v back) :=
  fun _ _ wd _ hw => nomatch (show (none : Option W32) = some wd from hw)

theorem RoundTrip.completionCacheExpire (c : CoreId) : RoundTrip.Statement (.completionCacheExpire c) :=
  fun _ _ wd _ hw => nomatch (show (none : Option W32) = some wd from hw)

theorem RoundTrip.mcastAckTimeout (t : Fin 16) (shard : Nat) (member : Nat) : RoundTrip.Statement (.mcastAckTimeout t shard member) :=
  fun _ _ wd _ hw => nomatch (show (none : Option W32) = some wd from hw)

theorem RoundTrip.kvCommandPerform (d : Fin 4) : RoundTrip.Statement (.kvCommandPerform d) :=
  fun _ _ wd _ hw => nomatch (show (none : Option W32) = some wd from hw)

theorem RoundTrip.topkComplete (d : Fin 4) : RoundTrip.Statement (.topkComplete d) :=
  fun _ _ wd _ hw => nomatch (show (none : Option W32) = some wd from hw)

theorem RoundTrip.gatherCommandPerform (d : Fin 4) : RoundTrip.Statement (.gatherCommandPerform d) :=
  fun _ _ wd _ hw => nomatch (show (none : Option W32) = some wd from hw)

theorem RoundTrip.collComplete (g : BitVec 8) (peers : List CollPart) : RoundTrip.Statement (.collComplete g peers) :=
  fun _ _ wd _ hw => nomatch (show (none : Option W32) = some wd from hw)

theorem RoundTrip.collTimeout (g : BitVec 8) : RoundTrip.Statement (.collTimeout g) :=
  fun _ _ wd _ hw => nomatch (show (none : Option W32) = some wd from hw)

theorem RoundTrip.demandWalk (n : Fin 12) (c : CoreId) : RoundTrip.Statement (.demandWalk n c) :=
  fun _ _ wd _ hw => nomatch (show (none : Option W32) = some wd from hw)

theorem RoundTrip.itineraryRead (t : Fin 16) : RoundTrip.Statement (.itineraryRead t) :=
  fun _ _ wd _ hw => nomatch (show (none : Option W32) = some wd from hw)

theorem RoundTrip.hopStart (t : Fin 16) (h : Fin 3) : RoundTrip.Statement (.hopStart t h) :=
  fun _ _ wd _ hw => nomatch (show (none : Option W32) = some wd from hw)

theorem RoundTrip.hopLand (t : Fin 16) (h : Fin 3) (shard : Nat) : RoundTrip.Statement (.hopLand t h shard) :=
  fun _ _ wd _ hw => nomatch (show (none : Option W32) = some wd from hw)

theorem RoundTrip.memberAck (t : Fin 16) (shard : Nat) (member : Nat) : RoundTrip.Statement (.memberAck t shard member) :=
  fun _ _ wd _ hw => nomatch (show (none : Option W32) = some wd from hw)

theorem RoundTrip.paceHalve  : RoundTrip.Statement (.paceHalve) :=
  fun _ _ wd _ hw => nomatch (show (none : Option W32) = some wd from hw)

theorem RoundTrip.weightReplace (v : Word) : RoundTrip.Statement (.weightReplace v) :=
  fun _ _ wd _ hw => nomatch (show (none : Option W32) = some wd from hw)

theorem RoundTrip.replaceDrainDone  : RoundTrip.Statement (.replaceDrainDone) :=
  fun _ _ wd _ hw => nomatch (show (none : Option W32) = some wd from hw)

theorem RoundTrip.replaceGateTimeout  : RoundTrip.Statement (.replaceGateTimeout) :=
  fun _ _ wd _ hw => nomatch (show (none : Option W32) = some wd from hw)

theorem RoundTrip.replaceCopyDone  : RoundTrip.Statement (.replaceCopyDone) :=
  fun _ _ wd _ hw => nomatch (show (none : Option W32) = some wd from hw)

theorem RoundTrip.hbmThermalDrop (st : Fin 4) (temp : BitVec 16) : RoundTrip.Statement (.hbmThermalDrop st temp) :=
  fun _ _ wd _ hw => nomatch (show (none : Option W32) = some wd from hw)

theorem RoundTrip.hbmThermalRestore (st : Fin 4) (temp : BitVec 16) : RoundTrip.Statement (.hbmThermalRestore st temp) :=
  fun _ _ wd _ hw => nomatch (show (none : Option W32) = some wd from hw)

theorem RoundTrip.hbmLaneFault (ch : Fin 128) : RoundTrip.Statement (.hbmLaneFault ch) :=
  fun _ _ wd _ hw => nomatch (show (none : Option W32) = some wd from hw)

theorem RoundTrip.widthTransitionEnd (ch : Fin 128) : RoundTrip.Statement (.widthTransitionEnd ch) :=
  fun _ _ wd _ hw => nomatch (show (none : Option W32) = some wd from hw)

theorem RoundTrip.cxlTimeout (e : CxlEnd) : RoundTrip.Statement (.cxlTimeout e) :=
  fun _ _ wd _ hw => nomatch (show (none : Option W32) = some wd from hw)

theorem RoundTrip.cxlLinkLoss (p : Fin 8) : RoundTrip.Statement (.cxlLinkLoss p) :=
  fun _ _ wd _ hw => nomatch (show (none : Option W32) = some wd from hw)

theorem RoundTrip.requestRecord (q : Fin 16) (rec : List Byte) : RoundTrip.Statement (.requestRecord q rec) :=
  fun _ _ wd _ hw => nomatch (show (none : Option W32) = some wd from hw)

theorem RoundTrip.batchDeadline (q : Fin 16) : RoundTrip.Statement (.batchDeadline q) :=
  fun _ _ wd _ hw => nomatch (show (none : Option W32) = some wd from hw)

theorem RoundTrip.netRecordStart  : RoundTrip.Statement (.netRecordStart) :=
  fun _ _ wd _ hw => nomatch (show (none : Option W32) = some wd from hw)

theorem RoundTrip.packetSend (i : Nat) (psn : Nat) (port : Fin 4) : RoundTrip.Statement (.packetSend i psn port) :=
  fun _ _ wd _ hw => nomatch (show (none : Option W32) = some wd from hw)

theorem RoundTrip.packetArrive (p : Packet) : RoundTrip.Statement (.packetArrive p) :=
  fun _ _ wd _ hw => nomatch (show (none : Option W32) = some wd from hw)

theorem RoundTrip.uetAck (a : UAck) : RoundTrip.Statement (.uetAck a) :=
  fun _ _ wd _ hw => nomatch (show (none : Option W32) = some wd from hw)

theorem RoundTrip.rtoExpire (i : Nat) (psn : Nat) : RoundTrip.Statement (.rtoExpire i psn) :=
  fun _ _ wd _ hw => nomatch (show (none : Option W32) = some wd from hw)

theorem RoundTrip.launchDeliver (i : Nat) : RoundTrip.Statement (.launchDeliver i) :=
  fun _ _ wd _ hw => nomatch (show (none : Option W32) = some wd from hw)

theorem RoundTrip.pdcClose (i : Nat) : RoundTrip.Statement (.pdcClose i) :=
  fun _ _ wd _ hw => nomatch (show (none : Option W32) = some wd from hw)

theorem RoundTrip.netPortDown (p : Fin 4) : RoundTrip.Statement (.netPortDown p) :=
  fun _ _ wd _ hw => nomatch (show (none : Option W32) = some wd from hw)

theorem RoundTrip.launchRecordConsume (q : Fin 64) : RoundTrip.Statement (.launchRecordConsume q) :=
  fun _ _ wd _ hw => nomatch (show (none : Option W32) = some wd from hw)

theorem RoundTrip.dependencyRelease (q : Fin 64) : RoundTrip.Statement (.dependencyRelease q) :=
  fun _ _ wd _ hw => nomatch (show (none : Option W32) = some wd from hw)

theorem RoundTrip.dispatchDomain  : RoundTrip.Statement (.dispatchDomain) :=
  fun _ _ wd _ hw => nomatch (show (none : Option W32) = some wd from hw)

theorem RoundTrip.launchComplete (q : Fin 64) : RoundTrip.Statement (.launchComplete q) :=
  fun _ _ wd _ hw => nomatch (show (none : Option W32) = some wd from hw)

theorem RoundTrip.qretry (q : Fin 64) : RoundTrip.Statement (.qretry q) :=
  fun _ _ wd _ hw => nomatch (show (none : Option W32) = some wd from hw)

theorem RoundTrip.teardown (q : Fin 64) : RoundTrip.Statement (.teardown q) :=
  fun _ _ wd _ hw => nomatch (show (none : Option W32) = some wd from hw)

theorem RoundTrip.teardownRecord (q : Fin 64) : RoundTrip.Statement (.teardownRecord q) :=
  fun _ _ wd _ hw => nomatch (show (none : Option W32) = some wd from hw)

theorem RoundTrip.reset (q : Fin 64) : RoundTrip.Statement (.reset q) :=
  fun _ _ wd _ hw => nomatch (show (none : Option W32) = some wd from hw)

theorem RoundTrip.resetStopTimeout (q : Fin 64) : RoundTrip.Statement (.resetStopTimeout q) :=
  fun _ _ wd _ hw => nomatch (show (none : Option W32) = some wd from hw)

theorem RoundTrip.resetComplete (q : Fin 64) : RoundTrip.Statement (.resetComplete q) :=
  fun _ _ wd _ hw => nomatch (show (none : Option W32) = some wd from hw)

theorem RoundTrip.restart (q : Fin 64) : RoundTrip.Statement (.restart q) :=
  fun _ _ wd _ hw => nomatch (show (none : Option W32) = some wd from hw)

theorem RoundTrip.faultRecordWrite (q : Fin 64) : RoundTrip.Statement (.faultRecordWrite q) :=
  fun _ _ wd _ hw => nomatch (show (none : Option W32) = some wd from hw)

theorem RoundTrip.rollback (q : Fin 64) (tier : Nat) (addr : Nat) : RoundTrip.Statement (.rollback q tier addr) :=
  fun _ _ wd _ hw => nomatch (show (none : Option W32) = some wd from hw)

theorem RoundTrip.swapImageWrite (c : CoreId) (s : Fin 4) : RoundTrip.Statement (.swapImageWrite c s) :=
  fun _ _ wd _ hw => nomatch (show (none : Option W32) = some wd from hw)

theorem RoundTrip.qfheadWrite (q : Fin 64) (v : W32) : RoundTrip.Statement (.qfheadWrite q v) :=
  fun _ _ wd _ hw => nomatch (show (none : Option W32) = some wd from hw)

theorem RoundTrip.resume (c : CoreId) (s : Fin 4) : RoundTrip.Statement (.resume c s) :=
  fun _ _ wd _ hw => nomatch (show (none : Option W32) = some wd from hw)

theorem RoundTrip.resumeAtSpc (c : CoreId) (s : Fin 4) : RoundTrip.Statement (.resumeAtSpc c s) :=
  fun _ _ wd _ hw => nomatch (show (none : Option W32) = some wd from hw)

theorem RoundTrip.stop (c : CoreId) (s : Fin 4) : RoundTrip.Statement (.stop c s) :=
  fun _ _ wd _ hw => nomatch (show (none : Option W32) = some wd from hw)

theorem RoundTrip.swapout (c : CoreId) (s : Fin 4) : RoundTrip.Statement (.swapout c s) :=
  fun _ _ wd _ hw => nomatch (show (none : Option W32) = some wd from hw)

theorem RoundTrip.swapIn (q : Fin 64) : RoundTrip.Statement (.swapIn q) :=
  fun _ _ wd _ hw => nomatch (show (none : Option W32) = some wd from hw)

theorem RoundTrip.kill (c : CoreId) (s : Fin 4) : RoundTrip.Statement (.kill c s) :=
  fun _ _ wd _ hw => nomatch (show (none : Option W32) = some wd from hw)

theorem RoundTrip.revoke (v : Word) : RoundTrip.Statement (.revoke v) :=
  fun _ _ wd _ hw => nomatch (show (none : Option W32) = some wd from hw)

theorem RoundTrip.guardAck  : RoundTrip.Statement (.guardAck) :=
  fun _ _ wd _ hw => nomatch (show (none : Option W32) = some wd from hw)

theorem RoundTrip.refresh (v : Word) : RoundTrip.Statement (.refresh v) :=
  fun _ _ wd _ hw => nomatch (show (none : Option W32) = some wd from hw)

theorem RoundTrip.abandon (v : Word) : RoundTrip.Statement (.abandon v) :=
  fun _ _ wd _ hw => nomatch (show (none : Option W32) = some wd from hw)

theorem RoundTrip.qrbkGo (q : Fin 64) : RoundTrip.Statement (.qrbkGo q) :=
  fun _ _ wd _ hw => nomatch (show (none : Option W32) = some wd from hw)

theorem RoundTrip.boot (cold : Bool) : RoundTrip.Statement (.boot cold) :=
  fun _ _ wd _ hw => nomatch (show (none : Option W32) = some wd from hw)

theorem RoundTrip.mrExtend (v : BitVec 256) : RoundTrip.Statement (.mrExtend v) :=
  fun _ _ wd _ hw => nomatch (show (none : Option W32) = some wd from hw)

theorem RoundTrip.quote  : RoundTrip.Statement (.quote) :=
  fun _ _ wd _ hw => nomatch (show (none : Option W32) = some wd from hw)

theorem RoundTrip.quoteComplete  : RoundTrip.Statement (.quoteComplete) :=
  fun _ _ wd _ hw => nomatch (show (none : Option W32) = some wd from hw)

theorem RoundTrip.tamperTrip (inputs : BitVec 4) : RoundTrip.Statement (.tamperTrip inputs) :=
  fun _ _ wd _ hw => nomatch (show (none : Option W32) = some wd from hw)

theorem RoundTrip.powerTransition (v : Word) : RoundTrip.Statement (.powerTransition v) :=
  fun _ _ wd _ hw => nomatch (show (none : Option W32) = some wd from hw)

theorem RoundTrip.powerTransitionDone  : RoundTrip.Statement (.powerTransitionDone) :=
  fun _ _ wd _ hw => nomatch (show (none : Option W32) = some wd from hw)

theorem RoundTrip.dieThermalLimit (d : Fin 4) (temp : BitVec 16) : RoundTrip.Statement (.dieThermalLimit d temp) :=
  fun _ _ wd _ hw => nomatch (show (none : Option W32) = some wd from hw)

theorem RoundTrip.checkpoint (v : Word) : RoundTrip.Statement (.checkpoint v) :=
  fun _ _ wd _ hw => nomatch (show (none : Option W32) = some wd from hw)

theorem RoundTrip.checkpointDone  : RoundTrip.Statement (.checkpointDone) :=
  fun _ _ wd _ hw => nomatch (show (none : Option W32) = some wd from hw)

theorem RoundTrip.checkpointResume  : RoundTrip.Statement (.checkpointResume) :=
  fun _ _ wd _ hw => nomatch (show (none : Option W32) = some wd from hw)

theorem RoundTrip.restore (v : Word) : RoundTrip.Statement (.restore v) :=
  fun _ _ wd _ hw => nomatch (show (none : Option W32) = some wd from hw)

theorem RoundTrip.kvpfmtWrite (d : Fin 4) (v : Word) : RoundTrip.Statement (.kvpfmtWrite d v) :=
  fun _ _ wd _ hw => nomatch (show (none : Option W32) = some wd from hw)

theorem RoundTrip.mgmtRegisterWrite (r : MReg) (v : Word) : RoundTrip.Statement (.mgmtRegisterWrite r v) :=
  fun _ _ wd _ hw => nomatch (show (none : Option W32) = some wd from hw)

theorem RoundTrip.flitForward (t : Transit) : RoundTrip.Statement (.flitForward t) :=
  fun _ _ wd _ hw => nomatch (show (none : Option W32) = some wd from hw)

theorem RoundTrip.fabricPortUp (p : Fin 32) (nbr : Nat) (two : Bool) : RoundTrip.Statement (.fabricPortUp p nbr two) :=
  fun _ _ wd _ hw => nomatch (show (none : Option W32) = some wd from hw)

theorem RoundTrip.netPortUp (p : Fin 4) : RoundTrip.Statement (.netPortUp p) :=
  fun _ _ wd _ hw => nomatch (show (none : Option W32) = some wd from hw)

theorem RoundTrip.packageReset : RoundTrip.Statement .packageReset :=
  fun _ _ wd _ hw => nomatch (show (none : Option W32) = some wd from hw)

theorem RoundTrip.orderingPointArrival (k : Nat) : RoundTrip.Statement (.orderingPointArrival k) :=
  fun _ _ wd _ hw => nomatch (show (none : Option W32) = some wd from hw)

theorem RoundTrip.hartMemoryAccess (o : HartOp) : RoundTrip.Statement (.hartMemoryAccess o) :=
  fun _ _ wd _ hw => nomatch (show (none : Option W32) = some wd from hw)

theorem RoundTrip.poolHostAccess (addr : Nat) (write : Option (List Byte)) : RoundTrip.Statement (.poolHostAccess addr write) :=
  fun _ _ wd _ hw => nomatch (show (none : Option W32) = some wd from hw)

theorem RoundTrip.checkpointQuiesceTimeout  : RoundTrip.Statement (.checkpointQuiesceTimeout) :=
  fun _ _ wd _ hw => nomatch (show (none : Option W32) = some wd from hw)

theorem RoundTrip.cxlCapacityEvent (info : Word) : RoundTrip.Statement (.cxlCapacityEvent info) :=
  fun _ _ wd _ hw => nomatch (show (none : Option W32) = some wd from hw)

end Sys2Proof.Laws
end

