-- ==== Sys2Proof/Laws/Scalar.lean ====
section
/-!
SUPPORT. The S class: the counts, bit fields and quotients of Table 4-1 in terms of the bits and integers they stand for.
-/
namespace Sys2Proof.Laws

open Sys2Proof Sys2Proof.Machine Sys2Proof.Safety

/-- Leading zeros of a number of `n` bits (R79). -/
theorem clzNat_eq (n v : Nat) (h : v < 2 ^ n) : clzNat n v = if v = 0 then n else n - 1 - Nat.log2 v := by
  induction n with
  | zero => simp [clzNat]
  | succ n ih =>
    unfold clzNat
    by_cases hb : v.testBit n = true
    · have h2 : 2 ^ n ≤ v := Nat.ge_two_pow_of_testBit hb
      have h0 : v ≠ 0 := by have := Nat.two_pow_pos n; omega
      have hl : Nat.log2 v = n := (Nat.log2_eq_iff h0).2 ⟨h2, h⟩
      simp [hb, h0, hl]
    · have hv : v < 2 ^ n := by
        rcases Nat.lt_or_ge v (2 ^ n) with hc | hc
        · exact hc
        · exfalso
          apply hb
          have h1 : v / 2 ^ n = 1 := Nat.div_eq_of_lt_le (by omega) (by rw [Nat.pow_succ] at h; omega)
          simp [Nat.testBit_eq_decide_div_mod_eq, h1]
      rw [ih hv]
      by_cases h0 : v = 0
      · simp [h0]; omega
      · have : Nat.log2 v < n := (Nat.log2_lt h0).2 hv
        simp [hb, h0]; omega

/-- One bits of a number (R79). -/
theorem popNat_eq (n v : Nat) : popNat n v = (List.range n).countP fun k => v.testBit k := by
  induction n with
  | zero => rfl
  | succ n ih => simp [popNat, ih, List.range_succ, List.countP_append, List.countP_cons]; omega

/-- BFX bit by bit (R82). -/
theorem bfxVal_bit (a : Word) (pos len k : Nat) (hk : k < 64) :
    (bfxVal a pos len).getLsbD k = (decide (k < len) && a.getLsbD (pos + k)) := by
  unfold bfxVal
  rw [BitVec.getLsbD_ofNat]
  simp only [hk, decide_true, Bool.true_and, Nat.testBit_mod_two_pow, Nat.testBit_div_two_pow, BitVec.getLsbD]
  rw [Nat.add_comm]

/-- BFI as a number: the high part, the new field, the low part (R82). -/
theorem bfiVal_nat (old a pos len : Nat) :
    old - old / 2 ^ pos % 2 ^ len * 2 ^ pos + a % 2 ^ len * 2 ^ pos =
      2 ^ (pos + len) * (old / 2 ^ (pos + len)) + (2 ^ pos * (a % 2 ^ len) + old % 2 ^ pos) := by
  have h1 := Nat.div_add_mod old (2 ^ pos)
  have h2 := Nat.div_add_mod (old / 2 ^ pos) (2 ^ len)
  rw [Nat.div_div_eq_div_mul, ← Nat.pow_add] at h2
  have h3 : 2 ^ pos * (old / 2 ^ pos) =
      2 ^ (pos + len) * (old / 2 ^ (pos + len)) + old / 2 ^ pos % 2 ^ len * 2 ^ pos := by
    conv => lhs; rw [← h2]
    rw [Nat.mul_add, ← Nat.mul_assoc, ← Nat.pow_add, Nat.mul_comm (2 ^ pos) (old / 2 ^ pos % 2 ^ len)]
  rw [Nat.mul_comm (2 ^ pos) (a % 2 ^ len)]
  omega

/-- BFI bit by bit (R82). -/
theorem bfiVal_bit (old a : Word) (pos len k : Nat) (hk : k < 64) :
    (bfiVal old a pos len).getLsbD k =
      if pos ≤ k ∧ k < pos + len then a.getLsbD (k - pos) else old.getLsbD k := by
  unfold bfiVal
  rw [BitVec.getLsbD_ofNat, bfiVal_nat]
  have hL : old.toNat % 2 ^ pos < 2 ^ pos := Nat.mod_lt _ (Nat.two_pow_pos _)
  have hN : 2 ^ pos * (a.toNat % 2 ^ len) + old.toNat % 2 ^ pos < 2 ^ (pos + len) := by
    have : a.toNat % 2 ^ len < 2 ^ len := Nat.mod_lt _ (Nat.two_pow_pos _)
    have h4 : 2 ^ pos * (a.toNat % 2 ^ len + 1) ≤ 2 ^ pos * 2 ^ len := Nat.mul_le_mul_left _ this
    rw [Nat.mul_add, Nat.mul_one, ← Nat.pow_add] at h4
    omega
  rw [Nat.testBit_two_pow_mul_add _ hN, Nat.testBit_two_pow_mul_add _ hL]
  simp only [hk, decide_true, Bool.true_and, Nat.testBit_mod_two_pow, Nat.testBit_div_two_pow, BitVec.getLsbD]
  by_cases h1 : k < pos
  · have h2 : k < pos + len := by omega
    have h3 : ¬ pos ≤ k := by omega
    simp [h1, h2, h3]
  · by_cases h2 : k < pos + len
    · have h3 : k - pos < len := by omega
      have h4 : pos ≤ k := by omega
      simp [h1, h2, h3, h4]
    · have h3 : k - (pos + len) + (pos + len) = k := by omega
      simp [h2, h3]

/-- DIV is the quotient rounded toward zero, whatever the operands (R81). -/
theorem divVal_eq (x y : Word) : divVal x y = if y = 0 then BitVec.allOnes 64 else x.sdiv y := by
  unfold divVal
  split
  · rfl
  · split
    · rename_i h
      obtain ⟨rfl, rfl⟩ := h
      decide
    · apply BitVec.eq_of_toInt_eq
      rw [BitVec.toInt_ofInt, BitVec.toInt_sdiv]

/-- REM is the remainder with the sign of the dividend, whatever the operands (R81). -/
theorem remVal_eq (x y : Word) : remVal x y = if y = 0 then x else x.srem y := by
  unfold remVal
  split
  · rfl
  · split
    · rename_i h
      obtain ⟨rfl, rfl⟩ := h
      decide
    · rw [← Int.tmod_def, ← BitVec.toInt_srem, BitVec.ofInt_toInt]

end Sys2Proof.Laws
end

