-- ==== Sys2Proof/Tests/Slice0.lean ====
section
/-!
SUPPORT. Tests.  Words of the spec's examples and words written out field by field from Tables 3-5 to 3-15; an ill-formed term for each
check of WellFormed; small steps whose results come from the spec's examples or from a calculation by hand; and for each statement with
hypotheses a state and operands that meet them.
-/
namespace Sys2Proof.Tests

open Sys2Proof Sys2Proof.Machine Sys2Proof.Safety

-- One test after another: many evaluations by the kernel at a time would pass the check's bound on memory.
set_option Elab.async false

/-! ### Words -/

/-- A scalar register as a source. -/
abbrev r (n : Nat) : SSrc := .reg (Fin.ofNat 56 n)

/-- A scalar register as a destination. -/
abbrev d (n : Nat) : SDst := .reg (Fin.ofNat 56 n)

/-- A vector register as a source. -/
abbrev v (n : Nat) : VSrc := .reg (Fin.ofNat 32 n)

/-- A vector register as a destination. -/
abbrev x (n : Nat) : VDst := .reg (Fin.ofNat 32 n)

theorem test_decode_s : decSyl 0 0 0x0060A280 = .ok (.add .s0 (d 6) (r 5) (r 5)) ∧ decSyl 0 0 0x58400003 = .ok (.movi .s0 (d 4) 3) ∧
    decSyl 0 1 0x58600000 = .ok (.movi .s1 (d 6) 0) ∧ decSyl 0 0 0x5850000F = .ok (.movi .s0 (d 5) 15) ∧
    decSyl 0 0 0x5C57F800 = .ok (.movhi .s0 (.reg 5) 0x7F800) := ⟨rfl, rfl, rfl, rfl, rfl⟩

theorem test_decode_b : decSyl 0 2 0x3C000000 = .ok (.halt (r 0)) ∧ decSyl 0 2 0x14400000 = .ok (.loop 4 0) ∧
    decSyl 0 2 0x30000008 = .ok (.fence true 0) := ⟨rfl, rfl, rfl⟩

theorem test_decode_m : decSyl 0 3 0x00500182 = .ok (.ld .m0 (d 5) 0 (r 0) 3 2) ∧ decSyl 0 3 0x08600183 = .ok (.st .m0 (r 6) 0 (r 0) 3 3) ∧
    decSyl 0 3 0x55788480 = .ok (.rst .m0 5 3 true (r 4) (r 9) 0 false) ∧ decSyl 0 3 0x6007C000 = .ok (.pinset .m0 .fi false) ∧
    decSyl 0 3 0x55B00520 = .ok (.rst .m0 6 3 false (r 0) (r 10) 1 false) := ⟨rfl, rfl, rfl, rfl, rfl⟩

theorem test_decode_v : decSyl 0 7 0x02488160 = .ok (.vadd 2 .qo .qa (v 1) 3 .f32 false) ∧ decSyl 0 5 0x4C010000 = .ok (.vwmg 0 0 1 0) :=
  ⟨rfl, rfl⟩

theorem test_decode_x : decSyl 0 21 0x10000000 = .ok .wswap ∧ decSyl 0 21 0x08800004 = .ok (.acc 1 0 0 false 4) ∧
    decSyl 0 21 0x0E000000 = .ok (.drain 4 0 0 false) := ⟨rfl, rfl, rfl⟩

theorem test_decode_q : decSyl 0 24 0x18000000 = .ok (.qclr 0) ∧ decSyl 0 24 0x00600040 = .ok (.qrf 0 3 0 2 false false) ∧
    decSyl 0 24 0x10210001 = .ok (.qget 0 2 (r 4) false true) := ⟨rfl, rfl, rfl⟩

theorem test_decode_e : decSyl 0 25 0x00004500 = .ok (.eset 0 1 (r 5)) ∧ decSyl 0 25 0x08708300 = .ok (.cpy (d 7) (r 4) (r 6) false 0) ∧
    decSyl 0 25 0x08812504 = .ok (.cpy (d 8) (r 9) (r 10) true 0) ∧ decSyl 0 25 0x0CB00001 = .ok (.cdrn (d 11) 1) ∧
    decSyl 0 25 0x24908002 = .ok (.kvjnReject (d 9) (r 4)) ∧ decSyl 0 25 0x18808281 = .ok (.kvap (d 8) (r 4) (r 5) true) ∧
    decSyl 0 25 0x2D900C01 = .ok (.gthrPlan (d 25) (r 0) (r 24)) ∧ decSyl 0 25 0x2D92EC02 = .ok (.gthrList (d 25) (r 23) (r 24)) ∧
    decSyl 0 25 0x31B00E00 = .ok (.nsnd (d 27) (r 0) (r 28)) ∧ decSyl 0 25 0x35B00E00 = .ok (.nrcv (d 27) (r 0) (r 28)) :=
  ⟨rfl, rfl, rfl, rfl, rfl, rfl, rfl, rfl, rfl, rfl⟩

/-! A word of each syllable, its fields placed as Tables 3-5 to 3-12 place them: mostly D 7, A 9, B 11. -/

theorem test_fields_s0 :
    decSyl 0 1 0x00712580 = .ok (.add .s1 (d 7) (r 9) (r 11)) ∧
    decSyl 0 1 0x04712580 = .ok (.sub .s1 (d 7) (r 9) (r 11)) ∧
    decSyl 0 1 0x08712580 = .ok (.mul .s1 (d 7) (r 9) (r 11)) ∧
    decSyl 0 1 0x0C712580 = .ok (.mulh .s1 (d 7) (r 9) (r 11)) ∧
    decSyl 0 1 0x10712580 = .ok (.mulhn .s1 (d 7) (r 9) (r 11)) ∧
    decSyl 0 1 0x14712580 = .ok (.div .s1 (d 7) (r 9) (r 11)) ∧
    decSyl 0 1 0x18712580 = .ok (.divn .s1 (d 7) (r 9) (r 11)) ∧
    decSyl 0 1 0x1C712580 = .ok (.rem .s1 (d 7) (r 9) (r 11)) ∧
    decSyl 0 1 0x20712580 = .ok (.remn .s1 (d 7) (r 9) (r 11)) ∧
    decSyl 0 1 0x24712580 = .ok (.and .s1 (d 7) (r 9) (r 11)) ∧
    decSyl 0 1 0x28712580 = .ok (.or .s1 (d 7) (r 9) (r 11)) ∧
    decSyl 0 1 0x2C712580 = .ok (.xor .s1 (d 7) (r 9) (r 11)) ∧
    decSyl 0 1 0x30712580 = .ok (.andn .s1 (d 7) (r 9) (r 11)) ∧
    decSyl 0 1 0x34712580 = .ok (.shl .s1 (d 7) (r 9) (r 11)) ∧
    decSyl 0 1 0x38712580 = .ok (.shr .s1 (d 7) (r 9) (r 11)) ∧
    decSyl 0 1 0x3C712580 = .ok (.sra .s1 (d 7) (r 9) (r 11)) ∧
    decSyl 0 1 0x40712580 = .ok (.seq .s1 (d 7) (r 9) (r 11)) ∧
    decSyl 0 1 0x44712580 = .ok (.slt .s1 (d 7) (r 9) (r 11)) ∧
    decSyl 0 1 0x48712580 = .ok (.sltn .s1 (d 7) (r 9) (r 11)) ∧
    decSyl 0 1 0x4C712580 = .ok (.min .s1 (d 7) (r 9) (r 11)) :=
  ⟨rfl, rfl, rfl, rfl, rfl, rfl, rfl, rfl, rfl, rfl, rfl, rfl, rfl, rfl, rfl, rfl, rfl, rfl, rfl, rfl⟩

theorem test_fields_s1 :
    decSyl 0 1 0x50712580 = .ok (.max .s1 (d 7) (r 9) (r 11)) ∧
    decSyl 0 0 0x80713FFD = .ok (.addi .s0 (d 7) (r 9) (-3)) ∧
    decSyl 0 0 0x88713FFD = .ok (.muli .s0 (d 7) (r 9) (-3)) ∧
    decSyl 0 0 0xA4713FFD = .ok (.andi .s0 (d 7) (r 9) (-3)) ∧
    decSyl 0 0 0xA8713FFD = .ok (.ori .s0 (d 7) (r 9) (-3)) ∧
    decSyl 0 0 0xAC713FFD = .ok (.xori .s0 (d 7) (r 9) (-3)) ∧
    decSyl 0 0 0xC4713FFD = .ok (.slti .s0 (d 7) (r 9) (-3)) ∧
    decSyl 0 0 0xD0713FFD = .ok (.maxi .s0 (d 7) (r 9) (-3)) ∧
    decSyl 0 0 0xB7E7003F = .ok (.shli .s0 .fo (.latch 0) 63) ∧
    decSyl 0 0 0xBBE7003F = .ok (.shri .s0 .fo (.latch 0) 63) ∧
    decSyl 0 0 0xBFE7003F = .ok (.srai .s0 .fo (.latch 0) 63) ∧
    decSyl 0 0 0x540FDEEE = .ok (.sel .s0 .latch .fi (.latch 5) (r 55)) ∧
    decSyl 0 0 0x58740000 = .ok (.movi .s0 (d 7) 0x40000) ∧
    decSyl 0 0 0x5C77F800 = .ok (.movhi .s0 (.reg 7) 0x7F800) ∧
    decSyl 0 0 0x60712000 = .ok (.clz .s0 (d 7) (r 9)) ∧
    decSyl 0 0 0x64712000 = .ok (.popc .s0 (d 7) (r 9)) ∧
    decSyl 0 0 0x68713F82 = .ok (.bfx .s0 (d 7) (r 9) 63 1) ∧
    decSyl 0 0 0x6C712000 = .ok (.bfi .s0 (.reg 7) (r 9) 0 0) ∧
    decSyl 0 0 0x70712586 = .ok (.addsc .s0 (d 7) (r 9) (r 11) 3) ∧
    decSyl 0 0 0x74708780 = .ok (.getc .s0 (d 7) 0x10F) :=
  ⟨rfl, rfl, rfl, rfl, rfl, rfl, rfl, rfl, rfl, rfl, rfl, rfl, rfl, rfl, rfl, rfl, rfl, rfl, rfl, rfl⟩

theorem test_fields_s2 :
    decSyl 0 0 0x78902000 = .ok (.setc .s0 (r 9) 0x40) :=
  rfl

theorem test_fields_b :
    decSyl 0 2 0x03FFFFFF = .ok (.br (-1)) ∧
    decSyl 0 2 0x04980005 = .ok (.brc (r 9) .ltz 5) ∧
    decSyl 0 2 0x08700006 = .ok (.call 7 6) ∧
    decSyl 0 2 0x0C900000 = .ok (.ret (r 9)) ∧
    decSyl 0 2 0x1092E000 = .ok (.jr (r 9) (r 11) 0x2000) ∧
    decSyl 0 2 0x14900004 = .ok (.loop 9 4) ∧
    decSyl 0 2 0x20900000 = .ok (.run (r 9)) ∧
    decSyl 0 2 0x2492D700 = .ok (.waitf (r 9) (r 11) 5 .any) ∧
    decSyl 0 2 0x28000004 = .ok (.step 4) ∧
    decSyl 0 2 0x3000000A = .ok (.fence true 2) ∧
    decSyl 0 2 0x3890000D = .ok (.trap (r 9) 13) ∧
    decSyl 0 2 0x3C900000 = .ok (.halt (r 9)) :=
  ⟨rfl, rfl, rfl, rfl, rfl, rfl, rfl, rfl, rfl, rfl, rfl, rfl⟩

theorem test_fields_m :
    decSyl 0 4 0x007297FE = .ok (.ld .m1 (d 7) 5 (r 11) 3 (-2)) ∧
    decSyl 0 4 0x04729681 = .ok (.ldn .m1 (d 7) 5 (r 11) 1 1) ∧
    decSyl 0 4 0x08929701 = .ok (.st .m1 (r 9) 5 (r 11) 2 1) ∧
    decSyl 0 3 0x1072964E = .ok (.amo .m0 (d 7) 5 (r 11) (r 9) .max) ∧
    decSyl 0 3 0x14729648 = .ok (.cas .m0 (.reg 7) 5 (r 11) (r 9)) ∧
    decSyl 0 3 0x20712000 = .ok (.lkup .m0 (d 7) (r 9)) ∧
    decSyl 0 3 0x24712580 = .ok (.tagset .m0 (d 7) (r 9) (r 11)) ∧
    decSyl 0 3 0x28712000 = .ok (.tagdrop .m0 (d 7) (r 9)) ∧
    decSyl 0 3 0x30000585 = .ok (.bari .m0 (r 11) 5) ∧
    decSyl 0 3 0x34000585 = .ok (.bara .m0 (r 11) 5) ∧
    decSyl 0 3 0x38000005 = .ok (.barw .m0 5) ∧
    decSyl 0 3 0x3C700585 = .ok (.barx .m0 (d 7) (r 11) 5) ∧
    decSyl 0 3 0x4070000C = .ok (.acq .m0 (d 7) 12) ∧
    decSyl 0 3 0x4400059C = .ok (.rel .m0 (r 11) true 12) ∧
    decSyl 0 3 0x4941258C = .ok (.bind .m0 5 (r 9) (r 11) 12) ∧
    decSyl 0 3 0x51612010 = .ok (.rld .m0 5 2 (r 9) true) ∧
    decSyl 0 3 0x557925C0 = .ok (.rst .m0 5 3 true (r 9) (r 11) 2 false) ∧
    decSyl 0 3 0x597125B4 = .ok (.ramo .m0 5 true (r 9) (r 11) 1 true .swap) ∧
    decSyl 0 3 0x6007C001 = .ok (.pinset .m0 .fi true) ∧
    decSyl 0 3 0x64012000 = .ok (.pindrop .m0 (r 9)) :=
  ⟨rfl, rfl, rfl, rfl, rfl, rfl, rfl, rfl, rfl, rfl, rfl, rfl, rfl, rfl, rfl, rfl, rfl, rfl, rfl, rfl⟩

theorem test_fields_v0 :
    decSyl 0 8 0x00724BB5 = .ok (.vadd 3 (x 7) (v 9) (v 11) 5 .i16 true) ∧
    decSyl 0 8 0x04724BB9 = .ok (.vsub 3 (x 7) (v 9) (v 11) 5 .n16 true) ∧
    decSyl 0 8 0x08724BA6 = .ok (.vmul 3 (x 7) (v 9) (v 11) 5 .i32 .hi) ∧
    decSyl 0 8 0x10724BA0 = .ok (.vmin 3 (x 7) (v 9) (v 11) 5 .f32) ∧
    decSyl 0 8 0x14724BAC = .ok (.vmax 3 (x 7) (v 9) (v 11) 5 .bf16) ∧
    decSyl 0 8 0x1C724BB0 = .ok (.vsel 3 (x 7) (v 9) (v 11) 5 .f16) ∧
    decSyl 0 8 0x20724BA8 = .ok (.vand 3 (x 7) (v 9) (v 11) 5 .n32) ∧
    decSyl 0 8 0x24724BA8 = .ok (.vor 3 (x 7) (v 9) (v 11) 5 .n32) ∧
    decSyl 0 8 0x28724BA8 = .ok (.vxor 3 (x 7) (v 9) (v 11) 5 .n32) ∧
    decSyl 0 8 0x2C724BA4 = .ok (.vshl 3 (x 7) (v 9) (v 11) 5 .i32) ∧
    decSyl 0 8 0x30724BB4 = .ok (.vshr 3 (x 7) (v 9) (v 11) 5 .i16) ∧
    decSyl 0 8 0x0C724BA3 = .ok (.vfma 3 7 (v 9) (v 11) 5 .f32 3) ∧
    decSyl 0 8 0x8248A980 = .ok (.vaddi 3 .qo .qa 5 .i32 128) ∧
    decSyl 0 8 0x8A48A97F = .ok (.vmuli 3 .qo .qa 5 .i32 127) ∧
    decSyl 0 8 0xAFF8ED0F = .ok (.vshli 3 .none .qb 5 .i16 15) ∧
    decSyl 0 8 0xB3F8ED0F = .ok (.vshri 3 .none .qb 5 .i16 15) ∧
    decSyl 0 8 0x19E821A1 = .ok (.vcmp 3 3 .uo .la .lb 5 .f32 true) ∧
    decSyl 0 8 0x34726654 = .ok (.vcvt 3 (x 7) (v 9) 0x26 false 2 5 0) ∧
    decSyl 0 8 0x387240A0 = .ok (.vrcp 3 (x 7) (v 9) 5) ∧
    decSyl 0 8 0x3C7240A0 = .ok (.vrsq 3 (x 7) (v 9) 5) :=
  ⟨rfl, rfl, rfl, rfl, rfl, rfl, rfl, rfl, rfl, rfl, rfl, rfl, rfl, rfl, rfl, rfl, rfl, rfl, rfl, rfl⟩

theorem test_fields_v1 :
    decSyl 0 8 0x407240A0 = .ok (.vexp2 3 (x 7) (v 9) 5) ∧
    decSyl 0 8 0x447240A0 = .ok (.vlog2 3 (x 7) (v 9) 5) ∧
    decSyl 0 8 0x49C240A0 = .ok (.vwel 3 7 (v 9) 5) ∧
    decSyl 0 8 0x4DC300A0 = .ok (.vwmg 3 7 3 5) ∧
    decSyl 0 8 0x507240AA = .ok (.vred 3 (x 7) (v 9) 5 .n32 .max) ∧
    decSyl 0 8 0x54724BA0 = .ok (.vperm 3 (x 7) (v 9) (v 11) 5) ∧
    decSyl 0 8 0x58724FA0 = .ok (.vbcst 3 (x 7) (v 9) 15 5) ∧
    decSyl 0 8 0x5C7000A5 = .ok (.viota 3 (x 7) 5 .i32 true) ∧
    decSyl 0 8 0x61B042A0 = .ok (.vpset 3 3 .andn 1 2 5) :=
  ⟨rfl, rfl, rfl, rfl, rfl, rfl, rfl, rfl, rfl⟩

theorem test_fields_vm :
    decSyl 0 16 0x00762EFF = .ok (.vld 3 (x 7) 6 (r 11) 5 (-1)) ∧
    decSyl 0 16 0x06262E81 = .ok (.vst 3 .qa 6 (r 11) 5 1) ∧
    decSyl 0 16 0x087626C0 = .ok (.vgth 3 (x 7) 6 (v 9) 5 2) ∧
    decSyl 0 16 0x0C8626A0 = .ok (.vsct 3 (v 8) 6 (v 9) 5 1) ∧
    decSyl 0 16 0x1077F500 = .ok (.xcp 3 (x 7) 31 6 5) ∧
    decSyl 0 16 0x14727C00 = .ok (.vmovs 3 (.inn 7 (r 9)) 15) ∧
    decSyl 0 16 0x16027E00 = .ok (.vmovs 3 (.outReg .la 9) 15) ∧
    decSyl 0 16 0x160FBE00 = .ok (.vmovs 3 (.outFo .la) 15) ∧
    decSyl 0 16 0x18762E81 = .ok (.vtld 3 (x 7) 6 (r 11) 5 1) ∧
    decSyl 0 16 0x1C962E81 = .ok (.vtst 3 (v 9) 6 (r 11) 5 1) :=
  ⟨rfl, rfl, rfl, rfl, rfl, rfl, rfl, rfl, rfl, rfl⟩

theorem test_fields_xtcq :
    decSyl 0 21 0x035FAFA0 = .ok (.wpush 6 191 95 0x20) ∧
    decSyl 0 21 0x075FDFC4 = .ok (.apush 6 191 191 true 4) ∧
    decSyl 0 21 0x0B5FDF84 = .ok (.acc 6 191 191 false 4) ∧
    decSyl 0 21 0x0F5FDF01 = .ok (.drain 6 191 190 true) ∧
    decSyl 0 21 0x10000000 = .ok (.wswap) ∧
    decSyl 0 21 0x14000005 = .ok (.mclr 5) ∧
    decSyl 0 22 0x035FA961 = .ok (.trw 6 191 5 (r 11) true) ∧
    decSyl 0 22 0x075FE960 = .ok (.tldr 6 191 13 (r 11)) ∧
    decSyl 0 22 0x0B5FE960 = .ok (.tstr 6 191 13 (r 11)) ∧
    decSyl 0 23 0x034BA000 = .ok (.scw 13 (r 11) 160 false) ∧
    decSyl 0 23 0x074B0001 = .ok (.sca 13 (r 11) 0 true) ∧
    decSyl 0 24 0x03D7F802 = .ok (.qrf 3 6 191 192 true false) ∧
    decSyl 0 24 0x07C0A0E1 = .ok (.qapp 3 6 5 7 true) ∧
    decSyl 0 24 0x08C0A0E4 = .ok (.qrot 6 5 7 true) ∧
    decSyl 0 24 0x0FC0A0E8 = .ok (.qsolv 3 6 5 7 true) ∧
    decSyl 0 24 0x13D2C003 = .ok (.qget 3 13 (r 11) true true) ∧
    decSyl 0 24 0x17D2C000 = .ok (.qput 3 13 (r 11)) ∧
    decSyl 0 24 0x1B000000 = .ok (.qclr 3) :=
  ⟨rfl, rfl, rfl, rfl, rfl, rfl, rfl, rfl, rfl, rfl, rfl, rfl, rfl, rfl, rfl, rfl, rfl, rfl⟩

theorem test_fields_e0 :
    decSyl 0 25 0x02404900 = .ok (.eset 9 1 (r 9)) ∧
    decSyl 0 25 0x04748080 = .ok (.eget (d 7) 9 1) ∧
    decSyl 0 25 0x08712587 = .ok (.cpy (d 7) (r 9) (r 11) true 3) ∧
    decSyl 0 25 0x0C700009 = .ok (.cdrn (d 7) 9) ∧
    decSyl 0 25 0x10712000 = .ok (.tierStart (d 7) (r 9)) ∧
    decSyl 0 25 0x10712581 = .ok (.tierAck (d 7) (r 9) (r 11)) ∧
    decSyl 0 25 0x10712582 = .ok (.tierPoll (d 7) (r 9) (r 11)) ∧
    decSyl 0 25 0x10712003 = .ok (.tierStop (d 7) (r 9)) ∧
    decSyl 0 25 0x14712580 = .ok (.kvlk (d 7) (r 9) (r 11)) ∧
    decSyl 0 25 0x18712581 = .ok (.kvap (d 7) (r 9) (r 11) true) ∧
    decSyl 0 25 0x1C712580 = .ok (.kvfk (d 7) (r 9) (r 11)) ∧
    decSyl 0 25 0x20712000 = .ok (.kvrl (d 7) (r 9)) ∧
    decSyl 0 25 0x24712000 = .ok (.kvjnOpen (d 7) (r 9)) ∧
    decSyl 0 25 0x24712001 = .ok (.kvjnCommit (d 7) (r 9)) ∧
    decSyl 0 25 0x24712002 = .ok (.kvjnReject (d 7) (r 9)) ∧
    decSyl 0 25 0x28712580 = .ok (.topk (d 7) (r 9) (r 11)) ∧
    decSyl 0 25 0x2C712580 = .ok (.gthrWalk (d 7) (r 9) (r 11)) ∧
    decSyl 0 25 0x2C712581 = .ok (.gthrPlan (d 7) (r 9) (r 11)) ∧
    decSyl 0 25 0x2C712582 = .ok (.gthrList (d 7) (r 9) (r 11)) ∧
    decSyl 0 25 0x30712580 = .ok (.nsnd (d 7) (r 9) (r 11)) :=
  ⟨rfl, rfl, rfl, rfl, rfl, rfl, rfl, rfl, rfl, rfl, rfl, rfl, rfl, rfl, rfl, rfl, rfl, rfl, rfl, rfl⟩

theorem test_fields_e1 :
    decSyl 0 25 0x34712580 = .ok (.nrcv (d 7) (r 9) (r 11)) ∧
    decSyl 0 25 0x38712580 = .ok (.collSum (d 7) (r 9) (r 11)) ∧
    decSyl 0 25 0x38712581 = .ok (.collMax (d 7) (r 9) (r 11)) ∧
    decSyl 0 25 0x38712582 = .ok (.collGather (d 7) (r 9) (r 11)) ∧
    decSyl 0 25 0x38712583 = .ok (.collScatter (d 7) (r 9) (r 11)) ∧
    decSyl 0 25 0x38712584 = .ok (.collBcast (d 7) (r 9) (r 11)) ∧
    decSyl 0 25 0x38712585 = .ok (.collBarrier (d 7) (r 9) (r 11)) ∧
    decSyl 0 25 0x3C71200D = .ok (.btake (d 7) (r 9) 13) :=
  ⟨rfl, rfl, rfl, rfl, rfl, rfl, rfl, rfl⟩

/-! ### Words that no slot reads -/

/-- Unused opcodes of every class raise its cause (R69). -/
theorem test_unused_opcodes : decSyl 0 0 0x7C000000 = .error 0x00 ∧ decSyl 0 2 0x18000000 = .error 0x01 ∧ decSyl 0 3 0x0C000000 = .error 0x02 ∧
    decSyl 0 5 0x64000000 = .error 0x03 ∧ decSyl 0 13 0x20000000 = .error 0x04 ∧ decSyl 0 21 0x18000000 = .error 0x05 ∧
    decSyl 0 22 0x0C000000 = .error 0x06 ∧ decSyl 0 23 0x08000000 = .error 0x07 ∧ decSyl 0 24 0x1C000000 = .error 0x08 ∧
    decSyl 0 25 0x40000000 = .error 0x09 := ⟨rfl, rfl, rfl, rfl, rfl, rfl, rfl, rfl, rfl, rfl⟩

/-- A reserved bit is FLD_RSVD, source code 63 SRC_ILL, destination code 56 DST_ILL, vector code 36 as a source VOP_ILL (R65, R66, R68). -/
theorem test_bad_fields : decSyl 0 0 0x0060A281 = .error 0x14 ∧ decSyl 0 0 (0x3F * 0x2000) = .error 0x11 ∧
    decSyl 0 0 (56 * 0x100000) = .error 0x12 ∧ decSyl 0 5 (36 * 0x4000) = .error 0x13 := ⟨rfl, rfl, rfl, rfl⟩

/-- MOVI a5, 0x7F800 has no word that reads so: IMM19 is signed (R83). -/
theorem test_movi_limit : decSyl 0 0 0x5857F800 = .ok (.movi .s0 (d 5) 0x7F800) ∧ (0x7F800 : BitVec 19).signExtend 64 = (-2048 : Word) :=
  ⟨rfl, by decide⟩

/-! ### Terms that are not well formed -/

theorem wf_shift : (Instr.shli .s0 (d 1) (r 1) 64).wf = false ∧ (Instr.shri .s0 (d 1) (r 1) (-1)).wf = false ∧
    (Instr.srai .s1 (d 1) (r 1) 64).wf = false := ⟨rfl, rfl, rfl⟩

theorem wf_bits : (Instr.bfx .s0 (d 1) (r 1) 1 0).wf = false ∧ (Instr.bfi .s0 (.reg 1) (r 1) 63 2).wf = false ∧
    (Instr.bfi .s0 (.reg 1) (r 1) 0 0).wf = true := ⟨rfl, rfl, rfl⟩

theorem wf_control : (Instr.getc .s0 (d 1) 0xFFF).wf = false ∧ (Instr.setc .s0 (r 1) 0x000).wf = false ∧
    (Instr.setc .s0 (r 1) 0xFFF).wf = false ∧ (Instr.loop 0 1).wf = false := ⟨rfl, rfl, rfl, rfl⟩

theorem wf_lanes : (Instr.vadd 0 (x 1) (v 1) (v 1) 0 .f32 true).wf = false ∧ (Instr.vsub 0 (x 1) (v 1) (v 1) 0 .bf16 true).wf = false ∧
    (Instr.vmul 0 (x 1) (v 1) (v 1) 0 .f16 .hi).wf = false ∧ (Instr.vfma 0 1 (v 1) (v 1) 0 .i32 0).wf = false ∧
    (Instr.vcmp 0 1 .eq (v 1) (v 1) 0 .i16 false).wf = false ∧ (Instr.vcmp 0 1 .uo (v 1) (v 1) 0 .i32 false).wf = false ∧
    (Instr.vshl 0 (x 1) (v 1) (v 1) 0 .f32).wf = false ∧ (Instr.vshr 0 (x 1) (v 1) (v 1) 0 .f16).wf = false ∧
    (Instr.vshli 0 (x 1) (v 1) 0 .i16 16).wf = false ∧ (Instr.vshri 0 (x 1) (v 1) 0 .f32 1).wf = false ∧
    (Instr.vred 0 (x 1) (v 1) 0 .i16 .add).wf = false ∧ (Instr.viota 0 (x 1) 0 .f32 false).wf = false := by decide

theorem wf_convert : (Instr.vcvt 0 (x 1) (v 1) 0x22 true 0 0 0).wf = false ∧ (Instr.vcvt 0 (x 1) (v 1) 0x26 true 0 0 1).wf = false ∧
    (Instr.vcvt 0 .qo (v 1) 0x20 false 0 0 0).wf = false ∧ (Instr.vcvt 0 (x 1) (v 1) 0x20 true 1 0 0).wf = false := ⟨rfl, rfl, rfl, rfl⟩

theorem wf_predicates : (Instr.vpset 0 1 .not 1 1 0).wf = false ∧ (Instr.vpset 0 1 .first 1 1 0).wf = false ∧
    (Instr.vpset 0 1 .set 1 0 0).wf = false ∧ (Instr.vpset 0 1 .clear 0 1 0).wf = false := ⟨rfl, rfl, rfl, rfl⟩

theorem wf_array : (Instr.wpush 0 192 0 4).wf = false ∧ (Instr.wpush 0 0 96 0x20).wf = false ∧ (Instr.apush 0 0 192 false 4).wf = false ∧
    (Instr.acc 0 0 0 false 0x22).wf = false ∧ (Instr.drain 0 0 192 false).wf = false ∧ (Instr.mclr 0).wf = false ∧
    (Instr.trw 0 192 0 (r 1) false).wf = false ∧ (Instr.tldr 0 192 0 (r 1)).wf = false ∧ (Instr.tstr 0 255 0 (r 1)).wf = false ∧
    (Instr.scw 0 (r 1) 32 true).wf = false ∧ (Instr.sca 0 (r 1) 33 false).wf = false ∧ (Instr.scw 0 (r 1) 192 false).wf = false := by decide

theorem wf_rotator : (Instr.qrf 0 0 192 1 false false).wf = false ∧ (Instr.qapp 0 0 0 0 false).wf = false ∧
    (Instr.qrot 0 0 193 false).wf = false ∧ (Instr.qsolv 0 0 0 0 false).wf = false ∧ (Instr.qget 0 0 (r 1) true false).wf = false := by decide

theorem wf_engines : (Instr.eset 15 0 (r 1)).wf = false ∧ (Instr.eget (d 1) 15 0).wf = false ∧ (Instr.cdrn (d 1) 0).wf = false :=
  ⟨rfl, rfl, rfl⟩

/-! ### States for the witnesses -/

/-- An extent of 4 KiB at the start of the scratchpad that may be read and written. -/
def e0 : Ext := { v := true, len := 64, rd := true, w := true }

/-- A seat with a word in `fi`, extents e2 (open), e4 (tier 2), e5 (revoked) and e6 (demand), both claims, and an object. -/
def t0 : Seat :=
  { st := .ready, fi := [⟨false, 5⟩], a := [(3, 64)], hasA := true, hasQ := true, objs := [(1, ⟨0, 2, 8⟩), (2, ⟨0, 3, 8⟩)],
    ext := [(2, e0), (4, { e0 with tier := 2 }), (5, { e0 with rv := true }), (6, { e0 with dm := true })] }

/-- A core that runs that seat: t1 has 2 rows of 64 words, t2 2 rows of 64 bytes, t3 96 rows of 96 half words. -/
def k0 : Core :=
  { cur := some 0, seats := [(0, t0)], tg := [(1, 0x24002), (2, 0x04002), (3, 0x16060)], tag0 := 4, tags := [⟨0, 7, 1⟩] }

/-- A package with that core alone. -/
def s0 : State := { State.reset with cores := [(0, k0)] }

/-- That package with the seat changed. -/
def onT (f : Seat → Seat) : State := { State.reset with cores := [(0, { k0 with seats := [(0, f t0)] })] }

/-- That package with the core changed. -/
def onK (f : Core → Core) : State := { State.reset with cores := [(0, f k0)] }

theorem readable_reg (s : State) (n : Fin 56) : Readable s [.reg n] := fun h => absurd h (by simp [anyFi, isFi])

/-! ### Witnesses: for each statement with hypotheses, a state and operands that meet them -/

theorem witness_WordsOfSyllablesAreReadBack : (Instr.fence true 4).wf = true ∧ slotOf (.fence true 4) = some 2 ∧
    encode (.fence true 4) = some 0x3000000C ∧ (Instr.bfx .s1 .fo .fi 63 1).wf = true := by decide

theorem witness_AWordHasOneReading : 25 < 26 ∧ decSyl 1 25 0x08812504 = .ok (.cpy (d 8) (r 9) (r 10) true 0) := ⟨by decide, rfl⟩

theorem witness_StepsKeepManagementSpaceInOrder : regsSorted State.reset ∧ (∃ t, step State.reset = .next t) ∧
    regsSorted (setMreg State.reset .hbmhot 1) ∧ setMreg State.reset .hbmhot 1 ≠ State.reset :=
  ⟨List.Pairwise.nil, ⟨_, rfl⟩, by decide, by decide⟩

theorem witness_StepsKeepTheStoresInForm : storesWf State.reset ∧ (∃ t, step State.reset = .next t) := by
  refine ⟨⟨fun i => ?_, fun i h => by cases h⟩, ⟨_, rfl⟩⟩
  match i with
  | 0 | 1 | 2 | 3 | 4 | 5 => rfl
  | n + 6 => rfl

/-- A store with a byte in tier 3 is in form too. -/
def s3 : State := { State.reset with t3 := [(5, 7)] }

/-- A write to the byte behind it. -/
def wr3 : BufWr :=
  { buf := 0, tier := 3, addr := 5, bytes := [9], owner := none, launch := none, hidden := false, pin := none, resv := 0, path := 0 }

theorem memoryWf_s3 : memoryWf s3 := fun i =>
  match i with
  | 0 | 1 | 2 | 3 | 4 | 5 => rfl
  | _ + 6 => rfl

theorem witness_EveryInstructionCompletes : State.reset.bad = none ∧ (∃ f, ({ State.reset with bad := some f } : State).bad = some f) ∧
    (∀ i ∈ [2, 3, 4, 5], 2 ≤ i ∧ i ≤ 5) ∧ (wr3.tier = 3 ∧ wr3.addr = 5) :=
  ⟨rfl, ⟨.noSuchAddress 2 0, rfl⟩, by decide, by decide⟩

theorem witness_WhatIsWrittenIsReadBack : twf 0 t0.a = true ∧ twf 0 ([(9, 3)] : Tbl (BitVec 16)) = true ∧ regsSorted s0 ∧
    regKey (.qcfg 1) ≠ regKey (.qcfg 0) ∧ memoryWf s3 ∧ Memory.wf k0.spad = true ∧ 55 ≠ 0 :=
  ⟨by decide, by decide, List.Pairwise.nil, by decide, memoryWf_s3, rfl, by decide⟩

theorem witness_ScalarResults : Readable s0 [.fi, r 3] ∧ Readable s0 [r 3, .fi, .latch 5] ∧ Readable s0 [.fi] ∧
    (63 : BitVec 13).toNat ≤ 63 := ⟨fun _ => ⟨_, _, rfl, rfl⟩, fun _ => ⟨_, _, rfl, rfl⟩, fun _ => ⟨_, _, rfl, rfl⟩, by decide⟩

theorem witness_ConstantsAreBuilt : (5 : BitVec 19).toNat % 128 = (0x40005 : BitVec 19).toNat % 128 := by decide

theorem witness_BitFieldsAreMoved : Readable s0 [.fi] ∧ (63 : BitVec 6).toNat + 1 ≤ 64 ∧ (0 : BitVec 6).toNat + 64 ≤ 64 ∧
    ¬ (1 : BitVec 6).toNat + 64 ≤ 64 := ⟨fun _ => ⟨_, _, rfl, rfl⟩, by decide, by decide, by decide⟩

theorem witness_ProductsAndQuotients : Readable s0 [.fi, r 0] ∧ Readable s0 [.fi] :=
  ⟨fun _ => ⟨_, _, rfl, rfl⟩, fun _ => ⟨_, _, rfl, rfl⟩⟩

theorem witness_ControlRegistersWaitsAndHalts : ctlDefined 0x000 = true ∧ (ctlDefined 0x027 = true ∧ ctlWritable 0x027 = true) ∧
    (ctlDefined 0x040 = true ∧ ctlWritable 0x040 = true) ∧ Readable s0 [.fi] ∧
    (cs s0).hasA = true ∧ (cs (onT fun t => { t with hasA := false })).hasA = false ∧ tgLegal 0xC1 = false ∧
    Accessible s0 2 true false 8 0 8 ∧ Accessible s0 2 true false 8 4088 8 ∧ Readable s0 [r 3, .fi] ∧
    0 ≤ bits (cs s0).dmem 34 32 ∧ bits (cs s0).dmem 34 32 < 1 :=
  ⟨by decide, by decide, by decide, fun _ => ⟨_, _, rfl, rfl⟩, rfl, rfl, by decide, ⟨by decide, by decide⟩, ⟨by decide, by decide⟩,
   fun _ => ⟨_, _, rfl, rfl⟩, by decide, by decide⟩

theorem witness_BranchesGoToTheirTarget : Readable s0 [.fi] ∧ Readable s0 [.fi, r 55] ∧ (55 : Fin 56).val ≠ 0 ∧
    (coreAt s0 0).cur = some 0 ∧ (seatOf (coreAt s0 0) 0).causes = [] ∧ (coreAt s0 0).grp.halt = none ∧ (coreAt s0 0).grp.yield = none :=
  ⟨fun _ => ⟨_, _, rfl, rfl⟩, fun _ => ⟨_, _, rfl, rfl⟩, by decide, rfl, rfl, rfl, rfl⟩

theorem witness_LoadsAndStores : Readable s0 [.fi] ∧ Readable s0 [r 3, .fi] ∧ Accessible s0 2 true false 1 4095 1 ∧
    Accessible s0 2 true false 8 4088 8 ∧ Accessible s0 2 false true 8 64 8 ∧ extCheck (extOf (cs s0) 2) [0] true false 8 4096 8 = some 0x41 ∧
    extCheck (extOf (cs s0) 3) [0] false true 1 0 1 = some 0x40 :=
  ⟨fun _ => ⟨_, _, rfl, rfl⟩, fun _ => ⟨_, _, rfl, rfl⟩, ⟨by decide, by decide⟩, ⟨by decide, by decide⟩, ⟨by decide, by decide⟩,
   by decide, by decide⟩

/-- A descriptor for each line of Table 5-1, at the boundary of the last two. -/
theorem witness_ExtentChecks : ({} : Ext).v = false ∧ (e0.v = true ∧ e0.tier ∉ [1, 2]) ∧
    (let x := { e0 with rv := true }; x.v = true ∧ x.tier ∈ [0] ∧ x.rv = true) ∧
    (let x := { e0 with dm := true }; x.v = true ∧ x.tier ∈ [0] ∧ x.rv = false ∧ x.dm = true) ∧
    (let x := { e0 with rd := false }; x.v = true ∧ x.tier ∈ [0] ∧ x.rv = false ∧ x.dm = false ∧ x.rd = false) ∧
    (let x := { e0 with w := false }; x.rd = true ∧ x.w = false) ∧ 4089 % 8 ≠ 0 ∧ (4096 % 8 = 0 ∧ e0.len * 64 < 4096 + 8) ∧
    4088 % 8 = 0 ∧ 4088 + 8 ≤ e0.len * 64 := by decide

/-- The package whose scratchpad has an error in byte 9. -/
def sUe : State := onK fun k => { k with spadUe := [9] }

/-- What the statements of failed accesses assume: a check that fails (an absent extent, and an end past the extent), and one that passes with an
error in what it reads. -/
theorem witness_FailedAccesses : (∀ rd w : Bool, rd || w → ∀ n ∈ [1, 2, 4, 8, 64, 256], extCheck (extOf (cs s0) (3 : BitVec 4).toNat) [0] rd w n 0 n = some 0x40 ∧
      extCheck (extOf (cs s0) (2 : BitVec 4).toNat) [0] rd w n 4096 n = some 0x41 ∧
      extCheck (extOf (cs s0) (2 : BitVec 4).toNat) [1, 2, 3, 4, 5] rd w n 0 n = some 0x44) ∧
    (∀ n ∈ [2, 4, 8, 64], let o := if n = 64 then 0 else 8
      extCheck (extOf (cs sUe) (2 : BitVec 4).toNat) [0] true false n o n = none ∧
      extCheck (extOf (cs sUe) (2 : BitVec 4).toNat) [0] true true n o n = none ∧ spadErr (cc sUe) 0 (placesOf sUe 2 o n) = some (9 - o)) := by
  decide +kernel

theorem witness_Atomics : Readable s0 [.fi, r 3] ∧ Accessible s0 2 true true 8 4088 8 :=
  ⟨fun _ => ⟨_, _, rfl, rfl⟩, by decide, by decide⟩

theorem witness_TagsBarriersAndBindings : Readable s0 [.fi] ∧ Readable s0 [.fi, r 3] ∧
    (∃ t ∈ (cc s0).tags, t.tenant = taskTenant (cs s0).task ∧ t.key = 7) ∧
    ((∀ t ∈ (cc s0).tags, ¬ (t.tenant = taskTenant (cs s0).task ∧ t.key = 8)) ∧ (cc s0).tags.length < 256) ∧
    (∀ t ∈ List.replicate 256 (⟨0, 7, 1⟩ : TagEnt), ¬ (t.tenant = 0 ∧ t.key = 8)) ∧
    ((extOf (cs s0) 3).v = false ∧ (extOf (cs s0) 5).rv = true ∧ (extOf (cs s0) 6).dm = true ∧ (extOf (cs s0) 2).v = true) ∧
    (64 ∣ 64 ∧ ¬ 64 ∣ 65 ∧ (extOf (cs s0) 2).len * 64 < 64 + 4096 ∧ 64 + 64 ≤ (extOf (cs s0) 2).len * 64) ∧
    (⟨2, 64, 64, 1⟩ : Bind) ∉ (cs s0).binds ∧ (cs s0).binds.length < 16 ∧
    (let l := (List.range 16).map fun o => (⟨2, 0, 64, o⟩ : Bind); (⟨2, 64, 64, 1⟩ : Bind) ∉ l ∧ 16 ≤ l.length ∧ (⟨2, 0, 64, 1⟩ : Bind) ∈ l) ∧
    (let o : Barrier := ⟨2, 2⟩; o.expect ≤ o.count ∧ o.count < 2 ^ 40) ∧ (let o : Barrier := ⟨2, 1⟩; o.count < o.expect) :=
  ⟨fun _ => ⟨_, _, rfl, rfl⟩, fun _ => ⟨_, _, rfl, rfl⟩, by decide, by decide, by decide +kernel, by decide, by decide, by decide, by decide,
   by decide +kernel, by decide, by decide⟩

theorem witness_AcquiresRemoteRequestsAndPins : Readable s0 [.fi] ∧ Readable s0 [r 3, .fi] ∧ tfind (cs s0).objs 0 = none ∧
    (tfind (cs s0).objs 1 = some ⟨0, 2, 8⟩ ∧ extCheck (extOf (cs s0) 2) [0, 1, 2, 3, 4, 5] true false 8 8 8 = none ∧
      extCheck (extOf (cs s0) 2) [0, 1, 2, 3, 4, 5] true true 8 8 8 = none) ∧
    (tfind (cs s0).objs 2 = some ⟨0, 3, 8⟩ ∧ extCheck (extOf (cs s0) 3) [0, 1, 2, 3, 4, 5] false true 8 8 8 = some 0x40) ∧
    extCheck (extOf (cs s0) 4) [1, 2, 3, 4, 5] true false 8 4088 8 = none ∧ extCheck (extOf (cs s0) 4) [1, 2, 3, 4, 5] false true 1 4095 1 = none ∧
    extCheck (extOf (cs s0) 4) [1, 2, 3] true true 4 4092 4 = none :=
  ⟨fun _ => ⟨_, _, rfl, rfl⟩, fun _ => ⟨_, _, rfl, rfl⟩, by decide, by decide, by decide, by decide, by decide, by decide⟩

theorem witness_ElementsOfALane : (Ty.i32.isFloat = false ∧ Ty.n16.isFloat = false) ∧
    -- 1, −∞, 0, a NaN and the greatest number of binary16 and BF16; ∞ × 0, NaNs, ∞ and finite elements of VFMA; both orders of VMIN
    (∀ t ∈ [(Ty.f16, 0x3C00, 0xFC00, 0x7E01, 0x7BFF), (Ty.bf16, 0x3F80, 0xFF80, 0x7F81, 0x7F7F), (Ty.f32, 0x3F800000, 0xFF800000, 0x7F800001, 0x7F7FFFFF)],
      t.1.isFloat = true ∧ t.2.1 < 2 ^ t.1.bits ∧ t.2.2.1 < 2 ^ t.1.bits ∧ t.2.2.2.1 < 2 ^ t.1.bits ∧
      elemVal t.1 t.2.2.1 = .inf true ∧ (elemVal t.1 0).isZero = true ∧ (elemVal t.1 t.2.2.2.1).isNan = true ∧
      (elemVal t.1 t.2.1).isInf = false ∧ (elemVal t.1 t.2.1).isNan = false ∧ (elemVal t.1 t.2.2.2.2).isInf = false ∧
      (elemVal t.1 t.2.1).isZero = false) ∧
    (fvBelow (.inf true) (.inf false) ∧ ¬ fvBelow (.inf false) (.inf true)) ∧ Ty.f32.is32 = true ∧
    (Ty.f16.is32 = false ∧ (addElem false .f16 (0x3C003C00 % 2 ^ 16) (0x3C003C00 % 2 ^ 16)).1 < 2 ^ 16) := by
  refine ⟨?_, ?_, ⟨⟨rfl, fun h => by cases h⟩, fun h => by cases h.1⟩, ?_, ?_⟩ <;> decide +kernel

theorem witness_SelectsPredicatesAndConversions : cvtBytes 0x26 = 4 ∧ (cvtBytes 0x20 ≠ 4 ∧ cvtBytes 0x20 * (16 * 1 + 16) ≤ 64) ∧
    (VDst.reg 7 = .reg 7) := by decide

/-- The codes, lanes and elements of the same statement: a NaN, ∞, a normal and a subnormal code of each kind of format; what is narrowed and
widened; the inputs of the approximations and of the steps of VWEL and VWMG. -/
theorem witness_CodesAndRoundings :
    (∀ t ∈ [(Ty.f16, 0x7C00), (Ty.bf16, 0x7F80), (Ty.f32, 0x7F800000)], let f := elemFmt t.1
      let e := fun n => n / 2 ^ (f.p - 1) % (f.emax + 2)
      t.1.isFloat = true ∧ t.2 < 2 ^ t.1.bits ∧ e t.2 = f.emax + 1 ∧ (0 < e (2 ^ (f.p - 1)) ∧ e (2 ^ (f.p - 1)) ≤ f.emax) ∧ e 1 = 0) ∧
    (∀ f ∈ [(0x04 : BitVec 6), 0x0C, 0x14, 0x1C], isBinary8 f = true ∧ b8Uns f = decide (f = 0x14 ∨ f = 0x1C) ∧
      b8Ext f = decide (f = 0x0C ∨ f = 0x1C)) ∧
    ((val32 0x7F800001).isNan = true ∧ val32 0xFF800000 = .inf true ∧ val32 0x7F800000 = .inf false ∧ (val32 0x3F800000).isNan = false ∧
      (val32 0x3F800000).isInf = false ∧ (val32 0x3F800000).isZero = false ∧ (val32 0x80000000).isZero = true ∧ (val32 0xBF800000).neg? = true ∧
      fvRat (val32 0x3F800000) = (1 : Int) ∧ fvRat (val32 0x3F800000) = 2 ^ (0 : Int)) ∧
    (∀ f ∈ [(0x24 : BitVec 6), 0x25, 0x26, 0x2C, 0x2D, 0x2E], f.toNat ∈ [0x24, 0x25, 0x26, 0x2C, 0x2D, 0x2E] ∧ 5 < 2 ^ (8 * cvtBytes f)) ∧
    ((val32 (add32 one32 0xBF800000).1).isZero = true ∧ (val32 (add32 one32 one32).1).isZero = false) := by
  refine ⟨?_, ?_, ?_, ?_, ?_⟩ <;> decide +kernel

theorem witness_VectorMemoryAndMoves : Readable s0 [.fi] ∧ Accessible s0 2 true false 64 4032 64 ∧ Accessible s0 2 false true 64 0 64 ∧
    ((List.range 16).filter fun i => (activeAt s0 0 0).getLsbD i) = List.range 16 ∧
    (∀ i ∈ List.range 16, extCheck (extOf (cs s0) 2) [0] true false 4 (lane (vsrcAt s0 0 (.reg 0)) i).toNat 4 = none ∧
      spadErr (cc s0) 0 (spadPlaces (extOf (cs s0) 2) (lane (vsrcAt s0 0 (.reg 0)) i).toNat 4) = none) ∧
    extCheck (extOf (cs s0) 3) [0] false true 4 0 4 = some 0x40 ∧ (∀ h ∈ List.range 16, h < 0 → False) :=
  ⟨fun _ => ⟨_, _, rfl, rfl⟩, ⟨by decide, by decide +kernel⟩, ⟨by decide, by decide⟩, by decide, by decide +kernel, by decide, by decide⟩

/-- What the statements of failed checks assume of gathers, tiles and the rotator: a lane whose check fails and one that meets an error; no claim; no
shape; a wrong width or mode; a place, a row, a column or a tile's end past what there is. -/
theorem witness_ChecksOfTheArray :
    (0 ∈ (List.range 16).filter (fun i => (activeAt s0 0 0).getLsbD i) ∧ (∀ h ∈ List.range 16, ¬ h < 0) ∧
      extCheck (extOf (cs s0) 3) [0] true false 4 (lane (vsrcAt s0 0 (.reg 0)) 0).toNat 4 = some 0x40 ∧
      (let s := onK fun k => { k with spadUe := [0] }
       extCheck (extOf (cs s) 2) [0] true false 4 (lane (vsrcAt s 0 (.reg 0)) 0).toNat 4 = none ∧
        spadErr (cc s) 0 (spadPlaces (extOf (cs s) 2) (lane (vsrcAt s 0 (.reg 0)) 0).toNat 4) ≠ none)) ∧
    ((cs (onT fun t => { t with hasA := false, hasQ := false })).hasA = false ∧ (cs (onT fun t => { t with hasA := false, hasQ := false })).hasQ = false ∧
      (cs s0).hasA = true ∧ (cs s0).hasQ = true ∧ tgShape (tget 0 (cc s0).tg (0 : Fin 8).val) = none) ∧
    (tgShape (tget 0 (cc s0).tg (1 : Fin 8).val) = some (2, 64, 4) ∧ ¬ 64 ∣ 65 ∧ (64 ∣ 512 ∧ 2 * 64 * 4 ≤ 512) ∧
      4 ≠ (if (4 : BitVec 6) = 0x20 then 2 else 1) ∧ 2 ≤ (2 : BitVec 8).toNat ∧ 2 < (0 : BitVec 8).toNat + (3 : BitVec 8).toNat ∧
      64 ≤ (srcAt (onT fun t => { t with a := [(3, 64)] }) (r 3)).toNat) ∧
    (tgShape (tget 0 (cc s0).tg (2 : Fin 8).val) = some (2, 64, 1) ∧ (1 : Nat) ≠ 4 ∧ (1 : Nat) = (if (4 : BitVec 6) = 0x20 then 2 else 1) ∧
      2 ≤ (2 : BitVec 8).toNat ∧ (cc s0).tag0 ≠ 0 ∧ ((cc s0).tag0 = 0x20 ↔ (4 : BitVec 6) = 0x20) ∧ ¬ ((cc s0).tag0 = 0x20 ↔ (0x20 : BitVec 6) = 0x20)) ∧
    (tgShape 0x21002 = some (2, 16, 4) ∧ 16 < 32) := by
  refine ⟨?_, ?_, ?_, ?_, ?_⟩ <;> decide +kernel

theorem witness_TilesPlanesAndScales : Readable s0 [.fi] ∧ (cs s0).hasA = true ∧ tgShape (tget 0 (cc s0).tg 1) = some (2, 64, 4) ∧
    (64 ∣ 448 ∧ 448 < 2 * 64 * 4) ∧ tgShape (tget 0 (cc s0).tg 2) = some (2, 64, if (4 : BitVec 6) = 0x20 then 2 else 1) ∧
    tgShape (tget 0 (cc s0).tg 3) = some (96, 96, if (0x20 : BitVec 6) = 0x20 then 2 else 1) ∧ (1 : BitVec 8).toNat < 2 ∧
    Accessible s0 2 true false 64 4032 64 ∧ Accessible s0 2 true false 2 4094 2 :=
  ⟨fun _ => ⟨_, _, rfl, rfl⟩, rfl, by decide, by decide, by decide, by decide, by decide, ⟨by decide, by decide⟩, ⟨by decide, by decide⟩⟩

/-- Core 1, the partner of core 0, with its array claimed and a plane of the same format. -/
def s01 : State := { State.reset with cores := [(0, { k0 with seats := [(0, { t0 with dmem := 0x300000000 })] }),
  (1, { k0 with seats := [(0, { t0 with dmem := 0x300000000 })] })] }

theorem witness_BeatsAndRows : (cs s0).hasA = true ∧ tgShape (tget 0 (cc s0).tg 2) = some (2, 64, if (4 : BitVec 6) = 0x20 then 2 else 1) ∧
    (1 : BitVec 8).toNat < 2 ∧ (cc s0).tag0 ≠ 0 ∧ ((cc s0).tag0 = 0x20 ↔ (4 : BitVec 6) = 0x20) ∧ pairReady s0 (cs s0) 4 = false ∧
    pairReady s01 (cs s01) 4 = true ∧ tgShape (tget 0 (cc s0).tg 1) = some (2, 64, 4) ∧ tgShape (tget 0 (cc s0).tg 3) = some (96, 96, 2) ∧
    Readable s0 [.fi] ∧ Accessible s0 2 true false 16 3840 (64 * 4) ∧ Accessible s0 2 false true 16 0 (64 * 4) ∧ (srcAt s0 (r 0)).toNat < 2 :=
  ⟨rfl, by decide, by decide, by decide, by decide, by decide, by decide, by decide, by decide, fun _ => ⟨_, _, rfl, rfl⟩,
   ⟨by decide, by decide +kernel⟩, ⟨by decide, by decide⟩, by decide⟩

theorem witness_AColumnIsAChainOfRoundedSums : ([.zero, .zero] : List FV).length = ([.zero, .zero] : List FV).length := rfl

theorem witness_TheRotator : (cs s0).hasQ = true ∧ tgShape (tget 0 (cc s0).tg 1) = some (2, 64, 4) ∧
    (0 : BitVec 8).toNat + (2 : BitVec 8).toNat ≤ 2 ∧ 64 ≤ 64 ∧ Readable s0 [.fi] ∧
    extCheck (extOf (cs s0) 2) [0] true false 64 0 2240 = none ∧ extCheck (extOf (cs s0) 2) [0] false true 64 1856 2240 = none ∧
    (cc s0).spadUe = [] := ⟨rfl, by decide, by decide, by decide, fun _ => ⟨_, _, rfl, rfl⟩, by decide, by decide, rfl⟩

/-- The staging registers of a seat that engine commands find in order: ch0, the tier port, KV, top-k, gather, network and collective. -/
def stgs : Tbl Word :=
  [(0, 0x220000000000), (1, 64), (2, 1), (512, 3), (513, 0x20000000000), (514, 1), (515, 0x010101), (516, 0x000100010001), (640, 2), (642, 64),
   (768, 0x10022), (896, 0x22), (897, 0), (899, 0x40000), (1024, 2), (1152, 0x222200), (1153, 1)]

/-- A package whose seat has them, with a page format, a collective group of this package alone, and gather queue 0. -/
def s1 : State :=
  setMreg (setMreg (setMreg (setMreg (onT fun t => { t with stg := stgs }) (.kvpfmt 0) 0x100000) (.collgrp 0) 0x8000000000000000)
    (.gqcfg 0) (0x8000000000000000 + 2 * 2 ^ 39)) (.gqarea 0) (2 * 2 ^ 61 + 4 * 2 ^ 52)

theorem witness_StagingAndStatusWords : Readable s0 [.fi] ∧ (127 : BitVec 8).toNat < 128 := ⟨fun _ => ⟨_, _, rfl, rfl⟩, by decide⟩

/-- That package with stream 3 running. -/
def s2 : State := { s1 with streams := [(3, { st := 1, n := 2 })] }

theorem witness_CopiesAndStreamsAtIssue : Readable s1 [.fi, r 3] ∧ cpyCheck (cpyOf s1 0 false 0 64) = none ∧
    cpyCheck (cpyOf s0 0 false 0 64) = some Cause.engGeom ∧ tierCheck s1 = none ∧ tierCheck s0 = some Cause.engGeom ∧
    streamOpen s1 3 = false ∧ streamOpen s2 3 = true ∧ (strAt s2 3).n ≤ 2 ∧ 1 < (strAt s2 3).n ∧ (strAt s2 3).st = 1 :=
  ⟨fun _ => ⟨_, _, rfl, rfl⟩, by decide, by decide, by decide, by decide, by decide, by decide, by decide, by decide, by decide⟩

theorem witness_EngineCommandsAreQueued : Readable s1 [.fi, r 3] ∧
    (1 ≤ 1 ∧ 1 ≤ 65536 ∧ engCheck (kextOf (cs s1)) [0] true false 4 4092 (4 * 1) = none ∧ resCheck (resOf (cs s1) 5) = none) ∧
    (¬ (1 ≤ 0 ∧ 0 ≤ 65536) ∧ ¬ (1 ≤ 65537 ∧ 65537 ≤ 65536)) ∧
    (let k := (stgOf (cs s1) 5 2).toNat; 64 ≤ k ∧ k ≤ 16384 ∧ 64 ∣ k ∧ engCheck (kextOf (cs s1)) [0] true false 64 4032 k = none) ∧
    (let k := (stgOf (cs s0) 5 2).toNat; ¬ (64 ≤ k ∧ k ≤ 16384 ∧ 64 ∣ k)) ∧
    (let g := stgOf (cs s1) 6
     let k := bits (g 0) 24 16
     1 ≤ k ∧ k ≤ 1 ∧ k ≤ 256 ∧ 1 ≤ 65536 ∧ engCheck (extOf (cs s1) (bits (g 0) 3 0)) [0, 1, 2, 3, 4, 5] true false 4 0 (4 * 1) = none ∧
     engCheck (extOf (cs s1) (bits (g 0) 7 4)) [0, 1, 2, 3, 4, 5] false true 8 (g 1).toNat (8 * k) = none ∧ resCheck (resOf (cs s1) 6) = none) ∧
    (let q := stgOf (cs s1) 7
     let len := bits (q 3) 31 16
     4 ∣ len ∧ 1 ≤ len ∧ bits (q 3) 15 0 + len ≤ (kvFmtOf s1 (handleDie (q 1))).ktok ∧ bits (q 3) 15 0 + len ≤ (kvFmtOf s1 0).ktok ∧
     resCheck (resOf (cs s1) 7) = none ∧ engCheck (extOf (cs s1) (bits (q 0) 3 0)) [0, 1, 2, 3, 4, 5] true false 8 0 (8 * 1) = none ∧
     engCheck (extOf (cs s1) (bits (q 0) 7 4)) [0, 1, 2, 3, 4, 5] false true 1 (q 5).toNat (32 * len * 1) = none ∧
     engCheck (extOf (cs s1) (bits (q 0) 3 0)) [0, 1, 2, 3, 4, 5] false true 16 (q 4).toNat (16 * 1) = none ∧
     engCheck (extOf (cs s1) (bits (q 0) 3 0)) [0, 1, 2, 3, 4, 5] true false 16 0 (16 * 1) = none) :=
  ⟨fun _ => ⟨_, _, rfl, rfl⟩, by decide, by decide, by decide, by decide, by decide, by decide +kernel⟩

/-- The refusals of the same statement: numbers out of range, an absent extent, and a result record with one (R190). -/
theorem witness_EngineCommandsAreRefused :
    (∀ eng ∈ [5, 6, 7], resCheck (resOf (cs (onT fun t => { t with stg := [(128 * eng + 127, 2 ^ 63 + 3 * 2 ^ 40)] })) eng) = some 0x40) ∧
    firstFail [failIf (decide (0 = 0) || decide (65536 < 0)) Cause.engGeom, engCheck (kextOf (cs s0)) [0] true false 4 0 (4 * 0), none] =
      some Cause.engGeom ∧
    firstFail [failIf (decide (1 = 0) || decide (65536 < 1)) Cause.engGeom, engCheck (kextOf (cs s0)) [0] true false 4 0 (4 * 1), none] = some 0x40 ∧
    (let g := stgOf (cs s0) 6
     firstFail ([failIf (decide (bits (g 0) 24 16 = 0)) Cause.engGeom] ++ [resCheck (resOf (cs s0) 6)]) = some Cause.engGeom) ∧
    (let len := bits (stgOf (cs s0) 7 3) 31 16
     firstFail ([failIf (decide (1 = 0) || decide (256 < 1) || decide (len = 0)) Cause.engGeom] ++ [resCheck (resOf (cs s0) 7)]) = some Cause.engGeom) := by
  refine ⟨?_, ?_, ?_, ?_, ?_⟩ <;> decide +kernel

theorem witness_NetworkAndCollectiveCommands : Readable s1 [.fi, r 3] ∧ Readable s1 [.fi] ∧
    (1 ≤ 64 ∧ 64 ≤ 64 ∧ engCheck (extOf (cs s1) (bits (stgOf (cs s1) 8 0) 3 0)) [0, 2, 3] true false 64 0 (64 * 64) = none) ∧
    ¬ (1 ≤ 65 ∧ 65 ≤ 64) ∧ 64 ≤ netSlots s1 (taskTenant (cs s1).task) true ∧
    netSlots (setMreg (setMreg s1 .netcfg 0) (.ntq 0) 0) (taskTenant (cs s1).task) false ≤ 4096 ∧
    (let cfg := stgOf (cs s1) 9 0
     collElt (bits cfg 13 8) ≠ 0 ∧ 1 ≤ (stgOf (cs s1) 9 1).toNat ∧ (stgOf (cs s1) 9 1).toNat ≤ 2 ^ 32 ∧
     engCheck (extOf (cs s1) (bits cfg 19 16)) [0, 2, 3] true false 1 0 4 = none ∧ engCheck (extOf (cs s1) (bits cfg 23 20)) [0, 2, 3] false true 1 64 4 = none ∧
     resCheck (resOf (cs s1) 9) = none ∧ bits cfg 31 24 < collSize s1 (bits cfg 7 0) ∧ collRank s1 (bits cfg 7 0) ≠ none) ∧
    collElt (bits (stgOf (cs s0) 9 0) 13 8) = 0 ∧ collRank s0 0 = none := 
  ⟨fun _ => ⟨_, _, rfl, rfl⟩, fun _ => ⟨_, _, rfl, rfl⟩, by decide, by decide, by decide +kernel, by decide +kernel, by decide +kernel, by decide, by decide +kernel⟩

/-- Gather queue 0 with a batch that closed at GTS 5, at GTS 5 and at GTS 6; and with the tenant's slots for NSND used up. -/
def s5 (g : Nat) : State := { s1 with gq := [(0, { closed := [(3, 5)] })], gts := g }

theorem witness_BatchesAreTaken :
    (¬ (16 ≤ 15 ∧ gqTenant s1 16 = taskTenant (cs s1).task)) ∧ (0 ≤ 15 ∧ gqTenant s1 0 = taskTenant (cs s1).task) ∧
    (let e := extOf (cs s1) 4; e.v = true ∧ e.tier = gqTier s1 0 ∧ e.base = gqBase s1 0 ∧ gqAreaLen s1 0 ≤ 64 * e.len) ∧
    (extOf (cs s1) 2).tier ≠ gqTier s1 0 ∧ (gqAt s1 0).closed = [] ∧ (gqAt (s5 5) 0).closed = (3, 5) :: [] ∧ (s5 5).gts ≤ 5 ∧ 5 < (s5 6).gts ∧
    netSlots (setMreg s1 (.ntq 0) 0x0000001000001000) 0 true < 1 := by decide +kernel

/-! ### The cycle of a core -/

/-- Core 0 about to issue from a code image of some words at the start of tier 5, the core changed. -/
def coded (ws : List Nat) (f : Core → Core) : State :=
  { State.reset with
    t5 := cellsPut 0 ((ws.map (natBytes 4)).flatten) []
    dieEn := 15
    cores := [(0, f { cur := some 0, seats := [(0, { t0 with codeLen := 4 * ws.length, run := 4096, fi := [] })] })] }

/-- ADD a6, a5, a5 in a bundle of its own (spec, R69's example). -/
def addWords : List Nat := [0x04000001, 0x0060A280]

/-- The same as the first bundle of a pair with LOOP a4 as the second. -/
def pairWords (h1 h2 : Nat) : List Nat := [h1, 0x0060A280, h2, 0x14400000]

theorem witness_AStepRunsTheDecodedInstruction :
    (let s := State.reset.withFetchWord 32 0x5850000F
     s.bad = none ∧ s.turn = [.issueGroup 0] ∧ viewOf { s with turn := [] } 0 =
       .go 0 ⟨0, 8, 0, none, [(0, 0, 0, .movi .s0 (d 5) 15)]⟩) ∧ Instr.paceHalve ≠ .issueGroup 0 := by decide +kernel

/-- The other kinds of step: of the inputs whose cycle has come, a rise of the harts' before the boot and after it; of the turn; of a core that has
nothing to issue; and one with nothing left to do. -/
theorem witness_StepsOfEveryKind :
    (let s := { State.reset with agenda := [(0, .paceHalve)] }
     s.bad = none ∧ s.turn = [] ∧ takeDue s.cyc s.agenda = some (.paceHalve, []) ∧ takeDue State.reset.cyc State.reset.agenda = none) ∧
    (hartAct (.mgmtRegisterWrite (.qcfg 0) 0) = true ∧ booted State.reset = false ∧ booted { State.reset with boot := .run 0 } = true ∧
      hartAct .paceHalve = false) ∧
    ∀ n g, viewOf State.reset (0 : Fin 384).val ≠ .go n g := by
  refine ⟨?_, ?_, fun n g h => ?_⟩
  · decide +kernel
  · decide +kernel
  · have e : viewOf State.reset (0 : Fin 384).val = .idle := rfl
    rw [e] at h; cases h

theorem witness_AGroupIsWhatItsWordsDecodeTo :
    let f := fun ws => let s := coded ws id; fetchGroup s 0 (seatOf (coreAt s 0) 0) 0
    let b := fun ws o => let s := coded ws id; fetchBun s 0 (seatOf (coreAt s 0) 0) o
    f addWords = .ok ⟨0, 8, 0, none, [(0, 0, 0, .add .s0 (d 6) (r 5) (r 5))]⟩ ∧
    f (pairWords 1 0x04000004) = .ok ⟨0, 16, 0, none, [(0, 0, 0, .add .s0 (d 6) (r 5) (r 5)), (8, 0, 2, .loop 4 0)]⟩ ∧
    (b (pairWords 1 4) 0 = .ok ⟨0, ⟨0, 0, false, false, 1⟩, [(0, 0x0060A280)], none, 8⟩ ∧
      b (pairWords 1 4) 8 = .ok ⟨8, ⟨0, 0, false, false, 4⟩, [(2, 0x14400000)], none, 8⟩) ∧
    (f (pairWords 1 0x00000004) = .error [0x0C] ∧ f (pairWords 1 0x14000004) = .error [0x0F] ∧ f (pairWords 0x40000001 0x04000004) = .error [0x0E]) ∧
    f [0x08000001, 0x0060A280, 0, 0x04000004, 0x14400000] = .error [0x0D] ∧ f [1, 0x0060A280, 0x04000001, 0x0060A280] = .error [0x0B] :=
  ⟨rfl, rfl, ⟨rfl, rfl⟩, ⟨rfl, rfl, rfl⟩, rfl, rfl⟩

theorem witness_ACycleIssuesOrFreezes :
    viewOf (coded addWords id) 0 = .go 0 ⟨0, 8, 0, none, [(0, 0, 0, .add .s0 (d 6) (r 5) (r 5))]⟩ ∧
    viewOf (coded addWords fun k => { k with hold := 1 }) 0 = .hold ∧ alsoGoverned (coded addWords fun k => { k with hold := 1 }) 0 = false ∧
    alsoGoverned (setMreg (coded addWords fun k => { k with hold := 1, win := [0, 9] }) (.pwl 0) 1) 0 = true ∧
    viewOf (coded addWords fun k => { k with waits := [.fence true 0] }) 0 = .waiting ∧
    viewOf (coded [0x04000001, 0x0067C000] fun k => putSeat k 0 { seatOf k 0 with fiRes := [⟨1, false, none⟩] }) 0 = .frozen 0 0 ∧
    viewOf (setMreg (coded addWords fun k => { k with win := [0, 9] }) (.pwl 0) 1) 0 = .governed ∧
    viewOf (coded addWords fun k => { k with gap := 1 }) 0 = .gap false := by decide +kernel

/-- An effect that is due. -/
def due (l : Land) : Eff := { due := 0, seat := 0, sw := 0, grp := 0, slot := 0, land := l, flags := 0, en := 0, info1 := 0 }

theorem witness_AResultLands : (let k := coreAt (onK fun k => { k with effs := [{ due (.sca 5 0 7) with flags := 1 }, due (.sca 5 1 8)] }) 0
      (∀ e ∈ k.effs, e.due ≤ k.ct → e.traps = false) ∧ ({ due (.sca 5 0 7) with flags := 1 } : Eff) ∈ k.effs ∧ isStore (.sca 5 0 7) = false) ∧
    (coreAt (onK fun k => { k with effs := [due (.sca 55 0 7)] }) 0).effs = [due (.sca 55 0 7)] ∧
    (due (.sca 62 6 7)).due ≤ (coreAt s0 0).ct ∧ (due (.sca 0 0 7)).flags = 0 ∧ (due (.ctl 0x41 1)).dead = false ∧
    (isStore (due (.sca 62 6 7)).land = false ∧ isStore (due (.ctl 0x40 7)).land = false ∧ isStore (due (.vec 0 31 1 0 false)).land = false ∧
      isStore (due (.pred 0 0 1 1)).land = false ∧ isStore (due (.carry true 1)).land = false ∧ isStore (due (.stg 1 1)).land = false ∧
      isStore (due .wswap).land = false) ∧ (isStore (.ctl 0x27 7) = false ∧ isStore (.fo [⟨1, true, 7, 0⟩]) = false ∧
      isStore (.vec 0 1000 1 0 false) = false ∧ isStore (.vbytes 0 1 1 0 none true) = false ∧ isStore (.triple 0 4 1 0 0 0 0) = false ∧
      isStore (.wrow 1 [7] 4) = false ∧ isStore (.scales true 32 [7]) = false ∧ isStore (.mclr 3) = false ∧ isStore (.dreg 1 [7]) = false ∧
      isStore (.tile 1 [(0, 7)]) = false) ∧ (55 < 56 ∧ 5 < 6 ∧ 31 < 32 ∧ 7 < 8) ∧ (due .wswap).sw = (coreAt s0 0).sw := by decide

/-- The same effect with an enabled flag. -/
def trapping : Eff := { due (.sca 5 0 7) with flags := 1, en := 1 }

/-- The kinds of results that raise flags: of lanes, predicates, triples, parts of registers, rows of tiles, stores, d registers, rows of the rotator
and beats. -/
def flagged : List Land :=
  [.vec 0 3 0xFFFF 7 false, .vec 0 1000 0xFFFF 7 false, .pred 0 1 0xFFFF 1, .triple 0 4 0xFFFF 0 0 0 0, .vbytes 0 3 1 7 none false, .tile 1 [(0, 7)],
    .store [(1, 2)], .dreg 1 [7], .angle, .beat 0 true [7]]

/-- Two results of one seat that trap in one cycle. -/
def trapping2 : Eff := { trapping with slot := 6, land := .vec 0 3 0xFFFF 7 false }

theorem witness_AnEnabledFlagTraps :
    (∀ l ∈ flagged, ∀ w : Bool, let e := { trapping with land := l }
      let k := coreAt (onK fun k => { k with effs := [e], waits := if w then [.claim true true] else [] }) 0
      k.effs = [e] ∧ e.due ≤ k.ct ∧ e.traps = true ∧ (seatOf k e.seat).causes = [] ∧ (seatOf k e.seat).retire = none ∧
        (seatOf k e.seat).st = .ready ∧ inFreeze k e.seat = w) ∧
    (let k := coreAt (onK fun k => { k with effs := [trapping2, trapping] }) 0
     pendingTraps k 0 = [trapping, trapping2] ∧ trapping.due ≤ k.ct ∧ (seatOf k 0).causes = [] ∧ (seatOf k 0).st = .ready ∧ inFreeze k 0 = false) ∧
    (let e := { due (.beat 0 true []) with en := 63, flags := 1 }
     let x := { e with seat := 4, sw := 0 }
     let s := { State.reset with cores := [(0, { k0 with effs := [e] }), (1, { k0 with effs := [x] })] }
     (coreAt s 0).effs = [e] ∧ e.due ≤ (coreAt s 0).ct ∧ e.dead = false ∧ e.seat < 4 ∧ (coreAt s (partnerOf 0)).effs = [x] ∧ x.seat = 4 + e.seat ∧
      x.sw = e.due ∧ x.dead = false ∧ (e.flags ||| beatFlags (coreAt s 0) e) &&& e.en ≠ 0 ∧
      (e.flags ||| beatFlags (coreAt s 0) e ||| beatFlags (coreAt s 1) x) &&& e.en ≠ 0 ∧
      (coreAt (onK fun k => { k with effs := [e] }) (partnerOf 0)).effs = []) ∧
    (let s := onK fun k => { putSeat k 0 { t0 with causes := [⟨1, 0x20, 0, 0, 0, 0⟩] } with waits := [.claim true true] }
     (coreAt s 0).cur = some 0 ∧ (coreAt s 0).hold = 0 ∧ (coreAt s 0).waits = [.claim true true] ∧ arrayBusy s 0 0 = false ∧
      rotBusy (coreAt s 0) 0 = false ∧ (seatOf (coreAt s 0) 0).causes ≠ []) := by
  refine ⟨?_, ?_, ?_, ?_⟩ <;> decide +kernel

/-- A sequenced QRF of two rows, and one that has read its row. -/
def seq0 : Seqr := { op := 0, dr := 0, tile := 1, row0 := 0, rows := 2, opt := 0, next := 0, due := 0, row := none, seat := 0, grp := 0, en := 0,
                     run := true }

theorem witness_StoresBeatsAndRotatorRowsLand :
    (let k := coreAt (onK fun k => { k with effs := [due (.store [(1, 2)]), due (.store [(1, 3)])] }) 0
     (∀ e ∈ k.effs, commitNow k e = true) ∧ ∀ e ∈ k.effs, ∃ bs, e.land = .store bs) ∧
    (let k := coreAt (onK fun k => { k with effs := [due (.beat 0 true (List.replicate 192 0)), due (.sca 1 0 7)] }) 0
     (∀ e ∈ k.effs, e.en = 0 ∧ e.dead = false) ∧ isBeat (due (.beat 0 true (List.replicate 192 0))) = true ∧
      ∀ r acc cs, (due (.beat 0 true (List.replicate 192 0))).land = .beat r acc cs → cs.length = 192) ∧
    (seq0.row = none ∧ seq0.due ≤ k0.ct ∧ k0.effs = []) ∧
    ((due (.store [(1, 2), (1, 3)])).flags = 0 ∧ (due (.store [(1, 2), (1, 3)])).dead = false ∧
      [((1 : Nat), (2 : Byte)), (1, 3)] = [(1, 2)] ++ (1, 3) :: [] ∧ ∀ q : Byte, ((1 : Nat), q) ∉ ([] : List (Nat × Byte))) ∧
    ([0, 1, 2, 3, 4, 5, 6, 7].Nodup ∧ [0, 1, 2, 3, 4, 5, 6, 7].length = 8) ∧
    (let e := due (.beat 191 true (List.replicate 192 0)); e.en = 0 ∧ e.seat < 4 ∧ (List.replicate 192 (0 : W32)).length = 192) ∧
    (coreAt (onK fun k => { k with effs := [due .wswap] }) (partnerOf 0)).effs = [] ∧
    (coreAt (onK fun k => { k with seqr := some seq0 }) 0).seqr = some seq0 ∧ seq0.due ≤ k0.ct ∧ seq0.row = none ∧ seq0.run = true ∧
    (let q := { seq0 with row := some (List.replicate 64 0) }; q.row = some (List.replicate 64 0) ∧ q.en = 0 ∧
      (seqStep k0 q (List.replicate 64 0)).2.2 = false ∧ q.next + 1 < q.rows ∧ seq0.rows ≤ { q with next := 1 }.next + 1) :=
  ⟨⟨by decide, fun e h => by rcases List.mem_cons.1 h with rfl | h
                             · exact ⟨_, rfl⟩
                             · rw [List.mem_singleton.1 h]; exact ⟨_, rfl⟩⟩,
   ⟨by decide, rfl, fun _ _ _ h => by cases h; rfl⟩, by decide, ⟨rfl, rfl, rfl, fun _ h => by cases h⟩, by decide, ⟨rfl, by decide, List.length_replicate⟩, rfl, rfl, by decide, rfl, rfl,
   ⟨rfl, rfl, rfl, by decide, by decide⟩⟩

/-- An atomic that is due; rows of the rotator that trap: an enabled flag (1 and 2 in a row whose word rounds), and a word with N = 26; and the last
row of one whose place has gone. -/
theorem witness_AtomicsAndTrapsOfTheRotator :
    ((due (.atomic [0, 1, 2, 3, 4, 5, 6, 7] 0 5 0 7 63)).land = .atomic [0, 1, 2, 3, 4, 5, 6, 7] 0 5 0 7 63 ∧
      (due (.atomic [0, 1, 2, 3, 4, 5, 6, 7] 0 5 0 7 63)).due ≤ (coreAt s0 0).ct) ∧
    (let row : List W32 := [0x3F800000, 0x40000000] ++ List.replicate 62 0
     let q := { seq0 with row := some row, en := 63 }
     q.row = some row ∧ q.due ≤ k0.ct ∧ (seqStep k0 q row).2.2 = false ∧ (seqStep k0 q row).2.1 &&& q.en ≠ 0) ∧
    (let row : List W32 := List.replicate 32 0 ++ 26 :: List.replicate 31 0
     let q := { seq0 with op := 1, row := some row }
     (seqStep k0 q row).2.2 = true ∧ ({ q with drop := true } : Seqr).drop = true) ∧
    (k0.ct < ({ seq0 with due := 1 } : Seqr).due ∧ k0.seqr = none) := by
  refine ⟨?_, ?_, ?_, ?_⟩ <;> decide +kernel

theorem witness_TakingAStop : pendingTraps (coreAt s0 0) 0 = [] ∧ (seatOf (coreAt s0 0) 0).retire = none ∧
    (⟨1, 0x20, 0, 0, 0, 0⟩ : PCause).rank < (⟨2, 0x40, 3, 0, 0, 0⟩ : PCause).rank := by decide

theorem witness_EncodingRunAndFreezeStops : pendingTraps (coreAt (coded addWords id) 0) 0 = [] ∧
    (seatOf (coreAt (coded addWords id) 0) 0).retire = none ∧ viewOf (coded [0x24000001, 0] id) 0 = .encoding 0 [0x0A] ∧
    viewOf (coded addWords fun k => putSeat k 0 { seatOf k 0 with run := 0, fresh := false }) 0 = .overrun 0 ∧
    (let s := coded [0x04000001, 0x0067C000] fun k =>
       { putSeat k 0 { seatOf k 0 with fiRes := [⟨1, false, none⟩] } with frz := 2 ^ 20, frzWhy := 0 }
     (coreAt s 0).cur = some 0 ∧ 2 ^ 20 ≤ (coreAt s 0).frz ∧ (coreAt s 0).frzWhy ≠ 15 ∧ viewOf s 0 = .frozen 0 0) ∧
    (let s := coded addWords fun k => { k with waits := [.fence true 0], frz := 2 ^ 20, frzWhy := waitsCode [.fence true 0] }
     2 ^ 20 ≤ (coreAt s 0).frz ∧ (coreAt s 0).frzWhy ≠ 15 ∧ viewOf s 0 = .waiting ∧ waitsCode (coreAt s 0).waits = (coreAt s 0).frzWhy ∧
     (seatOf (coreAt s 0) 0).causes = []) ∧
    (let s := coded addWords fun k => { putSeat k 0 { seatOf k 0 with run := 0, fresh := false } with gap := 1 }
     viewOf s 0 = .gap true ∧ (coreAt s 0).cur = some 0) := by decide +kernel

/-- A task of queue 1, launch 2, in seat 0, ready, parked at a word or at a step. -/
def qTask : Word := taskWord 0 1 2

/-- A launch in its queue whose tasks are running. -/
def l2 : Launch := { newLaunch 2 [] with checked := true, released := true, disp := 1 }

/-- A package with that launch and its task. -/
def sq (f : Seat → Seat) (g : Core → Core) : State :=
  { State.reset with queues := [(1, { st := 1, launches := [l2] })], cores := [(0, g { seats := [(0, f { st := .ready, task := qTask })] })] }

/-- The rest of the same statement: a core that stays idle for the cycle; a step one of whose two members has not arrived; and the signal of a launch of
three tasks that can be rolled back, its first having ended. -/
theorem witness_IdleCoresStepsAndHeldSignals :
    (let k := coreAt (sq id fun k => { k with idle := true }) 0; k.hold = 0 ∧ k.waits = [] ∧ k.idle = true) ∧
    (let s := sq (fun t => { t with st := .parked, wait := some (.step 1 0) }) fun k => putSeat k 1 { st := .ready, task := qTask }
     (seatAt s 0 0).wait = some (.step 1 0) ∧ ∃ m ∈ stepMembers s 0 (seatAt s 0 0) 1, m.2.2.wait = none) ∧
    (let l := { l2 with cap := true, comp := 1, recd := [pack [(1, 63), (3, 32), (3, 0)], 0, 0, 64, 0, 0, 0, 0] }
     lrSig l ≠ 0 ∧ l.cap = true ∧ l.comp + 1 < lrNtask l ∧ (queueAt (sq id id) 1).st ≠ 2) := by decide +kernel

theorem witness_SeatsAreChosenWaitAndRetire :
    (let k := coreAt (sq id id) 0
     k.hold = 0 ∧ k.waits = [] ∧ k.cur = none ∧ k.idle = false ∧ k.last < 4 ∧ 0 < 4 ∧ (seatOf k 0).st = .ready ∧ (seatOf k 0).retire = none) ∧
    (let k := coreAt State.reset 0; k.cur = none ∧ k.last < 4 ∧ (seatOf k 0).st ≠ .ready ∧ (seatOf k 3).st ≠ .ready) ∧
    ((coreAt s0 0).cur.isSome = true ∧ (coreAt s0 0).choose = false) ∧
    (∀ l ∈ [0, 4], let s := sq (fun t => { t with st := .parked, wait := some (.step l 0) }) id
      let x := seatAt s 0 0
      x.wait = some (.step l 0) ∧ stepMembers s 0 x l = [(0, 0, x)] ∧ memberAway s x = false ∧
        stepVisible s 0 0 0 (if l = 0 then 0 else if l ≤ 3 then 1 else 2) = true ∧ beatOut s 0 0 0 = false ∧ atStep l x = true) ∧
    (let s := onK fun k => { k with waits := [.claim true true] }
     (coreAt s 0).cur = some 0 ∧ (coreAt s 0).hold = 0 ∧ (coreAt s 0).waits = [] ++ .claim true true :: [] ∧ (seatOf (coreAt s 0) 0).retire = none ∧
      (let s := onK fun k => { putSeat k 0 { t0 with retire := some ⟨7, 0, false, false, []⟩ } with waits := [.claim true true] }
       (seatOf (coreAt s 0) 0).causes = [] ∧ (seatOf (coreAt s 0) 0).retire.isSome = true ∧ arrayBusy s 0 0 = false) ∧ (seatOf (coreAt s 0) 0).causes = [] ∧
      arrayBusy s 0 0 = false ∧ rotBusy (coreAt s 0) 0 = false) ∧
    (let s := onK fun k => { k with waits := [.fence true 0, .cdrn 1 5 5 0 [(0, 1)]], ch := [(0, { acc := 1, comp := 1 })] }
     (coreAt s 0).cur = some 0 ∧ (coreAt s 0).waits = [.fence true 0] ++ .cdrn 1 5 5 0 [(0, 1)] :: [] ∧ drainedTo s 0 [(0, 1)] = true ∧
      (seatOf (coreAt s 0) 0).causes = [] ∧ (seatOf (coreAt s 0) 0).retire = none) ∧
    (let s := sq (fun t => { t with retire := some ⟨7, 0, false, false, []⟩ }) id
     let s1 := cancelStreams s 0 0 (seatAt s 0 0).task
     (seatAt s 0 0).retire = some ⟨7, 0, false, false, []⟩ ∧ landedAll s 0 0 = true ∧ (coreAt s 0).cur ≠ some 0 ∧ drainedTo s1 0 [] = true ∧
      copiesDone s1 0 0 = true ∧ storesAcked s1 0 0 = true ∧ published s1 0 0 = true ∧
      launchAt s (taskQueue (seatAt s 0 0).task) (taskLseq (seatAt s 0 0).task) = some l2) := by decide +kernel

/-- A header of `fo`: RLD through e4 (a peer's scratchpad), RST of a word through it, and a drop of a pin of this package and of package 5. -/
def req (w : Nat) : FoEnt := ⟨1, true, BitVec.ofNat 64 w, 0⟩

/-- A seat with some words in `fo`, e4 being the scratchpad of core 5 of die 1. -/
def withFo (l : List FoEnt) : State :=
  onT fun t => { t with fo := l, ext := [(4, { e0 with tier := 1, base := 1 * 2 ^ 40 + 5 * 2 ^ 33 })] }

/-- A package with no pin allocated has a free entry. -/
theorem freePin_some (s : State) (h : s.pins = []) : (freePin s).1.isSome = true := by
  have hp : ∀ i, pinAt (s) i = {} := fun i => by simp [pinAt, h, tget, tfind]
  have hlt : (drawWord s).1.toNat % 16384 < 16384 := Nat.mod_lt _ (by decide)

  obtain ⟨n, hn⟩ : ∃ n, 16384 - (drawWord s).1.toNat % 16384 = n + 1 := ⟨_, (Nat.succ_pred (by omega)).symm⟩
  unfold freePin
  simp [hn, countUp, hp]

theorem witness_RequestsAndOutcomesOfASeat :
    ((seatAt (onT fun t => { t with fiRes := [⟨1, false, some (some ⟨false, 9⟩)⟩] }) 0 0).fiRes = ⟨1, false, some (some ⟨false, 9⟩)⟩ :: [] ∧
     (seatAt (onT fun t => { t with fiRes := [⟨1, true, some none⟩] }) 0 0).fiRes = ⟨1, true, some none⟩ :: [] ∧
     (seatAt (onT fun t => { t with fiRes := [⟨1, true, none⟩] }) 0 0).fiRes = ⟨1, true, none⟩ :: [] ∧ (seatAt s0 0 0).fiRes = []) ∧
    (let h : Word := 0x3000000000000000
     let s := withFo [req 0x3000000000000000]
     (seatAt s 0 0).fo = req 0x3000000000000000 :: [] ∧ (req 0x3000000000000000).chk = true ∧ reqWords h ≤ (seatAt s 0 0).fo.length ∧
     (seatAt s 0 0).foUntil ≤ s.cyc ∧ bits h 63 60 = 3 ∧ idFree s (coreAt s 0) 0 = true ∧
     bits h 31 22 = chipNo s0 ∧ bits (0x3000000001400000 : Word) 31 22 ≠ chipNo s0) ∧
    leaveOf (onT fun t => { t with foUntil := 5, fo := [req 0x3000000000000000] }) 0 0 = .wait ∧
    (∀ q ∈ [(0, 0), (1, 0), (2, 0), (1, 1)], let kind := q.1
      let h : Word := BitVec.ofNat 64 (kind * 2 ^ 60 + 4 * 2 ^ 56 + 3 * 2 ^ 54 + q.2 * 2 ^ 53)
      let s := withFo [req h.toNat, ⟨0, false, 7, 0⟩]
      let x := seatAt s 0 0
      let y := extOf x (bits h 59 56)
      x.fo = req h.toNat :: [⟨0, false, 7, 0⟩] ∧ (req h.toNat).chk = true ∧ reqWords h ≤ x.fo.length ∧ x.foUntil ≤ s.cyc ∧ bits h 63 60 = kind ∧
      y.rv = false ∧ y.dm = false ∧ y.tier = 1 ∧ y.base / 2 ^ 42 % 1024 = chipNo s ∧ idFree s (coreAt s 0) 0 = true ∧
      (coreAt s 0).sent = [] ∧ bitAt h 53 = decide (q.2 = 1) ∧ s.pins = []) ∧
    ∀ s : State, s.pins = [] → (freePin s).1.isSome = true := by
  refine ⟨by decide +kernel, by decide +kernel, by decide +kernel, by decide +kernel, freePin_some⟩

/-- An error entry at the head of `fi` and syllables that pop it; headers that a task has composed: malformed, refused by an absent extent, in order,
and one for which `fi` has no room. -/
theorem witness_ErrorEntriesAndComposedHeaders :
    (∀ i ∈ [Instr.add .s0 (d 1) .fi .fi, .vmovs 0 (.inn 3 .fi) 1, .btake (d 1) .fi 2, .halt .fi, .st .m1 .fi 2 (r 3) 3 0, .vst 2 .qa 1 .fi 0 0],
      ∃ u, slotOf i = some u ∧ anyFi (srcsOf i) = true) ∧
    (let s := onT fun t => { t with fi := [⟨true, 0x4000000000000000⟩] }; (cs s).fi = ⟨true, 0x4000000000000000⟩ :: [] ∧ ∀ e ∈ (cs s).fi, e.err = true) ∧
    (∀ h ∈ [(0x4000000000000000 : Nat), 0x0000010000000000, 0x0020000000000000, 0x1000400000000000, 0x2000000000000000, 0x03C0000000000000, 0x04C0000000000000,
        0x3000000001400000],
      let e : FoEnt := ⟨0, false, BitVec.ofNat 64 h, 0⟩
      let s := withFo [e, ⟨0, false, 7, 0⟩, ⟨0, false, 7, 0⟩]
      let x := seatAt s 0 0
      let a := extCheck (extOf x (bits e.w 59 56)) [1, 2, 3, 4, 5] true false 8 (bits e.w 39 0) 8
      x.fo = e :: [⟨0, false, 7, 0⟩, ⟨0, false, 7, 0⟩] ∧ e.chk = false ∧ reqWords e.w ≤ x.fo.length ∧ x.foUntil ≤ s.cyc ∧ x.fi.length + x.fiRes.length < 32 ∧
        (∀ z ∈ x.fiRes, z.id ≠ x.resvNext) ∧ (h = 0x03C0000000000000 → bits e.w 55 54 = 3 ∧ a = some 0x40) ∧
        (h = 0x04C0000000000000 → bits e.w 55 54 = 3 ∧ a = none)) ∧
    (let s := onT fun t => { t with fo := [⟨0, false, 0, 0⟩], fi := List.replicate 32 ⟨false, 0⟩ }
     ¬ ((seatAt s 0 0).fi.length + (seatAt s 0 0).fiRes.length < 32)) := by
  refine ⟨fun i h => ?_, ?_, ?_, ?_⟩
  · simp only [List.mem_cons, List.not_mem_nil, or_false] at h
    rcases h with rfl | rfl | rfl | rfl | rfl | rfl <;> exact ⟨_, rfl, rfl⟩
  all_goals decide +kernel

/-! ### Channels and fabric -/

/-- A copy of 16 bytes from offset 0 to offset 1,024 of the scratchpad. -/
def cpy0 : CpyCmd :=
  { seat := 0, task := 0, tco := 0, seq := 3, chained := false, mode := 0, rop := 0, bar := none, fl := false, oob := false, cm := false, clm := 15
    sext := 2, dext := 2, src := e0, dst := e0, a := 0, b := 1024, len := 16, rows := 1, spitch := 16, dpitch := 16, vlen := 16, vrows := 1
    fill := 0, seed := 0, exp := 0, res := none, ord := 0, timed := true, started := true }

/-- A package whose channel 0 has that state. -/
def onCh (x : Chan) : State := onK fun k => { k with ch := [(0, x)] }

/-- Sixteen zero bytes. -/
def z16 : List Byte := List.replicate 16 0

/-- The copy with its bytes read in cycle 0, and that copy complete. -/
def cpyRead : CpyCmd := { cpy0 with rd := 16, pend := [(0, 0, z16)] }
def cpyFull : CpyCmd := { cpy0 with rd := 16, done := [(0, 16, 0)] }

/-- A package that serves every tier: the HBM4 stage in D0, a decoder of the CXL pool for its first 256 MiB with root port 0. -/
def served (s : State) : State := setMreg (setMreg { s with hbmPower := 0 } (.cxldec 1) (2 ^ 28)) (.cxldec 2) 1

/-- A unit whose bytes were read two cycles ago. -/
def onWrite (m : CpyCmd) : State := { onCh { cmds := [m] } with cyc := 2 }

theorem witness_ChannelsMoveBytes :
    (let m := { cpy0 with started := false }
     (chanOf (onCh { cmds := [m] }) 0 0).cmds = m :: [] ∧ m.started = false ∧ m.chained = false) ∧
    (∀ p ∈ [(some (5 : W32), 0), (none, 0)], let m := { cpy0 with started := false, chained := true }
     let x := chanOf (onCh { cmds := [m], pred := [(0, p)] }) 0 0
     x.cmds = m :: [] ∧ tfind x.pred m.seat = some p) ∧
    (let s := onCh { cmds := [cpy0] }
     mayRead s 0 0 cpy0 = true ∧ bitAt (mreg s (.cinj 0)) 63 = false ∧ (readUnit s 0 0 cpy0).2 = .got [(0, z16)] [] 16) ∧
    (let s := onCh { cmds := [cpy0] }
     let r := nextSpan cpy0
     cpy0.len ≠ 0 ∧ cpy0.src.rv = false ∧ cpy0.src.dm = false ∧ cpy0.src.tier = 0 ∧ r.1 ≠ [] ∧ chanFree s 0 0 (srcPlaces cpy0 r.1) = true ∧
      spadErr (coreAt s 0) 0 (srcPlaces cpy0 r.1) = none ∧ (coreAt s 0).prior = [] ∧
      -- and with columns and rows to fill
      (nextSpan { cpy0 with len := 8, rows := 4, vlen := 5, vrows := 3, oob := true, fill := 0xAABBCCDD, spitch := 5 }).2.1 ≠ []) ∧
    (let s := onWrite cpyRead
     cpyRead.mode = 0 ∧ cpyRead.bar = none ∧ (chanOf s 0 0).cmds = [cpyRead] ∧ writable s 0 0 = [(cpyRead, (0, 0, z16))] ∧ cpyRead.code = 0 ∧
      extFree cpyRead.dst = true ∧ (chanOf s 0 0).slog = [] ∧ 0 + 2 ≤ s.cyc ∧
      chanFree s 0 0 (dstPlaces cpyRead (rowPieces cpyRead 65 0 z16)) = true) ∧
    (let u : LogUnit := ⟨0, 3, 0, z16, false⟩
     let s := onCh { cmds := [cpyRead], slog := [u] }
     let x := chanOf s 0 0
     replayable x = some (0, u, cpyRead) ∧ chanFree s 0 0 (dstPlaces cpyRead ((logGroup x cpyRead u).map fun v => (v.pos, v.bytes))) = true) ∧
    (let s := onCh { cmds := [cpyFull] }
     cpyDone s 0 0 cpyFull = true ∧ cpyFull.cm = false ∧ cpyFull.res = none ∧ s.engBad = [] ∧ chanFree s 0 0 (resPlaces cpyFull.res) = true) ∧
    (∀ mode ∈ [0, 1, 2, 3], ∀ bar ∈ [none, some 3], let m := { cpyRead with mode := mode, bar := bar }
     let s := onWrite m
     let x := chanOf s 0 0
     let ps := spadPlaces m.dst (cpyDst m 0) z16.length
     x.cmds = [m] ∧ writable s 0 0 = [(m, (0, 0, z16))] ∧ m.code = 0 ∧ extFree m.dst = true ∧ x.slog = [] ∧ m.acks = [] ∧ z16 ≠ [] ∧
      rowPieces m 65 0 z16 = [(0, z16)] ∧ m.dst.tier = 0 ∧ 0 + 2 ≤ s.cyc ∧ unitTurn x m 0 = true ∧ chanFree s 0 0 ps = true ∧
      spadErr (coreAt s 0) 0 ps = none ∧ (seatAt s 0 m.seat).task = m.task) ∧
    (∀ t ∈ [2, 3, 4, 5], let m := { cpyRead with dst := { e0 with tier := t } }
     let s := served (onWrite m)
     let a := m.dst.base + cpyDst m 0
     (chanOf s 0 0).cmds = [m] ∧ writable s 0 0 = [(m, (0, 0, z16))] ∧ m.code = 0 ∧ extFree m.dst = true ∧ (chanOf s 0 0).slog = [] ∧ m.mode < 3 ∧
      rowPieces m 65 0 z16 = [(0, z16)] ∧ 2 ≤ m.dst.tier ∧ m.dst.tier ≤ 5 ∧ a + z16.length ≤ tierSize m.dst.tier ∧
      accessRefusal s m.dst.tier a z16.length = none ∧ ringValid s m.dst.tier a z16 = false) ∧
    (∀ mode ∈ [4, 5], let m := { cpy0 with mode := mode, len := 64, rd := 64, pend := [(0, 0, List.replicate 64 0)] }
     let s := onCh { cmds := [m] }
     (chanOf s 0 0).cmds = [m] ∧ m.started = true ∧ m.code = 0 ∧ (seatAt s 0 m.seat).task = m.task ∧
      gather 65 m.pend (64 * m.units) 64 = some (0, List.replicate 64 0) ∧ (qaOf (seatAt s 0 m.seat) (streamCluster m m.units)).length < 8 ∧
      (qbOf (seatAt s 0 m.seat) (streamCluster m m.units)).length < 8) ∧
    (let m := { cpy0 with mode := 6, len := 64, dst := e0 }
     let s := onK fun k => putSeat { k with ch := [(0, { cmds := [m] })] } 0 { t0 with qo := [(0, [⟨0, 7, 0xFFFF⟩])] }
     qoOf (seatAt s 0 m.seat) (streamCluster m m.units) = ⟨0, 7, 0xFFFF⟩ :: [] ∧ 64 * m.units < cpyTotal m ∧ extFree m.dst = true ∧
      (chanOf s 0 0).slog = [] ∧ chanFree s 0 0 (spadPlaces m.dst (cpyDst m (64 * m.units)) 64) = true) ∧
    ringValid (setMreg State.reset (.qring 1) (3 * 2 ^ 61)) 3 0 (List.replicate 7 0 ++ [0x80]) = true := by
  refine ⟨?_, ?_, ⟨?_, ?_, rfl⟩, ?_, ?_, ?_, ?_, ?_, ?_, ?_, ?_, ?_⟩ <;> decide +kernel

/-- A message from core 1 to core 0 of this package; the package with it in its network, with a grant entry that admits it. -/
def msg0 (kind unit off : Nat) (bs : List Byte) : Msg := mkMsg State.reset kind 0 0 1 4 9 0 0 0 unit off bs

/-- The flag word's offset in the grant entry is 2,048. -/
def wire (m : Msg) (f : Core → Core) : State :=
  setMreg (setMreg { onK f with net := [m], dieEn := 15 } (.grant 0) (pack [(1, 63), (7, 59), (1, 42), (1, 31)]))
    (.grant 1) (pack [(1, 63), (2048, 23), (2 ^ 20, 0)])

/-- A reduction of the word 5 with operation 0 at offset 64. -/
def red0 : Msg := sealMsg { msg0 2 0 64 [0] with flits := [flit 0 64 [0], flit 1 64 [5, 0, 0, 0]] }

theorem witness_ChannelMessagesArrive :
    (let m := msg0 0 0 64 [1, 2]
     let s := wire m id
     arrived s m = true ∧ m.dunit = 0 ∧ m.dchip = chipNo s ∧ m.dcore < 96 ∧ grantCheck s 0 m 1 (flitRanges m.flits) true = .ok 0 ∧
      -- and in the receive buffer, its banks free or taken
      (let e : RxEnt := ⟨m, 0, msgPieces m⟩
       let k := coreAt (onK fun k => { k with rx := [e] }) 0
       k.rx = [e] ∧ banksFree k (e.left.map piecePlaces).flatten = true ∧
        (e.left.flatMap fun p => ((piecePlaces p).map bankOf).eraseDups).Nodup ∧ e.left ≠ [] ∧
        (let k := { k with served := List.range 32 }; ∀ p ∈ e.left, banksFree k (piecePlaces p) = false)) ∧
      (let q := msg0 7 2 64 (natBytes 8 (2 * 2 ^ 60 + 3 * 2 ^ 54) ++ natBytes 16 1)
       banksFree (coreAt s 0) (reqPlaces q) = true ∧ bits (payWord q 0) 63 60 = 2 ∧ spadErr (coreAt s 0) 0 (reqPlaces q) = none ∧ msgCore q = 0) ∧
      (∀ kind ∈ [0, 1], let q := msg0 (5 + kind) 2 64 (natBytes 8 (kind * 2 ^ 60 + 3 * 2 ^ 54) ++ natBytes 16 1)
       banksFree (coreAt s 0) (reqPlaces q) = true ∧ bits (payWord q 0) 63 60 = kind ∧ spadErr (coreAt s 0) 0 (reqPlaces q) = none ∧ msgCore q = 0)) ∧
    -- a counter of a network record, with its bank free or taken
    (∀ b : Bool, let ps := [0, 1, 2, 3, 4, 5, 6, 7]
     let k := coreAt (onK fun k => { k with adds := [(0, ps)], served := if b then [] else List.range 32 }) 0
     k.rx = [] ∧ k.adds = [(0, ps)] ∧ ps.Nodup ∧ ps.length = 8 ∧ banksFree k ps = b) ∧
    (let s := wire red0 id
     arrived s red0 = true ∧ msgOk red0 = true ∧ cached (coreAt s 0) red0 = none ∧ rxHas (coreAt s 0) red0 = false ∧ rxFlits (coreAt s 0) ≤ 48 ∧
      grantCheck s 0 red0 2 (flitRanges red0.flits.tail) (decide (64 % 4 = 0)) = .ok 0 ∧
      spadErr (coreAt s 0) 0 ((msgPieces red0).map piecePlaces).flatten = none) ∧
    (let m := msg0 1 0 64 (natBytes 16 0)
     let s := wire m fun k => { k with flagEnt := [(srcNo m, 4, 64, 0)] }
     arrived s m = true ∧ msgOk m = true ∧ cached (coreAt s 0) m = none ∧ rxHas (coreAt s 0) m = false ∧ coreDown s 0 = false ∧
      banksFree (coreAt s 0) (flagPlaces s 0 0) = true ∧
      (coreAt s 0).flagEnt.find? (fun e => decide (e.1 = srcNo m) && decide (e.2.1 = m.sag) && decide (e.2.2.1 = 64)) = some (srcNo m, m.sag, 64, 0) ∧
      bits (grantWord s 0 0 1) 44 23 = 2048 ∧ grantFrom (grantWord s 0 0 0) m = true ∧ bits (grantWord s 0 0 0) 58 43 = m.tenant ∧
      bitAt (grantWord s 0 0 1) 63 = true ∧ grantCovers s 0 0 [(2048, 8)] = true ∧ bitAt (grantWord s 0 0 0) 60 = true) ∧
    (let m := msg0 3 0 64 (natBytes 8 4)
     let s := wire m id
     arrived s m = true ∧ msgOk m = true ∧ (payWord m 0).toNat = 4 ∧ grantCheck s 0 m 0 [(64, 4)] true = .ok 0 ∧
      spadErr (coreAt s 0) 0 ((countUp 64 4).map (· % 2 ^ 22)) = none) := by
  refine ⟨?_, ?_, ?_, ?_, ?_⟩ <;> (repeat' apply And.intro) <;> first | decide +kernel | rfl

/-- A request word: kind, no pins, size 2^sz. -/
def reqHead (kind sz : Nat) : List Byte := natBytes 8 (kind * 2 ^ 60 + sz * 2 ^ 54)

/-- What core 0's agent `ag` has sent and not seen answered. -/
def sentBy (ag : Nat) (m : Msg) : Sent :=
  { agent := ag, id := 9, msg := m, refusals := 0, resendAt := none, badPaths := [], path := 0, resv := 1, seat := 0, first := 0, len := 16,
    seq := 3, err := 0 }

/-- An answer to agent `ag` of core 0. -/
def ans (kind ag : Nat) (bs : List Byte) : Msg := sealMsg { msg0 kind 0 0 bs with sag := ag }

/-- The package with an answer in its network and what it answers. -/
def answered (ag : Nat) (a q : Msg) (x : Chan) : State := wire a fun k => { k with sent := [sentBy ag q], ch := [(0, x)] }

/-- The grant entry admits the requests of the next witness. -/
theorem grants_rld_rst :
    (let m := msg0 5 2 64 (reqHead 0 3)
     grantCheck (wire m id) 0 m 0 [(64, 8)] true = .ok 0) ∧
    (let m := msg0 6 2 64 (reqHead 1 3 ++ natBytes 16 7)
     grantCheck (wire m id) 0 m 1 [(64, 8)] true = .ok 0) := ⟨rfl, rfl⟩

theorem witness_RequestsAnswersAndMessages :
    (let m := msg0 5 2 64 (reqHead 0 3)
     let s := wire m id
     arrived s m = true ∧ m.dunit < 16 ∧ m.dchip = chipNo s ∧ m.dcore < 96 ∧ rxFlits (coreAt s 0) < 64 ∧ msgOk m = true ∧
      cached (coreAt s 0) m = none ∧ rxHas (coreAt s 0) m = false ∧ msgPins m = [] ∧ s.hold = [] ∧
      grantCheck s 0 m 0 [(64, 8)] true = .ok 0) ∧
    (let m := msg0 6 2 64 (reqHead 1 3 ++ natBytes 16 7)
     let s := wire m id
     arrived s m = true ∧ msgOk m = true ∧ cached (coreAt s 0) m = none ∧ msgPins m = [] ∧ bits (payWord m 0) 63 60 = 1) ∧
    (let a := ans 8 0 (natBytes 8 7)
     let q := msg0 5 2 64 (reqHead 0 3)
     let s := answered 0 a q {}
     arrived s a = true ∧ a.dchip = chipNo s ∧ a.dcore < 96 ∧ msgOk a = true ∧ findSent (coreAt s 0) 0 9 = some (sentBy 0 q) ∧
      respFail a = none ∧ (sentBy 0 q).seq ≠ 1 ∧ q.kind ≠ 6) ∧
    (let a := ans 9 0 [0]
     let q := msg0 6 2 64 (reqHead 1 3)
     let s := answered 0 a q {}
     arrived s a = true ∧ msgOk a = true ∧ findSent (coreAt s 0) 0 9 = some (sentBy 0 q) ∧ forReply a = false ∧ respFail a = none ∧ q.kind = 6 ∧
      (sentBy 0 q).len ≠ 1) ∧
    (let a := ans 9 4 (natBytes 8 0)
     let q := msg0 0 0 64 z16
     let s := answered 4 a q { cmds := [cpyRead] }
     arrived s a = true ∧ msgOk a = true ∧ findSent (coreAt s 0) 4 9 = some (sentBy 4 q) ∧ forReply a = false ∧ respFail a = none ∧ q.kind = 0 ∧
      (chanOf s 0 0).cmds = [cpyRead] ∧ cpyRead.seq = 3 ∧ (sentBy 4 q).len ≠ 0) ∧
    (let a := ans 4 4 z16
     let q := msg0 3 0 64 (natBytes 8 16)
     let s := answered 4 a q { cmds := [cpy0] }
     arrived s a = true ∧ msgOk a = true ∧ findSent (coreAt s 0) 4 9 = some (sentBy 4 q) ∧ (sentBy 4 q).len = ((a.flits.map (·.data)).flatten).length ∧
      (chanOf s 0 0).cmds = [cpy0] ∧ cpy0.code = 0 ∧ bitAt (mreg s (.cinj 0)) 63 = false) ∧
    (let a := ans 10 4 [1]
     let s := answered 4 a (msg0 0 0 64 z16) {}
     arrived s a = true ∧ msgOk a = true ∧ findSent (coreAt s 0) 4 9 = some (sentBy 4 (msg0 0 0 64 z16)) ∧ bits (payWord a 24) 7 0 = 0 ∧
      bits (payWord a 0) 7 0 ≠ 3 ∧ (sentBy 4 a).refusals < 15) ∧
    (let e : Ext := { e0 with tier := 1, base := 2 ^ 33 }
     let m := { cpy0 with dst := e, rd := 16, pend := [(0, 0, z16)] }
     let s := onCh { cmds := [m] }
     idFree s (coreAt s 0) 4 = true ∧ sendsNow s 0 0 = true ∧ peerReplay (coreAt s 0) 0 = none ∧ (chanOf s 0 0).cmds = [m] ∧ m.started = true ∧
      m.code = 0 ∧ m.dst.base / 2 ^ 42 % 1024 = chipNo s ∧ sendOf s 0 0 m = .data 0 z16 ∧ z16 ≠ [] ∧ z16.length ≤ 1024 ∧
      (let m := { m with fl := true, sent := 16, pend := [], done := [(0, 16, 0)] }; sendOf (onCh { cmds := [m] }) 0 0 m = .fin)) ∧
    (let e : Ext := { e0 with tier := 1, base := 2 ^ 33 }
     let m := { cpy0 with dst := e }
     let u : LogUnit := ⟨0, 3, 0, z16, false⟩
     let s := onCh { cmds := [m], slog := [u] }
     idFree s (coreAt s 0) 4 = true ∧ sendsNow s 0 0 = true ∧ peerReplay (coreAt s 0) 0 = some (0, u, m) ∧ m.mode < 3 ∧
      m.dst.base / 2 ^ 42 % 1024 = chipNo s ∧ u.bytes.length ≤ 64) ∧
    (let x := { sentBy 4 (msg0 0 0 64 z16) with resendAt := some 0 }
     let s := onK fun k => { k with sent := [x] }
     ((coreAt s 0).sent.find? fun y => decide (y.agent = 4) && decide (y.id = x.id) && dueBy y.resendAt s.gts) = some x ∧ x.msg.dunit < 16 ∧
      x.msg.dchip = chipNo s ∧ (coreAt s 0).replies = [] ∧ s.engSent = []) := by
  refine ⟨?_, ?_, ?_, ?_, ?_, ?_, ?_, ?_, ?_, ?_⟩ <;> (repeat' apply And.intro) <;> first | decide +kernel | rfl

/-- The package with a message about pin 7 (generation 3), and that entry. -/
def pinned (m : Msg) (p : Pin) (h : List Held) : State := { wire m id with pins := [(7, p)], hold := h }

/-- The word that names pin 7, generation 3, of this package. -/
def pinWord : Nat := 7 * 256 + 3

theorem witness_PinsCachesAndPorts :
    (let m := msg0 11 0 0 (natBytes 16 pinWord)
     let s := pinned m { st := 1, gen := 3 } []
     let w := payWord m 0
     arrived s m = true ∧ m.kind = 11 ∧ m.dchip = chipNo s ∧ msgOk m = true ∧ bits w 21 8 = 7 ∧ (pinAt s 7).st = 1 ∧ (pinAt s 7).gen = bits w 7 0 ∧
      (pinAt s 7).tenant = m.tenant) ∧
    (let m := msg0 12 0 0 (natBytes 8 pinWord ++ natBytes 8 2)
     let h : Held := { msg := msg0 5 2 64 (reqHead 0 3), pins := [BitVec.ofNat 32 pinWord, 9] }
     let s := pinned m {} [h]
     arrived s m = true ∧ msgOk m = true ∧ bits (payWord m 8) 1 0 = 2 ∧ s.hold = [h] ∧
      h.pins = [BitVec.ofNat 32 (payWord m 0).toNat, 9] ∧ (9 : W32) ≠ BitVec.ofNat 32 (payWord m 0).toNat ∧ h.msg.tenant = m.tenant) ∧
    (let m := msg0 13 0 0 (natBytes 8 pinWord)
     let s := pinned m { st := 2, gen := 3 } []
     let w := payWord m 0
     let p := pinAt s 7
     arrived s m = true ∧ m.dchip = chipNo s ∧ m.schip = chipNo s ∧ msgOk m = true ∧ bits w 21 8 = 7 ∧ p.st ≠ 0 ∧ p.gen = bits w 7 0 ∧ bits w 7 0 ≠ 0 ∧
      p.tenant = m.tenant ∧ p.wait = [] ∧ s.hold = []) ∧
    (∀ st ∈ [2, 3], let s := { State.reset with pins := [(7, { st := st, gen := 3 })], gts := 65536 }
      ((pinAt s (7 : Fin 16384)).st = 2 ∨ (pinAt s (7 : Fin 16384)).st = 3) ∧ (pinAt s (7 : Fin 16384)).at_ + 65536 ≤ s.gts ∧ s.hold = []) ∧
    (State.reset.out = [] ∧ State.reset.hold = [] ∧ 63 < 64 ∧ 1023 < 1024) ∧
    (let m := msg0 0 0 64 z16
     let x : Transit := { dchip := chipNo State.reset, mchip := 5, ph := true, crossed := 1, resp := false, msg := m }
     x.msg.kind < 15 ∧ arrivalOf x.msg = some (.data m) ∧ ({ x with ph := false, mchip := chipNo State.reset } : Transit).mchip = chipNo State.reset) ∧
    (let x : Transit := { dchip := 5, mchip := 5, ph := true, crossed := 3, resp := false, msg := msg0 0 0 64 z16 }
     let s := setMreg (setMreg (setMreg State.reset (.rt 5) (pack [(1, 63), (2, 58)])) (.pst 2) 5) .fabcfg 4
     x.dchip ≠ chipNo s ∧ x.crossed < 4 ∧ portUp s (bits (rtOf s x.dchip) 62 58) = true) := by
  refine ⟨?_, ?_, ?_, ?_, ?_, ?_, ?_⟩ <;> decide +kernel

/-- A request of 16 bytes that passes through this package or waits at port 2, and a channel of that port. -/
def fwd : Transit := { dchip := 5, mchip := 5, ph := true, crossed := 1, resp := false, msg := msg0 0 0 64 z16 }

def withVc (v : Vc) (g : Nat) : State := { State.reset with vcs := [(vcKey 2 false 1, v)], gts := g }

theorem witness_PortsAndVirtualChannels :
    (booted { State.reset with boot := .run 0 } = true ∧ booted State.reset = false ∧ State.reset.replays = [] ∧ 1023 < 1024) ∧
    ((∀ v ∈ State.reset.vcs, v.1 / 8 ≠ (2 : Fin 32).val) ∧
      (withVc { credits := 0, wait := [fwd] } 0).vcs = [(vcKey (2 : Fin 32) false (1 : Fin 4), { credits := 0, wait := [fwd] })] ∧
      kindResp fwd.msg.kind = false ∧ fwd.msg.schip = chipNo (withVc { credits := 0, wait := [fwd] } 0)) ∧
    ((vcAt State.reset (2 : Fin 32) false (1 : Fin 4)).dry = none ∧
      (∀ g ∈ [2 ^ 20 - 1, 2 ^ 20], let s := withVc { credits := 0, wait := [fwd], dry := some 0 } g
        (vcAt s (2 : Fin 32) false (1 : Fin 4)).dry = some 0 ∧ (0 + 2 ^ 20 ≤ s.gts ↔ g = 2 ^ 20)) ∧
      (vcAt (withVc { credits := 7 } 0) (2 : Fin 32) false (1 : Fin 4)).wait = [] ∧
      (let x := vcAt (withVc { credits := 0, wait := [fwd] } 0) (2 : Fin 32) false (1 : Fin 4)
       x.wait = [fwd] ∧ 0 < x.credits + 3 ∧ fwd.msg.flits.length - x.left ≤ min 32 (x.credits + 3))) ∧
    (∀ v : Bool, let s := setMreg (setMreg (setMreg (withVc (if v then { credits := 0 } else {}) 0) (.rt 5) (pack [(1, 63), (2, 58)])) (.pst 2) 5) .fabcfg 4
     let port := bits (rtOf s fwd.dchip) 62 58
     let x := vcAt s port fwd.resp fwd.crossed
     fwd.msg.kind < 15 ∧ fwd.dchip ≠ chipNo s ∧ fwd.crossed < 4 ∧ portUp s port = true ∧ x.wait = [] ∧ x.left = 0 ∧
      (if v then x.credits = 0 ∧ fwd.msg.flits ≠ [] else fwd.msg.flits.length ≤ x.credits)) ∧
    (let s := pinned (msg0 12 0 0 (natBytes 8 pinWord ++ natBytes 8 2)) {} []
     let z := { sentBy agPin (msg0 11 0 0 z16) with id := 9 }
     ({ s with engSent := [z] }).engSent.find? (fun x => decide (x.agent = agPin) && decide (x.id = 9)) = some z) := by
  refine ⟨?_, ?_, ?_, ?_, ?_⟩ <;> decide +kernel

/-! ### Memories and streams -/

/-- Reset with stores of tiers 2 to 5 that list nothing is in form, whatever else is put into the state. -/
theorem memoryWf_of (s : State) (h2 : s.t2 = []) (h3 : s.t3 = []) (h4 : s.t4 = []) (h5 : s.t5 = []) : memoryWf s := fun i => by
  match i with
  | 2 => exact (congrArg Memory.wf h2).trans rfl
  | 3 => exact (congrArg Memory.wf h3).trans rfl
  | 4 => exact (congrArg Memory.wf h4).trans rfl
  | 5 => exact (congrArg Memory.wf h5).trans rfl
  | 0 | 1 | _ + 6 => rfl

/-- A buffered write of one byte. -/
def wr0 (tier buf : Nat) (path : Nat) : BufWr :=
  { buf := buf, tier := tier, addr := 64, bytes := [9], owner := none, launch := none, hidden := false, pin := none, resv := 0, path := path }

/-- The package with some buffered writes. -/
def buffered (l : List BufWr) : State := { State.reset with wbuf := l }

theorem witness_MemoriesAndTheirAgents :
    memoryWf (buffered [wr0 4 0 0]) ∧ memoryWf State.reset ∧ regsSorted State.reset ∧
    (∀ t ∈ [2, 3], (wr0 t 0 0).tier = t ∧ (wr0 t 0 0).launch = none ∧ (wr0 t 0 0).owner = none ∧ (wr0 t 0 0).pin = none) ∧
    ((wr0 4 0 0).tier = 4 ∧ (wr0 4 0 0).buf ≠ 4 ∧ (wr0 4 4 0).buf = 4 ∧ (wr0 4 4 0).owner = none) ∧
    ((buffered [wr0 3 0 0, wr0 3 0 1]).wbuf = wr0 3 0 0 :: [wr0 3 0 1] ∧ (wr0 3 0 1).bytes ≠ []) ∧
    (∀ t ∈ [2, 3, 4, 5], let s := served State.reset
      s.wbuf = [] ∧ s.soft = [] ∧ tierHas t 0 8 = true ∧ readRefusal s t 0 8 = none ∧ widthWait s t 0 8 = false ∧ firstPoison s t (unitsOf 0 8) = none ∧
      tierHas t 0 [(1 : Byte)].length = true ∧ accessRefusal s t 0 [(1 : Byte)].length = none) ∧
    (isHart (wr0 3 5 hartPath) = true ∧ (buffered [wr0 3 5 hartPath]).wbuf = [wr0 3 5 hartPath]) ∧
    (bits (mreg State.reset .hbmhot) 15 0 < (0xFFFF : BitVec 16).toNat ∧ (127 : Fin 128).val / 32 = (3 : Fin 4).val) ∧
    ((1 : BitVec 16).toNat < hbmCool (setMreg (setMreg State.reset .hbmhot 9) .hbmcool 5) ∧ bitAt (mreg State.reset (.hbmst 127)) 3 = false) ∧
    ((7 : Fin 8).val ∉ State.reset.cxlDown ∧ (7 : Fin 8).val ∈ ({ State.reset with cxlDown := [7] } : State).cxlDown) :=
  ⟨memoryWf_of _ rfl rfl rfl rfl, memoryWf_of _ rfl rfl rfl rfl, List.Pairwise.nil, by decide +kernel, by decide +kernel, by decide +kernel,
   by decide +kernel, by decide +kernel, by decide +kernel, by decide +kernel, by decide +kernel, by decide +kernel⟩

/-- The rest of the same statement: writes that move alone, together and behind one another, with the stage in D0 and out of it; a write to the pool
that is late; and the pool with a decoder whose port loses its link or answers no read. -/
theorem witness_WritesThatMoveAndThePool :
    ((∀ x ∈ [wr0 3 0 1], sameMove (wr0 3 0 0) x = false) ∧ stageOff State.reset 3 = false ∧ stageOff { State.reset with hbmPower := 0 } 2 = false ∧
      stageOff { State.reset with hbmPower := 1 } 2 = true) ∧
    (let w := wr0 3 0 7
     let y := wr0 3 0 8
     let s := buffered [w, y, w]
     s.wbuf = w :: [y, w] ∧ sameMove w w = true ∧ meetsUnit w y = true ∧ w.bytes ≠ [] ∧ stageOff s w.tier = false ∧
      ∀ x ∈ s.wbuf, x.launch = none ∧ x.pin = none ∧ x.resv = 0) ∧
    (let s := { buffered [wr0 4 4 0] with gts := 2 ^ 24 }
     lget none (s.wbuf.map some) 0 = some (wr0 4 4 0) ∧ cxlLate s (wr0 4 4 0) = true ∧ (wr0 4 4 0).owner = none) ∧
    (let w := { wr0 4 4 0 with owner := some 0, resv := 3 }
     cxlLate { buffered [w] with gts := 2 ^ 24 } w = true ∧ w.owner = some 0 ∧ w.path = 0) ∧
    (let s := served State.reset
     s.wbuf = [] ∧ (0 : Fin 8).val ∉ s.cxlDown ∧ (∀ b ∈ cxlPieces 0 64, cxlPortAt s b = some (0 : Fin 8).val) ∧ cxlPieces 0 64 ≠ [] ∧
      tierHas 4 0 64 = true ∧ accessRefusal s 4 0 64 = none) := by
  refine ⟨?_, ?_, ?_, ?_, ?_⟩ <;> decide +kernel

/-- The tables of tenant 0 in tier 5: 512 MiB of virtual space from 2^29 on are tier 3, from 2^30 on tier 2, from 3 · 2^29 on tier 5. -/
def tables : List Host.Cell :=
  [(0, 8192 + 5 * 32 + 1), (8192, 16384 + 5 * 32 + 1), (16384, 20480 + 5 * 32 + 1), (20488, 3 * 32 + 31), (20496, 2 * 32 + 31),
   (20504, 5 * 32 + 31)].foldl (fun m p => cellsPut p.1 (natBytes 8 p.2) m) []

/-- The package with those tables and a stream 3. -/
def str3 (x : Stream) : State := setMreg { State.reset with hbmPower := 0, t5 := tables, streams := [(3, x)] } .ttbase (5 * 2 ^ 61)

/-- A shard of 512 bytes whose source is at 2^29, staged at 2^30 when asked for; and one whose source is at 2^30. -/
def shard (src stage : Nat) : List Word := [wordOf (src * 128 + 16), 0, wordOf (stage * 128), 0]

/-- A stream of one shard that runs. -/
def stm (w : List Word) : Stream := { st := 1, n := 2, next := 1, ents := [(0, w)] }

theorem witness_StreamsAndHops :
    (let x : Stream := { st := 1, n := 2, itin := { e0 with tier := 5, base := 2 ^ 20 } }
     let s := str3 x
     let y := { s with t5 := cellsPut (2 ^ 20) [16] s.t5 }
     strAt s 3 = x ∧ x.st = 1 ∧ x.next < x.n ∧ x.ents = [] ∧ x.itin.rv = false ∧ x.itin.dm = false ∧ x.res = none ∧
      engFetch s none x.core x.tenant x.itin (x.ioff + 32 * x.next) 32 = (s, none, List.replicate 32 0) ∧
      entCheck (wordsOf (List.replicate 32 0)) = some Cause.itinRsvd ∧
      engFetch y none x.core x.tenant x.itin (x.ioff + 32 * x.next) 32 = (y, none, 16 :: List.replicate 31 0) ∧
      entCheck (wordsOf (16 :: List.replicate 31 0)) = none) ∧
    (let w := shard (2 ^ 29) (2 ^ 30)
     let s := str3 (stm w)
     let x := strAt s 3
     x.st = 1 ∧ x.ents = [(0, w)] ∧ x.noted = [] ∧ archOf x = none ∧ hopMade w 0 = false ∧ x.next < x.n ∧ hopMade w 1 = true ∧ hopSt x 0 1 = 0 ∧
      s.hbmPower = 0 ∧ tierHas 2 0 (shardLen w) = true ∧ shardLen w = 512 ∧
      readPlaces [(3, 0, 512)] s = (s, none, List.replicate 512 0)) ∧
    (let w := shard (2 ^ 30) 0
     let s := str3 (stm w)
     let x := strAt s 3
     x.ents = [(0, w)] ∧ hopMade w 0 = false ∧ hopMade w 1 = false ∧ hopSt x 0 2 = 0 ∧
      readPlaces [(2, 0, 512)] s = (s, none, List.replicate 512 0)) ∧
    (let x := { stm (shard (2 ^ 29) (2 ^ 30)) with hops := [(1, 1)] }
     hopSt x 0 1 = 1 ∧ (∀ b ∈ (str3 x).wbuf, b.owner = none → b.path ≠ hopPath 3 1 0) ∧
      ∃ b ∈ ({ str3 x with wbuf := [wr0 2 5 (hopPath 3 1 0)] } : State).wbuf, b.owner = none ∧ b.path = hopPath 3 1 0) := by
  refine ⟨?_, ?_, ?_, ?_, ?_, ?_⟩ <;> decide +kernel

/-- An answer that succeeds is known from its state and its value. -/
theorem pair_ok {ε α : Type} {s : State} {a : α} : {p : State × Except ε α} → p.1 = s → p.2.toOption = some a → p = (s, .ok a)
  | (_, .ok _), h, k => by cases h; cases k; rfl
  | (_, .error _), _, k => by cases k

/-- The pages those shards lie in. -/
theorem shards_are_mapped :
    (let s := str3 (stm (shard (2 ^ 29) (2 ^ 30)))
     virtPlaces 0 true false 2 s (2 ^ 29) 512 = (s, .ok [(3, 0, 512)]) ∧ virtPlaces 0 false true 2 s (2 ^ 30) 512 = (s, .ok [(2, 0, 512)])) ∧
    (let s := str3 (stm (shard (2 ^ 30) 0))
     virtPlaces 0 true false 2 s (2 ^ 30) 512 = (s, .ok [(2, 0, 512)])) :=
  ⟨⟨pair_ok (by decide +kernel) (by decide +kernel), pair_ok (by decide +kernel) (by decide +kernel)⟩,
   pair_ok (by decide +kernel) (by decide +kernel)⟩

/-- The package where seat 0 of core 0, a task of queue 0, takes what a stream 3 brings to its extent 0. -/
def taking (x : Stream) : State :=
  { State.reset with streams := [(3, { x with tcons := 1 })], cores := [(0, { seats := [(0, { st := .ready, ext := [(0, e0)] })] })] }

/-- The rest of the same statement: streams that run on, that have ended and that were stopped; a shard on its way to a consumer, wholly there, and given
up; the two first hops with and without writes on their way. -/
theorem witness_ShardsAreCopiedAndStreamsEnd :
    (∀ q ∈ [(stm (shard 0 0), false), (({} : Stream), true), ({ st := 1, n := 2, next := 2 }, true), ({ st := 2, endCode := Cause.tierStopped }, true),
        ({ st := 2, endCode := 0x81 }, true)], let s := str3 q.1
      entOf (strAt s 3) 5 = none ∧ (4, (3 : Fin 16).val) ∉ s.engBad ∧ streamOver s (strAt s 3) = q.2 ∧ (strAt s 3).res = none ∧ strAt s 3 = q.1) ∧
    (∀ h ∈ [0, 1], let s := str3 { stm (shard (2 ^ 29) (2 ^ 30)) with hops := [(h, 1)] }
      let x := strAt s 3
      entOf x 0 = some (shard (2 ^ 29) (2 ^ 30)) ∧ x.st ≠ 0 ∧ hopSt x 0 h = 1 ∧ (∀ b ∈ s.wbuf, b.owner = none → b.path ≠ hopPath 3 h 0) ∧ x.res = none ∧
      ∃ b ∈ ({ s with wbuf := [wr0 2 5 (hopPath 3 h 0)] } : State).wbuf, b.owner = none ∧ b.path = hopPath 3 h 0) ∧
    (∀ x0 ∈ [{ stm (shard 0 0) with hops := [(2, 1)], h2 := [(0, 0, 512)] }, { stm (shard 0 0) with hops := [(2, 1)], cack := [(0, 0)] }],
      let x := strAt (taking x0) 3
      entOf x 0 = some (shard 0 0) ∧ hopSt x 0 2 = 1 ∧ (∀ c ∈ consumers (shard 0 0), h2Over x 0 c 512 = true) ∧ ∀ p ∈ x.gone, p.1 ≠ 0) ∧
    (let w := shard 0 0
     let s := taking { stm w with hops := [(2, 1)], h2data := [(0, List.replicate 512 7)], h2 := [(0, 0, 64)] }
     let x := strAt s 3
     let e := extOf (seatAt s 0 0) (entBits w 3 31 28)
     hopSt x 0 2 = 1 ∧ x.res = none ∧ ((consumers w).filter fun c => !h2Over x 0 c (shardLen w) && (consumerSeat s x c).isSome) = [0] ∧
      consumerSeat s x 0 = some 0 ∧ x.h2data.find? (fun p => decide (p.1 = 0)) = some (0, List.replicate 512 7) ∧
      (List.replicate 512 (7 : Byte)).length = shardLen w ∧ h2Got x 0 0 ≤ shardLen w ∧
      engCheck e [0] false true 1 0 (entBits w 3 27 15 * 512 + shardLen w) = none ∧ extFree e = true) ∧
    (let x := strAt (str3 (stm (shard (2 ^ 29) (2 ^ 30)))) 3
     ∀ e ∈ x.ents, shardDone (str3 x) x e = false → x.next < e.1 + 64) := by
  refine ⟨?_, ?_, ?_, ?_, ?_⟩ <;> decide +kernel

/-- A member's stream of group 0, led by package 5, and the package with it; this package, number 0, is the one member. -/
def mem (g : Nat) (x : Stream) : State :=
  setMreg (setMreg { State.reset with streams := [(3, x)], gts := g } (.mcast 0) (pack [(5, 53), (1, 48)])) (.mcast 3) 1

/-- An archipelago's stream. -/
def arch : Stream := { st := 1, n := 2, tgrp := 64, sentAt := [(0, 0)] }

/-- A descriptor in tier 5: 64 bytes from tier 3 offset 128 to tier 2 offset 64; queue 1 and stream 3 are gated. -/
def replDesc : List Word := [wordOf (3 * 2 ^ 61 + 128), wordOf (2 * 2 ^ 61 + 64), 64, 64, 2, wordOf (2 ^ 16 + 8), 0, 0]

/-- The package with that descriptor at unit 4 of tier 5, or with zeros there. -/
def withDesc (ws : List Word) : State := { State.reset with t5 := cellsPut 256 (bytesOf ws) [] }

/-- A replacement under way. -/
def replAt (step g : Nat) : State := { State.reset with repl := some { step := step, words := replDesc, at_ := 0 }, gts := g }

theorem witness_PacingAndWeightReplacement :
    (let m := sealMsg { msg0 14 3 0 [] with flits := [flit 0 0 (natBytes 8 0 ++ natBytes 8 0 ++ natBytes 8 16), flit 1 0 z16] }
     let s := { mem 0 arch with net := [m] }
     let x := strAt s 3
     arrived s m = true ∧ m.kind = kEngd ∧ m.dchip = chipNo s ∧ msgOk m = true ∧ m.dunit = 3 ∧ (payWord m 8).toNat = 0 ∧
      memberStream s (payWord m 0).toNat m.tenant = some (3 : Fin 16).val ∧ (∀ d ∈ x.engd, d.1 ≠ 0) ∧ hopSt x 0 0 = 0 ∧
      (∀ p ∈ x.parts, p.1 / 2 ^ 22 ≠ 0) ∧ (m.flits.head?.map (·.off)).getD 0 < 2 ^ 22 ∧
      ((m.flits.tail.map (·.data)).flatten).length = (payWord m 16).toNat) ∧
    (∀ hops ∈ [[(0, 1)], []], let s := mem 64 { arch with hops := hops }
     let x := strAt s 3
     x.st ≠ 0 ∧ (0 : Nat) ∈ membersOf s x ∧ (0, 0) ∉ x.mack ∧ (hopSt x 0 0 ≠ 0 ∨ ∃ p ∈ x.sentAt, p.1 / 1024 = 0)) ∧
    (let s := mem 64 arch
     let x := strAt s 3
     let lim := 64 * bits (mreg s (.mcast (4 * 0 + 3))) 19 0
     archOf x = some 0 ∧ tfind x.sentAt (1024 * 0 + 0) = some 0 ∧ x.st ≠ 0 ∧ lim ≠ 0 ∧ 0 + lim ≤ s.gts ∧ (0, 0) ∉ x.mack) ∧
    (let s := mem 4096 arch
     s.gts % 4096 = 0 ∧ (tkeys s.streams).Nodup ∧ (3 : Fin 16).val ∈ tkeys s.streams ∧ (strAt s 3).st ≠ 0 ∧ (mem 1 arch).gts % 4096 ≠ 0) ∧
    (∀ t ∈ [2, 3, 5], let v := wordOf (t * 2 ^ 61 + 4 * 64 + 1)
     let s0 := served State.reset
     let s := setTier s0 t (cellsPut 256 (bytesOf replDesc) [])
     bitAt v 0 = true ∧ ckBusy s = false ∧ bitAt (mreg s .wrctl) 1 = false ∧ bits v 63 61 = t ∧ tierHas t (bits v 45 6 * 64) 64 = true ∧
      readRefusal s t (bits v 45 6 * 64) 64 = none ∧ firstPoison s t (unitsOf (bits v 45 6 * 64) 64) = none ∧
      wrCheck (wordsOf ((countUp (bits v 45 6 * 64) 64).map (obsByte s none t))) = none ∧
      wrCheck (wordsOf ((countUp (bits v 45 6 * 64) 64).map (obsByte s0 none t))) = some Cause.itinRsvd ∧ s0.repl = none) ∧
    (let s := replAt 1 1024
     (residents s fun x => bitAt (2 : Word) (taskQueue x)) = [] ∧ (∀ k < 16, bitAt (8 : Word) k = true → (strAt s k).st = 0) ∧
      0 + bits (lget 0 replDesc 5) 47 16 * 1024 ≤ s.gts) ∧
    (let s := served (replAt 2 0)
     s.widthBusy = [] ∧ bits (lget 0 replDesc 0) 63 61 = 3 ∧ bits (lget 0 replDesc 1) 63 61 = 2 ∧ (lget 0 replDesc 3).toNat % 64 = 0 ∧ s.wbuf = [] ∧
      tierHas 3 (bits (lget 0 replDesc 0) 45 0) 64 = true ∧ tierHas 2 (bits (lget 0 replDesc 1) 45 0) 64 = true ∧
      readRefusal s 3 (bits (lget 0 replDesc 0) 45 0) 64 = none ∧ accessRefusal s 2 (bits (lget 0 replDesc 1) 45 0) 64 = none ∧
      firstPoison s 3 (unitsOf (bits (lget 0 replDesc 0) 45 0) 64) = none ∧ ({ s with widthBusy := [3] } : State).widthBusy ≠ []) ∧
    memoryWf (replAt 2 0) := by
  refine ⟨?_, ?_, ?_, ?_, ?_, ?_, ?_, memoryWf_of _ rfl rfl rfl rfl⟩ <;> decide +kernel

/-! ### Engines -/

/-- A command of the engine of a die: the list of one word, or one gather command, at the start of the scratchpad; its output goes to
offset 1,024 of e2. -/
def eng0 (eng sub : Nat) : EngCmd :=
  { eng := eng, op := 0, sub := sub, core := 0, seat := 0, task := 0, tco := 0, seq := 1, a := 0, b := 1
    stg := [(0, 0x10022), (1, 0), (3, 0x40000), (4, 1024), (5, 1024)], exts := [(2, e0)], res := none, cyc := 0 }

/-- A package whose die 0 is on and has that state, with a page format and handle 0 of tenant 0 in tier 2. -/
def onDie (x : Die) : State :=
  setMreg (setMreg (setMreg { s0 with dies := [(0, x)], dieEn := 15, hbmPower := 0, t2 := [(7, 128)] } (.kvht 0) (2 * 2 ^ 61 + 2 ^ 40))
    (.kvpfmt 0) (pack [(1, 52), (0x20, 46), (1, 39), (16, 29), (1, 20), (1, 0)])) (.kvmap 0) (2 * 2 ^ 61 + 4096)

theorem witness_KvTopkAndGatherArePerformed :
    (let m := { eng0 5 0 with prog := 2 }
     let s := onDie { kv := [m] }
     engBroken s (0 : Fin 4) 5 = none ∧ s.widthBusy = [] ∧ (dieAt s 0).kv = [m] ∧ m.prog = 2 ∧ m.core / 96 = 0 ∧ m.res = none ∧ m.code = 0 ∧
      ((let m := { m with res := some (e0, 64) }; resFree m.res = true ∧ m.res = some (e0, 64) ∧ e0.tier = 0)) ∧
      (seatAt s m.core m.seat).st ≠ .empty ∧ (seatAt s m.core m.seat).task = m.task ∧ (seatAt s m.core m.seat).tco = m.tco) ∧
    (∀ p ∈ [(7, 0, 128), (9, 2, 192)], let m := { eng0 5 p.2.1 with op := p.1, ord := true }
     let s := { onDie { kv := [m] } with t2 := [(7, p.2.2)] }
     m.prog = 0 ∧ (∀ e ∈ m.exts, e.2.rv = false ∧ e.2.dm = false) ∧ kvOrder s 0 = s ∧ (kvDo s 0 m).2.isSome = decide (p.1 = 7)) ∧
    (let m := { eng0 5 2 with op := 9, ord := true, prog := 1 }
     let s := onDie { kv := [m] }
     kvOrder s 0 = s ∧ (dieAt s 0).kv = [m]) ∧
    (let m := eng0 6 0
     let s := onDie { topk := [m] }
     let e := extIn m (bits (tget 0 m.stg 0) 3 0)
     engBroken s (0 : Fin 4) 6 = none ∧ engBroken s (0 : Fin 4) 7 = none ∧ (∀ y ∈ (dieAt s 0).topk ++ (dieAt s 0).gthr, y.slog = []) ∧
      s.widthBusy = [] ∧ m.out = [] ∧ m.slog = [] ∧ m.code = 0 ∧ m.res = none ∧ engSeen s m = true ∧ extFree e = true ∧
      (dieAt s 0).topk = [m] ∧ m.prog = 0 ∧
      (extIn m (bits (tget 0 m.stg 0) 7 4)).tier = 0 ∧ extFree (extIn m (bits (tget 0 m.stg 0) 7 4)) = true ∧
      engFetch s (some 0) m.core (taskTenant m.task) e m.a.toNat (4 * m.b.toNat) = (s, none, [0, 0, 0, 0])) ∧
    (∀ sub < 3, let m := eng0 7 sub
      let s := onDie { gthr := [m] }
      pickGather s 0 = (some m, s) ∧ engSeen s m = true ∧ m.prog < m.b.toNat ∧ handleCheck s (handleDie (tget 0 m.stg 1)) (taskTenant m.task) (tget 0 m.stg 1) = none ∧
        (extIn m (bits (tget 0 m.stg 0) 3 0)).tier = 0 ∧ (nextGather s 0 m).1 = s ∧
        (nextGather s 0 m).2.toOption = some (if sub = 2 then (0, 0) else (0, 1024))) ∧
    (∀ w : Word, w = 1024 ∨ w = 0 → ∀ sub < 3, let m := eng0 7 sub
      gatherOne (onDie { gthr := [m] }) m 0 w w.toNat = (onDie { gthr := [m] }, .got w.toNat (List.replicate 128 0))) := by
  refine ⟨?_, ?_, ?_, ?_, ?_, ?_⟩
  iterate 5 decide +kernel
  rintro w (rfl | rfl) <;> decide +kernel

/-- Die 0 with tables that lie apart: two entries, of which the first has words `w0` to `w2`, one layer of one page in each, two pages, eight journal
units; `map` is the map word of entry 0, and `mx` the nodes that the tree may hold. -/
def kvW (w0 w1 w2 map mx : Nat) (x : Die) : State :=
  let put := fun (a n v : Nat) (l : List Host.Cell) => cellsPut a (natBytes n v) l
  let s : State := { s0 with dies := [(0, x)], dieEn := 15, hbmPower := 0, t3 := put 4096 4 map (put 16 8 w2 (put 8 8 w1 (put 0 8 w0 []))) }
  [(MReg.kvht 0, pack [(3, 61), (2, 40)]), (.kvmap 0, pack [(3, 61), (4096, 0)]), (.kvpool 0, pack [(2, 40)]), (.kvsum 0, pack [(2, 61), (8192, 0)]),
    (.kvjrn 0, pack [(3, 61), (8, 40), (8192, 0)]), (.kvpfmt 0, pack [(1, 52), (0x20, 46), (1, 39), (16, 29), (1, 20), (1, 0)]), (.kvtree 0, wordOf mx)].foldl
    (fun s p => setMreg s p.1 p.2) s

/-- An entry that is live and holds `b` tokens. -/
def live (b : Nat) : Nat := 2 ^ 63 + b

/-- The premise of the KV statements, as a test. -/
def laid (s : State) (d : Nat) : Bool :=
  let f := kvFmtOf s d
  decide (f.ktok ≠ 0) && decide ((kvRegions s d).Pairwise fun a b => a.1 ≠ b.1 ∨ a.2.1 + a.2.2 ≤ b.2.1 ∨ b.2.1 + b.2.2 ≤ a.2.1) &&
  (kvRegions s d).all (fun r => decide (2 ≤ r.1 ∧ r.1 ≤ 5 ∧ r.2.1 + r.2.2 ≤ tierSize r.1)) &&
  (List.range (bits (mreg s (.kvht d)) 58 40)).all fun e => (allPlaces f f.maxp).all fun q =>
    (mapAt s d e q.1 q.2).all fun g => decide (g < bits (mreg s (.kvpool d)) 63 40)

theorem laid_iff (s : State) (d : Nat) (h : laid s d = true) : KvLaid s d := by
  simp only [laid, Bool.and_eq_true, decide_eq_true_eq, List.all_eq_true, List.mem_range] at h
  obtain ⟨⟨⟨h1, h2⟩, h3⟩, h4⟩ := h
  refine ⟨h1, h2, h3, fun e he q hq g hg => ?_⟩
  have := h4 e he q hq
  rw [hg] at this
  simpa using this

/-- Of two entries the first is live: the engine takes the other one, wherever it starts to look; of two pages the first is in use: likewise. -/
theorem takes_entry (s : State) (hn : bits (mreg s (.kvht 0)) 58 40 = 2) (h0 : bitAt (entWord s 0 0 0) 63 = true)
    (h1 : bitAt (entWord s 0 1 0) 63 = false) : ∃ s2, findEnt s 0 = (some 1, s2) := by
  have h : (drawWord s).1.toNat % 2 = 0 ∨ (drawWord s).1.toNat % 2 = 1 := by omega
  unfold findEnt
  rcases h with h | h <;> simp [hn, h, countUp, h0, h1]

theorem takes_page (s : State) (hn : bits (mreg s (.kvpool 0)) 63 40 = 2) (h0 : cntOf s 0 0 ≠ 0) (h1 : cntOf s 0 1 = 0) :
    ∃ s2, findFree s 0 = (some 1, s2) := by
  have h : (drawWord s).1.toNat % 2 = 0 ∨ (drawWord s).1.toNat % 2 = 1 := by omega
  unfold findFree
  rcases h with h | h <;> simp [hn, h, countUp, h0, h1]

/-- A KV command of tenant 0 on entry 0 (a handle of zeros), its token, layer, token bytes and token id in its staging registers. -/
def kvc (op sub b : Nat) : EngCmd :=
  { eng0 5 sub with op := op, b := wordOf b, stg := [(2, 64), (3, 0), (4, 9)], ord := true }

/-- A tree of one node, whose 32 ids are zero, with page 0. -/
def tree1 : Die := { count := [(0, 1)], nodes := [{ id := 1, tenant := 0, parent := 0, ids := List.replicate 32 0, pages := [0], last := 0 }], nextNode := 2 }

theorem witness_KvLookupsForksAndReleases :
    -- a lookup that matches the node, one that finds it full, and one that finds no free entry
    (∀ n ∈ [1, 65535], let s := kvW (live 5) 0 0 0 4 { tree1 with count := [(0, n)] }
      let m := kvc 5 0 32
      laid s 0 = true ∧ m.op = 5 ∧ engFetch s (some 0) m.core (taskTenant m.task) ((m.exts.head?.map (·.2)).getD {}) m.a.toNat (4 * m.b.toNat) =
        (s, none, List.replicate 128 0) ∧ treeWalk s 0 0 1 0 (w32s (List.replicate 128 0)) = tree1.nodes ∧ cntOf s 0 0 = n ∧
      kvTableUe s 0 1 [] = none ∧ (∀ y ∈ tree1.nodes, y.pages.length = (kvFmtOf s 0).nl ∧ ∀ g ∈ y.pages, g < noPage) ∧
      bits (mreg s (.kvht 0)) 58 40 = 2 ∧ bitAt (entWord s 0 0 0) 63 = true ∧ bitAt (entWord s 0 1 0) 63 = false) ∧
    -- forks: past the bound, below the window, of an entry being replayed, of a page shared too often, and one that is made
    (∀ q ∈ [(live 5, 0, 9, 1), (live 5, 3, 2, 1), (2 ^ 61 + live 5, 0, 2, 1), (live 5, 0, 2, 65535), (live 5, 0, 2, 1)],
      let s := kvW q.1 q.2.1 0 0 4 { tree1 with count := [(0, q.2.2.2)] }
      let m := kvc 7 0 q.2.2.1
      laid s 0 = true ∧ m.op = 7 ∧ kvTableUe s 0 0 [] = none ∧ handleCheck s 0 0 m.a = none ∧ entBound s 0 0 = 5 ∧ entLb s 0 0 = q.2.1 ∧
      bitAt (entWord s 0 0 0) 61 = decide (q.1 ≠ live 5) ∧ (mappedBelow s 0 0 1).map (·.2.2) = [0] ∧ cntOf s 0 0 = q.2.2.2 ∧
      kvTableUe s 0 1 [] = none ∧ kvTableUe s 0 0 (allPlaces (kvFmtOf s 0) 1) = none ∧ bitAt (entWord s 0 0 0) 63 = true ∧
      bitAt (entWord s 0 1 0) 63 = false) ∧
    -- a release, and a fork of a handle whose node is gone
    (let s := kvW (live 5) 0 (7 * 2 ^ 32) 0 4 tree1
     handleCheck s 0 0 (kvc 8 0 0).a = none ∧ kvTableUe s 0 0 (allPlaces (kvFmtOf s 0) (kvFmtOf s 0).maxp) = none ∧ bitAt (entWord s 0 0 0) 61 = false ∧
      entTnode s 0 0 = 7 ∧ nodeAt s 0 7 = none ∧ entTnode s 0 0 ≠ offTree) := by
  refine ⟨?_, ?_, ?_⟩ <;> decide +kernel

theorem witness_KvJournals :
    -- a journal that is opened, opened twice, committed, rejected, without units, and of an entry being replayed
    (∀ jo : Bool, let s := kvW (live 5 + if jo then 2 ^ 62 else 0) 0 0 0 4 tree1
      laid s 0 = true ∧ (kvc 9 0 0).op = 9 ∧ kvTableUe s 0 0 [] = none ∧ handleCheck s 0 0 (kvc 9 0 0).a = none ∧ bitAt (entWord s 0 0 0) 61 = false ∧
      entJo s 0 0 = jo ∧ kvJfree s 0 ≠ 0 ∧ kvTableUe s 0 0 (allPlaces (kvFmtOf s 0) (min (entLb s 0 0 / 32) (kvFmtOf s 0).maxp)) = none) ∧
    kvJfree (kvW (live 5) 0 0 0 4 { tree1 with jrn := [(1, List.replicate 7 (.head 0 0 0))] }) 0 = 0 ∧
    bitAt (entWord (kvW (2 ^ 61 + live 5) 0 0 0 4 tree1) 0 0 0) 61 = true ∧
    -- the replays of HEAD, of an allocation and of a copy
    (∀ j ∈ [[], [JEnt.alloc 0 0 1], [JEnt.copy 0 0 0 1]], let s := kvW (2 ^ 62 + 2 ^ 61 + live 5) 0 0 1 4 { tree1 with jrn := [(0, .head 3 0 0 :: j)] }
      laid s 0 = true ∧ tget [] (dieAt s 0).jrn 0 = .head 3 0 0 :: j ∧ bitAt (entWord s 0 0 0) 63 = true ∧ 0 < (kvFmtOf s 0).nl ∧ 0 < (kvFmtOf s 0).maxp ∧
      0 < bits (mreg s (.kvht 0)) 58 40 ∧ 1 < bits (mreg s (.kvpool 0)) 63 40) := by
  refine ⟨?_, ?_, ?_, ?_⟩ <;> decide +kernel

/-- A new token of 64 bytes: into the page of its map word, into a copy of it, into a new page; with and without an open journal; and advances. -/
theorem witness_KvAppends :
    (∀ q ∈ [(0, 1, 0, true), (0, 2, 1, false), (noPage, 1, 0, false)], let s := kvW (live 5 + if q.2.2.2 then 2 ^ 62 else 0) 0 0 q.1 4 { tree1 with count := [(0, q.2.1)] }
      let m := kvc 6 q.2.2.1 0
      let f := kvFmtOf s 0
      let at_ := mapAt s 0 0 (bits (tget 0 m.stg 1) 15 0) (5 / 32)
      laid s 0 = true ∧ m.op = 6 ∧ entBound s 0 0 = 5 ∧ kvTableUe s 0 0 [] = none ∧ handleCheck s 0 (taskTenant m.task) m.a = none ∧
      bitAt (entWord s 0 0 0) 61 = false ∧ 5 < 32 * f.maxp ∧ bits (tget 0 m.stg 1) 15 0 < f.nl ∧ (tget 0 m.stg 2).toNat = f.ktok ∧
      1 + f.ktok / 64 + 1 ≤ kvJfree s 0 ∧ quotaRoom s 0 (taskTenant m.task) = true ∧
      kvTableUe s 0 0 ((0, 5 / 32) :: (if m.sub = 1 then advancePlaces s 0 0 5 else [])) = none ∧
      engFetch s (some 0) m.core (taskTenant m.task) ((m.exts.head?.map (·.2)).getD {}) m.b.toNat f.ktok = (s, none, List.replicate 64 0) ∧
      at_ = (if q.1 = noPage then none else some 0) ∧ cntOf s 0 0 = q.2.1 ∧ cntOf s 0 1 = 0 ∧ bits (mreg s (.kvpool 0)) 63 40 = 2) ∧
    (let s := kvW (live 5) 0 0 0 4 tree1
     kvBadAt s 0 2 (pageOff s 0 0) (32 * 64) = none ∧ kvBadAt s 0 (sumPlace s 0 0).1 (sumPlace s 0 0).2.1 (sumPlace s 0 0).2.2 = none) ∧
    -- the checks in their order: the bound, a replay, a layer
    (firstFail [failIf (decide (entBound (kvW (live 32) 0 0 0 4 tree1) 0 0 = 32 * 1)) Cause.handleBound] = some Cause.handleBound ∧
      firstFail [failIf (decide (5 = 32)) Cause.handleBound, failIf (bitAt (entWord (kvW (2 ^ 61 + live 5) 0 0 0 4 tree1) 0 0 0) 61) Cause.kvBusy] =
        some Cause.kvBusy ∧
      firstFail [failIf false 0, failIf false 0, failIf (decide ((kvFmtOf (kvW (live 5) 0 0 0 4 tree1) 0).nl ≤ 1)) Cause.kvLayer] = some Cause.kvLayer) ∧
    -- an advance with and without a window
    (∀ win ∈ [0, 3], let s := kvW (live 5) (win * 2 ^ 20) 0 0 4 tree1
      entBound s 0 0 = 5 ∧ 5 < 32 * (kvFmtOf s 0).maxp ∧ (5 + 1) % 32 ≠ 0 ∧ entWin s 0 0 = win) := by
  refine ⟨?_, ?_, ?_, ?_⟩ <;> decide +kernel

/-- A whole page is offered: page 0 by a handle at the root, with a node of its ids or none, a layer unmapped, a count that is full, a tree that is full. -/
theorem witness_KvOffers :
    (∀ q ∈ [(0, 1, [tree1], 4), (0, 1, [], 4), (0, 1, [], 0), (noPage, 1, [], 4), (0, 65535, [], 4)],
      let s := kvW (live 32) 0 0 q.1 q.2.2.2 { tree1 with count := [(0, q.2.1)], nodes := (q.2.2.1.map fun (d : Die) => d.nodes).flatten }
      let pgs := (countUp 0 (kvFmtOf s 0).nl).map fun l => mapAt s 0 0 l (entBound s 0 0 / 32 - 1)
      laid s 0 = true ∧ 0 < bits (mreg s (.kvht 0)) 58 40 ∧ entTnode s 0 0 = 0 ∧ pgs = [if q.1 = noPage then none else some 0] ∧ cntOf s 0 0 = q.2.1 ∧
      (childOf s 0 0 0 (w32s (seenAt s 0 (kvEntry s 0 0).1 ((kvEntry s 0 0).2 + 128) 128))).isSome = !q.2.2.1.isEmpty ∧
      (bits (mreg s (.kvtree 0)) 31 0 ≤ (dieAt s 0).nodes.length ↔ q.2.2.2 = 0) ∧ (q.2.2.2 = 0 → victim s 0 0 = none)) := by
  decide +kernel

/-- A sum of one BF16 element over this package and package 5 in group 0; and the package that waits for the other. -/
def coll0 : Coll := { gid := 0, cmd := { eng0 9 0 with stg := [(0, 0x222000), (1, 1)] } }

/-- Rank 0 is this package. -/
def inColl (g : Nat) : State :=
  setMreg (setMreg { s0 with colls := [coll0], cyc := g } (.collgrp 0) (2 ^ 63)) (.collgrp 1) (2 ^ 63 + 5)

/-- Gather queue 0 of tenant 0: two records a batch, four slots in tier 2, a deadline of 5. -/
def ingress (g : GQueue) (t : Nat) : State :=
  setMreg (setMreg { State.reset with gq := [(0, g)], gts := t, hbmPower := 0 } (.gqcfg 0) (pack [(1, 63), (2, 39), (5, 7)]))
    (.gqarea 0) (pack [(2, 61), (4, 52)])

/-- A demand extent of the page at 2^29, or of one that no table maps. -/
def dmExt (va : Nat) : Ext := { v := true, len := 64, rd := true, dm := true, virt := va, pgsz := 3, virtual := true }

/-- A copy whose source is that extent, and the package where it waits. -/
def dmCpy (va : Nat) : CpyCmd := { cpy0 with src := dmExt va }
def dmState (va : Nat) : State :=
  setMreg { onCh { cmds := [dmCpy va] } with t5 := tables } .ttbase (5 * 2 ^ 61)

/-- What the walk of the mapped page finds. -/
theorem demand_found : translateExt (dmState (2 ^ 29)) 0 (dmExt (2 ^ 29)) =
    (dmState (2 ^ 29), .ok { dmExt (2 ^ 29) with tier := 3, base := 0, dm := false }) := pair_ok (by decide +kernel) (by decide +kernel)

/-- An answer that fails is known from its state and its cause. -/
theorem pair_error {ε α : Type} {s : State} {p : State × Except ε α} (h : p.1 = s) (k : p.2.toOption = none) : ∃ e, p = (s, .error e) := by
  obtain ⟨_, _ | _⟩ := p
  · exact ⟨_, by cases h; rfl⟩
  · cases k

theorem demand_missed : ∃ f, translateExt (dmState 0) 0 (dmExt 0) = (dmState 0, .error f) := pair_error (by decide +kernel) (by decide +kernel)

theorem memoryWf_tables (va : Nat) : memoryWf (dmState va) := fun i =>
  match i with
  | 5 => (by decide +kernel : Memory.wf tables = true)
  | 0 | 1 | 2 | 3 | 4 | _ + 6 => rfl

theorem witness_CollectivesRecordsAndDemandWalks :
    (let s := inColl 0
     let m := coll0.cmd
     let cfg := tget 0 m.stg 0
     let se := tget {} m.exts (bits cfg 19 16)
     let de := tget {} m.exts (bits cfg 23 20)
     let p : CollPart := ⟨0, 0x20, 1, [0, 0]⟩
     let sz := collBytes m.sub (collSize s 0) (tget 0 m.stg 1).toNat (collElt (bits cfg 13 8))
     coll0.gid < 256 ∧ m.res = none ∧ collRank s 0 = some 0 ∧ [p].length + 1 = collSize s 0 ∧
      (p.op = m.sub ∧ p.fmt = bits cfg 13 8 ∧ p.cnt = (tget 0 m.stg 1).toNat ∧ p.bytes.length = sz.1) ∧ m.sub ≠ copBarrier ∧
      extFree se = true ∧ extFree de = true ∧ de.tier = 0 ∧ s.widthBusy = [] ∧ (9, 0) ∉ s.engBad ∧ sz.1 ≠ 0 ∧ collSize s 0 ≠ 1 ∧
      -- the members arrive now, or have arrived
      (∀ q ∈ [(coll0, [p]), ({ coll0 with came := true, peers := [p] }, [])], let s := { s with colls := [q.1] }
        let s1 := collArrive s 0 q.2
        (s.colls.find? fun y => decide (y.gid = q.1.gid)) = some q.1 ∧ s.colls.count q.1 = 1 ∧
          (q.1.came = false → { q.1 with came := true, peers := q.2 } ∉ s.colls) ∧ collStoresOut s1 m se sz.1 = false ∧
          engFetch s1 none m.core (taskTenant m.task) se m.a.toNat sz.1 = (s1, none, [0, 0])) ∧
      (⟨1, 0x20, 1, [0, 0]⟩ : CollPart).op ≠ m.sub ∧
      ((inColl (2 ^ 26)).colls.find? fun y => decide (y.gid = 0) && !y.came) = some coll0 ∧ m.cyc + 2 ^ 26 ≤ (inColl (2 ^ 26)).cyc) ∧
    (kvLive State.reset 0 = 0 ∧ kvUsed (dieAt State.reset 0) = 0 ∧ kvLive (onDie {}) 0 ≠ 0) ∧
    (gqOn State.reset 0 = false ∧ gqOn (ingress {} 7) 0 = true ∧ stageOff (ingress {} 7) (gqTier (ingress {} 7) 0) = false ∧
      ({ State.reset with gqIn := [(0, 1, z16), (0, 0, z16)] } : State).gqIn = [(0, 1, z16), (0, 0, z16)] ∧ z16.length ≠ 64 ∧ (gqAt (ingress {} 7) 0).open_ = none ∧ gqFree (ingress {} 7) 0 = some 0 ∧
      2 ≤ gqN (ingress {} 7) 0 ∧
      (let r := natBytes 8 (2 ^ 63) ++ List.replicate 56 0
       let w := wordOf (leNat (r.take 8))
       r.length = 64 ∧ bitAt w 63 = true ∧ bits w 62 48 = 0 ∧ bits w 47 32 = gqTenant (ingress {} 7) 0) ∧
      tierHas (gqTier (ingress {} 7) 0) (gqBase (ingress {} 7) 0 + gqSlotOff (ingress {} 7) 0 0 + 64) 64 = true) ∧
    (∀ b : Fin 2, let s := ingress { open_ := some (0, 1, 7) } (12 + b.val)
     (gqAt s 0).open_ = some (0, 1, 7) ∧ gqD s 0 ≠ 0 ∧ (s.gts = 7 + gqD s 0 + 1 ↔ b = 1) ∧ gqOn s 0 = true ∧ 2 ≤ gqTier s 0 ∧ gqTier s 0 ≤ 5 ∧
      stageOff s (gqTier s 0) = false ∧ tierHas (gqTier s 0) (gqBase s 0 + gqSlotOff s 0 0) 64 = true) ∧
    (∀ va ∈ [0, 2 ^ 29], let s := dmState va
      let u : ExtUse := ⟨0, 0, 0, 0, 0, dmExt va⟩
      s.netRecs = [] ∧ demandUses s 0 0 = [u] ∧ u.e.virtual = true ∧ (tget {} (coreAt s 0).ch 0).cmds = [dmCpy va] ∧ (dmCpy va).task = u.task ∧
        (dmCpy va).src = u.e) := by
  refine ⟨?_, ?_, ?_, ?_, ?_⟩ <;> decide +kernel

/-! ### The network engine -/

/-- The network engine on, its ports with links, endpoint 0 open to tenant 0, and what else the state holds. -/
def net (s : State) : State :=
  let on := setMreg (setMreg s .netcfg (pack [(1, 63), (15, 57), (1, 53), (1, 41), (100, 0)])) (.nept 0) (pack [(1, 63), (3, 45), (15, 41)])
  [0, 1, 2, 3].foldl (fun s p => setMreg s (.npst p) 1) on

/-- The record's bytes: a message of 64 bytes from or to offset 0 of e2. -/
def recBytes : List Byte := bytesOf [pack [(1, 63), (2, 48)], 64, 0, 0, 0, 0, 0, 0]

/-- That record in slot 0 of the engine, and the same one not read yet. -/
def nrec (send : Bool) : NetRec :=
  { key := 1, send := send, tenant := 0, queue := 0, core := 0, seat := 0, task := 0, tco := 0, seq := 1, ext := e0, exts := [(2, e0)], off := 0 }

/-- The package with that record in the engine and its bytes in core 0's scratchpad. -/
def netAt (l : List NetRec) (ps : List Pdc) (bs : List Byte) (g : Nat) : State :=
  net { onK fun k => { k with spad := cellsPut 0 bs [] } with netRecs := l, pdcs := ps, gts := g }

/-- A PDC with a packet on its way. -/
def pdc0 (rod : Bool) (out : List OutPkt) : Pdc := { id := 0, tenant := 0, peer := 0, rod := rod, out := out, lastUse := 0 }

/-- The packet of the record's message. -/
def opkt (sent : Option Nat) (n : Nat) : OutPkt := { psn := 0, msg := 0, off := 0, len := 64, sentAt := sent, resends := n }

/-- The record once it has started. -/
def nrun (send : Bool) : NetRec := { nrec send with words := wordsOf recBytes, started := true }

/-- A record without V whose counter and entry words are these, in e2 or, in tier 3, e3. -/
def nfail (ce ee : Nat) : List Byte := bytesOf [0, 64, 0, ce, ee, 7, 0, 0]
def nrecF : NetRec := { nrec true with exts := [(2, e0), (3, { e0 with tier := 3 })] }

theorem witness_NetworkMessagesLeave :
    -- records that start
    (∀ send : Bool, let r := nrec send
      let s := netAt [r] [] recBytes 0
      let r' := { r with words := wordsOf recBytes }
      firstRec [] s.netRecs = some r ∧ netRec s r.key = some r ∧ extFree r.ext = true ∧ s.widthBusy = [] ∧ (8, 0) ∉ s.engBad ∧ r.cancel = false ∧
        engFetch s none r.core r.tenant r.ext r.off 64 = (s, none, recBytes) ∧ recCheck s r' = none ∧ s.pdcs = [] ∧
        (pdcFor s r.tenant (recPeer r') (recRod r')).1.isSome = true) ∧
    -- records that fail: alone, with an entry, with a counter of tier 0, with a counter of tier 3
    (∀ q ∈ [(0, 0), (0, 2 ^ 63 + 2 * 2 ^ 40), (2 ^ 63 + 2 * 2 ^ 40, 0), (2 ^ 63 + 3 * 2 ^ 40, 0)], let r := nrecF
      let s := netAt [r] [] (nfail q.1 q.2) 0
      let r' := { r with words := wordsOf (nfail q.1 q.2) }
      firstRec [] s.netRecs = some r ∧ netRec s r.key = some r ∧ extFree r.ext = true ∧ s.widthBusy = [] ∧ (8, 0) ∉ s.engBad ∧ r.cancel = false ∧
        engFetch s none r.core r.tenant r.ext r.off 64 = (s, none, nfail q.1 q.2) ∧ recCheck s r' = some Cause.netWrRsvd ∧ r.matched = none ∧ r.got = 0 ∧
        (∀ x ∈ s.netRecs, x.ends = 0 ∧ (x.key = r.key → x = r)) ∧
        recPlace r' (recW r' 3) 8 = (if q.1 = 0 then none else some (if q.1 = 2 ^ 63 + 2 * 2 ^ 40 then e0 else { e0 with tier := 3 }, 0)) ∧
        recPlace r' (recW r' 4) 16 = (if q.2 = 0 then none else some (e0, 0)) ∧ spadErr (coreAt s r.core) 0 (spadPlaces e0 0 8) = none ∧ s.wbuf = [] ∧
        memRead s none 3 0 8 = (s, none, List.replicate 8 0)) ∧
    extFree e0 = true ∧ extFree { e0 with tier := 3 } = true ∧
    -- a counter's increment is done
    (let r : NetRec := { nrec true with ends := 3 }
     let s := netAt [r] [] [] 0
     s.netRecs = [r] ∧ r.code = 0 ∧ s.cores ≠ [] ∧ (∀ c ∈ s.cores, ∀ a ∈ c.2.adds, a.1 ≠ r.key)) := by
  refine ⟨?_, ?_, ?_, ?_, ?_⟩ <;> decide +kernel

/-- Packets: in RUD and ROD, waiting, on their way, sent for the last time; acknowledgements of all, of none, of later ones, and with a mark. -/
theorem witness_PacketsAreSentAndAcknowledged :
    (∀ rod : Bool, ∀ o ∈ [opkt none 0, opkt (some 0) 0, opkt (some 0) 8], let r := nrun true
      let p := pdc0 rod [o]
      let s := netAt [r] [p] [] 100
      let up := (netPorts s p.peer).filter (netUp s)
      pdcAt s p.id = some p ∧ p.out = [o] ∧ s.netRecs = [r] ∧ netRec s r.key = some r ∧ netOn s = true ∧
        up = [0, 1, 2, 3] ∧ portFor s p o.psn = some (0 : Fin 4).val ∧ portFor s p o.psn ≠ some (3 : Fin 4).val ∧ lget 4 up (o.psn % up.length) = 0 ∧
        (o.sentAt = none → inFlight p < bits (mreg s .netcfg) 52 41) ∧
        (s.netRecs.find? fun r => r.send && r.started && decide (r.pdc = p.id) && decide (r.msg = o.msg) && decide (r.ends = 0)) = some r ∧
        (p.out.find? fun x => decide (x.psn = o.psn) && x.sentAt.isNone && !x.sacked) = (if o.sentAt = none then some o else none) ∧
        (p.out.find? fun x => decide (x.psn = o.psn) && !x.sacked) = some o ∧ s.widthBusy = [] ∧ extFree (recBuf r).1 = true ∧
        engFetch s none r.core r.tenant (recBuf r).1 ((recBuf r).2 + o.off) o.len = (s, none, List.replicate 64 0) ∧
        recPlace r (recW r 3) 8 = none ∧ recPlace r (recW r 4) 16 = none ∧ r.code = 0 ∧ (∀ x ∈ s.netRecs, x.ends = 0 ∧ (x.key = r.key → x = r)) ∧
        0 + netRto s ≤ s.gts ∧ p.prog + netRto s ≤ s.gts ∧ (p.out.map (·.psn)).Nodup ∧ (∀ x ∈ p.out, x.msg = r.msg) ∧ r.pdc = p.id) ∧
    ((opkt none 0).sentAt = none ∧ (opkt (some 0) 0).sentAt = some 0 ∧ (opkt (some 0) 0).resends < 8 ∧ 8 ≤ (opkt (some 0) 8).resends) ∧
    (let p := pdc0 false [opkt (some 0) 0]
     let s := netAt [nrun true] [p] [] 100
     let a : UAck := { addrLo := 0, addrHi := 0, rpid := 0, job := 0, port := 3, pdc := 0, cack := 1, sack := 0, nack := none, errs := [] }
     a.pdc = p.id ∧ a.port < 4 ∧ Machine.srcOf s a.addrLo a.addrHi a.rpid a.job = some p.peer ∧ a.nack = none ∧ (opkt (some 0) 0).psn < a.cack ∧
      ({ a with nack := some 0 } : UAck).nack = some (opkt (some 0) 0).psn ∧ ({ a with errs := [0] } : UAck).errs = [(opkt (some 0) 0).psn] ∧
      (opkt (some 0) 0).bad = false ∧ Machine.srcOf s a.addrLo a.addrHi a.rpid a.job ≠ some { p with peer := 1 }.peer ∧
      Machine.srcOf s 1 0 0 0 = none) ∧
    -- one later packet acknowledged, where NRT is 1; and where the packet has been resent so already
    (∀ sel : Bool, let o := { opkt (some 0) 0 with selDone := sel }
     let p := pdc0 false [o, { opkt (some 0) 0 with psn := 1 }]
     let s := netAt [nrun true] [p] [] 100
     let sack : Word := 2
     ((countUp 0 64).filter fun j => bitAt sack j && decide (o.psn < 0 + j)).length = 1 ∧ netNrt s = 1 ∧ (p.out.map (·.psn)).Nodup ∧ o ∈ p.out ∧
      o.sentAt.isSome = true ∧ o.sacked = false ∧ bitAt sack (o.psn - 0) = false ∧ (∀ x ∈ p.out, x.resends < 8) ∧ o.selDone = sel) ∧
    -- ROD: the same CACK again
    (let o := opkt (some 0) 0
     let p := { pdc0 true [o] with lastCack := some 0 }
     let s := netAt [nrun true] [p] [] 100
     p.lastCack = some 0 ∧ (∀ x ∈ p.out, 0 ≤ x.psn ∧ x.sacked = false ∧ x.resends < 8) ∧ p.sameCack + 1 = netNrt s ∧
      (∀ x ∈ s.netRecs, x.send = true → x.started = true → x.pdc = p.id → ∃ y ∈ p.out, y.msg = x.msg)) := by
  refine ⟨?_, ?_, ?_, ?_, ?_⟩ <;> decide +kernel

/-- A packet of a message of 64 bytes: a send, or a write into region 0. -/
def pkt (op addr : Nat) : Packet :=
  { addrLo := BitVec.ofNat 64 addr, addrHi := 0, rpid := 0, job := 0, port := 3, ecn := false, rod := false, psn := 0, msg := 0, op := op, tag := 0
    len := 64, off := 0, data := List.replicate 64 7 }

/-- Region 0: the first 64 KiB of a tier or of core 0's scratchpad, tenant 0, key 0; with a counter at 2^15 or without. -/
def withRgn (tier ct : Nat) (s : State) : State :=
  setMreg (setMreg (setMreg s (.nrgn 0) (pack [(1, 63), (tier, 44), (ct, 34)])) (.nrgn 2) 65536) (.nrgn 3) (2 ^ 15)

/-- A binding of tag 0 to gather queue 1 or to command queue 1. -/
def withBind (gather : Bool) (s : State) : State := setMreg s (.nbnd 0) (pack [(1, 63), (if gather then 1 else 0, 46), (1, 40)])

/-- A bound message whose last packet is there, bound for queue 1 with its launch ring in tier 5. -/
def bnd0 (rec : List Byte) : BoundMsg := { pdc := 0, msg := 0, nb := 0, total := 64, got := [(0, rec)], last := some (3, 0) }

def bndState (rec : List Byte) : State :=
  setMreg (setMreg { State.reset with hbmPower := 0, bound := [bnd0 rec], pdcs := [pdc0 false []] } (.nbnd 0) (2 ^ 40)) (.qring 1) (5 * 2 ^ 61)

/-- Packets that no source sends, that the engine does not serve, and that are answered: duplicates, early ones in ROD, and ones without a receive. -/
theorem witness_PacketsAreAnswered :
    (let s := netAt [] [] [] 0
     regsSorted s ∧ netOn s = true ∧ (pkt 0 1).port < 4 ∧ s.ckpt = none ∧ (pkt 0 1).ecn = false ∧ srcEntry s (pkt 0 1) = none ∧
      ({ pkt 0 0 with absent := true } : Packet).absent = true) ∧
    (∀ q ∈ [(false, 1, []), (false, 0, [1]), (true, 0, [])], let p := { pdc0 q.1 [] with cack := q.2.1, seen := q.2.2, refused := [5] }
      let s := netAt [] [p] [] 0
      let k := { pkt 0 0 with rod := q.1, psn := if q.2.1 = 0 then 1 else 0 }
      netOn s = true ∧ k.port < 4 ∧ s.ckpt = none ∧ k.ecn = false ∧ k.absent = false ∧ srcEntry s k = some 0 ∧
        bitAt (nept s 0 0) (if k.rod then 46 else 45) = true ∧ k.op < 3 ∧ pdcFor s (bits (nept s 0 0) 62 47) 0 k.rod = (some p, s) ∧ pdcAt s p.id = some p ∧
        (k.psn < p.cack ∨ k.psn ∈ p.seen ∨ (p.rod = true ∧ k.psn ≠ p.cack))) ∧
    (let p := pdc0 false []
     let s := netAt [] [p] [] 0
     p.seen = [] ∧ p.cack ≤ (pkt 0 0).psn ∧ bindingOf s p.tenant (pkt 0 0) = none ∧ bindingOf s p.tenant (pkt 1 0) = none ∧ p.rx = [] ∧
      matchRecv s p.tenant p.peer (pkt 0 0) = none ∧ matchRecv s p.tenant p.peer (pkt 1 0) = none) := by
  refine ⟨?_, ?_, ?_⟩ <;> decide +kernel

/-- A receive of 64 bytes takes the message, next in order or not; one of 32 is too short. -/
theorem witness_ReceivesAreMatched :
    (∀ rod : Bool, ∀ psn ∈ [0, 5], ∀ len ∈ [32, 64], let r := { nrun false with words := wordsOf (bytesOf [pack [(1, 63), (2, 48)], BitVec.ofNat 64 len, 0, 0, 0, 0, 0, 0]) }
      let p := pdc0 rod []
      let s := netAt [r] [p] [] 0
      let k := { pkt 0 0 with psn := if rod then 0 else psn, rod := rod }
      netOn s = true ∧ srcEntry s k = some 0 ∧ bitAt (nept s 0 0) (if k.rod then 46 else 45) = true ∧
        pdcFor s (bits (nept s 0 0) 62 47) 0 k.rod = (some p, s) ∧ pdcAt s p.id = some p ∧
        p.seen = [] ∧ p.cack ≤ k.psn ∧ (p.rod = true → k.psn = p.cack) ∧ k.op ≤ 1 ∧ bindingOf s p.tenant k = none ∧ p.rx = [] ∧
        matchRecv s p.tenant p.peer k = some r ∧ netRec s r.key = some r ∧ (∀ x ∈ s.netRecs, x.ends = 0 ∧ x.matched = none) ∧
        recPlace r (recW r 3) 8 = none ∧ recPlace r (recW r 4) 16 = none ∧ r.got = 0 ∧ k.off = 0 ∧ k.len = k.data.length ∧ recLen r = len ∧
        (recBuf r).1.tier = 0 ∧ extFree (recBuf r).1 = true) := by
  decide +kernel

/-- Writes into a region of the scratchpad or of tier 3, with a counter and without; and refused ones. -/
theorem witness_RegionsAreWritten :
    (∀ tier ∈ [0, 3], ∀ ct ∈ [0, 1], let p := pdc0 false []
      let s := withRgn tier ct (netAt [] [p] [] 0)
      let k := pkt 2 0
      netOn s = true ∧ srcEntry s k = some 0 ∧ bitAt (nept s 0 0) (if k.rod then 46 else 45) = true ∧
        pdcFor s (bits (nept s 0 0) 62 47) 0 k.rod = (some p, s) ∧ pdcAt s p.id = some p ∧ k.op = 2 ∧ s.rma = [] ∧ s.wbuf = [] ∧ k.off = 0 ∧
        k.len = k.data.length ∧ rmaRefused s p.tenant k = false ∧ bits (nrgn s (bits k.tag 63 56) 0) 46 44 = tier ∧
        (bitAt (nrgn s (bits k.tag 63 56) 0) 34 = true ↔ ct = 1) ∧
        tierHas 3 (bits (nrgn s (bits k.tag 63 56) 1) 39 0 + bits k.tag 39 0) k.len = true ∧ tierHas 3 (bits (nrgn s (bits k.tag 63 56) 3) 39 0) 8 = true) ∧
    rmaRefused (netAt [] [pdc0 false []] [] 0) (pdc0 false []).tenant (pkt 2 0) = true := by
  refine ⟨?_, ?_⟩ <;> decide +kernel

/-- Messages of one record and of 63 bytes for bindings to a gather queue, and to a command queue that takes them or does not. -/
theorem witness_BoundMessagesArrive :
    (∀ q ∈ [(true, false), (false, false), (false, true)], ∀ len ∈ [63, 64], let p := pdc0 false []
      let s := withBind q.1 (setMreg (netAt [] [p] [] 0) (.qcfg 1) (if q.2 then pack [(1, 43), (1, 41)] else 0))
      let k := { pkt 1 0 with len := len, data := List.replicate len 7 }
      netOn s = true ∧ srcEntry s k = some 0 ∧ bitAt (nept s 0 0) (if k.rod then 46 else 45) = true ∧
        pdcFor s (bits (nept s 0 0) 62 47) 0 k.rod = (some p, s) ∧ pdcAt s p.id = some p ∧ bindingOf s p.tenant k = some 0 ∧
        (len = 63 → k.len % 64 ≠ 0) ∧ (len = 64 → 1 * 64 = k.len) ∧ k.off = 0 ∧ k.data.length = k.len ∧ s.bound = [] ∧
        bitAt (nbnd s 0 0) 46 = q.1 ∧ bits (nbnd s 0 0) 45 40 = 1 ∧ queueTakes s 1 p.tenant = q.2) := by
  decide +kernel

/-- The delivery of a launch record, whichever memory word QRSV is mapped to or none; PDCs and ports. -/
theorem witness_NetworkMessagesArrive :
    (let z := List.replicate 64 (0 : Byte)
     let s := bndState z
     let q := bits (nbnd s (bnd0 z).nb 0) 45 40
     regsSorted s ∧ lget none (s.bound.map some) 0 = some (bnd0 z) ∧ pdcAt s (bnd0 z).pdc = some (pdc0 false []) ∧ s.wbuf = [] ∧ s.ckpt = none ∧ z.length = 64 ∧
      (ringOf (mreg s (.qring q))).1 = 5 ∧ stageOff s 5 = false ∧ stageOff s 2 = false ∧ stageOff s 3 = false ∧
      tierHas 5 ((ringOf (mreg s (.qring q))).2 + 64 * 0) 64 = true ∧ tierHas 5 ((ringOf (mreg s (.qring q))).2 + 64 * (ringSize s q - 1)) 64 = true) ∧
    ((pdc0 false []).lastUse + 2 ^ 26 ≤ ({ State.reset with gts := 2 ^ 26 } : State).gts ∧ State.reset.gts < (pdc0 false []).lastUse + 2 ^ 26 ∧
      State.reset.netRecs = []) ∧
    (let p := { pdc0 false [] with ports := [3], queues := [1] }
     let s := netAt [] [p] [] 0
     pdcAt s p.id = some p ∧ netUp s (3 : Fin 4) = true ∧ (s.pdcs.any fun x => x.ports.contains (3 : Fin 4).val && x.queues.contains 1) = true) ∧
    booted State.reset = false ∧ booted { State.reset with boot := .run 0 } = true ∧
    memoryWf (netAt [] [] [] 0) ∧ memoryWf (withRgn 3 1 (netAt [] [pdc0 false []] [] 0)) ∧ memoryWf (bndState (List.replicate 64 0)) := by
  refine ⟨?_, ?_, ?_, ?_, ?_, memoryWf_of _ rfl rfl rfl rfl, memoryWf_of _ rfl rfl rfl rfl, memoryWf_of _ rfl rfl rfl rfl⟩ <;> decide +kernel

/-- QRSV of queue 1 there: mapped to no word, or to one of another tier than the ring's. -/
theorem witness_qrsv_is_mapped_or_not :
    qrsvWord 1 = none ∨ ∃ j x, qrsvWord 1 = some (j, x) ∧ stageOff (bndState (List.replicate 64 0)) j = false ∧ Safety.Apart (j, x, 8) (5, 0, 64) := by
  unfold qrsvWord
  rcases Config.qrsvPlace 1 with _ | ⟨b, n⟩
  · exact .inl rfl
  · cases b
    · by_cases h : tierHas 2 (8 * n) 8 = true
      · exact .inr ⟨2, 8 * n, by simp [h], by decide +kernel, .inl (by simp)⟩
      · exact .inl (by simp [h])
    · by_cases h : tierHas 3 (8 * n) 8 = true
      · exact .inr ⟨3, 8 * n, by simp [h], by decide +kernel, .inl (by simp)⟩
      · exact .inl (by simp [h])

/-! ### Queues, faults and extents -/

/-- Queue 1 enabled with rings of 16 slots at the start of tier 3, and what it holds. -/
def onQ (x : Queue) (f : State → State) : State :=
  setMreg (setMreg (setMreg (setMreg (f { State.reset with queues := [(1, x)], dieEn := 15, t5 := tables }) (.qcfg 1) (2 ^ 43)) (.qring 1) (3 * 2 ^ 61))
    (.qcring 1) (3 * 2 ^ 61 + 4096)) (.qfring 1) (3 * 2 ^ 61 + 8192)

/-- A launch of one domain of one task. -/
def la (w4 w5 : Word) : Launch :=
  { newLaunch 0 [pack [(1, 63), (1, 32), (1, 0)], 0, 0, 0, w4, w5] with checked := true, hdr := [0, wordOf (2 ^ 29), 64] }

/-- Its page tables too. -/
def mapped (s : State) : State := setMreg s .ttbase (5 * 2 ^ 61)

theorem memoryWf_onQ (x : Queue) (f : State → State) (h2 : (onQ x f).t2 = []) (h3 : (onQ x f).t3 = []) (h4 : (onQ x f).t4 = [])
    (h5 : (onQ x f).t5 = tables) : memoryWf (onQ x f) := fun i => by
  match i with
  | 2 => exact (congrArg Memory.wf h2).trans rfl
  | 3 => exact (congrArg Memory.wf h3).trans rfl
  | 4 => exact (congrArg Memory.wf h4).trans rfl
  | 5 => exact (congrArg Memory.wf h5).trans (by decide +kernel)
  | 0 | 1 | _ + 6 => rfl

/-- A launch record with V and a field that must be zero set. -/
def recState (w : Nat) : State := onQ { st := 1 } fun s => { s with t3 := cellsPut 0 (natBytes 8 w) [] }

/-- The package that dispatches that launch next. -/
def toPlace : State := onQ { st := 1, launches := [{ la 0 0 with released := true }] } mapped

/-- The place found for its task: a free seat of core 0. -/
theorem place_found : ∃ sp s', spotsOf toPlace (needOf toPlace 1 { la 0 0 with released := true } 0) [(0, 1)] = ([sp], s') ∧ sp.core < 384 :=
  ⟨_, _, rfl, by decide +kernel⟩

/-- The code's pages. -/
theorem code_found : walkCode 0 300 toPlace (2 ^ 29) 64 none = (toPlace, .ok (3, 0)) := pair_ok (by decide +kernel) (by decide +kernel)

theorem no_exts : virtExts { la 0 0 with released := true } 0 [] toPlace = (toPlace, .ok []) := rfl

/-- The word a launch waits for, at 2^29 of the tenant's space. -/
def waiting (w : Nat) (errp : Bool) : State :=
  onQ { st := 1, launches := [{ la (2 ^ 29) 5 with recd := [pack [(1, 63), (if errp then 1 else 0, 62), (1, 32), (1, 0)], 0, 0, 0, wordOf (2 ^ 29), 5] }] }
    fun s => mapped { s with t3 := cellsPut 0 (natBytes 8 w) [] }

theorem word_found (w : Nat) (h : w ∈ [0, 5, 2 ^ 63]) :
    walk (waiting w true) 0 (2 ^ 29) none true false = (waiting w true, .ok ⟨3, 0, 3⟩) := by
  simp only [List.mem_cons, List.not_mem_nil, or_false] at h
  rcases h with rfl | rfl | rfl <;> exact pair_ok (by decide +kernel) (by decide +kernel)

/-- A launch of two tasks with an add that waits, to the word at 2^29. -/
def withSig (cap : Bool) : Launch :=
  { la 0 0 with recd := [pack [(1, 63), (2, 32), (1, 0)], 0, 0, wordOf (2 ^ 29), 0, 0], released := true, disp := 1, comp := 1, cap := cap, sigHeld := 1 }
def sigState (cap : Bool) : State := onQ { st := 1, launches := [withSig cap] } mapped

theorem sig_found : walk (sigState false) 0 (2 ^ 29) none false true = (sigState false, .ok ⟨3, 0, 3⟩) := pair_ok (by decide +kernel) (by decide +kernel)

theorem witness_LaunchesAreDispatched :
    (∀ w ∈ [0, 2 ^ 63, 2 ^ 63 + 2 ^ 52], let s := recState w
      let a := (ringOf (mreg s (.qring 1))).2 + 64 * ((mreg s (.qcons 1)).toNat % ringSize s 1)
      let ws := wordsOf (cellsAt s.t3 a 64)
      bitAt (mreg s (.qcfg 1)) 43 = true ∧ (queueAt s 1).st = 1 ∧ bits (mreg s (.qcfg 1)) 35 32 < 12 ∧ (ringOf (mreg s (.qring 1))).1 = 3 ∧
        tierHas 3 a 64 = true ∧ firstPoison s 3 (unitsOf a 64) = none ∧ bitAt (lget 0 ws 0) 63 = decide (w ≠ 0) ∧
        (mreg s (.qcons 1)).toNat + 1 < 2 ^ 32 ∧ (∀ l ∈ (queueAt s 1).launches, l.lseq ≠ (mreg s (.qcons 1)).toNat) ∧
        (lrecRsvd (newLaunch 0 ws) = true ↔ w = 2 ^ 63 + 2 ^ 52) ∧ s.wbuf = []) ∧
    -- no word, or one that has been seen; alone, or with SER behind another launch
    (∀ e ∈ [none, some true, some false], ∀ ser : Bool, let l := { la 0 0 with recd := [pack [(1, 63), (if ser then 1 else 0, 56), (1, 32), (1, 0)], 0, 0, 0, 0, 0], waited := e, lseq := 1 }
     let s := onQ { st := 1, launches := (if ser then [{ la 0 0 with disp := 1 }] else []) ++ [l] } id
     (queueAt s 1).st = 1 ∧ headLaunch s 1 = some l ∧ l.released = false ∧ l.stall = false ∧ lrWait l = 0 ∧ launchAt s 1 l.lseq = some l ∧
      ((bitAt (lrW l 0) 56 = true ∧ ∃ x ∈ (queueAt s 1).launches, (x.lseq + 1) % 2 ^ 32 = l.lseq) ↔ ser = true)) ∧
    (∀ w ∈ [0, 5, 2 ^ 63], let s := waiting w true
      ∃ l, (queueAt s 1).launches = [l] ∧ headLaunch s 1 = some l ∧ l.released = false ∧ l.stall = false ∧ bitAt (lrW l 0) 56 = false ∧ l.waited = none ∧
        launchAt s 1 l.lseq = some l ∧ qTenant s 1 = 0 ∧
        lrWait l = 2 ^ 29 ∧ readSync s (leafPlace ⟨3, 0, 3⟩ (2 ^ 29)).1 (leafPlace ⟨3, 0, 3⟩ (2 ^ 29)).2 = (s, some (wordOf w))) ∧
    -- a withheld add
    (∀ cap : Bool, let l := withSig cap
     let s := sigState cap
     (queueAt s 1).st = 1 ∧ (queueAt s 1).launches = [l] ∧ l.checked = true ∧ l.fail = 0 ∧ l.comp < lrNtask l ∧ l.sigHeld = 1 ∧ l.cap = cap ∧ l.sigWait = 0 ∧
      lrSig l = 2 ^ 29 ∧ qTenant s 1 = 0 ∧ leafPlace ⟨3, 0, 3⟩ (2 ^ 29) = (3, 0) ∧ s.wbuf = [] ∧ memRead s none 3 0 8 = (s, none, cellsAt s.t3 0 8)) ∧
    (let l := { la 0 0 with released := true, disp := 1, comp := 1 }
     let s := onQ { st := 1, launches := [l] } id
     let r := ringOf (mreg s (.qcring 1))
     let n := (mreg s (.qcseq 1)).toNat
     (queueAt s 1).launches = [l] ∧ launchDone s 1 l = true ∧ l.fail = 0 ∧ r.1 = 3 ∧ tierHas 3 (r.2 + 16 * (n % ringSize s 1)) 16 = true ∧ n + 1 < 2 ^ 32 ∧
      l.sigHeld = 0 ∧ l.sigWait = 0 ∧ l.checked = true ∧ stageOff s 3 = false ∧ s.wbuf = []) ∧
    queueOrder State.reset (queueReady State.reset) = [] ∧
    (let l := { la 0 0 with released := true }
     let s := toPlace
     let d := needOf s 1 l l.disp
     queueOrder s (queueReady s) = [1] ∧ swapReady s 1 = none ∧ (queueAt s 1).launches = [l] ∧ headLaunch s 1 = some l ∧ headReady l = true ∧
      findUnit s d (lrLvl l) (lrDsize l) (countUp 0 (384 / unitCores (lrLvl l))) = some [(0, 1)] ∧ d.peers = [] ∧ d.tenant = 0 ∧ l.exts = [] ∧
      ([(0, 1)].filter fun x : Nat × Nat => decide (x.2 ≠ 0)).all (fun x => syncReach s l (some (x.1 / 96)) []) = true ∧
      bits (hdW l 1) 56 0 = 2 ^ 29 ∧ bits (hdW l 2) 31 0 = 64) ∧
    memoryWf (recState 0) ∧ memoryWf (onQ { st := 1, launches := [{ la 0 0 with released := true, disp := 1, comp := 1 }] } id) := by
  refine ⟨?_, ?_, ?_, ?_, ?_, ?_, ?_, ?_, memoryWf_onQ _ _ rfl rfl rfl rfl⟩
  · decide +kernel
  · decide +kernel
  · intro w h
    simp only [List.mem_cons, List.not_mem_nil, or_false] at h
    rcases h with rfl | rfl | rfl <;> exact ⟨_, rfl, by decide +kernel⟩
  · decide +kernel
  · decide +kernel
  · decide +kernel
  · decide +kernel
  · refine memoryWf_onQ _ _ rfl rfl rfl rfl

/-- A queue with one task in seat 0 of core 0. -/
def oneTask (x : Queue) (t : Seat) (f : State → State) : State := onQ x fun s => f { s with cores := [(0, { seats := [(0, t)] })] }

/-- That task. -/
def qt (st : SeatSt) : Seat := { st := st, task := qTask }

/-- A queue being reset: its one task has stopped, and its launch has logged a unit of tier 2 or can no longer be rolled back. -/
def resetting (cap : Bool) : State :=
  oneTask { st := 3, launches := [{ l2 with cap := cap }] } { qt .stopped with stop := some (⟨false, 1, 0x44, none, 63, 2, 0, 0, 0, 0, 0, 0, 0⟩, true) } fun s =>
    { s with hbmPower := 0, dies := if cap then [(0, { wlog := [(2, 2, 1, 2, List.replicate 64 5)] })] else [] }

theorem witness_QueuesAreTornDownResetAndRestarted :
    (ckBusy (setMreg State.reset .ckctl 2) = true ∧ ckBusy State.reset = false ∧ (queueAt State.reset 1).st = 0) ∧
    (∀ st ∈ [SeatSt.ready, SeatSt.parked], ∀ w ∈ [some (Wait.word [0] 0 .eq), none], let t := { qt st with wait := w }
      let s := oneTask { st := 1 } t id
      ckBusy s = false ∧ (queueAt s 1).st = 1 ∧ s.netRecs = [] ∧ queueSeats s 1 = [(0, 0, t)] ∧ seatAt s 0 0 = t ∧ t.st = st ∧ t.wait = w ∧
        ((queueSeats s 1).map fun y => (y.1, y.2.1)).Nodup ∧ inFreeze (coreAt s 0) 0 = false) ∧
    (let t := { qt .ready with wait := some (Wait.word [0] 0 .eq) }
     let s := onQ { st := 1 } fun s => { s with cores := [(0, { seats := [(0, t)], cur := some 0, waits := [.cdrn 0 0 0 0 []] })] }
     queueSeats s 1 = [(0, 0, t)] ∧ seatAt s 0 0 = t ∧ inFreeze (coreAt s 0) 0 = true) ∧
    (let s := oneTask { st := 3 } (qt .ready) fun s => { s with gts := 65536 }
     (queueAt s 1).st = 3 ∧ (queueAt s 1).resetAt + 65536 ≤ s.gts ∧ queueSeats s 1 = [(0, 0, qt .ready)]) ∧
    (∀ st ∈ [2, 3], let s := onQ { st := st } id
      let r := ringOf (mreg s (.qcring 1))
      let k := (mreg s (.qcseq 1)).toNat
      queueSeats s 1 = [] ∧ (queueAt s 1).launches = [] ∧ s.wbuf = [] ∧ r.1 = 3 ∧ tierHas 3 (r.2 + 16 * (k % ringSize s 1)) 16 = true ∧ stageOff s 3 = false ∧
        k + 1 < 2 ^ 32 ∧ (queueAt s 1).st = st ∧ (queueAt s 1).killed = none) ∧
    (∀ cap ∈ [true, false], let s := resetting cap
      let l : Launch := { l2 with cap := cap }
      let r := ringOf (mreg s (.qcring 1))
      let a := r.2 + 16 * ((mreg s (.qcseq 1)).toNat % ringSize s 1)
      (queueAt s 1).st = 3 ∧ (queueAt s 1).killed = none ∧ allStopped s 1 = true ∧
        workSettled (dropWork s fun w => decide (taskQueue w = (1 : Fin 64).val)) 1 (fun _ => true) = true ∧ r.1 = 3 ∧ tierHas 3 a 16 = true ∧
        stageOff s 3 = false ∧ s.wbuf = [] ∧ (mreg s (.qcseq 1)).toNat + 1 < 2 ^ 32 ∧ (queueAt s 1).launches = [l] ∧ lrSig l = 0 ∧ l.stall = false) ∧
    (∀ cap ∈ [true, false], let s := resetting cap
      let l : Launch := { l2 with cap := cap }
      s.cores.map (·.1) = [0] ∧ s.cores.map (fun y => y.2.seats.map (·.1)) = [[0]] ∧ l.cap = cap ∧ (launchSeats s 1 l.lseq).isEmpty = false ∧
        tierHas 2 (64 * 2) 64 = true ∧ stageOff s 2 = false) ∧
    ((resetting true).dies.map fun d => d.2.wlog).flatten.filter (fun e => decide (e.2.2.1 = (1 : Fin 64).val) && decide (e.2.2.2.1 = l2.lseq)) =
      [(2, 2, (1 : Fin 64).val, l2.lseq, List.replicate 64 5)] := by
  refine ⟨?_, ?_, ?_, ?_, ?_, ?_, ?_, ?_⟩ <;> decide +kernel

/-- A stop record. -/
def sr : StopRec := ⟨false, 1, 0x44, none, 63, 2, 0, 0, 0, 0, 0, 0, 0⟩

/-- A queue with a record to write, its ring with room or full. -/
def ringAt (who : Option Nat) (dropped : Nat) (full : Bool) : State :=
  setMreg (oneTask { st := 1, recs := [(who, sr)], dropped := dropped } { qt .stopped with stop := some (sr, false) } id) (.qfseq 1)
    (if full then 16 else 0)

/-- A struck launch whose one logged unit lies in tier 2. -/
def struck (cap : Bool) : State :=
  setMreg (onQ { st := 1, launches := [{ l2 with cap := cap }], struck := [(2, 2, 64)] } fun s =>
    { s with hbmPower := 0, dies := [(0, { wlog := [(2, 1, 1, 2, List.replicate 64 5)] })] }) (.qrbk 1) 0x30

/-- The first write of launch 2 of queue 1 to a unit of tier 2: die 0's log has room, is full, or holds the unit. -/
def logging (size : Nat) (held : Bool) : State :=
  setMreg (onQ { st := 1, launches := [{ l2 with cap := true }] } fun s =>
    { s with hbmPower := 0, wbuf := [{ wr0 2 0 0 with owner := some 0, launch := some (1, 2) }]
             dies := if held then [(0, { wlog := [(2, 1, 1, 2, List.replicate 64 5)] })] else [] }) (.wlsize 0) (BitVec.ofNat 64 size)

theorem witness_FirstWritesAreLogged :
    ∀ q ∈ [(128, false), (0, false), (128, true)], let s := logging q.1 q.2
      let w := { wr0 2 0 0 with owner := some 0, launch := some (1, 2) }
      s.wbuf = [w] ∧ w.launch = some ((1 : Fin 64).val, 2) ∧ w.tier = 2 ∧ unitsOf w.addr w.bytes.length = [1] ∧ w.pin = none ∧ stageOff s w.tier = false ∧
        ((queueAt s 1).launches.any fun x => decide (x.lseq = 2)) = true ∧ hasCap s 1 2 = true ∧
        ((s.dies.any fun x => x.2.wlog.any fun e => decide (e.1 = w.tier) && decide (e.2.1 = 1) && decide (e.2.2.1 = 1) && decide (e.2.2.2.1 = 2)) = q.2) ∧
        (q.2 = false → (128 * (dieAt s 0).wlog.length < (mreg s (.wlsize 0)).toNat ↔ q.1 = 128)) := by
  decide +kernel

/-- A task of a launch that can be rolled back: its registers name stream 3, offsets 64 and the counts 1 and 0. -/
def capable : State :=
  { s2 with queues := [(0, { st := 1, launches := [{ newLaunch 0 [] with cap := true }] })]
            cores := [(0, { k0 with seats := [(0, { t0 with stg := stgs, a := [(3, 64), (4, 3), (5, 1)] })] })] }

theorem witness_IssueCostsTheCapability :
    (let s := capable
     let w := (cs s).task
     let e := extOf (cs s) (bits (stgOf (cs s) 8 0) 3 0)
     let cfg := stgOf (cs s) 9 0
     let k := (stgOf (cs s) 5 2).toNat
     hasCap s (taskQueue w) (taskLseq w) = true ∧ (srcAt s (r 4)).toNat = 3 ∧ (srcAt s (r 5)).toNat = 1 ∧ (srcAt s (r 0)).toNat = 0 ∧
      streamOpen s 3 = true ∧ 1 < (strAt s 3).n ∧ engCheck e [0, 2, 3] true false 64 0 (64 * 1) = none ∧ 1 ≤ netSlots s (taskTenant w) true ∧
      collElt (bits cfg 13 8) ≠ 0 ∧ 1 ≤ (stgOf (cs s) 9 1).toNat ∧ (stgOf (cs s) 9 1).toNat ≤ 2 ^ 32 ∧ resCheck (resOf (cs s) 9) = none ∧
      collRank s (bits cfg 7 0) ≠ none ∧ bits cfg 31 24 < collSize s (bits cfg 7 0) ∧ resCheck (resOf (cs s) 5) = none ∧
      64 ≤ k ∧ k ≤ 16384 ∧ 64 ∣ k ∧ engCheck (kextOf (cs s)) [0] true false 64 0 k = none) ∧
    Readable capable [r 4, r 5] := ⟨by decide +kernel, fun h => absurd h (by simp [anyFi, isFi])⟩

theorem witness_FaultRecordsAndRollback :
    (∀ who ∈ [none, some 0], ∀ dropped ∈ [0, 3], let s := ringAt who dropped false
      let a := (ringOf (mreg s (.qfring 1))).2 + 64 * ((mreg s (.qfseq 1)).toNat % ringSize s 1)
      regsSorted s ∧ (queueAt s 1).recs = (who, sr) :: [] ∧ ringFull s 1 = false ∧ (queueAt s 1).stops = [] ∧ (ringOf (mreg s (.qfring 1))).1 = 3 ∧
        tierHas 3 a 64 = true ∧ (mreg s (.qfseq 1)).toNat + 1 < 2 ^ 32 ∧ (queueAt s 1).dropped = dropped ∧ (seatAt s 0 0).stop = some (sr, false) ∧
        stageOff s 3 = false ∧ s.wbuf = []) ∧
    (∀ who ∈ [none, some 0], let s := ringAt who 0 true
      (queueAt s 1).recs = (who, sr) :: [] ∧ ringFull s 1 = true ∧ (mreg s (.qflost 1)).toNat + 1 < 2 ^ 32) ∧
    (∀ cap : Bool, let s := struck cap
      let l : Launch := { l2 with cap := cap }
      regsSorted s ∧ (queueAt s 1).struck = [(l.lseq, 2, 64)] ∧ (queueAt s 1).launches = [l] ∧ (queueAt s 1).st = 1 ∧ queueSeats s 1 = [] ∧ s.netRecs = [] ∧
        s.wbuf = [] ∧ (queueAt s 1).resume = [] ∧ l.cap = cap ∧ l.rolls < bits (mreg s (.qrbk 1)) 7 4 ∧ stageOff s 2 = false ∧ launchAt s 1 l.lseq = some l ∧
        ((s.dies.map fun d => d.2.wlog).flatten.filter fun e => decide (e.2.2.1 = 1) && decide (e.2.2.2.1 = l.lseq)) =
          [(2, 1, 1, l.lseq, List.replicate 64 5)] ∧ tierHas 2 64 64 = true) ∧
    (∀ i, Memory.wf (tierMem (ringAt none 0 false) i) = true) ∧ ∀ i, Memory.wf (tierMem (struck true) i) = true := by
  refine ⟨by decide +kernel, by decide +kernel, fun cap => ?_, fun i => ?_, fun i => ?_⟩
  · cases cap <;> refine ⟨?_, ?_, ?_, ?_, ?_, ?_, ?_, ?_, ?_, ?_, ?_, ?_, ?_, ?_⟩ <;> decide +kernel
  all_goals
    match i with
    | 0 | 1 | 2 | 3 | 4 | 5 => decide +kernel
    | _ + 6 => rfl

theorem witness_ResumeReturnsFromAStop :
    ∀ w ∈ [true, false], let s := oneTask { st := 1 } { qt .stopped with stop := some (sr, w) } id
      let x := seatAt s 0 0
      x.st = .stopped ∧ x.retire = none ∧ x.swapReq = false ∧ x.stop = some (sr, w) := by decide +kernel

/-- A save area at the start of tier 3 for seat 0 of core 0. -/
def saved (t : Seat) : State := setMreg (oneTask { st := 1 } t id) (.ssave 0) (3 * 2 ^ 61)

/-- A launch whose one task is swapped out. -/
def lsw : Launch := { la 0 0 with lseq := 2, released := true, disp := 1 }

/-- That task with its image: V, a change in word 1, or a failed unit. -/
def swp : Swapped :=
  { area := 0x6000000000000000, len := 64, words := wordsOf (bytesOf [0x8000000000000000, qTask, 0, 0, 0, 0, 0, 0]), seat := qt .stopped, scratch := [], tile := []
    tg := [], acc := [], w0 := [], w1 := [], sw0 := [], sw1 := [], tag0 := 0, tag1 := 0, sa := [], d := [], seqr := none }

def swpState (w1 : Word) (ue : Bool) : State :=
  onQ { st := 1, launches := [lsw], resume := [swp] } fun s =>
    mapped { s with t3 := cellsPut 0 (bytesOf [0x8000000000000000, w1]) [], poison := if ue then [(3, 0)] else [] }

theorem swap_place : ∃ sp s', spotsOf (swpState qTask false) (needOf (swpState qTask false) (1 : Fin 64) lsw (taskDom swp.seat)) [(0, 1)] = ([sp], s') := ⟨_, _, rfl⟩

theorem swap_code : walkCode 0 300 (swpState qTask false) (2 ^ 29) 64 none = (swpState qTask false, .ok (3, 0)) :=
  pair_ok (by decide +kernel) (by decide +kernel)

theorem swap_exts : virtExts lsw 0 lsw.exts (swpState qTask false) = (swpState qTask false, .ok []) := rfl

theorem witness_TasksAreStoppedKilledAndSwapped :
    (∀ st ∈ [SeatSt.ready, SeatSt.parked], let s := oneTask { st := 1 } (qt st) id
      (seatAt s 0 0).retire = none ∧ (seatAt s 0 0).st = st ∧ (seatAt s 0 0).wait = none ∧ pendingTraps (coreAt s 0) 0 = []) ∧
    (let t := { qt .ready with wait := some (Wait.word [0] 0 .eq) }
     let s := oneTask { st := 1 } t id
     (seatAt s 0 0).st = .ready ∧ (seatAt s 0 0).wait.isSome = true ∧ (seatAt s 0 0).retire = none ∧ pendingTraps (coreAt s 0) 0 = []) ∧
    (let x := seatAt (oneTask { st := 1 } { qt .stopped with stop := some (sr, true) } id) 0 0
     x.retire = none ∧ x.st = .stopped ∧ x.stop = some (sr, true)) ∧
    (∀ q ∈ [true, false], let s := oneTask { st := 1 } { qt .stopped with stop := some (sr, true), swapReq := q } id
      let x := seatAt s 0 0
      x.st = .stopped ∧ x.retire = none ∧ x.swapReq = q ∧ x.stop ≠ none ∧ gangOf s x = [(0, 0, x)] ∧ saveOk (mreg s (.ssave 0)) = false) ∧
    (let s := saved { qt .stopped with swapReq := true }
     gangOf s (seatAt s 0 0) = [(0, 0, seatAt s 0 0)] ∧ saveOk (mreg s (.ssave 0)) = true) ∧
    ((seatAt (saved (qt .swapping)) 0 0).st = .swapping ∧ quiet (saved (qt .swapping)) 0 0 = true ∧ saveOk (mreg (saved (qt .swapping)) (.ssave 0)) = true ∧
      (saved (qt .swapping)).wbuf = []) ∧
    (swapGangs (swpState 5 true) 1 = [[swp]] ∧ gangGo (swpState 5 true) [swp] = true ∧ gangUe (swpState 5 true) [swp] = true ∧ swp.seat.slots = [] ∧
      ∀ l ∈ (queueAt (swpState 5 true) 1).launches, lrSig l = 0) ∧
    (swapGangs (swpState 5 false) 1 = [[swp]] ∧ gangGo (swpState 5 false) [swp] = true ∧ gangUe (swpState 5 false) [swp] = false ∧
      gangBad (swpState 5 false) [swp] = [swp]) ∧
    (swapGangs (swpState qTask false) 1 = [[swp]] ∧ gangGo (swpState qTask false) [swp] = true ∧ gangUe (swpState qTask false) [swp] = false ∧
      gangBad (swpState qTask false) [swp] = []) ∧
    (let s := swpState qTask false
     let d := needOf s 1 lsw (taskDom swp.seat)
     queueOrder s (queueReady s) = [1] ∧ launchAt s 1 (taskLseq swp.seat.task) = some lsw ∧ lsw.stall = false ∧ d.peers = [] ∧ d.tenant = 0 ∧
      findUnit s d (lrLvl lsw) 1 (countUp 0 (384 / unitCores (lrLvl lsw))) = some [(0, 1)] ∧
      bits (hdW lsw 1) 56 0 = 2 ^ 29 ∧ bits (hdW lsw 2) 31 0 = 64) ∧
    ∀ i, Memory.wf (tierMem (saved (qt .swapping)) i) = true := by
  refine ⟨?_, ?_, ?_, ?_, ?_, ?_, ?_, ?_, ?_, ?_, fun i => ?_⟩
  · decide +kernel
  · decide +kernel
  · decide +kernel
  · decide +kernel
  · decide +kernel
  · decide +kernel
  · decide +kernel
  · decide +kernel
  · decide +kernel
  · decide +kernel
  match i with
  | 0 | 1 | 2 | 3 | 4 | 5 => decide +kernel
  | _ + 6 => rfl

/-- Scratchpad offsets 0 to 4,095 of core 0 are named by XRBASE and XRLEN; the extents of a seat are those. -/
def guarded (es : Tbl Ext) (f : State → State) : State :=
  setMreg (setMreg (f { State.reset with cores := [(0, { seats := [(0, { qt .ready with ext := es })] })], t5 := tables }) .xrlen 4096)
    .ttbase (5 * 2 ^ 61)

/-- A write of XRCTL: GO, an operation, the scratchpad of core 0, or the first bytes of tier 3. -/
def xrWord (op tier : Nat) : Word := wordOf (tier * 2 ^ 61 + op * 16 + 1)

/-- A virtual extent of tier 3 that has been revoked. -/
def rvExt : Ext := { v := true, len := 64, rd := true, tier := 3, virt := 2 ^ 29, pgsz := 3, virtual := true, rv := true }

/-- A copy that has met a revoked source. -/
def heldCpy : CpyCmd := { cpy0 with src := { e0 with rv := true } }

/-- What the refresh finds. -/
theorem refresh_found :
    let s := guarded [(0, rvExt)] id
    let s1 := setMreg s .xrctl (setBits (setBits (setBits (xrWord 2 3) 0 0 0) 34 8 0) 1 1 0)
    translateExt s1 0 rvExt = (s1, .ok { rvExt with rv := false, base := 0 }) := pair_ok (by decide +kernel) (by decide +kernel)

theorem witness_ExtentsAreRevokedAndRefreshed :
    (∀ op ∈ [1, 2, 3], ∀ tier ∈ [0, 3], let s := guarded [(0, rvExt)] id
      let v := xrWord op tier
      bitAt v 0 = true ∧ ckBusy s = false ∧ bitAt (mreg s .xrctl) 1 = false ∧ bits v 63 61 < 6 ∧ bits v 7 4 = op) ∧
    (∀ w ∈ [[], [wr0 3 0 0]], let op := xrOp State.reset (xrWord 1 3)
      let s := guarded [] fun s => { s with xr := some { op with len := 4096 }, wbuf := w }
      s.xr = some { op with len := 4096 } ∧ underWay s { op with len := 4096 } = !w.isEmpty) ∧
    (let s := guarded [(0, rvExt)] id
     let v := xrWord 2 3
     let u : ExtUse := ⟨0, 0, qTask, 0, 0, rvExt⟩
     s.netRecs = [] ∧ s.streams = [] ∧ ((allUses s).filter fun u => u.e.rv && covers s (xrOp s v) u.core u.tenant u.e).eraseDups = [u] ∧ u.e.virtual = true ∧
      (seatAt s u.core (0 : Nat)).task = u.task ∧ extOf (seatAt s u.core (0 : Nat)) 0 = u.e) ∧
    (let s := guarded [] fun s => { s with cores := [(0, { ch := [(0, { cmds := [heldCpy] })] })] }
     let k : Core := { ch := [(0, { cmds := [heldCpy] })] }
     s.cores = [((0 : Fin 384).val, k)] ∧ (tget {} k.ch 0).cmds = [heldCpy] ∧ allEng s = [] ∧ s.streams = [] ∧ s.netRecs = [] ∧ heldCpy.code = 0 ∧ heldCpy.acks = [] ∧
      cpyAbandon s (xrOp s (xrWord 3 0)) 0 0 heldCpy = some (2, 0)) ∧
    ∀ h, h ≠ 0 → (tget {} ({ ch := [(0, { cmds := [heldCpy] })] } : Core).ch h).cmds = [] := by
  refine ⟨?_, ?_, ?_, ?_, fun h k => ?_⟩
  iterate 4 decide +kernel
  simp [tget, tfind, k]

/-! ### The package -/

/-- A flash with a manifest of one image, a configuration record that turns on every die and stack, and nothing else. -/
def flash0 : List Host.Cell :=
  [(0, 0x4D46535453340001), (12, 1), (16, 8192), (24, 3780), (8192, 0x4346475253340001), (8200, 15 + 15 * 256)].foldl
    (fun m p => cellsPut p.1 (natBytes 8 p.2) m) []

/-- The package with that flash, and as the boot has derived the RPA key. -/
def booting : State := { State.reset with flash := flash0 }
def booting1 : State := 
  { booting with tlatch := false, rpaKey := Config.sha3_256 (digestBytes Config.deviceSecret ++ textBytes [0x72, 0x70, 0x61]) }

/-- When the signatures and the image's digest verify (the hash, the signature check and the root key are opaque: log 7), the
manifest, the image and the configuration record of that flash are accepted. -/
theorem witness_an_accepted_boot
    (hr : Config.sha3_256 (cellsAt flash0 (maniLen booting 0) 1312) = Config.rootDigest)
    (hm : Config.mlDsaVerify (cellsAt flash0 (maniLen booting 0) 1312)
      (digestBytes (Config.sha3_256 (cellsAt flash0 0 (maniLen booting 0 + 1312)))) (cellsAt flash0 (maniLen booting 0 + 1312) 2420) = true)
    (hl : Config.imageLength (cellsAt flash0 32 48) = 0)
    (hi : digestBytes (Config.sha3_256 []) = cellsAt flash0 48 32)
    (hc : Config.mlDsaVerify (cellsAt flash0 8240 1312) (digestBytes (Config.sha3_256 (cellsAt flash0 8192 1360))) (cellsAt flash0 9552 2420) = true) :
    booting.boot = .rom ∧ maniOk booting 0 = true ∧
    loadImages 0 (List.range (flashNat booting 12 4)) booting1 = (memStrong booting1 5 0 [], true) ∧
    configOk (memStrong booting1 5 0 []) (flashNat booting 16 8) (flashNat booting 24 8) = true := by
  have n1 : flashNat booting 12 4 = 1 := by decide +kernel
  have n2 : flashNat booting 16 8 = 8192 := by decide +kernel
  have n3 : flashNat booting 24 8 = 3780 := by decide +kernel
  refine ⟨by decide +kernel, ?_, ?_, ?_⟩
  · simp only [maniOk, Bool.and_eq_true, decide_eq_true_eq]
    exact ⟨⟨⟨⟨⟨by decide +kernel, by decide +kernel⟩, by decide +kernel⟩, hr⟩, hm⟩, by decide +kernel⟩
  · have e1 : flashNat booting1 32 8 = 0 := by decide +kernel
    have e2 : flashNat booting1 40 8 = 0 := by decide +kernel
    have hl' : Config.imageLength (cellsAt booting1.flash 32 48) = 0 := hl
    have hi' : digestBytes (Config.sha3_256 []) = cellsAt (memStrong booting1 5 0 []).flash 48 32 := hi
    rw [n1]
    show loadImages 0 [0] booting1 = _
    simp only [loadImages, Nat.zero_add, Nat.mul_zero, Nat.add_zero, e1, e2, hl', Nat.reduceAdd]
    rw [if_pos (by exact hi')]
    rfl
  · rw [n2, n3]
    simp only [configOk, Bool.and_eq_true, decide_eq_true_eq]
    exact ⟨⟨⟨⟨⟨⟨⟨by decide, by decide +kernel⟩, by decide +kernel⟩, by decide +kernel⟩, by decide +kernel⟩, by decide +kernel⟩, hc⟩, by decide +kernel⟩

/-- A flash whose manifest B has one image and no configuration record. -/
def bootB : State :=
  { State.reset with flash := [(0x01000000, 0x4D46535453340001), (0x0100000C, 1)].foldl (fun m p => cellsPut p.1 (natBytes 8 p.2) m) [] }

/-- When its signature verifies, that manifest is the one used; its configuration record is not accepted, and its image agrees if its digest does. -/
theorem witness_a_failing_boot
    (hr : Config.sha3_256 (cellsAt bootB.flash (0x01000000 + maniLen bootB 0x01000000) 1312) = Config.rootDigest)
    (hm : Config.mlDsaVerify (cellsAt bootB.flash (0x01000000 + maniLen bootB 0x01000000) 1312)
      (digestBytes (Config.sha3_256 (cellsAt bootB.flash 0x01000000 (maniLen bootB 0x01000000 + 1312))))
      (cellsAt bootB.flash (0x01000000 + maniLen bootB 0x01000000 + 1312) 2420) = true)
    (hl : Config.imageLength (cellsAt bootB.flash (0x01000000 + 32) 48) = 0) :
    bootB.boot = .rom ∧ maniOk bootB 0 = false ∧ maniOk bootB 0x01000000 = true ∧ flashNat bootB (0x01000000 + 12) 4 = 1 ∧
    (loadImages 0x01000000 [0] bootB).2 = decide (digestBytes (Config.sha3_256 []) = cellsAt bootB.flash (0x01000000 + 48) 32) ∧
    ∀ s2 : State, s2.flash = bootB.flash → configOk s2 (flashNat s2 (0x01000000 + 16) 8) (flashNat s2 (0x01000000 + 24) 8) = false := by
  refine ⟨rfl, ?_, ?_, by decide +kernel, ?_, fun s2 h => ?_⟩
  · simp only [maniOk, Bool.and_eq_false_iff]; exact Or.inl (Or.inl (Or.inl (Or.inl (Or.inl (by decide +kernel)))))
  · simp only [maniOk, Bool.and_eq_true, decide_eq_true_eq]
    exact ⟨⟨⟨⟨⟨by decide +kernel, by decide +kernel⟩, by decide +kernel⟩, hr⟩, hm⟩, by decide +kernel⟩
  · simp only [loadImages, Nat.mul_zero, Nat.add_zero, hl]
    by_cases h : digestBytes (Config.sha3_256 []) = cellsAt bootB.flash (0x01000000 + 48) 32
    · rw [if_pos (by exact h)]; exact (decide_eq_true h).symm
    · rw [if_neg (by exact h)]; exact (decide_eq_false h).symm
  · have e : flashNat s2 (0x01000000 + 24) 8 = 0 := by
      rw [show flashNat s2 (0x01000000 + 24) 8 = flashNat bootB (0x01000000 + 24) 8 by simp only [flashNat, h]]; decide +kernel
    rw [configOk, e]; rfl

/-- The package with the attestation controller busy or not, tripped or not. -/
def atState (busy trip : Bool) : State := { setMreg State.reset .atctl (if busy then 4 else 0) with tripped := trip, keysUp := true }

theorem witness_ThePackageBootsAndIsMeasured :
    (regsSorted State.reset ∧ State.reset.boot = .rom ∧ ({ State.reset with boot := .halted } : State).boot ≠ .rom ∧ maniOk State.reset 0 = false ∧
      maniOk State.reset 0x01000000 = false) ∧
    (∀ busy trip : Bool, let s := atState busy trip
      regsSorted s ∧ quoteBusy s = busy ∧ s.tripped = trip ∧ s.keysUp = true) ∧
    (({ atState true false with pendExt := [(7, 5)] } : State).pendExt = [((7 : Nat), (5 : BitVec 256))]) ∧
    -- inputs that trip, with ERASE and RST each on and off, or are not enabled; the write of EPOCH and TLATCH
    (∀ v ∈ [0xF, 0x1F, 0x2F, 0x3F], let s := setMreg State.reset .alcfg (wordOf v)
      ((8 : BitVec 4).toNat &&& bits (mreg s .alcfg) 3 0) ≠ 0 ∧ ((0 : BitVec 4).toNat &&& bits (mreg s .alcfg) 3 0) = 0 ∧
        bitAt (mreg s .alcfg) 4 = decide (v = 0x1F ∨ v = 0x3F) ∧ bitAt (mreg s .alcfg) 5 = decide (v = 0x2F ∨ v = 0x3F)) ∧
    (8 : BitVec 4).toNat &&& bits (mreg (setMreg State.reset .alcfg 7) .alcfg) 3 0 = 0 ∧ (8 : BitVec 4) ≠ 0 ∧
    (State.reset.rpaWrite = none ∧ ∀ b : Bool, ({ State.reset with rpaWrite := some b } : State).rpaWrite = some b) := by
  refine ⟨?_, ?_, ?_, ?_, ?_, ?_, ?_⟩
  · refine ⟨List.Pairwise.nil, rfl, by decide +kernel, ?_, ?_⟩ <;>
      (simp only [maniOk, Bool.and_eq_false_iff]; exact Or.inl (Or.inl (Or.inl (Or.inl (Or.inl (by decide +kernel))))))
  · intro busy trip
    cases busy <;> cases trip <;> decide +kernel
  all_goals decide +kernel

/-- A checkpoint that has ended, or that is gathering, with one task. -/
def ck (step g : Nat) (t : Seat) : State := { oneTask {} t id with ckpt := some (step, 0), gts := g }

theorem witness_PowerAndCheckpoints :
    (let s := { s0 with dieEn := 15 }
     let r := State.reset
     let v : Word := 1 + 2 * 8 + 4 * 32
     regsSorted s ∧ bitAt v 0 = true ∧ ckBusy s = false ∧ s.powerBusy = none ∧ bits v 7 5 < 5 ∧ bits v 4 3 = 2 ∧ powerRefused s (bits v 7 5) = true ∧
      powerRefused r (bits v 7 5) = false ∧ ckBusy r = false ∧ r.powerBusy = none) ∧
    (({ State.reset with powerBusy := some (3, 2) } : State).powerBusy = some ((3 : Fin 4).val, 2) ∧
      ({ State.reset with powerBusy := some (4, 2) } : State).powerBusy = some (4, 2)) ∧
    (let s := setMreg State.reset .alcfg 0xF
     bits (mreg s .ttrip) 15 0 < (0xFFFF : BitVec 16).toNat ∧ bitAt (mreg s .alcfg) 3 = true ∧ bitAt (mreg s .alcfg) 5 = false ∧
      (0 : BitVec 16).toNat ≤ bits (mreg s .ttrip) 15 0) ∧
    (∀ st ∈ [SeatSt.ready, SeatSt.parked], ∀ w ∈ [some (Wait.word [0] 0 .eq), none], let x := { qt st with wait := w }
      let s := oneTask {} x id
      regsSorted s ∧ bitAt (1 : Word) 0 = true ∧ ckBusy s = false ∧ bits (1 : Word) 3 2 = 0 ∧ s.streams = [] ∧ allSeats s = [(0, 0, x)] ∧
        x.st = st ∧ x.retire = none ∧ x.wait = w ∧ inFreeze (coreAt s 0) 0 = false) ∧
    (let s := ck 0 65536 (qt .ready)
     s.ckpt = some (0, 0) ∧ 0 + 65536 ≤ s.gts ∧ allSeats s = [(0, 0, qt .ready)]) ∧
    (let s := ck 0 0 (qt .stopped)
     s.ckpt = some (0, 0) ∧ ckptQuiet s = true ∧ s.wbuf = [] ∧ s.ckptWait = []) ∧
    (let s := ck 2 0 (qt .stopped)
     s.ckpt = some (2, 0) ∧ ckBusy s = false ∧ allSeats s = [(0, 0, qt .stopped)] ∧ (qt .stopped).stop = none ∧ (qt .stopped).retire = none) ∧
    (let i : CkptImage := ⟨2 ^ 16, [0, 0], [], [], [], []⟩
     let s := { State.reset with ckptImage := [i] }
     let v : Word := 1 + 2 * 4 + 0x10000
     bitAt v 0 = true ∧ ckBusy s = false ∧ bits v 3 2 = 2 ∧ (∀ q ∈ s.queues, q.2.st = 0) ∧ bits v 60 16 * 2 ^ 16 = 2 ^ 16 ∧
      (s.ckptImage.find? fun i => decide (i.off = 2 ^ 16)).map (·.off) = some (2 ^ 16) ∧
      (countUp (2 ^ 16) i.bytes.length).map (obsByte s none 4) = i.bytes ∧ firstPoison s 4 (unitsOf (2 ^ 16) i.bytes.length) = none) := by
  refine ⟨?_, ?_, ?_, ?_, ?_, ?_, ?_, ?_⟩ <;> decide +kernel

theorem witness_ManagementWritesAndPackageReset :
    regsSorted State.reset ∧ regExists (.qcfg 64) = false ∧ regExists .hbmhot = true ∧ regExists (.grant 24575) = true ∧
      regExists .fabcfg = true ∧ regExists (.rt 1023) = true ∧ fabricBusy State.reset = false ∧ regExists (.gqcfg 15) = true ∧
      (∀ op ∈ [1, 2, 3], bits (wordOf (op * 16)) 7 4 = op) ∧ (∀ op ∈ [0, 2], bits (wordOf (op * 4)) 3 2 = op) ∧ bitAt (1 : Word) 0 = true ∧
      bitAt (0 : Word) 0 = false ∧ State.reset.netRecs.length < 4096 := by
  refine ⟨List.Pairwise.nil, ?_, ?_, ?_, ?_, ?_, ?_, ?_, ?_, ?_, ?_, ?_, ?_⟩ <;> decide

/-- QRSV there: no word, or one of a tier that answers. -/
theorem witness_qrsv_answers (q : Fin 64) : qrsvWord q = none ∨ ∃ j x, qrsvWord q = some (j, x) ∧ stageOff { State.reset with hbmPower := 0 } j = false := by
  rcases h : qrsvWord q with _ | ⟨j, x⟩
  · exact .inl rfl
  · exact .inr ⟨j, x, rfl, by simp [stageOff]⟩

/-- The states of the other witnesses have their registers in order and their stores in form. -/
theorem states_in_form : regsSorted (onDie {}) ∧ regsSorted (ingress {} 7) ∧ regsSorted (dmState 0) ∧ regsSorted (dmState (2 ^ 29)) ∧
    memoryWf (ingress {} 7) ∧ memoryWf (dmState 0) ∧ memoryWf (ck 0 0 (qt .stopped)) := by
  refine ⟨by decide +kernel, by decide +kernel, by decide +kernel, by decide +kernel, memoryWf_of _ rfl rfl rfl rfl, memoryWf_tables _, fun i => ?_⟩
  match i with
  | 0 | 1 | 2 | 3 | 4 | 5 => decide +kernel
  | _ + 6 => rfl

/-! ### Worked examples of the spec -/

/-- The example behind R41 (02_numbers.md): 250.0 and 260.0 to binary8p4sf and binary8p4se. -/
theorem test_convert_250 : to8 0x04 .rne (val32 0x437A0000) = (0x80, fOF ||| fNX) ∧ to8 0x04 .srne (val32 0x437A0000) = (0x7F, fSAT ||| fNX) ∧
    to8 0x04 .rtz (val32 0x437A0000) = (0x7F, fNX) ∧ to8 0x0C .rne (val32 0x437A0000) = (0x7F, fOF ||| fNX) := by decide +kernel

/-- The example behind R41: 260.0 overflows under RTZ. -/
theorem test_convert_260_rtz : to8 0x04 .rtz (FV.ofInt 260) = (0x7F, fOF ||| fNX) := by decide +kernel

/-- The example at VRCP (06_vector.md): 1/3 to 12 bits is 2,731/8,192; 2^127 and 2^-149. -/
theorem test_vrcp : vrcp32 0x40400000 = ((rne32 (.fin false 2731 (-13))).1, fNX) ∧ (vrcp32 0x7F000000).2 = 0 ∧
    val32 (vrcp32 0x7F000000).1 = val32 0x00400000 ∧ vrcp32 0x00000001 = (0x7F800000, fOF ||| fNX) := by decide +kernel

/-- The example behind R25 (01_machine_state.md): with SPAN 5 offset 0x0C30 maps to 0x0C00, and the eight banks differ. -/
theorem test_swizzle : swizzle 5 0x0C30 = 0x0C00 ∧
    ((countUp 0 8).map fun k => swizzle 5 (0x30 + 0x400 * k) / 16 % 64) = [3, 2, 1, 0, 7, 6, 5, 4] := by decide

/-- The example behind R83 (04_scalar_control.md): MOVI a5, 15 and MOVHI a5, 0x7F800 make 0x007F_F800. -/
theorem test_movhi : (((15 : Word) <<< 19) ||| (0x7F800 : BitVec 19).setWidth 64) = 0x007FF800 := by decide

/-- The example at VWMG (06_vector.md): (2, 3, 2) and (2, 7, 2) merge into (4, 5, 20) without a flag. -/
theorem test_vwmg : wmgLane 0x40000000 0x40400000 0x40000000 0x40000000 0x40E00000 0x40000000 = ((0x40800000, 0x40A00000, 0x41A00000), 0) := by
  decide +kernel

/-- The example behind R55 (02_numbers.md): a boundary cell of (1, 1) makes word 1 and 1.4142135; θ = AT[0] makes word 0x21. -/
theorem test_rotator_words :
    (let c := vectorCell ⟨.ofInt 1, .ofInt 1, 0⟩
     c.1 = 1 ∧ (rne32 (gainStep 1 c.2.x).1).1 = 0x3FB504F3) ∧ (angleWord 0x3F490FDB).1 = 0x21 := by decide +kernel

/-- The example behind R54: an inner cell of (3, 1) under that word is (4, -2) before compensation. -/
theorem test_rotator_inner :
    let c := applyWord 1 ⟨.ofInt 3, .ofInt 1, 0⟩
    fvCmp c.x (.ofInt 4) = .eq ∧ fvCmp c.y (.ofInt (-2)) = .eq := by decide +kernel

/-- The example behind R193 (15_copies_fabric.md): 3 rows of 5 bytes padded into 4 rows of 8 with 0xAABB_CCDD. -/
theorem test_cpy_fill :
    let m := { cpy0 with len := 8, rows := 4, vlen := 5, vrows := 3, oob := true, fill := 0xAABBCCDD, spitch := 5 }
    (fillPieces m 5 5).1 = [(5, [0xCC, 0xBB, 0xAA])] ∧ (fillPieces m 5 24).1 = [(24, [0xDD, 0xCC, 0xBB, 0xAA, 0xDD, 0xCC, 0xBB, 0xAA])] ∧
      cpySrc m 20 = some 14 := by decide +kernel

/-- The example behind R352 (17_tiers_stream.md): THR 8,192, GK 64, GMAX 20,000 and PL 10,000 give a gap of 452. -/
theorem test_gap : gapOf (setMreg State.reset (.tpcfg 0) (pack [(8192, 40), (64, 32), (20000, 8)])) 0 10000 = 452 ∧
    gapOf (setMreg State.reset (.tpcfg 0) (pack [(8192, 40), (64, 32), (20000, 8)])) 0 5000 = 0 := by decide +kernel

/-- The example behind R346 (17_tiers_stream.md): entry 0 of Program Four's stream. -/
theorem test_itinerary_entry :
    let w : List Word := [0x0000800000000010, 0x00010000000000C8, 0x0001800000000064, 0x000001F430000000]
    shardVa w 0 = 2 ^ 40 ∧ shardVa w 1 = 2 ^ 41 ∧ shardVa w 2 = 3 * 2 ^ 40 ∧ shardLen w = 512 ∧ dueOf {} w 0 = 500 ∧ dueOf {} w 1 = 700 ∧
      dueOf {} w 2 = 800 ∧ entCheck w = none := by decide +kernel

/-- The example behind R367 (19_kv_cache.md): a handle of Program Five. -/
theorem test_handle : handleDie 0x0071034001200400 = 1 ∧ handleEnt 0x0071034001200400 = 0x12 ∧ bits 0x0071034001200400 63 48 = 0x71 ∧
    bits 0x0071034001200400 47 40 = 3 ∧ bits 0x0071034001200400 19 0 = 1024 := by decide

/-- The example behind R241 of the launch record (10_execution_scheduling.md): word 0 of the launch of Program One. -/
theorem test_launch_word :
    let l := newLaunch 0 [wordOf (2 ^ 63 + 2 ^ 59 + 2 * 2 ^ 32 + 2)]
    lrLvl l = 1 ∧ lrNtask l = 2 ∧ lrDsize l = 2 ∧ bits (lrW l 0) 58 57 = 0 ∧ bitAt (lrW l 0) 56 = false := by decide +kernel

/-- Core 0 after the step that runs a word as the first instruction, seat 0 changed before it. -/
def after (w : Nat) (f : Seat → Seat) : Core :=
  match step (modSeat (State.reset.withFetchWord 32 w) 0 0 f) with
  | .next t => coreAt t 0
  | _ => {}

/-- R13, R69, R78: ADD a6, a5, a5 with 7 in a5 sends 14 to a6 and its unit's latch. -/
theorem test_step_add : ((after 0x0060A280 fun t => { t with a := [(5, 7)] }).effs.map (·.land)) = [.sca 6 0 14] := by decide +kernel

/-- R83: MOVI a5, 15. -/
theorem test_step_movi : ((after 0x5850000F id).effs.map (·.land)) = [.sca 5 0 15] := by decide +kernel

/-- R25, R107: ST of a6 to offset 24 of e0 stores eight bytes, the lowest first (the spec's doubling kernel, 03_encoding.md). -/
theorem test_exec_st :
    (let s := onT fun t => { t with a := [(6, 0x0102)], ext := [(0, e0)] }
     match exec (.st .m0 (r 6) 0 (r 0) 3 3) { s with cur := 0 } with
     | .next t => (coreAt t 0).effs.map (·.land)
     | _ => []) = [.store [(24, 2), (25, 1), (26, 0), (27, 0), (28, 0), (29, 0), (30, 0), (31, 0)]] := by decide +kernel
end Sys2Proof.Tests
end

/-!
PROOFS. The S class (R76 to R83): the constants of MOVI and MOVHI, the bit fields of BFX and BFI, products and quotients.
-/
namespace Sys2Proof.ScalarControl

open Sys2Proof Sys2Proof.Machine Sys2Proof.Safety Sys2Proof.Laws

/-! ### Words of the S slots -/

/-- V1_OPC belongs to version 1 alone: a bundle of version 0 reads a word, or refuses it, as its slot does (R63, R64). -/
theorem decSyl_version_zero (s : Nat) (w : W32) : decSyl 0 s w = decSlot s w := by
  unfold decSyl
  cases decSlot s w with
  | ok i => simp
  | error c => simp

theorem decSlot_sSlot (u : SSlot) (w : W32) : decSlot (sSlot u) w = decS u w := by cases u <;> rfl

/-- The word of a syllable that S.L encodes: an opcode, a destination with its W bit, and IMM19 (Table 3-5). -/
def longWord (op d wb : Nat) (i : BitVec 19) : W32 := BitVec.ofNat 32 (op * 2 ^ 26 + d * 2 ^ 20 + wb * 2 ^ 19 + i.toNat)

theorem encW_long (op d wb : Nat) (i : BitVec 19) : encW op [(20, d), (19, wb), (0, i.toNat)] = longWord op d wb i := by
  have hsum : encFields op [(20, d), (19, wb), (0, i.toNat)] = op * 2 ^ 26 + d * 2 ^ 20 + wb * 2 ^ 19 + i.toNat := by
    simp only [encFields]
    omega
  rw [encW, longWord, hsum]

theorem decSyl_movi (u : SSlot) (d : SDst) (i : BitVec 19) :
    decSyl 0 (sSlot u) (longWord 0x16 (dstCode d) (dstW d) i) = .ok (.movi u d i) :=
  RoundTrip.movi u d i rfl _ _ rfl (congrArg some (encW_long 0x16 (dstCode d) (dstW d) i))

theorem decSyl_movhi (u : SSlot) (d : RDst) (i : BitVec 19) :
    decSyl 0 (sSlot u) (longWord 0x17 (rdstCode d) (rdstW d) i) = .ok (.movhi u d i) :=
  RoundTrip.movhi u d i rfl _ _ rfl (congrArg some (encW_long 0x17 (rdstCode d) (rdstW d) i))

/-- The word of a bit field's syllable: S.R with the position in the B field and the length in the C field (R82). -/
def fieldWord (op d wb : Nat) (a : SSrc) (pos len : BitVec 6) : W32 :=
  BitVec.ofNat 32 (op * 2 ^ 26 + d * 2 ^ 20 + wb * 2 ^ 19 + srcCode a * 2 ^ 13 + pos.toNat * 2 ^ 7 + len.toNat * 2)

theorem fieldWord_fields {op d wb : Nat} {a : SSrc} {pos len : BitVec 6} {w : W32} (h : fieldWord op d wb a pos len = w)
    (ho : op < 64) (hd : d < 64) (hwb : wb < 2) :
    fld w 26 6 = op ∧ fld w 20 6 = d ∧ fld w 19 1 = wb ∧ fld w 13 6 = srcCode a ∧ fld w 7 6 = pos.toNat ∧
    fld w 1 6 = len.toNat ∧ fld w 0 1 = 0 := by
  have := srcCode_lt a
  have := pos.isLt
  have := len.isLt
  subst h
  simp only [fld, fieldWord, BitVec.toNat_ofNat]
  refine ⟨?_, ?_, ?_, ?_, ?_, ?_, ?_⟩ <;> omega

/-- The length that a C field names: code 0 stands for 64 (R82). -/
theorem bfLen_eq (len : BitVec 6) : bfLen len = if len = 0 then 64 else len.toNat := by
  simp [bfLen, BitVec.toNat_eq]

/-- BFX: such a word's operands are all codes that exist, so only a pair past bit 63 is refused (R82). -/
theorem decSyl_bfx (u : SSlot) (d : SDst) (a : SSrc) (pos len : BitVec 6) :
    decSyl 0 (sSlot u) (fieldWord 0x1A (dstCode d) (dstW d) a pos len) =
      if pos.toNat + bfLen len ≤ 64 then .ok (.bfx u d a pos len) else .error immIll := by
  have hd := dstCode_lt d
  generalize hw : fieldWord 0x1A (dstCode d) (dstW d) a pos len = w
  obtain ⟨fop, fd, fw, fa, fpos, flen, flow⟩ := fieldWord_fields hw (by decide) (by omega) (dstW_lt d)
  rw [decSyl_version_zero, decSlot_sSlot, decS, fop]
  by_cases hfit : pos.toNat + bfLen len ≤ 64
  · simp [guarded, fldB, fd, fw, fa, fpos, flen, flow, hfit]
  · simp [guarded, fldB, fd, fw, fa, fpos, flen, flow, hfit, Nat.lt_of_not_le hfit]

/-- BFI: `fo`, which its destination may not name (R77), is no `RDst`, so again only a pair past bit 63 is refused. -/
theorem decSyl_bfi (u : SSlot) (d : RDst) (a : SSrc) (pos len : BitVec 6) :
    decSyl 0 (sSlot u) (fieldWord 0x1B (rdstCode d) (rdstW d) a pos len) =
      if pos.toNat + bfLen len ≤ 64 then .ok (.bfi u d a pos len) else .error immIll := by
  have hd := rdstCode_lt d
  generalize hw : fieldWord 0x1B (rdstCode d) (rdstW d) a pos len = w
  obtain ⟨fop, fd, fw, fa, fpos, flen, flow⟩ := fieldWord_fields hw (by decide) (by omega) (rdstW_lt d)
  rw [decSyl_version_zero, decSlot_sSlot, decS, fop]
  by_cases hfit : pos.toNat + bfLen len ≤ 64
  · simp [guarded, fldB, fd, fw, fa, fpos, flen, flow, hfit, rdstCode_ne]
  · simp [guarded, fldB, fd, fw, fa, fpos, flen, flow, hfit, Nat.lt_of_not_le hfit]

/-! ### Results sent -/

/-- A destination that is also read receives its result as the scalar destination it names does (R77). -/
theorem sendTo_rdstTo (s : State) (slot lat : Nat) (d : RDst) (v : Word) :
    sendTo s slot lat (rdstTo d) v = sendS s slot lat (destOf d) v := by
  rw [rdstTo_eq]; rfl

/-- One source read, and what is computed from it sent. -/
theorem results_one {i : Instr} {s : State} {slot lat : Nat} {a : SSrc} {d : SDst} {f : Word → Word} (h : Readable s [a])
    (hi : exec i s = .next (withSrcs s slot [a] fun v s => sendS s slot lat d (f (v a)))) :
    Results i s [a] slot lat d (f (srcAt s a)) :=
  does_one (f := fun x s => sendS s slot lat d (f x)) h hi fun _ ht => issued_sendS ht rfl (popped_fpc s [a]) slot lat d _

/-- The same with the value that the destination held at issue (R77). -/
theorem results_one_old {i : Instr} {s : State} {slot lat : Nat} {a : SSrc} {d : RDst} {f : Word → Word → Word}
    (h : Readable s [a])
    (hi : exec i s = .next (withSrcs s slot [a] fun v s => sendTo s slot lat (rdstTo d) (f (rdstVal (cs s) d) (v a)))) :
    Results i s [a] slot lat (destOf d) (f (oldOf s d) (srcAt s a)) :=
  does_one (f := fun x s => sendTo s slot lat (rdstTo d) (f (rdstVal (cs s) d) x)) h hi fun t ht => by
    rw [sendTo_rdstTo, issued_cs ht, rdstVal_popped]
    exact issued_sendS ht rfl (popped_fpc s [a]) slot lat (destOf d) _

/-- A result sent with the latency of the bundle's version, and the freezes that version 1 asks for (R63). -/
theorem issued_sendCompat {s t : State} {x : Seat} (h : Issued s t x [] (cc s).grp) (hx : x.fpc = (cs s).fpc) (slot ln lc : Nat)
    (d : SDst) (v : Word) :
    Issued s (sendS (compat t ln lc).2 slot (compat t ln lc).1 d v) (reserved x d) [sends s slot (latencyOf s ln lc) d v]
      (slower (cc s).grp (ln - lc)) := by
  obtain ⟨hlat, hg⟩ := issued_compat h ln lc
  rw [hlat]
  exact issued_sendS hg (by simp) hx slot (latencyOf s ln lc) d v

/-- A syllable of two sources with a native and a compatibility latency (R63). -/
theorem does_sBinL {i : Instr} {s : State} {u : SSlot} {d : SDst} {a b : SSrc} {ln lc : Nat} {f : Word → Word → Word}
    {v : Word} (h : Readable s [a, b]) (hi : exec i s = sBinL u d a b ln lc f s) (hv : f (srcAt s a) (srcAt s b) = v) :
    Does i s (reserved (popped s [a, b]) d) [sends s (sSlot u) (latencyOf s ln lc) d v] (slower (cc s).grp (ln - lc)) :=
  does_two (f := fun x y s => sendS (compat s ln lc).2 (sSlot u) (compat s ln lc).1 d (f x y)) h hi fun _ ht =>
    hv ▸ issued_sendCompat ht (popped_fpc s [a, b]) (sSlot u) ln lc d _

/-! ### Constants (R83) -/

/-- What MOVHI makes of the value its register held (R83). -/
def movhiVal (x : Word) (i : BitVec 19) : Word := (x <<< 19) ||| i.zeroExtend 64

theorem movi_results (s : State) (u : SSlot) (d : SDst) (i : BitVec 19) :
    Results (.movi u d i) s [] (sSlot u) 1 d (i.signExtend 64) := results_send_nil rfl

theorem movhi_results (s : State) (u : SSlot) (d : RDst) (i : BitVec 19) :
    Results (.movhi u d i) s [] (sSlot u) 1 (destOf d) (movhiVal (oldOf s d) i) := by
  have hold : rdstVal (cs s) d = oldOf s d := rdstVal_popped s [] d
  refine results_send_nil ?_
  rw [← sendTo_rdstTo, ← hold]
  rfl

theorem movhiVal_bit (x : Word) (i : BitVec 19) {n : Nat} (hn : n < 64) :
    (movhiVal x i).getLsbD n = if n < 19 then i.getLsbD n else x.getLsbD (n - 19) := by
  by_cases h : n < 19
  · simp [movhiVal, hn, h]
  · have hi : i.getLsbD n = false := BitVec.getLsbD_of_ge i n (Nat.le_of_not_lt h)
    simp only [movhiVal, BitVec.getLsbD_or, BitVec.getLsbD_shiftLeft, BitVec.truncate_eq_setWidth, BitVec.getLsbD_setWidth,
      hn, h, hi, decide_true, decide_false, Bool.not_false, Bool.true_and, Bool.and_false, Bool.or_false, if_false]

/-- The constant that MOVI and three MOVHI leave. -/
def fourWords (i j k l : BitVec 19) : Word := movhiVal (movhiVal (movhiVal (i.signExtend 64) j) k) l

/-- The last three immediates stand whole in the constant, and of the first the seven low bits above them. -/
theorem fourWords_bit (i j k l : BitVec 19) {n : Nat} (hn : n < 64) :
    (fourWords i j k l).getLsbD n =
      if n < 19 then l.getLsbD n else if n < 38 then k.getLsbD (n - 19) else if n < 57 then j.getLsbD (n - 38)
      else i.getLsbD (n - 57) := by
  have h19 : n - 19 < 64 := by omega
  have h38 : n - 38 < 64 := by omega
  have h57 : n - 57 < 64 := by omega
  have htop : n - 57 < 19 := by omega
  have c38 : n - 19 < 19 ↔ n < 38 := by omega
  have c57 : n - 38 < 19 ↔ n < 57 := by omega
  rw [fourWords, movhiVal_bit _ _ hn, movhiVal_bit _ _ h19, Nat.sub_sub, movhiVal_bit _ _ h38, Nat.sub_sub]
  simp only [BitVec.getLsbD_signExtend, h57, htop, c38, c57, decide_true, Bool.true_and, if_true]

/-- A bit of a slice of a word is a bit of the word. -/
theorem slice_bit (v : Word) {lo n : Nat} (hlo : lo ≤ n) (hn : n < lo + 19) :
    (v.extractLsb' lo 19).getLsbD (n - lo) = v.getLsbD n := by
  have hin : n - lo < 19 := by omega
  have hsum : lo + (n - lo) = n := by omega
  simp only [BitVec.getLsbD_extractLsb', hin, hsum, decide_true, Bool.true_and]

/-- Every constant is built: its three low fields of 19 bits are the immediates of the MOVHI, its top seven bits that of MOVI. -/
theorem fourWords_slices (v : Word) :
    fourWords (v.extractLsb' 57 19) (v.extractLsb' 38 19) (v.extractLsb' 19 19) (v.extractLsb' 0 19) = v := by
  refine BitVec.eq_of_getLsbD_eq fun n hn => ?_
  rw [fourWords_bit _ _ _ _ hn]
  by_cases h19 : n < 19
  · rw [if_pos h19]
    exact slice_bit v (Nat.zero_le n) (by omega)
  · by_cases h38 : n < 38
    · rw [if_neg h19, if_pos h38]
      exact slice_bit v (by omega) (by omega)
    · by_cases h57 : n < 57
      · rw [if_neg h19, if_neg h38, if_pos h57]
        exact slice_bit v (by omega) (by omega)
      · rw [if_neg h19, if_neg h38, if_neg h57]
        exact slice_bit v (by omega) (by omega)

/-- MOVI's bits above bit 6 leave the register. -/
theorem fourWords_congr {i i' : BitVec 19} (j k l : BitVec 19) (h : i.toNat % 128 = i'.toNat % 128) :
    fourWords i j k l = fourWords i' j k l := by
  refine BitVec.eq_of_getLsbD_eq fun n hn => ?_
  have hbit : i.getLsbD (n - 57) = i'.getLsbD (n - 57) := by
    have hlow : n - 57 < 7 := by omega
    have := congrArg (Nat.testBit · (n - 57)) h
    simp only [show (128 : Nat) = 2 ^ 7 from rfl, Nat.testBit_mod_two_pow, hlow, decide_true, Bool.true_and] at this
    exact this
  rw [fourWords_bit _ _ _ _ hn, fourWords_bit _ _ _ _ hn, hbit]

/-- Settles O10: each bit of the constant is a bit of one of the four immediates. -/
theorem constantsAreBuilt : Obligations.ConstantsAreBuilt := by
  unfold Obligations.ConstantsAreBuilt
  refine ⟨fun s u i => ⟨fun d => ⟨movi_results s u d i, decSyl_movi u d i⟩,
    fun d => ⟨movhi_results s u d i, decSyl_movhi u d i⟩⟩, fun v => ?_, fun i i' j k l => fourWords_congr j k l⟩
  exact ⟨_, _, _, _, fourWords_slices v⟩

/-! ### Bit fields (R82) -/

/-- Settles O11: a word is refused only when its field passes bit 63, and the values are those of `bfxVal_bit` and `bfiVal_bit`. -/
theorem bitFieldsAreMoved : Obligations.BitFieldsAreMoved := by
  unfold Obligations.BitFieldsAreMoved
  intro s u a pos len
  rw [← bfLen_eq]
  refine ⟨fun d => decSyl_bfx u d a pos len, fun d => decSyl_bfi u d a pos len, fun hr _ => ⟨fun d => ?_, fun d => ?_⟩⟩
  · exact ⟨_, results_one (f := fun x => bfxVal x pos.toNat (bfLen len)) hr rfl,
      fun k hk => bfxVal_bit (srcAt s a) pos.toNat (bfLen len) k hk⟩
  · exact ⟨_, results_one_old (f := fun old x => bfiVal old x pos.toNat (bfLen len)) hr rfl,
      fun k hk => bfiVal_bit (oldOf s d) (srcAt s a) pos.toNat (bfLen len) k hk⟩

/-! ### Products and quotients (R79, R81) -/

theorem mulhVal_eq (x y : Word) : mulhVal x y = BitVec.ofInt 64 (x.toInt * y.toInt / 2 ^ 64) := by
  simp [mulhVal]

/-- Settles O12: every form sends one value with the latency of its version; DIV and REM agree with the signed division of words on the
most negative dividend too. -/
theorem productsAndQuotients : Obligations.ProductsAndQuotients := by
  unfold Obligations.ProductsAndQuotients
  intro s u d a b h x y R
  refine ⟨does_sBinL h rfl rfl, does_sBinL h rfl (mulhVal_eq x y), does_sBinL h rfl rfl, does_sBinL h rfl (divVal_eq x y),
    does_sBinL h rfl rfl, does_sBinL h rfl (remVal_eq x y), does_sBinL h rfl rfl, fun i ha => ?_⟩
  exact does_one (f := fun x s => sendS (compat s 3 2).2 (sSlot u) (compat s 3 2).1 d (x * immS i)) ha rfl fun _ ht =>
    issued_sendCompat ht (popped_fpc s [a]) (sSlot u) 3 2 d _

end Sys2Proof.ScalarControl
